-- ==== Sys2Proof/Word.lean ====
section
/-! DEFINITION. Word.lean: the words of the module. -/
namespace Sys2Proof

/-- A byte, the smallest addressable unit of every memory of the module (R2). -/
abbrev Byte := BitVec 8

/-- A doubleword: a register, a scalar of a tile, a descriptor word. -/
abbrev Word := BitVec 64

end Sys2Proof
end

