-- ==== Sys2Proof/Config.lean ====
section
/-! DEFINITION. Config.lean: the values the specification leaves open, as constants without a body. -/
namespace Sys2Proof.Config

/-- An open number: the `n`-th one the machine needs (cycle counts, hit or miss, undefined results). -/
opaque freeNat : Nat → Nat

/-- An open byte of region contents, by seed and address. -/
opaque freeByte : Nat → Nat → Byte

/-- An open doubleword, by seed and index. -/
opaque freeWord : Nat → Nat → Word

/-- Result of the fixed FP32 sequence of the gate functions other than RAW (R158), from score function, RENORM, the expert's
number, the logits (none: NaN) and the selected experts: open within the rule's relative error of 2⁻²⁰. -/
opaque riddleGate : Nat → Bool → Nat → List (Option Nat) → List Nat → Nat

/-- FP32 sum of three or more selected gates under RENORM (R158); its order is not stated. -/
opaque gateSum : List Nat → Nat

/-- Fused factory calibration (R352), by number: conversion losses, default and idle powers. -/
opaque fuse : Nat → Nat

/-- Estimated power of a domain over a window in units of 0.1 W (R350): fused coefficients and leakage over its voltage, temperature, gated
and ungated multiplications, and the activity the model does not count, as an open number. -/
opaque domainPower : Nat → List Int → Nat

/-- Fused voltage in mV of a domain at a step (R348). -/
opaque fusedMv : Nat → Nat → Nat

/-- The lintel, among `n` joining two dies, that carries hashed traffic to an address (R334). -/
opaque lintelHash : Nat → Nat → Nat

/-- Fused secrets and identities, by item and byte: 0 the unique device secret (R368), 1 the fuse calibration identity
(R414), 2 the boot ROM's version identity (R378), 16 + k the vendor key hash VKk (R368). -/
opaque fusedByte : Nat → Nat → Byte

/-- RSASSA-PSS verification (R370): modulus, message, signature. -/
opaque rsaOk : List Byte → List Byte → List Byte → Bool

/-- SLH-DSA-SHA2-192s verification (R370): public key, message, signature. -/
opaque slhOk : List Byte → List Byte → List Byte → Bool

/-- Signatures by the alias keys of a seed (R376, R380, R381): RSA with its salt number, SLH-DSA. -/
opaque rsaSign : List Byte → List Byte → Nat → List Byte
opaque slhSign : List Byte → List Byte → List Byte

/-- Certificates (R376, R380): 0 the vendor root, 1 and 2 the DeviceID certificates of RSA and SLH-DSA, 3 and 4 the alias
certificates issued from a seed. -/
opaque certificate : Nat → List Byte → List Byte

/-- The requester's verify data of FINISH is the session's (R380), by session number. -/
opaque finishOk : Nat → List Byte → Bool

/-- The responder's share of a key exchange, by session number. -/
opaque dheShare : Nat → Nat → Byte

/-- Contents of the FRU EEPROM (R453), and the board's PMBus readings, by command and number of the reading. -/
opaque fruByte : Nat → Byte
opaque pmbus : Nat → Nat → Nat

end Sys2Proof.Config
end

