-- ==== Sys2Proof/Machine/Bits.lean ====
section
/-! DEFINITION. Machine/Bits.lean: bit fields, sign extension, byte order and check values (R2, R316, R336). -/
namespace Sys2Proof.Machine

/-- Bits `hi` to `lo` of a natural number. -/
def bits (x hi lo : Nat) : Nat := (x >>> lo) % 2 ^ (hi + 1 - lo)

/-- Bit `i`. -/
def bit (x i : Nat) : Bool := x.testBit i

/-- One bit as a number. -/
def bitN (b : Bool) : Nat := if b then 1 else 0

/-- Bits `hi` to `lo` of a doubleword. -/
def getField (w : Word) (hi lo : Nat) : Nat := bits w.toNat hi lo

/-- The doubleword with bits `hi` to `lo` replaced by the low bits of `v`. -/
def setField (w : Word) (hi lo v : Nat) : Word :=
  let m : Nat := 2 ^ (hi + 1 - lo)
  BitVec.ofNat 64 (w.toNat - (bits w.toNat hi lo) <<< lo + (v % m) <<< lo)

/-- Two's complement reading of the low `n` bits. -/
def sext (n x : Nat) : Int :=
  let v := x % 2 ^ n
  if 2 * v < 2 ^ n then (v : Int) else (v : Int) - (2 ^ n : Nat)

/-- The low `n` bits of an integer, two's complement. -/
def wrapN (n : Nat) (x : Int) : Nat := (x % ((2 ^ n : Nat) : Int)).toNat

/-- `n` bytes of a number, least significant first (R2). -/
def bytesOf : Nat → Nat → List Byte
  | 0, _ => []
  | n + 1, x => BitVec.ofNat 8 x :: bytesOf n (x / 256)

/-- The number whose bytes, least significant first, are given (R2). -/
def ofBytes : List Byte → Nat
  | [] => 0
  | b :: bs => b.toNat + 256 * ofBytes bs

/-- The number stored in bytes `off` to `off + n − 1` of a structure (R2). -/
def le (bs : List Byte) (off n : Nat) : Nat := ofBytes ((bs.drop off).take n)

/-- Number of one bits below bit `n`. -/
def popcount (n x : Nat) : Nat := (List.range n).foldl (fun c i => if x.testBit i then c + 1 else c) 0

/-- Least natural number not below the quotient. -/
def ceilDiv (a b : Nat) : Nat := (a + b - 1) / b

/-- `x` rounded up to a multiple of `m`. -/
def roundUp (x m : Nat) : Nat := ceilDiv x m * m

/-! ## Check values (R316) -/

/-- Reverse the low `w` bits. -/
def revBits : Nat → Nat → Nat
  | 0, _ => 0
  | w + 1, x => x % 2 * 2 ^ w + revBits w (x / 2)

/-- One bit fed. -/
def crcBit (w poly v b : Nat) : Nat :=
  let fb := (v / 2 ^ (w - 1) + b) % 2
  let x := v * 2 % 2 ^ w
  if fb = 1 then x ^^^ (poly % 2 ^ w) else x

/-- One byte fed, most significant bit first. -/
def crcByte (w poly : Nat) (refin : Bool) (v : Nat) (b : Byte) : Nat :=
  let b := if refin then revBits 8 b.toNat else b.toNat
  [7, 6, 5, 4, 3, 2, 1, 0].foldl (fun v i => crcBit w poly v (b / 2 ^ i % 2)) v

/-- Bytes fed into a running value. -/
def crcFeed (w poly : Nat) (refin : Bool) (v : Nat) (bs : List Byte) : Nat :=
  bs.foldl (crcByte w poly refin) (v % 2 ^ w)

/-- RESULT of a running value. -/
def crcResult (w : Nat) (refout inv : Bool) (v : Nat) : Nat :=
  (if refout then revBits w (v % 2 ^ w) else v % 2 ^ w) ^^^ (if inv then 2 ^ w - 1 else 0)

/-- CRC-32C of a lintel's flit (R316, R336). -/
def crc32c (bs : List Byte) : Nat := crcResult 32 true true (crcFeed 32 0x1EDC6F41 true 0xFFFFFFFF bs)

end Sys2Proof.Machine
end

