-- ==== Sys2Proof/Machine/Regs.lean ====
section
/-! DEFINITION. Machine/Regs.lean: every memory-mapped register of the module, as the field maps of chapters 02 to 23 and
the register index (R434, R435) give it: its kind, its place in the register range, its fields with access code,
reset value, class (R412) and supported range (R6). -/
namespace Sys2Proof.Machine

/-- Access codes of R4. -/
inductive Acc where
  | ro | rw | w1c | w1s | wo | rc
deriving DecidableEq, Repr

/-- Class of a field (R412): configuration-class fields lock at the end of phase 3, runtime-mutable fields count in
CFG_EPOCH (R413), every other field is operational. -/
inductive FCls where
  | config | runtime | oper
deriving DecidableEq, Repr

/-- Supported values of an RW field (R6): all, a range, or a signed range (two's complement in the field). -/
inductive Clamp where
  | all | range (min max : Nat) | signed (bound : Nat)
deriving DecidableEq, Repr

/-- Where the instances of a register kind lie: a run of words `stride` apart, instances `first` to `count` − 1; one per queue's doorbell page,
control window (work, admin or both); `count` consecutive words per tile window; per C-die window (R434, R435). -/
inductive Place where
  | lin (base stride first count : Nat)
  | qdb (off : Nat) | qctl (off : Nat) | qwork (off : Nat) | qadmin (off : Nat)
  | tile (off count : Nat) | die (off count : Nat)
deriving DecidableEq, Repr

/-- One constructor per register of the field maps, under the name the map's caption gives it (the index letter left
out). -/
inductive RegKind where
  | CRS_PERIOD | CRS_COURSE_NUM | CRS_NOW | CRS_FLOOR | CRS_SHARE | CRS_SLICE | CRS_DEBT | CRS_EVENT 
  | CRS_C0_RES | CRS_C0_GROUP | ARC_SHAPE | ARC_TIMING | ARC_MARKS | ARC_STREAM | ARC_DRAIN_DONE | ARC_FRZ_CYC 
  | ARC_COUNT | ARC_CAUSE | ARC_EVENT | CRB_STATE | CRB_LS_POS | CRB_OPS | CRB_SFU | CRB_STALL | CRB_EVENT 
  | TSQ_STATE | TSQ_PC | TSQ_EXC | TSQ_EXC_WORD | TSQ_EXC_ADDR | TSQ_QCTL | TSQ_QHIT | TSQ_QMISS | TSQ_ISSUED 
  | TSQ_STALL | TSQ_RELOC | FDR_STATE | FDR_RD_BYTES | FDR_WT_BYTES | FDR_DR_BYTES | FDR_ASHLAR | FDR_KV 
  | FDR_EVENT | FDR_RDL_STATE | FDR_RDL_TOKENS | FDR_RDL_ASSIGN | FDR_RDL_EVENT | SCP_PLINTH | SCP_ECC 
  | SCP_UE_ADDR | SCP_BANK_WAIT | SCP_ARRIVED | SCP_EVENT | SCP_ACTR | SCP_DS_CLAIM | SCP_DS_ECC 
  | SCP_DS_UE_ADDR | SCP_DS_EVENT | MTC_CMD | MTC_LOOKUP | MTC_AMO | MTC_STATE | MTC_ECC | MTC_LOST_ADDR 
  | MTC_EVENT | MTC_WAYMASK | MEM_MODE | MEM_PRIO | MEM_SCRUB | MEM_TRACK | MEM_RD_BYTES | MEM_WR_BYTES 
  | MEM_ECC | MEM_UE_ADDR | MEM_EVENT | MEM_ADD_ADDR | MEM_ADD_LEN | MEM_ADD_OPND | MEM_ADD_CMD | MEM_ADD_RESULT 
  | XLT_INV | XLT_INV_RANGE | XLT_FAULT | XLT_FAULT_ADDR | XLT_STATS | XLT_EVENT | XLT_CTX_ROOT | XLT_CTX_DATUM 
  | CFE_Q_SQ_DB | CFE_Q_CQ_DB | CFE_Q_STATE | CFE_Q_CFG | CFE_AQ_CFG | CFE_Q_SQ_BASE | CFE_Q_CQ_BASE | CFE_Q_CTL 
  | CFE_Q_CPL | CFE_Q_STAT | CFE_Q_EVENT | CFE_STATUS | HOD_LINK | HOD_HOSTLOSS | HOD_OUTWIN | HOD_PF_WIN 
  | HOD_BAR2_WIN | HOD_FAULT | HOD_FAULT_ADDR | HOD_EVENT | HOD_INBOUND | HOD_STATE | HOD_BYTES | CHK_CFG 
  | CHK_PROF_CFG | CHK_POLY | CHK_PROF_POLY | CHK_INIT | CHK_PROF_INIT | CHK_VALUE | CHK_RESULT | CHK_DATA8 
  | CHK_DATA16 | CHK_DATA32 | LTL_CFG | LTL_STATE | LTL_FLITS_AB | LTL_FLITS_BA | LTL_REPLAY | LTL_WIN 
  | LTL_TRAIN | LTL_SB | LTL_EVENT | PWR_CAP | PWR_BRAKE | PWR_STATUS | PWR_POLICY | PWR_EVENT | PWR_STRETCH 
  | PWR_PHASE_SEL | PWR_PHASE_DATA | PWR_EOPER | PWR_FUSE | PWR_DOM | PWR_TRIM | PWR_TEMP | PWR_EPART | PWR_EQ 
  | SEC_STATE | SEC_SERIAL | SEC_SVNMIN | SEC_MBOX_CMD | SEC_MBOX_STATUS | SEC_EVENT | SEC_SLOTS | SEC_DEBUG 
  | SEC_BOOT | SEC_BWFENCE | SEC_PART | SEC_PART_CORES_LO | SEC_PART_CORES_HI | SEC_RANGE | CFG_STATE 
  | CFG_EPOCH | CFG_LOCKED_WRITES | CFG_RESET | CFG_EVENT | CFG_LIVE_SEQ | CFG_RECORD_ID | CFG_BOOT_TIME 
  | CFG_PLUMB | CFG_LIVE | ERR_STATUS | ERR_LOG_HEAD | ERR_LOG_TAIL | ERR_LOST | ERR_FATAL | ERR_IRQ_EN 
  | ERR_COUNT | ERR_SECONDARY | ERR_CE | CAP_ID | CAP_UNITS | CAP_SIZES | ERR_LOG | SEC_MBOX_BUF 
deriving DecidableEq, Repr

/-- A field of a register: its register, bits, access code, class, supported values and reset value (for a
configuration-class field the record default, log entry 7). -/
structure Fld where
  reg : RegKind
  hi : Nat
  lo : Nat
  acc : Acc
  cls : FCls
  clamp : Clamp
  rst : Nat
deriving DecidableEq, Repr

/-- The place of each register kind (R434, R435 and the offset tables of the owning chapters). -/
def RegKind.place : RegKind → Place
  | .CRS_PERIOD => .lin 0x10F00000 8 0 1
  | .CRS_COURSE_NUM => .lin 0x10F00008 8 0 1
  | .CRS_NOW => .lin 0x10F00010 8 0 1
  | .CRS_FLOOR => .lin 0x10F00018 8 0 1
  | .CRS_SHARE => .lin 0x10F00020 8 0 1
  | .CRS_SLICE => .lin 0x10F00028 8 0 1
  | .CRS_DEBT => .lin 0x10F00030 8 0 1
  | .CRS_EVENT => .lin 0x10F00038 8 0 1
  | .CRS_C0_RES => .lin 0x10F00040 8 0 1
  | .CRS_C0_GROUP => .lin 0x10F00100 8 0 16
  | .ARC_SHAPE => .tile 0x1000 1
  | .ARC_TIMING => .tile 0x1008 1
  | .ARC_MARKS => .tile 0x1010 1
  | .ARC_STREAM => .tile 0x1018 1
  | .ARC_DRAIN_DONE => .tile 0x1020 1
  | .ARC_FRZ_CYC => .tile 0x1028 1
  | .ARC_COUNT => .tile 0x1030 1
  | .ARC_CAUSE => .tile 0x1038 1
  | .ARC_EVENT => .tile 0x1040 1
  | .CRB_STATE => .tile 0x1400 1
  | .CRB_LS_POS => .tile 0x1408 1
  | .CRB_OPS => .tile 0x1410 1
  | .CRB_SFU => .tile 0x1418 1
  | .CRB_STALL => .tile 0x1420 1
  | .CRB_EVENT => .tile 0x1428 1
  | .TSQ_STATE => .tile 0x800 1
  | .TSQ_PC => .tile 0x808 1
  | .TSQ_EXC => .tile 0x810 1
  | .TSQ_EXC_WORD => .tile 0x818 1
  | .TSQ_EXC_ADDR => .tile 0x820 1
  | .TSQ_QCTL => .tile 0x828 1
  | .TSQ_QHIT => .tile 0x830 1
  | .TSQ_QMISS => .tile 0x838 1
  | .TSQ_ISSUED => .tile 0x840 1
  | .TSQ_STALL => .tile 0x848 1
  | .TSQ_RELOC => .tile 0x900 32
  | .FDR_STATE => .tile 0x1800 1
  | .FDR_RD_BYTES => .tile 0x1808 1
  | .FDR_WT_BYTES => .tile 0x1810 1
  | .FDR_DR_BYTES => .tile 0x1818 1
  | .FDR_ASHLAR => .tile 0x1820 1
  | .FDR_KV => .tile 0x1828 1
  | .FDR_EVENT => .tile 0x1830 1
  | .FDR_RDL_STATE => .die 0x3800000 1
  | .FDR_RDL_TOKENS => .die 0x3800008 1
  | .FDR_RDL_ASSIGN => .die 0x3800010 1
  | .FDR_RDL_EVENT => .die 0x3800018 1
  | .SCP_PLINTH => .tile 0x1C00 1
  | .SCP_ECC => .tile 0x1C08 1
  | .SCP_UE_ADDR => .tile 0x1C10 1
  | .SCP_BANK_WAIT => .tile 0x1C18 1
  | .SCP_ARRIVED => .tile 0x1C20 1
  | .SCP_EVENT => .tile 0x1C28 1
  | .SCP_ACTR => .tile 0x1D00 64
  | .SCP_DS_CLAIM => .die 0x3900000 1
  | .SCP_DS_ECC => .die 0x3900008 1
  | .SCP_DS_UE_ADDR => .die 0x3900010 1
  | .SCP_DS_EVENT => .die 0x3900018 1
  | .MTC_CMD => .die 0x3A00000 1
  | .MTC_LOOKUP => .die 0x3A00008 1
  | .MTC_AMO => .die 0x3A00010 1
  | .MTC_STATE => .die 0x3A00018 1
  | .MTC_ECC => .die 0x3A00020 1
  | .MTC_LOST_ADDR => .die 0x3A00028 1
  | .MTC_EVENT => .die 0x3A00030 1
  | .MTC_WAYMASK => .die 0x3A00100 9
  | .MEM_MODE => .die 0x3B00000 1
  | .MEM_PRIO => .die 0x3B00008 1
  | .MEM_SCRUB => .die 0x3B00010 1
  | .MEM_TRACK => .die 0x3B00018 1
  | .MEM_RD_BYTES => .die 0x3B00020 1
  | .MEM_WR_BYTES => .die 0x3B00028 1
  | .MEM_ECC => .die 0x3B00030 1
  | .MEM_UE_ADDR => .die 0x3B00038 1
  | .MEM_EVENT => .die 0x3B00040 1
  | .MEM_ADD_ADDR => .die 0x3B00080 1
  | .MEM_ADD_LEN => .die 0x3B00088 1
  | .MEM_ADD_OPND => .die 0x3B00090 1
  | .MEM_ADD_CMD => .die 0x3B00098 1
  | .MEM_ADD_RESULT => .die 0x3B000A0 1
  | .XLT_INV => .lin 0x10E00000 8 0 1
  | .XLT_INV_RANGE => .lin 0x10E00008 8 0 1
  | .XLT_FAULT => .lin 0x10E00010 8 0 1
  | .XLT_FAULT_ADDR => .lin 0x10E00018 8 0 1
  | .XLT_STATS => .lin 0x10E00020 8 0 1
  | .XLT_EVENT => .lin 0x10E00028 8 0 1
  | .XLT_CTX_ROOT => .lin 0x10E01000 16 0 256
  | .XLT_CTX_DATUM => .lin 0x10E01008 16 0 256
  | .CFE_Q_SQ_DB => .qdb 0x0
  | .CFE_Q_CQ_DB => .qdb 0x8
  | .CFE_Q_STATE => .qdb 0x10
  | .CFE_Q_CFG => .qwork 0x0
  | .CFE_AQ_CFG => .qadmin 0x0
  | .CFE_Q_SQ_BASE => .qctl 0x8
  | .CFE_Q_CQ_BASE => .qctl 0x10
  | .CFE_Q_CTL => .qctl 0x18
  | .CFE_Q_CPL => .qctl 0x20
  | .CFE_Q_STAT => .qctl 0x28
  | .CFE_Q_EVENT => .qctl 0x30
  | .CFE_STATUS => .lin 0x10700000 8 0 1
  | .HOD_LINK => .lin 0x11000000 8 0 1
  | .HOD_HOSTLOSS => .lin 0x11000008 8 0 1
  | .HOD_OUTWIN => .lin 0x11000010 8 0 1
  | .HOD_PF_WIN => .lin 0x11000018 8 0 1
  | .HOD_BAR2_WIN => .lin 0x11000020 8 0 1
  | .HOD_FAULT => .lin 0x11000028 8 0 1
  | .HOD_FAULT_ADDR => .lin 0x11000030 8 0 1
  | .HOD_EVENT => .lin 0x11000038 8 0 1
  | .HOD_INBOUND => .lin 0x11000040 8 0 1
  | .HOD_STATE => .lin 0x11000100 16 0 16
  | .HOD_BYTES => .lin 0x11000108 16 0 16
  | .CHK_CFG => .lin 0x16000000 0x40 0 4
  | .CHK_PROF_CFG => .lin 0x16000400 0x20 0 8
  | .CHK_POLY => .lin 0x16000008 0x40 0 4
  | .CHK_PROF_POLY => .lin 0x16000408 0x20 0 8
  | .CHK_INIT => .lin 0x16000010 0x40 0 4
  | .CHK_PROF_INIT => .lin 0x16000410 0x20 0 8
  | .CHK_VALUE => .lin 0x16000018 0x40 0 4
  | .CHK_RESULT => .lin 0x16000020 0x40 0 4
  | .CHK_DATA8 => .lin 0x16000028 0x40 0 4
  | .CHK_DATA16 => .lin 0x16000030 0x40 0 4
  | .CHK_DATA32 => .lin 0x16000038 0x40 0 4
  | .LTL_CFG => .lin 0x40000000 8 0 1
  | .LTL_STATE => .lin 0x40001000 0x1000 0 36
  | .LTL_FLITS_AB => .lin 0x40001008 0x1000 0 36
  | .LTL_FLITS_BA => .lin 0x40001010 0x1000 0 36
  | .LTL_REPLAY => .lin 0x40001018 0x1000 0 36
  | .LTL_WIN => .lin 0x40001020 0x1000 0 36
  | .LTL_TRAIN => .lin 0x40001028 0x1000 0 36
  | .LTL_SB => .lin 0x40001030 0x1000 0 36
  | .LTL_EVENT => .lin 0x40001038 0x1000 0 36
  | .PWR_CAP => .lin 0x12000000 8 0 1
  | .PWR_BRAKE => .lin 0x12000008 8 0 1
  | .PWR_STATUS => .lin 0x12000010 8 0 1
  | .PWR_POLICY => .lin 0x12000018 8 0 1
  | .PWR_EVENT => .lin 0x12000020 8 0 1
  | .PWR_STRETCH => .lin 0x12000028 8 0 1
  | .PWR_PHASE_SEL => .lin 0x12000030 8 0 1
  | .PWR_PHASE_DATA => .lin 0x12000038 8 0 1
  | .PWR_EOPER => .lin 0x12000040 8 0 1
  | .PWR_FUSE => .lin 0x12000048 8 0 1
  | .PWR_DOM => .lin 0x12000100 8 0 24
  | .PWR_TRIM => .lin 0x12000200 8 0 24
  | .PWR_TEMP => .lin 0x12000300 8 0 19
  | .PWR_EPART => .lin 0x12000400 8 0 8
  | .PWR_EQ => .lin 0x12001000 8 0 1024
  | .SEC_STATE => .lin 0x14000000 8 0 1
  | .SEC_SERIAL => .lin 0x14000008 8 0 1
  | .SEC_SVNMIN => .lin 0x14000010 8 0 1
  | .SEC_MBOX_CMD => .lin 0x14000018 8 0 1
  | .SEC_MBOX_STATUS => .lin 0x14000020 8 0 1
  | .SEC_EVENT => .lin 0x14000028 8 0 1
  | .SEC_SLOTS => .lin 0x14000030 8 0 1
  | .SEC_DEBUG => .lin 0x14000038 8 0 1
  | .SEC_BOOT => .lin 0x14000100 8 1 7
  | .SEC_BWFENCE => .lin 0x14000040 8 0 1
  | .SEC_PART => .lin 0x14000200 32 0 8
  | .SEC_PART_CORES_LO => .lin 0x14000208 32 0 8
  | .SEC_PART_CORES_HI => .lin 0x14000210 32 0 8
  | .SEC_RANGE => .lin 0x14001000 8 512 1792
  | .CFG_STATE => .lin 0x15000000 8 0 1
  | .CFG_EPOCH => .lin 0x15000008 8 0 1
  | .CFG_LOCKED_WRITES => .lin 0x15000010 8 0 1
  | .CFG_RESET => .lin 0x15000018 8 0 1
  | .CFG_EVENT => .lin 0x15000020 8 0 1
  | .CFG_LIVE_SEQ => .lin 0x15000028 8 0 1
  | .CFG_RECORD_ID => .lin 0x15000030 8 0 1
  | .CFG_BOOT_TIME => .lin 0x15000038 8 0 1
  | .CFG_PLUMB => .lin 0x15000040 8 0 6
  | .CFG_LIVE => .lin 0x15000080 8 0 6
  | .ERR_STATUS => .lin 0x13000000 8 0 1
  | .ERR_LOG_HEAD => .lin 0x13000008 8 0 1
  | .ERR_LOG_TAIL => .lin 0x13000010 8 0 1
  | .ERR_LOST => .lin 0x13000018 8 0 1
  | .ERR_FATAL => .lin 0x13000020 8 0 1
  | .ERR_IRQ_EN => .lin 0x13000028 8 0 1
  | .ERR_COUNT => .lin 0x13000030 8 0 1
  | .ERR_SECONDARY => .lin 0x13000038 8 0 1
  | .ERR_CE => .lin 0x13000100 8 0 7
  | .CAP_ID => .lin 0x15001000 8 0 1
  | .CAP_UNITS => .lin 0x15001008 8 0 1
  | .CAP_SIZES => .lin 0x15001010 8 0 1
  | .ERR_LOG => .lin 0x13010000 8 0 8192
  | .SEC_MBOX_BUF => .lin 0x14100000 8 0 131072

namespace F

def CRS_PERIOD.PERIOD : Fld := ⟨.CRS_PERIOD, 2, 0, .rw, .config, (.range 0 4), 2⟩
def CRS_COURSE_NUM.COURSE : Fld := ⟨.CRS_COURSE_NUM, 63, 0, .ro, .oper, .all, 0⟩
def CRS_NOW.TICK : Fld := ⟨.CRS_NOW, 18, 0, .ro, .oper, .all, 0⟩
def CRS_FLOOR.C3_FLOOR : Fld := ⟨.CRS_FLOOR, 19, 15, .rw, .config, (.range 0 16), 0⟩
def CRS_FLOOR.C2_FLOOR : Fld := ⟨.CRS_FLOOR, 14, 10, .rw, .config, (.range 0 16), 0⟩
def CRS_FLOOR.C1_FLOOR : Fld := ⟨.CRS_FLOOR, 9, 5, .rw, .config, (.range 0 16), 0⟩
def CRS_FLOOR.C0_FLOOR : Fld := ⟨.CRS_FLOOR, 4, 0, .rw, .config, (.range 0 16), 6⟩
def CRS_SHARE.C2_SHARE : Fld := ⟨.CRS_SHARE, 15, 8, .rw, .runtime, (.range 0 128), 64⟩
def CRS_SHARE.C3_SHARE : Fld := ⟨.CRS_SHARE, 7, 0, .rw, .runtime, (.range 0 128), 16⟩
def CRS_SLICE.C3_SLICE : Fld := ⟨.CRS_SLICE, 20, 14, .rw, .runtime, (.range 1 64), 8⟩
def CRS_SLICE.C2_SLICE : Fld := ⟨.CRS_SLICE, 13, 7, .rw, .runtime, (.range 1 64), 8⟩
def CRS_SLICE.C1_SLICE : Fld := ⟨.CRS_SLICE, 6, 0, .rw, .runtime, (.range 1 64), 8⟩
def CRS_DEBT.DEBT : Fld := ⟨.CRS_DEBT, 23, 0, .ro, .oper, .all, 0⟩
def CRS_EVENT.SLIP_COUNT : Fld := ⟨.CRS_EVENT, 63, 32, .ro, .oper, .all, 0⟩
def CRS_EVENT.C0_LATE_COUNT : Fld := ⟨.CRS_EVENT, 31, 16, .ro, .oper, .all, 0⟩
def CRS_EVENT.C0_LATE : Fld := ⟨.CRS_EVENT, 1, 1, .w1c, .oper, .all, 0⟩
def CRS_EVENT.SCHED_SLIP : Fld := ⟨.CRS_EVENT, 0, 0, .w1c, .oper, .all, 0⟩
def CRS_C0_RES.RESERVED_TILES : Fld := ⟨.CRS_C0_RES, 25, 16, .ro, .oper, .all, 0⟩
def CRS_C0_RES.BUDGET_MAX : Fld := ⟨.CRS_C0_RES, 3, 0, .rw, .config, (.range 1 8), 2⟩
def CRS_C0_GROUP.VALID : Fld := ⟨.CRS_C0_GROUP, 63, 63, .rw, .config, .all, 0⟩
def CRS_C0_GROUP.QUEUE : Fld := ⟨.CRS_C0_GROUP, 51, 42, .rw, .config, .all, 0⟩
def CRS_C0_GROUP.TILE_COUNT : Fld := ⟨.CRS_C0_GROUP, 41, 32, .rw, .config, (.range 1 800), 1⟩
def CRS_C0_GROUP.FIRST_TILE : Fld := ⟨.CRS_C0_GROUP, 9, 0, .rw, .config, (.range 0 799), 0⟩
def ARC_SHAPE.VALID : Fld := ⟨.ARC_SHAPE, 63, 63, .ro, .oper, .all, 0⟩
def ARC_SHAPE.ORIGIN : Fld := ⟨.ARC_SHAPE, 57, 48, .ro, .oper, .all, 0⟩
def ARC_SHAPE.A : Fld := ⟨.ARC_SHAPE, 47, 42, .ro, .oper, .all, 0⟩
def ARC_SHAPE.B : Fld := ⟨.ARC_SHAPE, 41, 36, .ro, .oper, .all, 0⟩
def ARC_SHAPE.ROW_POS : Fld := ⟨.ARC_SHAPE, 35, 31, .ro, .oper, .all, 0⟩
def ARC_SHAPE.COL_POS : Fld := ⟨.ARC_SHAPE, 30, 25, .ro, .oper, .all, 0⟩
def ARC_SHAPE.WEST : Fld := ⟨.ARC_SHAPE, 1, 1, .ro, .oper, .all, 0⟩
def ARC_SHAPE.SOUTH : Fld := ⟨.ARC_SHAPE, 0, 0, .ro, .oper, .all, 0⟩
def ARC_TIMING.EDGES : Fld := ⟨.ARC_TIMING, 33, 32, .ro, .oper, .all, 0⟩
def ARC_TIMING.LATENCY : Fld := ⟨.ARC_TIMING, 31, 16, .ro, .oper, .all, 0⟩
def ARC_TIMING.ROW_INT : Fld := ⟨.ARC_TIMING, 15, 12, .ro, .oper, .all, 0⟩
def ARC_TIMING.SKEW : Fld := ⟨.ARC_TIMING, 7, 0, .ro, .oper, .all, 0⟩
def ARC_MARKS.HWM : Fld := ⟨.ARC_MARKS, 23, 16, .ro, .oper, .all, 0⟩
def ARC_MARKS.LWM : Fld := ⟨.ARC_MARKS, 15, 8, .ro, .oper, .all, 0⟩
def ARC_MARKS.EXTRA : Fld := ⟨.ARC_MARKS, 5, 0, .rw, .config, (.range 0 32), 0⟩
def ARC_STREAM.STREAM_SEQ : Fld := ⟨.ARC_STREAM, 63, 48, .ro, .oper, .all, 0⟩
def ARC_STREAM.ROWS_ISSUED : Fld := ⟨.ARC_STREAM, 31, 0, .ro, .oper, .all, 0⟩
def ARC_DRAIN_DONE.DONE : Fld := ⟨.ARC_DRAIN_DONE, 31, 0, .ro, .oper, .all, 0⟩
def ARC_FRZ_CYC.CYCLES : Fld := ⟨.ARC_FRZ_CYC, 63, 0, .rc, .oper, .all, 0⟩
def ARC_COUNT.FREEZES : Fld := ⟨.ARC_COUNT, 63, 32, .rc, .oper, .all, 0⟩
def ARC_COUNT.REWINDS : Fld := ⟨.ARC_COUNT, 31, 16, .rc, .oper, .all, 0⟩
def ARC_CAUSE.REWIND : Fld := ⟨.ARC_CAUSE, 4, 4, .ro, .oper, .all, 0⟩
def ARC_CAUSE.FSTEP : Fld := ⟨.ARC_CAUSE, 3, 3, .ro, .oper, .all, 0⟩
def ARC_CAUSE.THROTTLE : Fld := ⟨.ARC_CAUSE, 2, 2, .ro, .oper, .all, 0⟩
def ARC_CAUSE.DRAIN_FULL : Fld := ⟨.ARC_CAUSE, 1, 1, .ro, .oper, .all, 0⟩
def ARC_CAUSE.ROW_DRY : Fld := ⟨.ARC_CAUSE, 0, 0, .ro, .oper, .all, 0⟩
def ARC_EVENT.MEM_UE_SUB : Fld := ⟨.ARC_EVENT, 2, 2, .w1c, .oper, .all, 0⟩
def ARC_EVENT.SKID_OVF : Fld := ⟨.ARC_EVENT, 1, 1, .w1c, .oper, .all, 0⟩
def ARC_EVENT.REWIND : Fld := ⟨.ARC_EVENT, 0, 0, .w1c, .oper, .all, 0⟩
def CRB_STATE.BOUND : Fld := ⟨.CRB_STATE, 63, 63, .ro, .oper, .all, 0⟩
def CRB_STATE.C0 : Fld := ⟨.CRB_STATE, 62, 62, .ro, .oper, .all, 0⟩
def CRB_STATE.C0_GROUP : Fld := ⟨.CRB_STATE, 61, 58, .ro, .oper, .all, 0⟩
def CRB_STATE.BP_LEVEL : Fld := ⟨.CRB_STATE, 20, 16, .ro, .oper, .all, 0⟩
def CRB_STATE.BQ_LEVEL : Fld := ⟨.CRB_STATE, 12, 8, .ro, .oper, .all, 0⟩
def CRB_STATE.LS_LEVEL : Fld := ⟨.CRB_STATE, 4, 0, .ro, .oper, .all, 0⟩
def CRB_LS_POS.REMAIN : Fld := ⟨.CRB_LS_POS, 63, 48, .ro, .oper, .all, 0⟩
def CRB_LS_POS.REPEAT : Fld := ⟨.CRB_LS_POS, 47, 40, .ro, .oper, .all, 0⟩
def CRB_LS_POS.SOURCE : Fld := ⟨.CRB_LS_POS, 33, 32, .ro, .oper, .all, 0⟩
def CRB_LS_POS.ADDR : Fld := ⟨.CRB_LS_POS, 31, 0, .ro, .oper, .all, 0⟩
def CRB_OPS.ISSUED : Fld := ⟨.CRB_OPS, 63, 0, .rc, .oper, .all, 0⟩
def CRB_SFU.RESULTS : Fld := ⟨.CRB_SFU, 63, 0, .rc, .oper, .all, 0⟩
def CRB_STALL.LS_EMPTY : Fld := ⟨.CRB_STALL, 63, 32, .rc, .oper, .all, 0⟩
def CRB_STALL.BCAST_EMPTY : Fld := ⟨.CRB_STALL, 31, 0, .rc, .oper, .all, 0⟩
def CRB_EVENT.UNDERRUN : Fld := ⟨.CRB_EVENT, 1, 1, .w1c, .oper, .all, 0⟩
def CRB_EVENT.MEM_UE_SUB : Fld := ⟨.CRB_EVENT, 0, 0, .w1c, .oper, .all, 0⟩
def TSQ_STATE.HANDLE : Fld := ⟨.TSQ_STATE, 55, 46, .ro, .oper, .all, 0⟩
def TSQ_STATE.WAIT : Fld := ⟨.TSQ_STATE, 7, 4, .ro, .oper, .all, 0⟩
def TSQ_STATE.RUN : Fld := ⟨.TSQ_STATE, 2, 0, .ro, .oper, .all, 0⟩
def TSQ_PC.PC : Fld := ⟨.TSQ_PC, 47, 0, .ro, .oper, .all, 0⟩
def TSQ_EXC.VALID : Fld := ⟨.TSQ_EXC, 63, 63, .w1c, .oper, .all, 0⟩
def TSQ_EXC.LOST : Fld := ⟨.TSQ_EXC, 62, 62, .w1c, .oper, .all, 0⟩
def TSQ_EXC.PRECISE : Fld := ⟨.TSQ_EXC, 61, 61, .ro, .oper, .all, 0⟩
def TSQ_EXC.CODE : Fld := ⟨.TSQ_EXC, 55, 48, .ro, .oper, .all, 0⟩
def TSQ_EXC.PC : Fld := ⟨.TSQ_EXC, 47, 0, .ro, .oper, .all, 0⟩
def TSQ_EXC_WORD.WORD : Fld := ⟨.TSQ_EXC_WORD, 63, 0, .ro, .oper, .all, 0⟩
def TSQ_EXC_ADDR.ADDR : Fld := ⟨.TSQ_EXC_ADDR, 63, 0, .ro, .oper, .all, 0⟩
def TSQ_QCTL.TEXT_MODE : Fld := ⟨.TSQ_QCTL, 7, 7, .ro, .config, .all, 0⟩
def TSQ_QCTL.CLEAN : Fld := ⟨.TSQ_QCTL, 1, 1, .ro, .oper, .all, 0⟩
def TSQ_QCTL.ENABLE : Fld := ⟨.TSQ_QCTL, 0, 0, .ro, .oper, .all, 0⟩
def TSQ_QHIT.HITS : Fld := ⟨.TSQ_QHIT, 63, 0, .rc, .oper, .all, 0⟩
def TSQ_QMISS.MISSES : Fld := ⟨.TSQ_QMISS, 63, 32, .rc, .oper, .all, 0⟩
def TSQ_QMISS.PREFETCHES : Fld := ⟨.TSQ_QMISS, 31, 0, .rc, .oper, .all, 0⟩
def TSQ_ISSUED.ISSUED : Fld := ⟨.TSQ_ISSUED, 63, 0, .rc, .oper, .all, 0⟩
def TSQ_STALL.CREDIT : Fld := ⟨.TSQ_STALL, 63, 32, .rc, .oper, .all, 0⟩
def TSQ_STALL.WAITS : Fld := ⟨.TSQ_STALL, 31, 0, .rc, .oper, .all, 0⟩
def TSQ_RELOC.VALID : Fld := ⟨.TSQ_RELOC, 63, 63, .ro, .oper, .all, 0⟩
def TSQ_RELOC.TYPE : Fld := ⟨.TSQ_RELOC, 62, 62, .ro, .oper, .all, 0⟩
def TSQ_RELOC.HANDLE : Fld := ⟨.TSQ_RELOC, 41, 32, .ro, .oper, .all, 0⟩
def TSQ_RELOC.TARGET : Fld := ⟨.TSQ_RELOC, 9, 0, .ro, .oper, .all, 0⟩
def FDR_STATE.RF_READY : Fld := ⟨.FDR_STATE, 31, 24, .ro, .oper, .all, 0⟩
def FDR_STATE.SORT_PEND : Fld := ⟨.FDR_STATE, 23, 20, .ro, .oper, .all, 0⟩
def FDR_STATE.RF_QUEUE : Fld := ⟨.FDR_STATE, 19, 16, .ro, .oper, .all, 0⟩
def FDR_STATE.RF_ACTIVE : Fld := ⟨.FDR_STATE, 15, 15, .ro, .oper, .all, 0⟩
def FDR_STATE.RF_KIND : Fld := ⟨.FDR_STATE, 14, 12, .ro, .oper, .all, 0⟩
def FDR_STATE.WF_BUSY : Fld := ⟨.FDR_STATE, 1, 1, .ro, .oper, .all, 0⟩
def FDR_STATE.DR_BUSY : Fld := ⟨.FDR_STATE, 0, 0, .ro, .oper, .all, 0⟩
def FDR_RD_BYTES.BYTES : Fld := ⟨.FDR_RD_BYTES, 63, 0, .rc, .oper, .all, 0⟩
def FDR_WT_BYTES.BYTES : Fld := ⟨.FDR_WT_BYTES, 63, 0, .rc, .oper, .all, 0⟩
def FDR_DR_BYTES.BYTES : Fld := ⟨.FDR_DR_BYTES, 63, 0, .rc, .oper, .all, 0⟩
def FDR_ASHLAR.BLOCKS : Fld := ⟨.FDR_ASHLAR, 63, 32, .rc, .oper, .all, 0⟩
def FDR_ASHLAR.ZERO_BLOCKS : Fld := ⟨.FDR_ASHLAR, 31, 0, .rc, .oper, .all, 0⟩
def FDR_KV.PAGES : Fld := ⟨.FDR_KV, 63, 32, .rc, .oper, .all, 0⟩
def FDR_KV.ABSENT : Fld := ⟨.FDR_KV, 31, 0, .rc, .oper, .all, 0⟩
def FDR_EVENT.ASHLAR_FIX : Fld := ⟨.FDR_EVENT, 1, 1, .w1c, .oper, .all, 0⟩
def FDR_EVENT.DRAIN_UE : Fld := ⟨.FDR_EVENT, 0, 0, .w1c, .oper, .all, 0⟩
def FDR_RDL_STATE.PRESENT : Fld := ⟨.FDR_RDL_STATE, 63, 63, .ro, .oper, .all, 0⟩
def FDR_RDL_STATE.QUEUED : Fld := ⟨.FDR_RDL_STATE, 7, 4, .ro, .oper, .all, 0⟩
def FDR_RDL_STATE.BUSY : Fld := ⟨.FDR_RDL_STATE, 0, 0, .ro, .oper, .all, 0⟩
def FDR_RDL_TOKENS.TOKENS : Fld := ⟨.FDR_RDL_TOKENS, 63, 0, .rc, .oper, .all, 0⟩
def FDR_RDL_ASSIGN.ACCEPTED : Fld := ⟨.FDR_RDL_ASSIGN, 63, 32, .rc, .oper, .all, 0⟩
def FDR_RDL_ASSIGN.DROPPED : Fld := ⟨.FDR_RDL_ASSIGN, 31, 0, .rc, .oper, .all, 0⟩
def FDR_RDL_EVENT.MEM_UE_SUB : Fld := ⟨.FDR_RDL_EVENT, 2, 2, .w1c, .oper, .all, 0⟩
def FDR_RDL_EVENT.OVF_FULL : Fld := ⟨.FDR_RDL_EVENT, 1, 1, .w1c, .oper, .all, 0⟩
def FDR_RDL_EVENT.NAN_ROW : Fld := ⟨.FDR_RDL_EVENT, 0, 0, .w1c, .oper, .all, 0⟩
def SCP_PLINTH.VALID : Fld := ⟨.SCP_PLINTH, 63, 63, .ro, .oper, .all, 0⟩
def SCP_PLINTH.WRITABLE : Fld := ⟨.SCP_PLINTH, 62, 62, .ro, .oper, .all, 0⟩
def SCP_PLINTH.C0 : Fld := ⟨.SCP_PLINTH, 61, 61, .ro, .oper, .all, 0⟩
def SCP_PLINTH.BANKS : Fld := ⟨.SCP_PLINTH, 55, 52, .ro, .oper, .all, 0⟩
def SCP_PLINTH.PARTITION : Fld := ⟨.SCP_PLINTH, 47, 44, .ro, .oper, .all, 0⟩
def SCP_PLINTH.SET_ID : Fld := ⟨.SCP_PLINTH, 31, 0, .ro, .oper, .all, 0⟩
def SCP_ECC.CE : Fld := ⟨.SCP_ECC, 63, 32, .rc, .oper, .all, 0⟩
def SCP_ECC.UE : Fld := ⟨.SCP_ECC, 31, 16, .rc, .oper, .all, 0⟩
def SCP_ECC.PLINTH_UE : Fld := ⟨.SCP_ECC, 15, 0, .rc, .oper, .all, 0⟩
def SCP_UE_ADDR.VALID : Fld := ⟨.SCP_UE_ADDR, 63, 63, .w1c, .oper, .all, 0⟩
def SCP_UE_ADDR.ADDR : Fld := ⟨.SCP_UE_ADDR, 31, 0, .ro, .oper, .all, 0⟩
def SCP_BANK_WAIT.OWN : Fld := ⟨.SCP_BANK_WAIT, 63, 32, .rc, .oper, .all, 0⟩
def SCP_BANK_WAIT.REMOTE : Fld := ⟨.SCP_BANK_WAIT, 31, 0, .rc, .oper, .all, 0⟩
def SCP_ARRIVED.BYTES : Fld := ⟨.SCP_ARRIVED, 63, 0, .rc, .oper, .all, 0⟩
def SCP_EVENT.PLINTH_UE : Fld := ⟨.SCP_EVENT, 3, 3, .w1c, .oper, .all, 0⟩
def SCP_EVENT.UE : Fld := ⟨.SCP_EVENT, 2, 2, .w1c, .oper, .all, 0⟩
def SCP_EVENT.CE : Fld := ⟨.SCP_EVENT, 1, 1, .w1c, .oper, .all, 0⟩
def SCP_EVENT.CTR_WRAP : Fld := ⟨.SCP_EVENT, 0, 0, .w1c, .oper, .all, 0⟩
def SCP_ACTR.COUNT : Fld := ⟨.SCP_ACTR, 47, 0, .ro, .oper, .all, 0⟩
def SCP_DS_CLAIM.CLAIMED : Fld := ⟨.SCP_DS_CLAIM, 63, 0, .ro, .oper, .all, 0⟩
def SCP_DS_ECC.CE : Fld := ⟨.SCP_DS_ECC, 63, 32, .rc, .oper, .all, 0⟩
def SCP_DS_ECC.UE : Fld := ⟨.SCP_DS_ECC, 31, 16, .rc, .oper, .all, 0⟩
def SCP_DS_UE_ADDR.VALID : Fld := ⟨.SCP_DS_UE_ADDR, 63, 63, .w1c, .oper, .all, 0⟩
def SCP_DS_UE_ADDR.ADDR : Fld := ⟨.SCP_DS_UE_ADDR, 31, 0, .ro, .oper, .all, 0⟩
def SCP_DS_EVENT.UE : Fld := ⟨.SCP_DS_EVENT, 1, 1, .w1c, .oper, .all, 0⟩
def SCP_DS_EVENT.CE : Fld := ⟨.SCP_DS_EVENT, 0, 0, .w1c, .oper, .all, 0⟩
def MTC_CMD.BUSY : Fld := ⟨.MTC_CMD, 63, 63, .ro, .oper, .all, 0⟩
def MTC_CMD.RANGE : Fld := ⟨.MTC_CMD, 26, 16, .rw, .oper, .all, 0⟩
def MTC_CMD.OP : Fld := ⟨.MTC_CMD, 3, 0, .wo, .oper, .all, 0⟩
def MTC_LOOKUP.HITS : Fld := ⟨.MTC_LOOKUP, 63, 32, .rc, .oper, .all, 0⟩
def MTC_LOOKUP.MISSES : Fld := ⟨.MTC_LOOKUP, 31, 0, .rc, .oper, .all, 0⟩
def MTC_AMO.HOME : Fld := ⟨.MTC_AMO, 63, 32, .rc, .oper, .all, 0⟩
def MTC_AMO.DIE : Fld := ⟨.MTC_AMO, 31, 0, .rc, .oper, .all, 0⟩
def MTC_STATE.LOST_LINES : Fld := ⟨.MTC_STATE, 47, 32, .ro, .oper, .all, 0⟩
def MTC_STATE.COPIES : Fld := ⟨.MTC_STATE, 12, 0, .ro, .oper, .all, 0⟩
def MTC_ECC.CE : Fld := ⟨.MTC_ECC, 63, 32, .rc, .oper, .all, 0⟩
def MTC_ECC.UE_CLEAN : Fld := ⟨.MTC_ECC, 31, 16, .rc, .oper, .all, 0⟩
def MTC_ECC.UE_LOST : Fld := ⟨.MTC_ECC, 15, 0, .rc, .oper, .all, 0⟩
def MTC_LOST_ADDR.VALID : Fld := ⟨.MTC_LOST_ADDR, 63, 63, .w1c, .oper, .all, 0⟩
def MTC_LOST_ADDR.ADDR : Fld := ⟨.MTC_LOST_ADDR, 40, 7, .ro, .oper, .all, 0⟩
def MTC_EVENT.CMD_REJECT : Fld := ⟨.MTC_EVENT, 3, 3, .w1c, .oper, .all, 0⟩
def MTC_EVENT.CMD_DONE : Fld := ⟨.MTC_EVENT, 2, 2, .w1c, .oper, .all, 0⟩
def MTC_EVENT.LOST : Fld := ⟨.MTC_EVENT, 1, 1, .w1c, .oper, .all, 0⟩
def MTC_EVENT.CE : Fld := ⟨.MTC_EVENT, 0, 0, .w1c, .oper, .all, 0⟩
def MTC_WAYMASK.MASK : Fld := ⟨.MTC_WAYMASK, 15, 0, .rw, .config, (.range 0 65535), 65535⟩
def MEM_MODE.LOST : Fld := ⟨.MEM_MODE, 11, 8, .ro, .oper, .all, 0⟩
def MEM_MODE.FAIL : Fld := ⟨.MEM_MODE, 7, 7, .ro, .oper, .all, 0⟩
def MEM_MODE.MODE : Fld := ⟨.MEM_MODE, 1, 0, .ro, .oper, .all, 0⟩
def MEM_PRIO.AGE : Fld := ⟨.MEM_PRIO, 9, 0, .rw, .config, (.range 1 1023), 10⟩
def MEM_SCRUB.BEHIND : Fld := ⟨.MEM_SCRUB, 63, 63, .ro, .oper, .all, 0⟩
def MEM_SCRUB.PASSES : Fld := ⟨.MEM_SCRUB, 39, 8, .ro, .oper, .all, 0⟩
def MEM_SCRUB.PERIOD : Fld := ⟨.MEM_SCRUB, 7, 0, .rw, .config, (.range 1 255), 24⟩
def MEM_TRACK.PEAK : Fld := ⟨.MEM_TRACK, 48, 32, .rc, .oper, .all, 0⟩
def MEM_TRACK.OUTSTANDING : Fld := ⟨.MEM_TRACK, 16, 0, .ro, .oper, .all, 0⟩
def MEM_RD_BYTES.BYTES : Fld := ⟨.MEM_RD_BYTES, 63, 0, .rc, .oper, .all, 0⟩
def MEM_WR_BYTES.BYTES : Fld := ⟨.MEM_WR_BYTES, 63, 0, .rc, .oper, .all, 0⟩
def MEM_ECC.ODE_CE : Fld := ⟨.MEM_ECC, 63, 48, .rc, .oper, .all, 0⟩
def MEM_ECC.CE : Fld := ⟨.MEM_ECC, 47, 16, .rc, .oper, .all, 0⟩
def MEM_ECC.UE : Fld := ⟨.MEM_ECC, 15, 8, .rc, .oper, .all, 0⟩
def MEM_ECC.SCRUB_UE : Fld := ⟨.MEM_ECC, 7, 0, .rc, .oper, .all, 0⟩
def MEM_UE_ADDR.VALID : Fld := ⟨.MEM_UE_ADDR, 63, 63, .w1c, .oper, .all, 0⟩
def MEM_UE_ADDR.SCRUB : Fld := ⟨.MEM_UE_ADDR, 62, 62, .ro, .oper, .all, 0⟩
def MEM_UE_ADDR.ADDR : Fld := ⟨.MEM_UE_ADDR, 40, 3, .ro, .oper, .all, 0⟩
def MEM_EVENT.ADD_REFUSED : Fld := ⟨.MEM_EVENT, 4, 4, .w1c, .oper, .all, 0⟩
def MEM_EVENT.ADD_DONE : Fld := ⟨.MEM_EVENT, 3, 3, .w1c, .oper, .all, 0⟩
def MEM_EVENT.CE_STORM : Fld := ⟨.MEM_EVENT, 2, 2, .w1c, .oper, .all, 0⟩
def MEM_EVENT.UE : Fld := ⟨.MEM_EVENT, 1, 1, .w1c, .oper, .all, 0⟩
def MEM_EVENT.CE : Fld := ⟨.MEM_EVENT, 0, 0, .w1c, .oper, .all, 0⟩
def MEM_ADD_ADDR.ADDR : Fld := ⟨.MEM_ADD_ADDR, 40, 0, .rw, .oper, .all, 0⟩
def MEM_ADD_LEN.LEN : Fld := ⟨.MEM_ADD_LEN, 40, 0, .rw, .oper, .all, 0⟩
def MEM_ADD_OPND.OPND : Fld := ⟨.MEM_ADD_OPND, 63, 0, .rw, .oper, .all, 0⟩
def MEM_ADD_CMD.BUSY : Fld := ⟨.MEM_ADD_CMD, 63, 63, .ro, .oper, .all, 0⟩
def MEM_ADD_CMD.TYPE : Fld := ⟨.MEM_ADD_CMD, 5, 4, .rw, .oper, (.range 0 2), 0⟩
def MEM_ADD_CMD.OP : Fld := ⟨.MEM_ADD_CMD, 1, 0, .wo, .oper, .all, 0⟩
def MEM_ADD_RESULT.RESULT : Fld := ⟨.MEM_ADD_RESULT, 63, 0, .ro, .oper, .all, 0⟩
def XLT_INV.BUSY : Fld := ⟨.XLT_INV, 63, 63, .ro, .oper, .all, 0⟩
def XLT_INV.CTX : Fld := ⟨.XLT_INV, 15, 8, .rw, .oper, .all, 0⟩
def XLT_INV.OP : Fld := ⟨.XLT_INV, 1, 0, .wo, .oper, .all, 0⟩
def XLT_INV_RANGE.COUNT : Fld := ⟨.XLT_INV_RANGE, 49, 32, .rw, .oper, (.range 1 262143), 0⟩
def XLT_INV_RANGE.BASE : Fld := ⟨.XLT_INV_RANGE, 17, 0, .rw, .oper, .all, 0⟩
def XLT_FAULT.VALID : Fld := ⟨.XLT_FAULT, 63, 63, .w1c, .oper, .all, 0⟩
def XLT_FAULT.LOST : Fld := ⟨.XLT_FAULT, 62, 48, .rc, .oper, .all, 0⟩
def XLT_FAULT.TILE : Fld := ⟨.XLT_FAULT, 47, 38, .ro, .oper, .all, 0⟩
def XLT_FAULT.UNIT : Fld := ⟨.XLT_FAULT, 37, 35, .ro, .oper, .all, 0⟩
def XLT_FAULT.SOURCE : Fld := ⟨.XLT_FAULT, 34, 32, .ro, .oper, .all, 0⟩
def XLT_FAULT.CTX : Fld := ⟨.XLT_FAULT, 31, 24, .ro, .oper, .all, 0⟩
def XLT_FAULT.LEVEL : Fld := ⟨.XLT_FAULT, 18, 16, .ro, .oper, .all, 0⟩
def XLT_FAULT.ACCESS : Fld := ⟨.XLT_FAULT, 9, 8, .ro, .oper, .all, 0⟩
def XLT_FAULT.CAUSE : Fld := ⟨.XLT_FAULT, 3, 0, .ro, .oper, .all, 0⟩
def XLT_FAULT_ADDR.AVA : Fld := ⟨.XLT_FAULT_ADDR, 63, 0, .ro, .oper, .all, 0⟩
def XLT_STATS.HITS : Fld := ⟨.XLT_STATS, 63, 32, .rc, .oper, .all, 0⟩
def XLT_STATS.WALKS : Fld := ⟨.XLT_STATS, 31, 0, .rc, .oper, .all, 0⟩
def XLT_EVENT.INV_REJECT : Fld := ⟨.XLT_EVENT, 2, 2, .w1c, .oper, .all, 0⟩
def XLT_EVENT.INV_DONE : Fld := ⟨.XLT_EVENT, 1, 1, .w1c, .oper, .all, 0⟩
def XLT_EVENT.FAULT : Fld := ⟨.XLT_EVENT, 0, 0, .w1c, .oper, .all, 0⟩
def XLT_CTX_ROOT.VALID : Fld := ⟨.XLT_CTX_ROOT, 63, 63, .ro, .oper, .all, 0⟩
def XLT_CTX_ROOT.MODE : Fld := ⟨.XLT_CTX_ROOT, 59, 56, .ro, .oper, .all, 0⟩
def XLT_CTX_ROOT.PARTITION : Fld := ⟨.XLT_CTX_ROOT, 51, 48, .ro, .oper, .all, 0⟩
def XLT_CTX_ROOT.PPN : Fld := ⟨.XLT_CTX_ROOT, 43, 0, .ro, .oper, .all, 0⟩
def XLT_CTX_DATUM.DATUM : Fld := ⟨.XLT_CTX_DATUM, 56, 30, .ro, .oper, .all, 0⟩
def CFE_Q_SQ_DB.TAIL : Fld := ⟨.CFE_Q_SQ_DB, 31, 0, .wo, .oper, .all, 0⟩
def CFE_Q_CQ_DB.CONSUMED : Fld := ⟨.CFE_Q_CQ_DB, 31, 0, .wo, .oper, .all, 0⟩
def CFE_Q_STATE.HEAD : Fld := ⟨.CFE_Q_STATE, 63, 32, .ro, .oper, .all, 0⟩
def CFE_Q_STATE.IN_FLIGHT : Fld := ⟨.CFE_Q_STATE, 23, 16, .ro, .oper, .all, 0⟩
def CFE_Q_STATE.HELD : Fld := ⟨.CFE_Q_STATE, 10, 8, .ro, .oper, .all, 0⟩
def CFE_Q_STATE.FAULT : Fld := ⟨.CFE_Q_STATE, 7, 4, .ro, .oper, .all, 0⟩
def CFE_Q_STATE.STATE : Fld := ⟨.CFE_Q_STATE, 2, 0, .ro, .oper, .all, 0⟩
def CFE_Q_CFG.OWNER : Fld := ⟨.CFE_Q_CFG, 52, 49, .ro, .oper, .all, 0⟩
def CFE_Q_CFG.PARTITION : Fld := ⟨.CFE_Q_CFG, 48, 45, .ro, .oper, .all, 0⟩
def CFE_Q_CFG.CTX : Fld := ⟨.CFE_Q_CFG, 44, 37, .ro, .oper, .all, 0⟩
def CFE_Q_CFG.MSIX : Fld := ⟨.CFE_Q_CFG, 36, 26, .ro, .oper, .all, 0⟩
def CFE_Q_CFG.FETCH_AHEAD : Fld := ⟨.CFE_Q_CFG, 25, 19, .ro, .oper, .all, 0⟩
def CFE_Q_CFG.CLASS : Fld := ⟨.CFE_Q_CFG, 18, 17, .ro, .oper, .all, 0⟩
def CFE_Q_CFG.MSIX_EN : Fld := ⟨.CFE_Q_CFG, 16, 16, .ro, .oper, .all, 0⟩
def CFE_Q_CFG.CQ_SPACE : Fld := ⟨.CFE_Q_CFG, 13, 13, .ro, .oper, .all, 0⟩
def CFE_Q_CFG.SQ_SPACE : Fld := ⟨.CFE_Q_CFG, 12, 12, .ro, .oper, .all, 0⟩
def CFE_Q_CFG.CQ_ORDER : Fld := ⟨.CFE_Q_CFG, 9, 5, .ro, .oper, .all, 0⟩
def CFE_Q_CFG.SQ_ORDER : Fld := ⟨.CFE_Q_CFG, 4, 0, .ro, .oper, .all, 0⟩
def CFE_AQ_CFG.ENABLE : Fld := ⟨.CFE_AQ_CFG, 63, 63, .rw, .oper, .all, 0⟩
def CFE_AQ_CFG.MSIX : Fld := ⟨.CFE_AQ_CFG, 26, 16, .rw, .oper, .all, 0⟩
def CFE_AQ_CFG.CQ_SPACE : Fld := ⟨.CFE_AQ_CFG, 13, 13, .rw, .oper, .all, 0⟩
def CFE_AQ_CFG.SQ_SPACE : Fld := ⟨.CFE_AQ_CFG, 12, 12, .rw, .oper, .all, 0⟩
def CFE_AQ_CFG.CQ_ORDER : Fld := ⟨.CFE_AQ_CFG, 9, 5, .rw, .oper, (.range 4 16), 0⟩
def CFE_AQ_CFG.SQ_ORDER : Fld := ⟨.CFE_AQ_CFG, 4, 0, .rw, .oper, (.range 4 16), 0⟩
def CFE_Q_SQ_BASE.BASE : Fld := ⟨.CFE_Q_SQ_BASE, 63, 12, .ro, .oper, .all, 0⟩
def CFE_Q_CQ_BASE.BASE : Fld := ⟨.CFE_Q_CQ_BASE, 63, 12, .ro, .oper, .all, 0⟩
def CFE_Q_CTL.RESUME : Fld := ⟨.CFE_Q_CTL, 8, 8, .wo, .oper, .all, 0⟩
def CFE_Q_CTL.TIMEOUT : Fld := ⟨.CFE_Q_CTL, 7, 0, .rw, .runtime, (.range 1 255), 0⟩
def CFE_Q_CPL.PRODUCED : Fld := ⟨.CFE_Q_CPL, 63, 32, .ro, .oper, .all, 0⟩
def CFE_Q_CPL.CONSUMED : Fld := ⟨.CFE_Q_CPL, 31, 0, .ro, .oper, .all, 0⟩
def CFE_Q_STAT.ITEMS : Fld := ⟨.CFE_Q_STAT, 63, 32, .rc, .oper, .all, 0⟩
def CFE_Q_STAT.REFETCH : Fld := ⟨.CFE_Q_STAT, 31, 16, .rc, .oper, .all, 0⟩
def CFE_Q_STAT.DB_IGNORED : Fld := ⟨.CFE_Q_STAT, 15, 0, .rc, .oper, .all, 0⟩
def CFE_Q_EVENT.DISCARDED : Fld := ⟨.CFE_Q_EVENT, 4, 4, .w1c, .oper, .all, 0⟩
def CFE_Q_EVENT.CTL_REFUSED : Fld := ⟨.CFE_Q_EVENT, 3, 3, .w1c, .oper, .all, 0⟩
def CFE_Q_EVENT.TIMEOUT : Fld := ⟨.CFE_Q_EVENT, 2, 2, .w1c, .oper, .all, 0⟩
def CFE_Q_EVENT.FAULT : Fld := ⟨.CFE_Q_EVENT, 1, 1, .w1c, .oper, .all, 0⟩
def CFE_Q_EVENT.CPL_FAIL : Fld := ⟨.CFE_Q_EVENT, 0, 0, .w1c, .oper, .all, 0⟩
def CFE_STATUS.REBUILDS : Fld := ⟨.CFE_STATUS, 63, 32, .ro, .oper, .all, 0⟩
def CFE_STATUS.HALTED : Fld := ⟨.CFE_STATUS, 1, 1, .ro, .oper, .all, 0⟩
def CFE_STATUS.READY : Fld := ⟨.CFE_STATUS, 0, 0, .ro, .oper, .all, 0⟩
def HOD_LINK.IDE_STREAMS : Fld := ⟨.HOD_LINK, 36, 32, .ro, .oper, .all, 0⟩
def HOD_LINK.RECOVERIES : Fld := ⟨.HOD_LINK, 23, 16, .ro, .oper, .all, 0⟩
def HOD_LINK.FLIT : Fld := ⟨.HOD_LINK, 9, 9, .ro, .oper, .all, 0⟩
def HOD_LINK.UP : Fld := ⟨.HOD_LINK, 8, 8, .ro, .oper, .all, 0⟩
def HOD_LINK.WIDTH : Fld := ⟨.HOD_LINK, 7, 4, .ro, .oper, .all, 0⟩
def HOD_LINK.SPEED : Fld := ⟨.HOD_LINK, 3, 0, .ro, .oper, .all, 0⟩
def HOD_HOSTLOSS.LOSSES : Fld := ⟨.HOD_HOSTLOSS, 63, 32, .ro, .oper, .all, 0⟩
def HOD_HOSTLOSS.STATE : Fld := ⟨.HOD_HOSTLOSS, 3, 1, .ro, .oper, .all, 0⟩
def HOD_HOSTLOSS.MODE : Fld := ⟨.HOD_HOSTLOSS, 0, 0, .ro, .config, .all, 0⟩
def HOD_OUTWIN.BASE : Fld := ⟨.HOD_OUTWIN, 63, 43, .rw, .oper, .all, 0⟩
def HOD_PF_WIN.BASE : Fld := ⟨.HOD_PF_WIN, 31, 20, .rw, .oper, .all, 0⟩
def HOD_BAR2_WIN.BASE : Fld := ⟨.HOD_BAR2_WIN, 40, 28, .rw, .oper, .all, 0⟩
def HOD_FAULT.VALID : Fld := ⟨.HOD_FAULT, 63, 63, .w1c, .oper, .all, 0⟩
def HOD_FAULT.LOST : Fld := ⟨.HOD_FAULT, 62, 48, .rc, .oper, .all, 0⟩
def HOD_FAULT.HOD : Fld := ⟨.HOD_FAULT, 47, 44, .ro, .oper, .all, 0⟩
def HOD_FAULT.FUNCTION : Fld := ⟨.HOD_FAULT, 43, 40, .ro, .oper, .all, 0⟩
def HOD_FAULT.DETAIL : Fld := ⟨.HOD_FAULT, 39, 32, .ro, .oper, .all, 0⟩
def HOD_FAULT.SOURCE : Fld := ⟨.HOD_FAULT, 31, 31, .ro, .oper, .all, 0⟩
def HOD_FAULT.QUEUE : Fld := ⟨.HOD_FAULT, 25, 16, .ro, .oper, .all, 0⟩
def HOD_FAULT.TILE : Fld := ⟨.HOD_FAULT, 9, 0, .ro, .oper, .all, 0⟩
def HOD_FAULT_ADDR.ADDR : Fld := ⟨.HOD_FAULT_ADDR, 63, 0, .ro, .oper, .all, 0⟩
def HOD_EVENT.OUT_ERR : Fld := ⟨.HOD_EVENT, 4, 4, .w1c, .oper, .all, 0⟩
def HOD_EVENT.INBOUND_UE : Fld := ⟨.HOD_EVENT, 3, 3, .w1c, .oper, .all, 0⟩
def HOD_EVENT.INBOUND_BLOCKED : Fld := ⟨.HOD_EVENT, 2, 2, .w1c, .oper, .all, 0⟩
def HOD_EVENT.HOST_LOSS : Fld := ⟨.HOD_EVENT, 1, 1, .w1c, .oper, .all, 0⟩
def HOD_EVENT.FAULT : Fld := ⟨.HOD_EVENT, 0, 0, .w1c, .oper, .all, 0⟩
def HOD_INBOUND.BLOCKED : Fld := ⟨.HOD_INBOUND, 63, 32, .rc, .oper, .all, 0⟩
def HOD_INBOUND.DROPPED : Fld := ⟨.HOD_INBOUND, 31, 16, .rc, .oper, .all, 0⟩
def HOD_INBOUND.ABORTED : Fld := ⟨.HOD_INBOUND, 15, 0, .rc, .oper, .all, 0⟩
def HOD_STATE.QUEUED : Fld := ⟨.HOD_STATE, 54, 48, .ro, .oper, .all, 0⟩
def HOD_STATE.ACTIVE : Fld := ⟨.HOD_STATE, 42, 40, .ro, .oper, .all, 0⟩
def HOD_STATE.TAGS : Fld := ⟨.HOD_STATE, 10, 0, .ro, .oper, .all, 0⟩
def HOD_BYTES.BYTES : Fld := ⟨.HOD_BYTES, 63, 0, .rc, .oper, .all, 0⟩
def CHK_CFG.BUSY : Fld := ⟨.CHK_CFG, 63, 63, .ro, .oper, .all, 0⟩
def CHK_CFG.LOAD : Fld := ⟨.CHK_CFG, 16, 16, .wo, .oper, .all, 0⟩
def CHK_CFG.INVERT : Fld := ⟨.CHK_CFG, 10, 10, .rw, .oper, .all, 0⟩
def CHK_CFG.REFOUT : Fld := ⟨.CHK_CFG, 9, 9, .rw, .oper, .all, 0⟩
def CHK_CFG.REFIN : Fld := ⟨.CHK_CFG, 8, 8, .rw, .oper, .all, 0⟩
def CHK_CFG.WIDTH : Fld := ⟨.CHK_CFG, 5, 0, .rw, .oper, .all, 0⟩
def CHK_PROF_CFG.INVERT : Fld := ⟨.CHK_PROF_CFG, 10, 10, .rw, .oper, .all, 0⟩
def CHK_PROF_CFG.REFOUT : Fld := ⟨.CHK_PROF_CFG, 9, 9, .rw, .oper, .all, 0⟩
def CHK_PROF_CFG.REFIN : Fld := ⟨.CHK_PROF_CFG, 8, 8, .rw, .oper, .all, 0⟩
def CHK_PROF_CFG.WIDTH : Fld := ⟨.CHK_PROF_CFG, 5, 0, .rw, .oper, .all, 0⟩
def CHK_POLY.POLY : Fld := ⟨.CHK_POLY, 63, 0, .rw, .oper, .all, 0⟩
def CHK_PROF_POLY.POLY : Fld := ⟨.CHK_PROF_POLY, 63, 0, .rw, .oper, .all, 0⟩
def CHK_INIT.INIT : Fld := ⟨.CHK_INIT, 63, 0, .rw, .oper, .all, 0⟩
def CHK_PROF_INIT.INIT : Fld := ⟨.CHK_PROF_INIT, 63, 0, .rw, .oper, .all, 0⟩
def CHK_VALUE.VALUE : Fld := ⟨.CHK_VALUE, 63, 0, .rw, .oper, .all, 0⟩
def CHK_RESULT.RESULT : Fld := ⟨.CHK_RESULT, 63, 0, .ro, .oper, .all, 0⟩
def CHK_DATA8.DATA : Fld := ⟨.CHK_DATA8, 7, 0, .wo, .oper, .all, 0⟩
def CHK_DATA16.DATA : Fld := ⟨.CHK_DATA16, 15, 0, .wo, .oper, .all, 0⟩
def CHK_DATA32.DATA : Fld := ⟨.CHK_DATA32, 31, 0, .wo, .oper, .all, 0⟩
def LTL_CFG.WIN_LOG2 : Fld := ⟨.LTL_CFG, 20, 16, .rw, .config, (.range 20 31), 24⟩
def LTL_CFG.RATE : Fld := ⟨.LTL_CFG, 11, 0, .rw, .config, (.range 1 4095), 64⟩
def LTL_STATE.PRESENT : Fld := ⟨.LTL_STATE, 63, 63, .ro, .oper, .all, 0⟩
def LTL_STATE.CONSEC_MAX : Fld := ⟨.LTL_STATE, 39, 32, .ro, .oper, .all, 0⟩
def LTL_STATE.END_B : Fld := ⟨.LTL_STATE, 11, 8, .ro, .oper, .all, 0⟩
def LTL_STATE.END_A : Fld := ⟨.LTL_STATE, 7, 4, .ro, .oper, .all, 0⟩
def LTL_STATE.STATE : Fld := ⟨.LTL_STATE, 3, 2, .ro, .oper, .all, 0⟩
def LTL_STATE.CAUSE_CONSEC : Fld := ⟨.LTL_STATE, 1, 1, .ro, .oper, .all, 0⟩
def LTL_STATE.CAUSE_RATE : Fld := ⟨.LTL_STATE, 0, 0, .ro, .oper, .all, 0⟩
def LTL_FLITS_AB.FLITS : Fld := ⟨.LTL_FLITS_AB, 63, 0, .rc, .oper, .all, 0⟩
def LTL_FLITS_BA.FLITS : Fld := ⟨.LTL_FLITS_BA, 63, 0, .rc, .oper, .all, 0⟩
def LTL_REPLAY.AB : Fld := ⟨.LTL_REPLAY, 63, 32, .rc, .oper, .all, 0⟩
def LTL_REPLAY.BA : Fld := ⟨.LTL_REPLAY, 31, 0, .rc, .oper, .all, 0⟩
def LTL_WIN.AB : Fld := ⟨.LTL_WIN, 43, 32, .ro, .oper, .all, 0⟩
def LTL_WIN.BA : Fld := ⟨.LTL_WIN, 11, 0, .ro, .oper, .all, 0⟩
def LTL_TRAIN.EYE_MIN : Fld := ⟨.LTL_TRAIN, 47, 40, .ro, .oper, .all, 0⟩
def LTL_TRAIN.SB_DELAY : Fld := ⟨.LTL_TRAIN, 15, 0, .ro, .oper, .all, 0⟩
def LTL_SB.ERRORS : Fld := ⟨.LTL_SB, 31, 0, .rc, .oper, .all, 0⟩
def LTL_EVENT.SB_ERR : Fld := ⟨.LTL_EVENT, 3, 3, .w1c, .oper, .all, 0⟩
def LTL_EVENT.RATE_WARN : Fld := ⟨.LTL_EVENT, 2, 2, .w1c, .oper, .all, 0⟩
def LTL_EVENT.DOWN : Fld := ⟨.LTL_EVENT, 1, 1, .w1c, .oper, .all, 0⟩
def LTL_EVENT.REPLAY : Fld := ⟨.LTL_EVENT, 0, 0, .w1c, .oper, .all, 0⟩
def PWR_CAP.CAP : Fld := ⟨.PWR_CAP, 10, 0, .rw, .runtime, (.range 500 1800), 1250⟩
def PWR_BRAKE.ACTIVE : Fld := ⟨.PWR_BRAKE, 63, 63, .ro, .oper, .all, 0⟩
def PWR_BRAKE.LIMIT : Fld := ⟨.PWR_BRAKE, 10, 0, .rw, .config, (.range 500 1800), 600⟩
def PWR_STATUS.GAIN : Fld := ⟨.PWR_STATUS, 63, 48, .ro, .oper, .all, 16384⟩
def PWR_STATUS.EFF_CAP : Fld := ⟨.PWR_STATUS, 42, 32, .ro, .oper, .all, 0⟩
def PWR_STATUS.INPUT_EST : Fld := ⟨.PWR_STATUS, 26, 16, .ro, .oper, .all, 0⟩
def PWR_STATUS.INPUT_MEAS : Fld := ⟨.PWR_STATUS, 10, 0, .ro, .oper, .all, 0⟩
def PWR_POLICY.IDLE_COURSES : Fld := ⟨.PWR_POLICY, 23, 16, .rw, .config, (.range 1 255), 16⟩
def PWR_POLICY.GDIE_MAX : Fld := ⟨.PWR_POLICY, 12, 8, .rw, .config, (.range 0 24), 24⟩
def PWR_POLICY.ARRAY_MAX : Fld := ⟨.PWR_POLICY, 4, 0, .rw, .config, (.range 0 16), 16⟩
def PWR_EVENT.EXCEED_COUNT : Fld := ⟨.PWR_EVENT, 63, 32, .ro, .oper, .all, 0⟩
def PWR_EVENT.DROOP : Fld := ⟨.PWR_EVENT, 7, 7, .w1c, .oper, .all, 0⟩
def PWR_EVENT.BRAKE : Fld := ⟨.PWR_EVENT, 6, 6, .w1c, .oper, .all, 0⟩
def PWR_EVENT.HBM_THROTTLE : Fld := ⟨.PWR_EVENT, 5, 5, .w1c, .oper, .all, 0⟩
def PWR_EVENT.DIE_THROTTLE : Fld := ⟨.PWR_EVENT, 4, 4, .w1c, .oper, .all, 0⟩
def PWR_EVENT.PMBUS_FAIL : Fld := ⟨.PWR_EVENT, 3, 3, .w1c, .oper, .all, 0⟩
def PWR_EVENT.CAL_RANGE : Fld := ⟨.PWR_EVENT, 2, 2, .w1c, .oper, .all, 0⟩
def PWR_EVENT.CAP_UNMET : Fld := ⟨.PWR_EVENT, 1, 1, .w1c, .oper, .all, 0⟩
def PWR_EVENT.CAP_EXCEED : Fld := ⟨.PWR_EVENT, 0, 0, .w1c, .oper, .all, 0⟩
def PWR_STRETCH.EVENTS : Fld := ⟨.PWR_STRETCH, 63, 32, .rc, .oper, .all, 0⟩
def PWR_STRETCH.CYCLES : Fld := ⟨.PWR_STRETCH, 31, 0, .rc, .oper, .all, 0⟩
def PWR_PHASE_SEL.INDEX : Fld := ⟨.PWR_PHASE_SEL, 5, 0, .rw, .oper, .all, 0⟩
def PWR_PHASE_DATA.VALID : Fld := ⟨.PWR_PHASE_DATA, 63, 63, .ro, .oper, .all, 0⟩
def PWR_PHASE_DATA.SIG : Fld := ⟨.PWR_PHASE_DATA, 55, 32, .ro, .oper, .all, 0⟩
def PWR_PHASE_DATA.P_TILE : Fld := ⟨.PWR_PHASE_DATA, 31, 16, .ro, .oper, .all, 0⟩
def PWR_PHASE_DATA.UTIL : Fld := ⟨.PWR_PHASE_DATA, 15, 8, .ro, .oper, .all, 0⟩
def PWR_PHASE_DATA.AGE : Fld := ⟨.PWR_PHASE_DATA, 5, 0, .ro, .oper, .all, 0⟩
def PWR_EOPER.ENERGY : Fld := ⟨.PWR_EOPER, 63, 0, .ro, .oper, .all, 0⟩
def PWR_FUSE.AIRFAIL_EN : Fld := ⟨.PWR_FUSE, 1, 0, .ro, .oper, .all, 3⟩
def PWR_DOM.ON : Fld := ⟨.PWR_DOM, 63, 63, .ro, .oper, .all, 0⟩
def PWR_DOM.C0 : Fld := ⟨.PWR_DOM, 62, 62, .ro, .oper, .all, 0⟩
def PWR_DOM.PLINTH : Fld := ⟨.PWR_DOM, 61, 61, .ro, .oper, .all, 0⟩
def PWR_DOM.DUTY : Fld := ⟨.PWR_DOM, 55, 52, .ro, .oper, .all, 0⟩
def PWR_DOM.MV : Fld := ⟨.PWR_DOM, 47, 32, .ro, .oper, .all, 0⟩
def PWR_DOM.STEP : Fld := ⟨.PWR_DOM, 20, 16, .ro, .oper, .all, 0⟩
def PWR_DOM.POWER : Fld := ⟨.PWR_DOM, 15, 0, .ro, .oper, .all, 0⟩
def PWR_TRIM.EST_TRIM : Fld := ⟨.PWR_TRIM, 15, 8, .rw, .config, (.signed 25), 0⟩
def PWR_TRIM.V_TRIM : Fld := ⟨.PWR_TRIM, 7, 0, .rw, .config, (.signed 25), 0⟩
def PWR_TEMP.PRESENT : Fld := ⟨.PWR_TEMP, 63, 63, .ro, .oper, .all, 0⟩
def PWR_TEMP.THROTTLE : Fld := ⟨.PWR_TEMP, 62, 62, .ro, .oper, .all, 0⟩
def PWR_TEMP.PEAK : Fld := ⟨.PWR_TEMP, 47, 32, .rc, .oper, .all, 0⟩
def PWR_TEMP.TEMP : Fld := ⟨.PWR_TEMP, 15, 0, .ro, .oper, .all, 0⟩
def PWR_EPART.ENERGY : Fld := ⟨.PWR_EPART, 63, 0, .ro, .oper, .all, 0⟩
def PWR_EQ.ENERGY : Fld := ⟨.PWR_EQ, 63, 0, .ro, .oper, .all, 0⟩
def SEC_STATE.FAIL_TYPE : Fld := ⟨.SEC_STATE, 15, 12, .ro, .oper, .all, 0⟩
def SEC_STATE.OWNED : Fld := ⟨.SEC_STATE, 7, 7, .ro, .oper, .all, 0⟩
def SEC_STATE.OWNER_BANK : Fld := ⟨.SEC_STATE, 6, 5, .ro, .oper, .all, 0⟩
def SEC_STATE.STAGE : Fld := ⟨.SEC_STATE, 2, 0, .ro, .oper, .all, 0⟩
def SEC_SERIAL.SERIAL : Fld := ⟨.SEC_SERIAL, 63, 0, .ro, .oper, .all, 0⟩
def SEC_SVNMIN.MIN : Fld := ⟨.SEC_SVNMIN, 35, 0, .ro, .oper, .all, 0⟩
def SEC_MBOX_CMD.BUSY : Fld := ⟨.SEC_MBOX_CMD, 63, 63, .ro, .oper, .all, 0⟩
def SEC_MBOX_CMD.LENGTH : Fld := ⟨.SEC_MBOX_CMD, 40, 20, .rw, .oper, (.range 0 1048576), 0⟩
def SEC_MBOX_CMD.OP : Fld := ⟨.SEC_MBOX_CMD, 7, 0, .wo, .oper, .all, 0⟩
def SEC_MBOX_STATUS.RESULT_LEN : Fld := ⟨.SEC_MBOX_STATUS, 47, 32, .ro, .oper, .all, 0⟩
def SEC_MBOX_STATUS.COUNT : Fld := ⟨.SEC_MBOX_STATUS, 31, 16, .ro, .oper, .all, 0⟩
def SEC_MBOX_STATUS.STATUS : Fld := ⟨.SEC_MBOX_STATUS, 7, 0, .ro, .oper, .all, 0⟩
def SEC_EVENT.OWNER_SET : Fld := ⟨.SEC_EVENT, 4, 4, .w1c, .oper, .all, 0⟩
def SEC_EVENT.UNLOCK : Fld := ⟨.SEC_EVENT, 3, 3, .w1c, .oper, .all, 0⟩
def SEC_EVENT.REFUSED : Fld := ⟨.SEC_EVENT, 2, 2, .w1c, .oper, .all, 0⟩
def SEC_EVENT.ALT_USED : Fld := ⟨.SEC_EVENT, 1, 1, .w1c, .oper, .all, 0⟩
def SEC_EVENT.DONE : Fld := ⟨.SEC_EVENT, 0, 0, .w1c, .oper, .all, 0⟩
def SEC_SLOTS.IN_USE : Fld := ⟨.SEC_SLOTS, 63, 0, .ro, .oper, .all, 0⟩
def SEC_DEBUG.CHALLENGE : Fld := ⟨.SEC_DEBUG, 8, 8, .ro, .oper, .all, 0⟩
def SEC_DEBUG.CORE_DEBUG : Fld := ⟨.SEC_DEBUG, 2, 2, .ro, .oper, .all, 0⟩
def SEC_DEBUG.JTAG : Fld := ⟨.SEC_DEBUG, 1, 1, .ro, .oper, .all, 0⟩
def SEC_DEBUG.UNLOCKED : Fld := ⟨.SEC_DEBUG, 0, 0, .ro, .oper, .all, 0⟩
def SEC_BOOT.SVN : Fld := ⟨.SEC_BOOT, 63, 32, .ro, .oper, .all, 0⟩
def SEC_BOOT.PRIMARY_FAIL : Fld := ⟨.SEC_BOOT, 23, 16, .ro, .oper, .all, 0⟩
def SEC_BOOT.ALT_FAIL : Fld := ⟨.SEC_BOOT, 15, 8, .ro, .oper, .all, 0⟩
def SEC_BOOT.COPY : Fld := ⟨.SEC_BOOT, 1, 1, .ro, .oper, .all, 0⟩
def SEC_BOOT.VALID : Fld := ⟨.SEC_BOOT, 0, 0, .ro, .oper, .all, 0⟩
def SEC_BWFENCE.ENABLE : Fld := ⟨.SEC_BWFENCE, 63, 63, .ro, .config, .all, 0⟩
def SEC_BWFENCE.WEIGHT : Fld := ⟨.SEC_BWFENCE, 53, 0, .ro, .config, .all, 0⟩
def SEC_PART.STATE : Fld := ⟨.SEC_PART, 63, 62, .ro, .oper, .all, 0⟩
def SEC_PART.SLOT : Fld := ⟨.SEC_PART, 61, 56, .ro, .oper, .all, 0⟩
def SEC_PART.TDI : Fld := ⟨.SEC_PART, 49, 48, .ro, .oper, .all, 0⟩
def SEC_PART.TILES : Fld := ⟨.SEC_PART, 41, 32, .ro, .oper, .all, 0⟩
def SEC_PART.RANGES : Fld := ⟨.SEC_PART, 26, 16, .ro, .oper, .all, 0⟩
def SEC_PART.SLOTS : Fld := ⟨.SEC_PART, 6, 0, .ro, .oper, .all, 0⟩
def SEC_PART_CORES_LO.CORES : Fld := ⟨.SEC_PART_CORES_LO, 63, 0, .ro, .oper, .all, 0⟩
def SEC_PART_CORES_HI.CORES : Fld := ⟨.SEC_PART_CORES_HI, 31, 0, .ro, .oper, .all, 0⟩
def SEC_RANGE.PENDING : Fld := ⟨.SEC_RANGE, 63, 63, .ro, .oper, .all, 0⟩
def SEC_RANGE.OWNER : Fld := ⟨.SEC_RANGE, 59, 56, .ro, .oper, .all, 8⟩
def SEC_RANGE.SLOT : Fld := ⟨.SEC_RANGE, 53, 48, .ro, .oper, .all, 0⟩
def SEC_RANGE.SHARE : Fld := ⟨.SEC_RANGE, 7, 0, .ro, .oper, .all, 0⟩
def CFG_STATE.LOCKED : Fld := ⟨.CFG_STATE, 63, 63, .ro, .oper, .all, 0⟩
def CFG_STATE.FAIL : Fld := ⟨.CFG_STATE, 62, 62, .ro, .oper, .all, 0⟩
def CFG_STATE.RECORD : Fld := ⟨.CFG_STATE, 61, 61, .ro, .oper, .all, 0⟩
def CFG_STATE.FAIL_PHASE : Fld := ⟨.CFG_STATE, 11, 8, .ro, .oper, .all, 0⟩
def CFG_STATE.PHASE : Fld := ⟨.CFG_STATE, 3, 0, .ro, .oper, .all, 0⟩
def CFG_EPOCH.EPOCH : Fld := ⟨.CFG_EPOCH, 63, 0, .ro, .oper, .all, 0⟩
def CFG_LOCKED_WRITES.COUNT : Fld := ⟨.CFG_LOCKED_WRITES, 63, 0, .ro, .oper, .all, 0⟩
def CFG_RESET.CORE_RESETS : Fld := ⟨.CFG_RESET, 47, 32, .ro, .oper, .all, 0⟩
def CFG_RESET.CORE : Fld := ⟨.CFG_RESET, 1, 1, .wo, .oper, .all, 0⟩
def CFG_RESET.REBUILD : Fld := ⟨.CFG_RESET, 0, 0, .wo, .oper, .all, 0⟩
def CFG_EVENT.LIVE_CHANGED : Fld := ⟨.CFG_EVENT, 4, 4, .w1c, .oper, .all, 0⟩
def CFG_EVENT.RESET_REFUSED : Fld := ⟨.CFG_EVENT, 3, 3, .w1c, .oper, .all, 0⟩
def CFG_EVENT.LOCKED_WRITE : Fld := ⟨.CFG_EVENT, 2, 2, .w1c, .oper, .all, 0⟩
def CFG_EVENT.EPOCH : Fld := ⟨.CFG_EVENT, 1, 1, .w1c, .oper, .all, 0⟩
def CFG_EVENT.READY : Fld := ⟨.CFG_EVENT, 0, 0, .w1c, .oper, .all, 0⟩
def CFG_LIVE_SEQ.SEQ : Fld := ⟨.CFG_LIVE_SEQ, 63, 0, .ro, .oper, .all, 0⟩
def CFG_RECORD_ID.ID : Fld := ⟨.CFG_RECORD_ID, 63, 0, .ro, .config, .all, 0⟩
def CFG_BOOT_TIME.MS : Fld := ⟨.CFG_BOOT_TIME, 31, 0, .ro, .oper, .all, 0⟩
def CFG_PLUMB.DIGEST : Fld := ⟨.CFG_PLUMB, 63, 0, .ro, .oper, .all, 0⟩
def CFG_LIVE.DIGEST : Fld := ⟨.CFG_LIVE, 63, 0, .ro, .oper, .all, 0⟩
def ERR_STATUS.FATAL : Fld := ⟨.ERR_STATUS, 2, 2, .ro, .oper, .all, 0⟩
def ERR_STATUS.OVERFLOW : Fld := ⟨.ERR_STATUS, 1, 1, .w1c, .oper, .all, 0⟩
def ERR_STATUS.NEW : Fld := ⟨.ERR_STATUS, 0, 0, .w1c, .oper, .all, 0⟩
def ERR_LOG_HEAD.HEAD : Fld := ⟨.ERR_LOG_HEAD, 31, 0, .ro, .oper, .all, 0⟩
def ERR_LOG_TAIL.TAIL : Fld := ⟨.ERR_LOG_TAIL, 31, 0, .rw, .oper, .all, 0⟩
def ERR_LOST.COUNT : Fld := ⟨.ERR_LOST, 31, 0, .rc, .oper, .all, 0⟩
def ERR_FATAL.VALID : Fld := ⟨.ERR_FATAL, 63, 63, .ro, .oper, .all, 0⟩
def ERR_FATAL.CAUSE : Fld := ⟨.ERR_FATAL, 47, 32, .ro, .oper, .all, 0⟩
def ERR_FATAL.CODE : Fld := ⟨.ERR_FATAL, 15, 0, .ro, .oper, .all, 0⟩
def ERR_IRQ_EN.UNCORRECTED : Fld := ⟨.ERR_IRQ_EN, 2, 2, .rw, .oper, .all, 1⟩
def ERR_IRQ_EN.CORRECTED : Fld := ⟨.ERR_IRQ_EN, 1, 1, .rw, .oper, .all, 1⟩
def ERR_IRQ_EN.NOTE : Fld := ⟨.ERR_IRQ_EN, 0, 0, .rw, .oper, .all, 1⟩
def ERR_COUNT.FATAL : Fld := ⟨.ERR_COUNT, 63, 48, .ro, .oper, .all, 0⟩
def ERR_COUNT.UNCORRECTED : Fld := ⟨.ERR_COUNT, 47, 32, .ro, .oper, .all, 0⟩
def ERR_COUNT.CORRECTED : Fld := ⟨.ERR_COUNT, 31, 16, .ro, .oper, .all, 0⟩
def ERR_COUNT.NOTE : Fld := ⟨.ERR_COUNT, 15, 0, .ro, .oper, .all, 0⟩
def ERR_SECONDARY.COUNT : Fld := ⟨.ERR_SECONDARY, 63, 0, .rc, .oper, .all, 0⟩
def ERR_CE.COUNT : Fld := ⟨.ERR_CE, 63, 0, .rc, .oper, .all, 0⟩
def CAP_ID.STEPPING : Fld := ⟨.CAP_ID, 31, 24, .ro, .oper, .all, 0⟩
def CAP_ID.PART : Fld := ⟨.CAP_ID, 15, 0, .ro, .oper, .all, 0⟩
def CAP_UNITS.LPDDR : Fld := ⟨.CAP_UNITS, 39, 32, .ro, .oper, .all, 0⟩
def CAP_UNITS.HBM : Fld := ⟨.CAP_UNITS, 27, 16, .ro, .oper, .all, 0⟩
def CAP_UNITS.ASHLAR : Fld := ⟨.CAP_UNITS, 12, 12, .ro, .oper, .all, 0⟩
def CAP_UNITS.RIDDLE : Fld := ⟨.CAP_UNITS, 11, 8, .ro, .oper, .all, 0⟩
def CAP_UNITS.GDIES : Fld := ⟨.CAP_UNITS, 5, 4, .ro, .oper, .all, 0⟩
def CAP_UNITS.CDIES : Fld := ⟨.CAP_UNITS, 3, 0, .ro, .oper, .all, 0⟩
def CAP_SIZES.PARTITIONS : Fld := ⟨.CAP_SIZES, 59, 56, .ro, .oper, .all, 0⟩
def CAP_SIZES.QUEUES : Fld := ⟨.CAP_SIZES, 50, 40, .ro, .oper, .all, 0⟩
def CAP_SIZES.LPDDR_CHAN_GIB : Fld := ⟨.CAP_SIZES, 39, 32, .ro, .oper, .all, 0⟩
def CAP_SIZES.HBM_STACK_GIB : Fld := ⟨.CAP_SIZES, 31, 24, .ro, .oper, .all, 0⟩
def CAP_SIZES.CORES : Fld := ⟨.CAP_SIZES, 22, 16, .ro, .oper, .all, 0⟩
def CAP_SIZES.TILES : Fld := ⟨.CAP_SIZES, 9, 0, .ro, .oper, .all, 0⟩
def ERR_LOG.WORD : Fld := ⟨.ERR_LOG, 63, 0, .ro, .oper, .all, 0⟩
def SEC_MBOX_BUF.DATA : Fld := ⟨.SEC_MBOX_BUF, 63, 0, .rw, .oper, .all, 0⟩

end F

/-- The fields of each register; bits in no field are reserved (R3). -/
def RegKind.fields : RegKind → List Fld
  | .CRS_PERIOD => [F.CRS_PERIOD.PERIOD]
  | .CRS_COURSE_NUM => [F.CRS_COURSE_NUM.COURSE]
  | .CRS_NOW => [F.CRS_NOW.TICK]
  | .CRS_FLOOR => [F.CRS_FLOOR.C3_FLOOR, F.CRS_FLOOR.C2_FLOOR, F.CRS_FLOOR.C1_FLOOR, F.CRS_FLOOR.C0_FLOOR]
  | .CRS_SHARE => [F.CRS_SHARE.C2_SHARE, F.CRS_SHARE.C3_SHARE]
  | .CRS_SLICE => [F.CRS_SLICE.C3_SLICE, F.CRS_SLICE.C2_SLICE, F.CRS_SLICE.C1_SLICE]
  | .CRS_DEBT => [F.CRS_DEBT.DEBT]
  | .CRS_EVENT => [F.CRS_EVENT.SLIP_COUNT, F.CRS_EVENT.C0_LATE_COUNT, F.CRS_EVENT.C0_LATE, F.CRS_EVENT.SCHED_SLIP]
  | .CRS_C0_RES => [F.CRS_C0_RES.RESERVED_TILES, F.CRS_C0_RES.BUDGET_MAX]
  | .CRS_C0_GROUP => [F.CRS_C0_GROUP.VALID, F.CRS_C0_GROUP.QUEUE, F.CRS_C0_GROUP.TILE_COUNT, F.CRS_C0_GROUP.FIRST_TILE]
  | .ARC_SHAPE => [F.ARC_SHAPE.VALID, F.ARC_SHAPE.ORIGIN, F.ARC_SHAPE.A, F.ARC_SHAPE.B, F.ARC_SHAPE.ROW_POS, F.ARC_SHAPE.COL_POS, F.ARC_SHAPE.WEST, F.ARC_SHAPE.SOUTH]
  | .ARC_TIMING => [F.ARC_TIMING.EDGES, F.ARC_TIMING.LATENCY, F.ARC_TIMING.ROW_INT, F.ARC_TIMING.SKEW]
  | .ARC_MARKS => [F.ARC_MARKS.HWM, F.ARC_MARKS.LWM, F.ARC_MARKS.EXTRA]
  | .ARC_STREAM => [F.ARC_STREAM.STREAM_SEQ, F.ARC_STREAM.ROWS_ISSUED]
  | .ARC_DRAIN_DONE => [F.ARC_DRAIN_DONE.DONE]
  | .ARC_FRZ_CYC => [F.ARC_FRZ_CYC.CYCLES]
  | .ARC_COUNT => [F.ARC_COUNT.FREEZES, F.ARC_COUNT.REWINDS]
  | .ARC_CAUSE => [F.ARC_CAUSE.REWIND, F.ARC_CAUSE.FSTEP, F.ARC_CAUSE.THROTTLE, F.ARC_CAUSE.DRAIN_FULL, F.ARC_CAUSE.ROW_DRY]
  | .ARC_EVENT => [F.ARC_EVENT.MEM_UE_SUB, F.ARC_EVENT.SKID_OVF, F.ARC_EVENT.REWIND]
  | .CRB_STATE => [F.CRB_STATE.BOUND, F.CRB_STATE.C0, F.CRB_STATE.C0_GROUP, F.CRB_STATE.BP_LEVEL, F.CRB_STATE.BQ_LEVEL, F.CRB_STATE.LS_LEVEL]
  | .CRB_LS_POS => [F.CRB_LS_POS.REMAIN, F.CRB_LS_POS.REPEAT, F.CRB_LS_POS.SOURCE, F.CRB_LS_POS.ADDR]
  | .CRB_OPS => [F.CRB_OPS.ISSUED]
  | .CRB_SFU => [F.CRB_SFU.RESULTS]
  | .CRB_STALL => [F.CRB_STALL.LS_EMPTY, F.CRB_STALL.BCAST_EMPTY]
  | .CRB_EVENT => [F.CRB_EVENT.UNDERRUN, F.CRB_EVENT.MEM_UE_SUB]
  | .TSQ_STATE => [F.TSQ_STATE.HANDLE, F.TSQ_STATE.WAIT, F.TSQ_STATE.RUN]
  | .TSQ_PC => [F.TSQ_PC.PC]
  | .TSQ_EXC => [F.TSQ_EXC.VALID, F.TSQ_EXC.LOST, F.TSQ_EXC.PRECISE, F.TSQ_EXC.CODE, F.TSQ_EXC.PC]
  | .TSQ_EXC_WORD => [F.TSQ_EXC_WORD.WORD]
  | .TSQ_EXC_ADDR => [F.TSQ_EXC_ADDR.ADDR]
  | .TSQ_QCTL => [F.TSQ_QCTL.TEXT_MODE, F.TSQ_QCTL.CLEAN, F.TSQ_QCTL.ENABLE]
  | .TSQ_QHIT => [F.TSQ_QHIT.HITS]
  | .TSQ_QMISS => [F.TSQ_QMISS.MISSES, F.TSQ_QMISS.PREFETCHES]
  | .TSQ_ISSUED => [F.TSQ_ISSUED.ISSUED]
  | .TSQ_STALL => [F.TSQ_STALL.CREDIT, F.TSQ_STALL.WAITS]
  | .TSQ_RELOC => [F.TSQ_RELOC.VALID, F.TSQ_RELOC.TYPE, F.TSQ_RELOC.HANDLE, F.TSQ_RELOC.TARGET]
  | .FDR_STATE => [F.FDR_STATE.RF_READY, F.FDR_STATE.SORT_PEND, F.FDR_STATE.RF_QUEUE, F.FDR_STATE.RF_ACTIVE, F.FDR_STATE.RF_KIND, F.FDR_STATE.WF_BUSY, F.FDR_STATE.DR_BUSY]
  | .FDR_RD_BYTES => [F.FDR_RD_BYTES.BYTES]
  | .FDR_WT_BYTES => [F.FDR_WT_BYTES.BYTES]
  | .FDR_DR_BYTES => [F.FDR_DR_BYTES.BYTES]
  | .FDR_ASHLAR => [F.FDR_ASHLAR.BLOCKS, F.FDR_ASHLAR.ZERO_BLOCKS]
  | .FDR_KV => [F.FDR_KV.PAGES, F.FDR_KV.ABSENT]
  | .FDR_EVENT => [F.FDR_EVENT.ASHLAR_FIX, F.FDR_EVENT.DRAIN_UE]
  | .FDR_RDL_STATE => [F.FDR_RDL_STATE.PRESENT, F.FDR_RDL_STATE.QUEUED, F.FDR_RDL_STATE.BUSY]
  | .FDR_RDL_TOKENS => [F.FDR_RDL_TOKENS.TOKENS]
  | .FDR_RDL_ASSIGN => [F.FDR_RDL_ASSIGN.ACCEPTED, F.FDR_RDL_ASSIGN.DROPPED]
  | .FDR_RDL_EVENT => [F.FDR_RDL_EVENT.MEM_UE_SUB, F.FDR_RDL_EVENT.OVF_FULL, F.FDR_RDL_EVENT.NAN_ROW]
  | .SCP_PLINTH => [F.SCP_PLINTH.VALID, F.SCP_PLINTH.WRITABLE, F.SCP_PLINTH.C0, F.SCP_PLINTH.BANKS, F.SCP_PLINTH.PARTITION, F.SCP_PLINTH.SET_ID]
  | .SCP_ECC => [F.SCP_ECC.CE, F.SCP_ECC.UE, F.SCP_ECC.PLINTH_UE]
  | .SCP_UE_ADDR => [F.SCP_UE_ADDR.VALID, F.SCP_UE_ADDR.ADDR]
  | .SCP_BANK_WAIT => [F.SCP_BANK_WAIT.OWN, F.SCP_BANK_WAIT.REMOTE]
  | .SCP_ARRIVED => [F.SCP_ARRIVED.BYTES]
  | .SCP_EVENT => [F.SCP_EVENT.PLINTH_UE, F.SCP_EVENT.UE, F.SCP_EVENT.CE, F.SCP_EVENT.CTR_WRAP]
  | .SCP_ACTR => [F.SCP_ACTR.COUNT]
  | .SCP_DS_CLAIM => [F.SCP_DS_CLAIM.CLAIMED]
  | .SCP_DS_ECC => [F.SCP_DS_ECC.CE, F.SCP_DS_ECC.UE]
  | .SCP_DS_UE_ADDR => [F.SCP_DS_UE_ADDR.VALID, F.SCP_DS_UE_ADDR.ADDR]
  | .SCP_DS_EVENT => [F.SCP_DS_EVENT.UE, F.SCP_DS_EVENT.CE]
  | .MTC_CMD => [F.MTC_CMD.BUSY, F.MTC_CMD.RANGE, F.MTC_CMD.OP]
  | .MTC_LOOKUP => [F.MTC_LOOKUP.HITS, F.MTC_LOOKUP.MISSES]
  | .MTC_AMO => [F.MTC_AMO.HOME, F.MTC_AMO.DIE]
  | .MTC_STATE => [F.MTC_STATE.LOST_LINES, F.MTC_STATE.COPIES]
  | .MTC_ECC => [F.MTC_ECC.CE, F.MTC_ECC.UE_CLEAN, F.MTC_ECC.UE_LOST]
  | .MTC_LOST_ADDR => [F.MTC_LOST_ADDR.VALID, F.MTC_LOST_ADDR.ADDR]
  | .MTC_EVENT => [F.MTC_EVENT.CMD_REJECT, F.MTC_EVENT.CMD_DONE, F.MTC_EVENT.LOST, F.MTC_EVENT.CE]
  | .MTC_WAYMASK => [F.MTC_WAYMASK.MASK]
  | .MEM_MODE => [F.MEM_MODE.LOST, F.MEM_MODE.FAIL, F.MEM_MODE.MODE]
  | .MEM_PRIO => [F.MEM_PRIO.AGE]
  | .MEM_SCRUB => [F.MEM_SCRUB.BEHIND, F.MEM_SCRUB.PASSES, F.MEM_SCRUB.PERIOD]
  | .MEM_TRACK => [F.MEM_TRACK.PEAK, F.MEM_TRACK.OUTSTANDING]
  | .MEM_RD_BYTES => [F.MEM_RD_BYTES.BYTES]
  | .MEM_WR_BYTES => [F.MEM_WR_BYTES.BYTES]
  | .MEM_ECC => [F.MEM_ECC.ODE_CE, F.MEM_ECC.CE, F.MEM_ECC.UE, F.MEM_ECC.SCRUB_UE]
  | .MEM_UE_ADDR => [F.MEM_UE_ADDR.VALID, F.MEM_UE_ADDR.SCRUB, F.MEM_UE_ADDR.ADDR]
  | .MEM_EVENT => [F.MEM_EVENT.ADD_REFUSED, F.MEM_EVENT.ADD_DONE, F.MEM_EVENT.CE_STORM, F.MEM_EVENT.UE, F.MEM_EVENT.CE]
  | .MEM_ADD_ADDR => [F.MEM_ADD_ADDR.ADDR]
  | .MEM_ADD_LEN => [F.MEM_ADD_LEN.LEN]
  | .MEM_ADD_OPND => [F.MEM_ADD_OPND.OPND]
  | .MEM_ADD_CMD => [F.MEM_ADD_CMD.BUSY, F.MEM_ADD_CMD.TYPE, F.MEM_ADD_CMD.OP]
  | .MEM_ADD_RESULT => [F.MEM_ADD_RESULT.RESULT]
  | .XLT_INV => [F.XLT_INV.BUSY, F.XLT_INV.CTX, F.XLT_INV.OP]
  | .XLT_INV_RANGE => [F.XLT_INV_RANGE.COUNT, F.XLT_INV_RANGE.BASE]
  | .XLT_FAULT => [F.XLT_FAULT.VALID, F.XLT_FAULT.LOST, F.XLT_FAULT.TILE, F.XLT_FAULT.UNIT, F.XLT_FAULT.SOURCE, F.XLT_FAULT.CTX, F.XLT_FAULT.LEVEL, F.XLT_FAULT.ACCESS, F.XLT_FAULT.CAUSE]
  | .XLT_FAULT_ADDR => [F.XLT_FAULT_ADDR.AVA]
  | .XLT_STATS => [F.XLT_STATS.HITS, F.XLT_STATS.WALKS]
  | .XLT_EVENT => [F.XLT_EVENT.INV_REJECT, F.XLT_EVENT.INV_DONE, F.XLT_EVENT.FAULT]
  | .XLT_CTX_ROOT => [F.XLT_CTX_ROOT.VALID, F.XLT_CTX_ROOT.MODE, F.XLT_CTX_ROOT.PARTITION, F.XLT_CTX_ROOT.PPN]
  | .XLT_CTX_DATUM => [F.XLT_CTX_DATUM.DATUM]
  | .CFE_Q_SQ_DB => [F.CFE_Q_SQ_DB.TAIL]
  | .CFE_Q_CQ_DB => [F.CFE_Q_CQ_DB.CONSUMED]
  | .CFE_Q_STATE => [F.CFE_Q_STATE.HEAD, F.CFE_Q_STATE.IN_FLIGHT, F.CFE_Q_STATE.HELD, F.CFE_Q_STATE.FAULT, F.CFE_Q_STATE.STATE]
  | .CFE_Q_CFG => [F.CFE_Q_CFG.OWNER, F.CFE_Q_CFG.PARTITION, F.CFE_Q_CFG.CTX, F.CFE_Q_CFG.MSIX, F.CFE_Q_CFG.FETCH_AHEAD, F.CFE_Q_CFG.CLASS, F.CFE_Q_CFG.MSIX_EN, F.CFE_Q_CFG.CQ_SPACE, F.CFE_Q_CFG.SQ_SPACE, F.CFE_Q_CFG.CQ_ORDER, F.CFE_Q_CFG.SQ_ORDER]
  | .CFE_AQ_CFG => [F.CFE_AQ_CFG.ENABLE, F.CFE_AQ_CFG.MSIX, F.CFE_AQ_CFG.CQ_SPACE, F.CFE_AQ_CFG.SQ_SPACE, F.CFE_AQ_CFG.CQ_ORDER, F.CFE_AQ_CFG.SQ_ORDER]
  | .CFE_Q_SQ_BASE => [F.CFE_Q_SQ_BASE.BASE]
  | .CFE_Q_CQ_BASE => [F.CFE_Q_CQ_BASE.BASE]
  | .CFE_Q_CTL => [F.CFE_Q_CTL.RESUME, F.CFE_Q_CTL.TIMEOUT]
  | .CFE_Q_CPL => [F.CFE_Q_CPL.PRODUCED, F.CFE_Q_CPL.CONSUMED]
  | .CFE_Q_STAT => [F.CFE_Q_STAT.ITEMS, F.CFE_Q_STAT.REFETCH, F.CFE_Q_STAT.DB_IGNORED]
  | .CFE_Q_EVENT => [F.CFE_Q_EVENT.DISCARDED, F.CFE_Q_EVENT.CTL_REFUSED, F.CFE_Q_EVENT.TIMEOUT, F.CFE_Q_EVENT.FAULT, F.CFE_Q_EVENT.CPL_FAIL]
  | .CFE_STATUS => [F.CFE_STATUS.REBUILDS, F.CFE_STATUS.HALTED, F.CFE_STATUS.READY]
  | .HOD_LINK => [F.HOD_LINK.IDE_STREAMS, F.HOD_LINK.RECOVERIES, F.HOD_LINK.FLIT, F.HOD_LINK.UP, F.HOD_LINK.WIDTH, F.HOD_LINK.SPEED]
  | .HOD_HOSTLOSS => [F.HOD_HOSTLOSS.LOSSES, F.HOD_HOSTLOSS.STATE, F.HOD_HOSTLOSS.MODE]
  | .HOD_OUTWIN => [F.HOD_OUTWIN.BASE]
  | .HOD_PF_WIN => [F.HOD_PF_WIN.BASE]
  | .HOD_BAR2_WIN => [F.HOD_BAR2_WIN.BASE]
  | .HOD_FAULT => [F.HOD_FAULT.VALID, F.HOD_FAULT.LOST, F.HOD_FAULT.HOD, F.HOD_FAULT.FUNCTION, F.HOD_FAULT.DETAIL, F.HOD_FAULT.SOURCE, F.HOD_FAULT.QUEUE, F.HOD_FAULT.TILE]
  | .HOD_FAULT_ADDR => [F.HOD_FAULT_ADDR.ADDR]
  | .HOD_EVENT => [F.HOD_EVENT.OUT_ERR, F.HOD_EVENT.INBOUND_UE, F.HOD_EVENT.INBOUND_BLOCKED, F.HOD_EVENT.HOST_LOSS, F.HOD_EVENT.FAULT]
  | .HOD_INBOUND => [F.HOD_INBOUND.BLOCKED, F.HOD_INBOUND.DROPPED, F.HOD_INBOUND.ABORTED]
  | .HOD_STATE => [F.HOD_STATE.QUEUED, F.HOD_STATE.ACTIVE, F.HOD_STATE.TAGS]
  | .HOD_BYTES => [F.HOD_BYTES.BYTES]
  | .CHK_CFG => [F.CHK_CFG.BUSY, F.CHK_CFG.LOAD, F.CHK_CFG.INVERT, F.CHK_CFG.REFOUT, F.CHK_CFG.REFIN, F.CHK_CFG.WIDTH]
  | .CHK_PROF_CFG => [F.CHK_PROF_CFG.INVERT, F.CHK_PROF_CFG.REFOUT, F.CHK_PROF_CFG.REFIN, F.CHK_PROF_CFG.WIDTH]
  | .CHK_POLY => [F.CHK_POLY.POLY]
  | .CHK_PROF_POLY => [F.CHK_PROF_POLY.POLY]
  | .CHK_INIT => [F.CHK_INIT.INIT]
  | .CHK_PROF_INIT => [F.CHK_PROF_INIT.INIT]
  | .CHK_VALUE => [F.CHK_VALUE.VALUE]
  | .CHK_RESULT => [F.CHK_RESULT.RESULT]
  | .CHK_DATA8 => [F.CHK_DATA8.DATA]
  | .CHK_DATA16 => [F.CHK_DATA16.DATA]
  | .CHK_DATA32 => [F.CHK_DATA32.DATA]
  | .LTL_CFG => [F.LTL_CFG.WIN_LOG2, F.LTL_CFG.RATE]
  | .LTL_STATE => [F.LTL_STATE.PRESENT, F.LTL_STATE.CONSEC_MAX, F.LTL_STATE.END_B, F.LTL_STATE.END_A, F.LTL_STATE.STATE, F.LTL_STATE.CAUSE_CONSEC, F.LTL_STATE.CAUSE_RATE]
  | .LTL_FLITS_AB => [F.LTL_FLITS_AB.FLITS]
  | .LTL_FLITS_BA => [F.LTL_FLITS_BA.FLITS]
  | .LTL_REPLAY => [F.LTL_REPLAY.AB, F.LTL_REPLAY.BA]
  | .LTL_WIN => [F.LTL_WIN.AB, F.LTL_WIN.BA]
  | .LTL_TRAIN => [F.LTL_TRAIN.EYE_MIN, F.LTL_TRAIN.SB_DELAY]
  | .LTL_SB => [F.LTL_SB.ERRORS]
  | .LTL_EVENT => [F.LTL_EVENT.SB_ERR, F.LTL_EVENT.RATE_WARN, F.LTL_EVENT.DOWN, F.LTL_EVENT.REPLAY]
  | .PWR_CAP => [F.PWR_CAP.CAP]
  | .PWR_BRAKE => [F.PWR_BRAKE.ACTIVE, F.PWR_BRAKE.LIMIT]
  | .PWR_STATUS => [F.PWR_STATUS.GAIN, F.PWR_STATUS.EFF_CAP, F.PWR_STATUS.INPUT_EST, F.PWR_STATUS.INPUT_MEAS]
  | .PWR_POLICY => [F.PWR_POLICY.IDLE_COURSES, F.PWR_POLICY.GDIE_MAX, F.PWR_POLICY.ARRAY_MAX]
  | .PWR_EVENT => [F.PWR_EVENT.EXCEED_COUNT, F.PWR_EVENT.DROOP, F.PWR_EVENT.BRAKE, F.PWR_EVENT.HBM_THROTTLE, F.PWR_EVENT.DIE_THROTTLE, F.PWR_EVENT.PMBUS_FAIL, F.PWR_EVENT.CAL_RANGE, F.PWR_EVENT.CAP_UNMET, F.PWR_EVENT.CAP_EXCEED]
  | .PWR_STRETCH => [F.PWR_STRETCH.EVENTS, F.PWR_STRETCH.CYCLES]
  | .PWR_PHASE_SEL => [F.PWR_PHASE_SEL.INDEX]
  | .PWR_PHASE_DATA => [F.PWR_PHASE_DATA.VALID, F.PWR_PHASE_DATA.SIG, F.PWR_PHASE_DATA.P_TILE, F.PWR_PHASE_DATA.UTIL, F.PWR_PHASE_DATA.AGE]
  | .PWR_EOPER => [F.PWR_EOPER.ENERGY]
  | .PWR_FUSE => [F.PWR_FUSE.AIRFAIL_EN]
  | .PWR_DOM => [F.PWR_DOM.ON, F.PWR_DOM.C0, F.PWR_DOM.PLINTH, F.PWR_DOM.DUTY, F.PWR_DOM.MV, F.PWR_DOM.STEP, F.PWR_DOM.POWER]
  | .PWR_TRIM => [F.PWR_TRIM.EST_TRIM, F.PWR_TRIM.V_TRIM]
  | .PWR_TEMP => [F.PWR_TEMP.PRESENT, F.PWR_TEMP.THROTTLE, F.PWR_TEMP.PEAK, F.PWR_TEMP.TEMP]
  | .PWR_EPART => [F.PWR_EPART.ENERGY]
  | .PWR_EQ => [F.PWR_EQ.ENERGY]
  | .SEC_STATE => [F.SEC_STATE.FAIL_TYPE, F.SEC_STATE.OWNED, F.SEC_STATE.OWNER_BANK, F.SEC_STATE.STAGE]
  | .SEC_SERIAL => [F.SEC_SERIAL.SERIAL]
  | .SEC_SVNMIN => [F.SEC_SVNMIN.MIN]
  | .SEC_MBOX_CMD => [F.SEC_MBOX_CMD.BUSY, F.SEC_MBOX_CMD.LENGTH, F.SEC_MBOX_CMD.OP]
  | .SEC_MBOX_STATUS => [F.SEC_MBOX_STATUS.RESULT_LEN, F.SEC_MBOX_STATUS.COUNT, F.SEC_MBOX_STATUS.STATUS]
  | .SEC_EVENT => [F.SEC_EVENT.OWNER_SET, F.SEC_EVENT.UNLOCK, F.SEC_EVENT.REFUSED, F.SEC_EVENT.ALT_USED, F.SEC_EVENT.DONE]
  | .SEC_SLOTS => [F.SEC_SLOTS.IN_USE]
  | .SEC_DEBUG => [F.SEC_DEBUG.CHALLENGE, F.SEC_DEBUG.CORE_DEBUG, F.SEC_DEBUG.JTAG, F.SEC_DEBUG.UNLOCKED]
  | .SEC_BOOT => [F.SEC_BOOT.SVN, F.SEC_BOOT.PRIMARY_FAIL, F.SEC_BOOT.ALT_FAIL, F.SEC_BOOT.COPY, F.SEC_BOOT.VALID]
  | .SEC_BWFENCE => [F.SEC_BWFENCE.ENABLE, F.SEC_BWFENCE.WEIGHT]
  | .SEC_PART => [F.SEC_PART.STATE, F.SEC_PART.SLOT, F.SEC_PART.TDI, F.SEC_PART.TILES, F.SEC_PART.RANGES, F.SEC_PART.SLOTS]
  | .SEC_PART_CORES_LO => [F.SEC_PART_CORES_LO.CORES]
  | .SEC_PART_CORES_HI => [F.SEC_PART_CORES_HI.CORES]
  | .SEC_RANGE => [F.SEC_RANGE.PENDING, F.SEC_RANGE.OWNER, F.SEC_RANGE.SLOT, F.SEC_RANGE.SHARE]
  | .CFG_STATE => [F.CFG_STATE.LOCKED, F.CFG_STATE.FAIL, F.CFG_STATE.RECORD, F.CFG_STATE.FAIL_PHASE, F.CFG_STATE.PHASE]
  | .CFG_EPOCH => [F.CFG_EPOCH.EPOCH]
  | .CFG_LOCKED_WRITES => [F.CFG_LOCKED_WRITES.COUNT]
  | .CFG_RESET => [F.CFG_RESET.CORE_RESETS, F.CFG_RESET.CORE, F.CFG_RESET.REBUILD]
  | .CFG_EVENT => [F.CFG_EVENT.LIVE_CHANGED, F.CFG_EVENT.RESET_REFUSED, F.CFG_EVENT.LOCKED_WRITE, F.CFG_EVENT.EPOCH, F.CFG_EVENT.READY]
  | .CFG_LIVE_SEQ => [F.CFG_LIVE_SEQ.SEQ]
  | .CFG_RECORD_ID => [F.CFG_RECORD_ID.ID]
  | .CFG_BOOT_TIME => [F.CFG_BOOT_TIME.MS]
  | .CFG_PLUMB => [F.CFG_PLUMB.DIGEST]
  | .CFG_LIVE => [F.CFG_LIVE.DIGEST]
  | .ERR_STATUS => [F.ERR_STATUS.FATAL, F.ERR_STATUS.OVERFLOW, F.ERR_STATUS.NEW]
  | .ERR_LOG_HEAD => [F.ERR_LOG_HEAD.HEAD]
  | .ERR_LOG_TAIL => [F.ERR_LOG_TAIL.TAIL]
  | .ERR_LOST => [F.ERR_LOST.COUNT]
  | .ERR_FATAL => [F.ERR_FATAL.VALID, F.ERR_FATAL.CAUSE, F.ERR_FATAL.CODE]
  | .ERR_IRQ_EN => [F.ERR_IRQ_EN.UNCORRECTED, F.ERR_IRQ_EN.CORRECTED, F.ERR_IRQ_EN.NOTE]
  | .ERR_COUNT => [F.ERR_COUNT.FATAL, F.ERR_COUNT.UNCORRECTED, F.ERR_COUNT.CORRECTED, F.ERR_COUNT.NOTE]
  | .ERR_SECONDARY => [F.ERR_SECONDARY.COUNT]
  | .ERR_CE => [F.ERR_CE.COUNT]
  | .CAP_ID => [F.CAP_ID.STEPPING, F.CAP_ID.PART]
  | .CAP_UNITS => [F.CAP_UNITS.LPDDR, F.CAP_UNITS.HBM, F.CAP_UNITS.ASHLAR, F.CAP_UNITS.RIDDLE, F.CAP_UNITS.GDIES, F.CAP_UNITS.CDIES]
  | .CAP_SIZES => [F.CAP_SIZES.PARTITIONS, F.CAP_SIZES.QUEUES, F.CAP_SIZES.LPDDR_CHAN_GIB, F.CAP_SIZES.HBM_STACK_GIB, F.CAP_SIZES.CORES, F.CAP_SIZES.TILES]
  | .ERR_LOG => [F.ERR_LOG.WORD]
  | .SEC_MBOX_BUF => [F.SEC_MBOX_BUF.DATA]
/-- Register kinds, part 1 of 8. -/
def RegKind.part1 : List RegKind :=
  [.CRS_PERIOD, .CRS_COURSE_NUM, .CRS_NOW, .CRS_FLOOR, .CRS_SHARE, .CRS_SLICE, .CRS_DEBT, .CRS_EVENT, .CRS_C0_RES, .CRS_C0_GROUP, .ARC_SHAPE, .ARC_TIMING, .ARC_MARKS, .ARC_STREAM, .ARC_DRAIN_DONE, .ARC_FRZ_CYC, .ARC_COUNT, .ARC_CAUSE, .ARC_EVENT, .CRB_STATE, .CRB_LS_POS, .CRB_OPS, .CRB_SFU, .CRB_STALL]

/-- Register kinds, part 2 of 8. -/
def RegKind.part2 : List RegKind :=
  [.CRB_EVENT, .TSQ_STATE, .TSQ_PC, .TSQ_EXC, .TSQ_EXC_WORD, .TSQ_EXC_ADDR, .TSQ_QCTL, .TSQ_QHIT, .TSQ_QMISS, .TSQ_ISSUED, .TSQ_STALL, .TSQ_RELOC, .FDR_STATE, .FDR_RD_BYTES, .FDR_WT_BYTES, .FDR_DR_BYTES, .FDR_ASHLAR, .FDR_KV, .FDR_EVENT, .FDR_RDL_STATE, .FDR_RDL_TOKENS, .FDR_RDL_ASSIGN, .FDR_RDL_EVENT, .SCP_PLINTH]

/-- Register kinds, part 3 of 8. -/
def RegKind.part3 : List RegKind :=
  [.SCP_ECC, .SCP_UE_ADDR, .SCP_BANK_WAIT, .SCP_ARRIVED, .SCP_EVENT, .SCP_ACTR, .SCP_DS_CLAIM, .SCP_DS_ECC, .SCP_DS_UE_ADDR, .SCP_DS_EVENT, .MTC_CMD, .MTC_LOOKUP, .MTC_AMO, .MTC_STATE, .MTC_ECC, .MTC_LOST_ADDR, .MTC_EVENT, .MTC_WAYMASK, .MEM_MODE, .MEM_PRIO, .MEM_SCRUB, .MEM_TRACK, .MEM_RD_BYTES, .MEM_WR_BYTES]

/-- Register kinds, part 4 of 8. -/
def RegKind.part4 : List RegKind :=
  [.MEM_ECC, .MEM_UE_ADDR, .MEM_EVENT, .MEM_ADD_ADDR, .MEM_ADD_LEN, .MEM_ADD_OPND, .MEM_ADD_CMD, .MEM_ADD_RESULT, .XLT_INV, .XLT_INV_RANGE, .XLT_FAULT, .XLT_FAULT_ADDR, .XLT_STATS, .XLT_EVENT, .XLT_CTX_ROOT, .XLT_CTX_DATUM, .CFE_Q_SQ_DB, .CFE_Q_CQ_DB, .CFE_Q_STATE, .CFE_Q_CFG, .CFE_AQ_CFG, .CFE_Q_SQ_BASE, .CFE_Q_CQ_BASE, .CFE_Q_CTL]

/-- Register kinds, part 5 of 8. -/
def RegKind.part5 : List RegKind :=
  [.CFE_Q_CPL, .CFE_Q_STAT, .CFE_Q_EVENT, .CFE_STATUS, .HOD_LINK, .HOD_HOSTLOSS, .HOD_OUTWIN, .HOD_PF_WIN, .HOD_BAR2_WIN, .HOD_FAULT, .HOD_FAULT_ADDR, .HOD_EVENT, .HOD_INBOUND, .HOD_STATE, .HOD_BYTES, .CHK_CFG, .CHK_PROF_CFG, .CHK_POLY, .CHK_PROF_POLY, .CHK_INIT, .CHK_PROF_INIT, .CHK_VALUE, .CHK_RESULT, .CHK_DATA8]

/-- Register kinds, part 6 of 8. -/
def RegKind.part6 : List RegKind :=
  [.CHK_DATA16, .CHK_DATA32, .LTL_CFG, .LTL_STATE, .LTL_FLITS_AB, .LTL_FLITS_BA, .LTL_REPLAY, .LTL_WIN, .LTL_TRAIN, .LTL_SB, .LTL_EVENT, .PWR_CAP, .PWR_BRAKE, .PWR_STATUS, .PWR_POLICY, .PWR_EVENT, .PWR_STRETCH, .PWR_PHASE_SEL, .PWR_PHASE_DATA, .PWR_EOPER, .PWR_FUSE, .PWR_DOM, .PWR_TRIM, .PWR_TEMP]

/-- Register kinds, part 7 of 8. -/
def RegKind.part7 : List RegKind :=
  [.PWR_EPART, .PWR_EQ, .SEC_STATE, .SEC_SERIAL, .SEC_SVNMIN, .SEC_MBOX_CMD, .SEC_MBOX_STATUS, .SEC_EVENT, .SEC_SLOTS, .SEC_DEBUG, .SEC_BOOT, .SEC_BWFENCE, .SEC_PART, .SEC_PART_CORES_LO, .SEC_PART_CORES_HI, .SEC_RANGE, .CFG_STATE, .CFG_EPOCH, .CFG_LOCKED_WRITES, .CFG_RESET, .CFG_EVENT, .CFG_LIVE_SEQ, .CFG_RECORD_ID, .CFG_BOOT_TIME]

/-- Register kinds, part 8 of 8. -/
def RegKind.part8 : List RegKind :=
  [.CFG_PLUMB, .CFG_LIVE, .ERR_STATUS, .ERR_LOG_HEAD, .ERR_LOG_TAIL, .ERR_LOST, .ERR_FATAL, .ERR_IRQ_EN, .ERR_COUNT, .ERR_SECONDARY, .ERR_CE, .CAP_ID, .CAP_UNITS, .CAP_SIZES, .ERR_LOG, .SEC_MBOX_BUF]

/-- Every register kind, in the order of the chapters. -/
def RegKind.all : List RegKind :=
  List.flatten [RegKind.part1, RegKind.part2, RegKind.part3, RegKind.part4, RegKind.part5, RegKind.part6, RegKind.part7, RegKind.part8]

/-- One register: its kind and which instance of it. -/
structure Reg where
  kind : RegKind
  idx : Nat
deriving DecidableEq, Repr

/-- Base of the window of C-die `d` (R435). -/
def dieBase (d : Nat) : Nat := 0x20000000 + d * 0x04000000

/-- Physical address of instance `i` of a place. Queue 1,024 + a stands for admin queue a. -/
def Place.addr : Place → Nat → Nat
  | .lin b st _ _, i => b + i * st
  | .qdb o, i => (if i < 1024 then 0x10000000 + i * 0x1000 else 0x10400000 + (i - 1024) * 0x1000) + o
  | .qctl o, i | .qwork o, i | .qadmin o, i =>
    (if i < 1024 then 0x10500000 + i * 0x40 else 0x10600000 + (i - 1024) * 0x40) + o
  | .tile o n, i =>
    let t := i / n
    dieBase (t / 200) + (t % 200) * 0x40000 + o + 8 * (i % n)
  | .die o n, i => dieBase (i / n) + o + 8 * (i % n)

/-- Number of instances of a place. -/
def Place.count : Place → Nat
  | .lin _ _ _ n => n
  | .qdb _ | .qctl _ => 1033
  | .qwork _ => 1024
  | .qadmin _ => 1033
  | .tile _ n => 800 * n
  | .die _ n => 4 * n

/-- The instance of a place that lies at address `a`, if one does. -/
def Place.find (p : Place) (a : Nat) : Option Nat :=
  let i := match p with
    | .lin b st _ _ => (a - b) / st
    | .qdb _ => if a < 0x10400000 then (a - 0x10000000) / 0x1000 else 1024 + (a - 0x10400000) / 0x1000
    | .qctl _ | .qwork _ | .qadmin _ =>
      if a < 0x10600000 then (a - 0x10500000) / 0x40 else 1024 + (a - 0x10600000) / 0x40
    | .tile o n =>
      let d := (a - 0x20000000) / 0x04000000
      let t := ((a - 0x20000000) % 0x04000000) / 0x40000
      (d * 200 + t) * n + ((a - 0x20000000) % 0x40000 - o) / 8
    | .die o n =>
      let d := (a - 0x20000000) / 0x04000000
      d * n + ((a - 0x20000000) % 0x04000000 - o) / 8
  let low := match p with | .qadmin _ => 1024 | .lin _ _ f _ => f | _ => 0
  if low ≤ i ∧ i < p.count ∧ p.addr i = a then some i else none

/-- Physical address of a register. -/
def Reg.addr (r : Reg) : Nat := r.kind.place.addr r.idx

/-- The register at an address of the register range, if the index names one (R434). -/
def regAt (a : Nat) : Option Reg :=
  RegKind.all.findSome? fun k => (k.place.find a).map (Reg.mk k)

/-- Reset value of a register: its fields' reset values, zero elsewhere. -/
def RegKind.reset (k : RegKind) : BitVec 64 :=
  k.fields.foldl (fun v f => setField v f.hi f.lo f.rst) 0

end Sys2Proof.Machine
end

