-- ==== Sys2Proof/Machine/Store.lean ====
section
/-! DEFINITION. Machine/Store.lean: sparse stores as lists of (key, value) pairs with strictly rising keys. A store
with a default lists no entry that equals it, so that equal stores are equal lists. -/
namespace Sys2Proof.Machine

/-- A sparse store: pairs of key and value, keys strictly rising. -/
abbrev SMap (α : Type) := List (Nat × α)

variable {α : Type}

/-- The value listed for a key. -/
def SMap.find? : SMap α → Nat → Option α
  | [], _ => none
  | (k, v) :: m, a => if a = k then some v else SMap.find? m a

/-- The value at a key, the default where none is listed. -/
def SMap.get (m : SMap α) (d : α) (a : Nat) : α := (SMap.find? m a).getD d

/-- List `v` at `a`, replacing what is listed there. -/
def SMap.insert : SMap α → Nat → α → SMap α
  | [], a, v => [(a, v)]
  | (k, w) :: m, a, v =>
    if a < k then (a, v) :: (k, w) :: m
    else if a = k then (a, v) :: m
    else (k, w) :: SMap.insert m a v

/-- List nothing at `a`. -/
def SMap.erase (m : SMap α) (a : Nat) : SMap α := m.filter fun p => p.1 ≠ a

/-- Write `v` at `a` in a store whose default is `d`. -/
def SMap.set [DecidableEq α] (m : SMap α) (d : α) (a : Nat) (v : α) : SMap α :=
  if v = d then SMap.erase m a else SMap.insert m a v

/-- Change the value at `a`. -/
def SMap.modify [DecidableEq α] (m : SMap α) (d : α) (a : Nat) (f : α → α) : SMap α :=
  SMap.set m d a (f (SMap.get m d a))

/-- Drop every listed key that satisfies `p`. -/
def SMap.drop (m : SMap α) (p : Nat → Bool) : SMap α := m.filter fun q => !p q.1

/-- Keys rise strictly. -/
def SMap.rising : SMap α → Bool
  | [] => true
  | [_] => true
  | (a, _) :: (b, w) :: m => a < b && SMap.rising ((b, w) :: m)

/-- The canonical form of a store with default `d`. -/
def SMap.wf [DecidableEq α] (m : SMap α) (d : α) : Bool :=
  SMap.rising m && m.all fun p => p.2 ≠ d

end Sys2Proof.Machine
end

