-- ==== Sys2Proof/Syntax.lean ====
section
/-! DEFINITION. Syntax.lean: the commands of the module, one constructor per row of the opcode table, with their operands.
Tile instruction rows name the tile; the instruction word itself is the machine's, delivered by its fetch (log entry 3). -/
namespace Sys2Proof

/-- An engine that holds work of a queue (R286): the placer for a running block, or a hod running a copy. -/
inductive Engine where
  | placer (block : Nat)
  | hod (h : Nat)
deriving DecidableEq, Repr

/-- Stall conditions of an arch (R72) and the skid overflow of R75. -/
inductive StallCond where
  | rowDry | drainFull | throttle | fstep | skidOverflow
deriving DecidableEq, Repr

/-- How far a write on its way gets (R181, R187, R188): all of it is in place; its aligned 8 B unit at an address is; a
store becomes visible on a die before it is performed at PACKAGE scope. -/
inductive Landing where
  | whole
  | unit (addr : Nat)
  | seen (die : Nat)
deriving DecidableEq, Repr

/-- How far which of the writes on their way gets; they are numbered from the oldest. -/
structure Arrival where
  pos : Nat
  how : Landing
deriving DecidableEq, Repr

/-- What a patrol engine does next (R231): the address up to which it reads, and whether that ends its pass. -/
structure ScrubRun where
  upto : Nat
  last : Bool
deriving DecidableEq, Repr

/-- An inbound request (R300): its Requester ID and its offset in BAR2. -/
structure InReq where
  req : Nat
  off : Nat
deriving DecidableEq, Repr

/-- Attributes of an inbound write (R201, R300): its poison bit and Relaxed Ordering. -/
structure TlpAttr where
  ep : Bool
  ro : Bool
deriving DecidableEq, Repr

/-- A flit as a receiver finds it (R336, R339): its direction, its count since the last training or replay, its payload and
its CRC. -/
structure Flit where
  ba : Bool
  count : Nat
  payload : List (BitVec 8)
  crc : BitVec 32
deriving DecidableEq, Repr

/-- An error report (R421): code, severity, reporting unit, cause unit, address, detail, owner tag and queue. -/
structure Report where
  code : Nat
  sev : Nat
  source : Nat
  cause : Nat
  addr : Nat
  detail : Nat
  part : Nat
  queue : Nat
deriving DecidableEq, Repr

/-- A report with the course and the reference tick its event was detected in (R421, R425). -/
structure Detected where
  report : Report
  course : Nat
  time : Nat
deriving DecidableEq, Repr

/-- How a PCI Express completion ends (R308): successful, Unsupported Request, Completer Abort, poisoned data, or failed
IDE integrity. -/
inductive BusStatus where
  | ok | ur | ca | poison | ide
deriving DecidableEq, Repr

/-- What a configuration read asks for, of the fields R293 and R299 give. -/
inductive CfgField where
  | deviceClass | totalVfs | firstVfOffset | vfStride | readBoundary
  | bme | d3 | msixEnable | msixMask | vfEnable | bar2Order | payload | readRequest | completionTimeout | ecrcGen | ecrcCheck
deriving DecidableEq, Repr

/-- A configuration request to a function (R293, R299): a read of a field; another read or a write without effect; or a
write of Bus Master Enable, the power state, MSI-X Enable and Function Mask, VF Enable, the BAR2 size as a power of two, the
payload and read request sizes, the Completion Timeout Value, or ECRC generation and checking. -/
inductive CfgReq where
  | read (f : CfgField)
  | other
  | timeout (v : Nat)
  | ecrc (gen check : Bool)
  | bme (on : Bool)
  | d3 (on : Bool)
  | msix (enable mask : Bool)
  | vfEnable (on : Bool)
  | bar2 (order : Nat)
  | sizes (mps mrrs : Nat)
deriving DecidableEq, Repr

/-- A serial flash command of the tray (R450): a read, an erase of a run, or a program, which clears bits. -/
inductive SpiCmd where
  | read (off len : Nat)
  | erase (off len : Nat)
  | program (off : Nat) (data : List (BitVec 8))
deriving DecidableEq, Repr

/-- Privilege mode of a core (R321): machine, HS, U, VS, VU. -/
inductive Priv where
  | m | hs | u | vs | vu
deriving DecidableEq, Repr

/-- V = 1 (R386). -/
def Priv.virt : Priv → Bool
  | .vs | .vu => true
  | _ => false

/-- Who accesses a register: the host through BAR0 of a function, or a core in a mode, at a virtual address, with the
delegation of its access faults: 0 to machine mode, 1 to HS, 2 to HS and from V = 1 to VS. -/
inductive RegVia where
  | bar0 (fn : Nat)
  | core (n : Nat) (mode : Priv) (va deleg : Nat)
deriving DecidableEq, Repr

/-- A register access (R296, R326, R437): its source, BAR0 offset or physical address, and size in bytes. -/
structure RegAcc where
  via : RegVia
  addr : Nat
  size : Nat
deriving DecidableEq, Repr

/-- Operation of a core's atomic (Zaamo, Zabha). -/
inductive CoreAmo where
  | swap | add | xor | and | or | min | max | minu | maxu
deriving DecidableEq, Repr

/-- The extensions of R321's table. -/
inductive RvExt where
  | v | h | sv39 | sv48 | sv57 | svpbmt | svnapot | svinval | zicbom | zicboz | zicbop | zihintntl | zfh | zvfh
  | zvkng | zvbc | zabha | ssaia | sdext | sdtrig
  | zacas | zama16b | zvksg | zbc | ztso
deriving DecidableEq, Repr

/-- A core's access to memory (R325 to R328): a load or fetch; a store, with a hint NTL.PALL or NTL.ALL or not; a vector
access likewise; an AMO; LR; SC; cache block operations; another instruction of an extension (R321); a read of the time CSR
(R322). -/
inductive CoreOp where
  | load (size : Nat)
  | fetch (size : Nat)
  | store (data : List (BitVec 8)) (nt : Bool)
  | vector (data : Option (List (BitVec 8))) (size : Nat) (nt : Bool)
  | amo (op : CoreAmo) (size x : Nat)
  | lr (size : Nat)
  | sc (data : List (BitVec 8))
  | cboClean | cboFlush | cboInval | cboZero
  | ext (e : RvExt)
  | time
deriving DecidableEq, Repr

/-- A core's access: the core, its mode, the delegation of its access faults (`RegVia`), whether it is to the G-die's
machine-mode memory (`pa` is then an offset), the page's PBMT, virtual and physical address, the operation, and the 64 B
blocks that the G-die's caches drop to make room. -/
structure CoreAcc where
  core : Nat
  mode : Priv
  deleg : Nat
  mm : Bool
  pbmt : Nat
  va : Nat
  pa : Nat
  op : CoreOp
  evict : List Nat
deriving DecidableEq, Repr

/-- A core that makes an access: its mode, the virtual address, and the delegation of its access faults (`RegVia`). -/
structure OutCore where
  core : Nat
  mode : Priv
  va : Nat
  deleg : Nat
deriving DecidableEq, Repr

/-- A predecessor or successor set of a FENCE: device input and output, memory reads and writes. -/
structure FenceSet where
  i : Bool
  o : Bool
  r : Bool
  w : Bool
deriving DecidableEq, Repr

/-- An ordering event of a core (R195, R330): a FENCE by its predecessor and successor sets, FENCE.TSO, an AMO or SC with rl,
SFENCE.VMA. -/
inductive CoreFenceKind where
  | fence (pred succ : FenceSet)
  | tso
  | rl
  | sfence
deriving DecidableEq, Repr

/-- How a start-up phase ends: well, or with the failing unit and a detail (R406). -/
inductive PhaseOutcome where
  | ok
  | fail (unit detail : Nat)
deriving DecidableEq, Repr

/-- What NEGOTIATE_ALGORITHMS offers, of the algorithms R380 lists: RSAPSS 3072 with SHA-384, SHA-384 measurement hashes,
secp384r1, AES-256-GCM, the SPDM key schedule. -/
structure AlgOffer where
  base : Bool
  meas : Bool
  dhe : Bool
  aead : Bool
  sched : Bool
deriving DecidableEq, Repr

/-- A vendor-defined request (R380): IDE_KM completes or ends a selective stream of a function, or any other IDE_KM
message; TDISP starts an interface (a VF), or any other TDISP message that changes nothing. -/
inductive VendorReq where
  | ideGo (stream fn : Nat)
  | ideStop (stream : Nat)
  | ideOther
  | tdispStart (vf : Nat)
  | tdispOther
deriving DecidableEq, Repr

/-- The commands of the module (R-numbers: the rules of spec/ each row cites). -/
inductive Instr where
  /-- The course tick reaches every tile and core; CRS_COURSE_NUM increments and the plan built at the snapshot close is applied (R19). -/
  | courseBoundary (m : Option Nat)
  /-- At T − 20 µs the placer takes the eligible C1–C3 blocks and busy tiles, latches shares and slices, updates the debt and runs the four admission passes (R27). -/
  | c1C3SnapshotClose
  /-- At T − 2 µs eligible C0 blocks are bound to their groups for the coming course (R21). -/
  | c0SnapshotClose
  /-- A quadrant powered on for an unplaced block completes power-up and its tiles become usable at the next snapshot close (R347). -/
  | quadrantPowerUp (quad : Nat)
  /-- A block or copy passes its queue's timeout in courses and the front end starts the rebuild reset (R33). -/
  | timeoutExceeded (q : Nat)
  /-- A write to CFE_Q_SQ_DB proposes a new tail, accepted if within one ring of HEAD and not behind the tail (R272). -/
  | sqDoorbell (q : Nat) (v : BitVec 64)
  /-- A write to CFE_Q_CQ_DB reports the absolute count of completion records consumed (R280). -/
  | cqDoorbell (q : Nat) (v : BitVec 64)
  /-- The front end reads the next descriptor of a queue whose fetch conditions and class credit allow it (R276). -/
  | descriptorFetch (q : Nat)
  /-- 2 µs after a SEQ mismatch the front end reads the slot again, up to 16 times (R277). -/
  | descriptorRefetch (q : Nat)
  /-- A NOP work descriptor is checked and completes with OK, after earlier items if AFTER is set (R274). -/
  | workNop (q : Nat)
  /-- A RUN descriptor is checked, its segment image read and validated, and its blocks made eligible or the item refused (R274). -/
  | run (q : Nat)
  /-- A COPY work descriptor is checked and its transfer body sent to the hod of its class (R303). -/
  | copy (q : Nat)
  /-- After END or YIELD every operation a tile dispatched has finished and the tile's part of the block ends (R106). -/
  | tilePartEnd (t : Nat)
  /-- Once the item's writes are performed at SYSTEM scope the front end writes the completion record and then the MSI-X message (R282). -/
  | completionRecordWrite (q : Nat)
  /-- CFE_Q_CTL.RESUME rewrites the held and waiting records of a CPL_BLOCKED queue in order (R285). -/
  | resume (q : Nat)
  /-- A write to CFE_Q_CTL.TIMEOUT changes the queue's timeout from the next boundary and counts in CFG_EPOCH (R288). -/
  | timeoutWrite (q : Nat) (v : BitVec 64)
  /-- Setting CFE_AQ_CFG.ENABLE makes the admin queue ACTIVE with HEAD, tail and counts at zero (R284). -/
  | adminQueueEnable (a : Nat) (v : BitVec 64)
  /-- Clearing ENABLE with IN_FLIGHT zero returns the admin queue to FREE and discards held records (R292). -/
  | adminQueueDisable (a : Nat) (v : BitVec 64)
  /-- An engine returns a retire token for a draining queue; the last one writes the destroy completion and frees the queue (R286). -/
  | retireToken (q : Nat) (e : Engine)
  /-- Admin command creating a work queue with its class, context, rings and timeout (R291). -/
  | createQueue (a : Nat)
  /-- Admin command moving a queue to DRAINING and cancelling items not started (R286). -/
  | destroyQueue (a : Nat)
  /-- Admin command returning a FAULTED queue to ACTIVE at NEW_SEQ (R283). -/
  | resetQueue (a : Nat)
  /-- Admin command creating a translation context with root PPN, DATUM and partition (R239). -/
  | createContext (a : Nat)
  /-- Admin command destroying an unbound context and invalidating its translations (R239). -/
  | destroyContext (a : Nat)
  /-- Admin command choosing member tiles for a new resident set with its plinth banks (R290). -/
  | createResidentSet (a : Nat)
  /-- Admin command releasing a resident set; its banks rejoin non-plinth scratch and VALID clears (R179). -/
  | releaseResidentSet (a : Nat)
  /-- Admin command copying a resident set to new tiles as a C3 block (R269). -/
  | moveResidentSet (a : Nat)
  /-- Partition command creating a partition with its cores and a primary key slot (R389). -/
  | partCreate (a : Nat)
  /-- Partition command setting every range PENDING and moving the partition to CLOSING (R391). -/
  | partDestroy (a : Nat)
  /-- Partition command moving a run of tiles to a new owner (R389). -/
  | partAssignTiles (a : Nat)
  /-- Partition command changing a 1 GiB range's owner, slot or share through eviction and invalidation (R390). -/
  | partAssignRange (a : Nat)
  /-- Admin command returning its argument bytes as RESULT (R290). -/
  | echo (a : Nat)
  /-- The CLOSING partition's ranges are returned one by one, contexts, sets and tiles released and slots erased, ending in FREE (R391). -/
  | partitionClose (p : Nat)
  /-- Tile instruction with no effect (R109). -/
  | nop (t : Nat)
  /-- Tile instruction ending the tile's part of the block (R106). -/
  | end_ (t : Nat)
  /-- Tile instruction ending the tile's part and recording a continuation for the next block (R105). -/
  | yield (t : Nat)
  /-- Tile jump to PC + 8 × IMM (R109). -/
  | j (t : Nat)
  /-- Tile jump saving the return address in s[D] (R109). -/
  | jal (t : Nat)
  /-- Tile jump to s[A] + IMM (R109). -/
  | jr (t : Nat)
  /-- Branch if s[A] equals s[B] (R109). -/
  | beq (t : Nat)
  /-- Branch if s[A] differs from s[B] (R109). -/
  | bne (t : Nat)
  /-- Branch if s[A] is less than s[B], signed (R109). -/
  | blt (t : Nat)
  /-- Branch if s[A] is at least s[B], signed (R109). -/
  | bge (t : Nat)
  /-- Branch if s[A] is less than s[B], unsigned (R109). -/
  | bltu (t : Nat)
  /-- Branch if s[A] is at least s[B], unsigned (R109). -/
  | bgeu (t : Nat)
  /-- Scalar addition (R109). -/
  | add (t : Nat)
  /-- Scalar subtraction (R109). -/
  | sub (t : Nat)
  /-- Scalar bitwise AND (R109). -/
  | and_ (t : Nat)
  /-- Scalar bitwise OR (R109). -/
  | or_ (t : Nat)
  /-- Scalar bitwise XOR (R109). -/
  | xor (t : Nat)
  /-- Scalar logical left shift (R109). -/
  | sll (t : Nat)
  /-- Scalar logical right shift (R109). -/
  | srl (t : Nat)
  /-- Scalar arithmetic right shift (R109). -/
  | sra (t : Nat)
  /-- Scalar multiplication, low 64 bits (R109). -/
  | mul (t : Nat)
  /-- Set if less than, signed (R109). -/
  | slt (t : Nat)
  /-- Set if less than, unsigned (R109). -/
  | sltu (t : Nat)
  /-- Signed scalar minimum (R109). -/
  | min (t : Nat)
  /-- Signed scalar maximum (R109). -/
  | max (t : Nat)
  /-- Load an immediate into the upper 32 bits (R109). -/
  | lui (t : Nat)
  /-- Return a block or tile item selected by FN (R109). -/
  | getinfo (t : Nat)
  /-- Scalar load from scratch or a virtual address (R110). -/
  | ld (t : Nat)
  /-- Scalar store to scratch or a virtual address (R110). -/
  | st (t : Nat)
  /-- Constant load through the quoin cache (R110). -/
  | ldc (t : Nat)
  /-- Arch instruction staging every member's weight block from one descriptor (R67). -/
  | wload (t : Nat)
  /-- Arch instruction streaming n rows under a row feeder descriptor (R69). -/
  | rstream (t : Nat)
  /-- Arch instruction setting the drain descriptor for later streams (R139). -/
  | drain (t : Nat)
  /-- Queue a lane stream, or a sort job, from its source (R111). -/
  | lstr (t : Nat)
  /-- Queue a broadcast stream from scratch (R111). -/
  | bstr (t : Nat)
  /-- Copy scratch to scratch, counting on the destination's counter (R110). -/
  | smov (t : Nat)
  /-- Copy external memory into scratch (R110). -/
  | mcpyIn (t : Nat)
  /-- Copy scratch to external memory (R110). -/
  | mcpyOut (t : Nat)
  /-- Fill scratch with repeats of a value (R110). -/
  | sfill (t : Nat)
  /-- Stall until an arrival counter reaches a target (R113). -/
  | waitc (t : Nat)
  /-- A waiting WAITC's counter reaches its target and issue resumes (R198). -/
  | waitcRelease (t : Nat)
  /-- Set an arrival counter (R114). -/
  | acset (t : Nat)
  /-- Read an arrival counter into a scalar register (R113). -/
  | acget (t : Nat)
  /-- Stall until the named units finish their dispatched operations (R113). -/
  | waitu (t : Nat)
  /-- Every named unit has finished and issue resumes (R113). -/
  | waituRelease (t : Nat)
  /-- Memory atomic of the FN and scope given, returning the old value (R115). -/
  | amo (t : Nat)
  /-- Fence holding later memory operations until earlier ones are performed at its scope (R116). -/
  | fence (t : Nat)
  /-- Earlier operations are performed at the fence's scope, copies are published, and held operations issue (R116). -/
  | fenceRelease (t : Nat)
  /-- Submit a hod descriptor from a tile to an engine class (R117). -/
  | hodreq (t : Nat)
  /-- Invalidate all quoin cache entries and set CLEAN (R126). -/
  | qinv (t : Nat)
  /-- Enable or disable the quoin cache (R126). -/
  | qen (t : Nat)
  /-- Prefetch consecutive lines into the quoin cache (R127). -/
  | qpf (t : Nat)
  /-- A demand or prefetch fill arrives and enters the quoin cache (R125). -/
  | quoinFill (t k : Nat)
  /-- Corbel fused multiply-add (R88). -/
  | cfma (t : Nat)
  /-- Corbel FP32 addition (R88). -/
  | cadd (t : Nat)
  /-- Corbel FP32 subtraction (R88). -/
  | csub (t : Nat)
  /-- Corbel FP32 multiplication (R88). -/
  | cmul (t : Nat)
  /-- Corbel maximum (R88). -/
  | cmax (t : Nat)
  /-- Corbel minimum (R88). -/
  | cmin (t : Nat)
  /-- Corbel 4-way BF16 dot with addend (R88). -/
  | cdotBf16 (t : Nat)
  /-- Corbel 8-way FP8 dot with addend (R88). -/
  | cdotFp8 (t : Nat)
  /-- Corbel 64-bit copy (R88). -/
  | cmov (t : Nat)
  /-- Corbel format conversion (R88). -/
  | ccvt (t : Nat)
  /-- Corbel MX quantisation of two 32-lane groups (R96). -/
  | cqmx (t : Nat)
  /-- Corbel special function EXP2, RCP, RSQ, TANH or LOG2 (R92). -/
  | csfu (t : Nat)
  /-- Corbel exp2 of s minus an SX slot's M (R88). -/
  | csfuExpm (t : Nat)
  /-- Convert and pack lanes into the broadcast push queue (R95). -/
  | cpushb (t : Nat)
  /-- Cross-lane maximum or sum into a broadcast register (R91). -/
  | cred (t : Nat)
  /-- Set a broadcast register from a scalar register (R119). -/
  | cbset (t : Nat)
  /-- Read a broadcast register into a scalar register (R119). -/
  | cbget (t : Nat)
  /-- Initialise a softmax state slot (R94). -/
  | csinit (t : Nat)
  /-- Update a slot's running maximum and correction (R94). -/
  | csmax (t : Nat)
  /-- Update a slot's running sum (R94). -/
  | cssum (t : Nat)
  /-- Set a slot's C to the reciprocal of L (R94). -/
  | csfin (t : Nat)
  /-- Store every lane's value to scratch or the die store (R90). -/
  | cst (t : Nat)
  /-- Store CQMX element codes and scale bytes (R96). -/
  | cstMx (t : Nat)
  /-- A write packet's last byte lands in scratch and its bytes count on the named arrival counter (R181). -/
  | arrivalCount (w : Arrival)
  /-- Patrol scrub reads plinth regions in idle bank cycles; an uncorrectable error clears SCP_PLINTH.VALID (R180). -/
  | plinthScrub (t : Nat)
  /-- Every member reports its weight block staged and the WLOAD completes (R67). -/
  | wloadComplete (t : Nat)
  /-- Staged weights are copied into the freed weight buffer (R71). -/
  | weightCopy (t : Nat)
  /-- The first row of a stream enters the arch once all entry conditions hold (R71). -/
  | streamStart (t : Nat)
  /-- A stall condition raised S cycles earlier freezes every member of the arch on the same arch cycle (R72). -/
  | archFreeze (t : Nat) (raised : List (Nat × StallCond))
  /-- An empty skid buffer at a due item freezes the arch, discards partial state and restarts from the lowest incomplete row (R78). -/
  | archRewind (t : Nat)
  /-- A finished output row reaches a drain and is accumulated, stored or converted and written (R140). -/
  | drainRow (t col : Nat)
  /-- The riddle starts the next queued sort job in dispatch order (R162). -/
  | riddleJobStart (d : Nat)
  /-- After the last token the riddle pads buckets, writes the count table and counts it (R161). -/
  | riddleJobFinish (d : Nat)
  /-- MTC command writing back every dirty line of the slice (R218). -/
  | writebackAll (d n : Nat)
  /-- MTC command writing back dirty lines of a 1 GiB range (R218). -/
  | writebackRange (d n : Nat)
  /-- MTC command writing back and invalidating a 1 GiB range (R218). -/
  | evictRange (d n : Nat)
  /-- MTC command dropping LOST lines of a range (R218). -/
  | discardLostRange (d n : Nat)
  /-- A slice command completes, sets CMD_DONE and clears BUSY (R218). -/
  | mtcCmdDone (d : Nat)
  /-- A write-combining entry leaves the buffer when full, idle 2 µs or forced (R227). -/
  | wcDrain (line : Nat)
  /-- A controller's patrol engine reads and corrects granules at BACKGROUND class (R231). -/
  | patrolScrub (ctl : Nat) (run : ScrubRun)
  /-- Memory-side adder ADD of an operand to one element (R235). -/
  | memAdd (d ty : Nat)
  /-- Memory-side adder SUM over the die's elements of a range (R235). -/
  | memSum (d ty : Nat)
  /-- An adder command completes, clears BUSY and sets ADD_DONE (R237). -/
  | addDone (d : Nat)
  /-- Invalidation of every translation entry in every unit (R250). -/
  | xltInvAll
  /-- Invalidation of every entry of one context (R250). -/
  | xltInvContext (c : Nat)
  /-- Invalidation of one context's leaves over a range and its level-4 pointers (R250). -/
  | xltInvContextRange (c : Nat)
  /-- An invalidation completes, clears BUSY and sets INV_DONE (R250). -/
  | invDone
  /-- A hod starts a COPY transfer body (R306). -/
  | hodCopy (h : Nat)
  /-- A hod starts a FILL of its destination (R304). -/
  | hodFill (h : Nat)
  /-- A hod fence descriptor holds later descriptors until earlier writes are performed (R309). -/
  | hodFence (h : Nat)
  /-- Earlier writes are performed at SYSTEM scope and the fence releases (R196). -/
  | hodFenceRelease (h : Nat)
  /-- Device writes are performed and the destination read completes; the check output is written (R307). -/
  | hodTransferComplete (h k : Nat)
  /-- Inbound PCIe memory read through BAR2 at SYSTEM scope (R300). -/
  | inboundRead (src : InReq) (len : Nat)
  /-- Inbound PCIe memory write through BAR2 (R300). -/
  | inboundWrite (src : InReq) (data : List (BitVec 8)) (attr : TlpAttr)
  /-- An inbound AtomicOp request completes with Unsupported Request (R300). -/
  | inboundAtomicop (off : Nat)
  /-- A core access to the outbound window goes to the bus (R301). -/
  | outboundAccess (who : OutCore) (pa size : Nat) (st : Option (BitVec 64))
  /-- Function Level Reset of a VF disables its admin queue and drains its work queues (R295). -/
  | flrVf (n : Nat)
  /-- Function Level Reset of the PF, applied also to every VF (R295). -/
  | flrPf
  /-- PERST_N asserted for 1 µs starts a module reset or declares host loss (R446). -/
  | perstAssert
  /-- PERST_N held 1 s under RETAIN starts a module reset (R314). -/
  | perstLongHold
  /-- The PCIe link leaves DL_Active (R312). -/
  | linkLeavesDlActive
  /-- The link stays down 20 ms after READY and host loss is declared under the configured mode (R312). -/
  | hostLoss
  /-- Under RETAIN nothing runs any more; slices write back, memory enters self-refresh and STATE becomes RETAINED (R314). -/
  | quiesceComplete
  /-- The link returns and the module resumes memory, domains and cores (R315). -/
  | reattach
  /-- The accelerator accepts work again and STATE becomes ATTACHED (R315). -/
  | resumeComplete
  /-- CHK_CFG.LOAD sets VALUE to INIT (R316). -/
  | chkLoad (u : Nat) (v : BitVec 64)
  /-- Feed one byte to a standalone check unit (R317). -/
  | chkData8 (u : Nat) (v : BitVec 8)
  /-- Feed two bytes to a standalone check unit (R317). -/
  | chkData16 (u : Nat) (v : BitVec 16)
  /-- Feed four bytes to a standalone check unit (R317). -/
  | chkData32 (u : Nat) (v : BitVec 32)
  /-- A write to CHK_VALUE replaces the running value (R316). -/
  | chkValueWrite (u : Nat) (v : BitVec 64)
  /-- A non-temporal buffer entry drains as one PACKAGE-scope write (R329). -/
  | ntEntryDrain (core k : Nat)
  /-- CFG_RESET.CORE requests a core-complex reset (R419). -/
  | cfgResetCore
  /-- The core firmware watchdog expires and starts a core-complex reset (R332). -/
  | coreWatchdog (core : Nat)
  /-- A receiver finds a flit failing CRC, discards it and later flits and sends a NAK (R339). -/
  | flitCrcFail (l : Nat) (flit : Flit)
  /-- A NAK reaches the transmitter, which resends from the failed flit (R339). -/
  | nak (l : Nat) (ba : Bool)
  /-- An acknowledgement frees replay buffer entries (R338). -/
  | ack (l : Nat) (ba : Bool) (n : Nat)
  /-- A replay window ends and its count restarts at zero (R340). -/
  | replayWindowEnd (l : Nat) (ba : Bool)
  /-- A triplicated sideband symbol is received and taken by majority (R337). -/
  | sidebandSymbol (l : Nat) (x y z : BitVec 64)
  /-- Every 10 µs the controller estimates power, corrects duty and attributes energy (R357). -/
  | powerWindow
  /-- A domain changes step: voltage then clock or clock then voltage, freezing affected arches (R349). -/
  | freqStep (dom step : Nat)
  /-- A droop detector doubles a domain's clock period for at least 32 cycles (R359). -/
  | droop (dom cycles : Nat)
  /-- Every 10 µs the die and HBM sensors are read and throttles entered or left (R360). -/
  | thermalSample (readings : List (Nat × Int))
  /-- Every 100 µs a hot die is lowered one step or one duty sixteenth (R361). -/
  | dieThrottleStep (die : Nat)
  /-- A hardware comparator trips, clocks stop, THERMTRIP_N asserts and power is removed (R363). -/
  | thermalTrip (sensor : Nat)
  /-- An enabled AIRFAIL input held low 20 µs stops the package (R364). -/
  | airfailStop (n : Nat)
  /-- A write to PWR_CAP changes the cap from the next window and counts in CFG_EPOCH (R354). -/
  | pwrCapWrite (v : BitVec 64)
  /-- A write to CRS_SHARE applies at the next C1–C3 snapshot close (R37). -/
  | crsShareWrite (v : BitVec 64)
  /-- A write to CRS_SLICE applies at the next C1–C3 snapshot close (R37). -/
  | crsSliceWrite (v : BitVec 64)
  /-- Mailbox command verifying an envelope and writing it to the unused flash copy (R384). -/
  | loadImage (len : Nat)
  /-- Mailbox command programming the next owner bank (R372). -/
  | takeOwnership (len : Nat)
  /-- Mailbox command raising a type's fused minimum SVN (R371). -/
  | raiseSvn (len : Nat)
  /-- Mailbox command returning a fresh nonce and the serial (R383). -/
  | debugChallenge (len : Nat)
  /-- Mailbox command accepting a debug token and clearing the module before unlocking (R383). -/
  | debugUnlock (len : Nat)
  /-- Shusis finishes a mailbox command, writes the result and status and clears BUSY (R384). -/
  | mailboxComplete (flashOk : Bool)
  /-- SPDM request for supported versions (R380). -/
  | getVersion
  /-- SPDM request for capabilities (R380). -/
  | getCapabilities (ver : Nat)
  /-- SPDM algorithm negotiation (R380). -/
  | negotiateAlgorithms (offer : AlgOffer)
  /-- SPDM request for certificate chain digests (R380). -/
  | getDigests
  /-- SPDM request for the RSA certificate chain (R380). -/
  | getCertificate (slot off len : Nat)
  /-- SPDM challenge signed with the alias RSA key (R380). -/
  | challenge (slot : Nat) (nonce : List (BitVec 8))
  /-- SPDM request for measurement blocks, all blocks carrying the SLH-DSA block (R381). -/
  | getMeasurements (op : Nat) (signed : Bool) (nonce : List (BitVec 8))
  /-- SPDM retry for a response not yet ready (R382). -/
  | respondIfReady
  /-- SPDM ECDHE session key exchange (R380). -/
  | keyExchange (slot : Nat) (share : List (BitVec 8))
  /-- SPDM session finish (R380). -/
  | finish (verify : List (BitVec 8))
  /-- SPDM session heartbeat (R380). -/
  | heartbeat
  /-- SPDM session key update (R380). -/
  | keyUpdate
  /-- SPDM session end (R380). -/
  | endSession
  /-- SPDM chunked request transfer (R380). -/
  | chunkSend (handle seq : Nat) (last : Bool) (chunk : List (BitVec 8))
  /-- SPDM chunked response transfer (R380). -/
  | chunkGet (handle seq : Nat)
  /-- SPDM vendor-defined request carrying IDE_KM or TDISP (R380). -/
  | vendorDefinedRequest (req : VendorReq)
  /-- TDISP request locking a VF's TDI and its partition (R396). -/
  | lockInterfaceRequest (vf : Nat)
  /-- TDISP request taking the TDI out of lock and closing the partition (R397). -/
  | stopInterface (vf : Nat)
  /-- An IDE integrity failure takes the TDI out of lock and closes its partition (R397). -/
  | ideIntegrityFail (vf : Nat)
  /-- VIN at or above 46 V for 10 ms enables the package rails (R443). -/
  | railsEnable
  /-- Input under- or overvoltage for 50 µs removes the package rails and latches the cause (R443). -/
  | railsRemove (high : Bool)
  /-- VIN below 36 V for 100 ms turns off the auxiliary rail and clears the trip latch (R442). -/
  | inputPowerRemoved
  /-- Restoration of input power resets everything and runs start-up from phase 0 (R416). -/
  | powerOnReset
  /-- A module reset clears all but fuses and reruns start-up (R416). -/
  | moduleReset
  /-- With power good and PERST_N deasserted the module runs start-up phases 0 to 9 (R402). -/
  | startUp (o : PhaseOutcome)
  /-- SPI_REQ_N rises and a waiting phase 1 reads the flash (R450). -/
  | flashRelease
  /-- CFG_RESET.REBUILD starts the accelerator rebuild reset (R417). -/
  | rebuildReset
  /-- The rebuild reset ends: in-flight items complete with DEVICE_RESET and READY is signalled (R417). -/
  | rebuildComplete
  /-- Every second Shusis computes LIVE and updates CFG_LIVEn under the sequence count (R415). -/
  | liveSnapshot
  /-- A report of an event detected in a course at a reference tick reaches the root collector and opens or coalesces into
  a record (R421, R424). -/
  | errorReport (r : Detected)
  /-- At the second boundary after its course a record sets CLOSED (R425). -/
  | recordClose (n : Nat)
  /-- Software reports consumed log records (R427). -/
  | errLogTailWrite (v : BitVec 64)
  /-- I3C command assigning the dynamic address from the static one (R452). -/
  | setdasa (static dyn : Nat)
  /-- I3C dynamic address assignment (R452). -/
  | entdaa (dyn : Nat)
  /-- BMC private write of a 2-byte management-set index (R452). -/
  | mgmtIndexWrite (data : List (BitVec 8))
  /-- BMC private read of the indexed register's 8 bytes (R452). -/
  | mgmtRead
  /-- PMBus read of input voltage (R453). -/
  | readVin
  /-- PMBus read of input current (R453). -/
  | readIin
  /-- PMBus read of input power (R453). -/
  | readPin
  /-- PMBus read of the input energy accumulator (R453). -/
  | readEin
  /-- PMBus temperature read (R453). -/
  | readTemperature1
  /-- PMBus status word read (R453). -/
  | statusWord
  /-- PMBus read of the status latch (R453). -/
  | statusMfrSpecific
  /-- PMBus serial read (R453). -/
  | mfrSerial
  /-- PMBus command clearing status latch bits 1–4 (R453). -/
  | clearFaults
  /-- Any other PMBus command is refused with a communication fault (R453). -/
  | pmbusUnsupported (cmd : BitVec 8)
  /-- Read of the FRU EEPROM (R453). -/
  | fruRead (off len : Nat)
  /-- JTAG_TRST_N returns the TAP to Test-Logic-Reset (R451). -/
  | jtagTrst
  /-- A write to a register with no row of its own acts under its access codes (R4). -/
  | registerWrite (acc : RegAcc) (v : BitVec 64)
  /-- A read of an RC field returns and clears it without losing a same-cycle event (R5). -/
  | rcRead (acc : RegAcc)
  /-- A Ghenath core load, store, AMO, LR/SC or cache block operation to memory is performed at the line's home slice (R327). -/
  | coreMemoryAccess (acc : CoreAcc)
  /-- A core FENCE with W or O in its predecessor set, FENCE.TSO, AMO or SC with rl, or SFENCE.VMA waits for the store buffer and non-temporal entries to be performed (R330). -/
  | coreFence (core : Nat) (kind : CoreFenceKind)
  /-- A lane or broadcast stream delivers an entry into LS or BQ, releasing a corbel instruction stalled on the empty queue (R85). -/
  | streamEntryArrival (t : Nat) (bcast : Bool)
  /-- A PCI Express completion arrives for a hod, front-end or core outbound read, successful or with UR, CA, poison or IDE failure, or for an abandoned tag (R308). -/
  | busCompletion (id : Nat) (st : BusStatus) (data : List (BitVec 8))
  /-- A non-posted bus request outstanding beyond the completion timeout fails (R293). -/
  | completionTimeout (id : Nat)
  /-- The PCI Express link reaches or returns to DL_Active (R404). -/
  | linkUp
  /-- An enabled AIRFAIL input returns high, ending an airflow stop and starting a module reset or letting a waiting start-up begin (R364). -/
  | airfailRelease (n : Nat)
  /-- A PCI Express configuration read or write reaches the PF or a VF, answered with Request Retry Status or acting on Bus Master Enable, VF Enable, BAR sizes, MSI-X control or power state (R404). -/
  | configRequest (fn : Nat) (req : CfgReq)
  /-- The core-complex reset ends with the cores restarted on verified firmware, ending the state in which further requests are refused (R332). -/
  | coreResetComplete
  /-- The first resent flit of a replay passes its CRC and the receiver resumes taking flits, ending the run of consecutive failed replays (R339). -/
  | replayFlitReceived (l : Nat) (ba : Bool)
  /-- SPI_REQ_N falls while PERST_N is asserted and the J3 SPI group takes the configuration flash from Shusis (R450). -/
  | spiReqAssert
  /-- The tray reads, erases or programs the configuration flash through J3 while J3 owns it (R450). -/
  | spiFlashCommand (cmd : SpiCmd)
  /-- A TCK edge advances the TAP, which serves BYPASS only unless debug unlock opened the JTAG level (R451). -/
  | jtagTck (tms tdi : Bool)
  /-- A tile fetches an instruction whose opcode is reserved and raises ILLEGAL_OP (R107). -/
  | reservedOpcode (t : Nat)
deriving DecidableEq, Repr

end Sys2Proof
end

