-- ==== Sys2Proof/Machine/State.lean ====
section
/-! DEFINITION. Machine/State.lean: the state of the module, all of it plain data, and its value right after reset. -/
namespace Sys2Proof.Machine

/-- Why a step stops with a fault. The specification gives every command an effect, so no meaning raises one. -/
inductive Fault where
  /-- Raised by no command: safe. -/
  | none
deriving DecidableEq, Repr

/-- Why a command is refused. -/
inductive Refusal where
  /-- A command whose meaning is not modelled, by its mnemonic: raised by exec's arm alone, safe. -/
  | notModelled (mnemonic : String)
deriving DecidableEq, Repr

/-- The outcome of a command. -/
abbrev Res (σ : Type) := Host.Outcome σ Fault Refusal

/-! ## Tiles -/

/-- A valid quoin cache entry (R125): line address, its 128 bytes, whether they came with an uncorrectable error, and when
it was last used; and whether the fetch that missed it has still to read it (its miss is counted, R130). -/
structure QLine where
  line : Nat
  data : List Byte
  ue : Bool
  use : Nat
  fresh : Bool
deriving DecidableEq, Repr

/-- A line fill in flight (R125 to R127): its line, whether only a prefetch asked for it, whether it goes to the
single-line fetch buffer, whether QINV has doomed it, whether a fault of it is precise (an instruction or constant
fetch, R121), and the address and word of the QPF that asked for it. -/
structure Fill where
  line : Nat
  pre : Bool
  toBuf : Bool
  doomed : Bool
  prec : Bool
  qpf : Option (Nat × Word)
deriving DecidableEq, Repr

/-- Source of a lane or broadcast stream (R85, R111): scratch at a physical address, or a row feeder descriptor. -/
inductive StrmSrc where
  | scratch (addr : Nat) (stride : Int)
  | feeder (desc : List Byte)
deriving DecidableEq, Repr

/-- A lane or broadcast stream (R85): source, entries per pass, passes left after this one, entries delivered in this
pass, the block index table entries its feeder has read (R149, by number / 32), the dispatch stamp, and its instruction's address and word. -/
structure Strm where
  src : StrmSrc
  count : Nat
  again : Nat
  pos : Nat
  kv : SMap (List Byte)
  stamp : Nat
  pc : Nat
  word : Word
deriving DecidableEq, Repr

/-- A corbel instruction dispatched to the corbel row (R102, R119): its word, the scalars and resolved scratch addresses
captured at dispatch, its address and its dispatch stamp. -/
structure CorbelOp where
  word : Word
  s1 : Word
  a1 : Nat
  a2 : Nat
  pc : Nat
  stamp : Nat
deriving DecidableEq, Repr

/-- A decoded weight element a PE holds (R54, R137): its K position in the member's slice, its element code and its block
scale byte (0x7F, scale 1, for formats without block scales). -/
structure WEl where
  k : Nat
  code : Nat
  scale : Nat
deriving DecidableEq, Repr

/-- A member's block of weights (R67, R68): the WLOAD it came from, its descriptor, and per PE column the elements in
increasing K order. -/
structure WBlock where
  num : Nat
  desc : List Byte
  cols : List (List WEl)
deriving DecidableEq, Repr

/-- A dispatched RSTREAM (R69 to R71) of an arch: its number, row feeder descriptor, rows, the WLOAD it uses, the drain
descriptor in force at its dispatch, its row interval and whether its block is joined (R68), whether the first half of a
joined block and whether all its weights are in a weight buffer and then its members' blocks in handle order, whether its
first row has entered and how many have, rows completed per tile column, rows held in the row feeders (per tile row the
activations as element code and scale byte), table entries its feeders have read (R149, by tile row × 2³² + number / 32),
and its instruction's address and word. -/
structure ArchStream where
  seq : Nat
  desc : List Byte
  rows : Nat
  wnum : Nat
  drain : List Byte
  interval : Nat
  joined : Bool
  first : Bool
  copied : Bool
  blocks : List WBlock
  started : Bool
  issued : Nat
  done : List Nat
  acts : SMap (List (List (Nat × Nat)))
  kv : SMap (List Byte)
  pc : Nat
  word : Word
deriving DecidableEq, Repr

/-- Arch control of an origin tile: the WLOAD in force, whether it is staged (of a joined block, its first half) and whether
the second half is (R68), WLOADs of the block so far, the address and word of the last one, the drain descriptor in force,
the streams not yet complete, streams dispatched, and for each DRAIN that may still hold a credit the streams dispatched
before it (R77). -/
structure ArchCtl where
  wdesc : Option (List Byte)
  staged : Bool
  second : Bool
  wnum : Nat
  wpc : Nat
  wword : Word
  drain : Option (List Byte)
  streams : List ArchStream
  dispatched : Nat
  drains : List Nat
deriving DecidableEq, Repr

/-- Arch control at admission (R70). -/
def ArchCtl.none : ArchCtl := ⟨.none, false, false, 0, 0, 0, .none, [], 0, []⟩

/-- State of one tile beside its registers in the tile window. -/
structure Tile where
  /-- The running block the tile serves (R29). -/
  block : Option Nat
  /-- s1 to s31 (R101); s0 is never listed. -/
  sregs : SMap Word
  /-- Program counter (R101), of 48 bits. -/
  pc : Nat
  /-- Text and constant ranges of the tile program (R124): base and length. -/
  text : Nat × Nat
  const : Nat × Nat
  /-- The program record that runs the handle has CONTINUING set (R105). -/
  cont : Bool
  /-- Offset in own scratch of the text area (R129, R266): text in its first bank, constants in its second. -/
  textArea : Nat
  /-- Counter and target of a WAITC that stalls the sequencer (R113). -/
  waitC : Option (Nat × Nat)
  /-- Unit mask of a WAITU that stalls the sequencer (R113). -/
  waitU : Option Nat
  /-- Scope and dispatch stamp of the fences not yet released, oldest first (R116). -/
  fence : List (Nat × Nat)
  /-- Quoin cache entries 0 to 47 that are valid (R125). -/
  quoin : SMap QLine
  /-- Fills in flight, oldest first. -/
  fills : List Fill
  /-- The single-line fetch buffer used while the quoin cache is disabled (R126). -/
  fetchBuf : Option QLine
  /-- Recency clock of the quoin cache and dispatch stamp clock. -/
  clock : Nat
  /-- Bytes written to the operand buffers, by offset (R167), and per 8 KiB buffer (0, 1, staging) the seed of its open
  contents after a load, none while it holds zeros. -/
  opbuf : SMap Byte
  opseed : SMap Nat
  /-- Lane registers (64 r + lane), b0 to b7 (2048 + n), SX slots (2056 + 3 n + field) that have been written, and the
  seed of the others' open contents (R83). -/
  corbel : SMap Word
  corbelSeed : Option Nat
  /-- LS, BQ and BP (R83), head first, and entries of a CPUSHB that still wait for room in BP (R95). -/
  ls : List (List Word)
  bq : List Word
  bp : List Word
  bpWait : List Word
  /-- Lane and broadcast streams, the active one first (R85). -/
  lane : List Strm
  bcast : List Strm
  /-- Dispatched corbel instructions not yet issued by the corbel row (R102). -/
  corbelQ : List CorbelOp
  /-- Arch control, when the tile is an origin. -/
  arch : ArchCtl
  /-- Weights in the staging buffer and the two weight buffers (R67, R71). -/
  staging : Option WBlock
  wbuf0 : Option WBlock
  wbuf1 : Option WBlock
deriving DecidableEq, Repr

/-- A tile after reset: nothing running, every register zero, every queue empty. -/
def Tile.reset : Tile :=
  { block := none, sregs := [], pc := 0, text := (0, 0), const := (0, 0), cont := false, textArea := 0, waitC := none, waitU := none,
    fence := [], quoin := [], fills := [], fetchBuf := none, clock := 0, opbuf := [], opseed := [], corbel := [],
    corbelSeed := none, ls := [], bq := [], bp := [], bpWait := [], lane := [], bcast := [], corbelQ := [],
    arch := .none, staging := none, wbuf0 := none, wbuf1 := none }

/-! ## Packets, blocks, riddles -/

/-- The unit a write comes from (for WAITU, R113, and the fences, R116): a unit of a tile (`scalar`: a ST to a virtual
address; the drain of a tile, for the tile that dispatched its stream), a job of a hod, or an inbound write of a
function. -/
inductive PUnit where
  | move | corbel | riddle | scalar
  | drain (k : Nat)
  | hod (h job : Nat)
  | inbound (fn : Nat)
deriving DecidableEq, Repr

/-- Who makes an access to external memory, as the home slices tell agents apart: the die whose copies it sees (none for
hods, the front end, inbound requests and cores) and its owner tag (R208, R214, R386). -/
structure Agent where
  die : Option Nat
  tag : Nat
deriving DecidableEq, Repr

/-- A write of up to 256 B on its way (R181, R187): its number, the tile that dispatched it and its dispatch stamp, unit,
agent, context it was translated in (none: not translated), whether it is to external memory (physical) or scratch, whether
fences wait for it, Relaxed Ordering (R201), destination, bytes, the 8 B units performed already (by address / 8), the dies
that see it before it is performed at PACKAGE scope (R188, R193), and the counter it counts on. -/
structure Packet where
  pid : Nat
  tile : Nat
  stamp : Nat
  unit : PUnit
  agent : Agent
  ctx : Option Nat
  toMem : Bool
  fenced : Bool
  ro : Bool
  dst : Nat
  data : List Byte
  done : List Nat
  seen : List Nat
  ctr : Option (Nat × Nat)
deriving DecidableEq, Repr

/-- A block that runs (R29, R261): its queue and item, index within the item, class, owner, context, tiles in handle
order, arch shape, die-store banks, resident set in use and whether writable, boundary of its admission, the failure
recorded first (status, detail, handle), the tick it was recorded in and the tiles that raised an exception (R120), whether
an uncorrectable error or substitution occurred, the alternative placed and the phase signature (R355). -/
structure Block where
  id : Nat
  queue : Nat
  seq : Nat
  idx : Nat
  cls : Nat
  part : Nat
  ctx : Nat
  args : Nat
  tiles : List Nat
  arch : Option (Nat × Nat)
  banks : List Nat
  set : Option Nat
  writable : Bool
  start : Nat
  fail : Option (Nat × Nat × Nat)
  failTick : Nat
  raised : List Nat
  memUe : Bool
  alt : Nat
  sig : Nat
deriving DecidableEq, Repr

/-- A riddle job (R154 to R162): dispatching tile, stamp, address and word of its instruction, descriptors, expert entries, tokens,
whether it has started, and then the counts per expert, drops and whether its padding is sent. -/
structure RJob where
  tile : Nat
  stamp : Nat
  pc : Nat
  word : Word
  feeder : List Byte
  job : List Byte
  experts : List (List Byte)
  tokens : Nat
  counts : List Nat
  drops : Nat
  started : Bool
  padded : Bool
deriving DecidableEq, Repr

/-! ## External memory -/

/-- A region of external memory whose unlisted bytes are open: a 1 GiB range re-keyed (R394), or every line homed on a die,
whose keys changed. -/
inductive Region where
  | range (n : Nat)
  | die (d : Nat)
deriving DecidableEq, Repr

/-- A die-local copy (R213): die, line, partition slot of its share, the bytes modified in it by offset, and whether it is
LOST (R216). -/
structure LCopy where
  die : Nat
  line : Nat
  part : Nat
  bytes : SMap Byte
  gone : Bool
deriving DecidableEq, Repr

/-- A line in its home slice (R204): its way, the 32 B sectors it holds and those of them that are dirty, as 4-bit masks,
and, while it is dirty, the contents memory still has. -/
structure MLine where
  way : Nat
  valid : Nat
  dirty : Nat
  below : List Byte
deriving DecidableEq, Repr

/-- The directory entry of a line (R206): the G-dies whose caches may hold part of it, as a 2-bit mask, the G-die that
holds it modified, and in that case the contents its home still has. -/
structure GLine where
  holders : Nat
  owner : Option Nat
  below : List Byte
deriving DecidableEq, Repr

/-- A cached translation (R248): unit, context, level of the pointer or leaf, the virtual page it serves, the PTE and a
leaf's way. -/
structure XEntry where
  unit : Nat
  ctx : Nat
  level : Nat
  vpn : Nat
  pte : Word
  way : Nat
deriving DecidableEq, Repr

/-! ## Items and queues -/

/-- Where a fetched item stands (R274 to R287): fetched and unchecked, checked and waiting or running, or finished with
status, detail and block, its record not yet produced. -/
inductive ItemStage where
  | fetched
  | waiting
  | active
  | finished (status detail block : Nat)
deriving DecidableEq, Repr

/-- Tiles and die-store banks kept for an item's next block (R265): tiles in handle order, banks by logical number, arch
shape. -/
structure Kept where
  tiles : List Nat
  banks : List Nat
  arch : Option (Nat × Nat)
deriving DecidableEq, Repr

/-- A fetched item not completed (R270): queue, SEQ, descriptor, stage, the room its image takes in its class's share of the
image store (R256), checked image copy (R255), next block to be admitted,
blocks completed so far, first failed block (status, detail, index), whether work began, continuations by handle (R105),
kept tiles, admin result, time of its check, order of finishing, and the course it counts from under R33. -/
structure Item where
  queue : Nat
  seq : Nat
  desc : List Byte
  stage : ItemStage
  room : Nat
  image : List Byte
  next : Nat
  ended : Nat
  failed : Option (Nat × Nat × Nat)
  begun : Bool
  conts : SMap (Nat × List Word)
  kept : Option Kept
  result : Nat
  checked : Nat
  finish : Nat
  start : Nat
deriving DecidableEq, Repr

/-- A completion record that a CPL_BLOCKED queue holds (R285): record number and its bytes. -/
structure HeldRec where
  num : Nat
  bytes : List Byte
  irq : Bool
deriving DecidableEq, Repr

/-- A queue's destroy in progress (R286): the admin queue and SEQ of the command, items cancelled and records
discarded so far; no admin queue where a function level reset drains it (R295). -/
structure Destroy where
  admin : Option Nat
  seq : Nat
  cancelled : Nat
  discarded : Nat
deriving DecidableEq, Repr

/-- A queue beside its registers (R272 to R288): tail, refetches of a mismatched slot, a timeout awaiting the end of the
rebuild reset, held records, deficit allowance in course pool time, a destroy in progress, and an outstanding bus read
of its ring or a record's zero-length read; the timeout in force (R288), the record whose zero-length read is outstanding, with
its tag (R282), the engines that owe a retire token (R286), and the room in the image store that the RUN at its head waits
for, 0 when none does (R256). -/
structure Queue where
  tail : Nat
  refetch : Option Nat
  timedOut : Bool
  held : List HeldRec
  resuming : Bool
  allowance : Rat
  destroy : Option Destroy
  fetchTag : Option Nat
  timeout : Nat
  writing : Option (HeldRec × Nat)
  tokens : List Engine
  room : Nat
deriving DecidableEq, Repr

/-- A queue right after reset. -/
def Queue.reset : Queue := ⟨0, none, false, [], false, 0, none, none, 0, none, [], 0⟩

/-- A resident set (R177, R267): identifier, partition, members in order, banks, whether it is a C0 group's, and of a
move in progress its new tiles, its command, whether its block is admitted and has copied, and the new tiles whose
region was copied from a valid one (R269). -/
structure RSet where
  id : Nat
  part : Nat
  members : List Nat
  banks : Nat
  c0 : Bool
  moving : Option (List Nat)
  moveAdmin : Option (Nat × Nat)
  planned : Bool
  copied : Bool
  good : List Nat
deriving DecidableEq, Repr

/-- A 1 GiB range that passes to another owner or slot (R390, R391): its number, new owner, slot and SHARE, the admin command
that waits for it (none: its partition is closing), and the C-dies whose EVICT_RANGE has still to start, and to complete. -/
structure RangePass where
  range : Nat
  owner : Nat
  slot : Nat
  share : Nat
  admin : Option (Nat × Nat)
  todo : List Nat
  running : List Nat
deriving DecidableEq, Repr

/-- A planned admission (R263): queue and SEQ of the item, block index, alternative, tiles in handle order, banks by
logical number. -/
structure Planned where
  queue : Nat
  seq : Nat
  idx : Nat
  alt : Nat
  tiles : List Nat
  banks : List Nat
deriving DecidableEq, Repr

/-! ## Grout -/

/-- A log record with its tile maps (R423, R426); `maps` holds one 200-bit map per C-die. -/
structure LogRec where
  code : Nat
  sev : Nat
  flags : Nat
  cause : Nat
  source : Nat
  course : Nat
  time : Nat
  addr : Nat
  count : Nat
  dies : Nat
  part : Nat
  queue : Nat
  detail : Nat
  seq : Nat
  maps : List Nat
deriving DecidableEq, Repr

/-! ## Parts and outputs -/

/-- The three parts of the series (R1, R440). -/
inductive Part where
  | cz9768 | cz9576 | cz5384
deriving DecidableEq, Repr

/-! ## Hods and the bus -/

/-- Who submitted a hod descriptor (R303): a COPY item of a queue, or a tile's HODREQ with its counter, dispatch stamp
and block. -/
inductive HodSrc where
  | item (queue seq : Nat)
  | tile (t ctr stamp blk : Nat)
deriving DecidableEq, Repr

/-- A hod descriptor waiting or running (R303 to R309): submitter, the 64 B body, context, requester function, owner,
resolved scratch source and destination, whether it has started, the check profile sampled then (R318: W, POLY, REFIN,
REFOUT, INVERT, starting value), bus reads not yet issued as offset and length, bytes read by offset, outstanding reads,
the zero-length reads of R307 or R196 it owes (function, address) and those outstanding, failures: hod detail code, translation fault with its
address, uncorrectable data; address and word of its HODREQ. -/
structure HodJob where
  id : Nat
  src : HodSrc
  body : List Byte
  ctx : Nat
  fn : Nat
  part : Nat
  ssrc : Nat
  sdst : Nat
  active : Bool
  prof : List Nat
  todo : List (Nat × Nat)
  data : SMap (List Byte)
  reads : List Nat
  flushes : List Nat
  flush : List (Nat × Nat)
  fail : Option Nat
  xfail : Option (Nat × Nat)
  ue : Bool
  pc : Nat
  word : Word
deriving DecidableEq, Repr

/-- Whose outstanding non-posted bus request it is (R293, R302). -/
inductive BusOwner where
  | hodRead (h job off : Nat)
  | hodFlush (h job : Nat)
  | ring (q : Nat)
  | record (q : Nat)
  | core (n : Nat)
  | abandoned
deriving DecidableEq, Repr

/-- An outstanding non-posted bus request: owner, requester function, bus address and length. -/
structure BusReq where
  owner : BusOwner
  fn : Nat
  addr : Nat
  len : Nat
deriving DecidableEq, Repr

/-- Configuration state of a PCI Express function (R293): Bus Master Enable, D3hot, MSI-X Enable and Function Mask, VF
Enable (PF), log₂ of the BAR2 size (PF), Max Payload and Max Read Request sizes (PF, for every function), Completion Timeout
Value, ECRC generation and checking. -/
structure PFn where
  bme : Bool
  d3 : Bool
  msixEn : Bool
  msixMask : Bool
  vfEn : Bool
  bar2 : Nat
  mps : Nat
  mrrs : Nat
  cto : Nat
  ecrcGen : Bool
  ecrcCheck : Bool
deriving DecidableEq, Repr

/-- A function right after reset: nothing enabled, BAR2 of 2 TiB (R299), sizes at PCI Express's own reset values. -/
def PFn.reset : PFn := ⟨false, false, false, false, false, 41, 128, 512, 0, false, false⟩

/-- The errors the rules have the PF report through Advanced Error Reporting (R300, R417). -/
inductive AerError where
  | poisonedWrite | unexpectedCompletion
deriving DecidableEq, Repr

/-- Kind of a core's access fault (R331). -/
inductive AccFault where
  | load | fetch | storeAmo
deriving DecidableEq, Repr

/-- What the module sends out. -/
inductive Out where
  /-- An MSI-X message of a function's vector (R429). -/
  | msix (fn vec : Nat) (addr data : Word)
  /-- A non-posted read put on the bus with its tag, Relaxed Ordering and ID-Based Ordering clear, in its function's IDE
  stream if it has one (R294, R301, R306, R307). -/
  | busRead (tag fn : Nat) (ide : Option Nat) (addr len : Nat)
  /-- A posted write put on the bus; `ro` is its Relaxed Ordering attribute (R200, R282). -/
  | busWrite (fn : Nat) (ide : Option Nat) (addr : Nat) (data : List Byte) (ro : Bool)
  /-- A completion of an inbound request: 0 success, 1 Unsupported Request, 2 Completer Abort, 3 Request Retry Status. -/
  | reply (fn status : Nat) (data : List Byte)
  /-- Data or result a core receives. -/
  | core (n : Nat) (data : List Byte)
  /-- An SPDM response, by its response code (R380). -/
  | spdm (code : Nat) (data : List Byte)
  /-- The mandatory byte of an in-band interrupt on the I3C pair (R452). -/
  | ibi (b : Nat)
  /-- What the management bus targets answer: a private read or an EEPROM read; a PMBus read, by command; an address or a
  command refused (R452, R453). -/
  | i3c (data : List Byte)
  | pmbus (cmd : Nat) (data : List Byte)
  | nack
  /-- TDO (R451); bytes the flash gives the tray (R450). -/
  | tdo (b : Bool)
  | spi (data : List Byte)
  /-- An access fault a core takes (R325, R331, R393): its kind, the mode that takes it and the faulting virtual address of
  xtval; an illegal-instruction exception (R321). -/
  | coreFault (n : Nat) (kind : AccFault) (taker : Priv) (va : Nat)
  | coreIllegal (n : Nat)
  /-- An error reported through Advanced Error Reporting (R300, R417). -/
  | aer (e : AerError)
deriving DecidableEq, Repr

/-- An entry of a core's non-temporal buffer (R328): its 64 B block, the owner tag of its stores and its valid bytes by
offset. -/
structure NtEntry where
  block : Nat
  tag : Nat
  bytes : SMap Byte
deriving DecidableEq, Repr

/-- A retired store that waits in a core's store buffer (R331), within an aligned 8 B unit: owner tag, whether its page is
cacheable, physical address and bytes. -/
structure SbEntry where
  tag : Nat
  cached : Bool
  pa : Nat
  data : List Byte
deriving DecidableEq, Repr

/-- What the rules give a Ghenath core beyond its own instruction set (R323, R327 to R331): its store buffer and
non-temporal entries, oldest first, the block LR reserved, the 64 B blocks its L2 holds, and the accesses a FENCE holds that
still waits for an outbound read. -/
structure Core where
  sb : List SbEntry
  nt : List NtEntry
  resv : Option Nat
  l2 : List Nat
  hold : Option FenceSet
deriving DecidableEq, Repr

def Core.reset : Core := ⟨[], [], none, [], none⟩

/-- One direction of a lintel (R336 to R341): flits its transmitter has sent since the last training or replay, and those
of them the receiver is known to have taken; the numbers of the sent flits that the replay buffer keeps, oldest first; the
number the receiver's NAK names while it discards, whether the transmitter has resent and that flit is on its way, and
consecutive failed replays. -/
structure LDir where
  sent : Nat
  taken : Nat
  kept : List Nat
  nak : Option Nat
  resent : Bool
  failed : Nat
deriving DecidableEq, Repr

def LDir.reset : LDir := ⟨0, 0, [], none, false, 0⟩

/-- What the configuration record gives a C0 group beside CRS_C0_GROUPn (R408). -/
structure C0Info where
  owner : Nat
  banks : Nat
  setId : Nat
deriving DecidableEq, Repr

/-- The buttress controller beside its registers: the energy estimated in this course in µJ and consecutive failed PMBus
reads (R351), duty of each tile in sixteenths (R357), the windows in succession whose input was above the cap, whether CAP_UNMET (R358) and which units' throttling (R361, R362)
were reported in this course, the steps planned for the coming boundary, and those not yet taken since the last one (R349,
R356). -/
structure Power where
  est : Nat
  fails : Nat
  duty : SMap Nat
  above : Nat
  unmet : Bool
  hot : List Nat
  plan : SMap Nat
  left : SMap Nat
deriving DecidableEq, Repr

/-- The controller right after reset. -/
def Power.reset : Power := ⟨0, 0, [], 0, false, [], [], []⟩

/-- The board around the package (R442 to R453): the auxiliary rail, VIN in its operating range, the package rails, PERST_N and SPI_REQ_N
asserted, the airflow inputs held low, the level of the slot pins, and the slot number sampled from them; the status latch: thermal trip, airflow stops, rails removed for
under- and overvoltage; the flash, whose unlisted bytes read 0xFF; the I3C target's dynamic address and index written;
the TAP controller's state, numbered from Test-Logic-Reset, and its bypass bit. -/
structure Board where
  aux : Bool
  vin : Bool
  rails : Bool
  perst : Bool
  spiReq : Bool
  low0 : Bool
  low1 : Bool
  pins : Nat
  slot : Nat
  trip : Bool
  air0 : Bool
  air1 : Bool
  uv : Bool
  ov : Bool
  flash : SMap Byte
  dyn : Option Nat
  index : Nat
  tap : Nat
  bypass : Bool
deriving DecidableEq, Repr

/-- The package is powered and its clocks run. -/
def Board.alive (b : Board) : Bool := b.rails

/-- The board at a power-on reset: rails on, every input inactive, the pins of slot 0, the flash erased (log entries 9 and 10). -/
def Board.reset : Board :=
  { aux := true, vin := true, rails := true, perst := false, spiReq := false, low0 := false, low1 := false, pins := 0, slot := 0, trip := false,
    air0 := false, air1 := false, uv := false, ov := false, flash := [], dyn := none, index := 0, tap := 0,
    bypass := false }

/-- An SPDM connection (R380 to R382): how far it is set up (0 not, 1 version, 2 capabilities, 3 algorithms), the
algorithms selected, the session (1 in its handshake, 2 established), key updates made, a response being prepared with
the tick its request came at, a response delivered in chunks by handle with its code, the chunks of a large request
received so far, and the next handle. -/
structure Spdm where
  stage : Nat
  algs : Option AlgOffer
  session : Nat
  updates : Nat
  busy : Option (Nat × List Byte × Nat)
  large : Option (Nat × Nat × List Byte)
  chunk : Option (Nat × Nat × List Byte)
  handle : Nat
deriving DecidableEq, Repr

def Spdm.reset : Spdm := ⟨0, none, 0, 0, none, none, none, 0⟩

/-- Shusis beside its registers (R368 to R384): the owner banks programmed, the vendor keys revoked, the bank in force
since the last reset, the headers of the images in use by type, the configuration record in use (none: the default),
the mailbox buffer, the mailbox command that runs with its argument length, the challenge nonce that is valid; SPDM requests
that wait for the mailbox; who holds each key slot; the selective IDE streams in the secure state with their functions. -/
structure Trust where
  banks : List (List Byte)
  revoked : List Nat
  bank : Option Nat
  images : SMap (List Byte)
  record : Option (List Byte)
  mbox : SMap Byte
  cmd : Option (Nat × Nat)
  nonce : Option (List Byte)
  spdm : Spdm
  waiting : List Instr
  slots : SMap Nat
  ide : SMap Nat
deriving DecidableEq, Repr

/-- Shusis of a module that leaves Ifeldash: no owner, no key revoked (R371, log entry 6). -/
def Trust.reset : Trust := ⟨[], [], none, [], none, [], none, none, .reset, [], [], []⟩

/-! ## The machine -/

/-- The state of the module. -/
structure State where
  /-- Memory-mapped registers by physical address; an unlisted one holds its reset value. -/
  regs : SMap Word
  /-- Bytes of external memory that have been written (R220); an unlisted byte reads 0 (R233) or, in a region of
  `scrambles`, an open value. -/
  mem : SMap Byte
  scrambles : List (Region × Nat)
  /-- The mortar slices (R204): the lines they hold, by address, and per set (C-die × 32,768 + set) the pseudo-LRU bits;
  LOST lines (R216); die-local copies (R213). -/
  lines : SMap MLine
  plru : SMap Nat
  lost : List Nat
  copies : List LCopy
  /-- Bytes left undefined by ill-scoped accesses (R191), with the seed of their open value. -/
  ill : SMap Nat
  /-- The directory (R206), by line address; the 64 B blocks the L3 caches hold, as (G-die, block) (R323). -/
  gdir : SMap GLine
  l3 : List (Nat × Nat)
  /-- Lines in the write-combining buffers with their valid bytes as 128-bit masks, oldest first (R227). -/
  wc : List (Nat × Nat)
  /-- Latent errors: uncorrectable and correctable 8 B units of external memory, units whose error the stack's on-die ECC
  corrects, units of scratch, mortar lines, copies (die, line), slices, and blocks of core caches (G-die, block)
  (R174, R216, R228, R229, R323). -/
  memUe : List Nat
  memCe : List Nat
  memOde : List Nat
  scrUe : List Nat
  scrCe : List Nat
  lineUe : List Nat
  lineCe : List Nat
  copyUe : List (Nat × Nat)
  tagUe : List Nat
  cacheUe : List (Nat × Nat)
  cacheCe : List (Nat × Nat)
  /-- Bytes of tile scratch and die stores by physical scratch address (R166); an unlisted byte is 0. -/
  scr : SMap Byte
  /-- The partition whose block last held a tile or a die-store bank since the last reset (R176). -/
  tileHolder : SMap Nat
  bankHolder : SMap Nat
  /-- Tiles by package tile number. -/
  tiles : SMap Tile
  /-- Write packets on their way, oldest first (R181). -/
  packets : List Packet
  nextPid : Nat
  blocks : List Block
  nextBlock : Nat
  riddles : SMap (List RJob)
  xlt : List XEntry
  /-- Pseudo-LRU bits of the leaf caches (unit × 128 + set, R248); the writes an invalidation waits for (R250). -/
  xplru : SMap Nat
  invWait : List Nat
  items : List Item
  finishCtr : Nat
  queues : SMap Queue
  sets : List RSet
  plan : List Planned
  grout : SMap LogRec
  lostKeys : List (Nat × Nat)
  hods : SMap (List HodJob)
  nextJob : Nat
  /-- Per hod, the bus destinations written since its last fence whose own read has not completed (R196): job, function,
  address. -/
  hodDsts : SMap (List (Nat × Nat × Nat))
  /-- Outstanding non-posted requests by tag (R302); the queue served last on each fetch credit (R276). -/
  bus : SMap BusReq
  fetchLast : SMap Nat
  fns : SMap PFn
  msixAddr : SMap Word
  msixData : SMap Word
  msixPend : List Nat
  outs : List Out
  part : Part
  /-- Owner of each tile (R389, R409): 8, the operator, unless listed; tiles marked faulty (R262). -/
  tileOwner : SMap Nat
  faulty : List Nat
  /-- OWNER, PLINTH_BANKS and SET_ID of the C0 groups, from the configuration record (R408). -/
  c0info : SMap C0Info
  /-- The course timer runs (R20), its first boundary has passed, and the closes of the coming boundary have been made. -/
  timer : Bool
  started : Bool
  closed13 : Bool
  closed0 : Bool
  /-- Per class, the queue that last admitted a block in its pass (R28); SCHED_SLIP raised and not yet armed again (R32);
  the debt (R30), which CRS_DEBT shows saturated. -/
  drr : SMap Nat
  slip : Bool
  debt : Nat
  /-- Tile quadrants, as domains 0 to 15 (R346): courses each has been idle, those powered off, those powering up. -/
  idle : SMap Nat
  quadOff : List Nat
  quadWake : List Nat
  /-- Partitions that close once their queues have drained (R397). -/
  closePend : List Nat
  /-- The phase table (R355), most recent first: signature, power per tile in mW, issue fraction in 1/255. -/
  phases : List (Nat × Nat × Nat)
  /-- The buttress controller beside its registers; gated and ungated multiplications of each tile (R56). -/
  pw : Power
  mults : SMap (Nat × Nat)
  board : Board
  trust : Trust
  /-- Ghenath cores (R328); a core-complex reset runs (R332); the complex is powered down under RETAIN (R314). -/
  cores : SMap Core
  /-- Bytes of the machine-mode memories written since their firmware was loaded (R321): 4 MiB of G-die 0, then 4 MiB of
  G-die 1; the seed of the others. -/
  mmem : SMap Byte
  mmSeed : Nat
  coreReset : Bool
  coreDown : Bool
  /-- Directions of the lintels, 2 n for AB and 2 n + 1 for BA. -/
  ldirs : SMap LDir
  /-- The sideband symbol last received on each lintel, by majority (R337). -/
  sideband : SMap Word
  /-- Ranges that are passing to another owner or slot (R390, R391), in the order they began. -/
  passes : List RangePass
  /-- Patrol scrub (R231): passes completed, tick of the present pass's start and the address it has reached, per
  controller; C3 is wholly withheld in this course. -/
  scrubPasses : SMap Nat
  scrubStart : SMap Nat
  scrubPos : SMap Nat
  c3Held : Bool
  /-- Host loss declared during a rebuild reset (R418); the LIVE digest whose update of CFG_LIVEn is under way (R415). -/
  lossPend : Bool
  live : Option (List Byte)
  /-- Correctable errors of each memory controller in the present course (R228). -/
  ceCourse : SMap Nat
  /-- Energy values of queues and, from key 1,024, partitions, latched at the latest boundary (R400). -/
  eview : SMap Nat
  freeCtr : Nat
  ticks : Nat
  pending : List Instr
deriving DecidableEq, Repr

/-- The module right after a power-on reset, at the start of start-up (R402, R416): every register at the value its map
gives, memory and scratch zero, nothing running, no queue, no command waiting. The part is a CZ-9768 (log entry 6). -/
def State.reset : State :=
  { regs := [], mem := [], scrambles := [], lines := [], plru := [], lost := [], copies := [], ill := [], gdir := [],
    l3 := [], wc := [], memUe := [], memCe := [], memOde := [], scrUe := [], scrCe := [], lineUe := [], lineCe := [],
    copyUe := [], tagUe := [], cacheUe := [], cacheCe := [], scr := [], tileHolder := [], bankHolder := [],
    tiles := [], packets := [], nextPid := 0, blocks := [], nextBlock := 0, riddles := [], xlt := [], xplru := [],
    invWait := [], items := [], finishCtr := 0,
    queues := [], sets := [], plan := [], grout := [], lostKeys := [], hods := [], nextJob := 0, hodDsts := [], bus := [],
    fetchLast := [], fns := [], msixAddr := [], msixData := [], msixPend := [], outs := [], part := .cz9768,
    tileOwner := [], faulty := [], c0info := [], timer := false, started := false, closed13 := false, closed0 := false,
    drr := [], slip := false, debt := 0, idle := [], quadOff := [], quadWake := [], closePend := [], phases := [],
    pw := .reset, mults := [], board := .reset, trust := .reset, cores := [], mmem := [], mmSeed := 0, coreReset := false, coreDown := false, ldirs := [],
    sideband := [], scrubPasses := [], scrubStart := [], scrubPos := [], passes := [], c3Held := false, lossPend := false, live := none,
    ceCourse := [], eview := [], freeCtr := 0, ticks := 0, pending := [] }

end Sys2Proof.Machine
end

