-- ==== Sys2Proof/Machine/Ops.lean ====
section
/-! DEFINITION. Machine/Ops.lean: the named operations over registers, counters, free values, tiles and parts. -/
namespace Sys2Proof.Machine

/-- Contents of a register of the store. -/
def State.reg (s : State) (k : RegKind) (i : Nat) : Word := SMap.get s.regs k.reset (k.place.addr i)

/-- Replace a register. -/
def State.setReg (s : State) (k : RegKind) (i : Nat) (v : Word) : State :=
  { s with regs := SMap.insert s.regs (k.place.addr i) v }

/-- A field of instance `i` of its register. -/
def State.fld (s : State) (f : Fld) (i : Nat) : Nat := getField (s.reg f.reg i) f.hi f.lo

/-- Replace a field. -/
def State.setFld (s : State) (f : Fld) (i v : Nat) : State :=
  s.setReg f.reg i (setField (s.reg f.reg i) f.hi f.lo v)

/-- Add to a counter field, which saturates at all ones. -/
def State.bump (s : State) (f : Fld) (i n : Nat) : State :=
  s.setFld f i (min (s.fld f i + n) (2 ^ (f.hi + 1 - f.lo) - 1))

/-- Set a one-bit field. -/
def State.raise (s : State) (f : Fld) (i : Nat) : State := s.setFld f i 1

/-- Whether a one-bit field is 1. -/
def State.on (s : State) (f : Fld) (i : Nat) : Bool := s.fld f i = 1

/-- Return a register to its reset value. -/
def State.clearReg (s : State) (k : RegKind) (i : Nat) : State := s.setReg k i k.reset

/-- A number the specification leaves open; each use draws the next one (log entry 8). -/
def State.freeNat (s : State) : Nat := Config.freeNat s.freeCtr

/-- Move on to the next open value. -/
def State.drawn (s : State) : State := { s with freeCtr := s.freeCtr + 1 }

/-- The state an effect leaves. -/
def Res.st (r : Res State) (s : State) : State := match r with
  | .next t => t
  | _ => s

/-! ## Parts (R1, R440) -/

/-- Number of C-dies. -/
def Part.dies : Part → Nat
  | .cz5384 => 2 | _ => 4

/-- CAP_UNITS of the part. -/
def Part.units : Part → Nat
  | .cz9768 => 0x000000FF0FFF1F3F | .cz9576 => 0x000000FF0FFF101F | .cz5384 => 0x0000000F003F0013

/-- CAP_SIZES of the part. -/
def Part.sizes : Part → Nat
  | .cz9768 => 0x0804004040600320 | .cz9576 => 0x0804002030300320 | .cz5384 => 0x0804004040300190

/-- CAP_ID.PART. -/
def Part.id : Part → Nat
  | .cz9768 => 0x9768 | .cz9576 => 0x9576 | .cz5384 => 0x5384

/-- Tiles present. -/
def Part.tiles (p : Part) : Nat := 200 * p.dies

/-- Ghenath cores present. -/
def Part.cores (p : Part) : Nat := bits p.sizes 22 16

/-- Riddle sorters and ashlar expansion (CAP_UNITS). -/
def Part.hasRiddle (p : Part) (d : Nat) : Bool := (bits p.units 11 8).testBit d
def Part.hasAshlar (p : Part) : Bool := p.units.testBit 12

def hbmBase : Nat := 0x010000000000
def lpddrBase : Nat := 0x008000000000

/-- First byte beyond the populated HBM3E and LPDDR5X ranges (R440). -/
def Part.hbmEnd (p : Part) : Nat :=
  hbmBase + popcount 12 (bits p.units 27 16) * bits p.sizes 31 24 * 2 ^ 30
def Part.lpddrEnd (p : Part) : Nat :=
  lpddrBase + popcount 8 (bits p.units 39 32) * bits p.sizes 39 32 * 2 ^ 30

/-- A byte lies in the populated ranges (R221). -/
def Part.populated (p : Part) (a : Nat) : Bool :=
  (hbmBase ≤ a && a < p.hbmEnd) || (lpddrBase ≤ a && a < p.lpddrEnd)

/-- Every byte of a run lies in the populated ranges, of which either has to hold all of it unless they meet. -/
def Part.populatedRun (p : Part) (a n : Nat) : Bool :=
  n = 0 || (p.populated a && p.populated (a + n - 1) && (p.lpddrEnd = hbmBase || decide (hbmBase ≤ a) == decide (hbmBase ≤ a + n - 1)))

/-- XOR of the `w`-bit fields of `x`, from bit 0 upward (R222, R223). -/
def xorFold (w : Nat) : Nat → Nat → Nat
  | 0, _ => 0
  | fuel + 1, x => (x % 2 ^ w) ^^^ xorFold w fuel (x / 2 ^ w)

/-- Where a populated address lies (R220, R222, R223): home C-die, controller as a unit index of R422 (stack 0 to 11, or 16 +
channel), pseudo-channel (0 for LPDDR5X) and offset within it. -/
structure MemAt where
  die : Nat
  ctl : Nat
  pchan : Nat
  offset : Nat
deriving DecidableEq, Repr

/-- The mapping of HBM addresses (R222). -/
def Part.hbmAt (p : Part) (a : Nat) : MemAt :=
  let w := if p.dies = 4 then 7 else 6
  let g := (a - hbmBase) / 512
  let row := g / (96 * p.dies)
  let slot := g % (96 * p.dies)
  let s := slot % 2 ^ w ^^^ xorFold w 12 row
  ⟨s % p.dies, 3 * (s % p.dies) + slot / 2 ^ w, s / p.dies, row * 512 + (a - hbmBase) % 512⟩

/-- The mapping of LPDDR5X addresses (R223). -/
def Part.lpddrAt (p : Part) (a : Nat) : MemAt :=
  let c := 2 * p.dies
  let w := if c = 8 then 3 else 2
  let g := (a - lpddrBase) / 512
  let x := g % c ^^^ xorFold w 24 (g / c)
  let die := x % (c / 2)
  ⟨die, 16 + (2 * die + x / (c / 2)), 0, g / c * 512 + (a - lpddrBase) % 512⟩

def Part.memAt (p : Part) (a : Nat) : MemAt := if hbmBase ≤ a then p.hbmAt a else p.lpddrAt a

/-- Home C-die of a populated address (R205). -/
def Part.homeDie (p : Part) (a : Nat) : Nat := (p.memAt a).die

/-- Memory controller of an address, as a unit index of R422. -/
def Part.controller (p : Part) (a : Nat) : Nat := (p.memAt a).ctl

/-! ## Tiles -/

/-- A tile's state. -/
def State.tile (s : State) (t : Nat) : Tile := SMap.get s.tiles Tile.reset t

/-- Replace a tile's state. -/
def State.setTile (s : State) (t : Nat) (x : Tile) : State := { s with tiles := SMap.insert s.tiles t x }

/-- Change a tile's state. -/
def State.modTile (s : State) (t : Nat) (f : Tile → Tile) : State := s.setTile t (f (s.tile t))

/-- C-die of a tile. -/
def tileDie (t : Nat) : Nat := t / 200

/-- Package row and column of a tile in the 20 × 40 grid. -/
def tileRow (t : Nat) : Nat := t / 400 * 10 + t % 200 / 20
def tileCol (t : Nat) : Nat := t / 200 % 2 * 20 + t % 20

/-- Tile at a package row and column. -/
def tileAt (r c : Nat) : Nat := (r / 10 * 2 + c / 20) * 200 + r % 10 * 20 + c % 20

/-- A running block by its number. -/
def State.block (s : State) (b : Nat) : Option Block := s.blocks.find? fun x => x.id = b

/-- Change a running block. -/
def State.modBlock (s : State) (b : Nat) (f : Block → Block) : State :=
  { s with blocks := s.blocks.map fun x => if x.id = b then f x else x }

/-- The block a tile serves. -/
def State.blockOf (s : State) (t : Nat) : Option Block := (s.tile t).block.bind s.block

/-- An uncorrectable error or a substitution reached the tile's block, which completes with MEM_UE (R175). -/
def State.markUe (s : State) (t : Nat) : State :=
  match (s.tile t).block with
  | some b => s.modBlock b fun x => { x with memUe := true }
  | none => s

/-- Scalar register (R101): s0 reads as zero. -/
def Tile.sreg (x : Tile) (i : Nat) : Word := if i = 0 then 0 else SMap.get x.sregs 0 i

/-- Write a scalar register: a write to s0 is discarded (R101). -/
def Tile.setSreg (x : Tile) (i : Nat) (v : Word) : Tile :=
  if i = 0 then x else { x with sregs := SMap.set x.sregs 0 i v }

def State.sreg (s : State) (t i : Nat) : Word := (s.tile t).sreg i
def State.setSreg (s : State) (t i : Nat) (v : Word) : State := s.modTile t fun x => x.setSreg i v

/-! ## Functions and queues -/

/-- A PCI Express function. -/
def State.fn (s : State) (f : Nat) : PFn := SMap.get s.fns PFn.reset f
def State.setFn (s : State) (f : Nat) (x : PFn) : State := { s with fns := SMap.insert s.fns f x }

/-- A queue beside its registers. -/
def State.queue (s : State) (q : Nat) : Queue := SMap.get s.queues Queue.reset q
def State.setQueue (s : State) (q : Nat) (x : Queue) : State := { s with queues := SMap.insert s.queues q x }
def State.modQueue (s : State) (q : Nat) (f : Queue → Queue) : State := s.setQueue q (f (s.queue q))

/-- Send something out. -/
def State.emit (s : State) (o : Out) : State := { s with outs := s.outs ++ [o] }

/-- Send MSI-X vector `v` of function `f`: held in the pending-bit array while MSI-X is not enabled or the function or
vector is masked (R405), or while the function may not master the bus. -/
def State.msix (s : State) (f v : Nat) : State :=
  let k := f * 2048 + v
  let d := SMap.get s.msixData (BitVec.ofNat 64 (2 ^ 32)) k
  let p := s.fn f
  if p.msixEn && !p.msixMask && p.bme && !d.toNat.testBit 32 then
    s.emit (.msix f v (SMap.get s.msixAddr 0 k) (BitVec.ofNat 64 (d.toNat % 2 ^ 32)))
  else if s.msixPend.contains k then s else { s with msixPend := s.msixPend ++ [k] }

/-- Write a digest to its six registers (R414). -/
def State.setDigest (s : State) (f : Fld) (d : List Byte) : State :=
  (List.range 6).foldl (fun s n => s.setFld f n (le d (8 * n) 8)) s

/-- The update of CFG_LIVEn that is under way, if any, ends: the six registers change together and CFG_LIVE_SEQ is even
again (R415). -/
def State.liveEnd (s : State) : State :=
  match s.live with
  | none => s
  | some d =>
    let old := ((List.range 6).map fun n => bytesOf 8 (s.fld F.CFG_LIVE.DIGEST n)).flatten
    let s := ({ s with live := none }.setDigest F.CFG_LIVE.DIGEST d).setFld F.CFG_LIVE_SEQ.SEQ 0
      (s.fld F.CFG_LIVE_SEQ.SEQ 0 + 1)
    if d = old then s else s.raise F.CFG_EVENT.LIVE_CHANGED 0

/-- With bandwidth fencing, an owner of weight zero gets no memory access through (R399). -/
def State.starved (s : State) (tag : Nat) : Bool :=
  s.on F.SEC_BWFENCE.ENABLE 0 && bits (s.fld F.SEC_BWFENCE.WEIGHT 0) (6 * tag + 5) (6 * tag) = 0

/-- An in-band interrupt to the BMC, once the I3C target has its dynamic address (R452). -/
def State.ibi (s : State) (b : Nat) : State := if s.board.dyn.isSome then s.emit (.ibi b) else s

/-- READY has been signalled and the accelerator has not halted. -/
def State.ready (s : State) : Bool := s.on F.CFE_STATUS.READY 0
def State.halted (s : State) : Bool := s.on F.CFE_STATUS.HALTED 0

/-- The current course number (R20). -/
def State.course (s : State) : Nat := s.fld F.CRS_COURSE_NUM.COURSE 0

end Sys2Proof.Machine
end

