-- ==== Sys2Proof/Machine/Grout.lean ====
section
/-! DEFINITION. Machine/Grout.lean: unit identifiers, error reports, coalescing, the log and the severity actions
(R421 to R429). -/
namespace Sys2Proof.Machine

/-! ## Unit identifiers (R422) -/

def uTile (t : Nat) : Nat := t
def uDstore (d b : Nat) : Nat := 0x1000 + d * 64 + b
def uSlice (d : Nat) : Nat := 0x2000 + d
def uMem (c : Nat) : Nat := 0x3000 + c
def uLintel (l : Nat) : Nat := 0x4000 + l
def uHod (h : Nat) : Nat := 0x5000 + h
/-- A queue, work 0 to 1,023 or 1,024 + a for admin queue a, which is also the coding of R279. -/
def uQueue (q : Nat) : Nat := 0x6000 + q
/-- Cache of a G-die. -/
def uCache (g : Nat) : Nat := 0x8000 + g
def uCore (c : Nat) : Nat := 0x7000 + c
def uFrontEnd : Nat := 0xA000
def uPower (n : Nat) : Nat := 0xB000 + n
def uFn (f : Nat) : Nat := 0xC000 + f
def uShusis : Nat := 0xD000

/-- Ends A and B of a lintel (R333), as dies: C-dies 0 to 3, G-dies 4 and 5, IO die 6. -/
def lintelEnds (l : Nat) : Nat × Nat :=
  if l < 6 then (0, 1) else if l < 12 then (2, 3) else if l < 18 then (0, 2) else if l < 24 then (1, 3)
  else if l < 26 then (0, 4) else if l < 28 then (2, 4) else if l < 30 then (1, 5) else if l < 32 then (3, 5)
  else (l - 32, 6)

/-- A lintel is present on the part (R333). -/
def Part.hasLintel (p : Part) (l : Nat) : Bool :=
  match p with
  | .cz9768 => l < 36
  | .cz9576 => l < 28 || (32 ≤ l && l < 36)
  | .cz5384 => l < 6 || l = 24 || l = 25 || l = 32 || l = 33

/-- Die of a unit, as a bit of DIES (R423): C-dies 0 to 3, G-dies 4 and 5, IO die 6; lintels report through their end A
die (R333). -/
def unitDie (u : Nat) : Nat :=
  let i := u % 0x1000
  match u / 0x1000 with
  | 0x0 => i / 200
  | 0x1 => i / 64
  | 0x2 => i
  | 0x3 => if i < 16 then i / 3 else (i - 16) / 2
  | 0x4 => (lintelEnds i).1
  | 0x7 => 4 + i / 48
  | 0x8 => 4 + i
  | 0x9 => i
  | _ => 6

/-! ## Stopping the accelerator -/

/-- What a rebuild reset or a halt leaves of a tile-window register (R416): run state, program counter, relocation slots,
arrival counters and arch state are cleared; the configured fields, counters and event registers are kept. -/
def wipeTileReg (a : Nat) (v : Word) : Option Word :=
  let o := (a - 0x20000000) % 0x40000
  let w := (a - 0x20000000) % 0x04000000
  if a < 0x20000000 || 0x30000000 ≤ a then some v
  else if 0x3200000 ≤ w then (if w = 0x3900000 then none else some v)
  else if o = 0x828 then some (v &&& 0x80)
  else if o = 0x1010 then some (v &&& 0x3F)
  else if o = 0x800 || o = 0x808 || o = 0x1000 || o = 0x1008 || o = 0x1018 || o = 0x1020 || o = 0x1408 then none
  else if (0x900 ≤ o && o < 0xA00) || (0x1D00 ≤ o && o < 0x1F00) then none
  else some v

/-- Members of the resident sets that running blocks load. -/
def State.loadedTiles (s : State) : List Nat :=
  ((s.blocks.filter fun b => b.writable).map fun b =>
    ((s.sets.filter fun r => b.set = some r.id).map RSet.members).flatten).flatten

/-- Every arch, block, feeder, drain, corbel row, riddle and hod stops and its state is discarded, with every write of
theirs not yet accepted and every die-local copy (R342 step 2, R417 steps 2 to 4). A loading block cut short leaves its set
unloaded (R178, R267). -/
def State.stopWork (s : State) : State :=
  let s := s.loadedTiles.foldl (fun s t => (s.setFld F.SCP_PLINTH.WRITABLE t 0).setFld F.SCP_PLINTH.VALID t 0) s
  { s with
    regs := s.regs.filterMap fun p => (wipeTileReg p.1 p.2).map fun v => (p.1, v)
    tiles := []
    blocks := []
    packets := s.packets.filter fun p => match p.unit with
      | .inbound _ => true
      | _ => false
    riddles := []
    copies := []
    copyUe := []
    hods := []
    hodDsts := []
    plan := []
    tileHolder := []
    bankHolder := []
    bus := s.bus.map fun p => match p.2.owner with
      | .hodRead _ _ _ | .hodFlush _ _ => (p.1, { p.2 with owner := .abandoned })
      | _ => p }

/-- Finish every unfinished item of the queues that satisfy `p` with a status and detail, in SEQ order within each
queue (R287, R428). -/
def State.finishItems (s : State) (p : Nat → Bool) (status detail : Nat) : State :=
  let n := s.finishCtr
  { s with
    finishCtr := n + s.items.length
    items := s.items.zipIdx.map fun (i, k) =>
      match i.stage with
      | .finished _ _ _ => i
      | _ => if p i.queue then { i with stage := .finished status detail 0xFF, kept := none, finish := n + k } else i }

/-- A FATAL report (R428): latched in ERR_FATAL if it is the first, counted, and the accelerator halts as steps 2 to 4
of R342 set out. Before READY start-up stops instead (R406). -/
def State.fatal (s : State) (cause code : Nat) : State :=
  let s := if s.on F.ERR_FATAL.VALID 0 then s
    else (((s.ibi 2).raise F.ERR_FATAL.VALID 0).setFld F.ERR_FATAL.CAUSE 0 cause).setFld F.ERR_FATAL.CODE 0 code
  let s := s.raise F.ERR_STATUS.FATAL 0
  if !s.timer then
    (s.raise F.CFG_STATE.FAIL 0).setFld F.CFG_STATE.FAIL_PHASE 0 (s.fld F.CFG_STATE.PHASE 0)
  else if s.halted then s
  else
    let s := s.stopWork
    let s := (s.raise F.CFE_STATUS.HALTED 0).setFld F.CFE_STATUS.READY 0 0
    s.finishItems (fun _ => true) 0x0C code

/-! ## The log -/

/-- Severity counter of ERR_COUNT. -/
def sevCounter : Nat → Fld
  | 0 => F.ERR_COUNT.NOTE | 1 => F.ERR_COUNT.CORRECTED | 2 => F.ERR_COUNT.UNCORRECTED | _ => F.ERR_COUNT.FATAL

/-- Vector 1 is enabled for a severity (R428). -/
def State.sevIrq (s : State) : Nat → Bool
  | 0 => s.on F.ERR_IRQ_EN.NOTE 0
  | 1 => s.on F.ERR_IRQ_EN.CORRECTED 0
  | 2 => s.on F.ERR_IRQ_EN.UNCORRECTED 0
  | _ => false

/-- The tile maps with a unit's bit set, if it is a tile (R426). -/
def addMap (maps : List Nat) (u : Nat) : List Nat :=
  if u < 0x1000 then maps.set (u / 200) (maps.getD (u / 200) 0 ||| 2 ^ (u % 200)) else maps

/-- The open record of a key: not CLOSED, nor due to close (R424, R425). -/
def State.openRec (s : State) (cause course : Nat) : Option (Nat × LogRec) :=
  List.find? (fun p => p.2.cause = cause && p.2.course = course && !p.2.flags.testBit 0 && decide (s.course < course + 2))
    s.grout

/-- A report of an event detected in course `c` at tick `time` reaches the root collector (R424, R427, R428, R429). -/
def State.reportOf (s : State) (c time : Nat) (r : Report) : State :=
  let bitd := 2 ^ unitDie r.source
  match s.openRec r.cause c with
  | some (n, e) =>
    let esc := decide (e.sev < r.sev)
    let e' := { e with
      sev := max e.sev r.sev
      flags := if esc then e.flags ||| 2 else e.flags
      count := min (e.count + 1) 0xFFFFFFFF
      dies := e.dies ||| bitd
      maps := addMap e.maps r.source }
    let s := { s with grout := SMap.insert s.grout n e' }
    let s := s.bump F.ERR_SECONDARY.COUNT 0 1
    if r.sev = 3 then
      let s := if esc then (s.bump F.ERR_COUNT.FATAL 0 1).msix 0 2 else s
      s.fatal r.cause r.code
    else s
  | none =>
    let head := s.fld F.ERR_LOG_HEAD.HEAD 0
    let tail := s.fld F.ERR_LOG_TAIL.TAIL 0
    let slot := head % 256
    let free := (match SMap.find? s.grout slot with
      | none => true
      | some e => e.flags.testBit 0) && decide ((head + 2 ^ 32 - tail) % 2 ^ 32 < 256)
    let lost := s.lostKeys.contains (r.cause, c)
    let s :=
      if free && !lost then
        let again := s.grout.any fun p => p.2.cause = r.cause && p.2.course = c
        let e : LogRec :=
          { code := r.code, sev := r.sev, flags := if again then 4 else 0, cause := r.cause, source := r.source,
            course := c, time := time, addr := r.addr, count := 1, dies := bitd, part := r.part, queue := r.queue,
            detail := r.detail, seq := head, maps := addMap [0, 0, 0, 0] r.source }
        let s := { s with grout := SMap.insert s.grout slot e }
        let s := (s.setFld F.ERR_LOG_HEAD.HEAD 0 (head + 1)).raise F.ERR_STATUS.NEW 0
        let s := s.bump (sevCounter r.sev) 0 1
        if r.sev = 3 then (if s.on F.ERR_FATAL.VALID 0 then s.ibi 2 else s).msix 0 2 else if s.sevIrq r.sev then s.msix 0 1 else s
      else
        let s := (s.bump F.ERR_LOST.COUNT 0 1).raise F.ERR_STATUS.OVERFLOW 0
        let s := { s with lostKeys := if lost then s.lostKeys else (r.cause, c) :: s.lostKeys }
        if r.sev = 3 then s.bump F.ERR_COUNT.FATAL 0 1 else s
    if r.sev = 3 then s.fatal r.cause r.code else s

/-- A report of what is detected now. -/
def State.report (s : State) (r : Report) : State := s.reportOf s.course s.ticks r

/-- Report a fault of a unit itself, with no owner or queue. -/
def State.reportSelf (s : State) (code sev unit addr detail : Nat) : State :=
  s.report ⟨code, sev, unit, unit, addr, detail, 0xFF, 0xFFFF⟩

end Sys2Proof.Machine
end

