-- ==== Sys2Proof/Machine/Lintel.lean ====
section
/-! DEFINITION. Machine/Lintel.lean: the lintels: routes, replays, windows, going down (R324, R333 to R343). -/
namespace Sys2Proof.Machine

/-! ## Routes (R324, R334, R342) -/

/-- Lintels that join two dies. -/
def Part.lintelsOf (p : Part) (x y : Nat) : List Nat :=
  (List.range 36).filter fun l => p.hasLintel l && (lintelEnds l = (x, y) || lintelEnds l = (y, x))

/-- A lintel is declared DOWN. -/
def State.ltlDown (s : State) (l : Nat) : Bool := s.fld F.LTL_STATE.STATE l = 3

/-- The hop between two dies is cut for an address: the lintel its hash names is down. -/
def State.hopCut (s : State) (x y a : Nat) : Bool :=
  let ls := s.part.lintelsOf x y
  s.ltlDown (ls.getD (Config.lintelHash ls.length a % ls.length) 99)

/-- Dies a core's access crosses from its G-die to the home C-die (R324). -/
def coreRoute (g home : Nat) : List (Nat × Nat) :=
  match g, home with
  | 0, 0 => [(4, 0)] | 0, 1 => [(4, 0), (0, 1)] | 0, 2 => [(4, 2)] | 0, _ => [(4, 2), (2, 3)]
  | _, 0 => [(5, 1), (1, 0)] | _, 1 => [(5, 1)] | _, 2 => [(5, 3), (3, 2)] | _, _ => [(5, 3)]

/-- A core's route to an address is cut. -/
def State.coreCut (s : State) (core a : Nat) : Bool :=
  (coreRoute (core / 48) (s.part.homeDie a)).any fun h => s.hopCut h.1 h.2 a

/-- The IO die's lintel to an address's home is down. -/
def State.ioCut (s : State) (a : Nat) : Bool := s.ltlDown (32 + s.part.homeDie a)

/-! ## Directions -/

def State.ldir (s : State) (l : Nat) (ba : Bool) : LDir := SMap.get s.ldirs LDir.reset (2 * l + bitN ba)
def State.setLdir (s : State) (l : Nat) (ba : Bool) (x : LDir) : State :=
  { s with ldirs := SMap.insert s.ldirs (2 * l + bitN ba) x }

/-- Flits the replay buffer keeps. -/
def replaySize : Nat := 128

/-- A direction holds new payload back: its replay buffer is full, or it resends (R338, R339). -/
def LDir.holds (x : LDir) : Bool := replaySize ≤ x.kept.length || x.resent

/-- C-dies that traffic between two C-dies crosses, as hops: along the row first (log entry 103). -/
def dieRoute (x y : Nat) : List (Nat × Nat) :=
  if x = y then []
  else if x / 2 = y / 2 || x % 2 = y % 2 then [(x, y)]
  else [(x, x / 2 * 2 + y % 2), (x / 2 * 2 + y % 2, y)]

/-- The direction of a hop that the hash of an address names holds payload back. -/
def State.hopHeld (s : State) (a : Nat) (h : Nat × Nat) : Bool :=
  let ls := s.part.lintelsOf h.1 h.2
  let l := ls.getD (Config.lintelHash ls.length a % ls.length) 99
  (s.ldir l (lintelEnds l ≠ h)).holds

/-- A core's access waits for a replay buffer of its route. -/
def State.coreHeld (s : State) (core a : Nat) : Bool :=
  (coreRoute (core / 48) (s.part.homeDie a)).any (s.hopHeld a)

/-- A lintel carries flits. -/
def State.ltlUp (s : State) (l : Nat) : Bool := s.board.alive && s.part.hasLintel l && s.fld F.LTL_STATE.STATE l = 2

/-- A direction declares its lintel DOWN (R341, R342). -/
def State.declareDown (s : State) (l : Nat) (rate consec : Bool) : State :=
  let s := (s.setFld F.LTL_STATE.STATE l 3).raise F.LTL_EVENT.DOWN l
  let s := (s.setFld F.LTL_STATE.CAUSE_RATE l (bitN rate)).setFld F.LTL_STATE.CAUSE_CONSEC l (bitN consec)
  s.reportSelf 0x0402 3 (uLintel l) 0 (bitN rate + 2 * bitN consec)

/-- Window count of a direction, and the register field. -/
def winFld (ba : Bool) : Fld := if ba then F.LTL_WIN.BA else F.LTL_WIN.AB
def replayFld (ba : Bool) : Fld := if ba then F.LTL_REPLAY.BA else F.LTL_REPLAY.AB

/-- A flit arrives: where its CRC-32C fails, the receiver discards it and all later ones until the replay arrives, and
names it in a NAK. A failure of the first resent flit is a failed replay; eight in a row take the lintel down. -/
def execFlitCrcFail (l : Nat) (flit : Flit) (s : State) : Res State :=
  let ba := flit.ba
  let x := s.ldir l ba
  let bad : Bool := flit.payload.length = 64 && crc32c flit.payload ≠ flit.crc.toNat
  .next (if !s.ltlUp l || !bad then s
  else if x.resent then
    let k := x.failed + 1
    let s := s.setLdir l ba { x with resent := false, failed := k }
    let s := s.setFld F.LTL_STATE.CONSEC_MAX l (max (s.fld F.LTL_STATE.CONSEC_MAX l) (min k 255))
    if k = 8 then s.declareDown l false true else s
  else if x.nak.isSome || flit.count < x.taken || x.sent ≤ flit.count then s
  else s.setLdir l ba { x with nak := some flit.count, taken := flit.count })

/-- The NAK reaches the transmitter, which resends from the failed flit on; both ends count anew. The replay is counted,
half of RATE warns once, more than RATE takes the lintel down. -/
def execNak (l : Nat) (ba : Bool) (s : State) : Res State :=
  let x := s.ldir l ba
  .next (match x.nak with
  | none => s
  | some k =>
    if !s.ltlUp l || x.resent then s
    else
      let again := (x.kept.filter fun i => k ≤ i).length
      let n := s.fld (winFld ba) l + 1
      let s := (s.setLdir l ba { x with
        sent := again, taken := 0, kept := List.range again, nak := some 0, resent := true }).raise F.LTL_EVENT.REPLAY l
      let s := (s.bump (replayFld ba) l 1).bump (winFld ba) l 1
      let rate := max 1 (s.fld F.LTL_CFG.RATE 0)
      let s := if n = ceilDiv rate 2 then (s.raise F.LTL_EVENT.RATE_WARN l).reportSelf 0x0401 0 (uLintel l) 0 n else s
      if rate < n then s.declareDown l true false else s)

/-- The first resent flit passes: the run of failed replays ends. -/
def execReplayFlitReceived (l : Nat) (ba : Bool) (s : State) : Res State :=
  let x := s.ldir l ba
  .next (if !s.ltlUp l || !x.resent then s
    else s.setLdir l ba { x with nak := none, resent := false, failed := 0 })

/-- An acknowledgement of the `n` oldest flits kept: the receiver has taken them, and their entries are free. -/
def execAck (l : Nat) (ba : Bool) (n : Nat) (s : State) : Res State :=
  let x := s.ldir l ba
  let last := ((x.kept.take n).getLast?.map (· + 1)).getD x.taken
  .next (if !s.ltlUp l || x.nak.isSome then s
    else s.setLdir l ba { x with kept := x.kept.drop n, taken := max x.taken last })

/-- A window ends: its count starts again at zero. -/
def execReplayWindowEnd (l : Nat) (ba : Bool) (s : State) : Res State :=
  .next (if !s.ltlUp l then s else s.setFld (winFld ba) l 0)

/-- The majority of three copies of a sideband symbol (R337). -/
def majority (x y z : Word) : Word := (x &&& y) ||| (x &&& z) ||| (y &&& z)

/-- A sideband symbol is received: its majority is used, and a disagreement is counted. -/
def execSidebandSymbol (l : Nat) (x y z : BitVec 64) (s : State) : Res State :=
  .next (if !s.ltlUp l then s
  else
    let s := { s with sideband := SMap.insert s.sideband l (majority x y z) }
    if x = y && y = z then s else (s.bump F.LTL_SB.ERRORS l 1).raise F.LTL_EVENT.SB_ERR l)

/-- A direction sends 40 flits in a reference tick (R336): payload or idle, counted alike and kept for resending; with the
replay buffer full, idle ones that carry nothing to keep (R338). While it resends it sends nothing new (R339). -/
def LDir.send (x : LDir) : LDir :=
  if x.resent then x
  else
    let room := min 40 (replaySize - x.kept.length)
    { x with sent := x.sent + 40, kept := x.kept ++ (List.range room).map (x.sent + ·) }

/-- The flits of a reference tick on the lintels that are up. How many of them carry payload, which LTL_FLITS counts, is an
open value: none where new payload is held back. -/
def State.flitTick (s : State) : State :=
  (List.range 36).foldl (fun s l =>
    if s.ltlUp l then
      [false, true].foldl (fun s ba =>
        let x := s.ldir l ba
        let n := if x.holds then 0 else s.freeNat % (min 40 (replaySize - x.kept.length) + 1)
        (s.drawn.setLdir l ba x.send).bump (if ba then F.LTL_FLITS_BA.FLITS else F.LTL_FLITS_AB.FLITS) l n) s
    else s) s

end Sys2Proof.Machine
end

