-- ==== Sys2Proof/Machine/Num.lean ====
section
/-! DEFINITION. Machine/Num.lean: the number formats of the tiles, exact sums and products, rounding to nearest even and
conversion (R39 to R58). -/
namespace Sys2Proof.Machine

/-- A decoded value: NaN, a signed infinity or zero, or the exact dyadic ± `m` × 2^`e` with `m` > 0. -/
inductive FVal where
  | nan
  | inf (neg : Bool)
  | zero (neg : Bool)
  | fin (neg : Bool) (m : Nat) (e : Int)
deriving DecidableEq, Repr

/-- A floating-point layout of R40: exponent and mantissa widths, bias, and which encodings are special. -/
structure FFmt where
  eb : Nat
  mb : Nat
  bias : Nat
  /-- The top exponent field holds Inf and NaN. -/
  ieee : Bool
  /-- The all-ones code is NaN (E4M3). -/
  topNan : Bool
deriving DecidableEq, Repr

def fp32 : FFmt := ⟨8, 23, 127, true, false⟩
def bf16 : FFmt := ⟨8, 7, 127, true, false⟩
def fp16 : FFmt := ⟨5, 10, 15, true, false⟩
def e4m3 : FFmt := ⟨4, 3, 7, false, true⟩
def e5m2 : FFmt := ⟨5, 2, 15, true, false⟩
def e3m2 : FFmt := ⟨3, 2, 3, false, false⟩
def e2m3 : FFmt := ⟨2, 3, 1, false, false⟩
def e2m1 : FFmt := ⟨2, 1, 1, false, false⟩

/-- The floating-point layout a format code names (R39); none for integers and reserved codes. -/
def fmtOf : Nat → Option FFmt
  | 0x0 => some fp32 | 0x1 => some bf16 | 0x2 => some fp16 | 0x3 => some e4m3 | 0x4 => some e5m2
  | 0x5 => some e4m3 | 0x6 => some e5m2 | 0x7 => some e3m2 | 0x8 => some e2m3 | 0x9 => some e2m1
  | _ => none

/-- Element width in bits of a format code (R39, R42). -/
def fmtWidth : Nat → Nat
  | 0x0 | 0xC => 32 | 0x1 | 0x2 => 16 | 0x3 | 0x4 | 0x5 | 0x6 | 0xA => 8 | 0x7 | 0x8 => 6 | _ => 4

/-- Codes with microscaling block scales (R39, R44). -/
def isMx (c : Nat) : Bool := 0x5 ≤ c && c ≤ 0x9

/-- Integer array-operand codes. -/
def isInt (c : Nat) : Bool := c = 0xA || c = 0xB

/-- Array-operand codes (R39). -/
def isArrayFmt (c : Nat) : Bool := 0x1 ≤ c && c ≤ 0xB

/-- Value of an element code (R40). -/
def FFmt.decode (f : FFmt) (x : Nat) : FVal :=
  let neg := x.testBit (f.eb + f.mb)
  let E := bits x (f.eb + f.mb - 1) f.mb
  let M := x % 2 ^ f.mb
  let top := 2 ^ f.eb - 1
  if f.ieee && E = top then (if M = 0 then .inf neg else .nan)
  else if f.topNan && E = top && M = 2 ^ f.mb - 1 then .nan
  else if E = 0 then
    (if M = 0 then .zero neg else .fin neg M (1 - (f.bias : Int) - f.mb))
  else .fin neg (2 ^ f.mb + M) ((E : Int) - f.bias - f.mb)

/-- Two's-complement value of an INT8 or INT4 element code (R43). -/
def intVal (c x : Nat) : Int := sext (fmtWidth c) x

/-- Value of a block scale (R44): code 0xFF is NaN. -/
def scaleVal (x : Nat) : Option Int := if x % 256 = 255 then none else some ((x % 256 : Nat) - 127 : Int)

/-- An element value times its block scale: exact, NaN under scale 0xFF (R44, R46). -/
def FVal.scaled (v : FVal) (s : Option Int) : FVal :=
  match s with
  | none => .nan
  | some k => match v with
    | .fin n m e => .fin n m (e + k)
    | w => w

/-- Exact product with the special cases of R52. -/
def FVal.mul : FVal → FVal → FVal
  | .nan, _ | _, .nan => .nan
  | .inf a, .inf b => .inf (a != b)
  | .inf _, .zero _ | .zero _, .inf _ => .nan
  | .inf a, .fin b _ _ | .fin a _ _, .inf b => .inf (a != b)
  | .zero a, .zero b | .zero a, .fin b _ _ | .fin a _ _, .zero b => .zero (a != b)
  | .fin a m e, .fin b n g => .fin (a != b) (m * n) (e + g)

/-- Negation. -/
def FVal.neg : FVal → FVal
  | .nan => .nan
  | .inf a => .inf (!a)
  | .zero a => .zero (!a)
  | .fin a m e => .fin (!a) m e

/-- Signed mantissa of a value over the exponent `g`, which does not exceed its own. -/
def FVal.mant (g : Int) : FVal → Int
  | .fin n m e => let v : Int := (m * 2 ^ (e - g).toNat : Nat); if n then -v else v
  | _ => 0

/-- Exponent of a finite nonzero value, else the given one. -/
def FVal.expOr (d : Int) : FVal → Int
  | .fin _ _ e => min d e
  | _ => d

def FVal.isNan : FVal → Bool | .nan => true | _ => false
def FVal.isPInf : FVal → Bool | .inf false => true | _ => false
def FVal.isNInf : FVal → Bool | .inf true => true | _ => false
def FVal.isNZero : FVal → Bool | .zero true => true | _ => false
def FVal.isZero : FVal → Bool | .zero _ => true | _ => false
def FVal.isFin : FVal → Bool | .zero _ => true | .fin _ _ _ => true | _ => false

/-- A dyadic from a signed mantissa; zero is positive. -/
def FVal.ofInt (v : Int) (e : Int) : FVal :=
  if v = 0 then .zero false else .fin (v < 0) v.natAbs e

/-- Exact sum of values with the special cases of R52: an exact zero sum is −0 only when every addend is −0. -/
def FVal.sum (vs : List FVal) : FVal :=
  if vs.any FVal.isNan then .nan
  else if vs.any FVal.isPInf && vs.any FVal.isNInf then .nan
  else if vs.any FVal.isPInf then .inf false
  else if vs.any FVal.isNInf then .inf true
  else if !vs.isEmpty && vs.all FVal.isNZero then .zero true
  else
    let g := vs.foldl FVal.expOr 100000
    .ofInt (vs.foldl (fun a v => a + v.mant g) 0) g

/-- Order of two values that are not NaN; zeros compare equal. -/
def FVal.lt (a b : FVal) : Bool :=
  match a, b with
  | .nan, _ | _, .nan => false
  | .inf true, .inf true => false
  | .inf true, _ => true
  | _, .inf true => false
  | .inf false, _ => false
  | _, .inf false => true
  | a, b => let g := b.expOr (a.expOr 100000); a.mant g < b.mant g

/-- Natural number `m` × 2^−`s` rounded to nearest, ties to even. -/
def rneShift (m s : Nat) : Nat :=
  let q := m / 2 ^ s
  let r := m % 2 ^ s
  if s = 0 then m
  else if 2 * r > 2 ^ s || (2 * r = 2 ^ s && q % 2 = 1) then q + 1 else q

/-- The magnitude `m` × 2^`e` rounded to nearest even with `f`'s precision, its subnormal range and an unbounded
exponent: the rounded value is the first component × 2^ the second. -/
def FFmt.quantise (f : FFmt) (m : Nat) (e : Int) : Nat × Int :=
  let q : Int := max (e + m.log2 - f.mb) (1 - f.bias - f.mb)
  if q ≤ e then (m * 2 ^ (e - q).toNat, q) else (rneShift m (q - e).toNat, q)

/-- Largest finite code without sign. -/
def FFmt.maxCode (f : FFmt) : Nat :=
  if f.ieee then 2 ^ (f.eb + f.mb) - 2 ^ f.mb - 1
  else if f.topNan then 2 ^ (f.eb + f.mb) - 2 else 2 ^ (f.eb + f.mb) - 1

/-- Canonical NaN code (R52, R57). -/
def FFmt.nanCode (f : FFmt) : Nat :=
  if f.ieee then 2 ^ (f.eb + f.mb) - 2 ^ f.mb + 2 ^ (f.mb - 1) else 2 ^ (f.eb + f.mb) - 1

/-- Code of a quantised magnitude, possibly above the largest finite code. -/
def FFmt.magCode (f : FFmt) (k : Nat) (q : Int) : Nat :=
  let (k, q) := if k = 2 ^ (f.mb + 1) then (2 ^ f.mb, q + 1) else (k, q)
  if k < 2 ^ f.mb then k
  else (q + f.mb + f.bias).toNat * 2 ^ f.mb + (k - 2 ^ f.mb)

/-- Round a value into a format: to nearest even with subnormals kept, overflow and specials as R57 gives with SAT. -/
def FFmt.round (f : FFmt) (sat : Bool) (v : FVal) : Nat :=
  let sgn (n : Bool) : Nat := if n then 2 ^ (f.eb + f.mb) else 0
  let large (n : Bool) : Nat :=
    sgn n + (if sat then f.maxCode else if f.ieee then 2 ^ (f.eb + f.mb) - 2 ^ f.mb else f.nanCode)
  match v with
  | .nan => f.nanCode
  | .inf n => large n
  | .zero n => sgn n
  | .fin n m e =>
    let (k, q) := f.quantise m e
    let c := f.magCode k q
    if c > f.maxCode then large n else sgn n + c

/-- FP32 code of the exact value rounded to nearest even (R48, R58). -/
def rne32 (v : FVal) : Nat := fp32.round false v

/-- Value of an FP32 code. -/
def val32 (x : Nat) : FVal := fp32.decode (x % 2 ^ 32)

/-- Canonical FP32 NaN. -/
def nan32 : Nat := 0x7FC00000

def fadd (a b : Nat) : Nat := rne32 (.sum [val32 a, val32 b])
def fsub (a b : Nat) : Nat := rne32 (.sum [val32 a, (val32 b).neg])
def fmul (a b : Nat) : Nat := rne32 ((val32 a).mul (val32 b))
def ffma (a b c : Nat) : Nat := rne32 (.sum [(val32 a).mul (val32 b), val32 c])

/-- Quotient rounded to nearest even: the quotient with 64 fraction bits and a sticky bit decides the rounding. -/
def FVal.div : FVal → FVal → FVal
  | .nan, _ | _, .nan => .nan
  | .inf _, .inf _ => .nan
  | .zero _, .zero _ => .nan
  | .inf a, .zero b | .inf a, .fin b _ _ | .fin a _ _, .zero b => .inf (a != b)
  | .zero a, .inf b | .zero a, .fin b _ _ | .fin a _ _, .inf b => .zero (a != b)
  | .fin a m e, .fin b n g =>
    let s := n.log2 + 64
    let q := m * 2 ^ s / n
    .fin (a != b) (2 * q + (if m * 2 ^ s % n = 0 then 0 else 1)) (e - g - s - 1)

/-- FP32 division rounded to nearest even. -/
def fdiv (a b : Nat) : Nat := rne32 ((val32 a).div (val32 b))

/-- Larger of two FP32 codes (R88): NaN if either is NaN, max(+0, −0) = +0. -/
def fmax (a b : Nat) : Nat :=
  let x := val32 a; let y := val32 b
  if x.isNan || y.isNan then nan32
  else if x.isZero && y.isZero then (if x.isNZero && y.isNZero then 2 ^ 31 else 0)
  else if x.lt y then b % 2 ^ 32 else a % 2 ^ 32

/-- Smaller of two FP32 codes (R88): NaN if either is NaN, min(+0, −0) = −0. -/
def fmin (a b : Nat) : Nat :=
  let x := val32 a; let y := val32 b
  if x.isNan || y.isNan then nan32
  else if x.isZero && y.isZero then (if x.isNZero || y.isNZero then 2 ^ 31 else 0)
  else if y.lt x then b % 2 ^ 32 else a % 2 ^ 32

/-- FP32 converted to a format code under R57; FP32 and INT32 outputs unchanged. -/
def convertOut (code : Nat) (sat : Bool) (x : Nat) : Nat :=
  if code = 0x0 || code = 0xC then x % 2 ^ 32
  else match fmtOf code with
    | some f => f.round sat (val32 x)
    | none => 0

/-- Exact widening of an element code to FP32 (every value of the formats is an FP32 value or NaN). -/
def widen (code x : Nat) : Nat :=
  match fmtOf code with
  | some f => rne32 (f.decode (x % 2 ^ fmtWidth code))
  | none => 0

/-- Element `i` of packed elements of a format code, taken from bytes (R42). -/
def unpack (code : Nat) (bs : List Byte) (i : Nat) : Nat :=
  match fmtWidth code with
  | 32 => le bs (4 * i) 4
  | 16 => le bs (2 * i) 2
  | 8 => le bs i 1
  | 6 => let g := le bs (3 * (i / 4)) 3; bits g (6 * (i % 4) + 5) (6 * (i % 4))
  | _ => let b := le bs (i / 2) 1; if i % 2 = 0 then b % 16 else b / 16

/-- Element codes packed into bytes (R42); the count is a multiple of the packing group. -/
def packElems (code : Nat) (xs : List Nat) : List Byte :=
  let w := fmtWidth code
  let n := xs.foldr (fun x acc => x % 2 ^ w + 2 ^ w * acc) 0
  bytesOf (xs.length * w / 8) n

/-- Formats of one array operation may be paired (R47): both floating point or both integer, from the array column. -/
def pairOk (w a : Nat) : Bool := isArrayFmt w && isArrayFmt a && isInt w == isInt a

/-- A pair that includes BF16 or FP16. -/
def pairWide (w a : Nat) : Bool := w = 1 || w = 2 || a = 1 || a = 2

/-- Both MXFP6 or MXFP4, or both INT4: the pairs of double rate (R47). -/
def pairDouble (w a : Nat) : Bool :=
  ((0x7 ≤ w && w ≤ 0x9) && (0x7 ≤ a && a ≤ 0x9)) || (w = 0xB && a = 0xB)

/-- Products per PE per streamed row, m (R47 and the accumulation chain). -/
def pairM (w a : Nat) (sparse : Bool) : Nat :=
  let d := if pairWide w a then 1 else if pairDouble w a then 2 else 1
  if sparse then 2 * d else d

/-- K positions per PE per streamed row, c. -/
def pairC (w a : Nat) (sparse : Bool) : Nat := if sparse then 2 * pairM w a true else pairM w a false

/-- Positions of a group of four a 2:4 mask selects, lowest first, at most two (R54). -/
def maskSel (m : Nat) : List Nat := ((List.range 4).filter fun i => m.testBit i).take 2

end Sys2Proof.Machine
end

