-- ==== Sys2Proof/Machine/Operands.lean ====
section
/-! DEFINITION. Machine/Operands.lean: the fields of tile instruction words (R107, R118, R119) and of the descriptors in
memory. -/
namespace Sys2Proof.Machine

/-! ## Formats S, M and C (R107) -/

def opOf (w : Word) : Nat := getField w 63 56
def dOf (w : Word) : Nat := getField w 55 51
def aOf (w : Word) : Nat := getField w 50 46
def bOf (w : Word) : Nat := getField w 45 41
/-- Format S sub-function. -/
def fnOf (w : Word) : Nat := getField w 40 36
/-- Format M arrival counter, and the AMO function in its upper four bits (R115). -/
def ctrOf (w : Word) : Nat := getField w 40 35
def amoFnOf (w : Word) : Nat := getField w 40 37
def subOf (w : Word) : Nat := getField w 34 32
/-- Signed 32-bit immediate, sign-extended to 64 bits. -/
def immOf (w : Word) : Word := BitVec.ofInt 64 (sext 32 w.toNat)
/-- Format C fields. -/
def vdOf (w : Word) : Nat := getField w 55 51
def bnOf (w : Word) : Nat := getField w 53 51
def saOf (w : Word) : Nat := getField w 50 44
def sbOf (w : Word) : Nat := getField w 43 37
def scOf (w : Word) : Nat := getField w 36 30
def f1Of (w : Word) : Nat := getField w 29 26
def f2Of (w : Word) : Nat := getField w 25 22
def satOf (w : Word) : Bool := getField w 21 21 = 1
def sxOf (w : Word) : Nat := getField w 19 17
def cfnOf (w : Word) : Nat := getField w 16 12
def ss1Of (w : Word) : Nat := getField w 11 7
def ss2Of (w : Word) : Nat := getField w 6 2
def wOf (w : Word) : Nat := getField w 1 0
/-- Destination counter of CST and CST.MX. -/
def cstCtrOf (w : Word) : Nat := getField w 42 37

/-! ## Exceptions (R121) -/

/-- Tile exception codes. -/
inductive TCode where
  | illegalOp | illegalFmt | illegalOpnd | range | align | reloc | scrRange | scrProt | textRange | role
  | quoinState | underrun | xlate | unitAbsent | fetchUe | archState
deriving DecidableEq, Repr

def TCode.code : TCode → Nat
  | .illegalOp => 0x01 | .illegalFmt => 0x02 | .illegalOpnd => 0x03 | .range => 0x04 | .align => 0x05
  | .reloc => 0x06 | .scrRange => 0x07 | .scrProt => 0x08 | .textRange => 0x09 | .role => 0x0A
  | .quoinState => 0x0B | .underrun => 0x0C | .xlate => 0x0D | .unitAbsent => 0x0E | .fetchUe => 0x0F
  | .archState => 0x10

/-- A tile exception: code, faulting address (0 if none), and for XLATE its cause. -/
structure TExc where
  code : TCode
  addr : Nat
  cause : Nat
deriving DecidableEq, Repr

/-- An exception with an address. -/
def texc (c : TCode) (a : Nat) : TExc := ⟨c, a, 0⟩

/-- Status and DETAIL an exception gives its block (R121, R246, R289). -/
def TExc.status (e : TExc) : Nat × Nat :=
  match e.code with
  | .xlate => if e.cause = 9 then (0x0A, 9) else (0x09, e.cause)
  | .unitAbsent => (0x05, 0x0E)
  | .fetchUe => (0x0A, 0)
  | c => (0x08, c.code)

/-! ## Row feeder descriptor (R133, R146, R150, R154) -/

def rdKind (d : List Byte) : Nat := le d 0 1
def rdFmt (d : List Byte) : Nat := le d 1 1 % 16
def rdSpace (d : List Byte) : Bool := (le d 2 1).testBit 0
def rdScaleSpace (d : List Byte) : Bool := (le d 2 1).testBit 1
def rdArgSpace (d : List Byte) : Bool := (le d 2 1).testBit 2
def rdK (d : List Byte) : Nat := le d 4 4
def rdBase (d : List Byte) : Nat := le d 8 8
def rdRow (d : List Byte) : Nat := le d 16 4
def rdTrow (d : List Byte) : Nat := le d 20 4
def rdScale (d : List Byte) : Nat := le d 24 8
def rdScaleRow (d : List Byte) : Nat := le d 32 4
def rdScaleTrow (d : List Byte) : Nat := le d 36 4
def rdStart (d : List Byte) : Nat := le d 40 4
/-- TABLE, LIST or JOB. -/
def rdArg (d : List Byte) : Nat := le d 48 8
def rdFirst (d : List Byte) : Nat := le d 56 4
def rdLayout (d : List Byte) : Nat := le d 60 1

/-! ## Weight feeder descriptor (R136) -/

def wdKind (d : List Byte) : Nat := le d 0 1
def wdFmt (d : List Byte) : Nat := le d 1 1 % 16
def wdSpace (d : List Byte) : Bool := (le d 2 1).testBit 0
def wdScaleSpace (d : List Byte) : Bool := (le d 2 1).testBit 1
def wdMaskSpace (d : List Byte) : Bool := (le d 2 1).testBit 2
def wdNMajor (d : List Byte) : Bool := (le d 2 1).testBit 3
def wdSparse (d : List Byte) : Bool := (le d 2 1).testBit 4
def wdAct (d : List Byte) : Nat := le d 3 1 % 16
def wdK (d : List Byte) : Nat := le d 4 4
def wdBase (d : List Byte) : Nat := le d 8 8
def wdLine (d : List Byte) : Nat := le d 16 4
def wdN (d : List Byte) : Nat := le d 20 4
def wdScale (d : List Byte) : Nat := le d 24 8
def wdScaleLine (d : List Byte) : Nat := le d 32 4
def wdMask (d : List Byte) : Nat := le d 40 8
def wdMaskLine (d : List Byte) : Nat := le d 48 4

/-- K positions per PE of a weight descriptor's pair (R47). -/
def wdC (d : List Byte) : Nat := pairC (wdFmt d) (wdAct d) (wdSparse d)

/-! ## Drain descriptor (R139) -/

def ddFirst (d : List Byte) : Bool := (le d 0 1).testBit 0
def ddLast (d : List Byte) : Bool := (le d 0 1).testBit 1
def ddAccOut (d : List Byte) : Bool := (le d 0 1).testBit 2
def ddSat (d : List Byte) : Bool := (le d 0 1).testBit 3
def ddScaleEn (d : List Byte) : Bool := (le d 0 1).testBit 4
def ddBiasEn (d : List Byte) : Bool := (le d 0 1).testBit 5
def ddScratch (d : List Byte) : Bool := (le d 0 1).testBit 6
def ddFmt (d : List Byte) : Nat := le d 1 1 % 16
def ddCtr (d : List Byte) : Nat := le d 2 1 % 64
def ddCtrEn (d : List Byte) : Bool := (le d 2 1).testBit 7
def ddN (d : List Byte) : Nat := le d 4 4
def ddOut (d : List Byte) : Nat := le d 8 8
def ddOutRow (d : List Byte) : Nat := le d 16 4
def ddOutTcol (d : List Byte) : Nat := le d 20 4
def ddAcc (d : List Byte) : Nat := le d 24 4
def ddAccRows (d : List Byte) : Nat := le d 28 4
def ddScale (d : List Byte) : Nat := le d 32 8
def ddBias (d : List Byte) : Nat := le d 40 8
def ddOutStart (d : List Byte) : Nat := le d 48 4
/-- The descriptor uses running values (R140). -/
def ddRunning (d : List Byte) : Bool := !(ddFirst d && ddLast d)

/-! ## Riddle job descriptor and expert entries (R155, R156) -/

def jdExperts (d : List Byte) : Nat := le d 0 2
def jdTopk (d : List Byte) : Nat := le d 2 1
def jdScore (d : List Byte) : Nat := le d 3 1 % 4
def jdRenorm (d : List Byte) : Bool := (le d 3 1).testBit 2
def jdBiasEn (d : List Byte) : Bool := (le d 3 1).testBit 3
def jdCtr (d : List Byte) : Nat := le d 4 1 % 64
def jdCtrEn (d : List Byte) : Bool := (le d 4 1).testBit 7
def jdTable (d : List Byte) : Nat := le d 8 8
def jdBias (d : List Byte) : Nat := le d 16 8
def jdCountOut (d : List Byte) : Nat := le d 24 8
def jdOverflow (d : List Byte) : Nat := le d 32 8
def jdOverflowMax (d : List Byte) : Nat := le d 40 4
def jdTableScr (d : List Byte) : Bool := (le d 44 1).testBit 0
def jdCountScr (d : List Byte) : Bool := (le d 44 1).testBit 1
def jdOverflowScr (d : List Byte) : Bool := (le d 44 1).testBit 2
def jdTokenBase (d : List Byte) : Nat := le d 48 4
def exDest (d : List Byte) : Nat := le d 0 8
def exCap (d : List Byte) : Nat := le d 8 4
def exCtr (d : List Byte) : Nat := le d 12 1 % 64
def exCtrEn (d : List Byte) : Bool := (le d 12 1).testBit 7
def exVirtual (d : List Byte) : Bool := (le d 13 1).testBit 0

/-! ## Transfer body (R304) -/

def tbKind (d : List Byte) : Nat := le d 16 1
def tbSrcSpace (d : List Byte) : Nat := le d 17 1 % 4
def tbDstSpace (d : List Byte) : Nat := le d 17 1 / 4 % 4
def tbCheckEn (d : List Byte) : Bool := (le d 18 1).testBit 0
def tbCheckCont (d : List Byte) : Bool := (le d 18 1).testBit 1
def tbProfile (d : List Byte) : Nat := le d 18 1 / 4 % 8
def tbLen (d : List Byte) : Nat := le d 20 4
def tbSrc (d : List Byte) : Nat := le d 24 8
def tbDst (d : List Byte) : Nat := le d 32 8
def tbChkStart (d : List Byte) : Nat := le d 40 8
def tbChkOut (d : List Byte) : Nat := le d 48 8
def tbFill (d : List Byte) : List Byte := (d.drop 56).take 8

end Sys2Proof.Machine
end

