-- ==== Sys2Proof/Machine/Mortar.lean ====
section
/-! DEFINITION. Machine/Mortar.lean: external memory as every agent reaches it: bytes, the home slices, die-local copies,
errors and atomics (R204 to R230). -/
namespace Sys2Proof.Machine

/-! ## Bytes -/

/-- Whether an address lies in a region of open contents. -/
def Region.has (p : Part) (r : Region) (a : Nat) : Bool :=
  match r with
  | .range n => a / 2 ^ 30 = n
  | .die d => p.populated a && p.homeDie a = d

/-- The seed of the newest region that holds an address. -/
def State.seedAt (s : State) (a : Nat) : Option Nat :=
  (s.scrambles.find? fun r => r.1.has s.part a).map Prod.snd

/-- What an unlisted byte reads as: 0 (R233), or an open value in a region whose contents were lost or re-keyed. -/
def State.unlisted (s : State) (a : Nat) : Byte :=
  match s.seedAt a with
  | some k => Config.freeByte k a
  | none => 0

/-- A byte of external memory, below every copy. -/
def State.memByte (s : State) (a : Nat) : Byte := (SMap.find? s.mem a).getD (s.unlisted a)

/-- Write a byte: listed, unless it is what the unlisted byte is known to read as. -/
def State.putByte (s : State) (a : Nat) (b : Byte) : State :=
  { s with mem := if b = 0 && (s.seedAt a).isNone then SMap.erase s.mem a else SMap.insert s.mem a b }

/-- Write consecutive bytes. -/
def State.putBytes (s : State) (a : Nat) : List Byte → State
  | [] => s
  | b :: bs => (s.putByte a b).putBytes (a + 1) bs

/-- Make the contents of a region open from now on: its listed bytes are dropped and a fresh seed covers it. -/
def State.scramble (s : State) (r : Region) : State :=
  { s.drawn with
    mem := s.mem.filter fun p => !r.has s.part p.1
    scrambles := (r, s.freeCtr) :: s.scrambles }

/-- Write-back state: the region of a memory range reads as zero again (R233). -/
def State.zeroMem (s : State) : State := { s with mem := [], scrambles := [] }

/-- Multiples of `g` that a run of `n` bytes at `a` touches. -/
def unitsOf (g a n : Nat) : List Nat :=
  if n = 0 then [] else (List.range ((a + n - 1) / g - a / g + 1)).map fun i => (a / g + i) * g

def linesOf (a n : Nat) : List Nat := unitsOf 128 a n

/-- A unit of eight bytes is covered whole by a run. -/
def coversUnit (u a n : Nat) : Bool := a ≤ u && u + 8 ≤ a + n

/-- Bytes of the line at `l`, as its home sees them. -/
def State.lineBytes (s : State) (l : Nat) : List Byte := (List.range 128).map fun i => s.memByte (l + i)

/-- The mask of the bytes of the line at `l` in a run, by offset. -/
def byteMask (l a n : Nat) : Nat :=
  let lo := max a l - l
  let hi := min (a + n) (l + 128) - l
  2 ^ hi - 2 ^ lo

/-- Every byte of a line. -/
def fullMask : Nat := 2 ^ 128 - 1

/-- The 32 B sectors that the bytes of a mask lie in, as a 4-bit mask. -/
def sectorsOf (m : Nat) : Nat :=
  ((List.range 4).map fun i => if m / 2 ^ (32 * i) % 2 ^ 32 = 0 then 0 else 2 ^ i).sum

/-- The bytes of the sectors of a 4-bit mask. -/
def sectorBytes (sm : Nat) : Nat :=
  ((List.range 4).map fun i => if sm.testBit i then (2 ^ 32 - 1) * 2 ^ (32 * i) else 0).sum

/-! ## Controller errors (R228, R229) -/

/-- An uncorrectable unit of a controller is met (R229). -/
def State.meetMemUe (s : State) (u : Nat) (scrub : Bool) : State :=
  let d := s.part.homeDie u
  let s := s.bump F.MEM_ECC.UE d 1
  let s := if scrub then s.bump F.MEM_ECC.SCRUB_UE d 1 else s
  let s := if s.on F.MEM_UE_ADDR.VALID d then s
    else ((s.raise F.MEM_UE_ADDR.VALID d).setFld F.MEM_UE_ADDR.ADDR d (u / 8)).setFld F.MEM_UE_ADDR.SCRUB d (bitN scrub)
  (s.raise F.MEM_EVENT.UE d).reportSelf 0x0303 2 (uMem (s.part.controller u)) u (bitN scrub)

/-- A single-bit error of a controller is corrected; more than 1,024 in a course are a storm (R228). -/
def State.fixMemCe (s : State) (u : Nat) : State :=
  let d := s.part.homeDie u
  let c := s.part.controller u
  let n := SMap.get s.ceCourse 0 c + 1
  let s := { s with memCe := s.memCe.filter (· ≠ u), ceCourse := SMap.insert s.ceCourse c n }
  let s := ((s.bump F.MEM_ECC.CE d 1).raise F.MEM_EVENT.CE d).bump F.ERR_CE.COUNT d 1
  if n = 1025 then (s.raise F.MEM_EVENT.CE_STORM d).reportSelf 0x0304 1 (uMem c) 0 n else s

/-- A controller reads units of a line: an error its stack's on-die ECC corrects is counted, a single-bit one corrected, an
uncorrectable one reported. The second component lists the uncorrectable units (R228, R229). -/
def State.ctlUnits (s : State) (us : List Nat) : State × List Nat :=
  us.foldl (fun (s, bad) u =>
    let s := if s.memOde.contains u then s.bump F.MEM_ECC.ODE_CE (s.part.homeDie u) 1 else s
    if s.memUe.contains u then (s.meetMemUe u false, u :: bad)
    else if s.memCe.contains u then (s.fixMemCe u, bad)
    else (s, bad)) (s, [])

/-- A controller reads the sectors `sm` of the line at `l`. -/
def State.ctlRead (s : State) (l sm : Nat) : State × List Nat :=
  (s.bump F.MEM_RD_BYTES.BYTES (s.part.homeDie l) (32 * popcount 4 sm)).ctlUnits
    ((unitsOf 8 l 128).filter fun u => sm.testBit ((u - l) / 32))

/-! ## Write-combining buffers (R227) -/

/-- A line leaves its buffer: units with a valid byte are written, those of them not wholly valid are read first. -/
def State.wcLeave (s : State) (l : Nat) : State :=
  let m := ((s.wc.find? fun e => e.1 = l).map Prod.snd).getD 0
  let unit (i : Nat) : Nat := m / 2 ^ (8 * i) % 256
  let n := ((List.range 16).filter fun i => unit i ≠ 0).length
  let part := ((List.range 16).filter fun i => unit i ≠ 0 && unit i ≠ 255).length
  let d := s.part.homeDie l
  ({ s with wc := s.wc.filter fun e => e.1 ≠ l }.bump F.MEM_RD_BYTES.BYTES d (8 * part)).bump F.MEM_WR_BYTES.BYTES d (8 * n)

/-- Entries of a controller's buffer. -/
def wcSize (c : Nat) : Nat := if c < 16 then 128 else 32

/-- Bytes of a line, by mask, enter its controller's buffer, merging with those held; a full line leaves at once, and while
the buffer is over 75 % full its oldest. -/
def State.wcPut (s : State) (l m : Nat) : State :=
  let c := s.part.controller l
  let s := if s.wc.any fun e => e.1 = l then
      { s with wc := s.wc.map fun e => if e.1 = l then (l, e.2 ||| m) else e }
    else { s with wc := s.wc ++ [(l, m)] }
  if s.wc.contains (l, fullMask) then s.wcLeave l
  else
    let mine := s.wc.filter fun e => s.part.controller e.1 = c
    match mine with
    | old :: _ => if 3 * wcSize c < 4 * mine.length then s.wcLeave old.1 else s
    | [] => s

/-- Every entry drains. -/
def State.wcDrainAll (s : State) : State := s.wc.foldl (fun s e => s.wcLeave e.1) s

/-! ## Lines of the slices (R204, R208) -/

/-- Set of a line in its slice (log entry 85). -/
def setOf (l : Nat) : Nat := l / 128 % 32768

/-- Tree pseudo-LRU bits of 16 ways after a use of way `w`: node `2^k + p` of prefix `p` points away from it. -/
def plruTouch (t w : Nat) : Nat :=
  (List.range 4).foldl (fun t k =>
    let node := 2 ^ k + w / 2 ^ (4 - k)
    let away := 1 - w / 2 ^ (3 - k) % 2
    t - t / 2 ^ node % 2 * 2 ^ node + away * 2 ^ node) t

/-- The way the tree points to among those of a mask. -/
def plruVictim (t mask : Nat) : Option Nat :=
  if mask % 2 ^ 16 = 0 then none
  else some ((List.range 4).foldl (fun p k =>
    let half := 2 ^ (3 - k)
    let side (b : Nat) : Nat := 2 * p + b
    let has (b : Nat) : Bool := mask / 2 ^ (side b * half) % 2 ^ half ≠ 0
    let b := t / 2 ^ (2 ^ k + p) % 2
    if has b then side b else side (1 - b)) 0)

/-- Index of a set's bits. -/
def plruKey (d st : Nat) : Nat := d * 32768 + st

/-- A line of the slice is used. -/
def State.useLine (s : State) (l : Nat) (m : MLine) : State :=
  let k := plruKey (s.part.homeDie l) (setOf l)
  { s with plru := SMap.insert s.plru k (plruTouch (SMap.get s.plru 0 k) m.way) }

/-- Sectors of a line in its slice become dirty; the first time, what memory still holds is kept beside them. -/
def State.dirtyLine (s : State) (l sm : Nat) : State :=
  match SMap.find? s.lines l with
  | some m =>
    let b := if m.dirty = 0 then s.lineBytes l else m.below
    { s with lines := SMap.insert s.lines l ⟨m.way, m.valid ||| sm, m.dirty ||| sm, b⟩ }
  | none => s

/-- Dirty lines of the slices. -/
def State.dirtyLines (s : State) : List Nat := (s.lines.filter fun p => p.2.dirty ≠ 0).map Prod.fst

/-- A line is dirty in its slice. -/
def State.lineDirty (s : State) (l : Nat) : Bool := ((SMap.find? s.lines l).map MLine.dirty).getD 0 ≠ 0

/-! ## The directory and the core caches (R206, R207, R323) -/

/-- No cache of G-die `g` holds a block any more. -/
def State.dropBlock (s : State) (g b : Nat) : State :=
  { s with
    l3 := s.l3.filter fun p => p ≠ (g, b)
    cacheUe := s.cacheUe.filter fun p => p ≠ (g, b)
    cacheCe := s.cacheCe.filter fun p => p ≠ (g, b)
    cores := s.cores.map fun p => if p.1 / 48 = g then (p.1, { p.2 with l2 := p.2.l2.filter (· ≠ b) }) else p }

/-- What the caches held modified of a line goes to its home slice, which then holds it dirty, or to memory where it does
not hold the line. -/
def State.takeLine (s : State) (l : Nat) : State :=
  match SMap.find? s.gdir l with
  | some e =>
    if e.owner.isNone then s
    else
      let s := { s with gdir := SMap.insert s.gdir l { e with owner := none, below := [] } }
      match SMap.find? s.lines l with
      | some m =>
        { s with
          lost := s.lost.filter (· ≠ l)
          lines := SMap.insert s.lines l ⟨m.way, 15, 15, if m.dirty = 0 then e.below else m.below⟩ }
      | none => s.wcPut l fullMask
  | none => s

/-- Correctable errors of a cache block are counted in the G-die's collector (R323). -/
def State.meetBlock (s : State) (g b : Nat) : State :=
  let s := if s.cacheCe.contains (g, b) then
      { s with cacheCe := s.cacheCe.filter fun p => p ≠ (g, b) }.bump F.ERR_CE.COUNT (4 + g) 1
    else s
  if s.cacheUe.contains (g, b) then
    let l := b / 128 * 128
    let s := s.dropBlock g b
    match SMap.find? s.gdir l with
    | some e =>
      if e.owner = some g then
        -- the modified data is lost and the home keeps its older contents
        let s := { s with gdir := SMap.insert s.gdir l { e with owner := none, below := [] } }
        (s.putBytes l e.below).reportSelf 0x0601 2 (uCache g) b 0
      else s
    | none => s
  else s

/-- Errors of every cached block of a line are met as it is recalled. -/
def State.meetBlocks (s : State) (l : Nat) : State :=
  ([0, 1].flatMap fun g => [(g, l), (g, l + 64)]).foldl (fun s p => s.meetBlock p.1 p.2) s

/-- Recall of modified data (R206, R207). -/
def State.recallData (s : State) (l : Nat) : State :=
  match SMap.find? s.gdir l with
  | some e => if e.owner.isSome then (s.meetBlocks l).takeLine l else s
  | none => s

/-- Every G-die copy of a line is invalidated, modified data taken first. -/
def State.recall (s : State) (l : Nat) : State :=
  match SMap.find? s.gdir l with
  | some _ =>
    let s := (s.meetBlocks l).takeLine l
    let s := [0, 1].foldl (fun s g => (s.dropBlock g l).dropBlock g (l + 64)) s
    { s with gdir := SMap.erase s.gdir l }
  | none => s

/-! ## Slice errors (R216) -/

/-- Count a line made LOST in the slice of die `d`. -/
def State.countLost (s : State) (d l : Nat) : State :=
  let s := s.bump F.MTC_ECC.UE_LOST d 1
  let s := if s.on F.MTC_LOST_ADDR.VALID d then s
    else (s.raise F.MTC_LOST_ADDR.VALID d).setFld F.MTC_LOST_ADDR.ADDR d (l / 128)
  (s.raise F.MTC_EVENT.LOST d).reportSelf 0x0301 2 (uSlice d) l 0

/-- A dirty line's data is lost: it stays in its way as LOST, and memory keeps its older contents. -/
def State.loseLine (s : State) (l : Nat) : State :=
  let s := match SMap.find? s.lines l with
    | some m =>
      let s := { s with lines := SMap.insert s.lines l { m with valid := 0, dirty := 0, below := [] } }
      match SMap.find? s.gdir l with
      | some e => if e.owner.isSome then { s with gdir := SMap.insert s.gdir l { e with below := m.below } }
        else s.putBytes l m.below
      | none => s.putBytes l m.below
    | none => s
  { s with lost := l :: s.lost }.countLost (s.part.homeDie l) l

/-- Errors of a slice's line are met: a clean line is dropped, a dirty one lost, a single-bit error corrected. -/
def State.meetLine (s : State) (l : Nat) : State :=
  let d := s.part.homeDie l
  if s.lineUe.contains l then
    let s := { s with lineUe := s.lineUe.filter (· ≠ l) }
    if s.lineDirty l then s.loseLine l
    else { s with lines := SMap.erase s.lines l }.bump F.MTC_ECC.UE_CLEAN d 1
  else if s.lineCe.contains l then
    ({ s with lineCe := s.lineCe.filter (· ≠ l) }.bump F.MTC_ECC.CE d 1).raise F.MTC_EVENT.CE d
      |>.bump F.ERR_CE.COUNT d 1
  else s

/-- An error of a die-local copy or its mask is met: its data is lost. -/
def State.meetCopy (s : State) (d l : Nat) : State :=
  if s.copyUe.contains (d, l) then
    let lose (c : LCopy) : LCopy := if c.die = d && c.line = l then { c with gone := true } else c
    { s with copyUe := s.copyUe.filter fun p => p ≠ (d, l), copies := s.copies.map lose }.countLost d l
  else s

/-- A slice is lost (R216, R232, R428): memory keeps what it held of the slice's dirty lines, its lines and their errors are
gone, and a memory system in RUN enters RECOVERY, its write-combining buffers drained. -/
def State.sliceGone (s : State) (d : Nat) : State :=
  let mine (l : Nat) : Bool := s.part.homeDie l = d
  let s := (s.lines.filter fun p => mine p.1 && p.2.dirty ≠ 0).foldl (fun (s : State) p =>
    match SMap.find? s.gdir p.1 with
    | some e => if e.owner.isSome then s else s.putBytes p.1 p.2.below
    | none => s.putBytes p.1 p.2.below) s
  let s : State := { s with
    tagUe := s.tagUe.filter (· ≠ d)
    lines := s.lines.filter fun p => !mine p.1
    lineUe := s.lineUe.filter fun l => !mine l
    lineCe := s.lineCe.filter fun l => !mine l
    lost := s.lost.filter fun l => !mine l }
  if s.fld F.MEM_MODE.MODE d = 2 || s.fld F.MEM_MODE.MODE d = 3 then
    let s := if s.fld F.MEM_MODE.MODE d = 2 then s.wcDrainAll else s
    (List.range s.part.dies).foldl (fun s e =>
      (s.setFld F.MEM_MODE.MODE e 3).setFld F.MEM_MODE.LOST e (s.fld F.MEM_MODE.LOST e ||| 2 ^ d)) s
  else s

/-- A tag or directory entry of a slice is uncorrectable: the slice is lost and the accelerator halts (R216). -/
def State.loseSlice (s : State) (d : Nat) : State := (s.sliceGone d).reportSelf 0x0302 3 (uSlice d) 0 0

/-- The slice of a die is lost (R232, R234). -/
def State.sliceLost (s : State) (d : Nat) : Bool := (s.fld F.MEM_MODE.LOST d).testBit d

/-! ## Lookups (R204, R208, R216, R234) -/

/-- Write a dirty line back: its dirty sectors go to the controller. A line whose data is uncorrectable becomes LOST
instead. -/
def State.writeBack (s : State) (l : Nat) : State :=
  let s := if s.lineUe.contains l then s.meetLine l else s
  match SMap.find? s.lines l with
  | some m =>
    if m.dirty = 0 then s
    else { s with lines := SMap.insert s.lines l { m with dirty := 0, below := [] } }.wcPut l (sectorBytes m.dirty)
  | none => s

/-- A line leaves its slice: core copies are recalled, dirty data is written back; a LOST line stays in its way. -/
def State.evictLine (s : State) (l : Nat) : State :=
  let s := (s.recall l).writeBack l
  if s.lost.contains l then s
  else { s with
    lines := SMap.erase s.lines l, lineUe := s.lineUe.filter (· ≠ l), lineCe := s.lineCe.filter (· ≠ l) }

/-- The way a miss of owner tag `tag` allocates: a free one of its mask, else the one pseudo-LRU points to among those that
hold no LOST line. -/
def State.victimWay (s : State) (tag l : Nat) : Option Nat :=
  let d := s.part.homeDie l
  let mask := s.fld F.MTC_WAYMASK.MASK (9 * d + tag)
  let here := s.lines.filter fun p => s.part.homeDie p.1 = d && setOf p.1 = setOf l
  match (List.range 16).find? fun w => mask.testBit w && !here.any fun p => p.2.way = w with
  | some w => some w
  | none =>
    plruVictim (SMap.get s.plru 0 (plruKey d (setOf l)))
      (mask - ((here.filter fun p => s.lost.contains p.1 && mask.testBit p.2.way).map fun p => 2 ^ p.2.way).sum)

/-- Put a line with sectors `sm` into a way of its slice, evicting what the way holds. -/
def State.allocLine (s : State) (l w sm : Nat) : State :=
  let d := s.part.homeDie l
  let s := match List.find? (fun p => s.part.homeDie p.1 = d && setOf p.1 = setOf l && p.2.way = w) s.lines with
    | some (old, _) => s.evictLine old
    | none => s
  { s with lines := SMap.insert s.lines l ⟨w, sm, 0, []⟩ }.useLine l ⟨w, sm, 0, []⟩

/-- Count a lookup. -/
def State.countLook (s : State) (d : Nat) (hit : Bool) : State :=
  if hit then s.bump F.MTC_LOOKUP.HITS d 1 else s.bump F.MTC_LOOKUP.MISSES d 1

/-- One lookup of the line at `l` in its home slice for an access that covers the sectors `sm`; `wm` masks the bytes it
writes. A miss reads the sectors it covers, unless it writes the whole line, and allocates in a way of its agent's mask;
without one, and on a lost slice, reads are served by memory and writes pass to the write-combining buffer. A line whose
sectors meet an uncorrectable error is not allocated. The second component lists the uncorrectable units. -/
def State.lookup (s : State) (tag l sm wm : Nat) : State × List Nat :=
  let d := s.part.homeDie l
  let s := if s.tagUe.contains d then s.loseSlice d else s
  if s.sliceLost d then (if wm = 0 then s.ctlRead l sm else (s.wcPut l wm, []))
  else
    let s := s.meetLine l
    let whole := decide (wm = fullMask)
    let put (s : State) : State := if wm = 0 then s else s.dirtyLine l sm
    match SMap.find? s.lines l with
    | some m =>
      let s := s.useLine l m
      if s.lost.contains l then
        let s := s.countLook d true
        (if whole then { s with lost := s.lost.filter (· ≠ l) }.dirtyLine l 15 else s, [])
      else
        let need := sm - (sm &&& m.valid)
        if whole || need = 0 then (put (s.countLook d true), [])
        else
          let (s, bad) := (s.countLook d false).ctlRead l need
          if bad.isEmpty then (put { s with lines := SMap.insert s.lines l { m with valid := m.valid ||| sm } }, [])
          else (if wm = 0 then s else s.wcPut l wm, bad)
    | none =>
      let s := s.countLook d false
      match s.victimWay tag l with
      | none => if wm = 0 then s.ctlRead l sm else (s.wcPut l wm, [])
      | some w =>
        let (s, bad) := if whole then (s, []) else s.ctlRead l sm
        if bad.isEmpty then (put (s.allocLine l w (if whole then 15 else sm)), [])
        else (if wm = 0 then s else s.wcPut l wm, bad)

/-- Units of a LOST line, and of a LOST copy of the agent's die, cannot be read (R216). -/
def State.goneFor (s : State) (g : Agent) (u : Nat) : Bool :=
  let l := u / 128 * 128
  s.lost.contains l || s.copies.any fun c => c.line = l && c.gone && g.die = some c.die

/-! ## What agents see (R188, R191, R193, R214) -/

/-- The die-local copy of a line on a die (R213). -/
def State.copyOf (s : State) (d l : Nat) : Option LCopy := s.copies.find? fun c => c.die = d && c.line = l

/-- A store on its way that an agent of die `d` already sees supplies a byte. -/
def Packet.shows (p : Packet) (d : Option Nat) (a : Nat) : Bool :=
  p.toMem && p.dst ≤ a && a < p.dst + p.data.length && !p.done.contains (a / 8) && (match d with
    | some d => p.seen.contains d
    | none => false)

/-- A byte as an agent of die `d` sees it (R191, R214): open where accesses were ill-scoped; else a store its die sees
already, the copy's modified byte, or the home line's. -/
def State.viewByte (s : State) (d : Option Nat) (a : Nat) : Byte :=
  match SMap.find? s.ill a with
  | some k => Config.freeByte k a
  | none => match s.packets.reverse.find? fun p => p.shows d a with
    | some p => p.data.getD (a - p.dst) 0
    | none => match d.bind fun d => s.copyOf d (a / 128 * 128) with
      | some c => (SMap.find? c.bytes (a % 128)).getD (s.memByte a)
      | none => s.memByte a

/-- An access by an agent to a byte that another die's copy has modified is ill-scoped (R191). -/
def State.illScoped (s : State) (d : Option Nat) (a : Nat) : Bool :=
  s.copies.any fun c => c.line = a / 128 * 128 && d ≠ some c.die && (SMap.find? c.bytes (a % 128)).isSome

/-- The bytes of a run that are ill-scoped for an agent become open; with `wr` the others become defined. -/
def State.markIll (s : State) (d : Option Nat) (a n : Nat) (wr : Bool) : State :=
  let as := (List.range n).map (a + ·)
  let s := if wr then { s with ill := s.ill.filter fun p => !(a ≤ p.1 && p.1 < a + n) } else s
  if as.any (s.illScoped d) then
    { s.drawn with ill := (as.filter (s.illScoped d)).foldl (fun m x => SMap.insert m x s.freeCtr) s.ill }
  else s

/-! ## Reads and writes at the home slice -/

/-- Result of a read: its bytes, zeros where uncorrectable, whether any unit was, and the state after. -/
structure Got where
  data : List Byte
  ue : Bool
  st : State

/-- A read of `n` bytes performed at the home slices, as its agent sees them (R205, R207, R214, R216, R229). -/
def State.memRead (s : State) (g : Agent) (a n : Nat) : Got :=
  let (s, bad) := (linesOf a n).foldl (fun ((s, bad) : State × List Nat) l =>
    let s := s.recallData l
    let s := match g.die with
      | some d => s.meetCopy d l
      | none => s
    let (s, b) := s.lookup g.tag l (sectorsOf (byteMask l a n)) 0
    (s, b ++ bad)) (s, [])
  let bad := bad ++ (unitsOf 8 a n).filter (s.goneFor g)
  let s := s.markIll g.die a n false
  let hit (i : Nat) : Bool := bad.contains ((a + i) / 8 * 8)
  ⟨(List.range n).map fun i => if hit i then 0 else s.viewByte g.die (a + i), (List.range n).any hit, s⟩

/-- Apply bytes written by an agent of die `d` to its die-local copies (R214); a write of the whole line ends a copy's LOST
state. -/
def State.writeCopies (s : State) (d : Option Nat) (a : Nat) (bs : List Byte) : State :=
  match d with
  | none => s
  | some d =>
    { s with copies := s.copies.map fun c =>
        if c.die = d then
          { c with
            gone := c.gone && !(a ≤ c.line && c.line + 128 ≤ a + bs.length)
            bytes := bs.zipIdx.foldl (fun m (b, i) =>
              if (a + i) / 128 * 128 = c.line then SMap.insert m ((a + i) % 128) b else m) c.bytes }
        else c }

/-- LR reservations on the 64 B blocks a write touches end (R327). -/
def State.breakResv (s : State) (a n : Nat) : State :=
  { s with cores := s.cores.map fun p => match p.2.resv with
    | some b => if b < a + n && a < b + 64 then (p.1, { p.2 with resv := none }) else p
    | none => p }

/-- Put bytes into their home lines; a LOST line takes none (R216). -/
def State.putHome (s : State) (a : Nat) (bs : List Byte) : State :=
  if (linesOf a bs.length).any s.lost.contains then
    bs.zipIdx.foldl (fun s p => if s.lost.contains ((a + p.2) / 128 * 128) then s else s.putByte (a + p.2) p.1) s
  else s.putBytes a bs

/-- The slices take a write of the bytes of a mask of the line at `l`, core copies recalled first (R204, R207, R216, R230):
a whole unit clears an uncorrectable error of memory, a partial one reports it. -/
def State.takeWrite (s : State) (tag l wm : Nat) : State :=
  let (s, bad) := (s.recall l).lookup tag l (sectorsOf wm) wm
  let unit (u : Nat) : Nat := wm / 2 ^ (u - l) % 256
  let whole := (unitsOf 8 l 128).filter fun u => unit u = 255
  let s := { s with
    memUe := s.memUe.filter fun u => !whole.contains u
    memCe := s.memCe.filter fun u => !whole.contains u }
  ((unitsOf 8 l 128).filter fun u => unit u ≠ 0 && s.memUe.contains u && !bad.contains u).foldl
    (fun s u => s.meetMemUe u false) s

/-- A write performed at the home slices by an agent (R204, R207, R214, R216, R230). -/
def State.memWrite (s : State) (g : Agent) (a : Nat) (bs : List Byte) : State :=
  let n := bs.length
  let s := (linesOf a n).foldl (fun s l => s.takeWrite g.tag l (byteMask l a n)) s
  (((s.putHome a bs).writeCopies g.die a bs).breakResv a n).markIll g.die a n true

/-! ## Atomics (R115, R210, R211) -/

/-- Operand width in bytes of an AMO function; none for the reserved codes. -/
def amoSize : Nat → Option Nat
  | 0 | 2 | 8 | 10 => some 4
  | 1 | 3 | 4 | 5 | 6 | 7 | 9 | 11 => some 8
  | _ => none

/-- Value stored by an AMO function from the old value, the operand and the compare value (R115). -/
def amoResult (fn old x cmp : Nat) : Nat :=
  match fn with
  | 0 => (old + x) % 2 ^ 32
  | 1 => (old + x) % 2 ^ 64
  | 2 => fadd old x
  | 3 => if sext 64 old ≤ sext 64 x then old else x
  | 4 => if sext 64 old ≤ sext 64 x then x else old
  | 5 => old &&& x
  | 6 => old ||| x
  | 7 => old ^^^ x
  | 8 => x % 2 ^ 32
  | 9 => x
  | 10 => if old = cmp % 2 ^ 32 then x % 2 ^ 32 else old
  | 11 => if old = cmp then x else old
  | _ => old

/-- Share of die-local copies a partition may hold on a die: 512 each, and 512 for blocks of no partition (R213). -/
def copyShare : Nat := 512

/-- Copies of a partition's share on a die. -/
def State.sharedCopies (s : State) (d p : Nat) : Nat :=
  (s.copies.filter fun c => c.die = d && c.part = p).length

/-- A DIE-scope AMO on die `d` can proceed: the line has a copy there, or the partition's share has room (R213). -/
def State.copyRoom (s : State) (d p l : Nat) : Bool :=
  (s.copyOf d l).isSome || s.sharedCopies d p < copyShare

/-- Result of an atomic: the old value, whether the operand could not be read, the state after. -/
structure AmoGot where
  old : Nat
  ue : Bool
  st : State

/-- An atomic reads its operand, with `line` the whole line: an uncorrectable error anywhere in its line, or a LOST line or
copy, stops it (R211). -/
def State.amoRead (s : State) (g : Agent) (a n : Nat) (line : Bool) : Got :=
  let l := a / 128 * 128
  let s := s.recall l
  let s := match g.die with
    | some d => s.meetCopy d l
    | none => s
  let (s, bad) := s.lookup g.tag l (if line then 15 else sectorsOf (byteMask l a n)) 0
  let held := ((SMap.find? s.lines l).map MLine.valid).getD 0
  let more := (unitsOf 8 l 128).filter fun u => s.memUe.contains u && !bad.contains u && !held.testBit ((u - l) / 32)
  let s := (more.foldl (fun s u => s.meetMemUe u false) s).markIll g.die a n false
  ⟨(List.range n).map fun i => s.viewByte g.die (a + i), !bad.isEmpty || !more.isEmpty || s.goneFor g a, s⟩

/-- A DIE-scope AMO by an agent of a die on the die-local copy, created at need from the whole line (R210, R213); `p` is the
share of the copy. -/
def State.amoDie (s : State) (g : Agent) (d p a fn x cmp size : Nat) : AmoGot :=
  let l := a / 128 * 128
  let r := s.amoRead g a size (s.copyOf d l).isNone
  if r.ue then ⟨0, true, r.st⟩
  else
    let old := ofBytes r.data
    let s := match r.st.copyOf d l with
      | some _ => r.st
      | none => { r.st with copies := r.st.copies ++ [LCopy.mk d l p [] false] }
    let s := s.bump F.MTC_AMO.DIE d 1
    ⟨old, false, s.writeCopies (some d) a (bytesOf size (amoResult fn old x cmp))⟩

/-- A PACKAGE- or SYSTEM-scope AMO at the home slice, or a core AMO (R210, R214): `f` gives the value stored. -/
def State.amoHome (s : State) (g : Agent) (a size : Nat) (f : Nat → Nat) : AmoGot :=
  let r := s.amoRead g a size false
  if r.ue then ⟨0, true, r.st⟩
  else
    let old := ofBytes r.data
    ⟨old, false, (r.st.bump F.MTC_AMO.HOME (s.part.homeDie a) 1).memWrite g a (bytesOf size (f old))⟩

/-- Bytes of one line, by offset, written into the home line as one write of owner tag `tag`. -/
def State.mergeLine (s : State) (tag l : Nat) (bs : SMap Byte) : State :=
  let wm := (bs.map fun b => 2 ^ b.1).sum
  let s := s.takeWrite tag l wm
  let s := if s.lost.contains l then s else bs.foldl (fun s b => s.putByte (l + b.1) b.2) s
  bs.foldl (fun s b => s.breakResv (l + b.1) 1) s

/-- Publish the copies of die `d` that belong to partition `p` (R215): each writes its modified bytes into the home line
as one write and is dropped; a LOST one is never written. -/
def State.publish (s : State) (d p : Nat) : State :=
  let cs := s.copies.filter fun c => c.die = d && c.part = p
  let s := cs.foldl (fun s c => s.meetCopy d c.line) s
  let cs := s.copies.filter fun c => c.die = d && c.part = p
  let s := { s with copies := s.copies.filter fun c => !(c.die = d && c.part = p) }
  cs.foldl (fun s c => if c.gone then s else s.mergeLine p c.line c.bytes) s

end Sys2Proof.Machine
end

