-- ==== Sys2Proof/Machine/Xlate.lean ====
section
/-! DEFINITION. Machine/Xlate.lean: address translation for the accelerator, range ownership, the translation caches and
the fault latch (R239 to R253, R393, R463). -/
namespace Sys2Proof.Machine

/-- Kind of an access (XLT_FAULT.ACCESS). -/
inductive Acs where
  | read | write | atomic | fetch
deriving DecidableEq, Repr

def Acs.code : Acs → Nat
  | .read => 0 | .write => 1 | .atomic => 2 | .fetch => 3

/-- Causes of translation faults, by code (R463). -/
def xInvalid : Nat := 1
def xReserved : Nat := 2
def xLeafSize : Nat := 3
def xMisaligned : Nat := 4
def xRights : Nat := 5
def xAttr : Nat := 6
def xPhysRange : Nat := 7
def xRangeOwner : Nat := 8
def xWalkUe : Nat := 9
def xVaRange : Nat := 10
def xNoContext : Nat := 11

/-- A translation fault: its cause and the level of the PTE that caused it. -/
structure XFault where
  cause : Nat
  level : Nat
deriving DecidableEq, Repr

/-! ## Range ownership (R386, R393) -/

/-- Partition states (R387). -/
def pFree : Nat := 0
def pActive : Nat := 1
def pLocked : Nat := 2
def pClosing : Nat := 3

def State.partState (s : State) (p : Nat) : Nat := if p = 8 then pActive else s.fld F.SEC_PART.STATE p

/-- The home slice admits an access by an agent of owner tag `tag` to an address (R393). -/
def State.rangeOk (s : State) (tag a : Nat) (acc : Acs) : Bool :=
  let n := a / 2 ^ 30
  let owner := s.fld F.SEC_RANGE.OWNER n
  if s.on F.SEC_RANGE.PENDING n then false
  else if owner = 8 then
    tag = 8 || ((s.fld F.SEC_RANGE.SHARE n).testBit tag && (acc = .read || acc = .fetch))
  else if tag = owner then s.partState owner = pActive || s.partState owner = pLocked
  else tag = 8 && s.partState owner = pActive

/-! ## The walk (R242 to R246) -/

/-- A PTE is a leaf. -/
def pteLeaf (p : Nat) : Bool := bits p 3 1 ≠ 0

/-- Rights and A and D bits a leaf needs for an access (R244). -/
def pteRights (p : Nat) : Acs → Bool
  | .read | .fetch => p.testBit 1 && p.testBit 6
  | .write => p.testBit 1 && p.testBit 2 && p.testBit 6 && p.testBit 7
  | .atomic => p.testBit 1 && p.testBit 2 && p.testBit 6 && p.testBit 7 && p.testBit 8

/-- Reserved bits or a reserved encoding (R244). -/
def pteReserved (p : Nat) : Bool :=
  p.testBit 63 || bits p 60 54 ≠ 0 || (!p.testBit 1 && p.testBit 2) ||
    (!pteLeaf p && (bits p 63 54 ≠ 0 || bits p 7 6 ≠ 0 || p.testBit 4))

/-- The cause a PTE's contents give at a level, the lowest-numbered that applies (R463); 0 for none. -/
def pteCause (p level : Nat) (acc : Acs) : Nat :=
  if !p.testBit 0 then xInvalid
  else if pteReserved p then xReserved
  else if (pteLeaf p && level = 4) || (!pteLeaf p && level = 2) then xLeafSize
  else if pteLeaf p then
    if bits (bits p 53 10) (if level = 3 then 26 else 17) 0 ≠ 0 then xMisaligned
    else if !pteRights p acc then xRights
    else if 2 ≤ bits p 62 61 then xAttr else 0
  else 0

/-- Virtual page number of a level. -/
def vpn (cva level : Nat) : Nat := cva / 2 ^ (12 + 9 * level) % 512

/-- The page a cached entry of a level serves. -/
def vtag (cva level : Nat) : Nat := cva / 2 ^ (12 + 9 * level)

/-- Physical address a leaf of a level gives. -/
def leafPa (p cva level : Nat) : Nat := bits p 53 10 * 4096 + cva % 2 ^ (12 + 9 * level)

/-- Result of a translation: an address or a fault, and the state after. -/
structure Xlated where
  res : Except XFault Nat
  st : State

/-- Die whose translation unit it is; the IO-die unit is number 4. -/
def unitView (u : Nat) : Option Nat := if u < 4 then some u else none

/-- Index of the pseudo-LRU bits of the set that an entry's page falls in, of 128 sets in each unit (log entry 86). -/
def xKey (unit vpn : Nat) : Nat := unit * 128 + vpn % 128

/-- A leaf is used. -/
def State.useX (s : State) (e : XEntry) : State :=
  if e.level = 4 then s
  else
    let k := xKey e.unit e.vpn
    { s with xplru := SMap.insert s.xplru k (plruTouch (SMap.get s.xplru 0 k) e.way) }

/-- Add an entry to a unit's cache (R248): one of 64 level-4 pointers, of which the oldest goes, or a leaf of a 16-way set,
in a free way or the one pseudo-LRU points to. -/
def State.cacheX (s : State) (e : XEntry) : State :=
  if e.level = 4 then
    let same := s.xlt.filter fun x => x.unit = e.unit && x.level = 4
    let kept := match same.head? with
      | some o => if 64 ≤ same.length then s.xlt.filter (fun x => x ≠ o) else s.xlt
      | none => s.xlt
    { s with xlt := kept ++ [e] }
  else
    let here := s.xlt.filter fun x => x.level ≠ 4 && xKey x.unit x.vpn = xKey e.unit e.vpn
    let w := match (List.range 16).find? fun w => !here.any fun x => x.way = w with
      | some w => w
      | none => (plruVictim (SMap.get s.xplru 0 (xKey e.unit e.vpn)) 0xFFFF).getD 0
    let gone (x : XEntry) : Bool := x.level ≠ 4 && xKey x.unit x.vpn = xKey e.unit e.vpn && x.way = w
    { s with xlt := s.xlt.filter (fun x => !gone x) ++ [{ e with way := w }] }.useX { e with way := w }

/-- One step of the walk from the table at `table`: at most `fuel` PTEs, levels 4, 3, 2. Level-4 pointers read are
returned for the cache. -/
def State.walk (s : State) (unit ctx tag cva : Nat) (acc : Acs) : Nat → Nat → Nat → Option Word → Xlated
  | 0, level, _, _ => ⟨.error ⟨xLeafSize, level⟩, s⟩
  | fuel + 1, level, table, ptr =>
    let a := table + 8 * vpn cva level
    if !s.part.populatedRun a 8 then ⟨.error ⟨xPhysRange, level⟩, s⟩
    else if !s.rangeOk tag a .read then ⟨.error ⟨xRangeOwner, level⟩, s⟩
    else
      let g := s.memRead ⟨unitView unit, tag⟩ a 8
      if g.ue then ⟨.error ⟨xWalkUe, level⟩, g.st⟩
      else
        let p := ofBytes g.data
        let c := pteCause p level acc
        if c ≠ 0 then ⟨.error ⟨c, level⟩, g.st⟩
        else if pteLeaf p then
          let s := match ptr with
            | some w => g.st.cacheX ⟨unit, ctx, 4, vtag cva 4, w, 0⟩
            | none => g.st
          ⟨.ok (leafPa p cva level), s.cacheX ⟨unit, ctx, level, vtag cva level, BitVec.ofNat 64 p, 0⟩⟩
        else
          State.walk g.st unit ctx tag cva acc fuel (level - 1) (bits p 53 10 * 4096)
            (if level = 4 then some (BitVec.ofNat 64 p) else ptr)

/-- A cached entry of a unit. -/
def State.cachedX (s : State) (unit ctx level cva : Nat) : Option XEntry :=
  s.xlt.find? fun e => e.unit = unit && e.ctx = ctx && e.level = level && e.vpn = vtag cva level

/-- Core virtual address of an accelerator virtual address in a context (R241), before sign extension. -/
def State.cva (s : State) (ctx ava : Nat) : Nat :=
  (ava + s.fld F.XLT_CTX_DATUM.DATUM ctx * 2 ^ 30) % 2 ^ 57

/-- The context exists (R239). -/
def State.ctxValid (s : State) (ctx : Nat) : Bool := s.on F.XLT_CTX_ROOT.VALID ctx

/-- Owner tag of a context. -/
def State.ctxTag (s : State) (ctx : Nat) : Nat := s.fld F.XLT_CTX_ROOT.PARTITION ctx

/-- Translate one accelerator virtual address in a context (R241 to R246), without latching. -/
def State.xlate1 (s : State) (unit ctx ava : Nat) (acc : Acs) : Xlated :=
  if 2 ^ 48 ≤ ava then ⟨.error ⟨xVaRange, 0⟩, s⟩
  else if !s.ctxValid ctx then ⟨.error ⟨xNoContext, 0⟩, s⟩
  else
    let cva := s.cva ctx ava
    let tag := s.ctxTag ctx
    let hit := match s.cachedX unit ctx 2 cva with
      | some e => some e
      | none => s.cachedX unit ctx 3 cva
    let r : Xlated := match hit with
      | some e =>
        let s := (s.bump F.XLT_STATS.HITS 0 1).useX e
        let c := pteCause e.pte.toNat e.level acc
        if c ≠ 0 then ⟨.error ⟨c, e.level⟩, s⟩ else ⟨.ok (leafPa e.pte.toNat cva e.level), s⟩
      | none =>
        let s := s.bump F.XLT_STATS.WALKS 0 1
        match s.cachedX unit ctx 4 cva with
        | some e => s.walk unit ctx tag cva acc 2 3 (bits e.pte.toNat 53 10 * 4096) none
        | none => s.walk unit ctx tag cva acc 3 4 (s.fld F.XLT_CTX_ROOT.PPN ctx * 4096) none
    match r.res with
    | .error f => ⟨.error f, r.st⟩
    | .ok pa =>
      if !r.st.part.populated pa then ⟨.error ⟨xPhysRange, 0⟩, r.st⟩
      else if !r.st.rangeOk tag pa acc then ⟨.error ⟨xRangeOwner, 0⟩, r.st⟩
      else ⟨.ok pa, r.st⟩

/-- Latch a translation fault, or count it as lost (R253). Source: 0 tile, 1 feeder or drain, 2 riddle, 3 hod,
4 front end; only units of a tile name it (R254). -/
def State.latchX (s : State) (tile unit source ctx ava : Nat) (acc : Acs) (f : XFault) : State :=
  let s := s.raise F.XLT_EVENT.FAULT 0
  if s.on F.XLT_FAULT.VALID 0 then s.bump F.XLT_FAULT.LOST 0 1
  else
    let s := (s.raise F.XLT_FAULT.VALID 0).setFld F.XLT_FAULT.TILE 0 (if source ≤ 1 then tile else 0)
    let s := (s.setFld F.XLT_FAULT.UNIT 0 unit).setFld F.XLT_FAULT.SOURCE 0 source
    let s := (s.setFld F.XLT_FAULT.CTX 0 ctx).setFld F.XLT_FAULT.LEVEL 0 f.level
    let s := (s.setFld F.XLT_FAULT.ACCESS 0 acc.code).setFld F.XLT_FAULT.CAUSE 0 f.cause
    s.setReg .XLT_FAULT_ADDR 0 (BitVec.ofNat 64 ava)

/-- Translate and latch a fault. -/
def State.xlate (s : State) (tile unit source ctx ava : Nat) (acc : Acs) : Xlated :=
  let r := s.xlate1 unit ctx ava acc
  match r.res with
  | .ok _ => r
  | .error f => ⟨r.res, r.st.latchX tile unit source ctx ava acc f⟩

/-- A run of `n` bytes split where it crosses a 1 GiB boundary: (address, length) pieces. -/
def gibPieces (a n : Nat) : List (Nat × Nat) :=
  (unitsOf (2 ^ 30) a n).map fun u => (max a u, min (a + n) (u + 2 ^ 30) - max a u)

/-- Physical pieces of a run of virtual addresses; the first fault stops it, with the pieces before it. -/
structure XRun where
  pieces : List (Nat × Nat)
  fault : Option (XFault × Nat)
  st : State

/-- Translate every piece of a run. -/
def State.xlateRun (s : State) (tile unit source ctx ava n : Nat) (acc : Acs) : XRun :=
  (gibPieces ava n).foldl (fun r p =>
    match r.fault with
    | some _ => r
    | none =>
      let x := r.st.xlate tile unit source ctx p.1 acc
      match x.res with
      | .ok pa => ⟨r.pieces ++ [(pa, p.2)], none, x.st⟩
      | .error f => ⟨r.pieces, some (f, p.1), x.st⟩) ⟨[], none, s⟩

/-- Result of reading a run of virtual addresses. -/
structure VGot where
  data : List Byte
  ue : Bool
  fault : Option (XFault × Nat)
  st : State

/-- Read a run of virtual addresses by an agent whose die view is `d` and whose owner tag is the context's; data stops at the
first fault. -/
def State.vaRead (s : State) (d : Option Nat) (tile unit source ctx ava n : Nat) (acc : Acs) : VGot :=
  let r := s.xlateRun tile unit source ctx ava n acc
  r.pieces.foldl (fun v p =>
    let g := v.st.memRead ⟨d, s.ctxTag ctx⟩ p.1 p.2
    ⟨v.data ++ g.data, v.ue || g.ue, v.fault, g.st⟩) ⟨[], false, r.fault, r.st⟩

/-- Write bytes to physical pieces in order. -/
def State.putPieces (s : State) (g : Agent) : List (Nat × Nat) → List Byte → State
  | [], _ => s
  | (a, n) :: ps, bs => (s.memWrite g a (bs.take n)).putPieces g ps (bs.drop n)

/-! ## Invalidation (R250, R252) -/

/-- Drop every entry of every unit. -/
def State.dropAll (s : State) : State := { s with xlt := [] }

/-- Drop every entry of a context. -/
def State.dropCtx (s : State) (c : Nat) : State := { s with xlt := s.xlt.filter fun e => e.ctx ≠ c }

/-- Drop the leaves of a context that overlap `count` gigabytes of accelerator addresses from gigabyte `base`, and its
level-4 pointers. A leaf overlaps if a gigabyte of the range lies in the page it serves. -/
def State.dropCtxRange (s : State) (c base count : Nat) : State :=
  let lo := base * 2 ^ 30
  let hi := min ((base + count) * 2 ^ 30) (2 ^ 48)
  let meets (e : XEntry) : Bool :=
    -- page of e in accelerator addresses, modulo the core window
    let size := 2 ^ (12 + 9 * e.level)
    let first := (e.vpn * size + 2 ^ 57 - s.cva c 0) % 2 ^ 57
    decide (first < hi && lo < first + size) || decide (2 ^ 57 ≤ first + size && lo < first + size - 2 ^ 57)
  { s with xlt := s.xlt.filter fun e => !(e.ctx = c && (e.level = 4 || meets e)) }

/-- Before a 1 GiB range passes, the leaves of the contexts of two owner tags that map into it are dropped, with those
contexts' level-4 pointers (R252). -/
def State.dropRange (s : State) (n p q : Nat) : State :=
  let maps (e : XEntry) : Bool :=
    let base := leafPa e.pte.toNat 0 e.level / 2 ^ 30
    base ≤ n && n < base + 2 ^ (9 * (e.level - 2))
  let mine (e : XEntry) : Bool := s.ctxTag e.ctx = p || s.ctxTag e.ctx = q
  { s with xlt := s.xlt.filter fun e => !(mine e && (e.level = 4 || maps e)) }

end Sys2Proof.Machine
end

