-- ==== Sys2Proof/Machine/TileMem.lean ====
section
/-! DEFINITION. Machine/TileMem.lean: scratch as a tile reaches it, tile exceptions, instruction fetch through the quoin
cache or the text area, and the issue of one instruction (R101 to R130, R164 to R185). -/
namespace Sys2Proof.Machine

/-! ## Scratch addresses (R123, R166, R167) -/

/-- A converted scratch address: physical tile scratch or die store, or an offset in the own operand buffers. -/
inductive Scr where
  | at (pa : Nat)
  | own (off : Nat)
deriving DecidableEq, Repr

/-- Physical base of a tile's scratch. -/
def tilePa (t : Nat) : Nat := t / 200 * 2 ^ 28 + t % 200 * 2 ^ 20

/-- Physical base of a die-store bank, named as TSQ_RELOC.TARGET names it. -/
def bankPa (g : Nat) : Nat := 2 ^ 30 + bits g 7 6 * 2 ^ 28 + bits g 5 0 * 2 ^ 21

/-- The tile whose scratch holds a physical address; none in the die store. -/
def paTile (a : Nat) : Option Nat := if a < 2 ^ 30 then some (bits a 29 28 * 200 + bits a 27 20) else none

/-- Die and bank of a physical die-store address, as SCP_DS_CLAIM counts them. -/
def paBank (a : Nat) : Nat × Nat := (bits a 29 28, bits a 26 21)

/-- First offset of a tile's plinth region (R177). -/
def State.plinthBase (s : State) (t : Nat) : Nat := (16 - s.fld F.SCP_PLINTH.BANKS t) * 2 ^ 16

/-- A write to a run of a tile's scratch is refused: plinth not claimed writable, or text area (R129, R178, R266). -/
def State.scrProt (s : State) (t off n : Nat) : Bool :=
  let x := s.tile t
  (s.fld F.SCP_PLINTH.BANKS t ≠ 0 && !s.on F.SCP_PLINTH.WRITABLE t && s.plinthBase t < off + n) ||
  (s.on F.TSQ_QCTL.TEXT_MODE t && x.block.isSome && x.textArea < off + n && off < x.textArea + 0x20000)

/-- Relocation slot of a tile (R122). -/
def State.slot (s : State) (t i : Nat) (f : Fld) : Nat := s.fld f (t * 32 + i)

/-- Convert a run of `n` bytes at a program-form address: through the slots of tile `t`, slot 0 naming tile `self`
(R123, R132). `ownOk` admits region 0b10. What a set reserved bit within bits 31:0 does R123 does not say; it changes
nothing here (log entry 87). -/
def State.conv (s : State) (t self a n : Nat) (ownOk write : Bool) : Except TExc Scr :=
  if 2 ^ 32 ≤ a then .error (texc .scrRange a)
  else match bits a 31 30 with
    | 0 =>
      let i := bits a 24 20
      let off := a % 2 ^ 20
      if s.slot t i F.TSQ_RELOC.VALID ≠ 1 || s.slot t i F.TSQ_RELOC.TYPE ≠ 0 then .error (texc .reloc a)
      else
        let g := if i = 0 then self else s.slot t i F.TSQ_RELOC.TARGET
        if 2 ^ 20 < off + n then .error (texc .scrRange a)
        else if write && s.scrProt g off n then .error (texc .scrProt a)
        else .ok (.at (tilePa g + off))
    | 1 =>
      let i := bits a 25 21
      let off := a % 2 ^ 21
      if s.slot t i F.TSQ_RELOC.VALID ≠ 1 || s.slot t i F.TSQ_RELOC.TYPE ≠ 1 then .error (texc .reloc a)
      else if 2 ^ 21 < off + n then .error (texc .scrRange a)
      else .ok (.at (bankPa (s.slot t i F.TSQ_RELOC.TARGET) + off))
    | 2 =>
      let off := a % 2 ^ 16
      if !ownOk || 0x6000 < off + n then .error (texc .scrRange a) else .ok (.own off)
    | _ => .error (texc .scrRange a)

/-! ## Scratch contents and errors (R173 to R175) -/

/-- Key of a location among the latent errors: its physical address; own operand buffers above 2³¹, by tile. -/
def Scr.key (t : Nat) : Scr → Nat
  | .at a => a
  | .own o => 2 ^ 31 + t * 2 ^ 16 + o

/-- A byte of scratch; a byte of an operand buffer not written since its load is open (its layout is not stated). -/
def State.scrByte (s : State) (t : Nat) (w : Scr) (i : Nat) : Byte :=
  match w with
  | .at a => SMap.get s.scr 0 (a + i)
  | .own o =>
    let x := s.tile t
    match SMap.find? x.opbuf (o + i) with
    | some b => b
    | none => match SMap.find? x.opseed ((o + i) / 0x2000) with
      | some k => Config.freeByte k (o + i)
      | none => 0

/-- Write bytes at physical scratch addresses. -/
def putScr (m : SMap Byte) (a : Nat) : List Byte → SMap Byte
  | [] => m
  | b :: bs => putScr (SMap.set m 0 a b) (a + 1) bs

/-- Write bytes of an operand buffer, which may hold open contents. -/
def putOwn (m : SMap Byte) (a : Nat) : List Byte → SMap Byte
  | [] => m
  | b :: bs => putOwn (SMap.insert m a b) (a + 1) bs

/-- An uncorrectable unit of scratch is met (R175, R179, R180). -/
def State.meetScrUe (s : State) (u : Nat) : State :=
  let tile (t pa : Nat) (plinth : Bool) (s : State) : State :=
    let s := (s.raise F.SCP_EVENT.UE t).bump F.SCP_ECC.UE t 1
    let s := if s.on F.SCP_UE_ADDR.VALID t then s
      else (s.raise F.SCP_UE_ADDR.VALID t).setFld F.SCP_UE_ADDR.ADDR t pa
    let s := if plinth then
        ((s.bump F.SCP_ECC.PLINTH_UE t 1).raise F.SCP_EVENT.PLINTH_UE t).setFld F.SCP_PLINTH.VALID t 0
      else s
    s.reportSelf 0x0203 2 (uTile t) pa 0
  if 2 ^ 31 ≤ u then tile ((u - 2 ^ 31) / 2 ^ 16) (2 ^ 31 + u % 2 ^ 16) false s
  else match paTile u with
    | some t => tile t u (s.fld F.SCP_PLINTH.BANKS t ≠ 0 && s.plinthBase t ≤ u % 2 ^ 20) s
    | none =>
      let (d, b) := paBank u
      let s := (s.raise F.SCP_DS_EVENT.UE d).bump F.SCP_DS_ECC.UE d 1
      let s := if s.on F.SCP_DS_UE_ADDR.VALID d then s
        else (s.raise F.SCP_DS_UE_ADDR.VALID d).setFld F.SCP_DS_UE_ADDR.ADDR d u
      s.reportSelf 0x0203 2 (uDstore d b) u 0

/-- A single-bit error of scratch is corrected (R174). -/
def State.fixScrCe (s : State) (u : Nat) : State :=
  let s := { s with scrCe := s.scrCe.filter (· ≠ u) }
  let t := if 2 ^ 31 ≤ u then some ((u - 2 ^ 31) / 2 ^ 16) else paTile u
  match t with
  | some t => ((s.bump F.SCP_ECC.CE t 1).raise F.SCP_EVENT.CE t).bump F.ERR_CE.COUNT (tileDie t) 1
  | none =>
    let d := (paBank u).1
    ((s.bump F.SCP_DS_ECC.CE d 1).raise F.SCP_DS_EVENT.CE d).bump F.ERR_CE.COUNT d 1

/-- Read a run of scratch for tile `t`: zeros where uncorrectable (R174, R175). -/
def State.scrRead (s : State) (t : Nat) (w : Scr) (n : Nat) : Got :=
  let k := w.key t
  let us := unitsOf 8 k n
  let bad := us.filter s.scrUe.contains
  let s' := bad.foldl State.meetScrUe s
  let s' := (us.filter s.scrCe.contains).foldl State.fixScrCe s'
  ⟨(List.range n).map fun i => if bad.contains ((k + i) / 8 * 8) then 0 else s.scrByte t w i, !bad.isEmpty, s'⟩

/-- Write a run of scratch for tile `t` (R173, R174): a whole unit clears its error; a partial write reads its unit, so that
it corrects and counts a single-bit error and reports an uncorrectable one. -/
def State.scrWrite (s : State) (t : Nat) (w : Scr) (bs : List Byte) : State :=
  let k := w.key t
  let n := bs.length
  let us := unitsOf 8 k n
  let part := us.filter fun u => !coversUnit u k n
  let s := { s with
    scrUe := s.scrUe.filter fun u => !coversUnit u k n
    scrCe := s.scrCe.filter fun u => !coversUnit u k n }
  let s := (part.filter s.scrUe.contains).foldl State.meetScrUe s
  let s := (part.filter s.scrCe.contains).foldl State.fixScrCe s
  match w with
  | .at a => { s with scr := putScr s.scr a bs }
  | .own o => s.modTile t fun x => { x with opbuf := putOwn x.opbuf o bs }

/-! ## Arrival counters (R114, R181, R182) -/

/-- Count bytes on counter `c` of tile `t`. -/
def State.count (s : State) (t c n : Nat) : State :=
  let i := t * 64 + c
  let v := s.fld F.SCP_ACTR.COUNT i + n
  let s := (s.setFld F.SCP_ACTR.COUNT i (v % 2 ^ 48)).bump F.SCP_ARRIVED.BYTES t n
  if 2 ^ 48 ≤ v then s.raise F.SCP_EVENT.CTR_WRAP t else s

/-- The counter a write into scratch at `pa` counts on: the destination tile's, or the dispatching tile's for the die
store (R183). -/
def ctrFor (t pa c : Nat) : Nat × Nat := ((paTile pa).getD t, c)

/-! ## Tile exceptions (R120, R121) -/

/-- A tile can issue: it runs and nothing holds its sequencer. -/
def State.running (s : State) (t : Nat) : Bool :=
  t < s.part.tiles && s.fld F.TSQ_STATE.RUN t = 1 && (s.tile t).block.isSome &&
    (s.tile t).waitC.isNone && (s.tile t).waitU.isNone

/-- What a stopped tile keeps: operations not started are discarded; the active lane and broadcast streams and started arch
streams run on (R120). -/
def Tile.halt (x : Tile) : Tile :=
  { x with
    waitC := none, waitU := none, fence := [], fills := [], ls := [], bq := [], bpWait := [], lane := x.lane.take 1,
    bcast := x.bcast.take 1, corbelQ := [], arch := { x.arch with streams := x.arch.streams.filter ArchStream.started } }

/-- Stop every sequencer of a block and discard what has not started (R120). -/
def State.haltBlock (s : State) (b : Block) : State :=
  let s := b.tiles.foldl (fun s t =>
    let s := s.modTile t Tile.halt
    let s := s.setFld F.TSQ_STATE.WAIT t 0
    if s.fld F.TSQ_STATE.RUN t = 1 then s.setFld F.TSQ_STATE.RUN t 3 else s) s
  { s with
    riddles := s.riddles.map fun p => (p.1, p.2.filter fun j => j.started || !b.tiles.contains j.tile)
    hods := s.hods.map fun p => (p.1, p.2.filter fun j => j.active || (match j.src with
      | .tile t _ _ _ => !b.tiles.contains t
      | _ => true)) }

/-- A new failure of a block takes the place of the one recorded: there is none, or it came in the same tick from an
exception of a tile of higher handle (R120, log entry 88). -/
def State.failsFirst (s : State) (b : Block) (handle : Nat) : Bool :=
  match b.fail with
  | none => true
  | some (_, _, h) => b.failTick = s.ticks && !b.raised.isEmpty && handle < h

/-- Record a failure of a block and stop it. -/
def State.failBlock (s : State) (id status detail handle : Nat) : State :=
  match s.block id with
  | none => s
  | some b =>
    let s := if s.failsFirst b handle then
        s.modBlock id fun x => { x with fail := some (status, detail, handle), failTick := s.ticks }
      else s
    if b.fail.isNone then s.haltBlock b else s

/-- A tile raises an exception: `pc` and `w` are the excepting instruction's address and word. -/
def State.tileExc (s : State) (t : Nat) (precise : Bool) (pc : Nat) (w : Word) (e : TExc) : State :=
  let s :=
    if s.on F.TSQ_EXC.VALID t then s.raise F.TSQ_EXC.LOST t
    else
      let s := ((s.raise F.TSQ_EXC.VALID t).setFld F.TSQ_EXC.PRECISE t (bitN precise)).setFld F.TSQ_EXC.CODE t e.code.code
      let s := (s.setFld F.TSQ_EXC.PC t pc).setFld F.TSQ_EXC_WORD.WORD t w.toNat
      s.setFld F.TSQ_EXC_ADDR.ADDR t e.addr
  let s := s.setFld F.TSQ_STATE.RUN t 3
  match s.blockOf t with
  | none => s
  | some b =>
    let (st, dt) := e.status
    let s := (s.failBlock b.id st dt (s.fld F.TSQ_STATE.HANDLE t)).modBlock b.id fun x => { x with raised := t :: x.raised }
    s.report ⟨0x0201, 2, uTile t, uTile t, e.addr, e.code.code, b.part, b.queue⟩

/-- Context, owner tag of the block of a tile. -/
def State.ctxOf (s : State) (t : Nat) : Nat := ((s.blockOf t).map Block.ctx).getD 0

/-- The memory accesses of a tile's block wait for ever (R399). -/
def State.starvedTile (s : State) (t : Nat) : Bool := s.starved (((s.blockOf t).map Block.part).getD 8)

/-- The agent a tile's units are (R208, R386). -/
def State.tileAgent (s : State) (t : Nat) : Agent := ⟨some (tileDie t), ((s.blockOf t).map Block.part).getD 8⟩

/-- External-memory transactions of the tiles and the riddle of a die that are outstanding (R224): writes not yet performed,
by line, and line fills. -/
def State.tracked (s : State) (d : Nat) : Nat :=
  ((s.packets.filter fun p => p.toMem && p.agent.die = some d).map fun p => (linesOf p.dst p.data.length).length).sum +
    ((s.tiles.filter fun p => tileDie p.1 = d).map fun p => p.2.fills.length).sum

/-- `n` more transactions of a die have been outstanding with the others. -/
def State.track (s : State) (d n : Nat) : State :=
  s.setFld F.MEM_TRACK.PEAK d (max (s.fld F.MEM_TRACK.PEAK d) (min 65536 (s.tracked d + n)))

/-- A tile's block is of C0 or C1, whose reads by feeders, streams and copies are of LATENCY class (R225). -/
def State.latency (s : State) (t : Nat) : Bool := ((s.blockOf t).map Block.cls).getD 3 ≤ 1

/-- No tracking entry is free for an access of a tile: 4,096 are kept for LATENCY requests (R224). -/
def State.trackFull (s : State) (t : Nat) (latency : Bool) : Bool :=
  (if latency then 65536 else 61440) ≤ s.tracked (tileDie t)

/-- Read a run of virtual addresses for a tile (source 0) or one of its feeders (1) or the riddle (2). -/
def State.tileRead (s : State) (t source ava n : Nat) (acc : Acs) : VGot :=
  (s.track (tileDie t) (linesOf ava n).length).vaRead (some (tileDie t)) t (tileDie t) source (s.ctxOf t) ava n acc

/-- The exception a translation fault gives. -/
def xExc (p : XFault × Nat) : TExc := ⟨.xlate, p.2, p.1.cause⟩

/-- A virtual address with bits 63:48 set (R110, R132): the fault is latched. -/
def State.wideVa (s : State) (t source ava : Nat) (acc : Acs) : State :=
  (s.xlate t (tileDie t) source (s.ctxOf t) ava acc).st

/-! ## Text, constants and the quoin cache (R124 to R129) -/

def inRange (r : Nat × Nat) (a n : Nat) : Bool := r.1 ≤ a && a + n ≤ r.1 + r.2
def touches (r : Nat × Nat) (a n : Nat) : Bool := r.2 ≠ 0 && r.1 < a + n && a < r.1 + r.2

/-- Own scratch of the text area that serves an address of the declared ranges (R129, R266). -/
def State.textScr (s : State) (t a : Nat) : Scr :=
  let x := s.tile t
  .at (tilePa t + x.textArea + (if inRange x.text a 1 then a - x.text.1 else 0x10000 + (a - x.const.1)))

def State.textMode (s : State) (t : Nat) : Bool := s.on F.TSQ_QCTL.TEXT_MODE t
def State.quoinOn (s : State) (t : Nat) : Bool := s.on F.TSQ_QCTL.ENABLE t

/-- The quoin entry, by number, that holds a line. -/
def Tile.entry (x : Tile) (l : Nat) : Option (Nat × QLine) := List.find? (fun p => p.2.line = l) x.quoin

/-- Mark a quoin entry as most recently used. -/
def Tile.touch (x : Tile) (i : Nat) (q : QLine) : Tile :=
  { x with clock := x.clock + 1, quoin := SMap.insert x.quoin i { q with use := x.clock } }

/-- Request a line (R125): a demand joins a prefetch of the same line; nothing counts while the cache is disabled; with no
tracking entry free it waits (R224). -/
def State.demand (s : State) (t l : Nat) (prec : Bool) : State :=
  let x := s.tile t
  let buf := !s.quoinOn t
  let mine (f : Fill) : Bool := f.line = l && f.toBuf == buf && !f.doomed
  if s.trackFull t false && !x.fills.any mine then s
  else if x.fills.any fun f => mine f && !f.pre then s
  else
    let s := if buf then s else s.bump F.TSQ_QMISS.MISSES t 1
    if x.fills.any mine then
      s.setTile t { x with fills := x.fills.map fun f => if mine f then { f with pre := false, prec := prec } else f }
    else (s.setTile t { x with fills := x.fills ++ [⟨l, false, buf, false, prec, none⟩] }).track (tileDie t) 0

/-- What reading the text or constant ranges finds. -/
inductive Text where
  | got (bs : List Byte) (s : State)
  | miss (line : Nat)
  | bad (e : TExc) (s : State)

/-- Read `n` bytes of the declared ranges through the quoin cache, from the text area, or from memory while the cache is
disabled. -/
def State.textRead (s : State) (t a n : Nat) : Text :=
  if s.textMode t then
    let g := s.scrRead t (s.textScr t a) n
    if g.ue then .bad (texc .fetchUe a) (g.st.markUe t) else .got g.data g.st
  else if s.quoinOn t then
    let x := s.tile t
    match (linesOf a n).find? fun l => (x.entry l).isNone with
    | some l => .miss l
    | none =>
      let es := (linesOf a n).filterMap x.entry
      let x' := es.foldl (fun x e => x.touch e.1 { e.2 with fresh := false }) x
      let s := (s.bump F.TSQ_QHIT.HITS t (es.filter fun e => !e.2.fresh).length).setTile t x'
      if es.any fun e => e.2.ue then .bad (texc .fetchUe a) s
      else .got (((es.map fun e => e.2.data).flatten.drop (a % 128)).take n) s
  else
    let g := s.tileRead t 0 a n .fetch
    match g.fault with
    | some f => .bad (xExc f) g.st
    | none => if g.ue then .bad (texc .fetchUe a) g.st else .got g.data g.st

/-- Read constants for LDC or a descriptor (R110, R124): they must lie in the declared ranges. -/
def State.constRead (s : State) (t a n : Nat) : Text :=
  let x := s.tile t
  if 2 ^ 48 ≤ a || (!inRange x.text a n && !inRange x.const a n) then .bad (texc .textRange a) s
  else s.textRead t a n

/-- The instruction word at the program counter, if the tile holds it. -/
inductive Fetch where
  | word (w : Word) (s : State)
  | miss (line : Nat)
  | bad (e : TExc) (s : State)

/-- Fetch at the program counter (R101, R124 to R129). -/
def State.fetch (s : State) (t : Nat) : Fetch :=
  let x := s.tile t
  let a := x.pc
  let word (bs : List Byte) : Word := BitVec.ofNat 64 (ofBytes bs)
  if !inRange x.text a 8 then .bad (texc .textRange a) s
  else if s.textMode t || s.quoinOn t then
    match s.textRead t a 8 with
    | .got bs s => .word (word bs) s
    | .miss l => .miss l
    | .bad e s => .bad e s
  else match x.fetchBuf with
    | some q =>
      if q.line ≠ a / 128 * 128 then .miss (a / 128 * 128)
      else if q.ue then .bad (texc .fetchUe a) s
      else .word (word ((q.data.drop (a % 128)).take 8)) s
    | none => .miss (a / 128 * 128)

/-! ## Issue (R101, R102) -/

/-- TSQ_STATE.WAIT codes. -/
def wCredit : Nat := 1
def wWaitc : Nat := 2
def wWaitu : Nat := 3
def wFence : Nat := 4
def wFetch : Nat := 5
def wReg : Nat := 6
def wConst : Nat := 7

/-- How an attempt to issue an instruction ends: issued, issued with a jump, held with a WAIT code, waiting for a line of
the constant range, a precise exception, or issued with an imprecise exception. -/
inductive Iss where
  | done (s : State)
  | jump (pc : Nat) (s : State)
  | hold (code : Nat)
  | line (l : Nat) (prec : Bool)
  | exc (e : TExc) (s : State)
  | late (e : TExc) (s : State)

/-- WAIT code of a tile that has just issued: WAITC and WAITU stall after it. -/
def Tile.waitCode (x : Tile) : Nat := if x.waitC.isSome then wWaitc else if x.waitU.isSome then wWaitu else 0

/-- Count an issued instruction and move the program counter. -/
def State.issued (s : State) (t pc : Nat) : State :=
  let s := (s.bump F.TSQ_ISSUED.ISSUED t 1).setFld F.TSQ_STATE.WAIT t (s.tile t).waitCode
  s.modTile t fun x => { x with pc := pc, clock := x.clock + 1 }

/-- Stall the sequencer; the cycles it stalls are open (log entry 8). -/
def State.stall (s : State) (t code : Nat) : State :=
  let s := s.setFld F.TSQ_STATE.WAIT t code
  if code = wCredit then s.drawn.bump F.TSQ_STALL.CREDIT t s.freeNat
  else if code = wFence then s.drawn.bump F.TSQ_STALL.WAITS t s.freeNat
  else s

/-- Address of the instruction after `pc`, in the 48-bit counter (R101). -/
def nextPc (pc : Nat) : Nat := (pc + 8) % 2 ^ 48

/-- A tile that another tile's exception stopped in this very tick, and that has raised none itself: an exception of its own
instruction falls in the same cycle (R120, log entry 88). -/
def State.sameCycle (s : State) (t : Nat) : Bool :=
  t < s.part.tiles && s.fld F.TSQ_STATE.RUN t = 3 && (match s.blockOf t with
    | some b => !b.raised.isEmpty && b.failTick = s.ticks && !b.raised.contains t
    | none => false)

/-- Tile `t` issues the instruction at its program counter, whose opcode is `ok`; `f` is the instruction's effect.
A tile that cannot issue, or whose instruction is another, does nothing (log entry 1). -/
def State.issue (s : State) (t : Nat) (ok : Nat → Bool) (f : Word → State → Iss) : State :=
  if !s.running t then
    if s.sameCycle t then
      match s.fetch t with
      | .word w s' => if !ok (opOf w) then s else match f w s' with
        | .exc e s => s.tileExc t true (s.tile t).pc w e
        | _ => s
      | _ => s
    else s
  else
    let pc := (s.tile t).pc
    match s.fetch t with
    | .miss l => (s.demand t l true).setFld F.TSQ_STATE.WAIT t wFetch
    | .bad e s => s.drawn.tileExc t true pc (Config.freeWord s.freeCtr 0) e
    | .word w s' =>
      if !ok (opOf w) then s
      else match f w s' with
        | .done s => s.issued t (nextPc pc)
        | .jump g s => s.issued t (g % 2 ^ 48)
        | .hold code => s.stall t code
        | .line l prec => (s.demand t l prec).setFld F.TSQ_STATE.WAIT t wConst
        | .exc e s => s.tileExc t true pc w e
        | .late e s => (s.issued t (nextPc pc)).tileExc t false pc w e

/-- Issue the instruction of one opcode. -/
def State.issueOp (s : State) (t op : Nat) (f : Word → State → Iss) : State := s.issue t (· = op) f

/-- The word at the program counter as far as the tile holds it, else an open one. -/
def State.peekWord (s : State) (t : Nat) : Word :=
  match s.fetch t with
  | .word w _ => w
  | _ => Config.freeWord s.freeCtr 0

/-- A line arrives (R125 to R127). What a prefetch whose translation faults does the rules leave open: it raises XLATE as an
imprecise exception of its QPF while the tile can issue, and is dropped otherwise (log entry 89). -/
def State.fillArrives (s : State) (t k : Nat) : State :=
  let x := s.tile t
  match x.fills[k]? with
  | none => s
  | some f =>
    if s.starvedTile t then s else
    let s := s.setTile t { x with fills := x.fills.eraseIdx k }
    if f.doomed then s
    else
      let g := s.tileRead t 0 f.line 128 .fetch
      let s := if f.pre then g.st else g.st.setFld F.TSQ_STATE.WAIT t 0
      match g.fault with
      | some e =>
        let at' := f.qpf.getD (x.pc, s.peekWord t)
        if s.running t then s.drawn.tileExc t f.prec at'.1 at'.2 (xExc e) else s
      | none =>
        if f.toBuf then s.modTile t fun x => { x with fetchBuf := some ⟨f.line, g.data, g.ue, 0, false⟩ }
        else if !s.quoinOn t then s
        else s.modTile t fun x =>
          let old := match x.entry f.line with
            | some (i, _) => i
            | none => match (List.range 48).find? fun i => (SMap.find? x.quoin i).isNone with
              | some i => i
              | none => (x.quoin.foldl (fun (b : Nat × Nat) p => if p.2.use < b.2 then (p.1, p.2.use) else b)
                  (0, x.clock + 1)).1
          x.touch old ⟨f.line, g.data, g.ue, 0, !f.pre⟩

/-! ## Packets (R181) and dispatched work -/

/-- Bytes in packets of up to 256 B from a destination. -/
def chunks : Nat → Nat → List Byte → List (Nat × List Byte)
  | 0, _, _ => []
  | fuel + 1, a, bs => if bs.isEmpty then [] else (a, bs.take 256) :: chunks fuel (a + 256) (bs.drop 256)

/-- Send bytes in packets to physical memory, where the writer is agent `g` under context `ctx`, or to scratch. -/
def State.sendAs (s : State) (t stamp : Nat) (u : PUnit) (g : Agent) (ctx : Option Nat) (toMem fenced ro : Bool) (dst : Nat)
    (bs : List Byte) (ctr : Option (Nat × Nat)) : State :=
  let ps := (chunks (bs.length / 256 + 1) dst bs).zipIdx.map fun (p, i) =>
    Packet.mk (s.nextPid + i) t stamp u g ctx toMem fenced ro p.1 p.2 [] [] ctr
  { s with packets := s.packets ++ ps, nextPid := s.nextPid + ps.length }

/-- A unit of tile `t` sends bytes to scratch, or to physical memory as agent `g`. -/
def State.send (s : State) (t : Nat) (u : PUnit) (g : Agent) (toMem fenced : Bool) (dst : Nat) (bs : List Byte)
    (ctr : Option (Nat × Nat)) : State :=
  let s := s.sendAs t (s.tile t).clock u g (if toMem then some (s.ctxOf t) else none) toMem fenced false dst bs ctr
  match g.die with
  | some d => if toMem then s.track d 0 else s
  | none => s

/-- Distinct operations of a unit of a tile that have writes on their way. -/
def State.opsOf (s : State) (t : Nat) (u : PUnit) : Nat :=
  ((s.packets.filterMap fun p => if p.tile = t && p.unit = u then some p.stamp else none).eraseDups).length

/-- Packets of the drain of tile `k`, oldest first. The first 16 are in the on-die network, the others in its staging. -/
def State.drainPackets (s : State) (k : Nat) : List Packet := s.packets.filter fun p => p.unit = PUnit.drain k

/-- Drains have writes of streams of tile `t` on their way. -/
def State.drainsBusy (s : State) (t : Nat) : Bool :=
  s.packets.any fun p => p.tile = t && (match p.unit with
    | .drain _ => true
    | _ => false)

/-- Hod requests of a tile not complete. -/
def State.hodsOf (s : State) (t : Nat) : List HodJob :=
  (s.hods.map Prod.snd).flatten.filter fun j => match j.src with
    | .tile t' _ _ _ => t' = t
    | _ => false

/-- Riddle jobs of a tile not complete. -/
def State.sortsOf (s : State) (t : Nat) : List RJob :=
  (s.riddles.map Prod.snd).flatten.filter fun j => j.tile = t

/-- A unit of R113's mask has finished everything the tile dispatched to it. -/
def State.unitIdle (s : State) (t i : Nat) : Bool :=
  let x := s.tile t
  match i with
  | 0 => x.corbelQ.isEmpty && x.bpWait.isEmpty && s.opsOf t .corbel = 0
  | 1 => (x.arch.wdesc.isNone || x.arch.staged) && x.arch.streams.isEmpty && !s.drainsBusy t
  | 2 => x.lane.isEmpty && x.bcast.isEmpty && (s.sortsOf t).isEmpty && s.opsOf t .riddle = 0
  | 3 => s.opsOf t .move = 0
  | 4 => s.opsOf t .scalar = 0
  | 6 => (s.hodsOf t).isEmpty
  | _ => true

/-- Every unit of a mask is idle. -/
def State.unitsIdle (s : State) (t mask : Nat) : Bool :=
  (List.range 7).all fun i => !mask.testBit i || s.unitIdle t i

/-- A key of scratch (`Scr.key`) outside the tile: another tile's scratch or the die store. -/
def remoteScr (t a : Nat) : Bool := a < 2 ^ 31 && a / 2 ^ 20 ≠ tilePa t / 2 ^ 20

/-- Operations a fence of a scope waits for: those dispatched before it that have not been performed at that scope; a store
that its own die sees is performed at DIE scope, and what the die has seen of others' stores must be performed before a wider
fence releases (R116, R189, R203). -/
def State.fencePending (s : State) (t scope stamp : Nat) : Bool :=
  let x := s.tile t
  s.packets.any (fun p => p.tile = t && p.fenced && p.stamp < stamp &&
    !(scope = 0 && p.toMem && p.seen.contains (tileDie t))) ||
  (scope ≠ 0 && s.packets.any fun p => p.seen.contains (tileDie t)) ||
  x.corbelQ.any (fun o => (opOf o.word = 0xC4 || opOf o.word = 0xC5) && o.stamp < stamp &&
    (remoteScr t o.a1 || (opOf o.word = 0xC5 && remoteScr t o.a2))) ||
  (s.hodsOf t).any (fun j => match j.src with
    | .tile _ _ st _ => st < stamp
    | _ => false)

/-- A fence holds later operations of the classes it names. -/
def State.fenced (s : State) (t : Nat) : Bool := !(s.tile t).fence.isEmpty

end Sys2Proof.Machine
end

