-- ==== Sys2Proof/Machine/Scalar.lean ====
section
/-! DEFINITION. Machine/Scalar.lean: control and scalar instructions (R105, R107, R109), arrival counter and unit waits
(R113, R114), quoin cache control (R126, R127), fences (R116). -/
namespace Sys2Proof.Machine

/-! ## Operands -/

/-- op2 = s[B] + sext(IMM) (R109). -/
def State.op2 (s : State) (t : Nat) (w : Word) : Word := s.sreg t (bOf w) + immOf w

/-- s[A] + sext(IMM), the address of formats S and M. -/
def State.addrM (s : State) (t : Nat) (w : Word) : Nat := (s.sreg t (aOf w) + immOf w).toNat

/-- PC + 8 × sext(IMM); the jump reduces it to the 48-bit counter (R101). -/
def target (pc : Nat) (w : Word) : Nat := (BitVec.ofNat 64 pc + immOf w * 8).toNat

/-- A scalar instruction: s[D] receives a function of s[A] and op2. -/
def State.alu (s : State) (t op : Nat) (f : Word → Word → Word) : State :=
  s.issueOp t op fun w s => .done (s.setSreg t (dOf w) (f (s.sreg t (aOf w)) (s.op2 t w)))

/-- A branch: taken if s[A] compares true with s[B]. -/
def State.branch (s : State) (t op : Nat) (f : Word → Word → Bool) : State :=
  s.issueOp t op fun w s =>
    if f (s.sreg t (aOf w)) (s.sreg t (bOf w)) then .jump (target (s.tile t).pc w) s else .done s

/-! ## Control (R105, R106, R109) -/

def execNop (t : Nat) (s : State) : Res State := .next (s.issueOp t 0x00 fun _ s => .done s)

/-- The tile's part of the block ends once its units have finished (R106). -/
def execEnd (t : Nat) (s : State) : Res State :=
  .next (s.issueOp t 0x01 fun _ s => .done (s.setFld F.TSQ_STATE.RUN t 2))

/-- Key of a continuation among an item's: the block's index and the handle. -/
def contKey (idx h : Nat) : Nat := idx * 1024 + h

/-- Record a continuation of tile `t` with its block's item, if its program record has CONTINUING set: the address after
the YIELD and s1 to s7 (R105). -/
def State.yielded (s : State) (t : Nat) : State :=
  let h := s.fld F.TSQ_STATE.HANDLE t
  let c := (nextPc (s.tile t).pc, (List.range 7).map fun i => s.sreg t (i + 1))
  match s.blockOf t with
  | none => s
  | some b =>
    if !(s.tile t).cont then s
    else { s with items := s.items.map fun i =>
        if i.queue = b.queue && i.seq = b.seq then { i with conts := SMap.insert i.conts (contKey b.idx h) c } else i }

/-- As END, recording a continuation. -/
def execYield (t : Nat) (s : State) : Res State :=
  .next (s.issueOp t 0x02 fun _ s => .done ((s.yielded t).setFld F.TSQ_STATE.RUN t 2))

def execJ (t : Nat) (s : State) : Res State :=
  .next (s.issueOp t 0x03 fun w s => .jump (target (s.tile t).pc w) s)

def execJal (t : Nat) (s : State) : Res State :=
  .next (s.issueOp t 0x04 fun w s =>
    let pc := (s.tile t).pc
    .jump (target pc w) (s.setSreg t (dOf w) (BitVec.ofNat 64 (nextPc pc))))

/-- A target that is not a multiple of 8 raises ALIGN. -/
def execJr (t : Nat) (s : State) : Res State :=
  .next (s.issueOp t 0x05 fun w s =>
    let a := s.addrM t w
    if a % 8 ≠ 0 then .exc (texc .align a) s else .jump a s)

def execBeq (t : Nat) (s : State) : Res State := .next (s.branch t 0x06 fun a b => a = b)
def execBne (t : Nat) (s : State) : Res State := .next (s.branch t 0x07 fun a b => a ≠ b)
def execBlt (t : Nat) (s : State) : Res State := .next (s.branch t 0x08 fun a b => a.slt b)
def execBge (t : Nat) (s : State) : Res State := .next (s.branch t 0x09 fun a b => !a.slt b)
def execBltu (t : Nat) (s : State) : Res State := .next (s.branch t 0x0A fun a b => a.ult b)
def execBgeu (t : Nat) (s : State) : Res State := .next (s.branch t 0x0B fun a b => !a.ult b)

/-! ## Scalar arithmetic (R109) -/

def execAdd (t : Nat) (s : State) : Res State := .next (s.alu t 0x10 fun a b => a + b)
def execSub (t : Nat) (s : State) : Res State := .next (s.alu t 0x11 fun a b => a - b)
def execAnd (t : Nat) (s : State) : Res State := .next (s.alu t 0x12 fun a b => a &&& b)
def execOr (t : Nat) (s : State) : Res State := .next (s.alu t 0x13 fun a b => a ||| b)
def execXor (t : Nat) (s : State) : Res State := .next (s.alu t 0x14 fun a b => a ^^^ b)
def execSll (t : Nat) (s : State) : Res State := .next (s.alu t 0x15 fun a b => a <<< (b.toNat % 64))
def execSrl (t : Nat) (s : State) : Res State := .next (s.alu t 0x16 fun a b => a >>> (b.toNat % 64))
def execSra (t : Nat) (s : State) : Res State := .next (s.alu t 0x17 fun a b => a.sshiftRight (b.toNat % 64))
def execMul (t : Nat) (s : State) : Res State := .next (s.alu t 0x18 fun a b => a * b)
def execSlt (t : Nat) (s : State) : Res State := .next (s.alu t 0x19 fun a b => if a.slt b then 1 else 0)
def execSltu (t : Nat) (s : State) : Res State := .next (s.alu t 0x1A fun a b => if a.ult b then 1 else 0)
def execMin (t : Nat) (s : State) : Res State := .next (s.alu t 0x1B fun a b => if b.slt a then b else a)
def execMax (t : Nat) (s : State) : Res State := .next (s.alu t 0x1C fun a b => if a.slt b then b else a)

/-- s[D] ← (IMM << 32) OR zext(s[A][31:0]). -/
def execLui (t : Nat) (s : State) : Res State :=
  .next (s.issueOp t 0x1D fun w s =>
    .done (s.setSreg t (dOf w) (immOf w <<< 32 ||| BitVec.ofNat 64 ((s.sreg t (aOf w)).toNat % 2 ^ 32))))

/-- GETINFO items 0, 1, 2, 4 and 5; item 3, a cycle count, is open. -/
def State.info (s : State) (t fn : Nat) : Nat :=
  match fn with
  | 0 => s.fld F.TSQ_STATE.HANDLE t
  | 1 => s.fld F.ARC_SHAPE.VALID t * 2 ^ 63 + s.fld F.ARC_SHAPE.ROW_POS t * 256 + s.fld F.ARC_SHAPE.COL_POS t
  | 2 => s.course
  | 3 => s.freeNat
  | 4 => ((s.blockOf t).map Block.args).getD 0
  | _ => ((s.blockOf t).map Block.idx).getD 0

def execGetinfo (t : Nat) (s : State) : Res State :=
  .next (s.issueOp t 0x1E fun w s =>
    if 6 ≤ fnOf w then .exc (texc .illegalOp 0) s
    else
      let s' := if fnOf w = 3 then s.drawn else s
      .done (s'.setSreg t (dOf w) (BitVec.ofNat 64 (s.info t (fnOf w)))))

/-- An opcode that R108 does not list (R107). -/
def opcodeListed (op : Nat) : Bool :=
  op ≤ 0x0B || (0x10 ≤ op && op ≤ 0x1E) || (0x20 ≤ op && op ≤ 0x22) || (0x30 ≤ op && op ≤ 0x32) ||
  op = 0x40 || op = 0x41 || (0x50 ≤ op && op ≤ 0x53) || (0x60 ≤ op && op ≤ 0x63) || op = 0x70 || op = 0x80 ||
  op = 0x90 || (0xA0 ≤ op && op ≤ 0xA2) || (0xB0 ≤ op && op ≤ 0xC6)

/-- A reserved opcode raises ILLEGAL_OP. -/
def execReservedOpcode (t : Nat) (s : State) : Res State :=
  .next (s.issue t (fun op => !opcodeListed op) fun _ s => .exc (texc .illegalOp 0) s)

/-! ## Arrival counters and waits (R113, R114) -/

/-- Value of arrival counter `c` of a tile. -/
def State.actr (s : State) (t c : Nat) : Nat := s.fld F.SCP_ACTR.COUNT (t * 64 + c)

/-- The instruction issues and stalls the sequencer until the counter reaches its target, or goes on at once. -/
def execWaitc (t : Nat) (s : State) : Res State :=
  .next (s.issueOp t 0x60 fun w s =>
    .done (if s.addrM t w % 2 ^ 48 ≤ s.actr t (ctrOf w) then s
      else s.modTile t fun x => { x with waitC := some (ctrOf w, s.addrM t w % 2 ^ 48) }))

/-- A stalled WAITC's counter has reached its target; the cycles it stalled are open. -/
def execWaitcRelease (t : Nat) (s : State) : Res State :=
  .next (match (s.tile t).waitC with
    | some (c, n) =>
      if n ≤ s.actr t c then
        (s.drawn.bump F.TSQ_STALL.WAITS t s.freeNat).setFld F.TSQ_STATE.WAIT t 0
          |>.modTile t fun x => { x with waitC := none }
      else s
    | none => s)

/-- Counter CTR ← s[B][47:0]. -/
def execAcset (t : Nat) (s : State) : Res State :=
  .next (s.issueOp t 0x61 fun w s =>
    .done (s.setFld F.SCP_ACTR.COUNT (t * 64 + ctrOf w) ((s.sreg t (bOf w)).toNat % 2 ^ 48)))

/-- s[D] ← counter CTR. -/
def execAcget (t : Nat) (s : State) : Res State :=
  .next (s.issueOp t 0x62 fun w s => .done (s.setSreg t (dOf w) (BitVec.ofNat 64 (s.actr t (ctrOf w)))))

/-- Stall until every unit named in IMM[6:0] is idle. -/
def execWaitu (t : Nat) (s : State) : Res State :=
  .next (s.issueOp t 0x63 fun w s =>
    let m := w.toNat % 128
    .done (if s.unitsIdle t m then s else s.modTile t fun x => { x with waitU := some m }))

/-- Every unit a stalled WAITU names has finished; the cycles it stalled are open. -/
def execWaituRelease (t : Nat) (s : State) : Res State :=
  .next (match (s.tile t).waitU with
    | some m =>
      if s.unitsIdle t m then
        (s.drawn.bump F.TSQ_STALL.WAITS t s.freeNat).setFld F.TSQ_STATE.WAIT t 0
          |>.modTile t fun x => { x with waitU := none }
      else s
    | none => s)

/-! ## Fences (R116, R190, R194, R215) -/

/-- A fence holds later operations of its classes from its issue to its release. -/
def execFence (t : Nat) (s : State) : Res State :=
  .next (s.issueOp t 0x80 fun w s =>
    if 3 ≤ fnOf w then .exc (texc .illegalOpnd 0) s
    else .done (s.modTile t fun x => { x with fence := x.fence ++ [(fnOf w, x.clock)] }))

/-- Everything the fence waits for has been performed: copies of the block's partition on the die are published for the
wider scopes, and held operations issue. -/
def execFenceRelease (t : Nat) (s : State) : Res State :=
  .next (match (s.tile t).fence with
    | (scope, stamp) :: rest =>
      if s.fencePending t scope stamp then s
      else
        let s := s.modTile t fun x => { x with fence := rest }
        match s.blockOf t with
        | some b => if scope = 0 then s else s.publish (tileDie t) b.part
        | none => s
    | [] => s)

/-! ## Quoin cache control (R126, R127, R129) -/

/-- Invalidate every entry; fills in flight are discarded on arrival. -/
def execQinv (t : Nat) (s : State) : Res State :=
  .next (s.issueOp t 0xA0 fun _ s =>
    .done (if s.textMode t then s
      else (s.modTile t fun x =>
          { x with quoin := [], fills := x.fills.map fun f => if f.toBuf then f else { f with doomed := true } })
        |>.setFld F.TSQ_QCTL.CLEAN t 1))

/-- Enable the cache if CLEAN, or disable it. -/
def execQen (t : Nat) (s : State) : Res State :=
  .next (s.issueOp t 0xA1 fun w s =>
    if s.textMode t then .done s
    else if w.toNat.testBit 0 then
      (if s.on F.TSQ_QCTL.CLEAN t then .done (s.setFld F.TSQ_QCTL.ENABLE t 1) else .exc (texc .quoinState 0) s)
    else .done (((s.setFld F.TSQ_QCTL.ENABLE t 0).setFld F.TSQ_QCTL.CLEAN t 0).modTile t fun x =>
      { x with fetchBuf := none }))

/-- One line of a prefetch of the QPF `w`: present lines, lines outside the declared ranges and requests beyond 8 are
dropped, and those without a tracking entry (R224). -/
def State.prefetch (s : State) (t : Nat) (w : Word) (l : Nat) : State :=
  let x := s.tile t
  if (x.entry l).isSome || !(touches x.text l 128 || touches x.const l 128) ||
      x.fills.any (fun f => f.line = l && !f.doomed) || 8 ≤ (x.fills.filter Fill.pre).length || s.trackFull t false then s
  else (s.bump F.TSQ_QMISS.PREFETCHES t 1).setTile t { x with fills := x.fills ++ [⟨l, true, false, false, false, some (x.pc, w)⟩] }

/-- Request FN + 1 consecutive lines from the one holding s[A] + IMM. -/
def execQpf (t : Nat) (s : State) : Res State :=
  .next (s.issueOp t 0xA2 fun w s =>
    .done (if s.textMode t || !s.quoinOn t then s
      else (List.range (fnOf w + 1)).foldl (fun s i => s.prefetch t w (s.addrM t w / 128 * 128 + 128 * i)) s))

/-- A demand or prefetch fill arrives. -/
def execQuoinFill (t k : Nat) (s : State) : Res State := .next (s.fillArrives t k)

end Sys2Proof.Machine
end

