-- ==== Sys2Proof/Machine/Memory.lean ====
section
/-! DEFINITION. Machine/Memory.lean: scalar loads and stores, constant loads, atomics, moves, copies and fills, and the
arrival of their writes (R110 to R115, R165 to R185, R210 to R214). -/
namespace Sys2Proof.Machine

/-! ## LD, ST, LDC (R110) -/

/-- Size in bytes of LD and ST: SUB[1:0]. -/
def ldSize (w : Word) : Nat := 2 ^ (subOf w % 4)

/-- LD and ST to a virtual address: SUB[2]. -/
def ldVirtual (w : Word) : Bool := (subOf w).testBit 2

/-- An access to the own operand buffers waits for arch control (R167). -/
def State.ownBusy (s : State) (t : Nat) (c : Scr) : Bool :=
  match c with
  | .own _ => !s.unitIdle t 1
  | .at _ => false

/-- s[D] receives what was read; an uncorrectable error writes zero and fails the block with MEM_UE (R175, R229). -/
def loaded (t d : Nat) (g : Got) : Iss :=
  let v := BitVec.ofNat 64 (if g.ue then 0 else ofBytes g.data)
  .done ((if g.ue then g.st.markUe t else g.st).setSreg t d v)

/-- A tile has 8 scalar stores on their way, its credit (R102). -/
def State.scalarFull (s : State) (t : Nat) : Bool := 8 ≤ s.opsOf t .scalar

/-- A memory access of a tile gets no tracking entry, or its owner no service (R224, R399). -/
def State.noEntry (s : State) (t : Nat) (latency : Bool) : Bool := s.starvedTile t || s.trackFull t latency

/-- A tile's read of a run waits for a replay buffer of a lintel on its way to the home slices (R15, R338). -/
def State.readHeld (s : State) (t a n : Nat) : Bool :=
  (s.xlateRun t (tileDie t) 0 (s.ctxOf t) a n .read).pieces.any fun p =>
    (dieRoute (tileDie t) (s.part.homeDie p.1)).any (s.hopHeld p.1)

/-! ## Writes on their way (R181, R187, R188) -/

/-- The tile and location a scratch key names. -/
def keyScr (k : Nat) : Nat × Scr :=
  if 2 ^ 31 ≤ k then ((k - 2 ^ 31) / 2 ^ 16, .own (k % 2 ^ 16)) else ((paTile k).getD 0, .at k)

/-- A packet writes into a run. -/
def Packet.meets (p : Packet) (a n : Nat) : Bool := p.dst < a + n && a < p.dst + p.data.length

/-- The runs of a packet's bytes, each within an aligned 8 B unit, that have not been performed. -/
def Packet.left (p : Packet) : List (Nat × List Byte) :=
  ((unitsOf 8 p.dst p.data.length).filter fun u => !p.done.contains (u / 8)).map fun u =>
    (max u p.dst, (p.data.drop (u - p.dst)).take (u + 8 - max u p.dst))

/-- Bytes of a packet are put in place. -/
def State.put (s : State) (p : Packet) (a : Nat) (bs : List Byte) : State :=
  if p.toMem then s.memWrite p.agent a bs
  else let (t, c) := keyScr a; s.scrWrite t c bs

/-- A packet is wholly in place, and its bytes are counted. -/
def State.land (s : State) (p : Packet) : State :=
  let s := { s with packets := s.packets.filter fun q => q.pid ≠ p.pid }
  let s := if p.done.isEmpty then s.put p p.dst p.data else p.left.foldl (fun s u => s.put p u.1 u.2) s
  match p.ctr with
  | some (t, c) => s.count t c p.data.length
  | none => s

/-- Packets that satisfy `q` land, in the order they were sent. -/
def State.landAll (s : State) (q : Packet → Bool) : State := (s.packets.filter q).foldl State.land s

/-- Before a tile accesses bytes that an earlier store of its own writes, that store is performed (R193). -/
def State.ownStores (s : State) (t a n : Nat) : State :=
  s.landAll fun p => p.toMem && p.tile = t && p.unit = .scalar && p.meets (a / 8 * 8) (n + a % 8)

/-- Before an agent of die `d` writes bytes, the stores to them that die `d` sees already are performed (R190). -/
def State.seenStores (s : State) (d : Option Nat) (a n : Nat) : State :=
  s.landAll fun p => p.toMem && p.meets a n && (match d with
    | some d => p.seen.contains d
    | none => false)

/-- A write that `p` may not overtake: an earlier operation of the same unit of the same tile (R103), for a scalar store one
to the same bytes (R193), and for an inbound write without Relaxed Ordering every such earlier one (R201). A drain's writes
are unordered (R141). -/
def Packet.behind (p q : Packet) : Bool :=
  q.pid < p.pid && (match p.unit, q.unit with
    | .scalar, .scalar => q.tile = p.tile && q.dst / 8 = p.dst / 8
    | .hod _ _, _ => false
    | .drain _, _ => false
    | .inbound _, .inbound _ => !p.ro && !q.ro
    | u, v => u = v && q.tile = p.tile && q.stamp ≠ p.stamp)

/-- A drain's write that waits in its staging: 16 packets of a drain are on the network at once (R77). -/
def State.staged (s : State) (p : Packet) : Bool :=
  match p.unit with
  | .drain k => ((s.drainPackets k).drop 16).any fun q => q.pid = p.pid
  | _ => false

/-- Dies a write crosses from its agent's die, or from the IO die, to where its bytes go; none within a die. -/
def State.writeRoute (s : State) (p : Packet) : List (Nat × Nat) :=
  let dst := if p.toMem then s.part.homeDie p.dst
    else if 2 ^ 31 ≤ p.dst then tileDie (keyScr p.dst).1
    else match paTile p.dst with
      | some t => tileDie t
      | none => (paBank p.dst).1
  match p.agent.die with
  | some d => dieRoute d dst
  | none => [(6, dst)]

/-- A write waits for a replay buffer of a lintel it crosses (R15, R338). -/
def State.linkHeld (s : State) (p : Packet) : Bool := (s.writeRoute p).any (s.hopHeld p.dst)

/-- A write on its way gets further: as a whole, one of its 8 B units, or, a tile's store, to the sight of a die. -/
def execArrivalCount (w : Arrival) (s : State) : Res State :=
  .next (match s.packets[w.pos]? with
    | none => s
    | some p =>
      if p.toMem && s.starved p.agent.tag || s.packets.any p.behind || s.staged p || s.linkHeld p then s
      else
        match w.how with
        | .whole => (if p.toMem then s.seenStores p.agent.die p.dst p.data.length else s).land p
        | .unit a =>
          match p.left.find? fun u => u.1 / 8 = a / 8 with
          | none => s
          | some (u, bs) =>
            let s := if p.toMem then s.seenStores p.agent.die u bs.length else s
            let s := s.put p u bs
            { s with packets := s.packets.map fun q => if q.pid = p.pid then { q with done := u / 8 :: q.done } else q }
        | .seen d =>
          if p.unit ≠ .scalar || s.part.dies ≤ d then s
          else
            let s := (s.packets.filter fun q => q.pid ≠ p.pid && q.seen.contains d && q.meets p.dst p.data.length).foldl
              State.land s
            { s with packets := s.packets.map fun q => if q.pid = p.pid then { q with seen := d :: q.seen } else q })

/-! ## LD, ST (R110, R192, R193) -/

/-- Read a run of virtual addresses for a load: the tile's own earlier stores to it are performed first. -/
def State.loadRead (s : State) (t a n : Nat) : VGot :=
  let r := (s.track (tileDie t) (linesOf a n).length).xlateRun t (tileDie t) 0 (s.ctxOf t) a n .read
  r.pieces.foldl (fun v p =>
    let g := (v.st.ownStores t p.1 p.2).memRead (s.tileAgent t) p.1 p.2
    ⟨v.data ++ g.data, v.ue || g.ue, v.fault, g.st⟩) ⟨[], false, r.fault, r.st⟩

/-- Scalar load, zero-extended. -/
def execLd (t : Nat) (s : State) : Res State :=
  .next (s.issueOp t 0x20 fun w s =>
    let a := s.addrM t w
    let n := ldSize w
    if a % n ≠ 0 then .exc (texc .align a) s
    else if ldVirtual w then
      if s.fenced t then .hold wFence else if s.noEntry t false || s.readHeld t a n then .hold wCredit
      else
        let g := s.loadRead t a n
        match g.fault with
        | some f => .late (xExc f) g.st
        | none => loaded t (dOf w) ⟨g.data, g.ue, g.st⟩
    else match s.conv t t a n true false with
      | .error e => .exc e s
      | .ok c => if s.ownBusy t c then .hold wCredit else loaded t (dOf w) (s.scrRead t c n))

/-- Bytes of a unit of tile `t` set out for physical pieces. -/
def State.sendPieces (s : State) (t : Nat) (u : PUnit) (g : Agent) (fenced : Bool) (ctr : Option (Nat × Nat)) :
    List (Nat × Nat) → List Byte → State
  | [], _ => s
  | (a, n) :: ps, bs => (s.send t u g true fenced a (bs.take n) ctr).sendPieces t u g fenced ctr ps (bs.drop n)

/-- Scalar store of the low bytes of s[B]: one to a virtual address is performed later, at PACKAGE scope. -/
def execSt (t : Nat) (s : State) : Res State :=
  .next (s.issueOp t 0x21 fun w s =>
    let a := s.addrM t w
    let n := ldSize w
    let bs := bytesOf n (s.sreg t (bOf w)).toNat
    if a % n ≠ 0 then .exc (texc .align a) s
    else if ldVirtual w then
      if s.fenced t then .hold wFence
      else if s.scalarFull t || s.noEntry t false then .hold wCredit
      else
        let r := s.xlateRun t (tileDie t) 0 (s.ctxOf t) a n .write
        match r.fault with
        | some f => .late (xExc f) r.st
        | none => .done (r.st.sendPieces t .scalar (s.tileAgent t) true none r.pieces bs)
    else match s.conv t t a n true true with
      | .error e => .exc e s
      | .ok c => if s.ownBusy t c then .hold wCredit else .done (s.scrWrite t c bs))

/-- Constant load through the quoin cache. -/
def execLdc (t : Nat) (s : State) : Res State :=
  .next (s.issueOp t 0x22 fun w s =>
    let a := s.addrM t w
    if a % 8 ≠ 0 then .exc (texc .align a) s
    else match s.constRead t a 8 with
      | .got bs s => .done (s.setSreg t (dOf w) (BitVec.ofNat 64 (ofBytes bs)))
      | .miss l => .line l true
      | .bad e s => .exc e s)

/-! ## AMO (R115, R210 to R214) -/

/-- The atomic itself at a physical address: on the die-local copy for DIE scope, at the home slice otherwise. Stores to
its bytes that the tile made, or that its die sees already, are performed first (R190, R193). -/
def State.tileAmo (s : State) (t scope pa fn x cmp n : Nat) : AmoGot :=
  let g := s.tileAgent t
  let s := (s.ownStores t pa n).seenStores g.die pa n
  if scope = 0 then s.amoDie g (tileDie t) g.tag pa fn x cmp n
  else s.amoHome g pa n fun old => amoResult fn old x cmp

/-- Memory atomic: the old value goes to s[D]; an unreadable operand gives 0 and MEM_UE, memory unchanged. -/
def execAmo (t : Nat) (s : State) : Res State :=
  .next (s.issueOp t 0x70 fun w s =>
    let a := s.addrM t w
    let fn := amoFnOf w
    match amoSize fn with
    | none => .exc (texc .illegalOp 0) s
    | some n =>
      if 3 ≤ subOf w then .exc (texc .illegalOpnd 0) s
      else if a % n ≠ 0 then .exc (texc .align a) s
      else if s.fenced t then .hold wFence else if s.noEntry t false || s.readHeld t a n then .hold wCredit
      else
        let x := (s.track (tileDie t) 1).xlate t (tileDie t) 0 (s.ctxOf t) a .atomic
        match x.res with
        | .error f => .late (xExc (f, a)) x.st
        | .ok pa =>
          if subOf w = 0 && !s.copyRoom (tileDie t) (s.tileAgent t).tag (pa / 128 * 128) then
            .hold wCredit
          else
            let g := x.st.tileAmo t (subOf w) pa fn (s.sreg t (bOf w)).toNat (s.sreg t (dOf w)).toNat n
            loaded t (dOf w) ⟨bytesOf n g.old, g.ue, g.st⟩)

/-! ## Moves, copies and fills (R110, R112, R183) -/

/-- Length rules of R112: RANGE for 0 and above 2³² − 32, ALIGN for lengths and addresses that are not multiples of 32. -/
def moveCheck (n dst src : Nat) : Option TExc :=
  if n = 0 || 2 ^ 32 - 32 < n then some (texc .range 0)
  else if n % 32 ≠ 0 then some (texc .align 0)
  else if dst % 32 ≠ 0 then some (texc .align dst)
  else if src % 32 ≠ 0 then some (texc .align src) else none

/-- The move engine holds 8 operations (R102). -/
def State.moveFull (s : State) (t : Nat) : Bool := 8 ≤ s.opsOf t .move

/-- The counter a move into scratch counts on; the operand buffers have none (R183). -/
def moveCtr (t : Nat) (c : Scr) (k : Nat) : Option (Nat × Nat) :=
  match c with
  | .at pa => some (ctrFor t pa k)
  | .own _ => none

/-- A move's destination is another tile (R116). -/
def toOther (t : Nat) (c : Scr) : Bool :=
  match c with
  | .at pa => pa < 2 ^ 30 && remoteScr t pa
  | .own _ => false

/-- What the move engine reads where its own earlier operations still write: it executes them in order (R103, R173). -/
def State.afterMoves (s : State) (t : Nat) (toMem : Bool) (a : Nat) (bs : List Byte) : List Byte :=
  (s.packets.filter fun p => p.tile = t && p.unit = .move && p.toMem == toMem && p.meets a bs.length).foldl
    (fun bs p => bs.zipIdx.map fun (b, i) =>
      if p.dst ≤ a + i && a + i < p.dst + p.data.length && !p.done.contains ((a + i) / 8) then p.data.getD (a + i - p.dst) b
      else b) bs

/-- The move engine reads scratch. -/
def State.moveScr (s : State) (t : Nat) (c : Scr) (n : Nat) : Got :=
  let g := s.scrRead t c n
  ⟨s.afterMoves t false (c.key t) g.data, g.ue, if g.ue then g.st.markUe t else g.st⟩

/-- The move engine reads external memory. -/
def State.moveMem (s : State) (t a n : Nat) : VGot :=
  let r := (s.track (tileDie t) (linesOf a n).length).xlateRun t (tileDie t) 0 (s.ctxOf t) a n .read
  r.pieces.foldl (fun v p =>
    let g := v.st.memRead (s.tileAgent t) p.1 p.2
    ⟨v.data ++ s.afterMoves t true p.1 g.data, v.ue || g.ue, v.fault, if g.ue then g.st.markUe t else g.st⟩)
    ⟨[], false, r.fault, r.st⟩

/-- Copy s[D] bytes from scratch s[B] to scratch s[A] + IMM. -/
def execSmov (t : Nat) (s : State) : Res State :=
  .next (s.issueOp t 0x50 fun w s =>
    let n := (s.sreg t (dOf w)).toNat
    let dst := s.addrM t w
    let src := (s.sreg t (bOf w)).toNat
    match moveCheck n dst src with
    | some e => .exc e s
    | none => match s.conv t t src n true false, s.conv t t dst n true true with
      | .error e, _ => .exc e s
      | _, .error e => .exc e s
      | .ok a, .ok b =>
        if s.moveFull t || s.ownBusy t a || s.ownBusy t b then .hold wCredit
        else if toOther t b && s.fenced t then .hold wFence
        else
          let g := s.moveScr t a n
          .done (g.st.send t .move (s.tileAgent t) false (toOther t b) (b.key t) g.data (moveCtr t b (ctrOf w))))

/-- Copy s[D] bytes from virtual address s[B] to scratch s[A] + IMM. -/
def execMcpyIn (t : Nat) (s : State) : Res State :=
  .next (s.issueOp t 0x51 fun w s =>
    let n := (s.sreg t (dOf w)).toNat
    let dst := s.addrM t w
    let src := (s.sreg t (bOf w)).toNat
    match moveCheck n dst src with
    | some e => .exc e s
    | none => match s.conv t t dst n false true with
      | .error e => .exc e s
      | .ok b =>
        if s.moveFull t then .hold wCredit
        else if s.fenced t then .hold wFence else if s.noEntry t (s.latency t) || s.readHeld t src n then .hold wCredit
        else
          let g := s.moveMem t src n
          match g.fault with
          | some f => .late (xExc f) g.st
          | none =>
            .done (g.st.send t .move (s.tileAgent t) false true (b.key t) g.data (moveCtr t b (ctrOf w))))

/-- Copy s[D] bytes from scratch s[B] to virtual address s[A] + IMM. -/
def execMcpyOut (t : Nat) (s : State) : Res State :=
  .next (s.issueOp t 0x52 fun w s =>
    let n := (s.sreg t (dOf w)).toNat
    let dst := s.addrM t w
    let src := (s.sreg t (bOf w)).toNat
    match moveCheck n dst src with
    | some e => .exc e s
    | none => match s.conv t t src n false false with
      | .error e => .exc e s
      | .ok a =>
        if s.moveFull t then .hold wCredit
        else if s.fenced t then .hold wFence else if s.noEntry t false then .hold wCredit
        else
          let r := s.xlateRun t (tileDie t) 0 (s.ctxOf t) dst n .write
          match r.fault with
          | some f => .late (xExc f) r.st
          | none =>
            let g := r.st.moveScr t a n
            .done (g.st.sendPieces t .move (s.tileAgent t) true (some (t, ctrOf w)) r.pieces g.data))

/-- Fill s[D] bytes at scratch s[A] + IMM with repeats of s[B]. -/
def execSfill (t : Nat) (s : State) : Res State :=
  .next (s.issueOp t 0x53 fun w s =>
    let n := (s.sreg t (dOf w)).toNat
    let dst := s.addrM t w
    match moveCheck n dst 0 with
    | some e => .exc e s
    | none => match s.conv t t dst n false true with
      | .error e => .exc e s
      | .ok b =>
        if s.moveFull t then .hold wCredit
        else if toOther t b && s.fenced t then .hold wFence
        else
          let v := bytesOf 8 (s.sreg t (bOf w)).toNat
          .done (s.send t .move (s.tileAgent t) false (toOther t b) (b.key t) (List.replicate (n / 8) v).flatten
            (moveCtr t b (ctrOf w))))

/-! ## Patrol scrub -/

/-- Patrol scrub of a tile's plinth region (R180): corrected units are written back, uncorrectable ones clear VALID. -/
def execPlinthScrub (t : Nat) (s : State) : Res State :=
  let inPlinth (u : Nat) : Bool := paTile u = some t && u < 2 ^ 30 && s.plinthBase t ≤ u % 2 ^ 20
  .next (if s.on F.SCP_PLINTH.VALID t then
      (s.scrCe.filter inPlinth).foldl State.fixScrCe ((s.scrUe.filter inPlinth).foldl State.meetScrUe s)
    else s)

end Sys2Proof.Machine
end

