-- ==== Sys2Proof/Machine/Sfu.lean ====
section
/-! DEFINITION. Machine/Sfu.lean: the special-function unit (R92, R93): the exact result rounded to nearest even. The
transcendental functions are enclosed between two fixed-point bounds of growing precision until both round alike. -/
namespace Sys2Proof.Machine

/-- Lower and upper bound, in units of 2^−P. -/
structure Enc where
  lo : Nat
  hi : Nat
deriving DecidableEq, Repr

/-- Product of two enclosures. -/
def Enc.mul (P : Nat) (a b : Enc) : Enc := ⟨a.lo * b.lo / 2 ^ P, a.hi * b.hi / 2 ^ P + 1⟩

/-- Quotient by a natural number. -/
def Enc.divN (a : Enc) (n : Nat) : Enc := ⟨a.lo / n, a.hi / n + 1⟩

/-- Quotient of two enclosures with positive denominator. -/
def Enc.div (P : Nat) (a b : Enc) : Enc := ⟨a.lo * 2 ^ P / b.hi, a.hi * 2 ^ P / b.lo + 1⟩

/-- ln 2 as the sum of 1 / (k 2^k), `n` terms; the tail is below the last term. -/
def ln2Enc (P : Nat) : Enc :=
  let s := (List.range (P + 2)).foldl (fun a k => a + 2 ^ P / ((k + 1) * 2 ^ (k + 1))) 0
  ⟨s, s + P + 4⟩

/-- Terms y^k / k! summed for `n` terms, with the running term. -/
def expTerms (P : Nat) (y : Enc) : Nat → Nat → Enc → Enc → Enc
  | 0, _, t, s => ⟨s.lo, s.hi + 2 * t.hi⟩
  | n + 1, k, t, s =>
    let t' := (Enc.mul P t y).divN k
    expTerms P y n (k + 1) t' ⟨s.lo + t'.lo, s.hi + t'.hi⟩

/-- e^y for 0 ≤ y < 1. -/
def expEnc (P : Nat) (y : Enc) : Enc :=
  let one : Enc := ⟨2 ^ P, 2 ^ P⟩
  expTerms P y (P / 3 + 10) 1 one one

/-- 2^f for the fraction f = `fr` / 2^`w`, 0 ≤ f < 1. -/
def exp2Enc (P fr w : Nat) : Enc :=
  let l := ln2Enc P
  expEnc P ⟨l.lo * fr / 2 ^ w, l.hi * fr / 2 ^ w + 1⟩

/-- Terms z^(2k+1) / (2k+1) summed, with the running power. -/
def atanhTerms (P : Nat) (z2 : Enc) : Nat → Nat → Enc → Enc → Enc
  | 0, _, p, s => ⟨s.lo, s.hi + 2 * p.hi⟩
  | n + 1, k, p, s =>
    let p' := Enc.mul P p z2
    let t := p'.divN (2 * k + 1)
    atanhTerms P z2 n (k + 1) p' ⟨s.lo + t.lo, s.hi + t.hi⟩

/-- log₂ m for m = `mn` / `md` in [1, 2), in units of 2^−P. -/
def log2Enc (P mn md : Nat) : Enc :=
  let z : Enc := ⟨(mn - md) * 2 ^ P / (mn + md), (mn - md) * 2 ^ P / (mn + md) + 1⟩
  let s := atanhTerms P (Enc.mul P z z) (P / 3 + 10) 1 z z
  Enc.div P ⟨2 * s.lo, 2 * s.hi⟩ (ln2Enc P)

/-- First precision of the list whose bounds round to the same FP32 code. -/
def settle (f : Nat → FVal × FVal) : List Nat → Nat
  | [] => 0
  | [P] => rne32 (f P).1
  | P :: Ps => let (a, b) := f P; if rne32 a = rne32 b then rne32 a else settle f Ps

/-- Precisions tried, in bits. -/
def precisions : List Nat := [96, 192, 384, 768]

/-- A dyadic as integer part and fraction over 2^`w`. -/
def floorSplit (neg : Bool) (m : Nat) (e : Int) : Int × Nat × Nat :=
  if e ≥ 0 then
    let v : Int := (m * 2 ^ e.toNat : Nat)
    (if neg then -v else v, 0, 0)
  else
    let w := (-e).toNat
    let v : Int := if neg then -(m : Int) else m
    (v / (2 ^ w : Nat), (v % (2 ^ w : Nat)).toNat, w)

/-- EXP2 (R92, R93). -/
def sfuExp2 (x : Nat) : Nat :=
  match val32 x with
  | .nan => nan32
  | .inf true => 0
  | .inf false => 0x7F800000
  | .zero _ => 0x3F800000
  | .fin neg m e =>
    -- beyond these bounds the result is +Inf (x ≥ 128) or rounds to +0 (x < −200)
    if FVal.lt (.fin neg m e) (.fin true 200 0) then 0
    else if !(FVal.lt (.fin neg m e) (.fin false 128 0)) then 0x7F800000
    else if (m.log2 : Int) + e < -40 then 0x3F800000
    else
      let (n, fr, w) := floorSplit neg m e
      if fr = 0 then rne32 (.fin false 1 n)
      else settle (fun P => let b := exp2Enc P fr w; (.fin false b.lo (n - P), .fin false b.hi (n - P))) precisions

/-- RCP (R92, R93). -/
def sfuRcp (x : Nat) : Nat :=
  match val32 x with
  | .nan => nan32
  | .inf n => if n then 2 ^ 31 else 0
  | .zero n => (if n then 2 ^ 31 else 0) + 0x7F800000
  | v => rne32 (FVal.div (.fin false 1 0) v)

/-- Integer square root by bisection over `fuel` bits. -/
def isqrt (n : Nat) : Nat → Nat → Nat
  | 0, r => r
  | b + 1, r => let c := r + 2 ^ b; isqrt n b (if c * c ≤ n then c else r)

/-- RSQ (R92, R93): 1/√x with 64 fraction bits and a sticky bit. -/
def sfuRsq (x : Nat) : Nat :=
  match val32 x with
  | .nan => nan32
  | .zero n => (if n then 2 ^ 31 else 0) + 0x7F800000
  | .inf true => nan32
  | .inf false => 0
  | .fin true _ _ => nan32
  | .fin false m e =>
    let (m, e) := if e % 2 = 0 then (m, e) else (2 * m, e - 1)
    -- 1/√(m 2^e) = √(2^160 / m) 2^(−80 − e/2)
    let q := 2 ^ 160 / m
    let r := isqrt q 81 0
    let exact := r * r * m = 2 ^ 160
    rne32 (.fin false (2 * r + (if exact then 0 else 1)) (-81 - e / 2))

/-- LOG2 (R92, R93). -/
def sfuLog2 (x : Nat) : Nat :=
  match val32 x with
  | .nan => nan32
  | .zero _ => 0xFF800000
  | .inf true => nan32
  | .inf false => 0x7F800000
  | .fin true _ _ => nan32
  | .fin false m e =>
    let k := m.log2
    let n : Int := e + k
    if m = 2 ^ k then (if n = 0 then 0 else rne32 (.ofInt n 0))
    else
      settle (fun P =>
        let b := log2Enc P m (2 ^ k)
        let s : Int := n * (2 ^ P : Nat)
        (.ofInt (s + b.lo) (-P), .ofInt (s + b.hi) (-P))) precisions

/-- TANH (R92, R93). For |x| < 2^−12 the result rounds to x, since x − tanh x < x³ / 3. -/
def sfuTanh (x : Nat) : Nat :=
  match val32 x with
  | .nan => nan32
  | .inf n => (if n then 2 ^ 31 else 0) + 0x3F800000
  | .zero n => if n then 2 ^ 31 else 0
  | .fin neg m e =>
    let s := if neg then 2 ^ 31 else 0
    let a : FVal := .fin false m e
    if !(FVal.lt (FVal.mul a (.fin false 10 0)) (.fin false 91 0)) then s + 0x3F800000
    else if a.lt (.fin false 1 (-12)) then x % 2 ^ 32
    else
      -- tanh a = (E − 1) / (E + 1) with E = e^(2a) = 2^n · 2^f
      s + settle (fun P =>
        let l := ln2Enc P
        -- 2a in units of 2^−P, exact since its lowest bit is above 2^−P
        let y := m * 2 ^ (e + 1 + P).toNat
        let n := y / l.hi
        let r : Enc := ⟨y - n * l.hi, y - n * l.lo⟩
        let ex := expEnc P r
        let E : Enc := ⟨ex.lo * 2 ^ n, ex.hi * 2 ^ n⟩
        let one := 2 ^ P
        (.fin false ((E.lo - one) * 2 ^ P / (E.lo + one)) (-P), .fin false ((E.hi - one) * 2 ^ P / (E.hi + one) + 1) (-P)))
        precisions

end Sys2Proof.Machine
end

