-- ==== Sys2Proof/Machine/Corbel.lean ====
section
/-! DEFINITION. Machine/Corbel.lean: the corbel row: operand selectors, lane operations, reductions, softmax slots,
broadcast pushes and stores (R83 to R96, R118, R119). -/
namespace Sys2Proof.Machine

/-! ## Registers of the row (R83) -/

/-- A value of the row by its number: lane `l` of v`r` is 64 r + l, b`n` is 2048 + n, field `f` (M, L, C) of SX`n` is
2056 + 3 n + f. What was not written since admission is open. -/
def Tile.cval (x : Tile) (i : Nat) : Nat :=
  ((SMap.find? x.corbel i).getD (Config.freeWord (x.corbelSeed.getD 0) i)).toNat

def Tile.setCval (x : Tile) (i v : Nat) : Tile := { x with corbel := SMap.insert x.corbel i (BitVec.ofNat 64 v) }

def bIdx (n : Nat) : Nat := 2048 + n
def sxIdx (n f : Nat) : Nat := 2056 + 3 * n + f

/-- Write a lane register from its 64 values. -/
def Tile.setLanes (x : Tile) (r : Nat) (vs : List Nat) : Tile :=
  vs.zipIdx.foldl (fun x p => x.setCval (64 * r + p.2) p.1) x

/-! ## Operand selectors (R84, R118) -/

def lanes : List Nat := List.range 64

/-- The 64 lane values of a selector; queues are not empty. -/
def Tile.operand (x : Tile) (sel : Nat) : List Nat :=
  if sel < 0x20 then lanes.map fun l => x.cval (64 * sel + l)
  else if sel < 0x22 then lanes.map fun l => ((x.ls.headD []).getD l 0).toNat
  else
    let v :=
      if sel < 0x24 then ((x.bq.headD 0).toNat)
      else if sel < 0x26 then ((x.bp.headD 0).toNat)
      else if sel < 0x30 then x.cval (bIdx (sel - 0x28))
      else x.cval (sxIdx ((sel - 0x30) % 8) ((sel - 0x30) / 8)) % 2 ^ 32
    List.replicate 64 v

/-- Move waiting pushes into BP while it has room (R95). -/
def Tile.fillBp (x : Tile) : Tile :=
  let n := 16 - x.bp.length
  { x with bp := x.bp ++ x.bpWait.take n, bpWait := x.bpWait.drop n }

/-- Pop the queue a selector pops. -/
def Tile.pop (x : Tile) (sel : Nat) : Tile :=
  if sel = 0x20 then { x with ls := x.ls.tail }
  else if sel = 0x22 then { x with bq := x.bq.tail }
  else if sel = 0x24 then { x with bp := x.bp.tail }.fillBp
  else x

/-- Selectors an instruction names, by opcode (R119). -/
def selsOf (w : Word) : List Nat :=
  match opOf w with
  | 0xB0 | 0xB6 | 0xB7 => [saOf w, sbOf w, scOf w]
  | 0xB1 | 0xB2 | 0xB3 | 0xB4 | 0xB5 => [saOf w, sbOf w]
  | 0xB8 | 0xB9 | 0xBA | 0xBB | 0xBC | 0xBD | 0xBE | 0xC1 | 0xC2 | 0xC4 | 0xC5 => [saOf w]
  | _ => []

/-- Reserved selector codes, LS named more than once, or more than one broadcast-class source (R118). Whether naming the same
one twice is more than one the rule leaves open: here it is (log entry 91). -/
def selsBad (w : Word) : Bool :=
  let ss := selsOf w
  ss.any (fun c => c = 0x26 || c = 0x27 || 0x48 ≤ c) ||
  1 < (ss.filter fun c => c = 0x20 || c = 0x21).length || 1 < (ss.filter fun c => 0x22 ≤ c).length

/-- Format rules of R119. -/
def cfmtBad (w : Word) : Bool :=
  let f1 := f1Of w
  let f2 := f2Of w
  match opOf w with
  | 0xB7 => !((f1 = 3 || f1 = 4) && (f2 = 3 || f2 = 4))
  | 0xB9 => !((f1 = 0 || f1 = 1 || f1 = 3 || f1 = 4) && (f2 = 0 || f2 = 1 || f2 = 3 || f2 = 4))
  | 0xBA | 0xC5 => !isMx f1
  | 0xBD => !(f1 = 1 || f1 = 3 || f1 = 4)
  | _ => false

/-- Sub-function rules of R119. -/
def cfnBad (w : Word) : Bool :=
  match opOf w with
  | 0xBB => 5 ≤ cfnOf w
  | 0xBE => 2 ≤ cfnOf w
  | _ => false

/-! ## Lane operations (R88, R91 to R96) -/

def lo32 (x : Nat) : Nat := x % 2 ^ 32

/-- CDOT: c + Σ a[i] × b[i], rounded once (R58). -/
def dot (fa fb n : Nat) (a b c : Nat) : Nat :=
  let el (f x i : Nat) : FVal := match fmtOf f with
    | some l => l.decode (x / 2 ^ (i * fmtWidth f) % 2 ^ fmtWidth f)
    | none => .nan
  rne32 (.sum (val32 c :: (List.range n).map fun i => (el fa a i).mul (el fb b i)))

/-- Pairs of adjacent values reduced. -/
def treeLevel (f : Nat → Nat → Nat) : List Nat → List Nat
  | a :: b :: r => f a b :: treeLevel f r
  | l => l

/-- Fixed tree of 6 levels over 64 lanes (R91). -/
def tree (f : Nat → Nat → Nat) (xs : List Nat) : Nat :=
  ((List.range 6).foldl (fun l _ => treeLevel f l) (xs.map lo32)).headD 0

/-- CCVT: the element in the low bits, widening exact, narrowing as R57. -/
def cvt (f1 f2 : Nat) (sat : Bool) (x : Nat) : Nat :=
  convertOut f2 sat (if f1 = 0 then lo32 x else widen f1 x)

/-- Special functions by FN (R92). -/
def sfuFn : Nat → Nat → Nat
  | 0 => sfuExp2 | 1 => sfuRcp | 2 => sfuRsq | 3 => sfuTanh | _ => sfuLog2

def negInf32 : Nat := 0xFF800000
def one32 : Nat := 0x3F800000

/-- CSFU.EXPM. -/
def expm (m x : Nat) : Nat := if m = negInf32 then 0 else sfuExp2 (fsub x m)

/-- Largest shared exponent of an MX element format (R96). -/
def mxEmax : Nat → Int
  | 0x5 => 8 | 0x6 => 15 | 0x7 => 4 | _ => 2

/-- ⌊log₂ |v|⌋ of a nonzero finite value. -/
def FVal.exp : FVal → Option Int
  | .fin _ m e => some (e + m.log2)
  | _ => none

/-- CQMX of one group of 32 lanes: element code and scale code per lane (R96). -/
def quantGroup (code : Nat) (xs : List Nat) : List Nat :=
  let vs := xs.map val32
  if vs.any fun v => !v.isFin then xs.map fun _ => 0xFF00
  else
    let X : Int := match (vs.filterMap FVal.exp).foldl (fun (m : Option Int) e => some (max (m.getD e) e)) none with
      | none => -127
      | some m => max (-127) (min 127 (m - mxEmax code))
    let f := (fmtOf code).getD e4m3
    vs.map fun v => f.round true (v.scaled (some (-X))) + (X + 127).toNat * 256

/-- Entries CPUSHB packs: 4 BF16 or 8 FP8 lanes each (R95). -/
def pushEntries (code : Nat) (xs : List Nat) : List Word :=
  let n := if code = 1 then 4 else 8
  let w := fmtWidth code
  (List.range (64 / n)).map fun j =>
    BitVec.ofNat 64 ((List.range n).foldl (fun a i => a + convertOut code true (lo32 (xs.getD (n * j + i) 0)) * 2 ^ (w * i)) 0)

/-- CSMAX on a slot: the new M and C (R94). Where M and M_new are both +Inf the table's formula and the remark that C is 1 when
they are equal differ: here C is the formula's NaN (log entry 92). -/
def softMax (m : Nat) (xs : List Nat) : Nat × Nat :=
  let mn := fmax m (tree fmax xs)
  let c := if mn = negInf32 then one32
    else if m = negInf32 && (val32 mn).isFin then 0
    else sfuExp2 (fsub m mn)
  (mn, c)

/-! ## Stores (R90, R96, R119) -/

/-- Write bytes of a corbel store: own tile and operand buffers at once, other targets as packets. -/
def State.corbelStore (s : State) (t stamp key ctr : Nat) (bs : List Byte) : State :=
  if remoteScr t key then
    s.sendAs t stamp .corbel (s.tileAgent t) none false true false key bs (some (ctrFor t key ctr))
  else s.scrWrite t (keyScr key).2 bs

/-! ## The row issues (R86, R89) -/

/-- How the head of the corbel queue fares. -/
inductive RowOut where
  | done (s : State)
  | stall (s : State)
  | underrun

/-- A queue the instruction names is empty: it stalls if something may fill it, else underruns (R85, R86). -/
def State.emptyQueue (s : State) (t sel : Nat) : Option Bool :=
  let x := s.tile t
  if sel = 0x20 || sel = 0x21 then (if x.ls.isEmpty then some (!x.lane.isEmpty) else none)
  else if sel = 0x22 || sel = 0x23 then (if x.bq.isEmpty then some (!x.bcast.isEmpty) else none)
  else if sel = 0x24 || sel = 0x25 then (if x.bp.isEmpty then some false else none)
  else none

/-- The effect of a corbel instruction whose operands are there, on the row's registers and scratch. -/
def State.corbelDo (s : State) (t : Nat) (o : CorbelOp) : State :=
  let w := o.word
  let x := s.tile t
  let a := x.operand (saOf w)
  let b := x.operand (sbOf w)
  let c := x.operand (scOf w)
  let x' := (selsOf w).foldl Tile.pop x
  let lanesTo (vs : List Nat) : State := s.setTile t (x'.setLanes (vdOf w) vs)
  let map1 (f : Nat → Nat) : State := lanesTo (a.map f)
  let map2 (f : Nat → Nat → Nat) : State := lanesTo (List.zipWith f a b)
  let map3 (f : Nat → Nat → Nat → Nat) : State :=
    lanesTo (List.zipWith (fun p c => f p.1 p.2 c) (List.zip a b) c)
  let sx (f : Nat) : Nat := lo32 (x.cval (sxIdx (sxOf w) f))
  let set3 (m l c : Nat) : State :=
    s.setTile t (((x'.setCval (sxIdx (sxOf w) 0) m).setCval (sxIdx (sxOf w) 1) l).setCval (sxIdx (sxOf w) 2) c)
  match opOf w with
  | 0xB0 => map3 fun a b c => ffma (lo32 a) (lo32 b) (lo32 c)
  | 0xB1 => map2 fun a b => fadd (lo32 a) (lo32 b)
  | 0xB2 => map2 fun a b => fsub (lo32 a) (lo32 b)
  | 0xB3 => map2 fun a b => fmul (lo32 a) (lo32 b)
  | 0xB4 => map2 fun a b => fmax (lo32 a) (lo32 b)
  | 0xB5 => map2 fun a b => fmin (lo32 a) (lo32 b)
  | 0xB6 => map3 fun a b c => dot 1 1 4 a b (lo32 c)
  | 0xB7 => map3 fun a b c => dot (f1Of w) (f2Of w) 8 a b (lo32 c)
  | 0xB8 => map1 id
  | 0xB9 => map1 (cvt (f1Of w) (f2Of w) (satOf w))
  | 0xBA =>
    let q := quantGroup (f1Of w) ((a.map lo32).take 32) ++ quantGroup (f1Of w) ((a.map lo32).drop 32)
    let up (l : Nat) : Nat := (Config.freeWord s.freeCtr l).toNat / 2 ^ 16 * 2 ^ 16
    { (lanesTo (q.zipIdx.map fun p => p.1 + up p.2)) with freeCtr := s.freeCtr + 1 }
  | 0xBB => (map1 fun a => sfuFn (cfnOf w) (lo32 a)).bump F.CRB_SFU.RESULTS t 64
  | 0xBC => (map1 fun a => expm (sx 0) (lo32 a)).bump F.CRB_SFU.RESULTS t 64
  | 0xBD => s.setTile t { x' with bpWait := x'.bpWait ++ pushEntries (f1Of w) a }.fillBp
  | 0xBE => s.setTile t (x'.setCval (bIdx (bnOf w)) (tree (if cfnOf w = 0 then fmax else fadd) a))
  | 0xBF => s.setTile t (x'.setCval (bIdx (bnOf w)) o.s1.toNat)
  | 0xC0 => set3 negInf32 0 one32
  | 0xC1 => let (m, c) := softMax (sx 0) a; (set3 m (sx 1) c).bump F.CRB_SFU.RESULTS t 16
  | 0xC2 => set3 (sx 0) (ffma (sx 1) (sx 2) (tree fadd a)) (sx 2)
  | 0xC3 => (set3 (sx 0) (sx 1) (if sx 1 = 0 then 0 else sfuRcp (sx 1))).bump F.CRB_SFU.RESULTS t 16
  | 0xC4 =>
    let n := 2 ^ wOf w
    (s.setTile t x').corbelStore t o.stamp o.a1 (cstCtrOf w) (a.map fun v => bytesOf n v).flatten
  | 0xC5 =>
    let s := (s.setTile t x').corbelStore t o.stamp o.a1 (cstCtrOf w) (packElems (f1Of w) (a.map (· % 256)))
    s.corbelStore t o.stamp o.a2 (cstCtrOf w) (bytesOf 1 (a.getD 0 0 / 256) ++ bytesOf 1 (a.getD 32 0 / 256))
  | _ => s

/-- A stall on an empty queue is counted in cycles, whose number is open. -/
def State.countWait (s : State) (t sel : Nat) : State :=
  s.drawn.bump (if sel < 0x22 then F.CRB_STALL.LS_EMPTY else F.CRB_STALL.BCAST_EMPTY) t s.freeNat

/-- The head of the corbel queue tries to issue: a queue that nothing can fill underruns, though another would stall. -/
def State.corbelHead (s : State) (t : Nat) (o : CorbelOp) : RowOut :=
  let waits := (selsOf o.word).filterMap fun c => (s.emptyQueue t c).map fun k => (c, k)
  match waits.find? fun p => !p.2, waits with
  | some _, _ => .underrun
  | none, _ :: _ => .stall (waits.foldl (fun s p => s.countWait t p.1) s)
  | none, [] =>
    if opOf o.word = 0xC4 && 2 ^ 31 ≤ o.a1 && !s.unitIdle t 1 then .stall s
    else if opOf o.word = 0xC5 && (2 ^ 31 ≤ o.a1 || 2 ^ 31 ≤ o.a2) && !s.unitIdle t 1 then .stall s
    else .done ((s.corbelDo t o).bump F.CRB_OPS.ISSUED t 1)

/-- The row issues until it stalls. -/
def State.corbelRun (s : State) (t : Nat) : Nat → State
  | 0 => s
  | fuel + 1 =>
    match (s.tile t).corbelQ with
    | [] => s
    | o :: rest =>
      match s.corbelHead t o with
      | .stall s => s
      | .underrun => (s.raise F.CRB_EVENT.UNDERRUN t).tileExc t false o.pc o.word (texc .underrun 0)
      | .done s => (s.modTile t fun x => { x with corbelQ := rest }).corbelRun t fuel

/-- Let the row issue what it can: the queue holds at most 16 instructions. -/
def State.corbelDrain (s : State) (t : Nat) : State := s.corbelRun t ((s.tile t).corbelQ.length + 1)

/-! ## Dispatch (R102, R119) -/

/-- Dispatch a checked instruction with its captured scalars and addresses. -/
def State.corbelPut (s : State) (t : Nat) (w s1 : Word) (a1 a2 : Nat) : Iss :=
  let x := s.tile t
  if 16 ≤ x.corbelQ.length then .hold wCredit
  else
    let o : CorbelOp := ⟨w, s1, a1, a2, x.pc, x.clock⟩
    .done (s.setTile t { x with corbelQ := x.corbelQ ++ [o] })

/-- Checks shared by every corbel instruction: selectors, sub-functions, formats. -/
def corbelCheck (w : Word) : Option TExc :=
  if selsBad w then some (texc .illegalOpnd 0)
  else if cfnBad w then some (texc .illegalOp 0)
  else if cfmtBad w then some (texc .illegalFmt 0) else none

/-- Issue a corbel instruction without addresses, then let the row run. -/
def State.corbelOp (s : State) (t op : Nat) : State :=
  (s.issueOp t op fun w s =>
    match corbelCheck w with
    | some e => .exc e s
    | none => s.corbelPut t w (s.sreg t (ss1Of w)) 0 0).corbelDrain t

def execCfma (t : Nat) (s : State) : Res State := .next (s.corbelOp t 0xB0)
def execCadd (t : Nat) (s : State) : Res State := .next (s.corbelOp t 0xB1)
def execCsub (t : Nat) (s : State) : Res State := .next (s.corbelOp t 0xB2)
def execCmul (t : Nat) (s : State) : Res State := .next (s.corbelOp t 0xB3)
def execCmax (t : Nat) (s : State) : Res State := .next (s.corbelOp t 0xB4)
def execCmin (t : Nat) (s : State) : Res State := .next (s.corbelOp t 0xB5)
def execCdotBf16 (t : Nat) (s : State) : Res State := .next (s.corbelOp t 0xB6)
def execCdotFp8 (t : Nat) (s : State) : Res State := .next (s.corbelOp t 0xB7)
def execCmov (t : Nat) (s : State) : Res State := .next (s.corbelOp t 0xB8)
def execCcvt (t : Nat) (s : State) : Res State := .next (s.corbelOp t 0xB9)
def execCqmx (t : Nat) (s : State) : Res State := .next (s.corbelOp t 0xBA)
def execCsfu (t : Nat) (s : State) : Res State := .next (s.corbelOp t 0xBB)
def execCsfuExpm (t : Nat) (s : State) : Res State := .next (s.corbelOp t 0xBC)
def execCpushb (t : Nat) (s : State) : Res State := .next (s.corbelOp t 0xBD)
def execCred (t : Nat) (s : State) : Res State := .next (s.corbelOp t 0xBE)
/-- CBSET samples s[SS1] at dispatch. -/
def execCbset (t : Nat) (s : State) : Res State := .next (s.corbelOp t 0xBF)
def execCsinit (t : Nat) (s : State) : Res State := .next (s.corbelOp t 0xC0)
def execCsmax (t : Nat) (s : State) : Res State := .next (s.corbelOp t 0xC1)
def execCssum (t : Nat) (s : State) : Res State := .next (s.corbelOp t 0xC2)
def execCsfin (t : Nat) (s : State) : Res State := .next (s.corbelOp t 0xC3)

/-- Dispatch a corbel store; one to another tile or the die store waits for the fences before it (R116). -/
def State.storePut (s : State) (t : Nat) (w : Word) (a b : Scr) : Iss :=
  if (remoteScr t (a.key t) || remoteScr t (b.key t)) && s.fenced t then .hold wFence
  else s.corbelPut t w 0 (a.key t) (b.key t)

/-- Store of 64 contiguous elements of 2^W bytes at s[SS1]. -/
def execCst (t : Nat) (s : State) : Res State :=
  .next ((s.issueOp t 0xC4 fun w s =>
    let a := (s.sreg t (ss1Of w)).toNat
    match corbelCheck w with
    | some e => .exc e s
    | none =>
      if a % 2 ^ wOf w ≠ 0 then .exc (texc .align a) s
      else match s.conv t t a (64 * 2 ^ wOf w) true true with
        | .error e => .exc e s
        | .ok c => s.storePut t w c c).corbelDrain t)

/-- Store of 64 packed element codes at s[SS1] and two scale bytes at s[SS2]. The element address is aligned to its element
width as a CST's is, which no byte address of elements of 8 bits or fewer can fail (log entry 30). -/
def execCstMx (t : Nat) (s : State) : Res State :=
  .next ((s.issueOp t 0xC5 fun w s =>
    let a := (s.sreg t (ss1Of w)).toNat
    let b := (s.sreg t (ss2Of w)).toNat
    match corbelCheck w with
    | some e => .exc e s
    | none =>
      match s.conv t t a (8 * fmtWidth (f1Of w)) true true, s.conv t t b 2 true true with
        | .error e, _ => .exc e s
        | _, .error e => .exc e s
        | .ok c, .ok d => s.storePut t w c d).corbelDrain t)

/-- s[SS1] ← bn, once every earlier corbel instruction that writes bn has completed. It never enters the corbel row, so that
CRB_OPS does not count it (log entry 93). -/
def execCbget (t : Nat) (s : State) : Res State :=
  .next (s.issueOp t 0xC6 fun w s =>
    let x := s.tile t
    if x.corbelQ.any fun o => (opOf o.word = 0xBE || opOf o.word = 0xBF) && bnOf o.word = bnOf w then .hold wReg
    else .done (s.setSreg t (ss1Of w) (BitVec.ofNat 64 (x.cval (bIdx (bnOf w))))))

end Sys2Proof.Machine
end

