-- ==== Sys2Proof/Machine/Feeder.lean ====
section
/-! DEFINITION. Machine/Feeder.lean: descriptors as the sequencer reads and checks them, and what the row and weight
feeders read under them (R131 to R150, R163, R167). -/
namespace Sys2Proof.Machine

/-! ## Reading descriptors (R110, R131, R132) -/

/-- The 64 B descriptor at an address, from the constant range or from scratch; a failed read is an exception, precise
but for FETCH_UE, or a wait for a line. -/
inductive Desc where
  | got (d : List Byte) (s : State)
  | miss (l : Nat)
  | exc (e : TExc) (s : State)
  | late (e : TExc) (s : State)

/-- Read `n` bytes of a descriptor or table at an address aligned to `al`. -/
def State.descRead (s : State) (t : Nat) (scratch : Bool) (a al n : Nat) : Desc :=
  if a % al ≠ 0 then .exc (texc .align a) s
  else if scratch then
    match s.conv t t a n false false with
    | .error e => .exc e s
    | .ok c =>
      let g := s.scrRead t c n
      if g.ue then .late (texc .fetchUe a) (g.st.markUe t) else .got g.data g.st
  else if 2 ^ 48 ≤ a then .exc ⟨.xlate, a, xVaRange⟩ (s.wideVa t 0 a .fetch)
  else match s.constRead t a n with
    | .got d s => .got d s
    | .miss l => .miss l
    | .bad e s => if e.code = .textRange then .exc e s else .late e s

/-- Continue an issue with a descriptor. -/
def Desc.bind (d : Desc) (f : List Byte → State → Iss) : Iss :=
  match d with
  | .got b s => f b s
  | .miss l => .line l false
  | .exc e s => .exc e s
  | .late e s => .late e s

/-! ## Checks (R133 to R139, R145, R146, R154) -/

/-- Corbel codes of R39 a lane stream may name. -/
def corbelFmt (c : Nat) : Bool := c = 0 || c = 1 || c = 3 || c = 4

/-- Kinds and formats of R135. -/
def rowFmtOk (kind fmt : Nat) (lstr : Bool) : Bool :=
  match kind with
  | 0 | 3 => if lstr then corbelFmt fmt else isArrayFmt fmt
  | 1 => !lstr && isMx fmt
  | 2 => if lstr then fmt = 1 || fmt = 3 || fmt = 4 else isArrayFmt fmt && !isMx fmt
  | 4 => lstr && (fmt = 0 || fmt = 1)
  | _ => false

/-- A scratch address of a descriptor names region 0b10 or 0b11 or exceeds 32 bits (R123, R167). -/
def regionBad (a : Nat) : Bool := 2 ^ 32 ≤ a || 2 ≤ bits a 31 30

/-- Elements per lane of a KV entry (R148). -/
def kvG (fmt : Nat) : Nat := 64 / fmtWidth fmt

/-- The verdict on a descriptor: a precise exception, the late UNIT_ABSENT, or none. -/
inductive Verdict where
  | ok
  | exc (e : TExc)
  | late (e : TExc)

/-- First exception of a list of conditions. -/
def firstExc : List (Bool × TExc) → Verdict
  | [] => .ok
  | (true, e) :: _ => .exc e
  | (false, _) :: l => firstExc l

/-- Checks of a row feeder descriptor under LSTR with `n` entries, or under the RSTREAM of an arch with `rows` tile rows. -/
def rowCheck (p : Part) (lstr : Bool) (rows n : Nat) (d : List Byte) : Verdict :=
  let k := rdKind d
  let f := rdFmt d
  if 4 < k then .exc (texc .illegalOpnd 0)
  else if !rowFmtOk k f lstr then .exc (texc .illegalFmt 0)
  else if (k = 1 && !p.hasAshlar) || (k = 4 && !(bits p.units 11 8 ≠ 0)) then .late (texc .unitAbsent 0)
  else
    let lay := rdLayout d
    firstExc [
      (k = 2 && (if lstr then 1 < lay else lay ≠ 2), texc .illegalOpnd 0),
      (k = 2 && 65535 < rdK d, texc .range 0),
      (k = 2 && lstr && lay = 0 && (rdK d = 0 || rdK d % kvG f ≠ 0), texc .range 0),
      (k = 2 && lstr && lay = 1 && (rdK d = 0 || rdK d % 64 ≠ 0), texc .range 0),
      (k ≠ 4 && rdBase d % 16 ≠ 0, texc .align (rdBase d)),
      (rdRow d % 16 ≠ 0, texc .align (rdBase d)),
      (lstr && k = 0 && ((rdBase d + rdStart d * rdRow d) % 64 ≠ 0 || (1 < n && rdRow d % 64 ≠ 0)), texc .align (rdBase d)),
      (!lstr && 1 < rows && (k = 0 || k = 3) && rdTrow d % 16 ≠ 0, texc .align (rdBase d)),
      (rdSpace d && regionBad (rdBase d), texc .scrRange (rdBase d)),
      (!lstr && isMx f && rdScaleSpace d && regionBad (rdScale d), texc .scrRange (rdScale d)),
      ((2 ≤ k) && rdArgSpace d && regionBad (rdArg d), texc .scrRange (rdArg d))]

/-- Codes whose K-major layout is allowed (R137). -/
def kMajorFmt (c : Nat) : Bool := (1 ≤ c && c ≤ 4) || isInt c

/-- Checks of a weight feeder descriptor. -/
def weightCheck (p : Part) (d : List Byte) : Verdict :=
  let k := wdKind d
  let f := wdFmt d
  if 1 < k then .exc (texc .illegalOpnd 0)
  else if !pairOk f (wdAct d) then .exc (texc .illegalFmt 0)
  else if !wdNMajor d && (k ≠ 0 || !kMajorFmt f || wdSparse d) then .exc (texc .illegalFmt 0)
  else if k = 1 && !isMx f then .exc (texc .illegalFmt 0)
  else if k = 1 && !p.hasAshlar then .late (texc .unitAbsent 0)
  else firstExc [
    (wdBase d % 16 ≠ 0 || wdLine d % 16 ≠ 0, texc .align (wdBase d)),
    (wdSpace d && regionBad (wdBase d), texc .scrRange (wdBase d)),
    (isMx f && wdScaleSpace d && regionBad (wdScale d), texc .scrRange (wdScale d)),
    (k = 0 && wdSparse d && wdMaskSpace d && regionBad (wdMask d), texc .scrRange (wdMask d))]

/-! ## Reads of a feeder (R132, R163) -/

/-- A feeder at work: the state, whether an uncorrectable error was met, the exception that ends its operation, and the table
entries its stream has read (R149). -/
structure Feed where
  st : State
  ue : Bool
  exc : Option TExc
  kv : SMap (List Byte)

/-- A feeder that starts to work. -/
def Feed.start (s : State) (kv : SMap (List Byte)) : Feed := ⟨s, false, none, kv⟩

/-- A feeder's reads, one after another. -/
abbrev FeedM := StateM Feed

/-- A feeder or drain of member `m` reads `n` bytes for the tile `t` that dispatched the operation; after an exception it
reads nothing more. -/
def feedRead (t m : Nat) (scratch : Bool) (a n : Nat) : FeedM (List Byte) := fun f =>
  let zeros := List.replicate n (0 : Byte)
  if n = 0 then ([], f)
  else match f.exc with
    | some _ => (zeros, f)
    | none =>
      if scratch then
        match f.st.conv t m a n false false with
        | .error e => (zeros, { f with exc := some e })
        | .ok c =>
          let g := f.st.scrRead m c n
          (g.data, { f with st := g.st, ue := f.ue || g.ue })
      else
        let g := f.st.vaRead (some (tileDie m)) m (tileDie m) 1 (f.st.ctxOf t) a n .read
        match g.fault with
        | some x => (zeros, { f with st := g.st, exc := some (xExc x) })
        | none => (g.data, { f with st := g.st, ue := f.ue || g.ue })

/-- Change a register of the machine from a feeder. -/
def feedSet (g : State → State) : FeedM Unit := fun f => ((), { f with st := g f.st })

/-- A feeder's read, whose bytes count on a register of the member unless an exception ended it (R163). -/
def feed (t m : Nat) (scratch : Bool) (a n : Nat) (ctr : Fld) : FeedM (List Byte) := do
  let bs ← feedRead t m scratch a n
  fun f => (bs, if f.exc.isSome then f else { f with st := f.st.bump ctr m n })

/-- Bytes that hold `n` packed elements of a code (R42). -/
def packBytes (code n : Nat) : Nat :=
  let w := fmtWidth code
  if 8 ≤ w then n * w / 8 else if w = 4 then ceilDiv n 2 else ceilDiv n 4 * 3

/-- An element of +0 with scale 1. -/
def zeroEl : Nat × Nat := (0, 127)

/-- Packed elements with the scale byte of their block of 32. -/
def elems (code : Nat) (bs sc : List Byte) (n : Nat) : List (Nat × Nat) :=
  (List.range n).map fun j =>
    (unpack code bs j, if isMx code then (sc.getD (j / 32) 127).toNat else 127)

/-- Pad a slice with +0 to `n` elements (R64). -/
def padTo (n : Nat) (xs : List (Nat × Nat)) : List (Nat × Nat) := xs ++ List.replicate (n - xs.length) zeroEl

/-! ## Scratch fields at dispatch (R123, R131, R132) -/

/-- The first of `n` conditions that gives an exception. -/
def firstOf : Nat → Nat → (Nat → Option TExc) → Option TExc
  | 0, _, _ => none
  | n + 1, i, f => (f i).orElse fun _ => firstOf n (i + 1) f

/-- Runs of `len` bytes at `a`, `a + step`, … of a scratch field of a descriptor: each has to convert. -/
def State.runsBad (s : State) (t : Nat) (scratch : Bool) (a step len n : Nat) : Option TExc :=
  if !scratch || len = 0 then none
  else firstOf (if step = 0 then min n 1 else n) 0 fun i => match s.conv t t (a + i * step) len false false with
    | .error e => some e
    | .ok _ => none

/-- Entries a chunk of 64 tokens has in a lane layout (R148). -/
def chunkLen (d : List Byte) : Nat :=
  let g := kvG (rdFmt d)
  if rdLayout d = 0 then rdK d / g else 64 / g * (rdK d / 64)

/-- The last token a lane stream of `n` entries gathers. -/
def lastToken (d : List Byte) (n : Nat) : Nat := rdFirst d + 64 * ((n - 1) / chunkLen d) + 63

/-- What a descriptor's scratch fields name, as far as it does not depend on what the feeder reads: for `n` streamed rows of
an arch of `rows` tile rows with `c` K positions per PE row, or `n` entries of a lane stream or tokens of a sort. A gather's rows are converted when they
are known (log entry 95). -/
def State.rowScrBad (s : State) (t : Nat) (lstr : Bool) (rows n c : Nat) (d : List Byte) : Option TExc :=
  let f := rdFmt d
  let len := if lstr then 512 else packBytes f (64 * c)
  let row0 (a : Nat) : Option TExc := s.runsBad t (rdSpace d) a 0 1 1
  match rdKind d with
  | 0 =>
    firstOf (if lstr then 1 else rows) 0 fun i =>
      (s.runsBad t (rdSpace d) (rdBase d + rdStart d * rdRow d + i * rdTrow d) (rdRow d)
        (if lstr then 512 else min len (packBytes f (rdK d - 64 * c * i))) n).orElse fun _ =>
      if isMx f && !lstr then
        s.runsBad t (rdScaleSpace d) (rdScale d + rdStart d * rdScaleRow d + i * rdScaleTrow d) (rdScaleRow d)
          (min (2 * c) (ceilDiv (rdK d - 64 * c * i) 32)) n
      else none
  | 1 => (row0 (rdBase d + rdStart d * rdRow d)).orElse fun _ =>
      s.runsBad t (rdScaleSpace d) (rdScale d + rdStart d * rdScaleRow d) (rdScaleRow d) 32 n
  | 2 =>
    let last := if lstr then lastToken d n else rdFirst d + n - 1
    (row0 (rdBase d)).orElse fun _ =>
      s.runsBad t (rdArgSpace d) (rdArg d + 4 * (rdFirst d / 16)) 4 4 (last / 16 + 1 - rdFirst d / 16)
  | 3 => (row0 (rdBase d)).orElse fun _ =>
      ((if isMx f && !lstr then s.runsBad t (rdScaleSpace d) (rdScale d) 0 1 1 else none).orElse fun _ =>
        s.runsBad t (rdArgSpace d) (rdArg d + 16 * rdStart d) 16 16 n)
  | _ => none

/-- Slices of a weight tensor's lines that an arch of `a` × `b` tiles reads from scratch. -/
def State.weightScrBad (s : State) (t : Nat) (a b : Nat) (d : List Byte) : Option TExc :=
  let w := fmtWidth (wdFmt d)
  let kn := 64 * wdC d
  let nn := min (wdN d) (64 * b)
  let kk (i : Nat) : Nat := min (wdK d - kn * i) kn
  let perRow (f : Nat → Option TExc) : Option TExc := firstOf a 0 fun i => if kk i = 0 then none else f i
  if wdKind d = 1 then
    (s.runsBad t (wdSpace d) (wdBase d) 0 1 1).orElse fun _ =>
      perRow fun i => s.runsBad t (wdScaleSpace d) (wdScale d + 32 * (kn * i / 512)) (wdScaleLine d) 32 nn
  else if wdNMajor d then
    perRow fun i =>
      let k0 := kn * i
      let el := if wdSparse d then packBytes (wdFmt d) (2 * ceilDiv (kk i) 4) else packBytes (wdFmt d) (kk i)
      (s.runsBad t (wdSpace d) (wdBase d + (if wdSparse d then k0 / 2 else k0) * w / 8) (wdLine d) el nn).orElse fun _ =>
        ((if isMx (wdFmt d) then
            s.runsBad t (wdScaleSpace d) (wdScale d + k0 / 32) (wdScaleLine d) (ceilDiv (kk i) 32) nn
          else none).orElse fun _ =>
          if wdSparse d then s.runsBad t (wdMaskSpace d) (wdMask d + k0 / 8) (wdMaskLine d) (ceilDiv (ceilDiv (kk i) 4) 2) nn
          else none)
  else firstOf b 0 fun j =>
    s.runsBad t (wdSpace d) (wdBase d + 64 * j * w / 8) (wdLine d) (packBytes (wdFmt d) (min (wdN d - 64 * j) 64))
      (min (wdK d) (kn * a))

/-! ## Ashlar blocks (R142 to R145) -/

/-- Payload size of a block (R143). -/
def ashSize (code : Nat) (sparse : Bool) : Nat := if sparse then 4 + packBytes code 16 else packBytes code 32

/-- An expanded block: per position the element, none where a 2:4 form leaves it out. -/
abbrev ABlock := List (Option (Nat × Nat))

/-- Stored pair of each group placed at the positions its mask selects (R54). -/
def spread (code : Nat) (mask : Nat) (bs : List Byte) (sc groups : Nat) (blank : Option (Nat × Nat)) : ABlock :=
  ((List.range groups).map fun g =>
    let sel := maskSel (mask / 2 ^ (4 * g) % 16)
    (List.range 4).map fun p =>
      match sel.idxOf? p with
      | some i => some (unpack code bs (2 * g + i), sc)
      | none => blank).flatten

/-- An element code is ±0. -/
def codeZero (code x : Nat) : Bool := x % 2 ^ (fmtWidth code - 1) = 0

/-- A dense block reduced to 2:4 form, and whether a third non-zero element was dropped (R144). -/
def reduce24 (code : Nat) (b : List (Nat × Nat)) : ABlock × Bool :=
  let gs := (List.range 8).map fun g => (b.drop (4 * g)).take 4
  let nz (g : List (Nat × Nat)) : List Nat := (List.range 4).filter fun p => !codeZero code (g.getD p zeroEl).1
  ((gs.map fun g => (List.range 4).map fun p =>
      if ((nz g).take 2).contains p then some (g.getD p zeroEl) else none).flatten,
    gs.any fun g => 2 < (nz g).length)

/-- Blocks `b0` to `b0 + n − 1` of an ashlar line, which lie in one header group: `payload` and `header` are the line's
bases, `two` the 2:4 form of the weight feeder (R144). -/
def ashBlocks (t m : Nat) (code : Nat) (space scSpace : Bool) (payload header b0 n : Nat) (two : Bool) (ctr : Fld) :
    FeedM (List ABlock) := do
  let h ← feed t m scSpace (header + 32 * (b0 / 16)) 32 ctr
  let off := le h 0 4 / 4 * 4
  let zero (j : Nat) : Bool := (le h 20 2).testBit j
  let sparse (j : Nat) : Bool := (le h 22 2).testBit j
  (List.range n).mapM fun i => do
    let j := b0 % 16 + i
    let sc := le h (4 + j) 1
    feedSet fun s => (s.bump F.FDR_ASHLAR.BLOCKS m 1).bump F.FDR_ASHLAR.ZERO_BLOCKS m (bitN (zero j))
    if zero j then
      return if two then ((List.range 32).map fun p => if sc = 255 && p % 4 < 2 then some (0, sc) else none)
        else List.replicate 32 (some (0, sc))
    else
      let at_ := payload + off + (List.range j).foldl (fun a q => if zero q then a else a + ashSize code (sparse q)) 0
      let bs ← feed t m space at_ (ashSize code (sparse j)) ctr
      if sparse j then return spread code (le bs 0 4) (bs.drop 4) sc 8 (if two then none else some (0, sc))
      else
        let b := (List.range 32).map fun p => (unpack code bs p, sc)
        if two then
          let (r, fix) := reduce24 code b
          feedSet fun s => if fix then s.raise F.FDR_EVENT.ASHLAR_FIX m else s
          return r
        else return b.map some

/-! ## Activations (R134, R145 to R150) -/

def padToken : Nat := 0xFFFFFFFF

/-- TOKEN of routing record `i` of an INDEXED descriptor (R150). -/
def tokenOf (t m : Nat) (d : List Byte) (i : Nat) : FeedM Nat := do
  let r ← feed t m (rdArgSpace d) (rdArg d + 16 * i) 4 F.FDR_RD_BYTES.BYTES
  return ofBytes r

/-- Read 32 table entries, up to that of the stream's last token, and hold them under `key`. -/
def kvHold (t m : Nat) (d : List Byte) (key k last : Nat) : FeedM Unit := do
  let n := min 128 (4 * (last / 16 + 1) - 128 * k)
  let bs ← feed t m (rdArgSpace d) (rdArg d + 128 * k) n F.FDR_RD_BYTES.BYTES
  fun f => ((), { f with kv := SMap.insert f.kv key bs })

/-- Table entry of token `tk`: the feeder reads entries 128 B at a time and keeps what it has read; whether it reads the next
ones already now is open (R149, log entry 94). `lane` tells the feeders of a stream apart. -/
def kvEntry (t m : Nat) (d : List Byte) (lane tk last : Nat) : FeedM Nat := do
  let k := tk / 512
  let key := lane * 2 ^ 32 + k
  let held (k : Nat) : FeedM Bool := fun f => ((SMap.find? f.kv k).isSome, f)
  let now ← held key
  if !now then kvHold t m d key k last
  let next ← held (key + 1)
  let ahead ← (fun f => (f.st.freeNat % 2 = 1, { f with st := f.st.drawn }) : FeedM Bool)
  if ahead && !next && k < last / 512 then kvHold t m d (key + 1) (k + 1) last
  fun f => (le (SMap.get f.kv [] key) (4 * (tk / 16 % 32)) 4, f)

/-- Address of token `tk` of a KV gather, none for an absent page (R147); `fresh` counts the page. -/
def kvAddr (t m : Nat) (d : List Byte) (lane tk last : Nat) (fresh : Bool) : FeedM (Option Nat) := do
  let p ← kvEntry t m d lane tk last
  let absent := p = padToken
  if fresh then
    feedSet fun s => s.bump (if absent then F.FDR_KV.ABSENT else F.FDR_KV.PAGES) m 1
  return if absent then none else some (rdBase d + p * rdTrow d + tk % 16 * rdRow d)

/-- The gather first meets a token's page at this token. -/
def kvFresh (d : List Byte) (tk : Nat) : Bool := tk = rdFirst d || tk % 16 = 0

/-- Slice of 64 c activations of streamed row `r`, of `rows`, for tile row `i`, read by member `m` (R134). -/
def actSlice (t m : Nat) (d : List Byte) (rows r i c : Nat) : FeedM (List (Nat × Nat)) := do
  let code := rdFmt d
  let kn := 64 * c
  let k0 := kn * i
  let kk := min (rdK d - k0) kn
  let ctr := F.FDR_RD_BYTES.BYTES
  let dense (row : Nat) : FeedM (List (Nat × Nat)) := do
    let bs ← feed t m (rdSpace d) (rdBase d + row * rdRow d + i * rdTrow d) (packBytes code kk) ctr
    let sc ← feed t m (rdScaleSpace d) (rdScale d + row * rdScaleRow d + i * rdScaleTrow d)
      (if isMx code then ceilDiv kk 32 else 0) ctr
    return padTo kn (elems code bs sc kk)
  match rdKind d with
  | 1 =>
    let line := rdStart d + r
    let n := ceilDiv kk 32
    if n = 0 then return padTo kn []
    else
      let bl ← ashBlocks t m code (rdSpace d) (rdScaleSpace d) (rdBase d + line * rdRow d)
        (rdScale d + line * rdScaleRow d) (2 * c * i) n false ctr
      return padTo kn ((bl.flatten.map fun e => e.getD zeroEl).take kk)
  | 2 =>
    let tk := rdFirst d + r
    let a ← kvAddr t m d i tk (rdFirst d + rows - 1) (kvFresh d tk)
    match a with
    | none => return padTo kn []
    | some a =>
      let bs ← feed t m (rdSpace d) (a + k0 * fmtWidth code / 8) (packBytes code kk) ctr
      return padTo kn (elems code bs [] kk)
  | 3 =>
    let tk ← tokenOf t m d (rdStart d + r)
    if tk = padToken then return padTo kn [] else dense tk
  | _ => dense (rdStart d + r)

/-! ## Weights (R136 to R138, R142 to R145) -/

/-- Weight elements of one column from a dense slice: every K position is held. -/
def denseCol (kn : Nat) (xs : List (Nat × Nat)) : List WEl :=
  (padTo kn xs).zipIdx.map fun p => ⟨p.2, p.1.1, p.1.2⟩

/-- Weight elements of one column from a 2:4 slice: selected positions, and +0 beyond the K extent (R55, R64). -/
def sparseCol (kn kk : Nat) (xs : ABlock) : List WEl :=
  (List.range kn).filterMap fun k =>
    if kk ≤ k then some ⟨k, 0, 127⟩ else (xs.getD k none).map fun e => ⟨k, e.1, e.2⟩

/-- The columns `js` of a member's block (R137): their weight elements. -/
def weightCols (t m : Nat) (d : List Byte) (rho gam : Nat) (js : List Nat) : FeedM (List (List WEl)) := do
  let code := wdFmt d
  let kn := 64 * wdC d
  let k0 := kn * rho
  let n0 := 64 * gam
  let kk := min (wdK d - k0) kn
  let nn := if kk = 0 then 0 else min (wdN d - n0) 64
  let ctr := F.FDR_WT_BYTES.BYTES
  let w := fmtWidth code
  if wdNMajor d then
    js.mapM fun j => do
      let n := n0 + j
      if nn ≤ j then return denseCol kn []
      else if wdKind d = 1 then
        let bl ← ashBlocks t m code (wdSpace d) (wdScaleSpace d) (wdBase d + n * wdLine d)
          (wdScale d + n * wdScaleLine d) (k0 / 32) (ceilDiv kk 32) (wdSparse d) ctr
        if wdSparse d then return sparseCol kn kk bl.flatten
        else return denseCol kn ((bl.flatten.map fun e => e.getD zeroEl).take kk)
      else
        let sc ← feed t m (wdScaleSpace d) (wdScale d + n * wdScaleLine d + k0 / 32)
          (if isMx code then ceilDiv kk 32 else 0) ctr
        if wdSparse d then
          let gs := ceilDiv kk 4
          let bs ← feed t m (wdSpace d) (wdBase d + n * wdLine d + k0 / 2 * w / 8) (packBytes code (2 * gs)) ctr
          let mk ← feed t m (wdMaskSpace d) (wdMask d + n * wdMaskLine d + k0 / 8) (ceilDiv gs 2) ctr
          let xs := spread code (ofBytes mk) bs 127 gs none
          return sparseCol kn kk (xs.zipIdx.map fun p => p.1.map fun e =>
            (e.1, if isMx code then (sc.getD (p.2 / 32) 127).toNat else 127))
        else
          let bs ← feed t m (wdSpace d) (wdBase d + n * wdLine d + k0 * w / 8) (packBytes code kk) ctr
          return denseCol kn (elems code bs sc kk)
  else
    let rows ← (List.range kk).mapM fun k =>
      feed t m (wdSpace d) (wdBase d + (k0 + k) * wdLine d + n0 * w / 8) (packBytes code nn) ctr
    return js.map fun j =>
      if nn ≤ j then denseCol kn [] else denseCol kn (rows.map fun bs => (unpack code bs j, 127))

/-! ## Lane stream entries (R135, R148, R150) -/

/-- Doublewords of 512 bytes. -/
def laneWords (bs : List Byte) : List Word := lanes.map fun l => BitVec.ofNat 64 (le bs (8 * l) 8)

/-- Entry `u` of a pass of a lane stream of tile `t`, of `n` entries, under a row feeder descriptor. An entry whose address is
not a multiple of 64 is an exception when its row is known (R111). -/
def laneEntry (t : Nat) (d : List Byte) (n u : Nat) : FeedM (List Word) := do
  let ctr := F.FDR_RD_BYTES.BYTES
  let code := rdFmt d
  let last := lastToken d n
  let row (r : Nat) : FeedM (List Word) := do
    let a := rdBase d + r * rdRow d
    if a % 64 ≠ 0 then (fun f => ((), { f with exc := f.exc.orElse fun _ => some (texc .align a) }) : FeedM Unit)
    let bs ← feed t t (rdSpace d) a 512 ctr
    return laneWords bs
  let word (tk off n : Nat) (fresh : Bool) : FeedM Nat := do
    let a ← kvAddr t t d 0 tk last fresh
    match a with
    | none => return 0
    | some a =>
      let bs ← feed t t (rdSpace d) (a + off) n ctr
      return ofBytes bs
  match rdKind d with
  | 3 =>
    let tk ← tokenOf t t d (rdStart d + u)
    if tk = padToken then return List.replicate 64 0 else row tk
  | 2 =>
    let g := kvG code
    let w := fmtWidth code
    if rdLayout d = 0 then
      let len := chunkLen d
      let i := u % len
      lanes.mapM fun j => do
        let tk := rdFirst d + 64 * (u / len) + j
        let v ← word tk (8 * i) 8 (i = 0 && kvFresh d tk)
        return BitVec.ofNat 64 v
    else
      let hN := rdK d / 64
      let len := chunkLen d
      let tau := u % len / hN
      let h := u % len % hN
      let cols ← (List.range g).mapM fun n => do
        let tk := rdFirst d + 64 * (u / len) + g * tau + n
        let a ← kvAddr t t d 0 tk last (h = 0 && kvFresh d tk)
        match a with
        | none => return ([] : List Byte)
        | some a => feed t t (rdSpace d) (a + 64 * h * w / 8) (64 * w / 8) ctr
      return lanes.map fun l => BitVec.ofNat 64
        ((cols.zipIdx.map fun p => le p.1 (l * w / 8) (w / 8) * 2 ^ (w * p.2)).foldl (· + ·) 0)
  | _ => row (rdStart d + u)

end Sys2Proof.Machine
end

