-- ==== Sys2Proof/Machine/Riddle.lean ====
section
/-! DEFINITION. Machine/Riddle.lean: the riddle sorter (R154 to R162). -/
namespace Sys2Proof.Machine

/-! ## Submission checks (R154 to R156) -/

/-- A write of `n` bytes at a job's output address is refused when it names scratch it may not write. -/
def State.outBad (s : State) (t : Nat) (scratch : Bool) (a n : Nat) : Option TExc :=
  if scratch then
    match s.conv t t a n false true with
    | .error e => some e
    | .ok _ => none
  else none

/-- An expert's bucket: a scratch one must resolve through a TILE slot and lie in that tile's scratch (R156). -/
def State.bucketBad (s : State) (t : Nat) (e : List Byte) : Option TExc :=
  let a := exDest e
  if a % 16 ≠ 0 then some (texc .align a)
  else if exVirtual e then none
  else if a < 2 ^ 32 && bits a 31 30 = 1 then some (texc .reloc a)
  else s.outBad t true a (16 * exCap e)

/-- Checks of a job descriptor (R155). -/
def jobBad (j : List Byte) : Option TExc :=
  let e := jdExperts j
  let k := jdTopk j
  if e = 0 || 256 < e || k = 0 || 8 < k || e < k then some (texc .range 0) else none

/-- Expert entries of a table. -/
def experts (n : Nat) (bs : List Byte) : List (List Byte) := (List.range n).map fun i => (bs.drop (16 * i)).take 16

/-! ## Selection and gates (R157, R158) -/

/-- Insert an expert by score, higher first; equal scores keep the lower number first. -/
def rankIn (sc : Nat → Nat) (e : Nat) : List Nat → List Nat
  | [] => [e]
  | f :: l => if (val32 (sc f)).lt (val32 (sc e)) then e :: f :: l else f :: rankIn sc e l

/-- The experts selected for a token, rank 0 first. -/
def selectExperts (caps : List Nat) (sc : Nat → Nat) (k : Nat) : List Nat :=
  (((List.range caps.length).filter fun e => 0 < caps.getD e 0 && !(val32 (sc e)).isNan).foldl
    (fun l e => rankIn sc e l) []).take k

/-- Sum of the selected gates (R158): up to two are one FP32 addition; the order of more is not stated. -/
def sumGates : List Nat → Nat
  | [] => 0
  | [a] => a
  | [a, b] => fadd a b
  | l => Config.gateSum l

/-- e^−y for a value y ≥ 0, to about 100 bits; from 1,024 on, where it is far below FP32, as 2^−1477. -/
def expNeg : FVal → FVal
  | .zero _ => .fin false 1 0
  | .inf _ => .zero false
  | .nan => .nan
  | .fin _ m e =>
    if !(FVal.lt (.fin false m e) (.fin false 1024 0)) then .fin false 1 (-1477)
    else
      let y := if 0 ≤ e + 128 then m * 2 ^ (e + 128).toNat else m / 2 ^ (-(e + 128)).toNat
      let l := (ln2Enc 128).lo
      let n := y / l + 1
      .fin false (expEnc 128 ⟨n * l - y, n * l - y⟩).lo (-(n : Int) - 128)

/-- Exact difference of two values. -/
def FVal.sub (a b : FVal) : FVal := .sum [a, b.neg]

/-- Largest of a list of values that are not NaN. -/
def FVal.top (l : List FVal) : FVal := l.foldl (fun m v => if m.lt v then v else m) (.inf true)

/-- The gate of expert `e` that R158 states, before any RENORM: SIGMOID, or a softmax over the experts `among`. -/
def exactGate (score : Nat) (xs among : List Nat) (e : Nat) : FVal :=
  let v (e : Nat) : FVal := val32 (xs.getD e 0)
  if score = 3 then
    let low := (v e).lt (.zero false)
    let q := expNeg (v e)
    FVal.div (if low then q else .fin false 1 0) (.sum [.fin false 1 0, q])
  else
    let m := FVal.top (among.map v)
    FVal.div (expNeg (m.sub (v e))) (.sum (among.map fun f => expNeg (m.sub (v f))))

/-- An FP32 code within a relative error of 2⁻²⁰ of a value: the open one, where it is; where the value is below FP32's
normal range or not finite the rule bounds nothing. -/
def nearGate (x : FVal) (free : Nat) : Nat :=
  match x with
  | .zero _ => 0
  | .fin _ _ _ =>
    if x.lt (.fin false 1 (-126)) then free % 2 ^ 32
    else
      let d := FVal.sub (val32 free) x
      let far := match d with
        | .fin _ m e => (x.mul (.fin false 1 (-20))).lt (.fin false m e)
        | .zero _ => false
        | _ => true
      if far then rne32 x else free % 2 ^ 32
  | _ => free % 2 ^ 32

/-- Gates of the selected experts. -/
def gates (score : Nat) (renorm : Bool) (xs : List Nat) (sel : List Nat) : List Nat :=
  if score = 0 then
    let g := sel.map fun e => xs.getD e 0
    if renorm then
      let t := sumGates g
      g.map fun x => if (val32 t).isZero then 0 else fdiv x t
    else g
  else
    let real := (List.range xs.length).filter fun e => !(val32 (xs.getD e 0)).isNan
    let g := exactGate score xs (if score = 1 then real else sel)
    let sum := FVal.sum (sel.map g)
    sel.map fun e => nearGate (if renorm then (if sum.isZero then .zero false else (g e).div sum) else g e)
      (Config.riddleGate score renorm e (xs.map fun x => if (val32 x).isNan then none else some x) sel)

/-- A routing record (R160). -/
def record (token gate expert rank flags slot : Nat) : List Byte :=
  bytesOf 4 token ++ bytesOf 4 gate ++ bytesOf 2 expert ++ bytesOf 1 rank ++ bytesOf 1 flags ++ bytesOf 4 slot

/-! ## The run of a job -/

/-- Read for a job's tile: logits or biases. -/
def sortRead (t : Nat) (scratch : Bool) (a n : Nat) : FeedM (List Byte) := fun f =>
  let zeros := List.replicate n (0 : Byte)
  match f.exc with
  | some _ => (zeros, f)
  | none =>
    if scratch then
      match f.st.conv t t a n false false with
      | .error e => (zeros, { f with exc := some e })
      | .ok c => let g := f.st.scrRead t c n; (g.data, { f with st := g.st, ue := f.ue || g.ue })
    else
      let g := f.st.tileRead t 2 a n .read
      match g.fault with
      | some x => (zeros, { f with st := g.st, exc := some (xExc x) })
      | none => (g.data, { f with st := g.st, ue := f.ue || g.ue })

/-- Where a job's write goes: physical memory or scratch. -/
def sortDest (t : Nat) (scratch : Bool) (a n : Nat) : FeedM (List (Bool × Nat × Nat)) := fun f =>
  match f.exc with
  | some _ => ([], f)
  | none =>
    if scratch then
      match f.st.conv t t a n false true with
      | .error e => ([], { f with exc := some e })
      | .ok c => ([(false, c.key t, n)], f)
    else
      let r := f.st.xlateRun t (tileDie t) 2 (f.st.ctxOf t) a n .write
      match r.fault with
      | some x => ([], { f with st := r.st, exc := some (xExc x) })
      | none => (r.pieces.map fun p => (true, p.1, p.2), { f with st := r.st })

/-- A write of a job on its way out: to memory or scratch, where, what, and the counter it counts on. -/
structure SortOut where
  toMem : Bool
  dst : Nat
  data : List Byte
  ctr : Option (Nat × Nat)

/-- A job's bytes over the pieces they go to. -/
def sortPieces (ctr : Option (Nat × Nat)) : List (Bool × Nat × Nat) → List Byte → List SortOut
  | [], _ => []
  | (m, a, n) :: ps, bs => ⟨m, a, bs.take n, ctr⟩ :: sortPieces ctr ps (bs.drop n)

/-- A write of a job; `ctr` is the counter its bytes count on, of the scratch destination's tile, or of the dispatching tile
`t` (R161, R183; log entry 96). -/
def sortWrite (t : Nat) (scratch : Bool) (a : Nat) (bs : List Byte) (ctr : Option Nat) : FeedM (List SortOut) := do
  let d ← sortDest t scratch a bs.length
  let owner := match d with
    | (false, k, _) :: _ => (paTile k).getD t
    | _ => t
  return sortPieces (ctr.map fun c => (owner, c)) d bs

/-- A job's writes leave the riddle. -/
def State.sortSend (s : State) (j : RJob) (l : List SortOut) : State :=
  l.foldl (fun s o => s.sendAs j.tile j.stamp .riddle (s.tileAgent j.tile) (if o.toMem then some (s.ctxOf j.tile) else none)
    o.toMem false false o.dst o.data o.ctr) s

/-- Counter of an expert's bucket. -/
def bucketCtr (e : List Byte) : Option Nat := if exCtrEn e then some (exCtr e) else none

/-- The assignments of one token (R159): per rank, a slot or the overflow list. -/
def assign (j : RJob) (token : Nat) (flags : Nat) :
    List (Nat × Nat × Nat) → List Nat → Nat → FeedM (List SortOut × List Nat × Nat)
  | [], counts, drops => pure ([], counts, drops)
  | (e, g, rank) :: rest, counts, drops => do
    let x := j.experts.getD e []
    let n := counts.getD e 0
    if n < exCap x then
      let p ← sortWrite j.tile (!exVirtual x) (exDest x + 16 * n) (record token g e rank flags n) (bucketCtr x)
      let (ps, cs, ds) ← assign j token flags rest (counts.set e (n + 1)) drops
      return (p ++ ps, cs, ds)
    else
      let room := drops < jdOverflowMax j.job
      let p ← if room then
          sortWrite j.tile (jdOverflowScr j.job) (jdOverflow j.job + 16 * drops)
            (record token g e rank flags 0xFFFFFFFF) none
        else do
          feedSet fun s => s.raise F.FDR_RDL_EVENT.OVF_FULL (tileDie j.tile)
          pure []
      let (ps, cs, ds) ← assign j token flags rest counts (drops + 1)
      return (p ++ ps, cs, ds)

/-- Sort one token: selection, gates, assignments. -/
def sortToken (j : RJob) (bias : List Nat) (row : Nat) (counts : List Nat) (drops : Nat) :
    FeedM (List SortOut × List Nat × Nat) := do
  let n := jdExperts j.job
  let w := if rdFmt j.feeder = 0 then 4 else 2
  let bs ← sortRead j.tile (rdSpace j.feeder) (rdBase j.feeder + row * rdRow j.feeder) (n * w)
  let xs := (List.range n).map fun e => if w = 4 then le bs (4 * e) 4 else widen 1 (le bs (2 * e) 2)
  let sc (e : Nat) : Nat := if jdBiasEn j.job then fadd (xs.getD e 0) (bias.getD e 0) else xs.getD e 0
  let nan := (List.range n).any fun e => (val32 (sc e)).isNan
  if nan then feedSet fun s => s.raise F.FDR_RDL_EVENT.NAN_ROW (tileDie j.tile)
  let sel := selectExperts (j.experts.map exCap) sc (jdTopk j.job)
  let gs := gates (jdScore j.job) (jdRenorm j.job) xs sel
  assign j ((jdTokenBase j.job + row) % 2 ^ 32) (if nan then 2 else 0)
    ((List.zip sel gs).zipIdx.map fun p => (p.1.1, p.1.2, p.2)) counts drops

/-- Sort every token in order. -/
def sortAll (j : RJob) (bias : List Nat) : List Nat → List Nat → Nat → FeedM (List SortOut × List Nat × Nat)
  | [], counts, drops => pure ([], counts, drops)
  | r :: rs, counts, drops => do
    let (p, c, d) ← sortToken j bias r counts drops
    let (ps, cs, ds) ← sortAll j bias rs c d
    return (p ++ ps, cs, ds)

/-- Replace the running job of a die. -/
def State.setJobs (s : State) (d : Nat) (l : List RJob) : State := { s with riddles := SMap.insert s.riddles d l }

/-- Jobs of a die's riddle, the running one first. -/
def State.jobs (s : State) (d : Nat) : List RJob := SMap.get s.riddles [] d

/-- The next queued job starts (R157 to R162): it reads its logits and sends every record in token and rank order. -/
def execRiddleJobStart (d : Nat) (s : State) : Res State :=
  .next (match s.jobs d with
    | [] => s
    | j :: rest =>
      if j.started || s.starvedTile j.tile then s
      else
        let run : FeedM (List SortOut × List Nat × Nat) := do
          let b ← if jdBiasEn j.job then sortRead j.tile false (jdBias j.job) (4 * jdExperts j.job) else pure []
          sortAll j ((List.range (jdExperts j.job)).map fun e => le b (4 * e) 4) (List.range j.tokens)
            (List.replicate (jdExperts j.job) 0) 0
        let ((ps, counts, drops), f) := run (.start s [])
        let s := if f.ue then (f.st.raise F.FDR_RDL_EVENT.MEM_UE_SUB d).markUe j.tile else f.st
        match f.exc with
        | some e => (s.setJobs d rest).tileExc j.tile false j.pc j.word e
        | none =>
          let s := s.bump F.FDR_RDL_TOKENS.TOKENS d j.tokens
          let s := s.bump F.FDR_RDL_ASSIGN.ACCEPTED d (counts.foldl (· + ·) 0)
          let s := s.bump F.FDR_RDL_ASSIGN.DROPPED d drops
          (s.setJobs d ({ j with started := true, counts := counts, drops := drops } :: rest)).sortSend j ps)

/-- Padding records of every bucket, in slots count_e to C_e − 1 (R161). -/
def padBuckets (j : RJob) : List Nat → FeedM (List SortOut)
  | [] => pure []
  | e :: es => do
    let x := j.experts.getD e []
    let n := j.counts.getD e 0
    let k := exCap x - n
    let p ← if k = 0 then pure [] else
      sortWrite j.tile (!exVirtual x) (exDest x + 16 * n)
        ((List.range k).map fun i => record padToken 0 e 0 1 (n + i)).flatten (bucketCtr x)
    let ps ← padBuckets j es
    return p ++ ps

/-- After the last token the job pads every bucket; once every record of it is performed, it writes and counts the count
table (R161). -/
def execRiddleJobFinish (d : Nat) (s : State) : Res State :=
  .next (match s.jobs d with
    | [] => s
    | j :: rest =>
      if !j.started then s
      else if !j.padded then
        let (ps, f) := padBuckets j (List.range (jdExperts j.job)) (.start s [])
        match f.exc with
        | some e => (f.st.setJobs d rest).tileExc j.tile false j.pc j.word e
        | none => (f.st.setJobs d ({ j with padded := true } :: rest)).sortSend j ps
      else if s.packets.any (fun p => p.tile = j.tile && p.unit = .riddle && p.stamp = j.stamp) then s
      else
        let tbl := ((j.counts ++ [j.drops]).map (bytesOf 4)).flatten
        let (ps, f) := sortWrite j.tile (jdCountScr j.job) (jdCountOut j.job) tbl
          (if jdCtrEn j.job then some (jdCtr j.job) else none) (.start s [])
        match f.exc with
        | some e => (f.st.setJobs d rest).tileExc j.tile false j.pc j.word e
        | none => (f.st.setJobs d rest).sortSend j ps)

end Sys2Proof.Machine
end

