-- ==== Sys2Proof/Machine/Streams.lean ====
section
/-! DEFINITION. Machine/Streams.lean: lane and broadcast streams and sort submissions (R85 to R87, R98, R99, R111,
R154). -/
namespace Sys2Proof.Machine

/-- Entry count, repeats after the first pass and stride that s[B] packs (R111). -/
def strCount (v : Word) : Nat := getField v 15 0
def strAgain (v : Word) : Nat := getField v 23 16
def strStride (v : Word) : Int := sext 32 (getField v 55 24)

/-- Checks of a scratch source whose entries are `n` bytes: alignment of every entry, then that the run of entries lies in one
slot's window, as a copy's does (R85, R111, R167, log entry 97); a lane stream's slot is 0, the own tile. -/
def State.scrSource (s : State) (t a n : Nat) (v : Word) (lane : Bool) : Except TExc Nat :=
  let st := strStride v
  let last : Int := (a : Int) + (strCount v - 1 : Nat) * st
  let slot (x : Nat) : Nat := if bits x 31 30 = 0 then bits x 24 20 else bits x 25 21
  if lane && (2 ^ 32 ≤ a || bits a 31 30 ≠ 0 || bits a 24 20 ≠ 0) then
    .error (texc .scrRange a)
  else if a % 64 ≠ 0 || (1 < strCount v && st % 64 ≠ 0) then .error (texc .align a)
  else match s.conv t t a n false false with
    | .error e => .error e
    | .ok c =>
      if last < 0 then .error (texc .scrRange a)
      else match s.conv t t last.toNat n false false with
        | .error e => .error e
        | .ok c' =>
          if (c'.key t : Int) - c.key t = last - a && slot last.toNat = slot a then .ok (c.key t) else .error (texc .scrRange a)

/-- A queue of streams holds one active and four waiting (R102). -/
def strFull (l : List Strm) : Bool := 5 ≤ l.length

/-- A new stream of the instruction at the tile's program counter. -/
def newStrm (x : Tile) (w v : Word) (src : StrmSrc) : Strm :=
  ⟨src, strCount v, strAgain v, 0, [], x.clock, x.pc, w⟩

/-- Submit a sort job (R154 to R156, R162). -/
def State.submitSort (s : State) (t : Nat) (w v : Word) (d : List Byte) : Iss :=
  if strAgain v ≠ 0 then .exc (texc .range 0) s
  else match s.runsBad t (rdSpace d) (rdBase d) (rdRow d) 1 (strCount v) with
  | some e => .exc e s
  | none => (s.descRead t (rdArgSpace d) (rdArg d) 64 64).bind fun j s =>
    match jobBad j with
    | some e => .exc e s
    | none => (s.descRead t (jdTableScr j) (jdTable j) 1 (16 * jdExperts j)).bind fun tb s =>
      let ex := experts (jdExperts j) tb
      match (ex.findSome? (s.bucketBad t)).orElse fun _ =>
          (s.outBad t (jdCountScr j) (jdCountOut j) (4 * (jdExperts j + 1))).orElse fun _ =>
            s.outBad t (jdOverflowScr j) (jdOverflow j) (16 * jdOverflowMax j) with
      | some e => .exc e s
      | none =>
        let q := s.jobs (tileDie t)
        if 4 ≤ q.length then .hold wCredit
        else
          let x := s.tile t
          .done (s.setJobs (tileDie t) (q ++ [⟨t, x.clock, x.pc, w, d, j, ex, strCount v, [], 0, false, false⟩]))

/-- Queue a lane stream, or a sort job, from its source. -/
def execLstr (t : Nat) (s : State) : Res State :=
  .next (s.issueOp t 0x40 fun w s =>
    let a := s.addrM t w
    let v := s.sreg t (bOf w)
    let put (s : State) (src : StrmSrc) : Iss :=
      let x := s.tile t
      if strFull x.lane then .hold wCredit
      else .done (s.setTile t { x with lane := x.lane ++ [newStrm x w v src] })
    if strCount v = 0 then .exc (texc .range 0) s
    else match subOf w % 4 with
      | 0 => match s.scrSource t a 512 v true with
        | .error e => .exc e s
        | .ok k => put s (.scratch k (strStride v))
      | 3 => .exc (texc .illegalOpnd 0) s
      | sp => (s.descRead t (sp = 2) a 64 64).bind fun d s =>
        match rowCheck s.part true 1 (strCount v) d with
        | .exc e => .exc e s
        | .late e => .late e s
        | .ok => if rdKind d = 4 then s.submitSort t w v d
          else match s.rowScrBad t true 1 (strCount v) 0 d with
            | some e => .exc e s
            | none => put s (.feeder d))

/-- Queue a broadcast stream from scratch. -/
def execBstr (t : Nat) (s : State) : Res State :=
  .next (s.issueOp t 0x41 fun w s =>
    let a := s.addrM t w
    let v := s.sreg t (bOf w)
    if strCount v = 0 then .exc (texc .range 0) s
    else match s.scrSource t a 8 v false with
      | .error e => .exc e s
      | .ok k =>
        let x := s.tile t
        if strFull x.bcast then .hold wCredit
        else .done (s.setTile t { x with bcast := x.bcast ++ [newStrm x w v (.scratch k (strStride v))] }))

/-- Runs of a tile's own scratch, by address and length, that a lane stream of `n` entries under a descriptor may read; which
rows a gather reads is not known before, so that from own scratch it may read all of it (R87, log entry 98). -/
def State.feederRuns (s : State) (t : Nat) (d : List Byte) (n : Nat) : List (Nat × Nat) :=
  let run (scratch : Bool) (a len : Nat) : List (Nat × Nat) :=
    if !scratch then []
    else match s.conv t t a 1 false false with
      | .ok (.at pa) => [(pa, len)]
      | _ => []
  let rows (a len : Nat) : List (Nat × Nat) := run (rdSpace d) a len
  match rdKind d with
  | 2 => (rows (rdBase d) 1).map (fun _ => (tilePa t, 2 ^ 20)) ++
      run (rdArgSpace d) (rdArg d + 4 * (rdFirst d / 16)) (4 * (lastToken d n / 16 + 1 - rdFirst d / 16))
  | 3 => (rows (rdBase d) 1).map (fun _ => (tilePa t, 2 ^ 20)) ++ run (rdArgSpace d) (rdArg d + 16 * rdStart d) (16 * n)
  | _ => rows (rdBase d + rdStart d * rdRow d) ((n - 1) * rdRow d + 512)

/-- Runs that a stream's entries of `n` bytes come from. -/
def State.strRuns (s : State) (t : Nat) (m : Strm) (n : Nat) : List (Nat × Nat) :=
  match m.src with
  | .feeder d => s.feederRuns t d m.count
  | .scratch k st =>
    let last : Int := (k : Int) + (m.count - 1 : Nat) * st
    [((min (k : Int) last).toNat, n + (last - k).natAbs)]

/-- An earlier corbel store to own scratch overlaps the stream's source and has not been written (R87). -/
def State.strHeld (s : State) (t : Nat) (m : Strm) (n : Nat) : Bool :=
  let runs := s.strRuns t m n
  let meets (a len : Nat) : Bool := a < 2 ^ 30 && !remoteScr t a && runs.any fun r => r.1 < a + len && a < r.1 + r.2
  (s.tile t).corbelQ.any fun o => o.stamp < m.stamp &&
    ((opOf o.word = 0xC4 && meets o.a1 (64 * 2 ^ wOf o.word)) ||
     (opOf o.word = 0xC5 && (meets o.a1 (8 * fmtWidth (f1Of o.word)) || meets o.a2 2)))

/-- A stream from memory whose owner gets no access through (R399). -/
def State.strStarved (s : State) (t : Nat) (m : Strm) : Bool :=
  match m.src with
  | .feeder d => !rdSpace d && s.starvedTile t
  | .scratch _ _ => false

/-- The stream after one more entry; none when it has delivered its last. A further pass reads its table anew (R85, log
entry 94). -/
def Strm.step (m : Strm) : Option Strm :=
  if m.pos + 1 < m.count then some { m with pos := m.pos + 1 }
  else if m.again = 0 then none else some { m with pos := 0, again := m.again - 1, kv := [] }

/-- The bytes of the next entry of a stream, or the exception that ends it; an uncorrectable unit reads as zero (R99). -/
def State.strEntry (s : State) (t : Nat) (m : Strm) (n : Nat) : List Word × Feed :=
  match m.src with
  | .scratch k st =>
    let a := ((k : Int) + m.pos * st).toNat
    let g := s.scrRead t (.at a) n
    ((List.range (n / 8)).map fun i => BitVec.ofNat 64 (le g.data (8 * i) 8), ⟨g.st, g.ue, none, []⟩)
  | .feeder d => laneEntry t d m.count m.pos (.start s m.kv)

/-- The next entry of the active lane (or broadcast) stream reaches LS (or BQ), and the corbel row issues what it can; in a
stopped tile, where the stream runs to completion (R120), the entry is discarded. -/
def State.entryArrives (s : State) (t : Nat) (bcast : Bool) : State :=
  let x := s.tile t
  let n := if bcast then 8 else 512
  let stopped := s.fld F.TSQ_STATE.RUN t = 3
  match if bcast then x.bcast else x.lane with
  | [] => s
  | m :: rest =>
    if s.strHeld t m n || s.strStarved t m || (!stopped && if bcast then 16 ≤ x.bq.length else 16 ≤ x.ls.length) then s
    else
      let (e, f) := s.strEntry t m n
      let s := if f.ue then (f.st.raise F.CRB_EVENT.MEM_UE_SUB t).markUe t else f.st
      match f.exc with
      | some ex => (s.modTile t fun x => if bcast then { x with bcast := rest } else { x with lane := rest }).tileExc
          t false m.pc m.word ex
      | none =>
        let next := ({ m with kv := f.kv } : Strm).step.toList ++ rest
        if stopped then s.modTile t fun x => if bcast then { x with bcast := next } else { x with lane := next }
        else
          (s.modTile t fun x =>
            if bcast then { x with bq := x.bq ++ [e.headD 0], bcast := next }
            else { x with ls := x.ls ++ [e], lane := next }).corbelDrain t

/-- A stream delivers an entry. -/
def execStreamEntryArrival (t : Nat) (bcast : Bool) (s : State) : Res State := .next (s.entryArrives t bcast)

end Sys2Proof.Machine
end

