-- ==== Sys2Proof/Machine/Arch.lean ====
section
/-! DEFINITION. Machine/Arch.lean: arch mode: loading weights, streaming rows, the drains, freezes and rewinds (R47 to R57,
R61 to R82, R139 to R141). -/
namespace Sys2Proof.Machine

/-! ## Shape (R61, R65, R66, R72) -/

/-- Die edges crossed, freeze skew and latency of an a × b arch. -/
def archEdges (a b : Nat) : Nat := bitN (a = 20) + bitN (b = 40)
def archSkew (a b : Nat) : Nat := match archEdges a b with
  | 0 => 20 | 1 => 64 | _ => 108
def archLatency (a b : Nat) : Nat := 64 * a + 64 * b + 2 * (a - 1) + 2 * (b - 1) + 44 * archEdges a b + 8

/-- Row interval of a stream under a weight descriptor (R65). -/
def rowInterval (a b : Nat) (wd : List Byte) : Nat :=
  let act := wdAct wd
  let c := wdC wd
  let arow := 64 * c * fmtWidth act / 8 + (if isMx act then 2 * c else 0)
  let i0 := if pairWide (wdFmt wd) act then 2 else 1
  let dh := if a = 20 then 256 * min b 20 else 0
  let dv := if b = 40 then min a 10 * arow else 0
  max i0 (max (ceilDiv dh 914) (ceilDiv dv 914))

/-- Bytes of a member's stored elements, and of their masks and scales in the side store (R68). -/
def blockBytes (wd : List Byte) : Nat := 64 * (64 * wdC wd / (if wdSparse wd then 2 else 1)) * fmtWidth (wdFmt wd) / 8
def sideBytes (wd : List Byte) : Nat :=
  64 * ((if wdSparse wd then 64 * wdC wd / 8 else 0) + (if isMx (wdFmt wd) then 2 * wdC wd else 0))

/-- A block of weights over 8 KiB, for which the weight buffers are joined (R68). -/
def joinedBlock (wd : List Byte) : Bool := 8192 < blockBytes wd

/-- The tiles of a block's arch: rows, columns, members in handle order. -/
structure Shape where
  a : Nat
  b : Nat
  tiles : List Nat

/-- The arch whose origin is tile `t`. -/
def State.shapeOf (s : State) (t : Nat) : Option Shape :=
  match s.blockOf t with
  | some k => match k.arch with
    | some (a, b) => if k.tiles.head? = some t then some ⟨a, b, k.tiles⟩ else none
    | none => none
  | none => none

def Shape.member (h : Shape) (r c : Nat) : Nat := h.tiles.getD (r * h.b + c) 0
/-- Drain of a tile column and row feeder of a tile row (R62). -/
def Shape.south (h : Shape) (c : Nat) : Nat := h.member (h.a - 1) c
def Shape.west (h : Shape) (r : Nat) : Nat := h.member r 0

/-- Change the arch control of an origin. -/
def State.setArch (s : State) (t : Nat) (c : ArchCtl) : State := s.modTile t fun x => { x with arch := c }

/-- Streams not started yet; the row feeder's descriptor queue holds the first 8 of them (R77). -/
def ArchCtl.waiting (c : ArchCtl) : List ArchStream := c.streams.filter fun m => !m.started

/-- Arch control holds 8 instructions: a WLOAD not complete, streams the row feeder's queue has no room for, and the DRAINs
dispatched after one of those (R77). -/
def ArchCtl.full (c : ArchCtl) : Bool :=
  let stuck := c.waiting.drop 8
  let behind := match stuck with
    | m :: _ => (c.drains.filter fun n => m.seq < n).length
    | [] => 0
  8 ≤ bitN (c.wdesc.isSome && !c.staged) + stuck.length + behind

/-! ## WLOAD (R67, R68, R136 to R138) -/

/-- Load weights for the arch: it waits while staged weights that a dispatched stream will use are not copied. One that a
later WLOAD replaces before its block is staged reads no memory, which the rules leave open (log entry 99). -/
def execWload (t : Nat) (s : State) : Res State :=
  .next (s.issueOp t 0x30 fun w s =>
    match s.shapeOf t with
    | none => .exc (texc .role 0) s
    | some _ => (s.descRead t (subOf w % 2 = 1) (s.addrM t w) 64 64).bind fun d s =>
      match weightCheck s.part d with
      | .exc e => .exc e s
      | .late e => .late e s
      | .ok => match (s.shapeOf t).bind fun h => s.weightScrBad t h.a h.b d with
        | some e => .exc e s
        | none =>
        let x := s.tile t
        let c := x.arch
        if c.full || c.streams.any (fun m => m.wnum = c.wnum && !m.copied) then .hold wCredit
        else .done (s.setArch t
          { c with wdesc := some d, staged := false, second := false, wnum := c.wnum + 1, wpc := x.pc, wword := w }))

/-- The staging buffer of a member holds a block: what its element store reads as is open (log entry 8). -/
def State.loadStaging (s : State) (m : Nat) (b : WBlock) : State :=
  let k := s.freeCtr
  (s.modTile m fun x => { x with
    staging := some b
    opbuf := SMap.drop x.opbuf fun o => decide (0x4000 ≤ o)
    opseed := SMap.insert x.opseed 2 k }).drawn

/-- Columns of a block that are staged together: all of them, or of a joined block its first or second half. Which columns
make a half the rules do not say (R68, log entry 100). -/
def stageCols (joined second : Bool) : List Nat :=
  if !joined then List.range 64 else (List.range 32).map fun j => if second then 32 + j else j

/-- Every member reads the columns `js` of its block into its staging buffer; after an exception none reads more. -/
def State.stageAll (s : State) (t : Nat) (h : Shape) (num : Nat) (d : List Byte) (js : List Nat) : State × Option TExc :=
  (List.range (h.a * h.b)).foldl (fun ((s, ex) : State × Option TExc) i =>
    match ex with
    | some e => (s, some e)
    | none =>
      let m := h.tiles.getD i 0
      let (cols, f) := weightCols t m d (i / h.b) (i % h.b) js (.start s [])
      let s := if f.ue then (f.st.raise F.ARC_EVENT.MEM_UE_SUB m).markUe t else f.st
      (s.loadStaging m ⟨num, d, cols⟩, f.exc)) (s, none)

/-- A stream on the weights in force waits for the second half of its joined block. -/
def ArchCtl.wantsSecond (c : ArchCtl) : Bool :=
  c.staged && !c.second && c.streams.any fun m => m.wnum = c.wnum && m.joined && m.first && !m.copied

/-- Every member reads its block, or a half of it, and reports it staged. -/
def execWloadComplete (t : Nat) (s : State) : Res State :=
  .next (match s.shapeOf t with
    | none => s
    | some h =>
      let c := (s.tile t).arch
      match c.wdesc with
      | none => s
      | some d =>
        if (c.staged && !c.wantsSecond) || (!wdSpace d && s.starvedTile t) then s
        else
          let (s, ex) := s.stageAll t h c.wnum d (stageCols (joinedBlock d) c.staged)
          match ex with
          | some e => (s.setArch t { c with wdesc := none }).tileExc t false c.wpc c.wword e
          | none => s.setArch t { c with staged := true, second := c.staged })

/-! ## DRAIN (R139, R140, R178) -/

/-- First exception among a list of conversions. -/
def convExc : List (Except TExc Scr) → Option TExc
  | [] => none
  | .error e :: _ => some e
  | .ok _ :: l => convExc l

/-- Address of the output of row `r` by the drain of column `c`. -/
def outAddr (d : List Byte) (r c : Nat) : Nat := ddOut d + (ddOutStart d + r) * ddOutRow d + c * ddOutTcol d

/-- Valid output columns of tile column `c`. -/
def outCols (d : List Byte) (c : Nat) : Nat := min (ddN d - 64 * c) 64

/-- Bytes of one output element. -/
def outWidth (d : List Byte) : Nat := fmtWidth (ddFmt d) / 8

/-- Checks of a drain descriptor. -/
def State.drainBad (s : State) (t : Nat) (h : Shape) (d : List Byte) : Option TExc :=
  if !(ddFmt d ≤ 4 || ddFmt d = 0xC) then some (texc .illegalFmt 0)
  else
    let cols := List.range h.b
    let acc := ddAcc d
    let running :=
      if !ddRunning d then none
      else if bits acc 31 30 ≠ 0 || bits acc 24 20 ≠ 0 then some (texc .scrRange acc)
      else convExc (cols.map fun c => s.conv t (h.south c) acc (ddAccRows d * 256) false true)
    running.orElse fun _ =>
      if ddScratch d then convExc (cols.map fun c => s.conv t (h.south c) (ddOut d) 1 false true) else none

/-- Set the drain descriptor for later streams. -/
def execDrain (t : Nat) (s : State) : Res State :=
  .next (s.issueOp t 0x32 fun w s =>
    match s.shapeOf t with
    | none => .exc (texc .role 0) s
    | some h => (s.descRead t (subOf w % 2 = 1) (s.addrM t w) 64 64).bind fun d s =>
      match s.drainBad t h d with
      | some e => .exc e s
      | none =>
        let c := (s.tile t).arch
        if c.full then .hold wCredit
        else .done (s.setArch t { c with drain := some d, drains := (c.drains ++ [c.dispatched]).drop (c.drains.length - 7) }))

/-! ## RSTREAM (R65, R69, R70, R73) -/

/-- Checks of a stream of `n` rows against the weights and the drain descriptor in force. -/
def State.streamBad (s : State) (t : Nat) (h : Shape) (rd wd dd : List Byte) (n : Nat) : Option TExc :=
  let int := isInt (rdFmt rd)
  if rdFmt rd ≠ wdAct wd then some (texc .illegalFmt 0)
  else if (ddFmt dd = 0xC) != int || (int && (ddScaleEn dd || ddBiasEn dd)) then some (texc .illegalFmt 0)
  else if ddRunning dd && ddAccRows dd < n then some (texc .range 0)
  else if ddScratch dd && ddLast dd then
    convExc (((List.range h.b).map fun c => [0, n - 1].map fun r =>
      if outCols dd c = 0 then .ok (.at 0)
      else s.conv t (h.south c) (outAddr dd r c) (outCols dd c * outWidth dd) false true).flatten)
  else none

/-- Interval and marks shown for a stream (R65, R73). -/
def State.showStream (s : State) (h : Shape) (i : Nat) : State :=
  h.tiles.foldl (fun s m =>
    let mark := ceilDiv (archSkew h.a h.b + 4) i + min 32 (s.fld F.ARC_MARKS.EXTRA m)
    ((s.setFld F.ARC_TIMING.ROW_INT m i).setFld F.ARC_MARKS.LWM m mark).setFld F.ARC_MARKS.HWM m mark) s

/-- Stream s[B] rows under the row feeder descriptor. -/
def execRstream (t : Nat) (s : State) : Res State :=
  .next (s.issueOp t 0x31 fun w s =>
    match s.shapeOf t with
    | none => .exc (texc .role 0) s
    | some h =>
      let c := (s.tile t).arch
      match c.wdesc, c.drain with
      | some wd, some dd =>
        let n := (s.sreg t (bOf w)).toNat
        if n = 0 || 2 ^ 32 ≤ n then .exc (texc .range 0) s
        else (s.descRead t (subOf w % 2 = 1) (s.addrM t w) 64 64).bind fun d s =>
          match rowCheck s.part false h.a n d with
          | .exc e => .exc e s
          | .late e => .late e s
          | .ok => match (s.streamBad t h d wd dd n).orElse fun _ => s.rowScrBad t false h.a n (wdC wd) d with
            | some e => .exc e s
            | none =>
              if c.full then .hold wCredit
              else
                let i := rowInterval h.a h.b wd
                let m : ArchStream :=
                  { seq := c.dispatched, desc := d, rows := n, wnum := c.wnum, drain := dd, interval := i,
                    joined := joinedBlock wd, first := false, copied := false, blocks := [], started := false, issued := 0,
                    done := List.replicate h.b 0, acts := [], kv := [], pc := (s.tile t).pc, word := w }
                let s := s.setArch t { c with streams := c.streams ++ [m], dispatched := c.dispatched + 1 }
                .done (if c.dispatched = 0 then s.showStream h i else s)
      | _, _ => .exc (texc .archState 0) s)

/-! ## Weight copy (R68, R71) -/

/-- The first stream whose weights are not in a buffer yet, with the streams before it that are not complete. -/
def ArchCtl.nextCopy (c : ArchCtl) : Option (ArchStream × List ArchStream) :=
  (c.streams.find? fun m => !m.copied).map fun m => (m, c.streams.takeWhile fun k => k.copied)

/-- A stream's buffer is free: the last row of the stream that used it has entered, since the stream between them has
started; around a joined block, the streams before have left every PE. -/
def bufferFree (m : ArchStream) (before : List ArchStream) : Bool :=
  if m.joined || before.any ArchStream.joined then before.isEmpty
  else before.all fun b => m.seq ≤ b.seq + 1 || before.any fun k => k.seq = b.seq + 1 && k.started

/-- Replace a stream of an origin. -/
def ArchCtl.put (c : ArchCtl) (m : ArchStream) : ArchCtl :=
  { c with streams := c.streams.map fun k => if k.seq = m.seq then m else k }

/-- The buffer a stream's weights are in. -/
def Tile.wbuf (x : Tile) (k : Nat) : Option WBlock := if k % 2 = 0 then x.wbuf0 else x.wbuf1

/-- A block and the half that follows it. -/
def WBlock.join (a : Option WBlock) (b : WBlock) : WBlock := { b with cols := ((a.map WBlock.cols).getD []) ++ b.cols }

/-- A weight buffer of a member receives the staged block, the joined one a half of it (`second`: the half that completes
it); its element store reads as open. -/
def State.copyWeights (s : State) (m k : Nat) (joined second : Bool) : State :=
  let n := s.freeCtr
  let i := k % 2
  (s.modTile m fun x =>
    let x := { x with
      opbuf := SMap.drop x.opbuf fun o => decide (o < 0x4000) && (joined || o / 0x2000 = i)
      opseed := if joined then SMap.insert (SMap.insert x.opseed 0 n) 1 n else SMap.insert x.opseed i n }
    if joined then
      let b := if second then x.staging.map (WBlock.join x.wbuf0) else x.staging
      { x with wbuf0 := b, wbuf1 := b }
    else if i = 0 then { x with wbuf0 := x.staging } else { x with wbuf1 := x.staging }).drawn

/-- The blocks the members hold for stream `k`, in handle order. -/
def State.heldBlocks (s : State) (h : Shape) (k : Nat) : List WBlock := h.tiles.filterMap fun m => (s.tile m).wbuf k

/-- Every member's joined buffer already holds the whole block of a WLOAD. -/
def State.holdsJoined (s : State) (h : Shape) (num : Nat) : Bool :=
  h.tiles.all fun m => match (s.tile m).wbuf0 with
    | some b => b.num = num && b.cols.length = 64
    | none => false

/-- Staged weights are copied into the freed weight buffer of every member, a joined block by halves. -/
def execWeightCopy (t : Nat) (s : State) : Res State :=
  .next (match s.shapeOf t with
    | none => s
    | some h =>
      let c := (s.tile t).arch
      match c.nextCopy with
      | none => s
      | some (m, before) =>
        let done (s : State) : State := s.setArch t (c.put { m with first := true, copied := true, blocks := s.heldBlocks h m.seq })
        if m.joined && !m.first && s.holdsJoined h m.wnum then done s
        else if m.wnum ≠ c.wnum || !bufferFree m before || !(if m.first then c.second else c.staged) then s
        else
          let s := h.tiles.foldl (fun s k => s.copyWeights k m.seq m.joined m.first) s
          if m.joined && !m.first then s.setArch t (c.put { m with first := true }) else done s)

/-! ## The array (R46 to R55) -/

/-- Value of an element with its block scale. -/
def elVal (code : Nat) (e : Nat × Nat) : FVal :=
  match fmtOf code with
  | some f =>
    let v := f.decode (e.1 % 2 ^ fmtWidth code)
    if isMx code then v.scaled (scaleVal e.2) else v
  | none => .nan

/-- One member's part of a column's chain: 64 PEs of `c` K positions, one rounding each (R48). -/
def peChain (act wgt c : Nat) (xs : List (Nat × Nat)) (col : List WEl) (acc : Nat) : Nat :=
  (List.range 64).foldl (fun acc p =>
    let prods := (col.filter fun w => w.k / c = p).map fun w =>
      (elVal act (xs.getD w.k zeroEl)).mul (elVal wgt (w.code, w.scale))
    rne32 (.sum (val32 acc :: prods))) acc

/-- Gated and ungated multiplications of a column's chain in one member (R56): gated where an operand is zero and the other
finite. -/
def countMults (act wgt : Nat) (xs : List (Nat × Nat)) (col : List WEl) : Nat × Nat :=
  col.foldl (fun n w =>
    let x := xs.getD w.k zeroEl
    let gated :=
      if isInt act then intVal act x.1 = 0 || intVal wgt w.code = 0
      else
        let a := elVal act x
        let b := elVal wgt (w.code, w.scale)
        (a.isZero && b.isFin) || (b.isZero && a.isFin)
    if gated then (n.1 + 1, n.2) else (n.1, n.2 + 1)) (0, 0)

/-- The multiplications of a row in the members of tile column `g` are counted. -/
def State.countRow (s : State) (h : Shape) (g act wgt : Nat) (acts : List (List (Nat × Nat))) (blocks : List WBlock) : State :=
  (List.zip acts blocks).zipIdx.foldl (fun s (p : (List (Nat × Nat) × WBlock) × Nat) =>
    let n := p.1.2.cols.foldl (fun (n : Nat × Nat) c => let m := countMults act wgt p.1.1 c; (n.1 + m.1, n.2 + m.2)) (0, 0)
    let t := h.member p.2 g
    let m := SMap.get s.mults (0, 0) t
    { s with mults := SMap.insert s.mults t (m.1 + n.1, m.2 + n.2) }) s

/-- Integer products summed modulo 2³² (R49). -/
def intChain (act wgt : Nat) (xs : List (Nat × Nat)) (col : List WEl) (acc : Int) : Int :=
  col.foldl (fun a w => a + intVal act (xs.getD w.k zeroEl).1 * intVal wgt w.code) acc

/-- The pass's value of column `n` of a tile column, from the top tile row to the bottom (R51). -/
def passValue (act wgt c : Nat) (acts : List (List (Nat × Nat))) (blocks : List WBlock) (n : Nat) : Nat :=
  let rows := List.zip acts (blocks.map fun b => b.cols.getD n [])
  if isInt act then wrapN 32 (rows.foldl (fun a p => intChain act wgt p.1 p.2 a) 0)
  else rows.foldl (fun a p => peChain act wgt c p.1 p.2 a) 0

/-- A drain's addition (R50). -/
def drainAdd (int : Bool) (a b : Nat) : Nat := if int then (a + b) % 2 ^ 32 else fadd a b

/-- Little-endian 32-bit values of a run of bytes. -/
def words32 (bs : List Byte) (n : Nat) : List Nat := (List.range n).map fun i => le bs (4 * i) 4

/-! ## The row feeders and the start of a stream (R71, R134, R153) -/

/-- The row's activations, read by the row feeders if they are not held. -/
def rowActs (t : Nat) (h : Shape) (m : ArchStream) (c r : Nat) : FeedM (List (List (Nat × Nat))) :=
  match SMap.find? m.acts r with
  | some a => pure a
  | none => (List.range h.a).mapM fun i => fun f =>
      let k := h.west i
      let (xs, g) := actSlice t k m.desc m.rows r i c { f with ue := false }
      let st := if g.ue then (g.st.raise F.ARC_EVENT.MEM_UE_SUB k).markUe t else g.st
      (xs, { g with st := st, ue := f.ue })

/-- Rows `r` to `r + n − 1` of a stream are read by the row feeders and held. -/
def readRows (t : Nat) (h : Shape) (c r n : Nat) (m : ArchStream) : FeedM ArchStream := do
  let rows ← ((List.range n).map (r + ·)).mapM fun q => do
    let a ← rowActs t h m c q
    return (q, a)
  fun f => ({ m with acts := rows.foldl (fun l p => SMap.insert l p.1 p.2) m.acts, kv := f.kv }, f)

/-- Rows of a stream some drain has not completed. -/
def ArchStream.undone (m : ArchStream) : Nat := m.rows - m.done.foldl min m.rows

/-- The stream before `m` lets its first row enter (R68, R71): it is complete where either block is joined; otherwise its
rows have entered, at most those in the arch and in a drain are not completed. -/
def ArchStream.follows (m : ArchStream) (h : Shape) (p : Option ArchStream) : Bool :=
  match p with
  | none => true
  | some p => !m.joined && !p.joined && p.started && p.undone ≤ ceilDiv (archLatency h.a h.b) (max 1 p.interval) + 128

/-- K positions per PE row of a stream's weights. -/
def ArchStream.c (m : ArchStream) : Nat := (m.blocks.head?.map fun b => wdC b.desc).getD 1

/-- The first row of the next stream enters the arch, once its weights are held and LWM + 1 of its rows, or all of them, are
ready; the rows of the stream before have been read by then. -/
def execStreamStart (t : Nat) (s : State) : Res State :=
  .next (match s.shapeOf t with
    | none => s
    | some h =>
      let c := (s.tile t).arch
      match c.streams.find? fun m => !m.started with
      | none => s
      | some m =>
        let prev := c.streams.find? fun p => p.seq + 1 = m.seq
        if !m.copied || !m.follows h prev || (!rdSpace m.desc && s.starvedTile t) then s
        else
          let s := s.showStream h m.interval
          let (prev, f) := match prev with
            | none => (none, Feed.start s [])
            | some p =>
              let (p, f) := readRows t h p.c (p.rows - p.undone) p.undone p (.start s p.kv)
              (some { p with issued := p.rows }, f)
          let ready := min m.rows (s.fld F.ARC_MARKS.LWM t + 1)
          let (m, f) := readRows t h m.c 0 ready m { f with kv := m.kv }
          match f.exc with
          | some e => (f.st.setArch t { c with streams := [] }).tileExc t false m.pc m.word e
          | none =>
            let c := c.put { m with started := true, issued := 1 }
            let s := f.st.setArch t (match prev with
              | some p => c.put p
              | none => c)
            h.tiles.foldl (fun s k =>
              ((s.setFld F.ARC_STREAM.STREAM_SEQ k (s.fld F.ARC_STREAM.STREAM_SEQ k + 1)).setFld
                F.ARC_STREAM.ROWS_ISSUED k 1).setFld F.ARC_DRAIN_DONE.DONE k 0) s)

/-! ## The drains (R50, R57, R77, R140, R141) -/

/-- Rows that the drain of tile `k` holds: those with a packet still in its write staging or output FIFO. -/
def State.drainRows (s : State) (k : Nat) : Nat := ((((s.drainPackets k).drop 16).map Packet.stamp).eraseDups).length

/-- The drain's staging and FIFO hold no further row (R77). -/
def State.drainFull (s : State) (k : Nat) : Bool := 128 ≤ s.drainRows k

/-- A read of the drain of member `k` sees what it wrote before (R173); an uncorrectable error sets DRAIN_UE (R141). -/
def drainRead (t k : Nat) (scratch : Bool) (a n : Nat) : FeedM (List Byte) := fun f =>
  let f := { f with st := f.st.landAll fun p => p.unit = PUnit.drain k && p.toMem != scratch }
  let (bs, g) := feedRead t k scratch a n { f with ue := false }
  (bs, { g with st := if g.ue then (g.st.raise F.FDR_EVENT.DRAIN_UE k).markUe t else g.st, ue := f.ue })

/-- Write the drain's running values. -/
def drainStore (t k a : Nat) (bs : List Byte) : FeedM Unit := fun f =>
  match f.exc with
  | some _ => ((), f)
  | none => match f.st.conv t k a bs.length false true with
    | .error e => ((), { f with exc := some e })
    | .ok c => ((), { f with st := (f.st.scrWrite k c bs).bump F.FDR_DR_BYTES.BYTES k bs.length })

/-- A drain's bytes set out for physical pieces. -/
def State.drainPieces (s : State) (t k stamp : Nat) (ctr : Option (Nat × Nat)) : List (Nat × Nat) → List Byte → State
  | [], _ => s.track (tileDie k) 0
  | (a, n) :: ps, bs =>
    (s.sendAs t stamp (.drain k) (s.tileAgent k) (some (s.ctxOf t)) true false false a (bs.take n) ctr).drainPieces t k stamp
      ctr ps (bs.drop n)

/-- Send the drain's output of a row, numbered `stamp`, as an agent of the drain's own die (R141, R188). -/
def drainSend (t k stamp : Nat) (d : List Byte) (a : Nat) (bs : List Byte) : FeedM Unit := fun f =>
  let ctr (o : Nat) : Option (Nat × Nat) := if ddCtrEn d then some (o, ddCtr d) else none
  match f.exc with
  | some _ => ((), f)
  | none =>
    if ddScratch d then
      match f.st.conv t k a bs.length false true with
      | .error e => ((), { f with exc := some e })
      | .ok c =>
        let key := c.key k
        let s := f.st.sendAs t stamp (.drain k) (f.st.tileAgent k) none false false false key bs (ctr ((paTile key).getD t))
        ((), { f with st := s.bump F.FDR_DR_BYTES.BYTES k bs.length })
    else
      let r := f.st.xlateRun k (tileDie k) 1 (f.st.ctxOf t) a bs.length .write
      match r.fault with
      | some x => ((), { f with st := r.st, exc := some (xExc x) })
      | none =>
        let s := r.st.drainPieces t k stamp (ctr t) r.pieces bs
        ((), { f with st := s.bump F.FDR_DR_BYTES.BYTES k bs.length })

/-- The drain of column `g` handles row `r` of a stream. -/
def drainRow (t : Nat) (h : Shape) (m : ArchStream) (blocks : List WBlock) (wd : List Byte) (g r : Nat) :
    FeedM (List (List (Nat × Nat))) := do
  let dd := m.drain
  let k := h.south g
  let n := outCols dd g
  let act := wdAct wd
  let int := isInt act
  let c := wdC wd
  let acts ← rowActs t h m c r
  feedSet fun s => s.countRow h g act (wdFmt wd) acts blocks
  let vals := (List.range n).map fun i => passValue act (wdFmt wd) c acts blocks i
  let a := outAddr dd r g
  let w := outWidth dd
  let base ←
    if !ddFirst dd then do
      let bs ← drainRead t k true (ddAcc dd + 256 * r) (4 * n)
      pure (some (words32 bs n))
    else if ddAccOut dd then do
      let bs ← drainRead t k (ddScratch dd) a (n * w)
      pure (some ((List.range n).map fun i =>
        if int then le bs (4 * i) 4 else widen (ddFmt dd) (le bs (w * i) w)))
    else pure none
  let vals := match base with
    | some b => List.zipWith (drainAdd int) b vals
    | none => vals
  if ddRunning dd then drainStore t k (ddAcc dd + 256 * r) (vals.map (bytesOf 4)).flatten
  if ddLast dd && n ≠ 0 then
    let sc ← if ddScaleEn dd then drainRead t k false (ddScale dd + 256 * g) (4 * n) else pure []
    let bi ← if ddBiasEn dd then drainRead t k false (ddBias dd + 256 * g) (4 * n) else pure []
    let out := vals.zipIdx.map fun p =>
      if int then p.1
      else
        let v := if ddScaleEn dd then fmul p.1 (le sc (4 * p.2) 4) else p.1
        let v := if ddBiasEn dd then fadd v (le bi (4 * p.2) 4) else v
        convertOut (ddFmt dd) (ddSat dd) v
    drainSend t k (m.seq * 2 ^ 32 + r) dd a (out.map (bytesOf w)).flatten
  return acts

/-- The stream a drain works on: the oldest started one whose rows it has not all completed. -/
def ArchCtl.draining (c : ArchCtl) (g : Nat) : Option ArchStream :=
  c.streams.find? fun m => m.started && m.done.getD g 0 < m.rows

/-- The next finished row reaches the drain of tile column `col` of the arch whose origin is `t`. -/
def execDrainRow (t col : Nat) (s : State) : Res State :=
  .next (match s.shapeOf t with
    | none => s
    | some h =>
      let c := (s.tile t).arch
      match if col < h.b then c.draining col else none with
      | none => s
      | some m =>
        let blocks := (List.range h.a).filterMap fun i => m.blocks[i * h.b + col]?
        match blocks with
        | [] => s
        | b :: _ =>
          let k := h.south col
          if (!rdSpace m.desc && s.starvedTile t) || s.drainFull k then s else
          let r := m.done.getD col 0
          let (acts, f) := drainRow t h m blocks b.desc col r (.start s m.kv)
          let s := f.st
          match f.exc with
          | some e => (s.setArch t { (s.tile t).arch with streams := [] }).tileExc t false m.pc m.word e
          | none =>
            let done := m.done.set col (r + 1)
            let held := if done.all (r < ·) then SMap.erase m.acts r else SMap.insert m.acts r acts
            let c' := (s.tile t).arch
            let m' := { m with done := done, acts := held, issued := max m.issued (r + 1), kv := f.kv }
            let c' := if done.all (· = m.rows) then { c' with streams := c'.streams.filter fun q => q.seq ≠ m.seq }
              else c'.put m'
            let s := s.setArch t c'
            if c.streams.any fun q => q.started && m.seq < q.seq then s
            else
              h.tiles.foldl (fun s q =>
                s.setFld F.ARC_STREAM.ROWS_ISSUED q (max (s.fld F.ARC_STREAM.ROWS_ISSUED q) (r + 1)))
                (s.setFld F.ARC_DRAIN_DONE.DONE k (r + 1)))

/-! ## Freezes and rewinds (R72, R74, R75, R78 to R80) -/

/-- The arch a tile is a member of: its origin and shape. -/
def State.archOf (s : State) (t : Nat) : Option (Nat × Shape) :=
  (s.blockOf t).bind fun k => match k.tiles.head? with
    | some o => (s.shapeOf o).map fun h => (o, h)
    | none => none

/-- Every member of the arch counts a frozen interval and keeps what it included; its length in cycles is open. -/
def State.freeze (s : State) (h : Shape) (cause : Nat → Nat) : State :=
  let n := s.freeNat
  h.tiles.foldl (fun s m =>
    ((s.bump F.ARC_FRZ_CYC.CYCLES m n).bump F.ARC_COUNT.FREEZES m 1).setReg .ARC_CAUSE m
      (BitVec.ofNat 64 (cause m))) s.drawn

/-- Member `t` has a port that receives arch data across a die edge: activations moving east, partial sums moving south
(R61, R75). -/
def Shape.edgePort (h : Shape) (t : Nat) : Bool :=
  (h.b = 40 && tileCol t = 20) || (h.a = 20 && tileRow t = 10)

/-- A member's row feeder has a stream whose rows remain to be issued and at most LWM of them ready (R72). -/
def State.rowDry (s : State) (o t : Nat) : Bool :=
  s.on F.ARC_SHAPE.WEST t && (s.tile o).arch.streams.any fun m =>
    m.issued < m.rows && (m.acts.filter fun p => m.issued ≤ p.1).length ≤ s.fld F.ARC_MARKS.LWM t

/-- A member's drain has at most HWM rows of space left (R72). -/
def State.drainTight (s : State) (o t : Nat) : Bool :=
  s.on F.ARC_SHAPE.SOUTH t && !(s.tile o).arch.streams.isEmpty && 128 ≤ s.drainRows t + s.fld F.ARC_MARKS.HWM t

/-- The members of an arch fetch the weights of a stream again where they hold them no longer (R78 step 3). -/
def State.refetch (s : State) (t : Nat) (h : Shape) (m : ArchStream) : State × ArchStream × Option TExc :=
  match m.blocks with
  | [] => (s, m, none)
  | b :: _ =>
    if (s.heldBlocks h m.seq).all fun q => q.num = m.wnum then (s, m, none)
    else
      let (s, bs, ex) := (List.range (h.a * h.b)).foldl (fun ((s, bs, ex) : State × List WBlock × Option TExc) i =>
        match ex with
        | some e => (s, bs, some e)
        | none =>
          let k := h.tiles.getD i 0
          let (cols, f) := weightCols t k b.desc (i / h.b) (i % h.b) (List.range 64) (.start s [])
          (if f.ue then (f.st.raise F.ARC_EVENT.MEM_UE_SUB k).markUe t else f.st, bs ++ [⟨m.wnum, b.desc, cols⟩], f.exc))
        (s, [], none)
      (s, { m with blocks := bs }, ex)

/-- An empty skid buffer of a die-edge port at a due item: the arch freezes, partial state is discarded, weights no longer held
are fetched again, the row feeders reposition to the lowest row some drain has not completed; completed rows are neither
written nor accumulated again. -/
def execArchRewind (t : Nat) (s : State) : Res State :=
  .next (match s.archOf t with
    | none => s
    | some (o, h) =>
      let c := (s.tile o).arch
      match c.streams.find? ArchStream.started with
      | none => s
      | some m0 =>
        if !h.edgePort t then s
        else
          let r0 := m0.done.foldl min m0.rows
          let s := s.freeze h fun m => if m = t then 16 else 0
          let (s, ms, ex) := c.streams.foldl (fun ((s, ms, ex) : State × List ArchStream × Option TExc) m =>
            match ex with
            | some e => (s, ms, some e)
            | none =>
              let (s, m, e) := if m.started then s.refetch o h m else (s, m, none)
              (s, ms ++ [{ m with acts := [], kv := [], issued := min m.issued (m.done.foldl min m.rows) }], e)) (s, [], none)
          match ex with
          | some e => (s.setArch o { c with streams := [] }).tileExc o false c.wpc c.wword e
          | none =>
            let s := s.setArch o { c with streams := ms }
            h.tiles.foldl (fun s m =>
              ((s.bump F.ARC_COUNT.REWINDS m 1).raise F.ARC_EVENT.REWIND m).setFld F.ARC_STREAM.ROWS_ISSUED m r0) s)

end Sys2Proof.Machine
end

