-- ==== Sys2Proof/Machine/Queue.lean ====
section
/-! DEFINITION. Machine/Queue.lean: the queues of the front end: their registers, states, doorbells, items, completion
records, the bus requests of the front end, and draining (R270 to R289, R292). -/
namespace Sys2Proof.Machine

/-! ## Codes (R283, R289, R292) -/

def qFree : Nat := 0
def qActive : Nat := 1
def qBlocked : Nat := 2
def qFaulted : Nat := 3
def qDraining : Nat := 4

def faultStale : Nat := 1
def faultRing : Nat := 2
def faultTimeout : Nat := 3

def stOk : Nat := 0x00
def stCancelled : Nat := 0x01
def stRefused : Nat := 0x02
def stDesc : Nat := 0x03
def stSegment : Nat := 0x04
def stUnit : Nat := 0x05
def stNoPlace : Nat := 0x06
def stTooLong : Nat := 0x07
def stXlate : Nat := 0x09
def stMemUe : Nat := 0x0A
def stReset : Nat := 0x0B
def stDevFault : Nat := 0x0C
def stHod : Nat := 0x0D
def stBadArg : Nat := 0x10
def stNoRes : Nat := 0x11
def stNotPerm : Nat := 0x12

/-! ## A queue's registers (R270, R271, R292); queue 1,024 + a is admin queue a -/

def isAdmin (q : Nat) : Bool := 1024 ≤ q
def adminQ (a : Nat) : Nat := 1024 + a

def State.qState (s : State) (q : Nat) : Nat := s.fld F.CFE_Q_STATE.STATE q
def State.setQState (s : State) (q v : Nat) : State := s.setFld F.CFE_Q_STATE.STATE q v
def State.qFault (s : State) (q : Nat) : Nat := s.fld F.CFE_Q_STATE.FAULT q
def State.qHead (s : State) (q : Nat) : Nat := s.fld F.CFE_Q_STATE.HEAD q

/-- Function that owns a queue, by admin queue number, which is also its PCI Express function (R270, R294). -/
def State.qOwner (s : State) (q : Nat) : Nat := if isAdmin q then q - 1024 else s.fld F.CFE_Q_CFG.OWNER q

/-- Owner tag of a queue's accesses (R386). -/
def State.qPart (s : State) (q : Nat) : Nat :=
  if isAdmin q then (if q = 1024 then 8 else q - 1025) else s.fld F.CFE_Q_CFG.PARTITION q

def State.qCtx (s : State) (q : Nat) : Nat := s.fld F.CFE_Q_CFG.CTX q
def State.qClass (s : State) (q : Nat) : Nat := s.fld F.CFE_Q_CFG.CLASS q

/-- log₂ of the submission and completion ring sizes; an admin queue's apply clamped (R292). -/
def State.sqOrder (s : State) (q : Nat) : Nat :=
  if isAdmin q then max 4 (min 16 (s.fld F.CFE_AQ_CFG.SQ_ORDER q)) else s.fld F.CFE_Q_CFG.SQ_ORDER q
def State.cqOrder (s : State) (q : Nat) : Nat :=
  if isAdmin q then max 4 (min 16 (s.fld F.CFE_AQ_CFG.CQ_ORDER q)) else s.fld F.CFE_Q_CFG.CQ_ORDER q
def State.sqBus (s : State) (q : Nat) : Bool :=
  s.on (if isAdmin q then F.CFE_AQ_CFG.SQ_SPACE else F.CFE_Q_CFG.SQ_SPACE) q
def State.cqBus (s : State) (q : Nat) : Bool :=
  s.on (if isAdmin q then F.CFE_AQ_CFG.CQ_SPACE else F.CFE_Q_CFG.CQ_SPACE) q
def State.sqBase (s : State) (q : Nat) : Nat := s.fld F.CFE_Q_SQ_BASE.BASE q * 4096
def State.cqBase (s : State) (q : Nat) : Nat := s.fld F.CFE_Q_CQ_BASE.BASE q * 4096

/-- Items fetched and not yet completed into a record ahead of which a queue may fetch (R276, R284). -/
def State.fetchAhead (s : State) (q : Nat) : Nat := if isAdmin q then 16 else s.fld F.CFE_Q_CFG.FETCH_AHEAD q

def State.itemsOf (s : State) (q : Nat) : List Item := s.items.filter fun i => i.queue = q
def State.inFlight (s : State) (q : Nat) : Nat := (s.itemsOf q).length

/-- The valid C0 group that names a queue (R26). -/
def State.groupOf (s : State) (q : Nat) : Option Nat :=
  (List.range 16).find? fun g => s.on F.CRS_C0_GROUP.VALID g && s.fld F.CRS_C0_GROUP.QUEUE g = q

/-! ## Items -/

/-- An item has finished its work: "completed" for AFTER (R273). -/
def Item.done (i : Item) : Bool := match i.stage with
  | .finished _ _ _ => true
  | _ => false

def Item.op (i : Item) : Nat := le i.desc 4 1
def Item.irq (i : Item) : Bool := (le i.desc 5 1).testBit 0
def Item.after (i : Item) : Bool := (le i.desc 5 1).testBit 1

/-- Change one item. -/
def State.modItem (s : State) (q seq : Nat) (f : Item → Item) : State :=
  { s with items := s.items.map fun i => if i.queue = q && i.seq = seq then f i else i }

def State.item (s : State) (q seq : Nat) : Option Item := s.items.find? fun i => i.queue = q && i.seq = seq

/-- Every earlier item of the item's queue has completed (R273). -/
def State.earlierDone (s : State) (i : Item) : Bool :=
  ((s.itemsOf i.queue).takeWhile fun j => j.seq ≠ i.seq).all Item.done

/-- An item completes with a status, a detail and a block index: its kept tiles are released (R265). One that fails its check
is checked now (R279). -/
def State.finish (s : State) (q seq status detail blk : Nat) : State :=
  let n := s.finishCtr
  { s.modItem q seq fun i =>
      { i with
        stage := .finished status detail blk
        kept := none
        finish := n
        checked := if i.stage = .fetched then s.ticks else i.checked } with
    finishCtr := n + 1 }

/-- An admin command completes with a status and RESULT (R290). -/
def State.finishAdmin (s : State) (q seq status result : Nat) : State :=
  (s.modItem q seq fun i => { i with result := result }).finish q seq status 0 0xFF

/-! ## Bus requests (R293, R294, R302) -/

/-- The link is in DL_Active, the function may master the bus and the module is not quiescing for a lost host (R314). -/
def State.canMaster (s : State) (fn : Nat) : Bool :=
  s.on F.HOD_LINK.UP 0 && (s.fn fn).bme && s.fld F.HOD_HOSTLOSS.STATE 0 ≠ 1 && s.fld F.HOD_HOSTLOSS.STATE 0 ≠ 2

/-- The selective IDE stream that a function's accesses travel in, once established (R294). -/
def State.ideStream (s : State) (fn : Nat) : Option Nat := (List.find? (fun (e : Nat × Nat) => e.2 = fn) s.trust.ide).map Prod.fst

/-- A requester's share of the 16,384 tags (R302): its first tag and their number. Hods of the classes across the bus have
1,024 each. -/
def BusOwner.share : BusOwner → Nat × Nat
  | .hodRead h _ _ | .hodFlush h _ => (1024 * h, 1024)
  | .core _ => (14336, 2048)
  | .ring _ | .record _ | .abandoned => (12288, 2048)

/-- A free tag of a requester's share. -/
def State.freeTagOf (s : State) (o : BusOwner) : Option Nat :=
  ((List.range o.share.2).map (o.share.1 + ·)).find? fun t => (SMap.find? s.bus t).isNone

/-- Put a non-posted read on the bus under a free tag; a requester whose share is used up stalls before this (R302). -/
def State.busRead (s : State) (o : BusOwner) (fn addr len tag : Nat) : State :=
  { s.emit (.busRead tag fn (s.ideStream fn) addr len) with bus := SMap.insert s.bus tag ⟨o, fn, addr, len⟩ }

/-- Put a posted write on the bus. -/
def State.busWrite (s : State) (fn addr : Nat) (data : List Byte) (ro : Bool) : State :=
  s.emit (.busWrite fn (s.ideStream fn) addr data ro)

/-! ## Queue faults (R283) -/

/-- An entry into CPL_BLOCKED or FAULTED sends one record. -/
def State.queueReport (s : State) (q code addr detail : Nat) : State :=
  s.report ⟨code, 2, uFrontEnd, uQueue q, addr, detail, s.qPart q, q⟩

/-- A fetch or timeout fault of a queue; the refetch in progress ends. -/
def State.queueFault (s : State) (q reason : Nat) : State :=
  let s := s.modQueue q fun x => { x with refetch := none, fetchTag := none, room := 0 }
  let st := s.qState q
  if st = qBlocked then s.setFld F.CFE_Q_STATE.FAULT q reason
  else if st = qActive then
    let s := ((s.setQState q qFaulted).setFld F.CFE_Q_STATE.FAULT q reason).raise F.CFE_Q_EVENT.FAULT q
    s.queueReport q 0x0102 0 reason
  else if st = qFaulted then s.setFld F.CFE_Q_STATE.FAULT q reason
  else s

/-- Grout record of a front-end translation fault (R431) and the status it gives an item (R246, R289). -/
def State.feFault (s : State) (q : Nat) (f : XFault × Nat) : State × Nat × Nat :=
  (s.report ⟨0x0204, 2, uFrontEnd, uFrontEnd, f.2, f.1.cause, s.qPart q, q⟩,
    if f.1.cause = xWalkUe then (stMemUe, 9) else (stXlate, f.1.cause))

/-! ## Becoming FREE (R284, R286, R292) -/

/-- A queue becomes FREE: HEAD, the record counts and FAULT read 0 and its timeout is removed without counting. -/
def State.freeQueue (s : State) (q : Nat) : State :=
  let s := (s.setReg .CFE_Q_STATE q 0).setReg .CFE_Q_CPL q 0
  let s := if isAdmin q then s else s.setReg .CFE_Q_CTL q 0
  { s.setQueue q Queue.reset with items := s.items.filter fun i => i.queue ≠ q }

/-- Engines that still hold work of a queue. -/
def State.engineBusy (s : State) (q : Nat) : Engine → Bool
  | .placer b => (s.block b).any fun x => x.queue = q
  | .hod h => (SMap.get s.hods [] h).any fun j => j.active && (match j.src with
    | .item q' _ => q' = q
    | _ => false)

/-- Ranges of a partition become PENDING and it enters CLOSING (R391). -/
def State.beginClose (s : State) (p : Nat) : State :=
  let s := (List.range 2048).foldl (fun s n =>
    if s.part.populated (n * 2 ^ 30) && s.fld F.SEC_RANGE.OWNER n = p then s.raise F.SEC_RANGE.PENDING n else s) s
  s.setFld F.SEC_PART.STATE p pClosing

/-- Every queue of a partition, its function's or one bound to a context of it, is FREE. -/
def State.partIdle (s : State) (p : Nat) : Bool :=
  s.queues.all fun e => isAdmin e.1 || s.qState e.1 = qFree || (s.qOwner e.1 ≠ p + 1 && s.qPart e.1 ≠ p)

/-- Partitions that waited for their queues to drain close (R397). -/
def State.closeDrained (s : State) : State :=
  let ps := s.closePend.filter s.partIdle
  let s := { s with closePend := s.closePend.filter fun p => !ps.contains p }
  ps.foldl State.beginClose s

/-- A DRAINING queue whose tokens are all in and whose records are all written or discarded becomes FREE, and the
destroy command completes (R286 step 6). -/
def State.drained (s : State) (q : Nat) : State :=
  let x := s.queue q
  if s.qState q = qDraining && x.tokens.isEmpty && x.writing.isNone && (s.itemsOf q).isEmpty then
    let s := s.freeQueue q
    let s := match x.destroy with
      | some d => match d.admin with
        | some a => s.finishAdmin a d.seq stOk (min d.cancelled (2 ^ 32 - 1) + min d.discarded (2 ^ 16 - 1) * 2 ^ 32)
        | none => s
      | none => s
    s.closeDrained
  else s

/-- Count records of a DRAINING queue as discarded (R286 step 5). -/
def State.discard (s : State) (q n : Nat) : State :=
  if n = 0 then s
  else
    (s.modQueue q fun x => { x with destroy := x.destroy.map fun d => { d with discarded := d.discarded + n } }).raise
      F.CFE_Q_EVENT.DISCARDED q

/-- The items of a DRAINING queue that satisfy `p` complete as CANCELLED. -/
def State.cancel (s : State) (q : Nat) (p : Item → Bool) : State :=
  (s.itemsOf q).foldl (fun s i =>
    if !i.done && p i then
      (s.finish q i.seq stCancelled 0 0xFF).modQueue q fun x =>
        { x with destroy := x.destroy.map fun d => { d with cancelled := d.cancelled + 1 } }
    else s) s

/-- Blocks of an item that run. -/
def State.blocksOf (s : State) (q seq : Nat) : List Block := s.blocks.filter fun b => b.queue = q && b.seq = seq

/-- A queue enters DRAINING (R286 steps 1 to 4); `d` names the command whose completion the drain gives. A held record whose
write is under way is counted when that fails. -/
def State.drain (s : State) (q : Nat) (d : Destroy) : State :=
  let x := s.queue q
  let waiting := if s.qState q = qBlocked then (s.itemsOf q).filter Item.done else []
  let toks := (s.blocks.filter fun b => b.queue = q).map (fun b => Engine.placer b.id) ++
    (s.hods.map fun (p : Nat × List HodJob) => (p.2.filter fun j => j.active && (match j.src with
      | .item q' _ => q' = q
      | _ => false)).map fun _ => Engine.hod p.1).flatten
  let s := (s.setQState q qDraining).modQueue q fun x =>
    { x with refetch := none, fetchTag := none, room := 0, held := [], resuming := false, destroy := some d, tokens := toks }
  let s := { s with
    items := s.items.filter fun i => !(waiting.any fun w => w.queue = i.queue && w.seq = i.seq)
    plan := s.plan.filter fun p => p.queue ≠ q
    hods := s.hods.map fun (p : Nat × List HodJob) => (p.1, p.2.filter fun j => j.active || (match j.src with
      | .item q' _ => q' ≠ q
      | _ => true)) }
  let s := s.discard q (x.held.length - bitN (x.resuming && x.writing.isSome) + waiting.length)
  let running (i : Item) : Bool := !(s.blocksOf q i.seq).isEmpty ||
    (s.hods.any fun (p : Nat × List HodJob) => p.2.any fun j => decide (j.src = HodSrc.item q i.seq))
  (s.cancel q fun i => !running i).drained q

/-! ## Completion records (R279 to R282, R285) -/

/-- Physical address reached without a lintel that is DOWN (R342 step 4): the IO-die lintel of its home C-die is up. -/
def State.ioReach (s : State) (pa : Nat) : Bool := s.fld F.LTL_STATE.STATE (32 + s.part.homeDie pa) ≠ 3

/-- Addresses of the PTEs that the IO-die unit's walk for an address reads (R243, R342), from the table at `table`. -/
def State.walkPtes (s : State) (cva : Nat) : Nat → Nat → Nat → List Nat
  | 0, _, _ => []
  | fuel + 1, level, table =>
    let a := table + 8 * vpn cva level
    let p := ofBytes ((List.range 8).map fun i => s.viewByte none (a + i))
    a :: (if pteLeaf p || !p.testBit 0 then [] else s.walkPtes cva fuel (level - 1) (bits p 53 10 * 4096))

/-- Every PTE that translating an address in a context would read is reached. -/
def State.walkReach (s : State) (ctx ava : Nat) : Bool :=
  let c := s.cva ctx ava
  if (s.cachedX 4 ctx 2 c).isSome || (s.cachedX 4 ctx 3 c).isSome then true
  else match s.cachedX 4 ctx 4 c with
    | some e => (s.walkPtes c 2 3 (bits e.pte.toNat 53 10 * 4096)).all s.ioReach
    | none => (s.walkPtes c 3 4 (s.fld F.XLT_CTX_ROOT.PPN ctx * 4096)).all s.ioReach

/-- A write into a record slot: written, failed, left out because its path needs a lintel that is DOWN, a bus write
whose zero-length read is outstanding under a tag, or stalled for a tag (R15, R302). -/
inductive Put where
  | ok (s : State)
  | fail (s : State)
  | left (s : State)
  | wait (tag : Nat) (s : State)
  | stall

/-- Address of record `n`'s slot (R280). -/
def State.recSlot (s : State) (q n : Nat) : Nat := s.cqBase q + n % 2 ^ s.cqOrder q * 32

/-- The three steps of R282 for record `n` of a queue. -/
def State.putRecord (s : State) (q : Nat) (r : HeldRec) : Put :=
  let a := s.recSlot q r.num
  let g : Agent := ⟨none, s.qPart q⟩
  let mem (s : State) (pa : Nat) : Put :=
    if s.halted && !s.ioReach pa then .left s
    else .ok ((s.memWrite g (pa + 8) (r.bytes.drop 8)).memWrite g pa (r.bytes.take 8))
  if s.cqBus q then
    let f := s.qOwner q
    if !s.canMaster f then .fail s
    else match s.freeTagOf (.record q) with
      | none => .stall
      | some tag =>
        let s := (s.busWrite f (a + 8) (r.bytes.drop 8) false).busWrite f a (r.bytes.take 8) false
        .wait tag (s.busRead (.record q) f a 0 tag)
  else if isAdmin q then
    if s.part.populatedRun a 32 && s.rangeOk (s.qPart q) a .write then mem s a else .fail s
  else if s.halted && !s.walkReach (s.qCtx q) a then .left s
  else
    let x := s.xlate 0 4 4 (s.qCtx q) a .write
    match x.res with
    | .ok pa => mem x.st pa
    | .error f => .fail (x.st.feFault q (f, a)).1

/-- Bytes of record `n` of a finished item (R279, R281): PHASE, OUT_INVALID and the body. -/
def State.recordBytes (s : State) (i : Item) (n status detail blk : Nat) : List Byte :=
  let q := i.queue
  let phase := bitN (n / 2 ^ s.cqOrder q % 2 = 0)
  let bad := bitN (status ≠ stOk && i.begun)
  let us := min ((s.ticks - i.checked) / 100) (2 ^ 32 - 1)
  bytesOf 4 i.seq ++ bytesOf 1 status ++ bytesOf 1 (phase + 2 * bad) ++ bytesOf 2 q ++
    (i.desc.drop 8).take 8 ++ bytesOf 8 s.course ++
    (if isAdmin q then bytesOf 8 i.result else bytesOf 2 detail ++ bytesOf 1 blk ++ bytesOf 1 0 ++ bytesOf 4 us)

/-- A record's bytes with HELD set. -/
def heldBytes (bs : List Byte) : List Byte := bs.take 5 ++ bytesOf 1 (le bs 5 1 ||| 4) ++ bs.drop 6

/-- The oldest finished item of a queue whose record is not produced. -/
def State.oldestDone (s : State) (q : Nat) : Option Item :=
  ((s.itemsOf q).filter Item.done).foldl (fun o i => match o with
    | some j => if i.finish < j.finish then some i else some j
    | none => some i) none

/-- Produce an item's record: it takes the next record number and leaves the items in flight. -/
def State.produce (s : State) (i : Item) : State × HeldRec :=
  let q := i.queue
  let n := s.fld F.CFE_Q_CPL.PRODUCED q
  let bs := match i.stage with
    | .finished st dt bl => s.recordBytes i n st dt bl
    | _ => []
  let s := (s.setFld F.CFE_Q_CPL.PRODUCED q (n + 1)).bump F.CFE_Q_STAT.ITEMS q 1
  ({ s with items := s.items.filter fun j => !(j.queue = q && j.seq = i.seq) }, ⟨n, bs, i.irq⟩)

/-- A record has been written: the MSI-X message, if asked for. -/
def State.recordDone (s : State) (q : Nat) (r : HeldRec) : State :=
  if !r.irq then s
  else if isAdmin q then s.msix (q - 1024) (s.fld F.CFE_AQ_CFG.MSIX q)
  else if s.on F.CFE_Q_CFG.MSIX_EN q then s.msix (s.qOwner q) (s.fld F.CFE_Q_CFG.MSIX q)
  else s

/-- A record write failed (R283, R285, R286 step 5). -/
def State.recordFail (s : State) (q : Nat) (r : HeldRec) : State :=
  let s := s.raise F.CFE_Q_EVENT.CPL_FAIL q
  let st := s.qState q
  if st = qDraining then s.discard q 1
  else if st = qActive || st = qFaulted then
    let s := (s.setQState q qBlocked).modQueue q fun x => { x with held := [{ r with bytes := heldBytes r.bytes }] }
    s.queueReport q 0x0103 (s.recSlot q r.num) r.num
  else s

/-- The held and then the waiting records of a CPL_BLOCKED queue are written in order; a failed write stops it (R285). -/
def State.rewrite (s : State) (q : Nat) : Nat → State
  | 0 => s
  | fuel + 1 =>
    let x := s.queue q
    let next : Option (State × HeldRec) := match x.held with
      | r :: _ => some (s, r)
      | [] => (s.oldestDone q).map fun i =>
        let (s, r) := s.produce i
        let r := { r with bytes := heldBytes r.bytes }
        (s.modQueue q fun x => { x with held := [r] }, r)
    match next with
    | none =>
      let s := s.modQueue q fun x => { x with resuming := false }
      if s.qFault q = 0 then s.setQState q qActive
      else (s.setQState q qActive).queueFault q (s.qFault q)
    | some (s, r) =>
      match s.putRecord q r with
      | .ok s => ((s.modQueue q fun x => { x with held := x.held.drop 1 }).recordDone q r).rewrite q fuel
      | .left s => (s.modQueue q fun x => { x with held := x.held.drop 1 }).rewrite q fuel
      | .fail s => (s.raise F.CFE_Q_EVENT.CPL_FAIL q).modQueue q fun x => { x with resuming := false }
      | .wait tag s => s.modQueue q fun x => { x with resuming := true, writing := some (r, tag) }
      | .stall => s.modQueue q fun x => { x with resuming := true }

/-- Continue a rewrite. -/
def State.rewriteAll (s : State) (q : Nat) : State := s.rewrite q ((s.queue q).held.length + s.inFlight q + 1)

/-- Rewrites that stalled for a tag go on (R302). -/
def State.rewriteStalled (s : State) : State :=
  (s.queues.filter fun e => e.2.resuming && e.2.writing.isNone).foldl (fun s e => s.rewriteAll e.1) s

/-- The zero-length read that a record waits for, under its tag, completed, well or not (R282). -/
def State.recordRead (s : State) (q tag : Nat) (ok : Bool) : State :=
  match ((s.queue q).writing.filter fun w => w.2 = tag).map Prod.fst with
  | none => s
  | some r =>
    let resuming := (s.queue q).resuming
    let s := s.modQueue q fun x => { x with writing := none }
    let s :=
      if resuming then
        if ok then
          ((s.modQueue q fun x => { x with held := x.held.drop 1 }).recordDone q r).rewriteAll q
        else (s.raise F.CFE_Q_EVENT.CPL_FAIL q).modQueue q fun x => { x with resuming := false }
      else if ok then s.recordDone q r
      else s.recordFail q r
    s.drained q

/-- The front end writes records: the accelerator accepts work, or has halted (R287, R342 step 4). -/
def State.writesRecords (s : State) : Bool := s.ready || s.halted

/-- Produce and write the record of the item of queue `q` that completed first, or hold it (R282, R285). -/
def execCompletionRecordWrite (q : Nat) (s : State) : Res State :=
  let x := s.queue q
  .next (match s.oldestDone q with
    | none => s
    | some i =>
      if !s.writesRecords || s.starved (s.qPart q) || x.writing.isSome || x.resuming then s
      else if s.qState q = qBlocked then
        if 4 ≤ x.held.length then s
        else
          let (s, r) := s.produce i
          s.modQueue q fun x => { x with held := x.held ++ [{ r with bytes := heldBytes r.bytes }] }
      else
        let (s', r) := s.produce i
        match s'.putRecord q r with
        | .ok s => (s.recordDone q r).drained q
        | .left s => s.drained q
        | .fail s => (s.recordFail q r).drained q
        | .wait tag s => (s.modQueue q fun x => { x with writing := some (r, tag) }).drained q
        | .stall => s)

/-- CFE_Q_CTL.RESUME (R285). -/
def execResume (q : Nat) (s : State) : Res State :=
  .next (if 1033 ≤ q then s
    else if s.qState q ≠ qBlocked || (s.queue q).resuming then s.raise F.CFE_Q_EVENT.CTL_REFUSED q else s.rewriteAll q)

/-- An engine returns a retire token of a draining queue (R286): due once it holds no work of it. -/
def execRetireToken (q : Nat) (e : Engine) (s : State) : Res State :=
  let x := s.queue q
  let owed := x.tokens.filter (· = e)
  let left := match e with
    | .placer _ => bitN (s.engineBusy q e)
    | .hod h => ((SMap.get s.hods [] h).filter fun j => j.active && (match j.src with
      | .item q' _ => q' = q
      | _ => false)).length
  .next (if left < owed.length then
      (s.modQueue q fun x => { x with tokens := x.tokens.erase e }).drained q
    else s)

/-! ## Doorbells and controls (R272, R280, R284, R288, R292) -/

/-- A number of records or descriptors ahead, modulo 2³². -/
def ahead (a b : Nat) : Nat := (a + 2 ^ 32 - b % 2 ^ 32) % 2 ^ 32

/-- A doorbell or consumed count without effect. -/
def State.dbIgnored (s : State) (q : Nat) : State := s.bump F.CFE_Q_STAT.DB_IGNORED q 1

/-- A new tail is accepted at or beyond the tail and at most one ring beyond HEAD (R272). -/
def execSqDoorbell (q : Nat) (v : BitVec 64) (s : State) : Res State :=
  let n := v.toNat % 2 ^ 32
  let ring := 2 ^ s.sqOrder q
  .next (if 1033 ≤ q then s
    else if s.qState q = qFree || s.qState q = qDraining || ring < ahead n (s.qHead q) ||
      ring < ahead n (s.queue q).tail then s.dbIgnored q
    else s.modQueue q fun x => { x with tail := n })

/-- The consumed count moves on, at most to the records produced (R280). -/
def execCqDoorbell (q : Nat) (v : BitVec 64) (s : State) : Res State :=
  let n := v.toNat % 2 ^ 32
  let c := s.fld F.CFE_Q_CPL.CONSUMED q
  .next (if 1033 ≤ q then s
    else if s.qState q = qFree || ahead (s.fld F.CFE_Q_CPL.PRODUCED q) c < ahead n c then s.dbIgnored q
    else s.setFld F.CFE_Q_CPL.CONSUMED q n)

/-- CFG_EPOCH counts a changed runtime-mutable value (R413). -/
def State.epoch (s : State) : State :=
  (s.setFld F.CFG_EPOCH.EPOCH 0 (s.fld F.CFG_EPOCH.EPOCH 0 + 1)).raise F.CFG_EVENT.EPOCH 0

/-- A write to CFE_Q_CTL.TIMEOUT (R288). -/
def execTimeoutWrite (q : Nat) (v : BitVec 64) (s : State) : Res State :=
  let n := max 1 (v.toNat % 256)
  .next (if 1033 ≤ q then s
    else if isAdmin q || s.qState q = qFree then s.raise F.CFE_Q_EVENT.CTL_REFUSED q
    else if s.fld F.CFE_Q_CTL.TIMEOUT q = n then s
    else (s.setFld F.CFE_Q_CTL.TIMEOUT q n).epoch)

/-- CFE_AQ_CFG as a write leaves it (R4, R6, R292). -/
def aqCfg (v : BitVec 64) : BitVec 64 :=
  let x := v.toNat
  let c (n : Nat) : Nat := max 4 (min 16 n)
  BitVec.ofNat 64 (bits x 63 63 * 2 ^ 63 + bits x 26 16 * 2 ^ 16 + bits x 13 12 * 2 ^ 12 +
    c (bits x 9 5) * 32 + c (bits x 4 0))

/-- Setting CFE_AQ_CFG.ENABLE (R284, R292). -/
def execAdminQueueEnable (a : Nat) (v : BitVec 64) (s : State) : Res State :=
  let q := adminQ a
  .next (if 9 ≤ a || !v.toNat.testBit 63 then s
    else if s.on F.CFE_AQ_CFG.ENABLE q then s.raise F.CFE_Q_EVENT.CTL_REFUSED q
    else
      let s := ((s.setReg .CFE_AQ_CFG q (aqCfg v)).setReg .CFE_Q_STATE q 0).setReg .CFE_Q_CPL q 0
      (s.setQueue q Queue.reset).setQState q qActive)

/-- Clearing CFE_AQ_CFG.ENABLE, which needs nothing in flight (R284, R292). -/
def execAdminQueueDisable (a : Nat) (v : BitVec 64) (s : State) : Res State :=
  let q := adminQ a
  .next (if 9 ≤ a || v.toNat.testBit 63 || !s.on F.CFE_AQ_CFG.ENABLE q then s
    else if s.inFlight q ≠ 0 then s.raise F.CFE_Q_EVENT.CTL_REFUSED q
    else (s.setReg .CFE_AQ_CFG q (aqCfg v)).freeQueue q)

/-! ## Fetching (R276, R277) -/

/-- A read of the queue's ring is under way, or a mismatched slot waits to be read again. -/
def State.fetching (s : State) (q : Nat) : Bool := (s.queue q).fetchTag.isSome || (s.queue q).refetch.isSome

/-- Which fetch credit a queue uses: its class's, or 4 for the admin queues (R276, R284). -/
def State.creditOf (s : State) (q : Nat) : Nat := if isAdmin q then 4 else s.qClass q

/-- Fetches in flight on a credit. -/
def State.classFetches (s : State) (c : Nat) : Nat :=
  (s.queues.filter fun e => s.creditOf e.1 = c && s.fetching e.1).length

/-- The fetch conditions of R276 that hold between the reads of one slot. -/
def State.mayFetch (s : State) (q : Nat) : Bool :=
  let n := s.inFlight q
  let st := s.qState q
  let held := (s.queue q).held.length
  q < 1033 && s.ready && !s.halted && s.fld F.HOD_HOSTLOSS.STATE 0 = 0 &&
    (s.queue q).tail ≠ s.qHead q &&
    (st = qActive || (st = qBlocked && s.qFault q = 0 && held + n < 4)) &&
    n < s.fetchAhead q && !((s.itemsOf q).any fun i => i.stage = .fetched) &&
    ahead (s.fld F.CFE_Q_CPL.PRODUCED q) (s.fld F.CFE_Q_CPL.CONSUMED q) + n < 2 ^ s.cqOrder q

/-- OP of a descriptor is reserved (R273, R290). -/
def opReserved (q op : Nat) : Bool :=
  if isAdmin q then !([0x01, 0x02, 0x03, 0x08, 0x09, 0x10, 0x11, 0x12, 0x20, 0x21, 0x22, 0x23, 0x30].contains op)
  else 3 ≤ op

/-- Bytes of the image store each class has (R256). -/
def imageShare : Nat → Nat
  | 0 => 2 ^ 20 | 1 => 6 * 2 ^ 20 | 2 => 5 * 2 ^ 20 | _ => 4 * 2 ^ 20

/-- Bytes of a class's share that items hold, for a copy or for one not read yet, but for item `mine` (R256). -/
def State.imagesHeld (s : State) (cls : Nat) (mine : Nat × Nat) : Nat :=
  (s.items.map fun i =>
    if !isAdmin i.queue && s.qClass i.queue = cls && !i.done && (i.queue, i.seq) ≠ mine then max i.room i.image.length
    else 0).sum

/-- IMAGE_BYTES of the image a RUN descriptor of queue `q` names, as memory stands: what a fetch must find room for; 0 where
no image of a valid length can be read there, and for other descriptors. -/
def State.imageRoom (s : State) (q : Nat) (bs : List Byte) : Nat :=
  let g := s.vaRead none 0 4 4 (s.qCtx q) (le bs 16 8 + 8) 4 .read
  let n := le g.data 0 4
  if isAdmin q || le bs 4 1 ≠ 1 || g.fault.isSome || g.ue || n < 64 || 65536 < n then 0 else n

/-- The image would fit in its class's share (R256). -/
def State.imageFits (s : State) (q room : Nat) : Bool :=
  let cls := s.qClass q
  room = 0 || s.imagesHeld cls (q, s.qHead q) + room ≤ imageShare cls

/-- The slot at HEAD has been read, or its read failed (R277). A RUN whose image would not fit its class's share is not
fetched: HEAD stands, and the slot is read again once the share has that room (R256). -/
def State.slotRead (s : State) (q : Nat) (got : Option (List Byte)) : State :=
  let s := s.modQueue q fun x => { x with fetchTag := none }
  let head := s.qHead q
  match got with
  | none => s.queueFault q faultRing
  | some bs =>
    let room := s.imageRoom q bs
    if le bs 0 4 = head && !s.imageFits q room then s.modQueue q fun x => { x with refetch := none, room := room }
    else if le bs 0 4 = head then
      let i : Item :=
        { queue := q, seq := head, desc := bs, stage := .fetched, room := room, image := [], next := 0, ended := 0, failed := none,
          begun := false, conts := [], kept := none, result := 0, checked := s.ticks, finish := 0, start := 0 }
      let s := (s.setFld F.CFE_Q_STATE.HEAD q (head + 1)).modQueue q fun x => { x with refetch := none, room := 0 }
      let s := { s with items := s.items ++ [i] }
      if opReserved q i.op then s.finish q head stDesc 0 0xFF else s
    else match (s.queue q).refetch with
      | none => s.modQueue q fun x => { x with refetch := some 1 }
      | some k =>
        if 16 ≤ k then s.queueFault q faultStale
        else s.modQueue q fun x => { x with refetch := some (k + 1) }

/-- A queue is ready to fetch its next descriptor: no descriptor of it waits for room for its image. -/
def State.fetchReady (s : State) (q : Nat) : Bool :=
  s.mayFetch q && !s.starved (s.qPart q) && !s.fetching q && s.imageFits q (s.queue q).room

/-- The queue gets its turn (R276): its credit is free, in round robin where more queues are ready than it allows, and no
queue of an earlier class is ready to fetch. -/
def State.fetchTurn (s : State) (q : Nat) : Bool :=
  let c := s.creditOf q
  let ready := (s.queues.map Prod.fst).filter s.fetchReady
  let mine := ready.filter fun r => s.creditOf r = c
  let free := 16 - s.classFetches c
  let last := SMap.get s.fetchLast 0 c
  let before (r : Nat) : Bool := (r + 2047 - last) % 2048 < (q + 2047 - last) % 2048
  0 < free && !(ready.any fun r => s.creditOf r < c && c < 4 && s.classFetches (s.creditOf r) < 16) &&
    (mine.filter before).length < free

/-- Read the slot at HEAD: from memory at once, from a bus-address ring when the bus completes it. -/
def State.readSlot (s : State) (q : Nat) : State :=
  let a := s.sqBase q + s.qHead q % 2 ^ s.sqOrder q * 64
  if s.sqBus q then
    if !s.canMaster (s.qOwner q) then s.slotRead q none
    else match s.freeTagOf (.ring q) with
      | none => s
      | some n => (s.busRead (.ring q) (s.qOwner q) a 64 n).modQueue q fun x => { x with fetchTag := some n }
  else if isAdmin q then
    if s.part.populatedRun a 64 && s.rangeOk (s.qPart q) a .read then
      let g := s.memRead ⟨none, s.qPart q⟩ a 64
      g.st.slotRead q (if g.ue then none else some g.data)
    else s.slotRead q none
  else
    let g := s.vaRead none 0 4 4 (s.qCtx q) a 64 .read
    match g.fault with
    | some f => (g.st.feFault q f).1.slotRead q none
    | none => g.st.slotRead q (if g.ue then none else some g.data)

/-- The front end reads the next descriptor of queue `q`. -/
def execDescriptorFetch (q : Nat) (s : State) : Res State :=
  .next (if s.fetchReady q && s.fetchTurn q then
      { s with fetchLast := SMap.insert s.fetchLast (s.creditOf q) q }.readSlot q
    else s)

/-- The front end reads a mismatched slot again. -/
def execDescriptorRefetch (q : Nat) (s : State) : Res State :=
  let x := s.queue q
  .next (if s.mayFetch q && !s.starved (s.qPart q) && x.refetch.isSome && x.fetchTag.isNone then
      (s.bump F.CFE_Q_STAT.REFETCH q 1).readSlot q
    else s)

end Sys2Proof.Machine
end

