-- ==== Sys2Proof/Machine/Image.lean ====
section
/-! DEFINITION. Machine/Image.lean: the segment image, its validity and the refusals at fetch (R255 to R260). -/
namespace Sys2Proof.Machine

/-- Bytes `off` to `off + n − 1`. -/
def slice (bs : List Byte) (off n : Nat) : List Byte := (bs.drop off).take n

/-! ## Header, block, alternative, program and relocation records (R257) -/

def imBytes (im : List Byte) : Nat := le im 8 4
def imBlocks (im : List Byte) : Nat := le im 12 2
def imPrograms (im : List Byte) : Nat := le im 14 2
def imUnits (im : List Byte) : Nat := le im 28 4
def imBlock (im : List Byte) (i : Nat) : List Byte := slice im (le im 16 4 + 64 * i) 64
def imProgram (im : List Byte) (j : Nat) : List Byte := slice im (le im 20 4 + 48 * j) 48
def imReloc (im : List Byte) (j : Nat) : List Byte := slice im (le im 24 4 + 4 * j) 4

def bkArch (b : List Byte) : Bool := le b 0 1 = 1
def bkAfterPrev (b : List Byte) : Bool := (le b 1 1).testBit 0
def bkKeep (b : List Byte) : Bool := (le b 1 1).testBit 1
def bkResident (b : List Byte) : Bool := (le b 1 1).testBit 2
def bkPlinthWrite (b : List Byte) : Bool := (le b 1 1).testBit 3
def bkAlts (b : List Byte) : Nat := le b 2 1
def bkHome (b : List Byte) : Nat := le b 3 1
def bkTiles (b : List Byte) : Nat := le b 4 2
def bkScratch (b : List Byte) : Nat := le b 6 1
def bkSet (b : List Byte) : Nat := le b 8 4
def bkBanks (b : List Byte) : Nat := le b 12 2
def bkAlt (b : List Byte) (k : Nat) : List Byte := slice b (16 + 12 * k) 12

/-- Affinity entry of logical bank `i`. -/
def bkAffinity (im b : List Byte) (i : Nat) : Nat := le im (le b 14 2 + 2 * i) 2

def alA (a : List Byte) : Nat := le a 0 1
def alB (a : List Byte) : Nat := le a 1 1
def alFirst (a : List Byte) : Nat := le a 2 2
def alDuration (a : List Byte) : Nat := le a 4 4
def alPrograms (a : List Byte) : Nat := le a 8 2

/-- Handles n of an alternative (R258). -/
def alTiles (b a : List Byte) : Nat := if bkArch b then alA a * alB a else bkTiles b

def pgFirst (p : List Byte) : Nat := le p 0 2
def pgLast (p : List Byte) : Nat := le p 2 2
def pgContinuing (p : List Byte) : Bool := (le p 4 1).testBit 0
def pgRelocs (p : List Byte) : Nat := le p 5 1
def pgRelocIndex (p : List Byte) : Nat := le p 6 2
def pgEntry (p : List Byte) : Nat := le p 8 8
def pgText (p : List Byte) : Nat × Nat := (le p 16 8, le p 24 4)
def pgConst (p : List Byte) : Nat × Nat := (le p 32 8, le p 28 4)

def rlSlot (r : List Byte) : Nat := le r 0 1
def rlDstore (r : List Byte) : Bool := (le r 1 1).testBit 0
def rlRelative (r : List Byte) : Bool := (le r 1 1).testBit 1
def rlTarget (r : List Byte) : Nat := le r 2 2

/-- Blocks of an image, alternatives of a block, program records of an alternative, relocation entries of a record. -/
def blocksIn (im : List Byte) : List (List Byte) := (List.range (imBlocks im)).map (imBlock im)
def altsIn (b : List Byte) : List (List Byte) := (List.range (bkAlts b)).map (bkAlt b)
def programsIn (im a : List Byte) : List (List Byte) :=
  (List.range (alPrograms a)).map fun j => imProgram im (alFirst a + j)
def relocsIn (im p : List Byte) : List (List Byte) :=
  (List.range (pgRelocs p)).map fun j => imReloc im (pgRelocIndex p + j)

/-- Program record that serves a handle (R258). -/
def programOf (im a : List Byte) (h : Nat) : List Byte :=
  ((programsIn im a).find? fun p => pgFirst p ≤ h && h ≤ pgLast p).getD []

/-! ## Validity (R257, R258) -/

/-- Shapes of R61. -/
def archShape (a b : Nat) : Bool := [1, 2, 5, 10, 20].contains a && [1, 2, 4, 5, 10, 20, 40].contains b

/-- The relocation table's offset, where some record has entries in it: a table of none is not checked (R257). -/
def relocTableOk (im : List Byte) : Bool :=
  le im 24 4 % 4 = 0 || (List.range (imPrograms im)).all fun j => pgRelocs (imProgram im j) = 0

/-- Some alternative of some block names program record `j`. -/
def namedProgram (im : List Byte) (j : Nat) : Bool :=
  (blocksIn im).any fun b => (altsIn b).any fun a => alFirst a ≤ j && j < alFirst a + alPrograms a

/-- A relocation entry of a block with `n` handles in some alternative. -/
def relocOk (b r : List Byte) (n : Nat) : Bool :=
  1 ≤ rlSlot r && rlSlot r ≤ 31 && !(rlDstore r && rlRelative r) &&
    (if rlDstore r then rlTarget r < bkBanks b else rlRelative r || rlTarget r < n)

/-- A program record by itself. -/
def programOk (im p : List Byte) : Bool :=
  let (tb, tn) := pgText p
  let (cb, cn) := pgConst p
  pgFirst p ≤ pgLast p && pgRelocs p ≤ 31 && tb % 8 = 0 && 8 ≤ tn && tn ≤ 65536 && tn % 8 = 0 &&
    pgEntry p % 8 = 0 && tb ≤ pgEntry p && pgEntry p < tb + tn && cn ≤ 65536 && (cn = 0 || cb % 8 = 0) &&
    (pgRelocs p = 0 || le im 24 4 + 4 * (pgRelocIndex p + pgRelocs p) ≤ imBytes im) &&
    (let ss := (relocsIn im p).map rlSlot; ss.eraseDups.length = ss.length)

/-- An alternative of block `b`; `cont` allows CONTINUING. -/
def altOk (im b a : List Byte) (cont : Bool) : Bool :=
  let n := alTiles b a
  (if bkArch b then archShape (alA a) (alB a) else alA a = 0 && alB a = 0) &&
    1 ≤ alDuration a && 1 ≤ alPrograms a && alPrograms a ≤ 800 && alFirst a + alPrograms a ≤ imPrograms im &&
    (let ps := programsIn im a
     ps.all (fun p => programOk im p && pgLast p < n && (cont || !pgContinuing p) &&
       (relocsIn im p).all fun r => relocOk b r n) &&
     (List.range n).all fun h => (ps.filter fun p => pgFirst p ≤ h && h ≤ pgLast p).length = 1)

/-- Block `i` of an image. -/
def blockOk (im : List Byte) (i : Nat) : Bool :=
  let b := imBlock im i
  let next := i + 1 < imBlocks im && bkAfterPrev (imBlock im (i + 1))
  le b 0 1 ≤ 1 && 1 ≤ bkAlts b && bkAlts b ≤ (if bkArch b then 4 else 1) && (bkHome b ≤ 3 || bkHome b = 0xFF) &&
    (if bkArch b then bkTiles b = 0 else 1 ≤ bkTiles b && bkTiles b ≤ 800) && bkScratch b ≤ 16 && bkBanks b ≤ 64 &&
    (bkBanks b = 0 || (le b 14 2 % 2 = 0 && le b 14 2 + 2 * bkBanks b ≤ imBytes im)) &&
    (!bkKeep b || (bkAfterPrev b && i ≠ 0)) && (!bkResident b || !bkArch b) && (!bkPlinthWrite b || bkResident b) &&
    (altsIn b).all fun a => altOk im b a next

/-- A table of `n` entries of `size` bytes lies wholly inside the image at a multiple of `align`. -/
def tableOk (im : List Byte) (off n size align : Nat) : Bool :=
  n = 0 || (off % align = 0 && off + n * size ≤ imBytes im)

/-- The header (R257), over at least 64 bytes. -/
def headerOk (im : List Byte) : Bool :=
  le im 0 4 = 0x544D4753 && le im 4 2 = 1 && 64 ≤ imBytes im && imBytes im ≤ 65536 &&
    1 ≤ imBlocks im && imBlocks im ≤ 64 && 1 ≤ imPrograms im && imPrograms im ≤ 1024 &&
    tableOk im (le im 16 4) (imBlocks im) 64 64 && tableOk im (le im 20 4) (imPrograms im) 48 16 && relocTableOk im

/-- Every program record is within its ranges, whether an alternative names it or not (R257); one that none names has no
relative DSTORE entry, and belongs to no block, so it is not CONTINUING (R258). -/
def programsOk (im : List Byte) : Bool :=
  (List.range (imPrograms im)).all fun j =>
    let p := imProgram im j
    programOk im p && (!pgContinuing p || namedProgram im j) &&
      (relocsIn im p).all fun r => 1 ≤ rlSlot r && rlSlot r ≤ 31 && !(rlDstore r && rlRelative r)

/-- An image of IMAGE_BYTES bytes is valid (R257, R258). -/
def imageValid (im : List Byte) : Bool :=
  headerOk im && programsOk im && (List.range (imBlocks im)).all (blockOk im)

/-! ## Durations and costs (R18, R23, R27) -/

/-- The course period in nanoseconds (R18). -/
def State.periodNs (s : State) : Nat :=
  match s.fld F.CRS_PERIOD.PERIOD 0 with
  | 0 => 250000 | 1 => 500000 | 2 => 1000000 | 3 => 2000000 | _ => 4000000

/-- Floor of a class in MHz (R24, R38). -/
def State.floorMhz (s : State) (cls : Nat) : Nat :=
  600 + 50 * s.fld (match cls with
    | 0 => F.CRS_FLOOR.C0_FLOOR | 1 => F.CRS_FLOOR.C1_FLOOR | 2 => F.CRS_FLOOR.C2_FLOOR | _ => F.CRS_FLOOR.C3_FLOOR) 0

/-- Predicted duration of an alternative at its class floor, in nanoseconds. -/
def State.durNs (s : State) (cls : Nat) (a : List Byte) : Rat :=
  (alDuration a : Rat) * 1000 / (s.floorMhz cls : Rat)

/-- The duration check of R23. -/
def State.durOk (s : State) (cls : Nat) (a : List Byte) : Bool :=
  s.durNs cls a ≤ (s.periodNs : Rat) * 85 / 100

/-! ## Tiles, groups and sets -/

/-- The valid C0 group that holds a tile (R25). -/
def State.c0Of (s : State) (t : Nat) : Option Nat :=
  (List.range 16).find? fun g => s.on F.CRS_C0_GROUP.VALID g && s.fld F.CRS_C0_GROUP.FIRST_TILE g ≤ t &&
    t < s.fld F.CRS_C0_GROUP.FIRST_TILE g + max 1 (s.fld F.CRS_C0_GROUP.TILE_COUNT g)

def State.c0i (s : State) (g : Nat) : C0Info := SMap.get s.c0info ⟨8, 0, 0⟩ g

/-- Owner of a tile (R389). -/
def State.tileOwnerOf (s : State) (t : Nat) : Nat := SMap.get s.tileOwner 8 t

/-- Banks of a tile's plinth region. -/
def State.plinthBanks (s : State) (t : Nat) : Nat := s.fld F.SCP_PLINTH.BANKS t

/-- Scratch banks of a tile that a block can claim: the non-plinth ones, less two in scratch text mode (R262, R266). -/
def State.freeBanks (s : State) (t : Nat) : Nat :=
  16 - s.plinthBanks t - (if s.on F.TSQ_QCTL.TEXT_MODE t then 2 else 0)

/-- A resident set of a partition (R267). -/
def State.rset (s : State) (id : Nat) : Option RSet := s.sets.find? fun r => r.id = id

/-- Tile of handle `h` of an a × b arch at an origin (R264). -/
def archTile (b r0 c0 h : Nat) : Nat := tileAt (r0 + h / b) (c0 + h % b)

/-- Aligned origins of a shape on the part, as package row and column (R61). -/
def Part.origins (p : Part) (a b : Nat) : List (Nat × Nat) :=
  ((List.range (10 * (p.dies / 2) / a)).map fun r => (List.range (40 / b)).map fun c => (r * a, c * b)).flatten

/-! ## Refusals at fetch (R260) -/

/-- An alternative needs tiles the part lacks. -/
def Part.lacks (p : Part) (b a : List Byte) : Bool :=
  p.tiles < alTiles b a || (bkArch b && alA a = 20 && p.dies < 4)

/-- A tile that counts as free for the last row of R260, for a partition's item on a queue outside C0. -/
def State.countsFree (s : State) (part t : Nat) (b : List Byte) : Bool :=
  s.tileOwnerOf t = part && (s.c0Of t).isNone && !s.faulty.contains t && bkScratch b ≤ s.freeBanks t

/-- An alternative could be placed with those tiles. -/
def State.placeable (s : State) (part : Nat) (b a : List Byte) : Bool :=
  let ok (t : Nat) : Bool := s.countsFree part t b
  if bkResident b then
    match s.rset (bkSet b) with
    | some r => r.members.all ok
    | none => false
  else if bkArch b then
    (s.part.origins (alA a) (alB a)).any fun (r, c) =>
      (List.range (alTiles b a)).all fun h => ok (archTile (alB a) r c h)
  else alTiles b a ≤ ((List.range s.part.tiles).filter ok).length

/-- The refusal of a valid image, with the block its record names (R23, R260). -/
def State.refusal (s : State) (cls part : Nat) (grp : Option Nat) (im : List Byte) : Option (Nat × Nat) :=
  let bs := blocksIn im
  let g := grp.getD 0
  let c0 := cls = 0
  if ((imUnits im).testBit 0 && !(List.range 4).any s.part.hasRiddle) || ((imUnits im).testBit 1 && !s.part.hasAshlar) then
    some (stUnit, 0xFF)
  else if bs.any fun b => (altsIn b).all (s.part.lacks b) then some (stUnit, 0xFF)
  else if c0 && bs.any (fun b => bkArch b || max 1 (s.fld F.CRS_C0_GROUP.TILE_COUNT g) < bkTiles b ||
      (bkResident b && bkSet b ≠ (s.c0i g).setId)) then some (stSegment, 0xFF)
  else match (List.range (imBlocks im)).find? fun i => (altsIn (imBlock im i)).all fun a => !s.durOk cls a with
    | some i => some (stTooLong, i)
    | none =>
      if bs.any fun b => bkResident b && (match s.rset (bkSet b) with
          | some r => r.part ≠ part || r.members.length ≠ bkTiles b
          | none => true) then some (stRefused, 0xFF)
      else if bs.any fun b => 64 * s.part.dies < bkBanks b ||
          (if c0 then
            (List.range (bkTiles b)).any fun h =>
              s.freeBanks (s.fld F.CRS_C0_GROUP.FIRST_TILE g + h) < bkScratch b
          else (altsIn b).all fun a => !s.durOk cls a || s.part.lacks b a || !s.placeable part b a) then
        some (stNoPlace, 0xFF)
      else none

/-! ## RUN and NOP items (R255, R256, R274) -/

/-- The oldest unchecked item of a queue, when its OP is `op`. -/
def State.unchecked (s : State) (q op : Nat) : Option Item :=
  match (s.itemsOf q).find? fun i => i.stage = .fetched with
  | some i => if i.op = op then some i else none
  | none => none

/-- The queue's context is not valid: the item completes with TRANSLATION_FAULT, cause NO_CONTEXT (R239, R274). -/
def State.noContext (s : State) (i : Item) : State :=
  let ctx := s.qCtx i.queue
  let f : XFault := ⟨xNoContext, 0⟩
  let (s, st, dt) := ((s.latchX 0 4 4 ctx 0 .read f).feFault i.queue (f, 0))
  s.finish i.queue i.seq st dt 0xFF

/-- A work NOP with AFTER set that waits completes once every earlier item has. -/
def State.waitingNop (s : State) (q : Nat) : Option Item :=
  (s.itemsOf q).find? fun i => i.op = 0 && i.stage = .waiting && s.earlierDone i

/-- A work NOP of queue `q` is checked, or one that waited for the items before it completes. -/
def execWorkNop (q : Nat) (s : State) : Res State :=
  .next (if isAdmin q || !s.ready then s
    else match s.unchecked q 0 with
    | some i =>
      if !s.ctxValid (s.qCtx q) then s.noContext i
      else
        let s := s.modItem q i.seq fun i => { i with stage := .waiting, checked := s.ticks }
        if !i.after || s.earlierDone i then s.finish q i.seq stOk 0 0xFF else s
    | none => match s.waitingNop q with
      | some i => s.finish q i.seq stOk 0 0xFF
      | none => s)

/-- Read an image: its header first, then all of it (R255). -/
def State.imageRead (s : State) (q ava : Nat) : List Byte × Option (Nat × Nat) × State :=
  let rd (s : State) (n : Nat) : List Byte × Option (Nat × Nat) × State :=
    let g := s.vaRead none 0 4 4 (s.qCtx q) ava n .read
    match g.fault with
    | some f => let (s, st, dt) := g.st.feFault q f; ([], some (st, dt), s)
    | none => if g.ue then ([], some (stMemUe, 0), g.st) else (g.data, none, g.st)
  match rd s 64 with
  | (h, none, s) => if 64 < imBytes h && imBytes h ≤ 65536 then rd s (imBytes h) else (h, none, s)
  | r => r

/-- A RUN item of queue `q` is checked: its image is read, validated and kept, or the item completes (R274). An image
written anew since the fetch that no longer fits its class's share waits (R256). -/
def execRun (q : Nat) (s : State) : Res State :=
  .next (if isAdmin q || s.starved (s.qPart q) || !s.ready then s
    else match s.unchecked q 1 with
    | none => s
    | some i =>
      let ava := le i.desc 16 8
      let cls := s.qClass q
      let grp := s.groupOf q
      if ava % 64 ≠ 0 || 2 ^ 48 ≤ ava || 2 ^ 48 ≤ le i.desc 24 8 then s.finish q i.seq stDesc 0 0xFF
      else if !s.ctxValid (s.qCtx q) then s.noContext i
      else if cls = 0 && grp.isNone then s.finish q i.seq stRefused 0 0xFF
      else match s.imageRead q ava with
        | (_, some (st, dt), s) => s.finish q i.seq st dt 0xFF
        | (im, none, s') =>
          if !imageValid im then s'.finish q i.seq stSegment 0 0xFF
          else match s'.refusal cls (s'.qPart q) grp im with
            | some (st, b) => s'.finish q i.seq st 0 b
            | none =>
              if imageShare cls < s.imagesHeld cls (q, i.seq) + im.length then s
              else s'.modItem q i.seq fun i => { i with stage := .waiting, image := im, checked := s.ticks })

end Sys2Proof.Machine
end

