-- ==== Sys2Proof/Machine/Placer.lean ====
section
/-! DEFINITION. Machine/Placer.lean: the keystone placer: which tiles and banks a block gets, its start and its end
(R25, R61, R104 to R106, R122, R170, R176, R180 to R182, R261 to R268, R355). -/
namespace Sys2Proof.Machine

/-! ## What is held (R29, R262, R265) -/

/-- Quadrant of a tile, as a power domain (R346). -/
def quadOf (t : Nat) : Nat :=
  4 * (t / 200) + 2 * bitN (5 ≤ t % 200 / 20) + bitN (10 ≤ t % 20)

/-- Tiles of a quadrant. -/
def quadTiles (q : Nat) : List Nat := (List.range 200).filterMap fun i =>
  let t := q / 4 * 200 + i
  if quadOf t = q then some t else none

/-- New tiles of a resident set's move that is admitted or has copied (R269). -/
def RSet.taking (r : RSet) : List Nat := if r.planned || r.copied then r.moving.getD [] else []

/-- Tiles held by running, planned or kept blocks and by the moves of resident sets. -/
def State.heldTiles (s : State) : List Nat :=
  (s.blocks.map Block.tiles).flatten ++ (s.plan.map Planned.tiles).flatten ++
    (s.items.map fun i => (i.kept.map Kept.tiles).getD []).flatten ++ (s.sets.map RSet.taking).flatten

/-- Die-store banks bound to running, planned or kept blocks, as 64 × die + bank. -/
def State.heldBanks (s : State) : List Nat :=
  (s.blocks.map Block.banks).flatten ++ (s.plan.map Planned.banks).flatten ++
    (s.items.map fun i => (i.kept.map Kept.banks).getD []).flatten

/-- A tile is usable for a block of a partition (R262); `grp` is the C0 group the block runs in, if any. -/
def State.usable (s : State) (held : List Nat) (part : Nat) (grp : Option Nat) (b : List Byte) (t : Nat) : Bool :=
  s.tileOwnerOf t = part && (match s.c0Of t with
    | some g => grp = some g
    | none => true) &&
    !s.quadOff.contains (quadOf t) && !s.quadWake.contains (quadOf t) && !s.faulty.contains t && !held.contains t &&
    bkScratch b ≤ s.freeBanks t

/-! ## Die-store banks (R169, R264) -/

/-- Distance in package rows and columns from a tile to the router a bank attaches at. -/
def bankDist (t g : Nat) : Nat :=
  let r := g / 64 / 2 * 10 + 3 + g % 64 / 16
  let c := g / 64 % 2 * 20 + 2 + g % 16
  (max r (tileRow t) - min r (tileRow t)) + (max c (tileCol t) - min c (tileCol t))

/-- The free bank of a die nearest to a tile, the lowest-numbered on a tie. -/
def nearestBank (busy : List Nat) (t d : Nat) : Option Nat :=
  (((List.range 64).map (64 * d + ·)).filter fun g => !busy.contains g).foldl (fun o g => match o with
    | some k => if bankDist t g < bankDist t k then some g else some k
    | none => some g) none

/-- Bind logical banks `i`, `i + 1`, … to free banks. -/
def State.bindBanks (s : State) (im b : List Byte) (tiles busy : List Nat) : Nat → Nat → Option (List Nat)
  | 0, _ => some []
  | n + 1, i =>
    let aff := bkAffinity im b i
    let h0 := tiles.headD 0
    let named := aff < tiles.length
    let t := if named then tiles.getD aff 0 else h0
    let dies := (if named then [tileDie t] else []) ++ [tileDie h0] ++ List.range s.part.dies
    match dies.findSome? (nearestBank busy t) with
    | none => none
    | some g => (s.bindBanks im b tiles (g :: busy) n (i + 1)).map fun gs => g :: gs

/-! ## Placement (R263, R265) -/

/-- What the placer finds for a block: a placement with its cost in nanoseconds of pool time, NOT_NOW, or a refusal. -/
inductive Placed where
  | now (p : Planned) (cost : Rat)
  | notNow
  | refused (status : Nat)

/-- Tiles of the shared pool (R38). -/
def State.pool (s : State) : Nat := s.part.tiles - s.fld F.CRS_C0_RES.RESERVED_TILES 0

/-- Pool time an alternative costs (R26); C0 blocks use none. -/
def State.cost (s : State) (cls : Nat) (b a : List Byte) : Rat :=
  if cls = 0 then 0 else (alTiles b a : Rat) / (max 1 s.pool : Nat) * s.durNs cls a

/-- The cost of a queue's head block for the cap on its allowance (R28): that of its dearest alternative (log entry 35). -/
def State.headCost (s : State) (cls : Nat) (b : List Byte) : Rat :=
  ((altsIn b).filter (s.durOk cls)).foldl (fun m a => max m (s.cost cls b a)) 0

/-- Candidate tile lists of an alternative, in the order of R263. -/
def State.candidates (s : State) (b a : List Byte) (ok : Nat → Bool) : List (List Nat) :=
  let home := bkHome b
  if bkArch b then
    let w := alB a
    let on (r c : Nat) : Bool := tileAt r c / 200 = home && tileAt (r + alA a - 1) (c + w - 1) / 200 = home
    let os := s.part.origins (alA a) w
    let sorted (l : List (Nat × Nat)) : List (Nat × Nat) :=
      l.mergeSort fun x y => tileAt x.1 x.2 ≤ tileAt y.1 y.2
    let all := sorted (os.filter fun o => on o.1 o.2) ++ sorted (os.filter fun o => !on o.1 o.2)
    (all.map fun o => (List.range (alTiles b a)).map fun h => archTile w o.1 o.2 h).filter fun l => l.all ok
  else
    let free := (List.range s.part.tiles).filter ok
    let pick := (free.filter fun t => t / 200 = home) ++ free.filter fun t => t / 200 ≠ home
    if alTiles b a ≤ pick.length then [(pick.take (alTiles b a)).mergeSort fun x y => x ≤ y] else []

/-- An alternative matches kept tiles: mode, handle count and shape (R265), and the working scratch it asks for is there on
every one, as the placer guarantees (R266). -/
def State.keptMatch (s : State) (b a : List Byte) (k : Kept) : Bool :=
  alTiles b a = k.tiles.length && (match k.arch with
    | some (x, y) => bkArch b && alA a = x && alB a = y
    | none => !bkArch b) && k.tiles.all fun t => bkScratch b ≤ s.freeBanks t

/-- Alternatives of a block that pass R23, with their numbers. -/
def State.altsOk (s : State) (cls : Nat) (b : List Byte) : List (Nat × List Byte) :=
  ((List.range (bkAlts b)).map fun k => (k, bkAlt b k)).filter fun p => s.durOk cls p.2

/-- The tiles a block must run on: its C0 group's, or its resident set's (R263). -/
def State.fixedTiles (s : State) (q : Nat) (b : List Byte) : Option (List Nat) :=
  match (if s.qClass q = 0 then s.groupOf q else none) with
  | some g => some ((List.range (bkTiles b)).map (s.fld F.CRS_C0_GROUP.FIRST_TILE g + ·))
  | none => if bkResident b then (s.rset (bkSet b)).map RSet.members else none

/-- The alternative with which a KEEP_TILES successor goes on kept tiles, if one matches (R265). -/
def State.keptAlt (s : State) (q : Nat) (b : List Byte) (k : Kept) : Option (Nat × List Byte) :=
  let fixed := s.fixedTiles q b
  (s.altsOk (s.qClass q) b).find? fun p => s.keptMatch b p.2 k && (fixed.isNone || fixed = some k.tiles)

/-- A RESIDENT block's set is gone, or is another partition's or of another size since the fetch, or is not valid and the
block does not load it: the item completes with STATE_REFUSED (R180, R267). -/
def State.setRefused (s : State) (part : Nat) (b : List Byte) : Bool :=
  bkResident b && (match s.rset (bkSet b) with
    | some r => r.part ≠ part || r.members.length ≠ bkTiles b ||
      (!bkPlinthWrite b && r.members.any fun t => !s.on F.SCP_PLINTH.VALID t)
    | none => true)

/-- Place block `idx` of an item, with at most `limit` of pool time; the state differs only where a hold ends (R265). -/
def State.place (s : State) (i : Item) (idx : Nat) (limit : Option Rat) : Placed × State :=
  let q := i.queue
  let cls := s.qClass q
  let part := s.qPart q
  let im := i.image
  let b := imBlock im idx
  let grp := if cls = 0 then s.groupOf q else none
  let alts := s.altsOk cls b
  let fits (c : Rat) : Bool := (limit.map fun l => decide (c ≤ l)).getD true
  let fresh (s : State) (k : Nat) (a : List Byte) (tiles : List Nat) : Placed :=
    match s.bindBanks im b tiles s.heldBanks (bkBanks b) 0 with
    | some gs => .now ⟨q, i.seq, idx, k, tiles, gs⟩ (s.cost cls b a)
    | none => .notNow
  if s.setRefused part b then (.refused stRefused, s)
  else if bkResident b && ((s.rset (bkSet b)).any fun r => r.moving.isSome) then (.notNow, s)
  else
    let held : Option (Placed × State) := match (if bkKeep b then i.kept else none) with
      | none => none
      | some k => match s.keptAlt q b k with
        | none => none
        | some (j, a) =>
          if !fits (s.cost cls b a) then some (.notNow, s)
          else
            let have' := k.banks.take (bkBanks b)
            match s.bindBanks im b k.tiles s.heldBanks (bkBanks b - have'.length) have'.length with
            | some gs => some (.now ⟨q, i.seq, idx, j, k.tiles, have' ++ gs⟩ (s.cost cls b a), s)
            | none => some (.notNow, s)
    match held with
    | some r => r
    | none =>
      let s := s.modItem q i.seq fun i => { i with kept := none }
      let busy := s.heldTiles
      let ok := s.usable busy part grp b
      match s.fixedTiles q b with
      | some tiles => match alts with
        | (k, a) :: _ =>
          if !fits (s.cost cls b a) || !(tiles.take (bkTiles b)).all ok || tiles.length < bkTiles b then (.notNow, s)
          else (fresh s k a tiles, s)
        | [] => (.notNow, s)
      | none =>
        let found := alts.findSome? fun (k, a) =>
          if !fits (s.cost cls b a) then none
          else ((s.candidates b a ok).head?).map fun tiles => fresh s k a tiles
        (found.getD .notNow, s)

/-! ## Items and their blocks (R26, R261) -/

/-- An item none of whose blocks runs or is planned, and which admits no more, completes (R261, R286). -/
def State.settle (s : State) (q seq : Nat) : State :=
  match s.item q seq with
  | none => s
  | some i =>
    let busy := !(s.blocksOf q seq).isEmpty || s.plan.any fun p => p.queue = q && p.seq = seq
    if i.done || busy || i.op ≠ 1 || isAdmin q then s
    else match i.failed with
      | some (st, dt, b) => s.finish q seq st dt b
      | none =>
        if imBlocks i.image ≤ i.ended then s.finish q seq stOk 0 0xFF
        else if s.qState q = qDraining then s.cancel q fun j => j.seq = seq
        else s

/-- The block a queue offers at a snapshot close (R21, R26, R28, R261, R273), with its item. -/
def State.headBlock (s : State) (q : Nat) : Option (Item × Nat) :=
  let st := s.qState q
  if isAdmin q || st = qFree || st = qDraining then none
  else
    let runs := (s.itemsOf q).filter fun i => i.op = 1 && i.stage = .waiting
    let open_ (i : Item) : Bool := i.failed.isNone && i.next < imBlocks i.image
    match (if s.qClass q = 0 then runs.head? else runs.find? open_) with
    | none => none
    | some i =>
      if !open_ i || (i.after && !s.earlierDone i) then none
      else if bkAfterPrev (imBlock i.image i.next) && i.ended < i.next then none
      else some (i, i.next)

/-- The head block, or the first one the placer does not refuse (R180): a refused block ends its item. -/
def State.tryHead (s : State) (q : Nat) (limit : Option Rat) : Nat → Option (Item × Nat × Placed) × State
  | 0 => (none, s)
  | fuel + 1 =>
    match s.headBlock q with
    | none => (none, s)
    | some (i, idx) =>
      let (r, s) := s.place i idx limit
      match r with
      | .refused st =>
        let s := s.modItem q i.seq fun i => { i with failed := some (st, 0, idx) }
        (s.settle q i.seq).tryHead q limit fuel
      | r => (some (i, idx, r), s)

/-- Try the head of a queue; every item of it could be refused. -/
def State.head (s : State) (q : Nat) (limit : Option Rat) : Option (Item × Nat × Placed) × State :=
  s.tryHead q limit (s.inFlight q + 1)

/-- A hold no alternative of its eligible successor matches ends at the snapshot close, whatever the portions are (R265). -/
def State.endHold (s : State) (q : Nat) : State :=
  match s.headBlock q with
  | none => s
  | some (i, idx) =>
    let b := imBlock i.image idx
    match i.kept with
    | some k => if bkKeep b && (s.keptAlt q b k).isNone then s.modItem q i.seq fun i => { i with kept := none } else s
    | none => s

/-- Admit a placed block for the coming boundary. -/
def State.enrol (s : State) (p : Planned) : State :=
  let s := s.modItem p.queue p.seq fun i => { i with next := i.next + 1, kept := none }
  { s with plan := s.plan ++ [p] }

/-! ## Start of a block (R104, R122, R129, R176, R182) -/

/-- Zero a run of physical scratch, latent errors included. -/
def State.zeroScr (s : State) (a n : Nat) : State :=
  let inside (k : Nat) : Bool := a ≤ k && k < a + n
  { s with scr := SMap.drop s.scr inside, scrUe := s.scrUe.filter fun k => !inside k,
           scrCe := s.scrCe.filter fun k => !inside k }

/-- A tile's contents for a partition's block (R176): what was left there by the same partition, else zeros. -/
def State.claimTile (s : State) (t part : Nat) : State :=
  if SMap.find? s.tileHolder t = some part then s
  else
    let s := s.zeroScr (tilePa t) (2 ^ 20 - s.plinthBanks t * 2 ^ 16)
    let s := s.modTile t fun x => { x with opbuf := [], opseed := [], staging := none, wbuf0 := none, wbuf1 := none }
    { s with tileHolder := SMap.insert s.tileHolder t part }

/-- A die-store bank's contents for a partition's block (R170, R176). -/
def State.claimBank (s : State) (g part : Nat) : State :=
  if SMap.find? s.bankHolder g = some part then s
  else
    let s := s.zeroScr (bankPa g) (2 ^ 21)
    { s with bankHolder := SMap.insert s.bankHolder g part }

/-- Write a relocation slot. -/
def State.setSlot (s : State) (t slot : Nat) (dstore : Bool) (handle target : Nat) : State :=
  s.setReg .TSQ_RELOC (t * 32 + slot)
    (BitVec.ofNat 64 (2 ^ 63 + bitN dstore * 2 ^ 62 + handle % 1024 * 2 ^ 32 + target % 1024))

/-- Fill the relocation table of handle `h` (R122, R258, R259). -/
def State.fillRelocs (s : State) (t h : Nat) (tiles banks : List Nat) (rs : List (List Byte)) : State :=
  let s := (List.range 32).foldl (fun s i => s.clearReg .TSQ_RELOC (t * 32 + i)) s
  let s := s.setSlot t 0 false h t
  rs.foldl (fun s r =>
    if rlDstore r then s.setSlot t (rlSlot r) true (rlTarget r) (banks.getD (rlTarget r) 0)
    else
      let g : Int := if rlRelative r then (h : Int) + sext 16 (rlTarget r) else rlTarget r
      if 0 ≤ g && g < tiles.length then s.setSlot t (rlSlot r) false g.toNat (tiles.getD g.toNat 0) else s) s

/-- Show a tile's place in its arch, or that it is in none (R82). -/
def State.showArch (s : State) (t h : Nat) (tiles : List Nat) (arch : Option (Nat × Nat)) : State :=
  match arch with
  | none => (s.clearReg .ARC_SHAPE t).clearReg .ARC_TIMING t
  | some (a, b) =>
    let r := h / b
    let c := h % b
    let v := 2 ^ 63 + tiles.headD 0 * 2 ^ 48 + a * 2 ^ 42 + b * 2 ^ 36 + r * 2 ^ 31 + c * 2 ^ 25 +
      bitN (c = 0) * 2 + bitN (r + 1 = a)
    let s := s.setReg .ARC_SHAPE t (BitVec.ofNat 64 v)
    let s := s.setReg .ARC_TIMING t
      (BitVec.ofNat 64 (archEdges a b * 2 ^ 32 + archLatency a b * 2 ^ 16 + archSkew a b))
    let s := (s.setFld F.ARC_MARKS.HWM t 0).setFld F.ARC_MARKS.LWM t 0
    (s.clearReg .ARC_STREAM t).clearReg .ARC_DRAIN_DONE t

/-- In scratch text mode the front end copies a tile program into the text area (R129, R266). -/
def State.copyText (s : State) (t id : Nat) : State :=
  let x := s.tile t
  let put (s : State) (r : Nat × Nat) (off : Nat) : State :=
    let g := s.vaRead none t 4 4 (s.ctxOf t) r.1 r.2 .fetch
    match g.fault with
    | some f =>
      let q := ((s.blockOf t).map Block.queue).getD 0
      let (s, st, dt) := g.st.feFault q f
      s.failBlock id st dt (s.fld F.TSQ_STATE.HANDLE t)
    | none =>
      let s := if g.ue then g.st.failBlock id stMemUe 0 (g.st.fld F.TSQ_STATE.HANDLE t) else g.st
      s.scrWrite t (.at (tilePa t + x.textArea + off)) g.data
  if s.textMode t then put (put s x.text 0) x.const 0x10000 else s

/-- Give a tile the state of handle `h` of a block (R104, R105, R182). What R83 leaves undefined then is open, but LS, BQ
and BP start empty (log entry 81). -/
def State.startTile (s : State) (b : Block) (i : Item) (h t : Nat) : State :=
  let im := i.image
  let p := programOf im (bkAlt (imBlock im b.idx) b.alt) h
  let cont := if b.idx = 0 then none else SMap.find? i.conts (contKey (b.idx - 1) h)
  let s := s.claimTile t b.part
  let x := s.tile t
  let regs := match cont with
    | some (_, vs) => vs.zipIdx.foldl (fun m (v, k) => SMap.set m 0 (k + 1) v) ([] : SMap Word)
    | none => []
  let s := s.drawn.setTile t { Tile.reset with
    block := some b.id, sregs := regs, pc := (match cont with
      | some (a, _) => a
      | none => pgEntry p),
    text := pgText p, const := pgConst p, cont := pgContinuing p,
    textArea := (14 - s.plinthBanks t) * 2 ^ 16, opbuf := x.opbuf, opseed := x.opseed,
    corbelSeed := some s.freeCtr, staging := x.staging, wbuf0 := x.wbuf0, wbuf1 := x.wbuf1 }
  let s := ((s.setFld F.TSQ_STATE.RUN t 1).setFld F.TSQ_STATE.WAIT t 0).setFld F.TSQ_STATE.HANDLE t h
  let s := (s.setFld F.TSQ_QCTL.CLEAN t 0).setFld F.TSQ_QCTL.ENABLE t 0
  let s := (List.range 64).foldl (fun s c => s.clearReg .SCP_ACTR (t * 64 + c)) s
  let s := s.fillRelocs t h b.tiles b.banks (relocsIn im p)
  (s.showArch t h b.tiles b.arch).copyText t b.id

/-- Phase signature of a block (R355). -/
def phaseSig (image idx alt : Nat) : Nat :=
  ((bits image 29 6) ^^^ (bits image 47 30) ^^^ (idx <<< 18) ^^^ (alt <<< 22)) % 2 ^ 24

/-- A planned block starts at the boundary it was admitted at (R22, R104). -/
def State.startBlock (s : State) (p : Planned) : State :=
  match s.item p.queue p.seq with
  | none => s
  | some i =>
    let im := i.image
    let r := imBlock im p.idx
    let a := bkAlt r p.alt
    let set := if bkResident r then some (bkSet r) else none
    let b : Block :=
      { id := s.nextBlock, queue := p.queue, seq := p.seq, idx := p.idx, cls := s.qClass p.queue,
        part := s.qPart p.queue, ctx := s.qCtx p.queue, args := le i.desc 24 8, tiles := p.tiles,
        arch := if bkArch r then some (alA a, alB a) else none, banks := p.banks, set := set,
        writable := bkPlinthWrite r, start := s.course, fail := none, memUe := false, alt := p.alt,
        failTick := 0, raised := [], sig := phaseSig (le i.desc 16 8) p.idx p.alt }
    let s := { s with blocks := s.blocks ++ [b], nextBlock := s.nextBlock + 1 }
    let s := s.modItem p.queue p.seq fun i => { i with begun := true }
    let s := b.banks.foldl (fun s g => s.claimBank g b.part) s
    let s := if b.writable then
        (((set.bind s.rset).map RSet.members).getD []).foldl (fun s t => s.raise F.SCP_PLINTH.WRITABLE t) s
      else s
    b.tiles.zipIdx.foldl (fun s (t, h) => s.startTile b i h t) s

/-! ## End of a block (R106, R215, R261, R265, R267) -/

/-- What a block that ran taught the controller (R355): its power and issue fraction are open values. -/
def State.learn (s : State) (sig : Nat) : State :=
  let e := (sig, s.freeNat % 2 ^ 16, s.drawn.freeNat % 256)
  { s.drawn.drawn with phases := (e :: s.phases.filter fun p => p.1 ≠ sig).take 64 }

/-- Status of a block whose tiles have all ended (R120, R175, R261). -/
def Block.status (b : Block) : Nat × Nat :=
  match b.fail with
  | some (st, dt, _) => (st, dt)
  | none => if b.memUe then (stMemUe, 0) else (stOk, 0)

/-- A block completes. -/
def State.endBlock (s : State) (b : Block) : State :=
  let (st, dt) := b.status
  let dies := (b.tiles.map tileDie).eraseDups
  let s := dies.foldl (fun s d => s.publish d b.part) s
  let s := b.tiles.foldl (fun s t => (s.modTile t fun x => { x with block := none }).setFld F.ARC_SHAPE.VALID t 0) s
  let s := { s with blocks := s.blocks.filter fun x => x.id ≠ b.id }
  let members := ((b.set.bind s.rset).map RSet.members).getD []
  let s := if b.writable then
      members.foldl (fun s t => (s.setFld F.SCP_PLINTH.WRITABLE t 0).setFld F.SCP_PLINTH.VALID t (bitN (st = stOk))) s
    else s
  let s := s.learn b.sig
  match s.item b.queue b.seq with
  | none => s
  | some i =>
    let failed := i.failed.orElse fun _ => if st = stOk then none else some (st, dt, b.idx)
    let keep := failed.isNone && b.idx + 1 < imBlocks i.image && bkKeep (imBlock i.image (b.idx + 1)) &&
      s.qState b.queue ≠ qDraining
    let s := s.modItem b.queue b.seq fun i => { i with
      ended := i.ended + 1, failed := failed,
      kept := if keep then some ⟨b.tiles, b.banks, b.arch⟩ else if failed.isSome then none else i.kept }
    s.settle b.queue b.seq

/-- A tile has executed END or YIELD, or was stopped, and everything it dispatched has finished. -/
def State.tileEnded (s : State) (t : Nat) : Bool :=
  (s.fld F.TSQ_STATE.RUN t = 2 || s.fld F.TSQ_STATE.RUN t = 3) && s.unitsIdle t 0x7F

/-- The tile's part of its block has ended: it is idle, or stopped with nothing left to finish. -/
def State.partEnded (s : State) (t : Nat) : Bool :=
  s.fld F.TSQ_STATE.RUN t = 0 || (s.fld F.TSQ_STATE.RUN t = 3 && s.tileEnded t)

/-- The tile's part of its block ends; with the last one the block completes. A tile stopped on an exception goes on
showing it until its next block (log entry 31). -/
def execTilePartEnd (t : Nat) (s : State) : Res State :=
  .next (match s.blockOf t with
    | none => s
    | some b =>
      if !s.tileEnded t then s
      else
        let s := s.setFld F.TSQ_STATE.WAIT t 0
        let s := if s.fld F.TSQ_STATE.RUN t = 2 then s.setFld F.TSQ_STATE.RUN t 0 else s
        if b.tiles.all s.partEnded then
          match s.block b.id with
          | some b => s.endBlock b
          | none => s
        else s)

end Sys2Proof.Machine
end

