-- ==== Sys2Proof/Machine/Power.lean ====
section
/-! DEFINITION. Machine/Power.lean: the buttress controller: domains, steps, duty, cap, calibration, energy, droop and
throttling (R346 to R362, R366, R400). Estimates rest on fused calibration and activity: open values (log entry 16). -/
namespace Sys2Proof.Machine

/-! ## Domains (R346, R348, R353) -/

/-- A domain lies on a die the part has. -/
def Part.hasDomain (p : Part) (d : Nat) : Bool :=
  if d < 16 then d / 4 < p.dies else if d < 20 then d - 16 < p.dies else if d < 22 then d - 20 < (p.cores + 47) / 48
  else d < 24

/-- Applied voltage of a domain in mV: its fused table offset by the user trim (R353). -/
def State.domMv (s : State) (d k : Nat) : Nat :=
  let trim := sext 8 (s.fld F.PWR_TRIM.V_TRIM d)
  ((Config.fusedMv d k : Int) * (200 + trim) / 200).toNat

/-- A quadrant holds tiles of a valid C0 group (R358). -/
def State.quadC0 (s : State) (q : Nat) : Bool := (quadTiles q).any fun t => (s.c0Of t).isSome

/-- A quadrant holds a tile with a valid plinth region (R347). -/
def State.quadPlinth (s : State) (q : Nat) : Bool := (quadTiles q).any fun t => s.on F.SCP_PLINTH.VALID t

/-- A domain is powered. -/
def State.domOn (s : State) (d : Nat) : Bool :=
  s.part.hasDomain d && !(d < 16 && (s.quadOff.contains d || s.quadWake.contains d)) && !(d / 2 = 10 && s.coreDown)

/-- Step of a domain. -/
def State.domStep (s : State) (d : Nat) : Nat := s.fld F.PWR_DOM.STEP d

/-- Duty of a tile in sixteenths (R357). -/
def State.duty (s : State) (t : Nat) : Nat := SMap.get s.pw.duty 16 t

def State.setDuty (s : State) (t n : Nat) : State := { s with pw := { s.pw with duty := SMap.set s.pw.duty 16 t n } }

/-- Tiles the controller may throttle: those of no valid C0 group, in powered quadrants (R358). -/
def State.throttleable (s : State) : List Nat :=
  (List.range s.part.tiles).filter fun t => (s.c0Of t).isNone && s.domOn (quadOf t)

/-- Tiles of the arches formed or planned. -/
def State.arches (s : State) : List (List Nat) :=
  (s.blocks.filter fun b => b.arch.isSome).map Block.tiles ++
    (s.plan.filter fun p => match s.item p.queue p.seq with
      | some i => bkArch (imBlock i.image p.idx)
      | none => false).map Planned.tiles

/-- Quadrants merged with `qs` by arches that share one (R356). -/
def grow (arches : List (List Nat)) (qs : List Nat) : Nat → List Nat
  | 0 => qs
  | fuel + 1 =>
    let more := (arches.filter fun a => a.any fun q => qs.contains q).flatten
    grow arches ((qs ++ more).eraseDups) fuel

/-- The quadrants of a quadrant's group. -/
def State.joined (s : State) (q : Nat) : List Nat := grow (s.arches.map fun ts => (ts.map quadOf).eraseDups) [q] 16

/-- The group of a quadrant, in domain order. -/
def State.group (s : State) (q : Nat) : List Nat := (s.joined q).mergeSort fun x y => x ≤ y

/-- A tile's quadrant or one that its arch joins to it is on a die that throttles: its duty stays lowered until the die is
cool (R361). -/
def State.hotTile (s : State) (t : Nat) : Bool := (s.joined (quadOf t)).any fun q => s.on F.PWR_TEMP.THROTTLE (q / 4)

/-- Lowest step a quadrant may be taken to: the C0 floor where its group, which carries one step, holds C0 tiles (R62, R358). -/
def State.lowStep (s : State) (q : Nat) : Nat :=
  if (s.joined q).any s.quadC0 then s.fld F.CRS_FLOOR.C0_FLOOR 0 else 0

/-! ## Windows (R350, R354, R357, R358, R366) -/

/-- The effective cap in W (R354). -/
def State.effCap (s : State) : Nat :=
  let c := s.fld F.PWR_CAP.CAP 0
  if s.on F.PWR_BRAKE.ACTIVE 0 then min c (s.fld F.PWR_BRAKE.LIMIT 0) else c

/-- PWRBRK_N is sampled (R354, R447): the pin is the tray's, an open value. -/
def State.sampleBrake (s : State) : State :=
  let p := s.freeNat % 2
  let s := s.drawn
  if s.fld F.PWR_BRAKE.ACTIVE 0 = p then s else (s.setFld F.PWR_BRAKE.ACTIVE 0 p).raise F.PWR_EVENT.BRAKE 0

/-- Add energy to a counter, which wraps (R366). -/
def State.addEnergy (s : State) (f : Fld) (i n : Nat) : State := s.setFld f i (s.fld f i + n)

/-- Queues and partitions that the energy of a window can go to: those with work, and those with cores. -/
def State.energyQueues (s : State) : List Nat :=
  (s.blocks.map Block.queue ++ (s.items.filter fun i => i.op = 2).map Item.queue).eraseDups.filter fun q => !isAdmin q

/-- Attribute `e` microjoules (R366): shares are open, each is counted once, the rest is the operator's. -/
def State.attribute (s : State) (e : Nat) : State :=
  let (s, left) := s.energyQueues.foldl (fun ((s, left) : State × Nat) q =>
    let n := s.freeNat % (left + 1)
    let p := s.qPart q
    let s := s.drawn.addEnergy F.PWR_EQ.ENERGY q n
    let s := if p < 8 then s.addEnergy F.PWR_EPART.ENERGY p n else s.addEnergy F.PWR_EOPER.ENERGY 0 n
    (s, left - n)) (s, e)
  let (s, left) := (List.range 8).foldl (fun ((s, left) : State × Nat) p =>
    if s.fld F.SEC_PART.STATE p = pFree then (s, left)
    else
      let n := s.freeNat % (left + 1)
      (s.drawn.addEnergy F.PWR_EPART.ENERGY p n, left - n)) (s, left)
  s.addEnergy F.PWR_EOPER.ENERGY 0 left

/-- Multiply the duty of every throttleable tile by (1 − x), x = `num` / `den`, down to whole sixteenths, at least one. -/
def State.cutDuty (s : State) (num den : Nat) : State :=
  s.throttleable.foldl (fun s t => s.setDuty t (max 1 (s.duty t * (den - min num den) / den))) s

/-- Every throttleable tile is at 1/16 and every other quadrant at its lowest step. -/
def State.allLow (s : State) : Bool :=
  s.throttleable.all (fun t => s.duty t = 1) &&
    (List.range 16).all fun q => !s.domOn q || !s.quadC0 q || s.domStep q ≤ s.lowStep q

/-- The cap cannot be met: once per course (R358). -/
def State.unmet (s : State) (pin : Nat) : State :=
  if s.pw.unmet then s
  else ({ s with pw := { s.pw with unmet := true } }.raise F.PWR_EVENT.CAP_UNMET 0).reportSelf 0x0702 0 (uPower 0) 0 pin

/-- Products of the tiles of a quadrant: gated, ungated. -/
def State.quadMults (s : State) (q : Nat) : Nat × Nat :=
  (quadTiles q).foldl (fun a t => let m := SMap.get s.mults (0, 0) t; (a.1 + m.1, a.2 + m.2)) (0, 0)

/-- Temperature of the die of a domain, in units of 0.125 °C. -/
def State.domTemp (s : State) (d : Nat) : Int :=
  sext 16 (s.fld F.PWR_TEMP.TEMP (if d < 16 then d / 4 else if d < 20 then d - 16 else if d < 22 then d - 16 else 6))

/-- Estimate of a domain's power in the window, in units of 0.1 W, scaled by the user's trim (R350, R353). -/
def State.domPower (s : State) (d : Nat) : Nat :=
  if !s.domOn d then 0
  else
    let m := if d < 16 then s.quadMults d else (0, 0)
    let trim := (200 + sext 8 (s.fld F.PWR_TRIM.EST_TRIM d)).toNat
    Config.domainPower d [(s.fld F.PWR_DOM.MV d : Nat), s.domTemp d, (m.1 : Nat), (m.2 : Nat), (s.freeNat : Nat)] % 2 ^ 16 *
      trim / 200

/-- What the window's input stays within: the effective cap from the second window after an excess, unless it cannot be met
(R357); 1,800 W always (R11, R358). -/
def State.inputLimit (s : State) (cap : Nat) : Nat := if 2 ≤ s.pw.above && !s.allLow then min cap 1800 else 1800

/-- A 10 µs window (R350, R354, R357, R358, R366). -/
def execPowerWindow (s : State) : Res State :=
  .next (if !s.board.alive || s.fld F.CFG_STATE.PHASE 0 < 3 then s
  else
    let s := s.sampleBrake
    let cap := s.effCap
    let limit := s.inputLimit cap
    let (s, raw) := (List.range 24).foldl (fun ((s, l) : State × List Nat) d => (s.drawn, l ++ [s.domPower d])) (s, [])
    let l0 := Config.fuse 0
    let gain := s.fld F.PWR_STATUS.GAIN 0
    let input (ws : List Nat) : Nat :=
      l0 + (1000 + Config.fuse 1) * gain * ws.foldl (· + ·) 0 / (10 * 1000 * 16384)
    let full := input raw
    let ws := if full ≤ limit then raw else raw.map fun w => w * (limit - l0) / (full - l0)
    let pin := min limit (input ws)
    let pt := s.freeNat + 1
    let s := s.drawn
    let s := (s.setFld F.PWR_STATUS.INPUT_EST 0 pin).setFld F.PWR_STATUS.EFF_CAP 0 cap
    let s := ws.zipIdx.foldl (fun s (p : Nat × Nat) => s.setFld F.PWR_DOM.POWER p.2 (min 65535 (gain * p.1 / 16384))) s
    let s := { s with pw := { s.pw with est := s.pw.est + 10 * pin, above := if cap < pin then s.pw.above + 1 else 0 } }
    let s := s.attribute (10 * pin)
    if cap < pin then
      let s := (s.raise F.PWR_EVENT.CAP_EXCEED 0).bump F.PWR_EVENT.EXCEED_COUNT 0 1
      if s.allLow then s.unmet pin else s.cutDuty (pin - cap) pt
    else if 100 * pin < 97 * cap then
      let rise (p : Nat × Nat) : Nat × Nat := if s.hotTile p.1 then p else (p.1, p.2 + 1)
      { s with pw := { s.pw with duty := (s.pw.duty.map rise).filter fun p => p.2 < 16 } }
    else s)

/-- A write to PWR_CAP (R354, R413). -/
def execPwrCapWrite (v : BitVec 64) (s : State) : Res State :=
  let n := max 500 (min 1800 (bits v.toNat 10 0))
  .next (if !s.board.alive || s.fld F.PWR_CAP.CAP 0 = n then s else (s.setFld F.PWR_CAP.CAP 0 n).epoch)

/-! ## Calibration and energy view at a boundary (R351, R400) -/

/-- The measured energy `m` of the course in µJ, none where the PMBus read failed. -/
def State.calibrate (s : State) (m : Option Nat) : State :=
  let est := s.pw.est
  let s := { s with pw := { s.pw with est := 0, unmet := false, hot := [] } }
  match m with
  | none =>
    let n := s.pw.fails + 1
    let s := { s with pw := { s.pw with fails := n } }.raise F.PWR_EVENT.PMBUS_FAIL 0
    if n = 16 then s.reportSelf 0x0701 0 (uPower 0) 0 n else s
  | some m =>
    let s := { s with pw := { s.pw with fails := 0 } }
    let s := s.setFld F.PWR_STATUS.INPUT_MEAS 0 (min 2047 (m * 1000 / s.periodNs))
    let g := s.fld F.PWR_STATUS.GAIN 0
    let range := 4 * m < 3 * est || 5 * est < 4 * m
    let s := if range then s.raise F.PWR_EVENT.CAL_RANGE 0 else s
    if est = 0 then
      if m = 0 then s.drawn.setFld F.PWR_STATUS.GAIN 0 (12288 + s.freeNat % 8193)
      else s.setFld F.PWR_STATUS.GAIN 0 20480
    else s.setFld F.PWR_STATUS.GAIN 0 (max 12288 (min 20480 (g * m / est)))

/-- Latch what tenants see of the energy counters (R400). -/
def State.latchEnergy (s : State) : State :=
  let qs := s.queues.filterMap fun e => if isAdmin e.1 then none else some (e.1, s.fld F.PWR_EQ.ENERGY e.1 / 1000 * 1000)
  let ps := (List.range 8).map fun p => (1024 + p, s.fld F.PWR_EPART.ENERGY p / 1000 * 1000)
  { s with eview := qs ++ ps }

/-! ## Division of the cap at a snapshot close (R347, R355, R356) -/

/-- Signature of what a tile serves in the coming course, if it is busy. -/
def State.comingSig (s : State) (t : Nat) : Option Nat :=
  match s.blocks.find? fun b => b.tiles.contains t with
  | some b => some b.sig
  | none => match s.plan.find? fun p => p.tiles.contains t with
    | some p => (s.item p.queue p.seq).map fun i => phaseSig (le i.desc 16 8) p.idx p.alt
    | none => none

/-- Power per tile in mW at step 10 and issue fraction in 1/255 of a phase; the fused default on a miss. -/
def State.phase (s : State) (sig : Nat) : Nat × Nat :=
  match s.phases.find? fun p => p.1 = sig with
  | some (_, p, u) => (p, u)
  | none => (Config.fuse 2, 128)

/-- A lookup makes an entry the most recent. -/
def State.touchPhase (s : State) (sig : Nat) : State :=
  match s.phases.find? fun p => p.1 = sig with
  | some e => { s with phases := e :: s.phases.filter fun p => p.1 ≠ sig }
  | none => s

/-- Ppred of a quadrant at step `k`, in mW. -/
def State.predQuad (s : State) (q k : Nat) : Rat :=
  let v (j : Nat) : Rat := (s.domMv q j : Rat)
  let est : Rat := (200 + sext 8 (s.fld F.PWR_TRIM.EST_TRIM q) : Int) / 200
  est * ((quadTiles q).map fun t => match s.comingSig t with
    | some g => ((s.phase g).1 : Rat) * ((600 + 50 * k : Nat) : Rat) / 1100 * (v k * v k) / (v 10 * v 10)
    | none => (Config.fuse 3 : Rat)).sum

def State.pred (s : State) (g : List Nat) (k : Nat) : Rat := (g.map fun q => s.predQuad q k).sum

/-- Tile-weighted issue fraction of a group times its busy tiles. -/
def State.gain (s : State) (g : List Nat) : Rat :=
  ((g.map fun q => ((quadTiles q).map fun t => match s.comingSig t with
    | some x => ((s.phase x).2 : Rat)
    | none => 0).sum).sum)

/-- The raising loop of R356 over groups and their steps. -/
def State.raiseSteps (s : State) (budget : Rat) (gs : List (List Nat × Nat)) : Nat → Rat × List (List Nat × Nat)
  | 0 => (budget, gs)
  | fuel + 1 =>
    let cost (p : List Nat × Nat) : Rat := s.pred p.1 (p.2 + 1) - s.pred p.1 p.2
    let c := gs.filter fun p => p.2 < s.fld F.PWR_POLICY.ARRAY_MAX 0 && cost p ≤ budget
    let better (x y : List Nat × Nat) : Bool := s.gain y.1 * cost x < s.gain x.1 * cost y
    match c with
    | [] => (budget, gs)
    | p :: ps =>
      let m := ps.foldl (fun m x => if better x m then x else m) p
      s.raiseSteps (budget - cost m) (gs.map fun x => if x.1 = m.1 then (x.1, x.2 + 1) else x) fuel

/-- The division of the cap for the coming course; groups with a throttled die stay at the lowest step among them (R361). -/
def State.divideCap (s : State) : State :=
  let s := ((List.range s.part.tiles).filterMap s.comingSig).eraseDups.foldl State.touchPhase s
  let on := (List.range 16).filter s.domOn
  let gs := (on.map s.group).eraseDups
  let hot (g : List Nat) : Bool := g.any fun q => s.on F.PWR_TEMP.THROTTLE (q / 4)
  let held := gs.filter hot
  let g0 := (gs.filter fun g => !hot g).map fun g =>
    (g, if g.any s.quadC0 then s.fld F.CRS_FLOOR.C0_FLOOR 0 else 0)
  let fixed := s.freeNat
  let busy0 := s.drawn.freeNat
  let busy1 := s.drawn.drawn.freeNat
  let s := s.drawn.drawn.drawn
  let gain : Rat := (s.fld F.PWR_STATUS.GAIN 0 : Rat) / 16384
  let l0 : Rat := (Config.fuse 0 : Rat)
  let l1 : Rat := (Config.fuse 1 : Rat) / 1000
  let w : Rat := ((s.effCap : Rat) - 10 - l0) / (1 + l1) / gain
  let base := 1000 * w - (fixed : Rat) - (g0.map fun p => s.pred p.1 p.2).sum
  let (_, gs) := s.raiseSteps base g0 256
  let stay (g : List Nat) : Nat := max (s.lowStep (g.headD 0)) ((g.map s.domStep).foldl min 16)
  let quads := ((gs ++ held.map fun g => (g, stay g)).map fun p => p.1.map fun q => (q, p.2)).flatten
  let core (n : Nat) : Nat := min (n % 25) (s.fld F.PWR_POLICY.GDIE_MAX 0)
  let cores := if s.on F.PWR_TEMP.THROTTLE 4 then [] else [(20, core busy0)]
  let cores := if s.on F.PWR_TEMP.THROTTLE 5 || !s.part.hasDomain 21 then cores else cores ++ [(21, core busy1)]
  let plan := (quads ++ cores).foldl (fun m p => SMap.insert m p.1 p.2) ([] : SMap Nat)
  let s := { s with pw := { s.pw with plan := plan } }
  if base < 0 && s.allLow then s.unmet (s.fld F.PWR_STATUS.INPUT_EST 0) else s

/-- Members of one arch carry one duty, the lowest among them (R357). -/
def State.oneDuty (s : State) : State :=
  s.arches.foldl (fun s ts => let n := (ts.map s.duty).foldl min 16; ts.foldl (fun s t => s.setDuty t n) s) s

/-- Quadrants with C0 tiles below the C0 floor are raised to it before a C0 block starts (R24, R358). -/
def State.raiseC0 (s : State) : State :=
  (List.range 16).foldl (fun s q =>
    let k := s.lowStep q
    if s.domOn q && s.domStep q < k then (s.setFld F.PWR_DOM.STEP q k).setFld F.PWR_DOM.MV q (s.domMv q k) else s) s

/-- At the boundary the planned steps become due, never below what C0 tiles ask for, and duties return to 16/16 but in
groups with a throttled die (R356, R361). -/
def State.applySteps (s : State) : State :=
  let s := s.raiseC0
  let want := s.pw.plan.map fun p => (p.1, if p.1 < 16 then max p.2 (s.lowStep p.1) else p.2)
  { s with pw := { s.pw with
      plan := [], left := want.filter fun p => s.domStep p.1 ≠ p.2,
      duty := s.pw.duty.filter fun p => s.hotTile p.1 } }.oneDuty

/-- Idle quadrants are counted and powered off; those an unplaced block of a partition in `waiting` could use wake. -/
def State.quadrants (s : State) (waiting : List Nat) : State :=
  let held := s.heldTiles
  (List.range 16).foldl (fun s q =>
    if !s.part.hasDomain q then s
    else if s.quadOff.contains q then
      if (quadTiles q).any fun t => waiting.contains (s.tileOwnerOf t) then
        { s with quadOff := s.quadOff.filter (· ≠ q), quadWake := s.quadWake ++ [q], idle := SMap.erase s.idle q }
      else s
    else if s.quadWake.contains q then s
    else
      let n := if (quadTiles q).any held.contains then 0 else SMap.get s.idle 0 q + 1
      let s := { s with idle := SMap.set s.idle 0 q n }
      if s.fld F.PWR_POLICY.IDLE_COURSES 0 ≤ n && !s.quadC0 q && !s.quadPlinth q then
        { s with quadOff := s.quadOff ++ [q], tileHolder := SMap.drop s.tileHolder fun t => quadOf t = q }
      else s) s

/-- Power-up of a quadrant completes; its tiles are usable from the following snapshot close. -/
def execQuadrantPowerUp (quad : Nat) (s : State) : Res State :=
  .next (if s.quadWake.contains quad then { s with quadWake := s.quadWake.filter (· ≠ quad) } else s)

/-! ## Steps and freezes (R62, R72, R74, R349) -/

/-- Blocks of arches with a member in one of the quadrants. -/
def State.archesIn (s : State) (qs : List Nat) : List Block :=
  s.blocks.filter fun b => b.arch.isSome && b.tiles.any fun t => qs.contains (quadOf t)

/-- Domains switch to new steps within one frozen interval of every arch that has members in them; `cause` gives each
member what the interval included beside FSTEP. -/
def State.switchTo (s : State) (l : List (Nat × Nat)) (cause : Nat → Nat) : State :=
  let s := (s.archesIn (l.map Prod.fst)).foldl (fun s b => match s.shapeOf (b.tiles.headD 0) with
    | some h => s.freeze h fun m => 8 ||| cause m
    | none => s) s
  l.foldl (fun s p => (s.setFld F.PWR_DOM.STEP p.1 p.2).setFld F.PWR_DOM.MV p.1 (s.domMv p.1 p.2)) s

/-- Steps due in a domain and the quadrants its arches join to it. -/
def State.dueWith (s : State) (dom : Nat) : List (Nat × Nat) :=
  s.pw.left.filter fun p => p.1 = dom || (dom < 16 && (s.joined dom).contains p.1)

/-- Take the due steps of a domain and of those joined to it. -/
def State.takeSteps (s : State) (dom : Nat) (cause : Nat → Nat) : State :=
  let l := s.dueWith dom
  let s := s.switchTo l cause
  { s with pw := { s.pw with left := s.pw.left.filter fun p => !l.contains p } }

/-- A domain switches to its due step, with those that members of one arch join to it. -/
def execFreqStep (dom step : Nat) (s : State) : Res State :=
  .next (if SMap.find? s.pw.left dom = some step then s.takeSteps dom fun _ => 0 else s)

/-- A member of an arch raises a stall condition, for which there is a reason (R72). -/
def State.raises (s : State) (o : Nat) (h : Shape) (r : Nat × StallCond) : Bool :=
  h.tiles.contains r.1 && (match r.2 with
    | .rowDry => s.rowDry o r.1
    | .drainFull => s.drainTight o r.1
    | .throttle => s.duty r.1 < 16
    | .fstep => !(s.dueWith (quadOf r.1)).isEmpty
    | .skidOverflow => false)

/-- What a member's conditions leave in ARC_CAUSE, beside FSTEP. -/
def causeBits (l : List (Nat × StallCond)) (m : Nat) : Nat :=
  bitN (l.contains (m, .rowDry)) + 2 * bitN (l.contains (m, .drainFull)) + 4 * bitN (l.any fun r => r.2 = .throttle)

/-- A skid buffer of a die-edge port overflows: fatal (R75). -/
def State.skidOverflow (s : State) (o t : Nat) : State :=
  let b := s.blockOf t
  (s.raise F.ARC_EVENT.SKID_OVF t).report ⟨0x0202, 3, uTile t, uTile t, 0, o,
    (b.map Block.part).getD 0xFF, (b.map Block.queue).getD 0xFFFF⟩

/-- Conditions that members of tile `t`'s arch raised S cycles earlier freeze every member on the same cycle; a due frequency
step is taken within the frozen interval. -/
def execArchFreeze (t : Nat) (raised : List (Nat × StallCond)) (s : State) : Res State :=
  .next (match s.archOf t with
    | none => s
    | some (o, h) =>
      let l := raised.filter (s.raises o h)
      let s' :=
        match l.find? fun r => r.2 = .fstep with
        | some r => s.takeSteps (quadOf r.1) fun m => if h.tiles.contains m then causeBits l m else 0
        | none => if l.isEmpty then s else s.freeze h (causeBits l)
      (raised.filter fun r => r.2 = .skidOverflow && h.edgePort r.1 && h.tiles.contains r.1).foldl
        (fun s r => s.skidOverflow o r.1) s')

/-! ## Droop (R76, R359) -/

/-- A domain's clock is stretched for `cycles` stretched cycles, at least 32; the stretch is copied to the domains of the other
dies that hold members of its arches. -/
def execDroop (dom cycles : Nat) (s : State) : Res State :=
  .next (if !s.board.alive || !s.domOn dom || 22 ≤ dom then s
    else
      let die := if dom < 16 then dom / 4 else dom - 16
      let own := if dom < 16 then [dom] else if dom < 20 then (List.range 4).map (4 * die + ·) else []
      let far := (((s.archesIn own).map fun b => b.tiles.map quadOf).flatten.filter fun q => q / 4 ≠ die).eraseDups
      ((s.raise F.PWR_EVENT.DROOP 0).bump F.PWR_STRETCH.EVENTS 0 1).bump F.PWR_STRETCH.CYCLES 0
        ((1 + far.length) * max 32 cycles))

/-! ## Throttling (R360 to R362) -/

/-- A unit starts to throttle: one record per unit and course. -/
def State.throttleOn (s : State) (n : Nat) (x : Int) : State :=
  let s := (s.raise F.PWR_TEMP.THROTTLE n).raise (if n < 7 then F.PWR_EVENT.DIE_THROTTLE else F.PWR_EVENT.HBM_THROTTLE) 0
  if s.pw.hot.contains n then s
  else { s with pw := { s.pw with hot := n :: s.pw.hot } }.reportSelf 0x0703 0 (uPower n) 0 (wrapN 16 x)

/-- Sensor `n` exists: dies 0 to 3, G-dies 4 and 5, the IO die 6, stacks 0 to 11 from 7. -/
def Part.hasSensor (p : Part) (n : Nat) : Bool :=
  if n < 4 then n < p.dies else if n < 6 then n - 4 < (p.cores + 47) / 48 else if n = 6 then true
  else n < 19 && (bits p.units 27 16).testBit (n - 7)

/-- One sensor reading, in units of 0.125 °C. -/
def State.sense (s : State) (n : Nat) (x : Int) : State :=
  if !s.part.hasSensor n then s
  else
    let peak := sext 16 (s.fld F.PWR_TEMP.PEAK n)
    let s := s.setFld F.PWR_TEMP.TEMP n (wrapN 16 x)
    let s := if peak < x then s.setFld F.PWR_TEMP.PEAK n (wrapN 16 x) else s
    let (hi, lo) : Int × Int := if n < 7 then (800, 776) else (760, 736)
    if s.on F.PWR_TEMP.THROTTLE n then (if x < lo then s.setFld F.PWR_TEMP.THROTTLE n 0 else s.throttleOn n x)
    else if hi ≤ x then s.throttleOn n x
    else s

/-- The sensors are read. -/
def execThermalSample (readings : List (Nat × Int)) (s : State) : Res State :=
  .next (if !s.board.alive then s else readings.foldl (fun s r => s.sense r.1 r.2) s)

/-- A hot die is lowered by one step, or at its lowest step by one sixteenth of duty, with the quadrants its arches
join (R62, R361). -/
def execDieThrottleStep (die : Nat) (s : State) : Res State :=
  .next (if !s.board.alive || !s.on F.PWR_TEMP.THROTTLE die then s
  else if die < 4 then
    let qs := (((List.range 4).map (4 * die + ·)).map s.group).flatten.eraseDups.filter s.domOn
    let (down, low) := qs.partition fun q => s.lowStep q < s.domStep q
    let s := if down.isEmpty then s else s.switchTo (down.map fun q => (q, s.domStep q - 1)) fun _ => 0
    low.foldl (fun s q =>
      ((quadTiles q).filter fun t => (s.c0Of t).isNone).foldl (fun s t => s.setDuty t (max 1 (s.duty t - 1))) s) s
  else if die < 6 then
    let d := 16 + die
    let k := s.domStep d
    (s.setFld F.PWR_DOM.STEP d (k - 1)).setFld F.PWR_DOM.MV d (s.domMv d (k - 1))
  else s)

end Sys2Proof.Machine
end

