-- ==== Sys2Proof/Machine/Course.lean ====
section
/-! DEFINITION. Machine/Course.lean: the course timer, the snapshot closes and the boundary (R14 to R37, R176, R269,
R288, R347, R351, R356, R400, R462). -/
namespace Sys2Proof.Machine

/-! ## The passes of a C1–C3 close (R27, R28, R462) -/

/-- Work queues of a class, in queue-number order. -/
def State.classQueues (s : State) (cls : Nat) : List Nat :=
  (s.queues.map Prod.fst).filter fun q => !isAdmin q && s.qState q ≠ qFree && s.qClass q = cls

/-- The queues of a class rotated so that the first one after `last` leads. -/
def rotate (qs : List Nat) (last : Option Nat) : List Nat :=
  match last with
  | some l => (qs.filter fun q => decide (l < q)) ++ qs.filter fun q => decide (q ≤ l)
  | none => qs

/-- Progress of a class's pass: the state, pool time left of its limit in nanoseconds, the queue that admitted last in it. -/
structure Pass where
  st : State
  left : Rat
  last : Option Nat

/-- A queue whose head, if any, could be placed within the limit. -/
def Pass.can (p : Pass) (q : Nat) : Bool × Pass :=
  match p.st.head q (some p.left) with
  | (some (_, _, .now _ _), s) => (true, { p with st := s })
  | (_, s) => (false, { p with st := s })

/-- Some queue of the class can take a block. -/
def Pass.live (p : Pass) (qs : List Nat) : Bool × Pass :=
  qs.foldl (fun (b, p) q => if b then (b, p) else p.can q) (false, p)

/-- Blocks a queue admits from its head while allowance and limit allow; the result says whether it admitted any and
whether an eligible head is left. -/
def Pass.drain (p : Pass) (cls q : Nat) (admitted : Bool) : Nat → Pass × Bool × Option (Item × Nat)
  | 0 => (p, admitted, none)
  | fuel + 1 =>
    match p.st.head q (some (min (p.st.queue q).allowance p.left)) with
    | (some (_, _, .now pl c), s) =>
      let s := (s.enrol pl).modQueue q fun x => { x with allowance := x.allowance - c }
      let s := { s with drr := SMap.insert s.drr cls q }
      Pass.drain ⟨s, p.left - c, some q⟩ cls q true fuel
    | (some (i, idx, _), s) => ({ p with st := s }, admitted, some (i, idx))
    | (none, s) => ({ p with st := s }, admitted, none)

/-- One turn of a queue (R28). -/
def Pass.turn (p : Pass) (cls q : Nat) (slice : Rat) : Pass × Bool :=
  let s := p.st.modQueue q fun x => { x with allowance := x.allowance + slice }
  let (p, a, h) := Pass.drain { p with st := s } cls q false (p.st.part.tiles + 1)
  let s := p.st.modQueue q fun x => { x with allowance := match h with
    | some (i, idx) => min x.allowance (p.st.headCost cls (imBlock i.image idx) + slice)
    | none => 0 }
  ({ p with st := s }, a)

/-- Turns in order, wrapping around, until the limit is reached or no queue can take a block. -/
def Pass.turns (p : Pass) (cls : Nat) (qs : List Nat) (slice : Rat) : List Nat → Nat → Pass
  | _, 0 => p
  | [], fuel + 1 => match qs with
    | [] => p
    | q :: rest =>
      let (p, a) := p.turn cls q slice
      if a then
        let (l, p) := p.live qs
        if l && 0 < p.left then p.turns cls qs slice rest fuel else p
      else p.turns cls qs slice rest fuel
  | q :: rest, fuel + 1 =>
    let (p, a) := p.turn cls q slice
    if a then
      let (l, p) := p.live qs
      if l && 0 < p.left then p.turns cls qs slice rest fuel else p
    else p.turns cls qs slice rest fuel

/-- The pass of a class, with the queue its fill pass begins after. A queue with no eligible head has lost its allowance
(R28). -/
def State.classPass (s : State) (cls : Nat) (limit slice : Rat) : State × List Nat :=
  let qs := s.classQueues cls
  let s := qs.foldl (fun s q =>
    if (s.headBlock q).isNone then s.modQueue q fun x => { x with allowance := 0 } else s) s
  let order := rotate qs (SMap.find? s.drr cls)
  let p : Pass := ⟨s, limit, none⟩
  let (l, p) := if 0 < limit then p.live qs else (false, p)
  let p := if l then p.turns cls order slice order (70 * qs.length * (s.part.tiles + 1)) else p
  (p.st, match p.last with
    | some q => rotate qs (some q)
    | none => order)

/-- The fill pass of a class (R462): whole rounds of turns until one admits nothing. -/
def State.fillPass (s : State) (qs : List Nat) : Nat → State
  | 0 => s
  | fuel + 1 =>
    let (s, any) := qs.foldl (fun ((s, any) : State × Bool) q =>
      match s.head q none with
      | (some (_, _, .now pl _), s) => (s.enrol pl, true)
      | (_, s) => (s, any)) (s, false)
    if any then s.fillPass qs fuel else s

/-! ## Debt (R30 to R32) -/

/-- SCHED_SLIP is raised above 1,024 units and armed again at 512 or less (R32). -/
def State.slipCheck (s : State) : State :=
  if 1024 < s.debt && !s.slip then
    let s := (({ s with slip := true }.raise F.CRS_EVENT.SCHED_SLIP 0).bump F.CRS_EVENT.SLIP_COUNT 0 1)
    s.reportSelf 0x0101 0 uFrontEnd 0 s.debt
  else if s.debt ≤ 512 then { s with slip := false } else s

/-- Pool tiles held by overrunning blocks: every running block outside C0 (R29, R31). -/
def State.lateTiles (s : State) : Nat :=
  ((s.blocks.filter fun b => b.cls ≠ 0).map fun b => b.tiles.length).sum

/-! ## Moves of resident sets (R179, R269) -/

/-- Clear a tile's plinth region: its banks rejoin non-plinth scratch. -/
def State.dropPlinth (s : State) (t : Nat) : State := s.setReg .SCP_PLINTH t 0

/-- A move whose copy has completed switches its set to the new tiles: they become valid, but for the copy of a region that
was not valid itself, which only a loading block makes usable (R180, log entry 102). -/
def State.switchSet (s : State) (r : RSet) : State :=
  match r.moving with
  | some new =>
    let s := r.members.foldl State.dropPlinth s
    let s := r.good.foldl (fun s t => s.raise F.SCP_PLINTH.VALID t) s
    let s := { s with sets := s.sets.map fun x =>
      if x.id = r.id then { x with members := new, moving := none, moveAdmin := none, copied := false, good := [] } else x }
    match r.moveAdmin with
    | some (q, seq) => s.finishAdmin q seq stOk (new.headD 0)
    | none => s
  | none => s

/-- Every set whose copy has completed switches. -/
def State.switchSets (s : State) : State := (s.sets.filter fun r => r.copied).foldl State.switchSet s

/-- The copy of one member's plinth region to the new member with the same position; the result says whether an
uncorrectable error was met, which is reported under R175. -/
def State.copyPlinth (s : State) (src dst banks : Nat) : State × Bool :=
  let off := (16 - banks) * 2 ^ 16
  let ues := s.scrUe.filter fun u => tilePa src + off ≤ u && u < tilePa src + 2 ^ 20
  match ues with
  | [] =>
    let s := s.zeroScr (tilePa dst + off) (banks * 2 ^ 16)
    let s := s.setReg .SCP_PLINTH dst (setField (s.reg .SCP_PLINTH src) F.SCP_PLINTH.VALID.hi F.SCP_PLINTH.VALID.lo 0)
    let moved := s.scr.filter fun p => tilePa src + off ≤ p.1 && p.1 < tilePa src + 2 ^ 20
    ({ s with scr := moved.foldl (fun m p => SMap.insert m (p.1 - tilePa src + tilePa dst) p.2) s.scr }, false)
  | u :: _ => (s.meetScrUe u, true)

/-- The C3 block of a move runs: it copies region by region, and ends with the set unchanged on an uncorrectable error. -/
def State.runMove (s : State) (r : RSet) : State :=
  match r.moving with
  | none => s
  | some new =>
    let (s, bad) := (r.members.zip new).foldl (fun ((s, bad) : State × Bool) (a, b) =>
      if bad then (s, bad) else s.copyPlinth a b r.banks) (s, false)
    if bad then
      let s := new.foldl State.dropPlinth s
      let s := { s with sets := s.sets.map fun x =>
        if x.id = r.id then { x with moving := none, moveAdmin := none, planned := false } else x }
      match r.moveAdmin with
      | some (q, seq) => s.finishAdmin q seq stMemUe 0
      | none => s
    else
      let good := (r.members.zip new).filterMap fun (e : Nat × Nat) =>
        if s.on F.SCP_PLINTH.VALID e.1 then some e.2 else none
      { s with sets := s.sets.map fun x =>
        if x.id = r.id then { x with planned := false, copied := true, good := good } else x }

/-- The moves that wait are admitted as C3 work if C3 may take work at this close: the new tiles must be free, old and new
ones powered, and no block naming the set runs. The rules give a move no duration: it costs no pool time (log entry 102). -/
def State.planMoves (s : State) (may : Bool) : State :=
  if !may then s
  else s.sets.foldl (fun s r => match r.moving with
    | some new =>
      let held := s.heldTiles
      let powered (t : Nat) : Bool := !s.quadOff.contains (quadOf t) && !s.quadWake.contains (quadOf t)
      if !r.planned && !r.copied && !(new.any held.contains) && (r.members ++ new).all powered &&
          !(s.blocks.any fun b => b.set = some r.id) then
        { s with sets := s.sets.map fun x => if x.id = r.id then { x with planned := true } else x }
      else s
    | none => s) s

/-! ## The closes -/

/-- Partitions of the queues whose head stays unplaced, and of the moves that wait (R269, R347). -/
def State.unplaced (s : State) : List Nat :=
  ((s.sets.filter fun r => r.moving.isSome && !r.planned && !r.copied).map RSet.part ++ ([1, 2, 3].map fun c => (s.classQueues c).filterMap fun q => match (s.head q none).1 with
    | some (_, _, .notNow) => some (s.qPart q)
    | _ => none).flatten).eraseDups

/-- A C1–C3 snapshot close. Whether R32's thresholds are compared with the debt before or after the close's withholding the
rule leaves open: here it is what is left (log entry 101). While the host is lost the debt runs on and nothing is
admitted (R314). -/
def execC1C3SnapshotClose (s : State) : Res State :=
  .next (if !s.timer || s.closed13 then s
  else if !s.ready || s.halted then { s with closed13 := true }
  else
    let s := { s with closed13 := true }.switchSets
    let s2 := s.fld F.CRS_SHARE.C2_SHARE 0
    let s3 := s.fld F.CRS_SHARE.C3_SHARE 0
    let unit : Rat := (s.periodNs : Rat) / 256
    let slice (n : Nat) : Rat := (s.periodNs : Rat) * (max 1 (min 64 n) : Nat) / 64
    let l1 := slice (s.fld F.CRS_SLICE.C1_SLICE 0)
    let l2 := slice (s.fld F.CRS_SLICE.C2_SLICE 0)
    let l3 := slice (s.fld F.CRS_SLICE.C3_SLICE 0)
    let debt0 := s.debt + ceilDiv (256 * s.lateTiles) (max 1 s.pool)
    let w2 := min debt0 s2
    let w3 := min (debt0 - w2) s3
    let debt := debt0 - w2 - w3
    let s := { s with debt := debt, c3Held := s3 ≠ 0 && w3 = s3 }.setFld F.CRS_DEBT.DEBT 0 (min debt 0xFFFFFF)
    let s := s.slipCheck
    if s.fld F.HOD_HOSTLOSS.STATE 0 ≠ 0 then s else
    let s := (s.queues.map Prod.fst).foldl State.endHold s
    let (s, o1) := s.classPass 1 (((256 - s2 - s3 : Nat) : Rat) * unit) l1
    let (s, o2) := s.classPass 2 (((s2 - w2 : Nat) : Rat) * unit) l2
    let (s, o3) := s.classPass 3 (((s3 - w3 : Nat) : Rat) * unit) l3
    let n := s.part.tiles + 1
    let s := s.fillPass o1 n
    let s := if debt0 = 0 then (s.fillPass o2 n).fillPass o3 n else s
    let s := s.planMoves (w3 < s3 || debt0 = 0)
    (s.quadrants s.unplaced).divideCap)

/-- A C0 snapshot close: late C0 blocks are counted, and every free group takes the next block of its queue. -/
def execC0SnapshotClose (s : State) : Res State :=
  .next (if !s.timer || s.closed0 then s
  else if !s.ready || s.halted then { s with closed0 := true }
  else
    let late := (s.blocks.filter fun b => b.cls = 0 && b.start = s.course).length
    let s := { s with closed0 := true }
    let s := if late = 0 then s else (s.raise F.CRS_EVENT.C0_LATE 0).bump F.CRS_EVENT.C0_LATE_COUNT 0 late
    if s.fld F.HOD_HOSTLOSS.STATE 0 ≠ 0 then s else
    (List.range 16).foldl (fun s g =>
      let q := s.fld F.CRS_C0_GROUP.QUEUE g
      if !s.on F.CRS_C0_GROUP.VALID g || s.qState q = qFree || s.qClass q ≠ 0 then s
      else match s.head q none with
        | (some (_, _, .now pl _), s) => s.enrol pl
        | (_, s) => s) s)

/-! ## The boundary -/

/-- Every queue's timeout as written applies from the boundary (R288). -/
def State.applyTimeouts (s : State) : State :=
  { s with queues := s.queues.map fun e => (e.1, { e.2 with timeout := s.fld F.CFE_Q_CTL.TIMEOUT e.1 }) }

/-- Planned blocks start. -/
def State.startPlan (s : State) : State := s.plan.foldl State.startBlock { s with plan := [] }

/-- Planned blocks go back to their queues: nothing is admitted while the host is lost (R314). -/
def State.dropPlan (s : State) : State :=
  s.plan.foldl (fun s p => s.modItem p.queue p.seq fun i => { i with next := min i.next p.idx }) { s with plan := [] }

/-- A course boundary; `m` is the input energy in µJ that the PMBus read gave, none where it failed (R351). -/
def execCourseBoundary (m : Option Nat) (s : State) : Res State :=
  .next (if !s.timer then s
  else
    let s := if s.started then s.setFld F.CRS_COURSE_NUM.COURSE 0 (s.course + 1) else { s with started := true }
    let s := { s.setFld F.CRS_NOW.TICK 0 0 with closed13 := false, closed0 := false, ceCourse := [] }
    let s := s.applyTimeouts.applySteps.calibrate m |>.latchEnergy
    if !s.ready || s.halted then s
    else if s.fld F.HOD_HOSTLOSS.STATE 0 ≠ 0 then s.dropPlan
    else (s.sets.filter fun r => r.planned).foldl State.runMove s.startPlan)

/-! ## Shares and slices (R37) -/

/-- Replace a runtime-mutable register, counting a change of its value (R413). -/
def State.writeRuntime (s : State) (k : RegKind) (v : Word) : State :=
  if s.reg k 0 = v then s else (s.setReg k 0 v).epoch

/-- A write to CRS_SHARE: each share applies as at most 128. -/
def execCrsShareWrite (v : BitVec 64) (s : State) : Res State :=
  let c2 := min 128 (bits v.toNat 15 8)
  let c3 := min 128 (bits v.toNat 7 0)
  .next (if s.board.alive then s.writeRuntime .CRS_SHARE (BitVec.ofNat 64 (c2 * 2 ^ 8 + c3)) else s)

/-- A write to CRS_SLICE: each slice applies as 1 to 64. -/
def execCrsSliceWrite (v : BitVec 64) (s : State) : Res State :=
  let c (n : Nat) : Nat := max 1 (min 64 n)
  .next (if s.board.alive then
      s.writeRuntime .CRS_SLICE
        (BitVec.ofNat 64 (c (bits v.toNat 20 14) * 2 ^ 14 + c (bits v.toNat 13 7) * 2 ^ 7 + c (bits v.toNat 6 0)))
    else s)

end Sys2Proof.Machine
end

