-- ==== Sys2Proof/Machine/Ghenath.lean ====
section
/-! DEFINITION. Machine/Ghenath.lean: what the rules give the Ghenath cores: their accesses to memory, the non-temporal
buffer, ordering events and the core-complex reset (R207, R210, R324 to R332, R386, R393). -/
namespace Sys2Proof.Machine

def State.coreOf (s : State) (n : Nat) : Core := SMap.get s.cores Core.reset n
def State.modCore (s : State) (n : Nat) (f : Core → Core) : State :=
  { s with cores := SMap.insert s.cores n (f (s.coreOf n)) }

/-- The cores execute: present, started (phase 7, R402), not in a core-complex reset and powered. -/
def State.coreRuns (s : State) (n : Nat) : Bool :=
  s.board.alive && n < s.part.cores && !s.coreReset && !s.coreDown && 7 < s.fld F.CFG_STATE.PHASE 0

/-- The partition a core is assigned to, 8 if none (R389). -/
def State.corePart (s : State) (n : Nat) : Nat :=
  ((List.range 8).find? fun p => if n < 64 then (s.fld F.SEC_PART_CORES_LO.CORES p).testBit n
    else (s.fld F.SEC_PART_CORES_HI.CORES p).testBit (n - 64)).getD 8

/-- Owner tag of a core's access (R386). -/
def State.coreTag (s : State) (n : Nat) (virt : Bool) : Nat := if virt then s.corePart n else 8

/-- Privileged software's mode that takes an access fault, by its delegation: 0 to machine mode, 1 to HS, else from V = 1 to
VS. A machine-mode access's fault stays in machine mode. -/
def taker (mode : Priv) (deleg : Nat) : Priv :=
  match mode, deleg with
  | .m, _ => .m
  | _, 0 => .m
  | _, 1 => .hs
  | x, _ => if x.virt then .vs else .hs

/-! ## The core caches (R206, R207, R323) -/

/-- Blocks of 64 B that a run touches. -/
def blocks64 (a n : Nat) : List Nat := unitsOf 64 a n

/-- The directory notes that G-die `g` may hold part of the line at `l`, and with `excl` that it holds it modified: the home
keeps what it has. -/
def State.enter (s : State) (g l : Nat) (excl : Bool) : State :=
  let e := (SMap.find? s.gdir l).getD ⟨0, none, []⟩
  let e : GLine := { e with
    holders := e.holders ||| 2 ^ g
    owner := if excl then some g else e.owner
    below := if excl && e.owner.isNone then s.lineBytes l else e.below }
  { s with gdir := SMap.insert s.gdir l e }

/-- Core `n` brings the block at `b` into its caches, with `excl` holding its line alone: the other G-die is recalled where it
holds the line modified, or at all for `excl`. A miss is a lookup at the home slice; uncorrectable units of the block come
second, and then it is not cached. -/
def State.coreFill (s : State) (n tag b : Nat) (excl : Bool) : State × List Nat :=
  let g := n / 48
  let l := b / 128 * 128
  let s := s.meetBlock g b
  let s := match SMap.find? s.gdir l with
    | some e => if e.owner = some (1 - g) || (excl && e.holders.testBit (1 - g)) then s.recall l else s
    | none => s
  let keep (s : State) : State :=
    { s with
      l3 := if s.l3.contains (g, b) then s.l3 else (g, b) :: s.l3 }.modCore n (fun c =>
        { c with l2 := if c.l2.contains b then c.l2 else b :: c.l2 }) |>.enter g l excl
  if s.l3.contains (g, b) then (keep s, [])
  else
    let (s, bad) := s.lookup tag l (sectorsOf (byteMask l b 64)) 0
    let bad := (unitsOf 8 b 64).filter fun u => bad.contains u || s.goneFor ⟨none, tag⟩ u
    if bad.isEmpty then (keep s, []) else (s, bad)

/-- A block leaves core `n`'s L2 or, where that does not hold it, its G-die's caches: modified data goes to the home slice. -/
def State.coreEvict (s : State) (n b : Nat) : State :=
  let g := n / 48
  let l := b / 128 * 128
  if (s.coreOf n).l2.contains b then s.modCore n fun c => { c with l2 := c.l2.filter (· ≠ b) }
  else
    let s := s.meetBlock g b
    match SMap.find? s.gdir l with
    | none => s
    | some e =>
      let s := (if e.owner = some g then s.takeLine l else s).dropBlock g b
      if s.l3.any fun p => p.1 = g && p.2 / 128 * 128 = l then s
      else
        let h := e.holders &&& (3 - 2 ^ g)
        { s with gdir := if h = 0 then SMap.erase s.gdir l else SMap.insert s.gdir l ⟨h, none, []⟩ }

/-- A store of the bytes of one block, written into the core's caches; where the line fill reads an uncorrectable error, the
store's own bytes go to the home slice (R331). Reservations of other cores on the block end (R327). -/
def State.coreWrite (s : State) (n tag a : Nat) (bs : List Byte) : State :=
  let (s, bad) := s.coreFill n tag (a / 64 * 64) true
  if !bad.isEmpty then s.memWrite ⟨none, tag⟩ a bs
  else
    let mine := (s.coreOf n).resv
    let s := ((s.putBytes a bs).breakResv a bs.length).markIll none a bs.length true
    if mine.isNone then s else s.modCore n fun c => { c with resv := mine }

/-! ## Store buffer and non-temporal buffer (R328 to R331) -/

/-- A retired store is performed, if its range still admits it (R393). -/
def State.sbWrite (s : State) (n : Nat) (e : SbEntry) : State :=
  if !s.part.populated e.pa || !s.rangeOk e.tag e.pa .write then s
  else if e.cached then s.coreWrite n e.tag e.pa e.data else s.memWrite ⟨none, e.tag⟩ e.pa e.data

/-- The stores of a core that satisfy `p` are performed, oldest first. -/
def State.sbDrain (s : State) (n : Nat) (p : SbEntry → Bool) : State :=
  ((s.coreOf n).sb.filter p).foldl (fun s e => s.sbWrite n e)
    (s.modCore n fun c => { c with sb := c.sb.filter fun e => !p e })

/-- A waiting store writes into a run. -/
def SbEntry.meets (e : SbEntry) (a n : Nat) : Bool := e.pa < a + n && a < e.pa + e.data.length

/-- Entry `k` of a core's store buffer is performed, with those to its 8 B unit. -/
def State.sbOne (s : State) (n k : Nat) : State :=
  match (s.coreOf n).sb[k]? with
  | some e => s.sbDrain n fun x => x.pa / 8 = e.pa / 8
  | none => s

/-- A store enters the store buffer of 56, in pieces within aligned 8 B units (R327); a full buffer first performs its
oldest. -/
def State.sbPush (s : State) (n tag : Nat) (cached : Bool) (a : Nat) (bs : List Byte) : State :=
  (unitsOf 8 a bs.length).foldl (fun s u =>
    let s := if 56 ≤ (s.coreOf n).sb.length then s.sbOne n 0 else s
    let lo := max a u
    s.modCore n fun c => { c with sb := c.sb ++ [⟨tag, cached, lo, (bs.drop (lo - a)).take (u + 8 - lo)⟩] }) s

/-- What a core reads where its own stores still wait: the store buffer supplies it. -/
def State.forwarded (s : State) (n a : Nat) (bs : List Byte) : List Byte :=
  ((s.coreOf n).sb.filter fun e => e.meets a bs.length).foldl
    (fun bs e => bs.zipIdx.map fun (b, i) => if e.pa ≤ a + i then e.data.getD (a + i - e.pa) b else b) bs

/-- Write an entry's valid bytes to its block as one write, if the range still admits it. -/
def State.ntWrite (s : State) (e : NtEntry) : State :=
  let l := e.block / 128 * 128
  if s.part.populated e.block && s.rangeOk e.tag e.block .write then
    s.mergeLine e.tag l (e.bytes.map fun p => (p.1 + e.block - l, p.2))
  else s

/-- The entry of a core for a block drains. -/
def State.ntDrainBlock (s : State) (n b : Nat) : State :=
  ((s.coreOf n).nt.filter fun e => e.block = b).foldl State.ntWrite
    (s.modCore n fun c => { c with nt := c.nt.filter fun e => e.block ≠ b })

/-- Every store of a core is performed: both buffers drain. -/
def State.drainCore (s : State) (n : Nat) : State :=
  let s := s.sbDrain n fun _ => true
  (s.coreOf n).nt.foldl State.ntWrite (s.modCore n fun c => { c with nt := [] })

/-- Drain the non-temporal entries an access overlaps. -/
def State.ntDrainOver (s : State) (n a len : Nat) : State := (blocks64 a len).foldl (fun s b => s.ntDrainBlock n b) s

/-- A core's own older stores to a run are performed. -/
def State.drainOver (s : State) (n a len : Nat) : State := (s.sbDrain n fun e => e.meets a len).ntDrainOver n a len

/-- Merge bytes of one block into a core's buffer: a new entry drains the oldest of 16, a full one drains at once. -/
def State.ntMerge (s : State) (n tag b : Nat) (bs : List (Nat × Byte)) : State :=
  let c := s.coreOf n
  let listed := c.nt.any fun e => e.block = b
  let s := match (if !listed && 16 ≤ c.nt.length then c.nt.head? else none) with
    | some e => s.ntDrainBlock n e.block
    | none => s
  let put (m : SMap Byte) : SMap Byte := bs.foldl (fun m p => SMap.insert m p.1 p.2) m
  let grow (l : List NtEntry) : List NtEntry :=
    if listed then l.map fun e => if e.block = b then { e with bytes := put e.bytes } else e else l ++ [⟨b, tag, put []⟩]
  let s := s.modCore n fun c => { c with nt := grow c.nt }
  if (s.coreOf n).nt.any (fun e => e.block = b && e.bytes.length = 64) then s.ntDrainBlock n b else s

/-- A store to main memory with a non-temporal hint: the bytes of each block whose line the core's L1 and L2 do not hold go
to the non-temporal buffer, the others to the store buffer (R328). -/
def State.ntStore (s : State) (n tag a : Nat) (bs : List Byte) : State :=
  let s := s.sbDrain n fun e => e.meets a bs.length
  let m := bs.zipIdx.map fun p => (a + p.2, p.1)
  (blocks64 a bs.length).foldl (fun s b =>
    let mine := m.filter fun p => p.1 / 64 * 64 = b
    if (s.coreOf n).l2.any fun x => x / 128 = b / 128 then
      (s.ntDrainBlock n b).sbPush n tag true (max a b) (mine.map Prod.snd)
    else s.ntMerge n tag b (mine.map fun p => (p.1 - b, p.2))) s

/-- Entry `k` of a core's buffer drains as one write at PACKAGE scope. -/
def execNtEntryDrain (core k : Nat) (s : State) : Res State :=
  .next (match (s.coreOf core).nt[k]? with
    | some e => if s.board.alive then s.ntDrainBlock core e.block else s
    | none => s)

/-! ## What an access must meet (R195, R207, R210, R325 to R327) -/

/-- A core's outbound read has not been answered. -/
def State.readOut (s : State) (n : Nat) : Bool := s.bus.any fun p => p.2.owner = .core n

/-- An access of these classes waits: I/O accesses for an outstanding outbound read (R326), any for a FENCE that has such a
read among its predecessors (R195). -/
def State.coreWaits (s : State) (n : Nat) (k : FenceSet) : Bool :=
  s.readOut n && (k.i || k.o || (match (s.coreOf n).hold with
    | some h => (h.r && k.r) || (h.w && k.w)
    | none => false))

/-- Value a core's AMO stores. -/
def coreAmo (op : CoreAmo) (size old x : Nat) : Nat :=
  let w := 8 * size
  let x := x % 2 ^ w
  match op with
  | .swap => x
  | .add => (old + x) % 2 ^ w
  | .xor => old ^^^ x
  | .and => old &&& x
  | .or => old ||| x
  | .min => if sext w old ≤ sext w x then old else x
  | .max => if sext w old ≤ sext w x then x else old
  | .minu => min old x
  | .maxu => max old x

/-- Bytes an operation covers from its address, and whether it writes. -/
def opSpan (a : Nat) : CoreOp → Nat × Nat × Bool
  | .load n => (a, n, false)
  | .fetch n => (a, n, false)
  | .store bs _ => (a, bs.length, true)
  | .vector d n _ => (a, match d with
    | some bs => bs.length
    | none => n, d.isSome)
  | .amo _ n _ => (a, n, true)
  | .lr n => (a, n, false)
  | .sc bs => (a, bs.length, true)
  | .cboClean | .cboFlush | .cboInval => (a / 64 * 64, 64, false)
  | .cboZero => (a / 64 * 64, 64, true)
  | .ext _ | .time => (a, 0, false)

/-- The form is legal for the page's type and the address's alignment: PBMT 0 main memory, 1 non-cacheable, 2 I/O. -/
def opLegal (pbmt a : Nat) : CoreOp → Bool
  | .load n => (n = 1 || n = 2 || n = 4 || n = 8) && (pbmt ≠ 2 || a % n = 0)
  | .store bs _ => (bs.length = 1 || bs.length = 2 || bs.length = 4 || bs.length = 8) && (pbmt ≠ 2 || a % bs.length = 0)
  | .fetch _ => pbmt ≠ 2
  | .vector _ _ _ => pbmt ≠ 2
  | .amo _ n _ => pbmt ≠ 2 && (n = 1 || n = 2 || n = 4 || n = 8) && a % n = 0
  | .lr n => pbmt = 0 && (n = 4 || n = 8) && a % n = 0
  | .sc bs => pbmt = 0 && (bs.length = 4 || bs.length = 8) && a % bs.length = 0
  | .cboClean | .cboFlush | .cboInval | .cboZero => pbmt ≠ 2
  | .ext _ | .time => true

/-- Kind of the fault an operation's access takes. -/
def opFault : CoreOp → AccFault
  | .load _ | .lr _ | .vector none _ _ => .load
  | .fetch _ => .fetch
  | _ => .storeAmo

/-- Classes of an access for the sets of a FENCE. -/
def opClass (pbmt : Nat) (op : CoreOp) : FenceSet :=
  let rd : Bool := match op with
    | .load _ | .fetch _ | .vector none _ _ | .lr _ | .amo _ _ _ => true
    | _ => false
  let wr : Bool := match op with
    | .store _ _ | .vector (some _) _ _ | .sc _ | .amo _ _ _ | .cboZero | .cboClean | .cboFlush | .cboInval => true
    | _ => false
  if pbmt = 2 then ⟨rd, wr, false, false⟩ else ⟨false, false, rd, wr⟩

/-- The cores or BAR2 reach memory in the present mode (R232). -/
def State.memOpen (s : State) : Bool := s.fld F.MEM_MODE.MODE 0 = 2 || s.fld F.MEM_MODE.MODE 0 = 3

/-- An access is refused with an access fault. -/
def State.coreRefused (s : State) (c : CoreAcc) : Bool :=
  let (a, n, w) := opSpan c.pa c.op
  let tag := s.coreTag c.core c.mode.virt
  let acc : Acs := if w then .write else .read
  !s.memOpen || 3 ≤ c.pbmt || !opLegal c.pbmt c.pa c.op || !s.part.populatedRun a n || !s.rangeOk tag a acc ||
    !s.rangeOk tag (a + n - 1) acc || s.coreCut c.core a || s.coreCut c.core (a + n - 1)

/-- The access fault of an access: its kind, the mode that takes it, the faulting virtual address. -/
def accFault (c : CoreAcc) : Out := .coreFault c.core (opFault c.op) (taker c.mode c.deleg) c.va

/-! ## Machine-mode memory and other instructions (R321, R322) -/

/-- Bytes of a machine-mode memory. -/
def mmSize : Nat := 2 ^ 22

/-- Number of a byte of G-die `g`'s machine-mode memory. -/
def mmKey (g off : Nat) : Nat := g * mmSize + off

/-- A byte of machine-mode memory; what the firmware put there is open. -/
def State.mmByte (s : State) (k : Nat) : Byte := (SMap.find? s.mmem k).getD (Config.freeByte s.mmSeed (2 ^ 60 + k))

/-- Bytes of machine-mode memory. -/
def State.mmRead (s : State) (k n : Nat) : List Byte := (List.range n).map fun i => s.mmByte (k + i)
def State.mmWrite (s : State) (k : Nat) (bs : List Byte) : State :=
  State.breakResv { s with mmem := bs.zipIdx.foldl (fun m (p : Byte × Nat) => SMap.insert m (k + p.2) p.1) s.mmem }
    (2 ^ 60 + k) bs.length

/-- The machine-mode memories hold their firmware, whose bytes are open. -/
def State.loadFirmware (s : State) : State := { s.drawn with mmem := [], mmSeed := s.freeCtr }

/-- A machine-mode access to the G-die's machine-mode memory. -/
def State.mmAccess (s : State) (n k : Nat) (op : CoreOp) : State :=
  match op with
  | .load len | .fetch len | .vector none len _ => s.emit (.core n (s.mmRead k len))
  | .store bs _ | .vector (some bs) _ _ => s.mmWrite k bs
  | .amo op len x =>
    let old := s.mmRead k len
    (s.mmWrite k (bytesOf len (coreAmo op len (ofBytes old) x))).emit (.core n old)
  | .lr len => (s.modCore n fun c => { c with resv := some (2 ^ 60 + k / 64 * 64) }).emit (.core n (s.mmRead k len))
  | .sc bs =>
    let ok := (s.coreOf n).resv = some (2 ^ 60 + k / 64 * 64)
    let s := s.modCore n fun c => { c with resv := none }
    if ok then (s.mmWrite k bs).emit (.core n (bytesOf 8 0)) else s.emit (.core n (bytesOf 8 1))
  | .cboZero => s.mmWrite (k / 64 * 64) (List.replicate 64 0)
  | .cboClean | .cboFlush | .cboInval | .ext _ | .time => s

/-- An extension a core implements (R321); the debug ones only once debug is unlocked. -/
def State.hasExt (s : State) (e : RvExt) : Bool :=
  match e with
  | .zacas | .zama16b | .zvksg | .zbc | .ztso => false
  | .sdext | .sdtrig => s.on F.SEC_DEBUG.CORE_DEBUG 0
  | _ => true

/-! ## The access -/

/-- Read for a core through its caches, or past them where the page is not cacheable: what it consumes of an uncorrectable
unit is an access fault; else `f` receives the bytes. -/
def State.coreRead (s : State) (acc : CoreAcc) (len : Nat) (excl : Bool) (f : State → List Byte → State) : State :=
  let n := acc.core
  let a := acc.pa
  let tag := s.coreTag n acc.mode.virt
  let s := s.ntDrainOver n a len
  if acc.pbmt = 0 then
    let (s, bad) := (blocks64 a len).foldl (fun ((s, bad) : State × List Nat) b =>
      let (s, x) := s.coreFill n tag b excl
      (s, x ++ bad)) (s, [])
    let s := s.markIll none a len false
    if (unitsOf 8 a len).any bad.contains then s.emit (accFault acc)
    else f s (s.forwarded n a ((List.range len).map fun i => s.viewByte none (a + i)))
  else
    let g := s.memRead ⟨none, tag⟩ a len
    if g.ue then g.st.emit (accFault acc) else f g.st (g.st.forwarded n a g.data)

/-- A store of a core: I/O-typed memory at once, else through a buffer. -/
def State.coreStore (s : State) (acc : CoreAcc) (bs : List Byte) (nt : Bool) : State :=
  let tag := s.coreTag acc.core acc.mode.virt
  if acc.pbmt = 2 then s.memWrite ⟨none, tag⟩ acc.pa bs
  else if nt && acc.pbmt = 0 then s.ntStore acc.core tag acc.pa bs
  else (s.ntDrainOver acc.core acc.pa bs.length).sbPush acc.core tag (acc.pbmt = 0) acc.pa bs

/-- A core's access to memory is made; loads, AMOs, LR and SC answer the core, SC with 0 for success. -/
def State.coreAccess (s : State) (acc : CoreAcc) : State :=
  let n := acc.core
  let a := acc.pa
  let tag := s.coreTag n acc.mode.virt
  match acc.op with
  | .load len | .fetch len | .vector none len _ => s.coreRead acc len false fun s bs => s.emit (.core n bs)
  | .store bs nt | .vector (some bs) _ nt => s.coreStore acc bs nt
  | .amo op len x =>
    let g := (s.drainOver n a len).amoHome ⟨none, tag⟩ a len fun old => coreAmo op len old x
    if g.ue then g.st.emit (accFault acc) else g.st.emit (.core n (bytesOf len g.old))
  | .lr len => (s.drainOver n a len).coreRead acc len true fun s bs =>
    (s.modCore n fun c => { c with resv := some (a / 64 * 64) }).emit (.core n bs)
  | .sc bs =>
    let ok := (s.coreOf n).resv = some (a / 64 * 64)
    let s := s.modCore n fun c => { c with resv := none }
    if ok then ((s.drainOver n a bs.length).coreWrite n tag a bs).emit (.core n (bytesOf 8 0))
    else s.emit (.core n (bytesOf 8 1))
  | .cboZero =>
    let b := a / 64 * 64
    let s := s.drainOver n b 64
    let zero := List.replicate 64 (0 : Byte)
    if acc.pbmt = 0 then s.coreWrite n tag b zero else s.memWrite ⟨none, tag⟩ b zero
  | .cboClean => ((s.drainOver n (a / 64 * 64) 64).meetBlocks (a / 128 * 128)).takeLine (a / 128 * 128)
  | .cboFlush | .cboInval => (s.drainOver n (a / 64 * 64) 64).recall (a / 128 * 128)
  | .ext _ | .time => s

/-- A core's access to memory, or another instruction the rules give an effect; first its caches make room. -/
def execCoreMemoryAccess (acc : CoreAcc) (s : State) : Res State :=
  let n := acc.core
  .next (if !s.coreRuns n then s
  else match acc.op with
    | .ext e => if s.hasExt e then s else s.emit (.coreIllegal n)
    | .time => s.emit (.core n (bytesOf 8 s.ticks))
    | op =>
      if s.coreWaits n (opClass acc.pbmt op) then s
      else if acc.mm then
        let (a, len, _) := opSpan acc.pa op
        if acc.mode ≠ .m || mmSize < a + len || !opLegal 0 acc.pa op then s.emit (accFault acc)
        else s.mmAccess n (mmKey (n / 48) acc.pa) op
      else if s.starved (s.coreTag n acc.mode.virt) then s
      else if s.coreRefused acc then s.emit (accFault acc)
      else if s.coreHeld n acc.pa then s
      else (acc.evict.foldl (fun s b => s.coreEvict n b) s).coreAccess acc)

/-- An ordering event waits until every older store and non-temporal entry has been performed; a FENCE whose predecessors
include input holds its successors while an outbound read is out. -/
def execCoreFence (core : Nat) (kind : CoreFenceKind) (s : State) : Res State :=
  let waits := match kind with
    | .fence p _ => p.o || p.w
    | .tso | .rl | .sfence => true
  let hold (s : State) : State := match kind with
    | .fence p q =>
      if p.i && s.readOut core then s.modCore core fun c =>
        let h := c.hold.getD ⟨false, false, false, false⟩
        { c with hold := some ⟨h.i || q.i, h.o || q.o, h.r || q.r, h.w || q.w⟩ }
      else s
    | _ => s
  .next (if !s.coreRuns core then s else hold (if waits then s.drainCore core else s))

/-- Every modified line of the G-dies' caches goes back to its home, and the caches are empty (R331, R332). -/
def State.flushCaches (s : State) : State := (s.gdir.map Prod.fst).foldl State.recall s

/-! ## Core-complex reset (R301, R331, R332, R419) -/

/-- The reset begins, or joins the one that runs: buffers are discarded, outstanding reads of the cores abandoned; the test
access port resets with every reset (R451). -/
def State.coreComplexReset (s : State) : State :=
  if s.coreReset then s
  else
    { s.bump F.CFG_RESET.CORE_RESETS 0 1 with
      cores := s.cores.map fun p => (p.1, { Core.reset with l2 := p.2.l2 })
      coreReset := true
      board := { s.board with tap := 0, bypass := false }
      bus := s.bus.map fun p => match p.2.owner with
        | .core _ => (p.1, { p.2 with owner := .abandoned })
        | _ => p }

/-- CFG_RESET.CORE. -/
def execCfgResetCore (s : State) : Res State :=
  let st := s.fld F.HOD_HOSTLOSS.STATE 0
  .next (if !s.board.alive then s
    else if s.coreReset || st = 1 || st = 2 then s.raise F.CFG_EVENT.RESET_REFUSED 0
    else s.coreComplexReset)

/-- The core firmware's watchdog expires. -/
def execCoreWatchdog (core : Nat) (s : State) : Res State :=
  .next (if !s.board.alive || s.part.cores ≤ core || s.coreDown then s
    else (s.reportSelf 0x0602 2 (uCore core) 0 0).coreComplexReset)

/-- A line that the caches hold modified could not be written back in 5 ms: it is dropped, and named. -/
def State.dropLate (s : State) (l : Nat) : State :=
  match SMap.find? s.gdir l with
  | some e => match e.owner with
    | some g =>
      let s := { s with gdir := SMap.insert s.gdir l { e with owner := none, below := [] } }
      (s.putBytes l e.below).reportSelf 0x0601 2 (uCache g) l 0
    | none => s
  | none => s

/-! ## The reference tick -/

/-- A retired store of each core, any one of those that wait, becomes visible (R331). -/
def State.sbTick (s : State) : State :=
  (s.cores.map Prod.fst).foldl (fun s n =>
    let k := (s.coreOf n).sb.length
    if k = 0 then s else s.drawn.sbOne n (s.freeNat % k)) s

/-- Cycles that own and remote requests of the running tiles waited for bank ports in a reference tick: open values of at
most 14, the cycles of a tick at the highest step (R185, R349). -/
def State.bankTick (s : State) : State :=
  (s.tiles.map Prod.fst).foldl (fun s t =>
    if s.fld F.TSQ_STATE.RUN t = 0 then s
    else
      let s := s.drawn.bump F.SCP_BANK_WAIT.OWN t (s.freeNat % 15)
      s.drawn.bump F.SCP_BANK_WAIT.REMOTE t (s.freeNat % 15)) s

/-- One reference tick of 10 ns while no command waits (log entry 2): time, which stands at 0 until a reset is released
(R322), the tick within the course, the flits sent, stores of the cores and bank waits. -/
def State.tick (s : State) : State :=
  if !s.board.alive || (s.board.perst && !s.timer) then s
  else
    let s := { s with ticks := s.ticks + 1 }.liveEnd.flitTick.sbTick.bankTick
    if s.timer then s.bump F.CRS_NOW.TICK 0 1 else s

end Sys2Proof.Machine
end

