-- ==== Sys2Proof/Machine/Hod.lean ====
section
/-! DEFINITION. Machine/Hod.lean: the hods: transfer bodies and their checks, COPY items, HODREQ, copies, fills, fences and
their failures; the check-value units (R117, R196, R273, R278, R302 to R311, R316 to R320). -/
namespace Sys2Proof.Machine

/-! ## Transfer bodies (R303 to R305) -/

/-- Class of a body: 0 host-to-device, 1 device-to-host, 2 internal; a COPY item's FENCE names it (R303, R309). -/
def tbClass (d : List Byte) : Nat :=
  if tbKind d = 2 then tbSrcSpace d
  else if tbKind d = 1 then (if tbDstSpace d = 1 then 1 else 2)
  else if tbSrcSpace d = 1 then 0
  else if tbDstSpace d = 1 then 1 else 2

/-- Hod of a class for queue or tile `n`. -/
def hodOf (cls n : Nat) : Nat := match cls with
  | 0 => n % 6
  | 1 => 6 + n % 6
  | _ => 12 + n % 4

/-- One side of a transfer: its space is allowed, its address fits, and a scratch side is aligned. -/
def sideOk (tile : Bool) (sp a n : Nat) : Bool :=
  sp ≠ 3 && (tile || sp ≠ 2) && (sp ≠ 0 || a < 2 ^ 48) && (sp ≠ 2 || (a % 32 = 0 && n % 32 = 0))

/-- The checks of R305 on a body, for a HODREQ or a COPY item. -/
def bodyOk (tile : Bool) (d : List Byte) : Bool :=
  let n := tbLen d
  let dst := sideOk tile (tbDstSpace d) (tbDst d) n
  match tbKind d with
  | 0 => n ≠ 0 && sideOk tile (tbSrcSpace d) (tbSrc d) n && dst && !(tbSrcSpace d = 1 && tbDstSpace d = 1) &&
      (!tbCheckEn d || (tbChkOut d < 2 ^ 48 && tbChkOut d % 16 = 0))
  | 1 => n ≠ 0 && dst && !tbCheckEn d
  | 2 => !tbCheckEn d && (tile || tbSrcSpace d ≠ 3)
  | _ => false

/-- Whether the transfer reads or writes across the bus. -/
def busSrc (d : List Byte) : Bool := tbKind d = 0 && tbSrcSpace d = 1
def busDst (d : List Byte) : Bool := tbKind d ≠ 2 && tbDstSpace d = 1

/-! ## Hods and jobs -/

/-- Descriptors of a hod, in ring order. -/
def State.hod (s : State) (h : Nat) : List HodJob := SMap.get s.hods [] h
def State.setHod (s : State) (h : Nat) (l : List HodJob) : State := { s with hods := SMap.insert s.hods h l }

def State.hodJob (s : State) (h job : Nat) : Option HodJob := (s.hod h).find? fun j => j.id = job
def State.modJob (s : State) (h job : Nat) (f : HodJob → HodJob) : State :=
  s.setHod h ((s.hod h).map fun j => if j.id = job then f j else j)

/-- Descriptors waiting and being worked on. -/
def State.hodWaiting (s : State) (h : Nat) : Nat := ((s.hod h).filter fun j => !j.active).length
def State.hodActive (s : State) (h : Nat) : List HodJob := (s.hod h).filter HodJob.active

/-- Non-posted requests outstanding of a hod. -/
def State.hodTags (s : State) (h : Nat) : Nat :=
  (s.bus.filter fun p => match p.2.owner with
    | .hodRead h' _ _ | .hodFlush h' _ => h' = h
    | _ => false).length

/-- Queue of a job. -/
def State.jobQueue (s : State) (j : HodJob) : Nat := match j.src with
  | .item q _ => q
  | .tile _ _ _ b => ((s.block b).map Block.queue).getD 0

/-- Tile of a HODREQ. -/
def HodJob.tile (j : HodJob) : Nat := match j.src with
  | .item _ _ => 0
  | .tile t _ _ _ => t

/-- Why a function's bus access cannot be made (R308), if it cannot. -/
def State.busFault (s : State) (fn : Nat) : Option Nat :=
  if !s.on F.HOD_LINK.UP 0 || s.fld F.HOD_HOSTLOSS.STATE 0 ≠ 0 then some 7
  else if !(s.fn fn).bme then some 8 else none

/-! ## Failures (R308) -/

/-- A job fails with a detail code: the first failure is latched, each sends a record, and nothing more is issued. -/
def State.hodFail (s : State) (h job detail addr : Nat) : State :=
  match s.hodJob h job with
  | none => s
  | some j =>
    if j.fail.isSome || j.xfail.isSome then s
    else
      let q := s.jobQueue j
      let s :=
        if s.on F.HOD_FAULT.VALID 0 then s.bump F.HOD_FAULT.LOST 0 1
        else
          let s := ((s.raise F.HOD_FAULT.VALID 0).setFld F.HOD_FAULT.HOD 0 h).setFld F.HOD_FAULT.FUNCTION 0 j.fn
          let s := (s.setFld F.HOD_FAULT.DETAIL 0 detail).setFld F.HOD_FAULT.SOURCE 0 (match j.src with
            | .item _ _ => 0
            | .tile _ _ _ _ => 1)
          let s := (s.setFld F.HOD_FAULT.QUEUE 0 q).setFld F.HOD_FAULT.TILE 0 j.tile
          (s.setReg .HOD_FAULT_ADDR 0 (BitVec.ofNat 64 addr)).raise F.HOD_EVENT.FAULT 0
      let s := s.report ⟨0x0501, 2, uHod h, uHod h, addr, detail, j.part, q⟩
      s.modJob h job fun j => { j with fail := some detail, todo := [], flush := [] }

/-- A device-side translation fault of a job (R305): an item's sends a record, a HODREQ raises XLATE when it ends. -/
def State.hodXfail (s : State) (h job : Nat) (f : XFault × Nat) : State :=
  match s.hodJob h job with
  | none => s
  | some j =>
    if j.fail.isSome || j.xfail.isSome then s
    else
      let s := match j.src with
        | .item q _ => s.report ⟨0x0204, 2, uHod h, uHod h, f.2, f.1.cause, j.part, q⟩
        | .tile _ _ _ _ => s
      s.modJob h job fun j => { j with xfail := some (f.1.cause, f.2), todo := [], flush := [] }

/-! ## Moving bytes (R304, R306, R318) -/

/-- Runs of at most `m` bytes that do not cross a multiple of `m`, over `n` bytes from `a`: offset and length. -/
def busPieces (m a n : Nat) : List (Nat × Nat) :=
  (unitsOf m a n).map fun u => (max a u - a, min (a + n) (u + m) - max a u)

/-- The agent a hod is for a job (R188, R386). -/
def HodJob.agent (j : HodJob) : Agent := ⟨none, j.part⟩

/-- Bytes of a job set out for device memory at physical address `a` of the pieces, or for scratch: they may be performed in
any order (R187, R196). -/
def State.hodSend (s : State) (h : Nat) (j : HodJob) (toMem : Bool) (a : Nat) (bs : List Byte) : State :=
  (s.sendAs j.tile s.nextPid (.hod h j.id) j.agent (if toMem then some j.ctx else none) toMem false true a bs none).bump
    F.HOD_BYTES.BYTES h bs.length

/-- Write bytes at offset `off` of a job's destination; what a translation fault leaves unwritten is not counted. -/
def State.hodWrite (s : State) (h : Nat) (j : HodJob) (off : Nat) (bs : List Byte) : State :=
  let d := j.body
  let a := tbDst d + off
  match tbDstSpace d with
  | 0 =>
    let r := s.xlateRun j.tile 4 3 j.ctx a bs.length .write
    let s := (r.pieces.foldl (fun ((s, bs) : State × List Byte) p =>
      (s.hodSend h j true p.1 (bs.take p.2), bs.drop p.2)) (r.st, bs)).1
    match r.fault with
    | some f => s.hodXfail h j.id f
    | none => s
  | 1 =>
    (busPieces (s.fn 0).mps a bs.length).foldl (fun s p =>
      s.busWrite j.fn (a + p.1) ((bs.drop p.1).take p.2) true) (s.bump F.HOD_BYTES.BYTES h bs.length)
  | _ => s.hodSend h j false (j.sdst + off) bs

/-- Writes of a job that have not been performed. -/
def State.hodWrites (s : State) (h job : Nat) : Bool := s.packets.any fun p => p.unit = .hod h job

/-- Read a whole device-side source: zeros in uncorrectable units (R308). -/
def State.hodRead (s : State) (h : Nat) (j : HodJob) : List Byte × State :=
  let d := j.body
  let ue (s : State) (b : Bool) : State := if b then s.modJob h j.id fun j => { j with ue := true } else s
  match tbSrcSpace d with
  | 0 =>
    let g := s.vaRead none j.tile 4 3 j.ctx (tbSrc d) (tbLen d) .read
    let s := ue g.st g.ue
    match g.fault with
    | some f => (g.data, s.hodXfail h j.id f)
    | none => (g.data, s)
  | _ =>
    let g := s.scrRead j.tile (.at j.ssrc) (tbLen d)
    (g.data, ue g.st g.ue)

/-- Issue what the tags allow: bus reads in order, then the zero-length reads owed (R302, R307). -/
def State.hodPump (s : State) (h job : Nat) : Nat → State
  | 0 => s
  | fuel + 1 =>
    match s.hodJob h job with
    | none => s
    | some j =>
      match j.todo with
      | (off, n) :: rest =>
        match s.busFault j.fn, s.freeTagOf (.hodRead h job off) with
        | some e, _ => s.hodFail h job e (tbSrc j.body + off)
        | none, none => s
        | none, some tag =>
          let s := s.busRead (.hodRead h job off) j.fn (tbSrc j.body + off) n tag
          (s.modJob h job fun j => { j with todo := rest, reads := tag :: j.reads }).hodPump h job fuel
      | [] =>
        match j.flush with
        | [] => s
        | (fn, a) :: rest =>
          match s.busFault fn, s.freeTagOf (.hodFlush h job) with
          | some e, _ => s.hodFail h job (if tbKind j.body = 2 then 5 else e) a
          | none, none => s
          | none, some tag =>
            let s := s.busRead (.hodFlush h job) fn a 0 tag
            (s.modJob h job fun j => { j with flush := rest, flushes := tag :: j.flushes }).hodPump h job fuel

/-- Issue for every active job of a hod. -/
def State.hodPumpAll (s : State) (h : Nat) : State :=
  (s.hodActive h).foldl (fun s j => s.hodPump h j.id (j.todo.length + j.flush.length)) s

/-- The profile a copy samples when it starts (R318). -/
def State.sampleProf (s : State) (d : List Byte) : List Nat :=
  let p := tbProfile d
  let w := s.fld F.CHK_PROF_CFG.WIDTH p + 1
  if tbCheckEn d then
    [w, s.fld F.CHK_PROF_POLY.POLY p, s.fld F.CHK_PROF_CFG.REFIN p, s.fld F.CHK_PROF_CFG.REFOUT p,
      s.fld F.CHK_PROF_CFG.INVERT p, if tbCheckCont d then tbChkStart d else s.fld F.CHK_PROF_INIT.INIT p]
  else []

/-- The next descriptor of a hod may start: the oldest waiting one, nothing held by a fence (R196, R306). -/
def State.hodNext (s : State) (h : Nat) : Option HodJob :=
  if 4 ≤ (s.hodActive h).length || (s.hodActive h).any fun j => tbKind j.body = 2 then none
  else (s.hod h).find? fun j => !j.active

/-- Mark a descriptor started: a COPY item has begun in the present course (R20, R33, R281). -/
def State.hodStart (s : State) (h : Nat) (j : HodJob) : State :=
  let s := s.modJob h j.id fun j => { j with active := true, prof := s.sampleProf j.body }
  let s := if busDst j.body then
      { s with hodDsts := SMap.insert s.hodDsts h (SMap.get s.hodDsts [] h ++ [(j.id, j.fn, tbDst j.body)]) } else s
  match j.src with
  | .item q seq => s.modItem q seq fun i => { i with begun := true, start := s.course }
  | .tile _ _ _ _ => s

/-- Write all of a job's bytes, and owe a bus destination's zero-length read. -/
def State.hodDeliver (s : State) (h : Nat) (j : HodJob) (bs : List Byte) : State :=
  let bus := busDst j.body
  match (if bus then s.busFault j.fn else none) with
  | some e => s.hodFail h j.id e (tbDst j.body)
  | none =>
    let s := s.modJob h j.id fun j =>
      { j with data := [(0, bs)], flush := if bus then [(j.fn, tbDst j.body)] else [] }
    (s.hodWrite h j 0 bs).hodPump h j.id 1

/-- A hod starts its next descriptor, a COPY. -/
def execHodCopy (h : Nat) (s : State) : Res State :=
  .next (match s.hodNext h with
    | none => s
    | some j =>
      if tbKind j.body ≠ 0 || s.starved j.part then s
      else
        let s := s.hodStart h j
        if busSrc j.body then
          let ps := busPieces (s.fn 0).mrrs (tbSrc j.body) (tbLen j.body)
          (s.modJob h j.id fun j => { j with todo := ps }).hodPump h j.id ps.length
        else
          let (bs, s) := s.hodRead h j
          match s.hodJob h j.id with
          | some k => if k.xfail.isSome then s else s.hodDeliver h k bs
          | none => s)

/-- A hod starts its next descriptor, a FILL. -/
def execHodFill (h : Nat) (s : State) : Res State :=
  .next (match s.hodNext h with
    | none => s
    | some j =>
      if tbKind j.body ≠ 1 || s.starved j.part then s
      else
        let n := tbLen j.body
        let v := tbFill j.body
        (s.hodStart h j).hodDeliver h j (((List.replicate (n / 8 + 1) v).flatten).take n))

/-- A job has nothing more to read, so that all its writes are issued. -/
def HodJob.issued (j : HodJob) : Bool := j.todo.isEmpty && j.reads.isEmpty

/-- A hod reaches a FENCE: once earlier transfers have issued every write, it reads each bus destination whose own read has
not completed (R196, R309). -/
def execHodFence (h : Nat) (s : State) : Res State :=
  .next (match s.hodNext h with
    | none => s
    | some j =>
      if tbKind j.body ≠ 2 || (s.hodActive h).any fun k => !k.issued then s
      else
        let owed := (SMap.get s.hodDsts [] h).map Prod.snd
        ((s.hodStart h j).modJob h j.id fun j => { j with flush := owed }).hodPump h j.id owed.length)

/-! ## Ends (R307 to R310) -/

/-- A job leaves its hod: a COPY item completes; a HODREQ counts its bytes, fails its block or raises XLATE. -/
def State.hodEnd (s : State) (h : Nat) (j : HodJob) : State :=
  let s := s.setHod h ((s.hod h).filter fun k => k.id ≠ j.id)
  match j.src with
  | .item q seq => match j.fail, j.xfail with
    | some d, _ => s.finish q seq stHod d 0xFF
    | none, some (c, _) => if c = xWalkUe then s.finish q seq stMemUe c 0xFF else s.finish q seq stXlate c 0xFF
    | none, none => if j.ue then s.finish q seq stMemUe 0 0xFF else s.finish q seq stOk 0 0xFF
  | .tile t ctr _ b => match j.fail, j.xfail with
    | some d, _ => s.failBlock b stHod d (s.fld F.TSQ_STATE.HANDLE t)
    | none, some (c, a) => s.tileExc t false j.pc j.word ⟨.xlate, a, c⟩
    | none, none =>
      let s := if j.ue then s.markUe t else s
      if tbKind j.body = 2 then s else s.count t ctr (tbLen j.body)

/-- The check output of a copy, 16 bytes at CHK_OUT (R307). -/
def State.hodCheck (s : State) (h : Nat) (j : HodJob) : State :=
  match j.prof with
  | [w, poly, refin, refout, inv, v0] =>
    let v := crcFeed w poly (refin = 1) v0 (j.data.map Prod.snd).flatten
    let out := bytesOf 8 (crcResult w (refout = 1) (inv = 1) v) ++ bytesOf 8 v
    let r := s.xlateRun j.tile 4 3 j.ctx (tbChkOut j.body) 16 .write
    match r.fault with
    | some f => r.st.hodXfail h j.id f
    | none => (r.st.putPieces j.agent r.pieces out).bump F.HOD_BYTES.BYTES h 16
  | _ => s

/-- The `k`-th transfer a hod works on completes: everything it wrote is performed, and it has failed, or everything is read,
written and flushed. -/
def execHodTransferComplete (h k : Nat) (s : State) : Res State :=
  .next (match (s.hodActive h)[k]? with
    | none => s
    | some j =>
      if tbKind j.body = 2 || s.hodWrites h j.id then s
      else if j.fail.isSome || j.xfail.isSome then s.hodEnd h j
      else if !j.todo.isEmpty || !j.reads.isEmpty || !j.flushes.isEmpty || !j.flush.isEmpty then s
      else
        let s := { s with hodDsts := SMap.insert s.hodDsts h ((SMap.get s.hodDsts [] h).filter fun d => d.1 ≠ j.id) }
        let s := s.hodCheck h j
        match s.hodJob h j.id with
        | some j => s.hodEnd h j
        | none => s)

/-- A fence releases and completes once every write of the earlier transfers of its hod is performed and its own reads have
completed; a failed one completes too. -/
def execHodFenceRelease (h : Nat) (s : State) : Res State :=
  .next (match (s.hodActive h).find? fun j => tbKind j.body = 2 with
    | none => s
    | some j =>
      let before := (s.hodActive h).takeWhile fun k => k.id ≠ j.id
      if !j.flushes.isEmpty || !j.flush.isEmpty || before.any (fun k => s.hodWrites h k.id) then s
      else { s with hodDsts := SMap.insert s.hodDsts h [] }.hodEnd h j)

/-! ## Completions of a hod's bus reads (R306 to R308) -/

/-- A completion of a transfer's read, with its bytes or a detail code. -/
def State.hodReadDone (s : State) (tag h job off : Nat) (addr : Nat) (r : Except Nat (List Byte)) : State :=
  match s.hodJob h job with
  | none => s
  | some j =>
    let s := s.modJob h job fun j => { j with reads := j.reads.filter (· ≠ tag) }
    if j.fail.isSome || j.xfail.isSome then s
    else match r with
      | .error d => s.hodFail h job d addr
      | .ok bs => (s.modJob h job fun j => { j with data := SMap.insert j.data off bs }).hodWrite h j off bs

/-- A transfer's own zero-length read has completed, well or not: no fence reads its destination any more (R196). -/
def State.hodDstRead (s : State) (h job : Nat) : State :=
  { s with hodDsts := SMap.insert s.hodDsts h ((SMap.get s.hodDsts [] h).filter fun d => d.1 ≠ job) }

/-- A completion of a zero-length read, of a transfer or a fence. -/
def State.hodFlushDone (s : State) (tag h job addr : Nat) (ok : Bool) : State :=
  let s := s.modJob h job fun j => { j with flushes := j.flushes.filter (· ≠ tag) }
  if ok then s else s.hodFail h job 5 addr

/-! ## COPY items (R274, R278, R303, R305) -/

/-- An earlier COPY item of the queue with the same class waits in the front end. -/
def State.copyBehind (s : State) (i : Item) : Bool :=
  ((s.itemsOf i.queue).takeWhile fun k => k.seq ≠ i.seq).any fun k =>
    k.op = 2 && k.stage = .waiting && tbClass k.desc = tbClass i.desc

/-- A checked COPY item can go to its hod. -/
def State.copyReady (s : State) (i : Item) : Bool :=
  (!i.after || s.earlierDone i) && !s.copyBehind i && s.hodWaiting (hodOf (tbClass i.desc) i.queue) < 64

/-- Send a COPY item's body to its hod. -/
def State.copySend (s : State) (i : Item) : State :=
  let h := hodOf (tbClass i.desc) i.queue
  let j : HodJob :=
    { id := s.nextJob, src := .item i.queue i.seq, body := i.desc, ctx := s.qCtx i.queue, fn := s.qOwner i.queue,
      part := s.qPart i.queue, ssrc := 0, sdst := 0, active := false, prof := [], todo := [], data := [], reads := [],
      flushes := [], flush := [], fail := none, xfail := none, ue := false, pc := 0, word := 0 }
  let s := { s with nextJob := s.nextJob + 1 }.setHod h (s.hod h ++ [j])
  s.modItem i.queue i.seq fun i => { i with stage := .active }

/-- A COPY item of queue `q` is checked and sent to its hod, or waits; one that waited is sent. -/
def execCopy (q : Nat) (s : State) : Res State :=
  .next (if isAdmin q || !s.ready then s
    else match s.unchecked q 2 with
    | some i =>
      if !s.ctxValid (s.qCtx q) then s.noContext i
      else if !bodyOk false i.desc then s.finish q i.seq stDesc 0 0xFF
      else
        let i' := { i with stage := .waiting, checked := s.ticks }
        let s := s.modItem q i.seq fun _ => i'
        if s.copyReady i' then s.copySend i' else s
    | none =>
      match (s.itemsOf q).find? fun i => i.op = 2 && i.stage = .waiting && s.copyReady i with
      | some i => s.copySend i
      | none => s)

/-! ## HODREQ (R110, R117, R303, R305) -/

/-- Resolved scratch sides of a HODREQ. -/
def State.hodSides (s : State) (t : Nat) (d : List Byte) : Except TExc (Nat × Nat) :=
  let pa (c : Scr) : Nat := match c with
    | .at a => a
    | .own _ => 0
  let side (use : Bool) (a : Nat) (write : Bool) : Except TExc Nat :=
    if use then (s.conv t t a (tbLen d) false write).map pa else .ok 0
  match side (tbKind d = 0 && tbSrcSpace d = 2) (tbSrc d) false,
    side (tbKind d ≠ 2 && tbDstSpace d = 2) (tbDst d) true with
  | .error e, _ => .error e
  | _, .error e => .error e
  | .ok a, .ok b => .ok (a, b)

/-- Submit a hod descriptor to the engine class SUB[2:1]. -/
def execHodreq (t : Nat) (s : State) : Res State :=
  .next (s.issueOp t 0x90 fun w s =>
    let cls := subOf w / 2
    if cls = 3 then .exc (texc .illegalOpnd 0) s
    else if s.fenced t then .hold wFence
    else (s.descRead t (subOf w % 2 = 1) (s.addrM t w) 64 64).bind fun d s =>
      if !bodyOk true d || (tbKind d ≠ 2 && tbClass d ≠ cls) then .exc (texc .illegalOpnd 0) s
      else match s.hodSides t d with
        | .error e => .exc e s
        | .ok (a, b) =>
          let h := hodOf cls t
          if 64 ≤ s.hodWaiting h || 4 ≤ (s.hodsOf t).length then .hold wCredit
          else match s.blockOf t with
            | none => .done s
            | some blk =>
              let j : HodJob :=
                { id := s.nextJob, src := .tile t (ctrOf w) (s.tile t).clock blk.id, body := d, ctx := blk.ctx,
                  fn := s.qOwner blk.queue, part := blk.part, ssrc := a, sdst := b, active := false, prof := [],
                  todo := [], data := [], reads := [], flushes := [], flush := [], fail := none, xfail := none,
                  ue := false, pc := (s.tile t).pc, word := w }
              .done ({ s with nextJob := s.nextJob + 1 }.setHod h (s.hod h ++ [j])))

/-! ## Standalone check-value units (R316, R317, R320) -/

/-- W of a unit. -/
def State.chkW (s : State) (u : Nat) : Nat := s.fld F.CHK_CFG.WIDTH u + 1

/-- VALUE as it reads: zero at and above W. -/
def State.chkValue (s : State) (u : Nat) : Nat := s.fld F.CHK_VALUE.VALUE u % 2 ^ s.chkW u

/-- RESULT. -/
def State.chkResult (s : State) (u : Nat) : Nat :=
  crcResult (s.chkW u) (s.on F.CHK_CFG.REFOUT u) (s.on F.CHK_CFG.INVERT u) (s.chkValue u)

/-- Feed bytes to a unit. -/
def State.chkFeed (s : State) (u : Nat) (bs : List Byte) : State :=
  if !s.board.alive || 4 ≤ u then s
  else
    s.setReg .CHK_VALUE u
      (BitVec.ofNat 64 (crcFeed (s.chkW u) (s.fld F.CHK_POLY.POLY u) (s.on F.CHK_CFG.REFIN u) (s.chkValue u) bs))

/-- A write of CHK_CFG: its fields are replaced, and with LOAD set VALUE becomes INIT. -/
def execChkLoad (u : Nat) (v : BitVec 64) (s : State) : Res State :=
  .next (if !s.board.alive || 4 ≤ u then s
    else
      let s := s.setReg .CHK_CFG u (v &&& 0x73F)
      if v.toNat.testBit 16 then
        s.setReg .CHK_VALUE u (BitVec.ofNat 64 (s.fld F.CHK_INIT.INIT u % 2 ^ s.chkW u))
      else s)

def execChkData8 (u : Nat) (v : BitVec 8) (s : State) : Res State := .next (s.chkFeed u [v])

/-- Two bytes, bits 7:0 first. -/
def execChkData16 (u : Nat) (v : BitVec 16) (s : State) : Res State := .next (s.chkFeed u (bytesOf 2 v.toNat))

/-- Four bytes, bits 7:0 first. -/
def execChkData32 (u : Nat) (v : BitVec 32) (s : State) : Res State := .next (s.chkFeed u (bytesOf 4 v.toNat))

/-- A write to VALUE: bits at and above W are ignored. -/
def execChkValueWrite (u : Nat) (v : BitVec 64) (s : State) : Res State :=
  .next (if !s.board.alive || 4 ≤ u then s else s.setReg .CHK_VALUE u (BitVec.ofNat 64 (v.toNat % 2 ^ s.chkW u)))

end Sys2Proof.Machine
end

