-- ==== Sys2Proof/Machine/Pcie.lean ====
section
/-! DEFINITION. Machine/Pcie.lean: the host coupling: BAR2, the outbound window, bus completions, configuration requests,
function level resets and the link (R221, R232, R293 to R302, R308, R312, R342, R393, R397, R404). -/
namespace Sys2Proof.Machine

/-! ## Inbound memory requests (R299, R300) -/

/-- Bytes of BAR2. -/
def State.bar2Size (s : State) : Nat := 2 ^ (s.fn 0).bar2

/-- Physical address of a BAR2 offset (R299): the window base with the bits below the BAR size cleared. -/
def State.bar2Pa (s : State) (off : Nat) : Nat :=
  lpddrBase + s.fld F.HOD_BAR2_WIN.BASE 0 * 2 ^ 28 / s.bar2Size * s.bar2Size + off

/-- BAR2 decodes: the package runs, the link is up, the PF is in D0. -/
def State.bar2On (s : State) : Bool := s.board.alive && s.on F.HOD_LINK.UP 0 && !(s.fn 0).d3

/-- What becomes of an inbound request at a physical address: performed, answered with all ones or dropped, the same and
counted in DROPPED or BLOCKED, or cut off by a lintel that is down. -/
inductive Inbound where
  | go | ones | dropped | blocked | cut
deriving DecidableEq

/-- Classify an inbound request of `n` bytes. -/
def State.inbound (s : State) (a n : Nat) (acc : Acs) : Inbound :=
  let r := a / 2 ^ 30
  if 0x01C000000000 ≤ a then .dropped
  else if !s.memOpen || !s.part.populatedRun a n then .ones
  else if !s.rangeOk 8 a acc then
    if !s.on F.SEC_RANGE.PENDING r && s.partState (s.fld F.SEC_RANGE.OWNER r) = pLocked then .blocked else .ones
  else if s.ioCut a then .cut else .go

/-- A request to a LOCKED partition's range is counted (R300). -/
def State.inBlocked (s : State) : State := (s.bump F.HOD_INBOUND.BLOCKED 0 1).raise F.HOD_EVENT.INBOUND_BLOCKED 0

/-- A read that completes with Completer Abort. -/
def State.inAbort (s : State) : State :=
  ((s.bump F.HOD_INBOUND.ABORTED 0 1).raise F.HOD_EVENT.INBOUND_UE 0).emit (.reply 0 2 [])

/-- All ones complete an inbound read. -/
def State.inOnes (s : State) (n : Nat) : State := s.emit (.reply 0 0 (List.replicate n 0xFF))

/-- The agent inbound requests are: of no partition (R300). -/
def hostAgent : Agent := ⟨none, 8⟩

/-- Earlier writes of a requester that arrived are performed (R201). -/
def State.inboundDone (s : State) (req : Nat) : State := s.landAll fun p => p.unit = .inbound req

/-- Earlier inbound writes without Relaxed Ordering are performed, in the order of their arrival: what arrives later through
BAR0 finds them done (R197, R201). -/
def State.inboundOrdered (s : State) : State :=
  s.landAll fun p => !p.ro && (match p.unit with
    | .inbound _ => true
    | _ => false)

/-- Every inbound write that has arrived is performed. -/
def State.inboundAll (s : State) : State :=
  s.landAll fun p => match p.unit with
    | .inbound _ => true
    | _ => false

/-- A read of `len` bytes, after the earlier writes of its requester. -/
def execInboundRead (src : InReq) (len : Nat) (s : State) : Res State :=
  .next (if !s.board.alive || !s.on F.HOD_LINK.UP 0 then s
  else if (s.fn 0).d3 || s.bar2Size < src.off + len then s.emit (.reply 0 1 [])
  else
    let a := s.bar2Pa src.off
    match s.inbound a len .read with
    | .ones => s.inOnes len
    | .dropped => (s.bump F.HOD_INBOUND.DROPPED 0 1).inOnes len
    | .blocked => s.inBlocked.inOnes len
    | .cut => s.inAbort
    | .go =>
      let g := (s.inboundDone src.req).memRead hostAgent a len
      if g.ue then g.st.inAbort else g.st.emit (.reply 0 0 g.data))

/-- An inbound write, which is performed later (R187, R201). -/
def execInboundWrite (src : InReq) (data : List (BitVec 8)) (attr : TlpAttr) (s : State) : Res State :=
  .next (if !s.bar2On || s.bar2Size < src.off + data.length then s
  else if attr.ep then (s.bump F.HOD_INBOUND.DROPPED 0 1).emit (.aer .poisonedWrite)
  else
    let a := s.bar2Pa src.off
    match s.inbound a data.length .write with
    | .ones | .cut => s
    | .dropped => s.bump F.HOD_INBOUND.DROPPED 0 1
    | .blocked => s.inBlocked
    | .go => s.sendAs 0 s.nextPid (.inbound src.req) hostAgent none true false attr.ro a data none)

/-- An AtomicOp request completes with Unsupported Request, wherever it points. -/
def execInboundAtomicop (_off : Nat) (s : State) : Res State :=
  .next (if s.board.alive && s.on F.HOD_LINK.UP 0 then s.emit (.reply 0 1 []) else s)

/-! ## Outbound window (R200, R301, R302, R326) -/

/-- An outbound read fails: all ones for the core, and a record. -/
def State.outFail (s : State) (n len addr detail : Nat) : State :=
  ((s.raise F.HOD_EVENT.OUT_ERR 0).reportSelf 0x0502 2 (uFn 0) addr detail).emit (.core n (List.replicate len 0xFF))

/-- A core's load, or store of `st`, at an address of the outbound window: I/O accesses are made one after another, so that
none is made while an outbound read of the core is out (R326). -/
def execOutboundAccess (who : OutCore) (pa size : Nat) (st : Option (BitVec 64)) (s : State) : Res State :=
  let core := who.core
  let addr := s.fld F.HOD_OUTWIN.BASE 0 * 2 ^ 43 + (pa - 0x080000000000)
  .next (if !s.coreRuns core || s.readOut core || pa < 0x080000000000 || 0x100000000000 ≤ pa then s
  else if !(size = 1 || size = 2 || size = 4 || size = 8) || pa % size ≠ 0 then
    s.emit (.coreFault core (if st.isSome then .storeAmo else .load) (taker who.mode who.deleg) who.va)
  else match st with
    | some v => if s.canMaster 0 then s.busWrite 0 addr (bytesOf size v.toNat) false else s
    | none =>
      if !s.canMaster 0 then s.outFail core size addr 1
      else match s.freeTagOf (.core core) with
        | none => s
        | some tag => s.busRead (.core core) 0 addr size tag)

/-! ## Completions (R293, R301, R308) -/

/-- Detail code of a completion that brings no good data (R308); none for a good one. -/
def BusStatus.detail : BusStatus → Option Nat
  | .ok => none
  | .ur => some 1
  | .ca => some 2
  | .poison => some 4
  | .ide => some 6

/-- The owner of a request receives its completion: `d` is the detail code of a failure. Data of a core's read that came
poisoned or failed its integrity check is open. A completion for an abandoned tag is discarded and reported (R417); its
timeout brings nothing. -/
def State.completed (s : State) (id : Nat) (r : BusReq) (d : Option Nat) (bs : List Byte) : State :=
  match r.owner with
  | .hodRead h job off => s.hodReadDone id h job off r.addr (match d with
    | some e => .error e
    | none => .ok bs)
  | .hodFlush h job => (if d = some 3 then s else s.hodDstRead h job).hodFlushDone id h job r.addr d.isNone
  | .ring q => if (s.queue q).fetchTag = some id then s.slotRead q (if d.isNone then some bs else none) else s
  | .record q => s.recordRead q id d.isNone
  | .core n =>
    let s := s.modCore n fun c => { c with hold := none }
    match d with
    | none => s.emit (.core n bs)
    | some e =>
      if e ≤ 3 then s.outFail n r.len r.addr e
      else s.drawn.emit (.core n ((List.range r.len).map (Config.freeByte s.freeCtr)))
  | .abandoned => if d = some 3 then s else s.emit (.aer .unexpectedCompletion)

/-- A request leaves the outstanding ones. -/
def State.freeTag (s : State) (id : Nat) : State := { s with bus := SMap.erase s.bus id }

/-- What stalled for a tag of the share that has one again goes on (R15, R302). -/
def State.tagFreed (s : State) (id : Nat) : State :=
  if id < 12288 then s.hodPumpAll (id / 1024) else if id < 14336 then s.rewriteStalled else s

/-- A completion arrives for the outstanding request `id`. -/
def execBusCompletion (id : Nat) (st : BusStatus) (data : List (BitVec 8)) (s : State) : Res State :=
  .next (match SMap.find? s.bus id with
    | none => s
    | some r =>
      let d := BusStatus.detail st
      if !s.on F.HOD_LINK.UP 0 || (d.isNone && data.length ≠ r.len) then s
      else ((s.freeTag id).completed id r d data).tagFreed id)

/-- The outstanding request `id` times out. -/
def execCompletionTimeout (id : Nat) (s : State) : Res State :=
  .next (match SMap.find? s.bus id with
    | none => s
    | some r => if !s.board.alive then s else ((s.freeTag id).completed id r (some 3) []).tagFreed id)

/-! ## Function level resets (R295, R397, R405) -/

/-- A function's configuration space and MSI-X table return to their reset values. -/
def State.resetFn (s : State) (f : Nat) : State :=
  let keep (k : Nat) : Bool := decide (k / 2048 ≠ f)
  { s with
    fns := SMap.erase s.fns f
    msixAddr := s.msixAddr.filter fun p => keep p.1
    msixData := s.msixData.filter fun p => keep p.1
    msixPend := s.msixPend.filter keep }

/-- Admin queue `a` is disabled: its items and unwritten records are discarded, and nothing is owed to it. -/
def State.dropAdmin (s : State) (a : Nat) : State :=
  let q := adminQ a
  let owed (d : Destroy) : Destroy := if d.admin = some q then { d with admin := none } else d
  let move (r : RSet) : RSet := match r.moveAdmin with
    | some (q', _) => if q' = q then { r with moveAdmin := none } else r
    | none => r
  let tag (p : Nat × BusReq) : Nat × BusReq := match p.2.owner with
    | .ring q' | .record q' => if q' = q then (p.1, { p.2 with owner := .abandoned }) else p
    | _ => p
  let s := { s with
    queues := s.queues.map fun (e : Nat × Queue) => (e.1, { e.2 with destroy := e.2.destroy.map owed })
    sets := s.sets.map move
    bus := s.bus.map tag }
  (s.setFld F.CFE_AQ_CFG.ENABLE q 0).freeQueue q

/-- Work queues that satisfy `p` drain as under DESTROY_QUEUE, with no destroy completion. -/
def State.drainQueues (s : State) (p : Nat → Bool) : State :=
  let qs := (s.queues.map Prod.fst).filter fun q => !isAdmin q && p q && s.qState q ≠ qFree && s.qState q ≠ qDraining
  qs.foldl (fun s q => s.drain q ⟨none, 0, 0, 0⟩) s

/-- The queues of function `f` drain, and its admin queue is disabled (R295). -/
def State.drainFn (s : State) (f : Nat) : State :=
  let s := s.dropAdmin f
  s.drainQueues fun q => s.qOwner q = f

/-- The TDI of partition `p` leaves its locked state, for ERROR unless it was stopped: its queues drain and it closes after the last token (R397). -/
def State.closeTdi (s : State) (p : Nat) : State :=
  if s.partState p ≠ pLocked || s.closePend.contains p then s
  else
    let tdi := s.fld F.SEC_PART.TDI p
    let s := if tdi = 1 || tdi = 2 then s.setFld F.SEC_PART.TDI p 3 else s
    let s := { s with closePend := s.closePend ++ [p] }.drainFn (p + 1)
    (s.drainQueues fun q => s.qPart q = p).closeDrained

/-- Bus address of the request of a job that fails with its function or link: its oldest read that is out, else its next. -/
def State.failAddr (s : State) (j : HodJob) : Nat :=
  match j.reads.getLast?.bind (SMap.find? s.bus), j.todo with
  | some r, _ => r.addr
  | none, (off, _) :: _ => tbSrc j.body + off
  | none, [] => if busSrc j.body then tbSrc j.body else tbDst j.body

/-- Transfers with a bus side that are being worked on and satisfy `p` fail. -/
def State.failBus (s : State) (detail : Nat) (p : HodJob → Bool) : State :=
  s.hods.foldl (fun s (e : Nat × List HodJob) => e.2.foldl (fun s j =>
    if j.active && p j && (busSrc j.body || busDst j.body) then s.hodFail e.1 j.id detail (s.failAddr j) else s) s) s

/-- Bus accesses that hods make for a function fail while it is reset (R308). -/
def State.failFn (s : State) (f : Nat) : State := s.failBus 8 fun j => j.fn = f

/-- Function level reset of function `f` alone. -/
def State.flr (s : State) (f : Nat) : State :=
  let s := (s.failFn f).resetFn f
  let s := if 1 ≤ f then s.closeTdi (f - 1) else s
  s.drainFn f

/-- Function level reset of VF `n`. -/
def execFlrVf (n : Nat) (s : State) : Res State :=
  .next (if !s.board.alive || n = 0 || 8 < n || !(s.fn 0).vfEn then s else s.flr n)

/-- Every VF is reset. -/
def State.flrVfs (s : State) : State := [1, 2, 3, 4, 5, 6, 7, 8].foldl State.flr s

/-- Function level reset of the PF, and of every VF. -/
def execFlrPf (s : State) : Res State := .next (if !s.board.alive then s else s.flrVfs.flr 0)

/-! ## Configuration requests (R293, R299, R404, R405) -/

/-- Messages held in the pending-bit array of a function that may now go out. -/
def State.msixFlush (s : State) (f : Nat) : State :=
  let mine := s.msixPend.filter fun k => k / 2048 = f
  mine.foldl (fun s k => s.msix f (k % 2048)) { s with msixPend := s.msixPend.filter fun k => k / 2048 ≠ f }

/-- A write to a function's configuration space. -/
def State.configWrite (s : State) (fn : Nat) (req : CfgReq) : State :=
  let p := s.fn fn
  match req with
  | .read _ | .other => s
  | .timeout v => s.setFn fn { p with cto := v % 16 }
  | .ecrc gen check => s.setFn fn { p with ecrcGen := gen, ecrcCheck := check }
  | .bme on => (s.setFn fn { p with bme := on }).msixFlush fn
  | .d3 on => s.setFn fn { p with d3 := on }
  | .msix en mask => (s.setFn fn { p with msixEn := en, msixMask := mask }).msixFlush fn
  | .vfEnable on =>
    if fn ≠ 0 || 3 ≤ s.fld F.SEC_STATE.STAGE 0 then s
    else if p.vfEn && !on then s.flrVfs.setFn 0 { p with vfEn := false }
    else s.setFn 0 { p with vfEn := on }
  | .bar2 order => if fn = 0 && 28 ≤ order && order ≤ 41 then s.setFn 0 { p with bar2 := order } else s
  | .sizes mps mrrs =>
    if fn = 0 && (mps = 128 || mps = 256 || mps = 512) &&
        (mrrs = 128 || mrrs = 256 || mrrs = 512 || mrrs = 1024 || mrrs = 2048 || mrrs = 4096) then
      s.setFn 0 { p with mps := mps, mrrs := mrrs }
    else s

/-- What a configuration read of a field returns (R293, R299); the payload and read request sizes are the PF's. -/
def State.configRead (s : State) (fn : Nat) (f : CfgField) : Nat :=
  let p := s.fn fn
  match f with
  | .deviceClass => 0x120000
  | .totalVfs => if fn = 0 then 8 else 0
  | .firstVfOffset | .vfStride => if fn = 0 then 1 else 0
  | .readBoundary => 128
  | .bme => bitN p.bme
  | .d3 => bitN p.d3
  | .msixEnable => bitN p.msixEn
  | .msixMask => bitN p.msixMask
  | .vfEnable => bitN p.vfEn
  | .bar2Order => if fn = 0 then p.bar2 else 0
  | .payload => (s.fn 0).mps
  | .readRequest => (s.fn 0).mrrs
  | .completionTimeout => p.cto
  | .ecrcGen => bitN p.ecrcGen
  | .ecrcCheck => bitN p.ecrcCheck

/-- Ticks of the one second in which configuration requests may be answered with Request Retry Status. -/
def secondTicks : Nat := 100000000

/-- A configuration request to a function: retried early in start-up, Unsupported where the function is not there. -/
def execConfigRequest (fn : Nat) (req : CfgReq) (s : State) : Res State :=
  .next (if !s.board.alive || !s.on F.HOD_LINK.UP 0 then s
  else if s.fld F.CFG_STATE.PHASE 0 ≤ 3 && s.ticks < secondTicks then s.emit (.reply fn 3 [])
  else if 8 < fn || (fn ≠ 0 && !(s.fn 0).vfEn) then s.emit (.reply fn 1 [])
  else match req with
    | .read f => s.emit (.reply fn 0 (bytesOf 4 (s.configRead fn f)))
    | _ => (s.configWrite fn req).emit (.reply fn 0 []))

/-! ## The link (R293, R308, R312, R404) -/

/-- The link is lost: transfers with a bus side that are being worked on fail with LINK_DOWN. -/
def State.linkDown (s : State) : State := (s.setFld F.HOD_LINK.UP 0 0).failBus 7 fun _ => true

/-- The link leaves DL_Active; before READY it only retrains. -/
def execLinkLeavesDlActive (s : State) : Res State :=
  .next (if s.board.alive && s.on F.HOD_LINK.UP 0 then s.linkDown else s)

/-- The link reaches or returns to DL_Active, which needs PERST_N deasserted, at a supported rate and width, which the
training gives: open values. -/
def execLinkUp (s : State) : Res State :=
  .next (if !s.board.alive || s.on F.HOD_LINK.UP 0 then s
  else
    let s := { s with board := { s.board with perst := false } }
    let speed := 5 + s.freeNat % 3
    let width := 2 + s.drawn.freeNat % 3
    let s := if s.fld F.HOD_LINK.SPEED 0 = 0 then s else s.bump F.HOD_LINK.RECOVERIES 0 1
    let s := ((s.drawn.drawn.raise F.HOD_LINK.UP 0).setFld F.HOD_LINK.SPEED 0 speed).setFld F.HOD_LINK.WIDTH 0 width
    s.setFld F.HOD_LINK.FLIT 0 (bitN (6 ≤ speed)))

end Sys2Proof.Machine
end

