-- ==== Sys2Proof/Machine/Admin.lean ====
section
/-! DEFINITION. Machine/Admin.lean: the admin commands on queues, contexts and resident sets (R239, R269, R275, R286, R290,
R291, R294, R396). -/
namespace Sys2Proof.Machine

/-! ## Checking order (R290) -/

/-- What the checks of an admin command find. -/
inductive Check where
  | ok
  | fail (status result : Nat)

/-- The first failing check decides: rights, then arguments by byte offset, then the command's own conditions. -/
def checks (permitted : Bool) (args : List (Nat × Bool)) (state : Bool) : Check :=
  if !permitted then .fail stNotPerm 0
  else match args.find? fun a => !a.2 with
    | some a => .fail stBadArg a.1
    | none => if state then .ok else .fail stRefused 0

/-- Partition an admin queue speaks for: 8 for A0. -/
def adminPart (a : Nat) : Nat := if a = 0 then 8 else a - 1

/-- Admin queue `a` offers an unchecked command `op`, and its partition exists: it is checked, and acts or completes with
the failing status. -/
def State.admin (s : State) (a op : Nat) (check : List Byte → State → Check) (act : Nat → List Byte → State → State) :
    State :=
  if 9 ≤ a || !s.ready then s
  else match s.unchecked (adminQ a) op with
    | none => s
    | some i =>
      if a ≠ 0 && s.partState (a - 1) = pFree then s.finishAdmin (adminQ a) i.seq stRefused 0
      else match check i.desc s with
        | .fail st r => s.finishAdmin (adminQ a) i.seq st r
        | .ok => act i.seq i.desc s

/-- An object of partition `p` is one the admin queue may name (R290). -/
def mayName (a p : Nat) : Bool := a = 0 || p = adminPart a

/-- A0 acts on an object of a LOCKED partition (R396). -/
def State.lockedTo (s : State) (a p : Nat) : Bool := a = 0 && p ≠ 8 && s.partState p = pLocked

/-! ## Queues -/

/-- The queue exists and is one the admin queue may not name. -/
def State.foreignQueue (s : State) (a q : Nat) : Bool := q < 1024 && s.qState q ≠ qFree && !mayName a (s.qPart q)

/-- An energy counter and what tenants see of it start at 0 (R366, R400). -/
def State.zeroEnergy (s : State) (k : RegKind) (i key : Nat) : State :=
  { s.setReg k i 0 with eview := SMap.erase s.eview key }

/-- Set a new queue's registers (R291, R283): ACTIVE, HEAD and tail at FIRST_SEQ, no records and no energy. -/
def State.makeQueue (s : State) (a : Nat) (d : List Byte) : State :=
  let q := le d 16 2
  let ctx := le d 19 1
  let fl := le d 22 1
  let first := le d 44 4
  let s := (s.setReg .CFE_Q_CFG q 0).setFld F.CFE_Q_CFG.OWNER q a
  let s := (s.setFld F.CFE_Q_CFG.PARTITION q (s.ctxTag ctx)).setFld F.CFE_Q_CFG.CTX q ctx
  let s := (s.setFld F.CFE_Q_CFG.MSIX q (le d 40 2)).setFld F.CFE_Q_CFG.FETCH_AHEAD q (le d 42 1)
  let s := (s.setFld F.CFE_Q_CFG.CLASS q (le d 18 1)).setFld F.CFE_Q_CFG.MSIX_EN q (fl / 4 % 2)
  let s := (s.setFld F.CFE_Q_CFG.CQ_SPACE q (fl / 2 % 2)).setFld F.CFE_Q_CFG.SQ_SPACE q (fl % 2)
  let s := (s.setFld F.CFE_Q_CFG.CQ_ORDER q (le d 21 1)).setFld F.CFE_Q_CFG.SQ_ORDER q (le d 20 1)
  let s := (s.setFld F.CFE_Q_SQ_BASE.BASE q (le d 24 8 / 4096)).setFld F.CFE_Q_CQ_BASE.BASE q (le d 32 8 / 4096)
  let s := ((s.setReg .CFE_Q_CPL q 0).setReg .CFE_Q_STATE q 0).zeroEnergy .PWR_EQ q q
  let s := (s.setFld F.CFE_Q_CTL.TIMEOUT q (le d 23 1)).setFld F.CFE_Q_STATE.HEAD q first
  (s.setQueue q { Queue.reset with tail := first, timeout := le d 23 1 }).setQState q qActive

/-- CREATE_QUEUE on admin queue `a`. -/
def execCreateQueue (a : Nat) (s : State) : Res State :=
  .next (s.admin a 0x01 (fun d s =>
      let q := le d 16 2
      let cls := le d 18 1
      let ctx := le d 19 1
      let grp := s.groupOf q
      let valid := s.ctxValid ctx
      let own := match grp with
        | some g => !valid || s.ctxTag ctx = (s.c0i g).owner
        | none => true
      checks (!s.foreignQueue a q && (!valid || mayName a (s.ctxTag ctx)) && (a = 0 || cls ≠ 0))
        [(16, q < 1024 && (cls ≠ 0 || grp.isSome)), (18, cls < 4), (19, cls ≠ 0 || own),
          (20, 4 ≤ le d 20 1 && le d 20 1 ≤ 16), (21, 4 ≤ le d 21 1 && le d 21 1 ≤ 16), (23, 1 ≤ le d 23 1),
          (24, le d 24 8 % 4096 = 0), (32, le d 32 8 % 4096 = 0), (40, le d 40 2 < 2048),
          (42, 1 ≤ le d 42 1 && le d 42 1 ≤ 64)]
        (s.qState q = qFree && valid && !s.lockedTo a (s.ctxTag ctx)))
    fun seq d s => (s.makeQueue a d).finishAdmin (adminQ a) seq stOk 0)

/-- DESTROY_QUEUE: completes when the queue has drained. -/
def execDestroyQueue (a : Nat) (s : State) : Res State :=
  .next (s.admin a 0x02 (fun d s =>
      let q := le d 16 2
      checks (!s.foreignQueue a q) [(16, q < 1024)]
        (s.qState q ≠ qFree && s.qState q ≠ qDraining && !s.lockedTo a (s.qPart q)))
    fun seq d s =>
      (s.modItem (adminQ a) seq fun i => { i with stage := .active }).drain (le d 16 2) ⟨some (adminQ a), seq, 0, 0⟩)

/-- RESET_QUEUE: from FAULTED back to ACTIVE at NEW_SEQ. -/
def execResetQueue (a : Nat) (s : State) : Res State :=
  .next (s.admin a 0x03 (fun d s =>
      let q := le d 16 2
      checks (!s.foreignQueue a q) [(16, q < 1024)] (s.qState q = qFaulted && !s.lockedTo a (s.qPart q)))
    fun seq d s =>
      let q := le d 16 2
      let n := le d 20 4
      let s := ((s.setFld F.CFE_Q_STATE.HEAD q n).setFld F.CFE_Q_STATE.FAULT q 0).setQState q qActive
      (s.modQueue q fun x => { x with tail := n, refetch := none, fetchTag := none, room := 0 }).finishAdmin (adminQ a) seq stOk 0)

/-! ## Contexts -/

/-- CREATE_CONTEXT. -/
def execCreateContext (a : Nat) (s : State) : Res State :=
  .next (s.admin a 0x08 (fun d s =>
      let c := le d 16 1
      let p := le d 17 1
      checks (mayName a p && (!s.ctxValid c || mayName a (s.ctxTag c)))
        [(17, p ≤ 8), (24, le d 24 8 < 2 ^ 44), (32, le d 32 8 % 2 ^ 30 = 0 && le d 32 8 ≤ 2 ^ 57 - 2 ^ 30)]
        (!s.ctxValid c && !s.lockedTo a p))
    fun seq d s =>
      let c := le d 16 1
      let s := s.setReg .XLT_CTX_ROOT c
        (BitVec.ofNat 64 (2 ^ 63 + 10 * 2 ^ 56 + le d 17 1 * 2 ^ 48 + le d 24 8))
      (s.setReg .XLT_CTX_DATUM c (BitVec.ofNat 64 (le d 32 8))).finishAdmin (adminQ a) seq stOk 0)

/-- A context ceases to exist, and everything cached of it is dropped (R252). -/
def State.dropContext (s : State) (c : Nat) : State :=
  ((s.setReg .XLT_CTX_ROOT c 0).setReg .XLT_CTX_DATUM c 0).dropCtx c

/-- A queue that is not FREE is bound to the context. -/
def State.ctxBound (s : State) (c : Nat) : Bool :=
  s.queues.any fun e => !isAdmin e.1 && s.qState e.1 ≠ qFree && s.qCtx e.1 = c

/-- DESTROY_CONTEXT. -/
def execDestroyContext (a : Nat) (s : State) : Res State :=
  .next (s.admin a 0x09 (fun d s =>
      let c := le d 16 1
      checks (!s.ctxValid c || mayName a (s.ctxTag c)) []
        (s.ctxValid c && !s.ctxBound c && !s.lockedTo a (s.ctxTag c)))
    fun seq d s => (s.dropContext (le d 16 1)).finishAdmin (adminQ a) seq stOk 0)

/-! ## Resident sets (R177, R263, R269) -/

/-- Tiles of a partition that a resident set of `banks` banks could take now, those of the home die first. -/
def State.setTiles (s : State) (p banks home n : Nat) : Option (List Nat) :=
  let held := s.heldTiles
  let ok (t : Nat) : Bool := s.tileOwnerOf t = p && (s.c0Of t).isNone && !s.quadOff.contains (quadOf t) &&
    !s.quadWake.contains (quadOf t) && !s.faulty.contains t && !held.contains t && banks ≤ s.freeBanks t &&
    !(s.sets.any fun r => r.members.contains t || (r.moving.getD []).contains t)
  let free := (List.range s.part.tiles).filter ok
  let pick := (free.filter fun t => t / 200 = home) ++ free.filter fun t => t / 200 ≠ home
  if n ≤ pick.length then some ((pick.take n).mergeSort fun x y => x ≤ y) else none

/-- Give a tile the plinth region of a set, not yet valid (R267); contents of another partition are zeroed (R179). -/
def State.bindPlinth (s : State) (t part banks id : Nat) (c0 : Bool) : State :=
  (s.claimTile t part).setReg .SCP_PLINTH t
    (BitVec.ofNat 64 (bitN c0 * 2 ^ 61 + banks * 2 ^ 52 + part * 2 ^ 44 + id))

/-- A resident set comes into being. -/
def State.makeSet (s : State) (id part : Nat) (tiles : List Nat) (banks : Nat) (c0 : Bool) : State :=
  let s := tiles.foldl (fun s t => s.bindPlinth t part banks id c0) s
  { s with sets := s.sets ++ [⟨id, part, tiles, banks, c0, none, none, false, false, []⟩] }

/-- A resident set is released: its tiles' banks rejoin non-plinth scratch; a move of it ends with its command refused. -/
def State.dropSet (s : State) (r : RSet) : State :=
  let s := (r.members ++ if r.copied then r.moving.getD [] else []).foldl State.dropPlinth s
  let s := { s with sets := s.sets.filter fun x => x.id ≠ r.id }
  match r.moveAdmin with
  | some (q, seq) => s.finishAdmin q seq stRefused 0
  | none => s

/-- The set exists and is another partition's. -/
def State.foreignSet (s : State) (a : Nat) (d : List Byte) : Bool :=
  (s.rset (le d 16 4)).any fun r => !mayName a r.part

/-- CREATE_RESIDENT_SET. -/
def execCreateResidentSet (a : Nat) (s : State) : Res State :=
  .next (s.admin a 0x10 (fun d s =>
      checks (!s.foreignSet a d)
        [(20, 1 ≤ le d 20 1 && le d 20 1 ≤ 12), (21, le d 21 1 = 0xFF || le d 21 1 < s.part.dies),
          (22, 1 ≤ le d 22 2 && le d 22 2 ≤ 800)]
        (s.rset (le d 16 4)).isNone)
    fun seq d s =>
      match s.setTiles (adminPart a) (le d 20 1) (le d 21 1) (le d 22 2) with
      | none => s.finishAdmin (adminQ a) seq stNoRes 0
      | some ts =>
        (s.makeSet (le d 16 4) (adminPart a) ts (le d 20 1) false).finishAdmin (adminQ a) seq stOk (ts.headD 0))

/-- A block naming the set is admitted or kept (R265, R290). -/
def State.setBusy (s : State) (id : Nat) : Bool :=
  let names (im : List Byte) (k : Nat) : Bool := bkResident (imBlock im k) && bkSet (imBlock im k) = id
  (s.blocks.any fun b => b.set = some id) ||
    (s.plan.any fun p => match s.item p.queue p.seq with
      | some i => names i.image p.idx
      | none => false) ||
    s.items.any fun i => i.kept.isSome && (names i.image i.next || names i.image (i.next - 1))

/-- The set a command names, unless it is a C0 group's, which no command acts on (R177, R269). -/
def State.namedSet (s : State) (d : List Byte) : Option RSet := (s.rset (le d 16 4)).filter fun r => !r.c0

/-- RELEASE_RESIDENT_SET. -/
def execReleaseResidentSet (a : Nat) (s : State) : Res State :=
  .next (s.admin a 0x11 (fun d s =>
      checks (!s.foreignSet a d) [] (match s.namedSet d with
        | some r => !s.setBusy r.id && r.moving.isNone && !s.lockedTo a r.part
        | none => false))
    fun seq d s => match s.namedSet d with
      | some r => (s.dropSet r).finishAdmin (adminQ a) seq stOk 0
      | none => s)

/-- MOVE_RESIDENT_SET: the move waits for C3 work, and completes when it switches. -/
def execMoveResidentSet (a : Nat) (s : State) : Res State :=
  .next (s.admin a 0x12 (fun d s =>
      checks (!s.foreignSet a d) [(21, le d 21 1 = 0xFF || le d 21 1 < s.part.dies)] (match s.namedSet d with
        | some r => r.moving.isNone && !s.lockedTo a r.part
        | none => false))
    fun seq d s => match s.namedSet d with
      | none => s
      | some r => match s.setTiles r.part r.banks (le d 21 1) r.members.length with
        | none => s.finishAdmin (adminQ a) seq stNoRes 0
        | some ts =>
          let s := s.modItem (adminQ a) seq fun i => { i with stage := .active }
          let put (x : RSet) : RSet := if x.id = r.id then { x with moving := some ts, moveAdmin := some (adminQ a, seq) } else x
          { s with sets := s.sets.map put })

/-- ECHO. -/
def execEcho (a : Nat) (s : State) : Res State :=
  .next (s.admin a 0x30 (fun _ _ => .ok) fun seq d s => s.finishAdmin (adminQ a) seq stOk (le d 16 8))

end Sys2Proof.Machine
end

