-- ==== Sys2Proof/Machine/Mtc.lean ====
section
/-! DEFINITION. Machine/Mtc.lean: the commands of the mortar slices, the write-combining buffers, patrol scrub, the
memory-side adders and the invalidation of translations (R218, R227, R231, R235 to R237, R250). -/
namespace Sys2Proof.Machine

/-- A write-combining entry leaves the buffer (R227). -/
def execWcDrain (line : Nat) (s : State) : Res State :=
  .next (if s.wc.any fun e => e.1 = line then s.wcLeave line else s)

/-! ## Slice commands (R217, R218) -/

/-- Write back the dirty lines that satisfy `p`; LOST lines are never dirty. -/
def State.writeBackAll (s : State) (p : Nat → Bool) : State := (s.dirtyLines.filter p).foldl State.writeBack s

/-- Lines that a slice or the directory holds. -/
def State.heldLines (s : State) : List Nat :=
  s.lines.map Prod.fst ++ (s.gdir.map Prod.fst).filter fun l => (SMap.find? s.lines l).isNone

/-- Recall from the cores, write back and invalidate the lines that satisfy `p`. -/
def State.evictAll (s : State) (p : Nat → Bool) : State := (s.heldLines.filter p).foldl State.evictLine s

/-- The rebuild reset's part (R217): every dirty line is written back; LOST lines and those a Ghenath cache holds are kept,
copies discarded, every other line invalidated. -/
def State.rebuildSlices (s : State) : State :=
  let s := s.writeBackAll fun _ => true
  let keep (l : Nat) : Bool := s.lost.contains l || (SMap.find? s.gdir l).isSome
  { s with
    lines := s.lines.filter fun e => keep e.1
    lineUe := s.lineUe.filter keep
    lineCe := s.lineCe.filter keep
    copies := []
    copyUe := [] }

/-- Start a command on a slice, unless one runs. -/
def State.mtcStart (s : State) (d n : Nat) (f : State → State) : State :=
  if !s.board.alive || s.part.dies ≤ d then s
  else if s.on F.MTC_CMD.BUSY d then s.raise F.MTC_EVENT.CMD_REJECT d
  else (f s).raise F.MTC_CMD.BUSY d |>.setFld F.MTC_CMD.RANGE d n

/-- A line of the slice of die `d` in 1 GiB range `n`. -/
def State.inSlice (s : State) (d n l : Nat) : Bool := s.part.homeDie l = d && l / 2 ^ 30 = n

/-- Write back every line dirty at the start of the command; `n` is the RANGE written with it. -/
def execWritebackAll (d n : Nat) (s : State) : Res State :=
  .next (s.mtcStart d n fun s => s.writeBackAll fun l => s.part.homeDie l = d)

def execWritebackRange (d n : Nat) (s : State) : Res State :=
  .next (s.mtcStart d n fun s => s.writeBackAll (s.inSlice d n))

/-- Write back and invalidate, core copies recalled first. -/
def execEvictRange (d n : Nat) (s : State) : Res State :=
  .next (s.mtcStart d n fun s => s.evictAll (s.inSlice d n))

/-- LOST lines that satisfy `p` are dropped, unwritten. -/
def State.dropLost (s : State) (p : Nat → Bool) : State :=
  let gone (l : Nat) : Bool := s.lost.contains l && p l
  { s with lost := s.lost.filter fun l => !p l, lines := s.lines.filter fun e => !gone e.1 }

/-- Drop LOST lines without writing them. -/
def execDiscardLostRange (d n : Nat) (s : State) : Res State :=
  .next (s.mtcStart d n fun s => s.dropLost (s.inSlice d n))

/-! ## Patrol scrub (R231) -/

/-- Controllers of a C-die that the part has, as unit indices (R422). -/
def Part.controllers (p : Part) (d : Nat) : List Nat :=
  ((List.range 3).map (3 * d + ·)).filter (fun c => (bits p.units 27 16).testBit c) ++
    (((List.range 2).map (2 * d + ·)).filter fun c => (bits p.units 39 32).testBit c).map (16 + ·)

/-- C-die of a controller. -/
def ctlDie (c : Nat) : Nat := if c < 16 then c / 3 else (c - 16) / 2

/-- Reference ticks in an hour. -/
def hourTicks : Nat := 360000000000

/-- First address beyond the ranges a controller's granules lie in. -/
def Part.ctlEnd (p : Part) (c : Nat) : Nat := if c < 16 then p.hbmEnd else p.lpddrEnd

/-- First address of those ranges. -/
def ctlBase (c : Nat) : Nat := if c < 16 then hbmBase else lpddrBase

/-- Granules of controller `c` below address `hi`: a whole row of the interleave has as many for every controller (R222,
R223), the last one is counted out. -/
def Part.granulesTo (p : Part) (c hi : Nat) : Nat :=
  let (row, per) := if c < 16 then (96 * p.dies, 32) else (2 * p.dies, 1)
  let g := (hi - ctlBase c) / 512
  g / row * per + ((List.range (g % row)).filter fun i => p.controller (ctlBase c + 512 * (g / row * row + i)) = c).length

/-- Granules of controller `c` that lie from address `lo` up to `hi`. -/
def Part.granules (p : Part) (c lo hi : Nat) : Nat := p.granulesTo c hi - p.granulesTo c lo

/-- A controller's patrol engine reads its granules on to an address, in rising address order from where its pass
stands, or to the end of the pass. It does not run while C3 work is withheld; a pass is late all the same
(R231; the order within a pass: log entry 90). -/
def execPatrolScrub (ctl : Nat) (run : ScrubRun) (s : State) : Res State :=
  let d := ctlDie ctl
  let last := run.last
  .next (if !s.board.alive || s.fld F.MEM_MODE.MODE d ≠ 2 || !(s.part.controllers d).contains ctl then s
  else
    let late := decide (max 1 (s.fld F.MEM_SCRUB.PERIOD d) * hourTicks < s.ticks - SMap.get s.scrubStart 0 ctl)
    if s.c3Held then (if late then s.raise F.MEM_SCRUB.BEHIND d else s)
    else
      let lo := SMap.get s.scrubPos (ctlBase ctl) ctl
      let hi := if last then s.part.ctlEnd ctl else max lo (min (run.upto / 512 * 512) (s.part.ctlEnd ctl))
      let mine (u : Nat) : Bool := s.part.controller u = ctl && lo ≤ u && u < hi
      let ode (s : State) : State := s.bump F.MEM_ECC.ODE_CE d (s.memOde.filter mine).length
      let s := (s.memUe.filter mine).foldl (fun s u => s.meetMemUe u true) (ode s)
      let s := (s.memCe.filter mine).foldl State.fixMemCe s
      let s := s.bump F.MEM_RD_BYTES.BYTES d (512 * s.part.granules ctl lo hi)
      let s := { s with scrubPos := SMap.insert s.scrubPos ctl (if last then ctlBase ctl else hi) }
      if last then
        let n := fun c => SMap.get s.scrubPasses 0 c + bitN (c = ctl)
        let least := (s.part.controllers d).foldl (fun m c => min m (n c)) (n ctl)
        let s := { s with
          scrubPasses := SMap.insert s.scrubPasses ctl (n ctl), scrubStart := SMap.insert s.scrubStart ctl s.ticks }
        (s.setFld F.MEM_SCRUB.PASSES d (min least (2 ^ 32 - 1))).setFld F.MEM_SCRUB.BEHIND d (bitN late)
      else if late then s.raise F.MEM_SCRUB.BEHIND d else s)

/-! ## Memory-side adders (R235 to R237) -/

/-- Size of an element type: INT32, INT64, FP32. -/
def elemSize (ty : Nat) : Nat := if ty = 1 then 8 else 4

/-- Sum of two elements. -/
def elemAdd (ty a b : Nat) : Nat :=
  match ty with
  | 0 => (a + b) % 2 ^ 32
  | 1 => (a + b) % 2 ^ 64
  | _ => fadd a b

/-- Start an adder command on `n` bytes unless R237 refuses it. -/
def State.addStart (s : State) (d ty n : Nat) (home : Bool) (f : State → State) : State :=
  let a := s.fld F.MEM_ADD_ADDR.ADDR d
  let w := elemSize ty
  if !s.board.alive || s.part.dies ≤ d then s
  else
    let s := s.setFld F.MEM_ADD_CMD.TYPE d ty
    if s.fld F.MEM_MODE.MODE d = 2 || s.on F.MEM_ADD_CMD.BUSY d || a % w ≠ 0 || s.fld F.MEM_ADD_LEN.LEN d % w ≠ 0 ||
        !s.part.populatedRun a n || (home && s.part.homeDie a ≠ d) then s.raise F.MEM_EVENT.ADD_REFUSED d
    else (f s).raise F.MEM_ADD_CMD.BUSY d

/-- The adder touches the line at `l`: a working home slice writes it back and invalidates it, core copies recalled first
(R236). -/
def State.addTouch (s : State) (l : Nat) : State :=
  if s.sliceLost (s.part.homeDie l) then s.recall l else s.evictLine l

/-- The adder reads the 8 B units `us` at the controller: uncorrectable ones among them come second. -/
def State.addRead (s : State) (d : Nat) (us : List Nat) : State × List Nat :=
  (((us.map fun u => u / 128 * 128).eraseDups.foldl State.addTouch s).bump F.MEM_RD_BYTES.BYTES d (8 * us.length)).ctlUnits us

/-- Add MEM_ADD_OPND to the element at MEM_ADD_ADDR; the result of an uncorrectable element is open. -/
def execMemAdd (d ty : Nat) (s : State) : Res State :=
  let ty := min ty 2
  let w := elemSize ty
  .next (s.addStart d ty w true fun s =>
    let a := s.fld F.MEM_ADD_ADDR.ADDR d
    let (s, bad) := s.addRead d [a / 8 * 8]
    if !bad.isEmpty then s.drawn.setReg .MEM_ADD_RESULT d (Config.freeWord s.freeCtr 0)
    else
      let old := ofBytes ((List.range w).map fun i => s.memByte (a + i))
      let x := s.fld F.MEM_ADD_OPND.OPND d % 2 ^ (8 * w)
      let s := ((s.putBytes a (bytesOf w (elemAdd ty old x))).breakResv a w).bump F.MEM_WR_BYTES.BYTES d 8
      s.setReg .MEM_ADD_RESULT d (BitVec.ofNat 64 old))

/-- Sum the elements of the range that are homed on the die, in increasing address order from +0. -/
def execMemSum (d ty : Nat) (s : State) : Res State :=
  let ty := min ty 2
  let w := elemSize ty
  .next (s.addStart d ty (s.fld F.MEM_ADD_LEN.LEN d) false fun s =>
    let a := s.fld F.MEM_ADD_ADDR.ADDR d
    let n := s.fld F.MEM_ADD_LEN.LEN d
    let here (e : Nat) : Bool := s.part.homeDie e = d
    let es := ((List.range (n / w)).map fun i => a + w * i).filter here
    let (s, bad) := s.addRead d ((unitsOf 8 a n).filter here)
    if !bad.isEmpty then s.drawn.setReg .MEM_ADD_RESULT d (Config.freeWord s.freeCtr 0)
    else
      let v := es.foldl (fun v e => elemAdd ty v (ofBytes ((List.range w).map fun i => s.memByte (e + i)))) 0
      s.setReg .MEM_ADD_RESULT d (BitVec.ofNat 64 v))

/-- An adder command completes. -/
def execAddDone (d : Nat) (s : State) : Res State :=
  .next (if s.on F.MEM_ADD_CMD.BUSY d then
      ((s.setFld F.MEM_ADD_CMD.BUSY d 0).raise F.MEM_EVENT.ADD_DONE d).msix 0 4
    else s)

/-! ## Invalidation of translations (R250) -/

/-- Start an invalidation, unless one runs; `hit` picks the contexts whose entries it drops, and the writes already
translated in them are waited for. -/
def State.invStart (s : State) (hit : Nat → Bool) (f : State → State) : State :=
  if !s.board.alive then s
  else if s.on F.XLT_INV.BUSY 0 then s.raise F.XLT_EVENT.INV_REJECT 0
  else
    let waits (p : Packet) : Bool := p.toMem && (match p.ctx with
      | some c => hit c
      | none => false)
    { f s with invWait := (s.packets.filter waits).map Packet.pid }.raise F.XLT_INV.BUSY 0

def execXltInvAll (s : State) : Res State := .next (s.invStart (fun _ => true) State.dropAll)

def execXltInvContext (c : Nat) (s : State) : Res State :=
  .next (s.invStart (· = c) fun s => (s.setFld F.XLT_INV.CTX 0 c).dropCtx c)

/-- The range is XLT_INV_RANGE's. -/
def execXltInvContextRange (c : Nat) (s : State) : Res State :=
  .next (s.invStart (· = c) fun s =>
    (s.setFld F.XLT_INV.CTX 0 c).dropCtxRange c (s.fld F.XLT_INV_RANGE.BASE 0) (max 1 (s.fld F.XLT_INV_RANGE.COUNT 0)))

/-- An invalidation completes once the accesses already translated through what it dropped are performed. -/
def execInvDone (s : State) : Res State :=
  .next (if s.on F.XLT_INV.BUSY 0 && !s.packets.any (fun p => s.invWait.contains p.pid) then
      ({ s with invWait := [] }.setFld F.XLT_INV.BUSY 0 0 |>.raise F.XLT_EVENT.INV_DONE 0).msix 0 3
    else s)

end Sys2Proof.Machine
end

