-- ==== Sys2Proof/Machine/Partition.lean ====
section
/-! DEFINITION. Machine/Partition.lean: partitions, key slots, ranges, and the TDIs that lock them (R209, R252, R386 to R397,
R409). -/
namespace Sys2Proof.Machine

/-! ## Key slots (R395) -/

/-- Slots 0 to 63 that hold a key. -/
def State.slotsInUse (s : State) : Nat := (s.trust.slots.map fun p => 2 ^ p.1).sum

/-- The lowest free slot. -/
def State.freeSlot (s : State) : Option Nat := (List.range 64).find? fun k => (SMap.find? s.trust.slots k).isNone

/-- Bind a slot to an owner: its key is generated. -/
def State.takeSlot (s : State) (k owner : Nat) : State :=
  { s with trust := { s.trust with slots := SMap.insert s.trust.slots k owner } }

/-- Erase a slot. -/
def State.eraseSlot (s : State) (k : Nat) : State :=
  { s with trust := { s.trust with slots := SMap.erase s.trust.slots k } }

/-- Primary slot of an owner. -/
def State.primary (s : State) (owner : Nat) : Nat := if owner = 8 then 0 else s.fld F.SEC_PART.SLOT owner

/-! ## Ranges (R209, R389, R390) -/

/-- Populated ranges an owner holds, PENDING ones included. -/
def State.rangesOf (s : State) (owner : Nat) : List Nat :=
  (List.range 2048).filter fun n => s.part.populated (n * 2 ^ 30) && s.fld F.SEC_RANGE.OWNER n = owner

/-- The last EVICT_RANGE of a passing range is done: translations into it are dropped, owner, slot and SHARE written, and the
old slot is erased if it is no primary slot and this was its last range (R390). Its contents under another key are open
(R394). -/
def State.rangePassed (s : State) (r : RangePass) : State :=
  let old := s.fld F.SEC_RANGE.OWNER r.range
  let oldSlot := s.fld F.SEC_RANGE.SLOT r.range
  let s := s.dropRange r.range old r.owner
  let s := if oldSlot = r.slot then s else s.scramble (.range r.range)
  let s := s.setReg .SEC_RANGE r.range (BitVec.ofNat 64 (r.owner * 2 ^ 56 + r.slot * 2 ^ 48 + r.share))
  let used := (s.rangesOf old).any fun m => s.fld F.SEC_RANGE.SLOT m = oldSlot
  let s := if oldSlot = r.slot || used || oldSlot = s.primary old then s else s.eraseSlot oldSlot
  match r.admin with
  | some (q, seq) => s.finishAdmin q seq stOk r.slot
  | none => s

/-- The front end starts EVICT_RANGE for a passing range on a slice that runs no command (R209). -/
def State.passEvict (s : State) (d : Nat) : State :=
  if s.on F.MTC_CMD.BUSY d then s
  else match s.passes.find? fun r => r.todo.contains d with
    | none => s
    | some r =>
      let on (x : RangePass) : RangePass :=
        if x.range = r.range then { x with todo := x.todo.filter (· ≠ d), running := d :: x.running } else x
      Res.st (execEvictRange d r.range { s with passes := s.passes.map on }) s

/-- A range begins to pass: it is PENDING, accesses already checked are performed, and the slices are told to evict it
(R390). -/
def State.passRange (s : State) (r : RangePass) : State :=
  let s := s.setFld F.SEC_RANGE.PENDING r.range 1
  let s := s.landAll fun p => p.toMem && p.dst / 2 ^ 30 = r.range
  (List.range s.part.dies).foldl State.passEvict { s with passes := s.passes ++ [r] }

/-- A new pass of a range to an owner, slot and SHARE. -/
def State.newPass (s : State) (n owner slot share : Nat) (admin : Option (Nat × Nat)) : RangePass :=
  ⟨n, owner, slot, share, admin, List.range s.part.dies, []⟩

/-! ## Tiles (R389, R409) -/

/-- Tiles of a C0 group. -/
def State.groupTiles (s : State) (g : Nat) : List Nat :=
  (List.range (max 1 (s.fld F.CRS_C0_GROUP.TILE_COUNT g))).map (s.fld F.CRS_C0_GROUP.FIRST_TILE g + ·)

/-- A tile passes to an owner. -/
def State.passTile (s : State) (owner t : Nat) : State := { s with tileOwner := SMap.set s.tileOwner 8 t owner }

/-- The valid C0 groups of an owner take their tiles, and their resident sets come into being (R409). -/
def State.openGroups (s : State) (owner : Nat) : State :=
  ((List.range 16).filter fun g => s.on F.CRS_C0_GROUP.VALID g && (s.c0i g).owner = owner).foldl (fun s g =>
    let ts := s.groupTiles g
    (ts.foldl (fun s t => s.passTile owner t) s).makeSet (s.c0i g).setId owner ts (s.c0i g).banks true) s

/-- Cores a partition holds, as a mask. -/
def State.partCores (s : State) (p : Nat) : Nat :=
  s.fld F.SEC_PART_CORES_LO.CORES p + s.fld F.SEC_PART_CORES_HI.CORES p * 2 ^ 64

/-- Tiles an owner holds on the part. -/
def State.tilesOf (s : State) (owner : Nat) : List Nat := (List.range s.part.tiles).filter fun t => s.tileOwnerOf t = owner

/-! ## Partition commands (R388 to R391) -/

/-- PART_CREATE. -/
def execPartCreate (a : Nat) (s : State) : Res State :=
  .next (s.admin a 0x20 (fun d s =>
      let p := le d 16 1
      let m := le d 24 12
      checks (a = 0) [(16, p < 8), (24, m < 2 ^ s.part.cores)]
        (s.partState p = pFree && s.trust.bank.isSome &&
          !((List.range 8).any fun r => s.partState r ≠ pFree && s.partCores r &&& m ≠ 0)))
    fun seq d s =>
      let p := le d 16 1
      let m := le d 24 12
      match s.freeSlot with
      | none => s.finishAdmin (adminQ a) seq stNoRes 0
      | some k =>
        let s := ((s.takeSlot k p).zeroEnergy .PWR_EPART p (1024 + p)).setReg .SEC_PART p (BitVec.ofNat 64 (pActive * 2 ^ 62 + k * 2 ^ 56))
        let s := (s.setFld F.SEC_PART_CORES_LO.CORES p (m % 2 ^ 64)).setFld F.SEC_PART_CORES_HI.CORES p (m / 2 ^ 64)
        (s.openGroups p).finishAdmin (adminQ a) seq stOk k)

/-- A queue that is not FREE is owned by A(1 + p) or bound to a context of p. -/
def State.partQueues (s : State) (p : Nat) : Bool :=
  s.queues.any fun e => !isAdmin e.1 && s.qState e.1 ≠ qFree && (s.qOwner e.1 = p + 1 || s.qPart e.1 = p)

/-- PART_DESTROY: the partition enters CLOSING. -/
def execPartDestroy (a : Nat) (s : State) : Res State :=
  .next (s.admin a 0x21 (fun d s =>
      let p := le d 16 1
      checks (a = 0) [(16, p < 8)]
        ((s.partState p = pActive || s.partState p = pLocked) && !s.partQueues p))
    fun seq d s =>
      let p := le d 16 1
      (s.beginClose p).finishAdmin (adminQ a) seq stOk (s.rangesOf p).length)

/-- PART_ASSIGN_TILES. -/
def execPartAssignTiles (a : Nat) (s : State) : Res State :=
  .next (s.admin a 0x22 (fun d s =>
      let o := le d 16 1
      let t0 := le d 18 2
      let n := le d 20 2
      let ts := (List.range n).map (t0 + ·)
      let held := s.heldTiles
      checks (a = 0)
        [(16, o ≤ 8), (18, t0 < s.part.tiles && !(n ≤ 800 && ts.any fun t => (s.c0Of t).isSome)),
          (20, 1 ≤ n && n ≤ 800 && t0 + n ≤ s.part.tiles)]
        (s.partState o = pActive && ts.all fun t => s.partState (s.tileOwnerOf t) = pActive && !held.contains t &&
          !(s.sets.any fun r => r.members.contains t || (r.moving.getD []).contains t)))
    fun seq d s =>
      let o := le d 16 1
      let ts := (List.range (le d 20 2)).map (le d 18 2 + ·)
      let moved := ts.filter fun t => s.tileOwnerOf t ≠ o
      (moved.foldl (fun s t => s.passTile o t) s).finishAdmin (adminQ a) seq stOk moved.length)

/-- PART_ASSIGN_RANGE. -/
def execPartAssignRange (a : Nat) (s : State) : Res State :=
  .next (s.admin a 0x23 (fun d s =>
      let n := le d 16 2
      let o := le d 18 1
      let k := le d 19 1
      checks (a = 0)
        [(16, n < 2048 && s.part.populated (n * 2 ^ 30)), (18, o ≤ 8), (19, k < 64 || 0xFE ≤ k),
          (20, o = 8 || le d 20 1 = 0)]
        (s.partState (s.fld F.SEC_RANGE.OWNER n) = pActive && s.partState o = pActive &&
          !s.on F.SEC_RANGE.PENDING n && (64 ≤ k || SMap.find? s.trust.slots k = some o)))
    fun seq d s =>
      let n := le d 16 2
      let o := le d 18 1
      let share := le d 20 1
      match (if le d 19 1 = 0xFF then s.freeSlot else some (if le d 19 1 = 0xFE then s.primary o else le d 19 1)) with
      | none => s.finishAdmin (adminQ a) seq stNoRes 0
      | some k =>
        if s.fld F.SEC_RANGE.OWNER n = o && s.fld F.SEC_RANGE.SLOT n = k then
          (s.setFld F.SEC_RANGE.SHARE n share).finishAdmin (adminQ a) seq stOk k
        else
          let s := s.modItem (adminQ a) seq fun i => { i with stage := .active }
          let s := s.takeSlot k o
          s.passRange (s.newPass n o k share (some (adminQ a, seq))))

/-- A CLOSING partition without ranges gives up the rest of what it holds and is FREE (R391); tiles and banks that had its
contents are zeroed for whoever takes them next, itself in a later life too (R176, R179). Its TDI, if locked, enters
ERROR. -/
def State.freePart (s : State) (p : Nat) : State :=
  let s := ((List.range 256).filter fun c => s.ctxValid c && s.ctxTag c = p).foldl State.dropContext s
  let s := (s.sets.filter fun r => r.part = p).foldl State.dropSet s
  let s := (s.tilesOf p).foldl (fun s t => s.passTile 8 t) s
  let s := { s with
    tileHolder := s.tileHolder.filter fun e => e.2 ≠ p
    bankHolder := s.bankHolder.filter fun e => e.2 ≠ p }
  let s := (s.setReg .SEC_PART_CORES_LO p 0).setReg .SEC_PART_CORES_HI p 0
  let s := ((s.trust.slots.filter fun e => e.2 = p).map Prod.fst).foldl State.eraseSlot s
  let tdi := s.fld F.SEC_PART.TDI p
  let s := s.setReg .SEC_PART p 0
  s.setFld F.SEC_PART.TDI p (if tdi = 1 || tdi = 2 then 3 else tdi)

/-- The next step of closing a partition: its next range begins to pass to the operator, or with none left it is freed. -/
def State.closeStep (s : State) (p : Nat) : State :=
  let mine := s.rangesOf p
  if s.passes.any fun r => mine.contains r.range then s
  else match mine with
    | n :: _ => s.passRange (s.newPass n 8 0 0 none)
    | [] => s.freePart p

/-- A CLOSING partition's remaining work goes on. -/
def execPartitionClose (p : Nat) (s : State) : Res State :=
  .next (if p < 8 && s.board.alive && s.partState p = pClosing then s.closeStep p else s)

/-- The ranges whose every EVICT_RANGE is done pass, and partitions that close go on to their next one. -/
def State.passDone (s : State) : State :=
  let fin := s.passes.filter fun r => r.todo.isEmpty && r.running.isEmpty
  let s := { s with passes := s.passes.filter fun r => !(r.todo.isEmpty && r.running.isEmpty) }
  fin.foldl (fun s r =>
    let old := s.fld F.SEC_RANGE.OWNER r.range
    let s := s.rangePassed r
    if r.admin.isNone && old < 8 && s.partState old = pClosing then s.closeStep old else s) s

/-- A slice's command completes (R218); the front end's own are those of passing ranges (R209). -/
def execMtcCmdDone (d : Nat) (s : State) : Res State :=
  .next (if s.on F.MTC_CMD.BUSY d then
      let s := ((s.setFld F.MTC_CMD.BUSY d 0).raise F.MTC_EVENT.CMD_DONE d).msix 0 4
      let off (r : RangePass) : RangePass := { r with running := r.running.filter (· ≠ d) }
      ({ s with passes := s.passes.map off }.passDone).passEvict d
    else s)

/-! ## TDISP (R396, R397) -/

/-- The VF's selective IDE stream is in the secure state. -/
def State.ideSecure (s : State) (fn : Nat) : Bool := s.trust.ide.any fun e => e.2 = fn

/-- A vendor-defined response: 1 done, 0 an error. -/
def State.vendorReply (s : State) (ok : Bool) : State := s.emit (.spdm 0x7E (bytesOf 1 (bitN ok)))

/-- The TDISP responder answers: Shusis runs and the link is up. -/
def State.shusisUp (s : State) : Bool :=
  s.board.alive && s.on F.HOD_LINK.UP 0 && (s.fld F.SEC_STATE.STAGE 0 = 2 || s.fld F.SEC_STATE.STAGE 0 = 4)

/-- LOCK_INTERFACE_REQUEST for a VF: its TDI is CONFIG_LOCKED and its partition LOCKED, once the accesses of no partition to
its ranges that came before have been performed (R300, R396). -/
def execLockInterfaceRequest (vf : Nat) (s : State) : Res State :=
  let p := vf - 1
  .next (if !s.shusisUp || vf = 0 || 8 < vf then s
  else if s.partState p = pActive && s.ideSecure vf && s.fld F.SEC_PART.TDI p = 0 then
    let s := s.landAll fun q => q.toMem && q.agent.tag = 8 && s.fld F.SEC_RANGE.OWNER (q.dst / 2 ^ 30) = p
    ((s.setFld F.SEC_PART.STATE p pLocked).setFld F.SEC_PART.TDI p 1).vendorReply true
  else s.vendorReply false)

/-- STOP_INTERFACE for a VF: the TDI is unlocked and its partition closes. -/
def execStopInterface (vf : Nat) (s : State) : Res State :=
  let p := vf - 1
  .next (if !s.shusisUp || vf = 0 || 8 < vf then s
  else ((s.setFld F.SEC_PART.TDI p 0).closeTdi p).vendorReply true)

/-- An IDE integrity failure on a VF's stream: the stream leaves the secure state, its TDI enters ERROR and its
partition closes. -/
def execIdeIntegrityFail (vf : Nat) (s : State) : Res State :=
  let p := vf - 1
  .next (if !s.board.alive || vf = 0 || 8 < vf || !s.ideSecure vf then s
  else
    let s := { s with trust := { s.trust with ide := s.trust.ide.filter fun e => e.2 ≠ vf } }
    s.closeTdi p)

end Sys2Proof.Machine
end

