-- ==== Sys2Proof/Machine/Sha.lean ====
section
/-! DEFINITION. Machine/Sha.lean: SHA-384 (FIPS 180-4) and HMAC over it, which R370, R375, R378, R381, R414 and R415 name. -/
namespace Sys2Proof.Machine

/-- The primes up to 409, of which there are eighty. -/
def shaPrimes : List Nat :=
  (List.range 410).filter fun n => 2 ≤ n && [2, 3, 5, 7, 11, 13, 17, 19].all fun d => n = d || n % d ≠ 0

/-- First 64 bits of the fractional part of the `k`-th root of `p`, for a root below 8: the root of `p` scaled by 2^64,
found bit by bit from the highest. -/
def rootFrac (k p : Nat) : Nat :=
  (List.range 67).foldl (fun r i => if (r + 2 ^ (66 - i)) ^ k ≤ p * 2 ^ (64 * k) then r + 2 ^ (66 - i) else r) 0 % 2 ^ 64

/-- Round constants: the cube roots of the first eighty primes. -/
def shaK : List Nat := shaPrimes.map (rootFrac 3)

/-- Initial hash value of SHA-384: the square roots of the ninth to the sixteenth prime. -/
def shaH0 : List Nat := ((shaPrimes.drop 8).take 8).map (rootFrac 2)

/-- Rotation right of a 64-bit word. -/
def rotr (n x : Nat) : Nat := x / 2 ^ n + x % 2 ^ n * 2 ^ (64 - n)

def shaSum0 (x : Nat) : Nat := rotr 28 x ^^^ rotr 34 x ^^^ rotr 39 x
def shaSum1 (x : Nat) : Nat := rotr 14 x ^^^ rotr 18 x ^^^ rotr 41 x
def shaSig0 (x : Nat) : Nat := rotr 1 x ^^^ rotr 8 x ^^^ x / 2 ^ 7
def shaSig1 (x : Nat) : Nat := rotr 19 x ^^^ rotr 61 x ^^^ x / 2 ^ 6
def shaCh (x y z : Nat) : Nat := (x &&& y) ^^^ ((2 ^ 64 - 1 - x) &&& z)
def shaMaj (x y z : Nat) : Nat := (x &&& y) ^^^ (x &&& z) ^^^ (y &&& z)

/-- A 64-bit word of eight bytes, the most significant first. -/
def beWord (bs : List Byte) : Nat := bs.foldl (fun v b => v * 256 + b.toNat) 0

/-- A number as `n` bytes, the most significant first. -/
def beBytes (n v : Nat) : List Byte := (bytesOf n v).reverse

/-- Words of the message schedule, the newest first, from the sixteen of the block. -/
def shaSchedule : Nat → List Nat → List Nat
  | 0, w => w
  | n + 1, w =>
    shaSchedule n (((shaSig1 (w.getD 1 0) + w.getD 6 0 + shaSig0 (w.getD 14 0) + w.getD 15 0) % 2 ^ 64) :: w)

/-- One round on the eight working variables. -/
def shaRound (v : List Nat) (kw : Nat × Nat) : List Nat :=
  match v with
  | [a, b, c, d, e, f, g, h] =>
    let t1 := h + shaSum1 e + shaCh e f g + kw.1 + kw.2
    let t2 := shaSum0 a + shaMaj a b c
    [(t1 + t2) % 2 ^ 64, a, b, c, (d + t1) % 2 ^ 64, e, f, g]
  | v => v

/-- A block of 128 bytes is compressed into the hash value. -/
def shaBlock (h : List Nat) (bs : List Byte) : List Nat :=
  let ws := (List.range 16).map fun i => beWord ((bs.drop (8 * i)).take 8)
  let w := (shaSchedule 64 ws.reverse).reverse
  let v := (shaK.zip w).foldl shaRound h
  (h.zip v).map fun p => (p.1 + p.2) % 2 ^ 64

/-- Blocks in order. -/
def shaBlocks : Nat → List Nat → List Byte → List Nat
  | 0, h, _ => h
  | n + 1, h, bs => shaBlocks n (shaBlock h (bs.take 128)) (bs.drop 128)

/-- A message with its padding. -/
def shaPad (m : List Byte) : List Byte :=
  let n := m.length
  let z := (128 - (n + 17) % 128) % 128
  List.flatten [m, [0x80], List.replicate z 0, beBytes 16 (8 * n)]

/-- SHA-384: 48 bytes. -/
def sha384 (m : List Byte) : List Byte :=
  let p := shaPad m
  (((shaBlocks (p.length / 128) shaH0 p).take 6).map (beBytes 8)).flatten

/-- HMAC-SHA-384 with a key of at most 128 bytes. -/
def hmac384 (key m : List Byte) : List Byte :=
  let k := key ++ List.replicate (128 - key.length) 0
  sha384 ((k.map (· ^^^ 0x5C)) ++ sha384 ((k.map (· ^^^ 0x36)) ++ m))

end Sys2Proof.Machine
end

