-- ==== Sys2Proof/Machine/Trust.lean ====
section
/-! DEFINITION. Machine/Trust.lean: signed envelopes, the configuration record's checks, boot verification, the SEC mailbox
and the debug unlock (R368 to R377, R383, R384, R407 to R411). -/
namespace Sys2Proof.Machine

/-! ## Status and cause codes (R384) -/

def mbOk : Nat := 0x00
def mbEnvelope : Nat := 0x01
def mbKey : Nat := 0x02
def mbRsa : Nat := 0x03
def mbSlh : Nat := 0x04
def mbBoth : Nat := 0x05
def mbRollback : Nat := 0x06
def mbPart : Nat := 0x07
def mbBinding : Nat := 0x08
def mbFlashWrite : Nat := 0x0A
def mbRefused : Nat := 0x11
def mbNotPerm : Nat := 0x12

/-! ## Envelopes (R369) -/

/-- A value in an envelope or record: little-endian, bytes beyond the end zero. -/
def envLen (e : List Byte) : Nat := le e 12 4
def envType (e : List Byte) : Nat := le e 6 1
def envSigner (e : List Byte) : Nat := le e 7 1
def envSvn (e : List Byte) : Nat := le e 8 4
def envPayload (e : List Byte) : List Byte := slice e 1024 (envLen e)
def envHeader (e : List Byte) : List Byte := slice e 0 1024

/-- Bytes of the payload with its padding, and of the whole envelope. -/
def envPadded (e : List Byte) : Nat := (envLen e + 63) / 64 * 64
def envBytes (e : List Byte) : Nat := 1024 + envPadded e + 384 + 16224

/-- Bytes `off` to `off + n − 1` are zero. -/
def zeroRun (e : List Byte) (off n : Nat) : Bool := (slice e off n).all (· = 0)

/-- Step 1 of R370. -/
def envValid (e : List Byte) : Bool :=
  le e 0 4 = 0x4C564E45 && le e 4 2 = 1 && 1 ≤ envType e && envType e ≤ 8 && envSigner e ≤ 1 && 1 ≤ envLen e &&
    envLen e ≤ 1030144 && e.length = envBytes e && le e 16 4 < 8 && zeroRun e 20 4 && le e 464 4 = 65537 &&
    zeroRun e 516 508

/-- The key hash K of an envelope. -/
def envKey (e : List Byte) : List Byte := sha384 (slice e 80 436)

/-- A vendor key hash. -/
def vendorKey (k : Nat) : List Byte := (List.range 48).map (Config.fusedByte (16 + k))

/-- Who signs an image type: vendor images and tokens, operator records (R372, R383, R387). -/
def signerOf (ty : Nat) : Nat := if ty = 6 || ty = 7 then 1 else 0

/-- The owner bank in force, if the module has an owner. -/
def State.ownerKey (s : State) : Option (List Byte) := s.trust.bank.map fun b => s.trust.banks.getD b []

/-- Step 2 of R370: the key is one that may sign this envelope; an unowned module checks an OWNERSHIP envelope against
its own payload (R372). -/
def State.keyKnown (s : State) (e : List Byte) : Bool :=
  envSigner e = signerOf (envType e) && (
    if envSigner e = 0 then (List.range 4).any fun k => !s.trust.revoked.contains k && vendorKey k = envKey e
    else if envType e = 7 && s.trust.banks.isEmpty then envPayload e = envKey e
    else s.ownerKey = some (envKey e))

/-- Step 3 of R370: the cause of a failed signature check, both always made. -/
def sigCause (e : List Byte) : Option Nat :=
  let h := envHeader e
  let off := 1024 + envPadded e
  match Config.rsaOk (slice e 80 384) h (slice e off 384), Config.slhOk (slice e 468 48) h (slice e (off + 384) 16224) with
  | true, true => none
  | false, true => some mbRsa
  | true, false => some mbSlh
  | false, false => some mbBoth

/-- Bit of the part in PARTS. -/
def Part.bit : Part → Nat
  | .cz9768 => 0 | .cz9576 => 1 | .cz5384 => 2

/-- The fused minimum SVN of a type (R371). -/
def State.svnMin (s : State) (ty : Nat) : Nat := bits (s.fld F.SEC_SVNMIN.MIN 0) (6 * ty - 1) (6 * ty - 6)

/-! ## The configuration record (R408, R410) -/

/-- A value as a field applies it (R6): clamped to what the field can hold and supports. -/
def Fld.fit (f : Fld) (v : Nat) : Nat :=
  let top := 2 ^ (f.hi + 1 - f.lo) - 1
  match f.clamp with
  | .all => min v top
  | .range a b => max a (min b v)
  | .signed n =>
    let w := f.hi + 1 - f.lo
    wrapN w (max (-(n : Int)) (min (n : Int) (sext w v)))

/-- C0 entry `g` of a record: VALID, OWNER, PLINTH_BANKS, FIRST_TILE and TILE_COUNT after clamping, QUEUE, SET_ID. -/
structure C0Entry where
  valid : Bool
  owner : Nat
  banks : Nat
  first : Nat
  count : Nat
  queue : Nat
  setId : Nat

/-- Read C0 entry `g`. -/
def c0Entry (r : List Byte) (g : Nat) : C0Entry :=
  let o := 256 + 32 * g
  let first := min 799 (le r (o + 4) 2)
  ⟨(le r o 1).testBit 0, le r (o + 1) 1, le r (o + 2) 1, first, max 1 (min (800 - first) (le r (o + 6) 2)),
    min 1023 (le r (o + 8) 2), le r (o + 12) 4⟩

/-- Weight of owner `t`. -/
def bwWeight (r : List Byte) (t : Nat) : Nat := min 63 (le r (44 + t) 1)

/-- The record loads (R410). -/
def recordOk (p : Part) (r : List Byte) : Bool :=
  let gs := ((List.range 16).map fun g => (g, c0Entry r g)).filter fun e => e.2.valid
  r.length = 6144 && le r 0 4 = 0x52474643 && le r 4 2 = 1 &&
    gs.all (fun e => e.2.first + e.2.count ≤ p.tiles && e.2.owner ≤ 8 && 1 ≤ e.2.banks && e.2.banks ≤ 12) &&
    gs.all (fun e => gs.all fun f => e.1 = f.1 ||
      (e.2.queue ≠ f.2.queue && (e.2.first + e.2.count ≤ f.2.first || f.2.first + f.2.count ≤ e.2.first))) &&
    (gs.map fun e => e.2.count).sum ≤ 256 &&
    (!(le r 28 1).testBit 3 || ((List.range 9).map (bwWeight r)).sum ≤ 64)

/-- The checks of R370, in order: the cause of the first that fails. -/
def State.envCause (s : State) (e : List Byte) : Option Nat :=
  if !envValid e then some mbEnvelope
  else if !s.keyKnown e then some mbKey
  else match sigCause e with
    | some c => some c
    | none =>
      if sha384 (envPayload e) ≠ slice e 24 48 then some mbEnvelope
      else if !(le e 16 4).testBit s.part.bit then some mbPart
      else if le e 72 8 ≠ 0 && le e 72 8 ≠ s.fld F.SEC_SERIAL.SERIAL 0 then some mbBinding
      else if envType e ≤ 6 && envSvn e < s.svnMin (envType e) then some mbRollback
      else if envType e = 6 && !recordOk s.part (envPayload e) then some mbEnvelope
      else none

/-! ## Boot verification (R373, R374, R407) -/

/-- Flash offset of a copy of an image type: 0 primary, 1 alternate. -/
def copyBase (ty copy : Nat) : Nat := (2 * ty - 2 + copy) * 0x100000

/-- Bytes of flash; an erased byte reads 0xFF. -/
def State.flashRead (s : State) (off n : Nat) : List Byte := (List.range n).map fun i => SMap.get s.board.flash 0xFF (off + i)

/-- The envelope a copy's region holds: as many bytes as its header names, within the region. -/
def State.copyBytes (s : State) (ty copy : Nat) : List Byte :=
  let b := copyBase ty copy
  s.flashRead b (min 0x100000 (envBytes (s.flashRead b 1024)))

/-- A copy is accepted: it verifies and is of its region's type. -/
def State.copyCause (s : State) (ty copy : Nat) : Option Nat :=
  let e := s.copyBytes ty copy
  match s.envCause e with
  | some c => some c
  | none => if envType e = ty then none else some mbEnvelope

/-- An accepted copy comes into use: its header is measured, its SVN shown, a record kept. -/
def State.useCopy (s : State) (ty copy : Nat) : State :=
  let e := s.copyBytes ty copy
  let s := { s with trust := { s.trust with
    images := SMap.insert s.trust.images ty (envHeader e)
    record := if ty = 6 then some (envPayload e) else s.trust.record } }
  ((s.setFld F.SEC_BOOT.SVN ty (envSvn e)).setFld F.SEC_BOOT.COPY ty copy).raise F.SEC_BOOT.VALID ty

/-- Verify an image type: the primary copy, then the alternate (R373); the result says whether one was accepted. -/
def State.verifyImage (s : State) (ty : Nat) : State × Bool :=
  match s.copyCause ty 0 with
  | none => (s.useCopy ty 0, true)
  | some c =>
    let s := s.setFld F.SEC_BOOT.PRIMARY_FAIL ty c
    match s.copyCause ty 1 with
    | none => ((s.useCopy ty 1).raise F.SEC_EVENT.ALT_USED 0, true)
    | some c => (s.setFld F.SEC_BOOT.ALT_FAIL ty c, false)

/-- Boot recovery (R374): both copies of a type failed. -/
def State.recover (s : State) (ty : Nat) : State :=
  (s.setFld F.SEC_STATE.STAGE 0 (if ty = 1 then 3 else 4)).setFld F.SEC_STATE.FAIL_TYPE 0 ty

/-- Verify types in order until one fails both ways. -/
def State.verifyAll (s : State) : List Nat → State × Bool
  | [] => (s, true)
  | t :: ts => match s.verifyImage t with
    | (s, true) => s.verifyAll ts
    | (s, false) => (s.recover t, false)

/-- The boot recovery state. -/
def State.recovering (s : State) : Bool := 3 ≤ s.fld F.SEC_STATE.STAGE 0

/-! ## Rebuild reset: its start (R33, R287, R383, R417, R418) -/

/-- A rebuild reset runs. -/
def State.rebuilding (s : State) : Bool := s.fld F.CFG_STATE.PHASE 0 = 10

/-- Steps 1 to 4 of R417: everything running is discarded, hods' reads are abandoned, the slices write back and drop what
they hold, translations are dropped, moves of resident sets end with the set unchanged; queues that drain have all their
tokens. `cause` and `detail` are those of the REBUILD record. The classes' round robin goes on where it stood, which R28 and
R416 leave open (log entry 104). -/
def State.rebuild (s : State) (cause detail : Nat) : State :=
  let s := s.report ⟨0x0104, 2, uFrontEnd, cause, 0, detail, 0xFF, 0xFFFF⟩
  let s := (s.setFld F.CFE_STATUS.READY 0 0).setFld F.CFG_STATE.PHASE 0 10
  let s := s.stopWork.rebuildSlices.dropAll
  let fetch (e : Nat × Queue) : Nat × Queue := (e.1, { e.2 with refetch := none, fetchTag := none, room := 0, tokens := [] })
  let moving := (s.sets.filterMap RSet.moving).flatten
  let s := moving.foldl State.dropPlinth s
  let stay (r : RSet) : RSet := { r with moving := none, moveAdmin := none, planned := false, copied := false, good := [] }
  { s with
    queues := s.queues.map fetch
    sets := s.sets.map stay
    board := { s.board with tap := 0, bypass := false } }

/-! ## The mailbox (R384) -/

/-- Argument bytes of the running command. -/
def State.mboxArg (s : State) (n : Nat) : List Byte := (List.range n).map fun i => SMap.get s.trust.mbox 0 i

/-- A write to SEC_MBOX_CMD that names a command. -/
def State.mboxStart (s : State) (op len : Nat) : State :=
  if !s.board.alive then s
  else if s.on F.SEC_MBOX_CMD.BUSY 0 then s.raise F.SEC_EVENT.REFUSED 0
  else
    let n := min len 1048576
    let s := (s.raise F.SEC_MBOX_CMD.BUSY 0).setFld F.SEC_MBOX_CMD.LENGTH 0 n
    { s with trust := { s.trust with cmd := some (op, n) } }

def execLoadImage (len : Nat) (s : State) : Res State := .next (s.mboxStart 1 len)
def execTakeOwnership (len : Nat) (s : State) : Res State := .next (s.mboxStart 2 len)
def execRaiseSvn (len : Nat) (s : State) : Res State := .next (s.mboxStart 3 len)
def execDebugChallenge (len : Nat) (s : State) : Res State := .next (s.mboxStart 4 len)
def execDebugUnlock (len : Nat) (s : State) : Res State := .next (s.mboxStart 5 len)

/-- Write flash bytes. -/
def State.flashWrite (s : State) (off : Nat) (bs : List Byte) : State :=
  let put (m : SMap Byte) : SMap Byte := bs.zipIdx.foldl (fun m p => SMap.set m 0xFF (off + p.2) p.1) m
  { s with board := { s.board with flash := put s.board.flash } }

/-- The tray owns the flash (R450). -/
def State.trayOwns (s : State) : Bool := s.board.aux && s.board.perst && s.board.spiReq

/-- A region whose write failed or was abandoned: what it holds is open. -/
def State.flashSpoil (s : State) (off n : Nat) : State :=
  s.drawn.flashWrite off ((List.range n).map (Config.freeByte s.freeCtr))

/-- The copy LOAD_IMAGE writes: the one not used at this boot, or the primary. -/
def State.loadCopy (s : State) (ty : Nat) : Nat := if s.on F.SEC_BOOT.VALID ty && !s.on F.SEC_BOOT.COPY ty then 1 else 0

/-- LOAD_IMAGE: verified first, then written, which fails while the tray owns the flash. -/
def State.mbLoad (s : State) (e : List Byte) (flashOk : Bool) : State × Nat :=
  let ty := envType e
  if envValid e && 6 < ty then (s, mbNotPerm)
  else match s.envCause e with
    | some c => (s, c)
    | none =>
      let b := copyBase ty (s.loadCopy ty)
      if s.trayOwns then (s, mbFlashWrite)
      else if flashOk then (s.flashWrite b e, mbOk) else (s.flashSpoil b e.length, mbFlashWrite)

/-- TAKE_OWNERSHIP (R372). -/
def State.mbOwn (s : State) (e : List Byte) : State × Nat :=
  if s.recovering || 4 ≤ s.trust.banks.length then (s, mbRefused)
  else if envValid e && envType e ≠ 7 then (s, mbNotPerm)
  else match s.envCause e with
    | some c => (s, c)
    | none =>
      if envLen e ≠ 48 then (s, mbEnvelope)
      else
        let s := { s with trust := { s.trust with banks := s.trust.banks ++ [envPayload e] } }
        ((s.raise F.SEC_STATE.OWNED 0).raise F.SEC_EVENT.OWNER_SET 0, mbOk)

/-- RAISE_SVN (R371). -/
def State.mbRaise (s : State) (ty n : Nat) : State × Nat :=
  if s.recovering then (s, mbRefused)
  else if ty = 0 || 6 < ty then (s, mbNotPerm)
  else if 32 < n || s.fld F.SEC_BOOT.SVN ty < n then (s, mbRefused)
  else if n ≤ s.svnMin ty then (s, mbOk)
  else
    let v := setField (s.reg .SEC_SVNMIN 0) (6 * ty - 1) (6 * ty - 6) n
    (s.setReg .SEC_SVNMIN 0 v, mbOk)

/-- DEBUG_CHALLENGE (R383): the nonce is Shusis' random number. -/
def State.mbChallenge (s : State) : State × Nat × List Byte :=
  if s.recovering then (s, mbRefused, [])
  else
    let n := (List.range 32).map (Config.freeByte s.freeCtr)
    let s := { s.drawn with trust := { s.trust with nonce := some n } }
    (s.raise F.SEC_DEBUG.CHALLENGE 0, mbOk, n ++ bytesOf 8 (s.fld F.SEC_SERIAL.SERIAL 0))

/-- A queue of a partition is destroyed with it. -/
def State.dropPartQueues (s : State) (p : Nat) : State :=
  ((s.queues.map Prod.fst).filter fun q => !isAdmin q && s.qState q ≠ qFree && (s.qPart q = p || s.qOwner q = p + 1)).foldl
    State.freeQueue s

/-- Steps 1 to 6 of R383. -/
def State.unlock (s : State) (levels : Nat) : State :=
  let s := if s.timer && !s.halted && !s.rebuilding then s.rebuild uFrontEnd 3 else s.stopWork
  let s := s.coreComplexReset
  let s := { s with
    cores := [], l3 := [], gdir := [], cacheUe := [], cacheCe := []
    lines := [], copies := [], lost := [], lineUe := [], lineCe := [], copyUe := [], wc := [], ill := [] }
  let s := (List.range s.part.dies).foldl (fun s d => s.scramble (.die d)) s
  let s := (List.range s.part.tiles).foldl (fun s t => s.setFld F.SCP_PLINTH.VALID t 0) s
  let s := { s with scr := [], scrUe := [], scrCe := [], tileHolder := [], bankHolder := [] }
  let s := (List.range 8).foldl (fun s p =>
    if s.partState p = pFree then s else (s.dropPartQueues p).freePart p) s
  let s := (List.range 8).foldl (fun s p => s.setFld F.SEC_PART.TDI p 3) s
  let s := { s with
    closePend := []
    trust := { s.trust with slots := [], ide := [], spdm := { s.trust.spdm with session := 0, busy := none } } }
  let s := (s.raise F.SEC_DEBUG.UNLOCKED 0).raise F.SEC_EVENT.UNLOCK 0
  (s.setFld F.SEC_DEBUG.JTAG 0 (levels % 2)).setFld F.SEC_DEBUG.CORE_DEBUG 0 (levels / 2 % 2)

/-- DEBUG_UNLOCK (R383): any attempt consumes the nonce. -/
def State.mbUnlock (s : State) (e : List Byte) : State × Nat :=
  let nonce := s.trust.nonce
  let s := { s with trust := { s.trust with nonce := none } }.setFld F.SEC_DEBUG.CHALLENGE 0 0
  let pl := envPayload e
  if s.recovering then (s, mbRefused)
  else if envValid e && envType e ≠ 8 then (s, mbNotPerm)
  else match s.envCause e with
    | some c => (s, c)
    | none =>
      if envLen e ≠ 40 then (s, mbEnvelope)
      else if le e 72 8 ≠ s.fld F.SEC_SERIAL.SERIAL 0 || nonce ≠ some (pl.take 32) then (s, mbBinding)
      else (s.unlock (le pl 32 8), mbOk)

/-- Run a command; the result is its status and result bytes. -/
def State.mbRun (s : State) (op len : Nat) (flashOk : Bool) : State × Nat × List Byte :=
  let arg := s.mboxArg len
  let plain (r : State × Nat) : State × Nat × List Byte := (r.1, r.2, [])
  match op with
  | 1 => plain (s.mbLoad arg flashOk)
  | 2 => plain (s.mbOwn arg)
  | 3 => plain (s.mbRaise (le (s.mboxArg 2) 0 1) (le (s.mboxArg 2) 1 1))
  | 4 => s.mbChallenge
  | 5 => plain (s.mbUnlock arg)
  | _ => (s, if s.recovering then mbRefused else mbNotPerm, [])

/-- Shusis serves a command: it runs past the boot ROM's verification. -/
def State.mbServed (s : State) : Bool := s.board.alive && 2 ≤ s.fld F.SEC_STATE.STAGE 0

/-- The running command ends: result, STATUS and RESULT_LEN, COUNT, BUSY, DONE. -/
def State.mbEnd (s : State) (flashOk : Bool) : State :=
  match s.trust.cmd with
  | none => s
  | some (op, len) =>
    let (s, st, out) := s.mbRun op len flashOk
    let put (m : SMap Byte) : SMap Byte := out.zipIdx.foldl (fun m p => SMap.set m 0 p.2 p.1) m
    let s := { s with trust := { s.trust with cmd := none, mbox := put s.trust.mbox } }
    let s := (s.setFld F.SEC_MBOX_STATUS.STATUS 0 st).setFld F.SEC_MBOX_STATUS.RESULT_LEN 0 out.length
    let s := s.setFld F.SEC_MBOX_STATUS.COUNT 0 (s.fld F.SEC_MBOX_STATUS.COUNT 0 + 1)
    (s.setFld F.SEC_MBOX_CMD.BUSY 0 0).raise F.SEC_EVENT.DONE 0

end Sys2Proof.Machine
end

