-- ==== Sys2Proof/Machine/Spdm.lean ====
section
/-! DEFINITION. Machine/Spdm.lean: identity, measurements, the SPDM responder and the end of a mailbox command (R375 to
R382, R384). Message formats are those of the SPDM standard the rules name; response bodies hold what the rules give. -/
namespace Sys2Proof.Machine

/-! ## Identity (R375) -/

/-- Fused item as `n` bytes. -/
def fusedBytes (item n : Nat) : List Byte := (List.range n).map (Config.fusedByte item)

/-- Measurement of an image type: the digest of its header, zeros where none is loaded (R378). -/
def State.measure (s : State) (ty : Nat) : List Byte :=
  match SMap.find? s.trust.images ty with
  | some h => sha384 h
  | none => List.replicate 48 0

/-- ALS, the alias seed. -/
def State.aliasSeed (s : State) : List Byte :=
  let cdi := hmac384 (fusedBytes 0 48) ([0x02] ++ s.measure 1)
  let bank : Byte := match s.trust.bank with
    | some b => BitVec.ofNat 8 b
    | none => 0xFF
  let d : Byte := if s.on F.SEC_DEBUG.UNLOCKED 0 then 1 else 0
  hmac384 cdi (List.flatten [[0x03], s.measure 2, s.measure 3, s.measure 4, s.measure 6, [bank, d]])

/-! ## Measurement blocks (R378, R379) -/

/-- A DMTF measurement block: index, specification 1, size, value type with bit 7 set for a raw value, value. -/
def dmtfBlock (idx ty : Nat) (v : List Byte) : List Byte :=
  List.flatten [bytesOf 1 idx, [0x01], bytesOf 2 (v.length + 3), bytesOf 1 ty, bytesOf 2 v.length, v]

/-- The plumb digest as it reads. -/
def State.plumb (s : State) : List Byte :=
  ((List.range 6).map fun n => bytesOf 8 (s.fld F.CFG_PLUMB.DIGEST n)).flatten

/-- The security state (R379). -/
def State.securityState (s : State) : List Byte :=
  List.flatten [bytesOf 8 (s.reg .SEC_STATE 0).toNat, bytesOf 8 (s.reg .SEC_DEBUG 0).toNat,
    bytesOf 8 (s.reg .SEC_SVNMIN 0).toNat,
    ((List.range 6).map fun i => bytesOf 4 (s.fld F.SEC_BOOT.SVN (i + 1))).flatten, List.replicate 16 0]

/-- The SLH-DSA chain. -/
def State.slhChain (s : State) : List Byte := Config.certificate 2 [] ++ Config.certificate 4 s.aliasSeed

/-- Blocks 1 to 9 and 0xF0, in order. -/
def State.blocksAll (s : State) : List (List Byte) :=
  [dmtfBlock 1 0x00 (fusedBytes 2 48), dmtfBlock 2 0x01 (s.measure 1), dmtfBlock 3 0x01 (s.measure 2),
    dmtfBlock 4 0x01 (s.measure 3), dmtfBlock 5 0x01 (s.measure 4), dmtfBlock 6 0x03 (s.measure 6),
    dmtfBlock 7 0x02 (fusedBytes 1 48), dmtfBlock 8 0x03 s.plumb, dmtfBlock 9 0x83 s.securityState,
    dmtfBlock 0xF0 0x83 s.slhChain]

/-- Index of a block, its first byte. -/
def blockIdx (b : List Byte) : Nat := le b 0 1

/-- Block 0xF1 (R381): the alias SLH-DSA signature over both nonces and every other block. -/
def State.slhBlock (s : State) (nonce own : List Byte) (bs : List (List Byte)) : List Byte :=
  dmtfBlock 0xF1 0x83
    (bytesOf 4 1 ++ Config.slhSign s.aliasSeed (sha384 (List.flatten [nonce, own, bs.flatten])))

/-! ## Responses -/

/-- Response codes. -/
def rDigests : Nat := 0x01
def rCertificate : Nat := 0x02
def rChallenge : Nat := 0x03
def rVersion : Nat := 0x04
def rChunkAck : Nat := 0x05
def rChunk : Nat := 0x06
def rMeasurements : Nat := 0x60
def rCapabilities : Nat := 0x61
def rAlgorithms : Nat := 0x63
def rKeyExchange : Nat := 0x64
def rFinish : Nat := 0x65
def rHeartbeat : Nat := 0x68
def rKeyUpdate : Nat := 0x69
def rEndSession : Nat := 0x6C
def rError : Nat := 0x7F

/-- Error codes. -/
def eInvalid : Nat := 0x01
def eUnexpected : Nat := 0x04
def eDecrypt : Nat := 0x06
def eUnsupported : Nat := 0x07
def eSession : Nat := 0x0A
def eLarge : Nat := 0x0F
def eNotReady : Nat := 0x42

def State.modSpdm (s : State) (f : Spdm → Spdm) : State :=
  { s with trust := { s.trust with spdm := f s.trust.spdm } }

/-- An ERROR response. -/
def State.spdmError (s : State) (e : Nat) : State := s.emit (.spdm rError (bytesOf 1 e))

/-- Bytes of a response that one transfer carries: DataTransferSize less the header of a chunk (R380). -/
def chunkBytes : Nat := 4080

/-- Send a response; one beyond DataTransferSize is kept to be fetched in chunks. -/
def State.respond (s : State) (code : Nat) (bs : List Byte) : State :=
  if bs.length + 4 ≤ 4096 then s.emit (.spdm code bs)
  else
    let h := s.trust.spdm.handle
    (s.modSpdm fun x => { x with large := some (h, code, bs), handle := (h + 1) % 256 }).emit
      (.spdm rError (bytesOf 1 eLarge ++ bytesOf 1 h))

/-- Algorithms are negotiated. -/
def State.negotiated (s : State) : Bool := 3 ≤ s.trust.spdm.stage

/-- The responder's random nonce. -/
def State.ownNonce (s : State) : List Byte := (List.range 32).map (Config.freeByte s.freeCtr)

/-- A signature of the alias RSA key over a transcript, with a fresh salt. -/
def State.rsaSig (s : State) (m : List Byte) : List Byte := Config.rsaSign s.aliasSeed (sha384 m) s.freeCtr

/-! ## Requests (R380 to R382) -/

/-- GET_VERSION: 1.2 and 1.3; the connection starts again. -/
def State.srvVersion (s : State) : State :=
  (s.modSpdm fun x => { x with stage := 1, algs := none, session := 0, busy := none, large := none, chunk := none }).respond
    rVersion [0x12, 0x13]

/-- GET_CAPABILITIES of version 1.2 or 1.3: DataTransferSize and MaxSPDMmsgSize. -/
def State.srvCaps (s : State) (ver : Nat) : State :=
  if s.trust.spdm.stage = 0 then s.spdmError eUnexpected
  else if ver ≠ 0x12 && ver ≠ 0x13 then s.spdmError eInvalid
  else (s.modSpdm fun x => { x with stage := 2 }).respond rCapabilities (bytesOf 4 4096 ++ bytesOf 4 131072)

/-- NEGOTIATE_ALGORITHMS: of what is offered, only the algorithms of R380. -/
def State.srvAlgs (s : State) (o : AlgOffer) : State :=
  if s.trust.spdm.stage ≠ 2 then s.spdmError eUnexpected
  else if !o.base then s.spdmError eInvalid
  else (s.modSpdm fun x => { x with stage := 3, algs := some o }).respond rAlgorithms
    ([o.base, o.meas, o.dhe, o.aead, o.sched].map fun b => if b then 1 else 0)

/-- Certificate slot 0: the RSA chain. -/
def State.rsaChain (s : State) : List Byte :=
  List.flatten [Config.certificate 0 [], Config.certificate 1 [], Config.certificate 3 s.aliasSeed]

/-- GET_DIGESTS: the digest of slot 0's chain. -/
def State.srvDigests (s : State) : State :=
  if !s.negotiated then s.spdmError eUnexpected else s.respond rDigests (bytesOf 1 1 ++ sha384 s.rsaChain)

/-- GET_CERTIFICATE: part of slot 0's chain. -/
def State.srvCert (s : State) (slot off len : Nat) : State :=
  if !s.negotiated then s.spdmError eUnexpected
  else if slot ≠ 0 || s.rsaChain.length ≤ off then s.spdmError eInvalid
  else s.respond rCertificate (slice s.rsaChain off (min len 4088))

/-- CHALLENGE: signed with the alias RSA key. -/
def State.srvChallenge (s : State) (slot : Nat) (nonce : List Byte) : State :=
  if !s.negotiated then s.spdmError eUnexpected
  else if slot ≠ 0 then s.spdmError eInvalid
  else
    let own := s.ownNonce
    let body := List.flatten [sha384 s.rsaChain, own, sha384 s.blocksAll.flatten]
    s.drawn.respond rChallenge (body ++ s.rsaSig (nonce ++ body))

/-- GET_MEASUREMENTS: operation 0 counts the blocks, 0xFF asks for all; a signed request for all carries block 0xF1 and
is prepared first (R381, R382). -/
def State.srvMeas (s : State) (op : Nat) (signed : Bool) (nonce : List Byte) : State :=
  let own := s.ownNonce
  let sig (s : State) (body : List Byte) : List Byte := if signed then own ++ s.rsaSig (List.flatten [nonce, body, own]) else []
  if !s.negotiated then s.spdmError eUnexpected
  else if op = 0 then s.drawn.respond rMeasurements (bytesOf 1 11 ++ sig s [])
  else if op = 0xFF then
    let bs := s.blocksAll
    if signed then
      let body := bs.flatten ++ s.slhBlock nonce own bs
      (s.drawn.modSpdm fun x => { x with busy := some (rMeasurements, body ++ sig s body, s.ticks) }).emit
        (.spdm rError (bytesOf 1 eNotReady))
    else s.drawn.respond rMeasurements bs.flatten
  else match s.blocksAll.find? fun b => blockIdx b = op with
    | some b => s.drawn.respond rMeasurements (b ++ sig s b)
    | none => s.spdmError eInvalid

/-- RESPOND_IF_READY: the response is ready at the latest after 400 ms; before that whether it is ready is open. -/
def State.srvReady (s : State) : State :=
  match s.trust.spdm.busy with
  | none => s.spdmError eUnexpected
  | some (code, bs, t) =>
    if 40000000 ≤ s.ticks - t || s.freeNat % 2 = 1 then (s.drawn.modSpdm fun x => { x with busy := none }).respond code bs
    else s.drawn.spdmError eNotReady

/-- KEY_EXCHANGE: a session's handshake starts. -/
def State.srvExchange (s : State) (slot : Nat) (share : List Byte) : State :=
  let x := s.trust.spdm
  if !s.negotiated then s.spdmError eUnexpected
  else if slot ≠ 0 || !(x.algs.any fun a => a.dhe && a.aead && a.sched) then s.spdmError eInvalid
  else if x.session ≠ 0 then s.spdmError eSession
  else
    let own := (List.range 96).map (Config.dheShare s.freeCtr)
    (s.drawn.modSpdm fun x => { x with session := 1, updates := 0 }).respond rKeyExchange (own ++ s.rsaSig (share ++ own))

/-- FINISH: the requester's verify data, of the right key, establishes the session; other data ends it. -/
def State.srvFinish (s : State) (verify : List Byte) : State :=
  if s.trust.spdm.session ≠ 1 then s.spdmError eUnexpected
  else if Config.finishOk s.freeCtr verify then (s.drawn.modSpdm fun x => { x with session := 2 }).respond rFinish []
  else (s.drawn.modSpdm fun x => { x with session := 0 }).spdmError eDecrypt

/-- A request that needs an established session. -/
def State.inSession (s : State) (f : State → State) : State :=
  if s.trust.spdm.session = 2 then f s else s.spdmError eUnexpected

/-- IDE_KM and TDISP (R293, R396): at most 16 selective streams, each of one function. -/
def State.srvVendor (s : State) (r : VendorReq) : State :=
  s.inSession fun s =>
    let setIde (m : SMap Nat) : State := { s with trust := { s.trust with ide := m } }
    match r with
    | .ideGo k f => if k < 16 && f ≤ 8 then (setIde (SMap.insert s.trust.ide k f)).vendorReply true else s.vendorReply false
    | .ideStop k => match SMap.find? s.trust.ide k with
      | none => s.vendorReply false
      | some f =>
        let s := setIde (SMap.erase s.trust.ide k)
        (if 1 ≤ f && !s.ideSecure f then s.closeTdi (f - 1) else s).vendorReply true
    | .tdispStart vf =>
      if 1 ≤ vf && vf ≤ 8 && s.fld F.SEC_PART.TDI (vf - 1) = 1 then (s.setFld F.SEC_PART.TDI (vf - 1) 2).vendorReply true
      else s.vendorReply false
    | .ideOther | .tdispOther => s.vendorReply true

/-- CHUNK_GET: chunk `n` of the response kept under a handle. -/
def State.srvChunkGet (s : State) (handle n : Nat) : State :=
  match s.trust.spdm.large with
  | none => s.spdmError eUnexpected
  | some (h, code, bs) =>
    if h ≠ handle || bs.length ≤ n * chunkBytes then s.spdmError eInvalid
    else
      let s := if bs.length ≤ (n + 1) * chunkBytes then s.modSpdm fun x => { x with large := none } else s
      s.emit (.spdm rChunk (List.flatten [bytesOf 1 code, bytesOf 2 n, slice bs (n * chunkBytes) chunkBytes]))

/-- The request a reassembled message spells, by its request code. -/
def spdmParse (m : List Byte) : Option Instr :=
  match le m 1 1 with
  | 0x81 => some .getDigests
  | 0x82 => some (.getCertificate (le m 2 1 % 16) (le m 4 2) (le m 6 2))
  | 0x83 => some (.challenge (le m 2 1 % 16) (slice m 4 32))
  | 0x84 => some .getVersion
  | 0xE0 => some (.getMeasurements (le m 3 1) ((le m 2 1).testBit 0) (slice m 4 32))
  | 0xE1 => some (.getCapabilities (le m 0 1))
  | 0xE4 => some (.keyExchange (le m 3 1) (slice m 40 96))
  | 0xE5 => some (.finish (slice m 4 48))
  | 0xE8 => some .heartbeat
  | 0xE9 => some .keyUpdate
  | 0xEC => some .endSession
  | 0xFF => some .respondIfReady
  | _ => none

/-- Serve a request of one message. -/
def State.serveOne (s : State) (i : Instr) : State :=
  match i with
  | .getVersion => s.srvVersion
  | .getCapabilities v => s.srvCaps v
  | .negotiateAlgorithms o => s.srvAlgs o
  | .getDigests => s.srvDigests
  | .getCertificate sl off len => s.srvCert sl off len
  | .challenge sl n => s.srvChallenge sl n
  | .getMeasurements op sg n => s.srvMeas op sg n
  | .respondIfReady => s.srvReady
  | .keyExchange sl sh => s.srvExchange sl sh
  | .finish v => s.srvFinish v
  | .heartbeat => s.inSession fun s => s.respond rHeartbeat []
  | .keyUpdate => s.inSession fun s => (s.modSpdm fun x => { x with updates := x.updates + 1 }).respond rKeyUpdate []
  | .endSession => s.inSession fun s => (s.modSpdm fun x => { x with session := 0 }).respond rEndSession []
  | .vendorDefinedRequest r => s.srvVendor r
  | .chunkGet h n => s.srvChunkGet h n
  | _ => s.spdmError eUnsupported

/-- CHUNK_SEND: chunks come in order from 0; the last one is acknowledged and its whole message served. -/
def State.srvChunkSend (s : State) (handle n : Nat) (last : Bool) (bs : List Byte) : State :=
  let x := s.trust.spdm
  let have? : Option (List Byte) := match x.chunk with
    | some (h, k, m) => if h = handle && k + 1 = n then some m else if n = 0 then some [] else none
    | none => if n = 0 then some [] else none
  match have? with
  | none => (s.modSpdm fun x => { x with chunk := none }).spdmError eInvalid
  | some m =>
    if 131072 < m.length + bs.length then (s.modSpdm fun x => { x with chunk := none }).spdmError eInvalid
    else
      let s := (s.modSpdm fun x => { x with chunk := if last then none else some (handle, n, m ++ bs) }).emit
        (.spdm rChunkAck (bytesOf 1 handle ++ bytesOf 2 n))
      if !last then s
      else match spdmParse (m ++ bs) with
        | some i => s.serveOne i
        | none => s.spdmError eUnsupported

/-- Serve a request. -/
def State.serve (s : State) (i : Instr) : State :=
  match i with
  | .chunkSend h n last bs => s.srvChunkSend h n last bs
  | i => s.serveOne i

/-- A request arrives over DOE: it waits behind a mailbox command that runs (R382). -/
def State.spdm (s : State) (i : Instr) : State :=
  if !s.shusisUp then s
  else if s.trust.cmd.isSome then { s with trust := { s.trust with waiting := s.trust.waiting ++ [i] } }
  else s.serve i

def execGetVersion (s : State) : Res State := .next (s.spdm .getVersion)
def execGetCapabilities (ver : Nat) (s : State) : Res State := .next (s.spdm (.getCapabilities ver))
def execNegotiateAlgorithms (offer : AlgOffer) (s : State) : Res State := .next (s.spdm (.negotiateAlgorithms offer))
def execGetDigests (s : State) : Res State := .next (s.spdm .getDigests)
def execGetCertificate (slot off len : Nat) (s : State) : Res State := .next (s.spdm (.getCertificate slot off len))
def execChallenge (slot : Nat) (nonce : List (BitVec 8)) (s : State) : Res State := .next (s.spdm (.challenge slot nonce))
def execGetMeasurements (op : Nat) (signed : Bool) (nonce : List (BitVec 8)) (s : State) : Res State :=
  .next (s.spdm (.getMeasurements op signed nonce))
def execKeyExchange (slot : Nat) (share : List (BitVec 8)) (s : State) : Res State :=
  .next (s.spdm (.keyExchange slot share))
def execFinish (verify : List (BitVec 8)) (s : State) : Res State := .next (s.spdm (.finish verify))
def execHeartbeat (s : State) : Res State := .next (s.spdm .heartbeat)
def execKeyUpdate (s : State) : Res State := .next (s.spdm .keyUpdate)
def execEndSession (s : State) : Res State := .next (s.spdm .endSession)
def execChunkSend (handle seq : Nat) (last : Bool) (chunk : List (BitVec 8)) (s : State) : Res State :=
  .next (s.spdm (.chunkSend handle seq last chunk))
def execChunkGet (handle seq : Nat) (s : State) : Res State := .next (s.spdm (.chunkGet handle seq))
def execRespondIfReady (s : State) : Res State := .next (s.spdm .respondIfReady)
def execVendorDefinedRequest (req : VendorReq) (s : State) : Res State := .next (s.spdm (.vendorDefinedRequest req))

/-- The running mailbox command ends, and the requests behind it are served. -/
def execMailboxComplete (flashOk : Bool) (s : State) : Res State :=
  .next (if !s.mbServed || s.trust.cmd.isNone then s
  else
    let s := s.mbEnd flashOk
    let ws := s.trust.waiting
    ws.foldl State.serve { s with trust := { s.trust with waiting := [] } })

end Sys2Proof.Machine
end

