-- ==== Sys2Proof/Machine/Startup.lean ====
section
/-! DEFINITION. Machine/Startup.lean: start-up phase by phase, the configuration record's load and lock, the plumb and live
digests (R233, R344, R374, R402 to R415, R447, R450). -/
namespace Sys2Proof.Machine

/-! ## The record's fields (R408) -/

/-- A field of the record: byte offset, bytes, the register field it loads, and the instances it loads: first, stride,
count. -/
structure RecField where
  off : Nat
  len : Nat
  fld : Fld
  first : Nat
  stride : Nat
  count : Nat

/-- The global part's scalar fields. -/
def recGlobal : List RecField :=
  [⟨8, 8, F.CFG_RECORD_ID.ID, 0, 1, 1⟩, ⟨16, 1, F.CRS_PERIOD.PERIOD, 0, 1, 1⟩, ⟨17, 1, F.CRS_FLOOR.C0_FLOOR, 0, 1, 1⟩,
    ⟨18, 1, F.CRS_FLOOR.C1_FLOOR, 0, 1, 1⟩, ⟨19, 1, F.CRS_FLOOR.C2_FLOOR, 0, 1, 1⟩,
    ⟨20, 1, F.CRS_FLOOR.C3_FLOOR, 0, 1, 1⟩, ⟨21, 1, F.CRS_SHARE.C2_SHARE, 0, 1, 1⟩,
    ⟨22, 1, F.CRS_SHARE.C3_SHARE, 0, 1, 1⟩, ⟨23, 1, F.CRS_SLICE.C1_SLICE, 0, 1, 1⟩,
    ⟨24, 1, F.CRS_SLICE.C2_SLICE, 0, 1, 1⟩, ⟨25, 1, F.CRS_SLICE.C3_SLICE, 0, 1, 1⟩,
    ⟨26, 1, F.CRS_C0_RES.BUDGET_MAX, 0, 1, 1⟩, ⟨27, 1, F.ARC_MARKS.EXTRA, 0, 1, 800⟩,
    ⟨29, 1, F.MEM_SCRUB.PERIOD, 0, 1, 4⟩, ⟨30, 2, F.MEM_PRIO.AGE, 0, 1, 4⟩, ⟨32, 1, F.LTL_CFG.WIN_LOG2, 0, 1, 1⟩,
    ⟨34, 2, F.LTL_CFG.RATE, 0, 1, 1⟩, ⟨36, 2, F.PWR_CAP.CAP, 0, 1, 1⟩, ⟨38, 2, F.PWR_BRAKE.LIMIT, 0, 1, 1⟩,
    ⟨40, 1, F.PWR_POLICY.IDLE_COURSES, 0, 1, 1⟩, ⟨41, 1, F.PWR_POLICY.GDIE_MAX, 0, 1, 1⟩,
    ⟨42, 1, F.PWR_POLICY.ARRAY_MAX, 0, 1, 1⟩]

/-- Way masks and user trims. -/
def recArrays : List RecField :=
  ((List.range 9).map fun n => RecField.mk (64 + 2 * n) 2 F.MTC_WAYMASK.MASK n 9 4) ++
    ((List.range 24).map fun d =>
      [RecField.mk (128 + 2 * d) 1 F.PWR_TRIM.V_TRIM d 1 1, RecField.mk (129 + 2 * d) 1 F.PWR_TRIM.EST_TRIM d 1 1]).flatten

/-- Every field that loads a register field of its own. -/
def recFields : List RecField := recGlobal ++ recArrays

/-- Load one field, where it changes it. -/
def State.loadField (s : State) (r : List Byte) (f : RecField) : State :=
  let v := f.fld.fit (le r f.off f.len)
  (List.range f.count).foldl (fun s i =>
    let k := f.first + i * f.stride
    if s.fld f.fld k = v then s else s.setFld f.fld k v) s

/-- Load a C0 group. -/
def State.loadGroup (s : State) (r : List Byte) (g : Nat) : State :=
  let e := c0Entry r g
  let s := (s.setFld F.CRS_C0_GROUP.VALID g (bitN e.valid)).setFld F.CRS_C0_GROUP.FIRST_TILE g e.first
  let s := (s.setFld F.CRS_C0_GROUP.TILE_COUNT g e.count).setFld F.CRS_C0_GROUP.QUEUE g e.queue
  { s with c0info := SMap.insert s.c0info g ⟨e.owner, e.banks, e.setId⟩ }

/-- Load an accepted record: every field takes its value, clamped (R6, R408). -/
def State.loadRecord (s : State) (r : List Byte) : State :=
  let s := recFields.foldl (fun s f => s.loadField r f) s
  let flag (i : Nat) : Nat := bitN ((le r 28 1).testBit i)
  let s := if flag 0 = 0 then s else (List.range s.part.tiles).foldl (fun s t => s.raise F.TSQ_QCTL.TEXT_MODE t) s
  let s := (s.setFld F.HOD_HOSTLOSS.MODE 0 (flag 1)).setFld F.SEC_BWFENCE.ENABLE 0 (flag 3)
  let s := s.setFld F.SEC_BWFENCE.WEIGHT 0 ((List.range 9).map fun t => bwWeight r t * 64 ^ t).sum
  let s := (List.range 16).foldl (fun s g => s.loadGroup r g) s
  let n := ((List.range 16).map fun g => if s.on F.CRS_C0_GROUP.VALID g then (c0Entry r g).count else 0).sum
  (s.setFld F.CRS_C0_RES.RESERVED_TILES 0 n).raise F.CFG_STATE.RECORD 0

/-! ## Digests (R414, R415) -/

/-- Bytes `off` to `off + len − 1` of an image hold a value. -/
structure Piece where
  off : Nat
  len : Nat
  val : Nat

/-- An image of 6,144 bytes of which the pieces are set and the rest is zero. -/
def pieces (ps : List Piece) : List Byte :=
  (List.range 6144).map fun i => match ps.find? fun p => p.off ≤ i && i < p.off + p.len with
    | some p => BitVec.ofNat 8 (p.val / 256 ^ (i - p.off))
    | none => 0

/-- The record in use as verified, or the default record (R411). -/
def State.theRecord (s : State) : List Byte := s.trust.record.getD []

/-- Value of a field of the default record: its register's default. -/
def defaultOf (f : Fld) : Nat := f.rst

/-- The canonical record: reserved bytes and bits zero. -/
def State.canonical (s : State) : List Byte :=
  match s.trust.record with
  | some r =>
    let keep (off len mask : Nat) : Piece := ⟨off, len, le r off len &&& mask⟩
    pieces ([keep 0 4 (2 ^ 32 - 1), keep 4 2 (2 ^ 16 - 1), keep 28 1 15, keep 44 8 (2 ^ 64 - 1), keep 52 1 255] ++
      (recFields.map fun f => keep f.off f.len (2 ^ (8 * f.len) - 1)) ++
      ((List.range 16).map fun g =>
        let o := 256 + 32 * g
        [keep o 1 1, keep (o + 1) 1 255, keep (o + 2) 1 255, keep (o + 4) 2 65535, keep (o + 6) 2 65535,
          keep (o + 8) 2 65535, keep (o + 12) 4 (2 ^ 32 - 1)]).flatten)
  | none =>
    pieces ([⟨0, 4, 0x52474643⟩, ⟨4, 2, 1⟩] ++ (recFields.map fun f => Piece.mk f.off f.len (defaultOf f.fld)) ++
      (List.range 16).map fun g => Piece.mk (256 + 32 * g + 6) 2 1)

/-- The applied image: every field as its register reads back (R414). -/
def State.applied (s : State) : List Byte :=
  let c := s.canonical
  let flags := s.fld F.TSQ_QCTL.TEXT_MODE 0 + 2 * s.fld F.HOD_HOSTLOSS.MODE 0 + (le c 28 1 &&& 4) +
    8 * s.fld F.SEC_BWFENCE.ENABLE 0
  let w := s.fld F.SEC_BWFENCE.WEIGHT 0
  pieces ([⟨0, 4, le c 0 4⟩, ⟨4, 2, le c 4 2⟩, ⟨8, 8, le c 8 8⟩, ⟨28, 1, flags⟩] ++
    (recFields.map fun f => Piece.mk f.off f.len (s.fld f.fld f.first)) ++
    ((List.range 9).map fun t => Piece.mk (44 + t) 1 (w / 64 ^ t % 64)) ++
    ((List.range 16).map fun g =>
      let o := 256 + 32 * g
      let i := SMap.get s.c0info ⟨0, 0, 0⟩ g
      [⟨o, 1, s.fld F.CRS_C0_GROUP.VALID g⟩, ⟨o + 1, 1, i.owner⟩, ⟨o + 2, 1, i.banks⟩,
        ⟨o + 4, 2, s.fld F.CRS_C0_GROUP.FIRST_TILE g⟩, ⟨o + 6, 2, s.fld F.CRS_C0_GROUP.TILE_COUNT g⟩,
        ⟨o + 8, 2, s.fld F.CRS_C0_GROUP.QUEUE g⟩, ⟨o + 12, 4, i.setId⟩]).flatten)

/-- PLUMB. -/
def State.plumbDigest (s : State) : List Byte :=
  sha384 (List.flatten [s.canonical, s.measure 1, s.measure 2, s.measure 3, s.measure 4, s.measure 5, fusedBytes 1 48,
    s.applied])

/-- LIVE. -/
def State.liveDigest (s : State) : List Byte :=
  let timeout (q : Nat) : Byte := if s.qState q = qFree then 0 else BitVec.ofNat 8 (s.fld F.CFE_Q_CTL.TIMEOUT q)
  sha384 (List.flatten [s.plumb, s.applied, (List.range 1024).map timeout])

/-- The snapshot of every second after READY: the update of the six registers begins, and ends at the next tick. -/
def execLiveSnapshot (s : State) : Res State :=
  .next (if !s.timer || !s.board.alive then s
  else
    let s := s.liveEnd
    { s with live := some s.liveDigest }.setFld F.CFG_LIVE_SEQ.SEQ 0 (s.fld F.CFG_LIVE_SEQ.SEQ 0 + 1))

/-! ## Phases (R402 to R406) -/

/-- READY is signalled (R405), to the host and to the BMC. -/
def State.signalReady (s : State) : State :=
  (((s.raise F.CFE_STATUS.READY 0).raise F.CFG_EVENT.READY 0).msix 0 0).ibi 1

/-- End the phase in progress. -/
def State.endPhase (s : State) : State := s.setFld F.CFG_STATE.PHASE 0 (s.fld F.CFG_STATE.PHASE 0 + 1)

/-- Set the memory mode of every C-die. -/
def State.setMemMode (s : State) (m : Nat) : State :=
  (List.range s.part.dies).foldl (fun s d => s.setFld F.MEM_MODE.MODE d m) s

/-- A start-up failure: the fatal record of the failing unit, before READY, stops the sequence (R406). -/
def State.bootFail (s : State) (unit detail : Nat) : State :=
  match s.fld F.CFG_STATE.PHASE 0 with
  | 4 => s.reportSelf 0x0403 3 (uLintel unit) 0 detail
  | 5 => s.reportSelf 0x0306 3 (uMem unit) 0 0
  | 6 =>
    ((List.range s.part.dies).foldl (fun s d => s.raise F.MEM_MODE.FAIL d) s).reportSelf 0x0305 3 (uMem unit) detail 0
  | 7 => s.reportSelf 0x0603 3 (uCore unit) 0 detail
  | 8 => s.reportSelf 0x0105 3 uFrontEnd 0 detail
  | _ => s

/-- Phases 1 and 2: images are verified, the record of an owned module among them, and test firmware if asked for. -/
def State.bootVerify (s : State) (tys : List Nat) : State :=
  let s := s.setFld F.SEC_STATE.STAGE 0 1
  match s.verifyAll tys with
  | (s, true) => s.endPhase
  | (s, false) => s

/-- Phase 2. -/
def State.bootRecord (s : State) : State :=
  match (if s.trust.bank.isSome then s.verifyAll [6] else (s, true)) with
  | (s, false) => s
  | (s, true) =>
    match (if (le s.theRecord 28 1).testBit 2 then s.verifyAll [5] else (s, true)) with
    | (s, false) => s
    | (s, true) => (s.setFld F.SEC_STATE.STAGE 0 2).endPhase

/-- Phase 3: the brake is sampled, the record loaded and locked, the regulators set. -/
def State.bootConfig (s : State) : State :=
  let s := s.sampleBrake
  let s := match s.trust.record with
    | some r => s.loadRecord r
    | none => s
  let s := (List.range 24).foldl (fun s d =>
    if s.part.hasDomain d then s.setFld F.PWR_DOM.MV d (s.domMv d (s.domStep d)) else s) s
  (s.raise F.CFG_STATE.LOCKED 0).endPhase

/-- Phase 4: the lintels train; margins of at least 0.25 UI and delays are open values. -/
def State.bootLintels (s : State) : State :=
  ((List.range 36).filter s.part.hasLintel).foldl (fun s l =>
    let s := (s.setFld F.LTL_STATE.STATE l 2).setFld F.LTL_TRAIN.EYE_MIN l (64 + s.freeNat % 192)
    s.drawn.setFld F.LTL_TRAIN.SB_DELAY l (s.drawn.freeNat % 65536) |>.drawn) s |>.endPhase

/-- Phase 6: slot 0 is generated, memory initialised and tested, and the mode is RUN (R233, R395). -/
def State.bootMemory (s : State) : State :=
  let s := s.takeSlot 0 8
  let s := { s.zeroMem with memUe := [], memCe := [] }
  (s.setMemMode 2).endPhase

/-- Phase 8: C0 groups of the operator and their sets, the plumb digest. -/
def State.bootFront (s : State) : State :=
  let s := s.openGroups 8
  (s.setDigest F.CFG_PLUMB.DIGEST s.plumbDigest).endPhase

/-- Phase 9: READY starts the course timer. -/
def State.bootReady (s : State) : State :=
  let s := { s with timer := true, scrubStart := [] }
  (s.setFld F.CFG_BOOT_TIME.MS 0 (s.ticks / 100000)).signalReady

/-- An enabled airflow input is held low (R364). -/
def State.airLow (s : State) : Bool :=
  let en := s.fld F.PWR_FUSE.AIRFAIL_EN 0
  (en.testBit 0 && s.board.low0) || (en.testBit 1 && s.board.low1)

/-- Start-up goes on: with power good and PERST_N deasserted, the phase in progress ends as `o` says. -/
def execStartUp (o : PhaseOutcome) (s : State) : Res State :=
  .next (if !s.board.alive || s.airLow || s.timer || s.on F.CFG_STATE.FAIL 0 || s.recovering then s
  else
    let s := { s with board := { s.board with perst := false } }
    let ph := s.fld F.CFG_STATE.PHASE 0
    match o with
    | .fail unit detail => s.bootFail unit detail
    | .ok => match ph with
      | 0 => s.endPhase
      | 1 => if s.board.spiReq then s else s.bootVerify [1, 2, 3, 4]
      | 2 => s.bootRecord
      | 3 => s.bootConfig
      | 4 => s.bootLintels
      | 5 => (if (le s.theRecord 28 1).testBit 2 then s.setMemMode 1 else s).endPhase
      | 6 => s.bootMemory
      | 7 => s.loadFirmware.endPhase
      | 8 => s.bootFront
      | 9 => s.bootReady
      | _ => s)

/-! ## The end of a core-complex reset (R332) -/

/-- Lines held modified that cannot be written back in 5 ms: those whose route home is cut, and openly those whose route a
full replay buffer holds back (R332, log entry 105). -/
def State.lateLines (s : State) : List Nat :=
  (s.gdir.zipIdx.filter fun e => match e.1.2.owner with
    | some g => s.coreCut (48 * g) e.1.1 || (s.coreHeld (48 * g) e.1.1 && s.freeNat.testBit e.2)
    | none => false).map fun e => e.1.1

/-- Steps 2 and 3: the caches are written back and emptied, and the firmware is verified again: the cores restart on it, or,
where both copies fail, stay stopped, the module in boot recovery (R374). It waits while the tray owns the flash (R450). -/
def execCoreResetComplete (s : State) : Res State :=
  .next (if !s.coreReset || !s.board.alive || s.trayOwns then s
  else
    let s := (s.lateLines.foldl State.dropLate s.drawn).flushCaches
    let s := { s with cores := [], l3 := [], gdir := [], cacheUe := [], cacheCe := [] }
    match s.verifyAll [4] with
    | (s, true) => { s.loadFirmware with coreReset := false }
    | (s, false) => s)

end Sys2Proof.Machine
end

