-- ==== Sys2Proof/Machine/Resets.lean ====
section
/-! DEFINITION. Machine/Resets.lean: power, the resets, host loss and the flash port (R33, R217, R287, R312 to R315, R363 to
R365, R403, R416 to R418, R442, R443, R446, R448 to R450). -/
namespace Sys2Proof.Machine

/-! ## Power-on and module reset (R416) -/

/-- The module as a power-on or module reset leaves it, or with no state at all where `rails` is off: fuses, the owner
banks and minimum SVNs, the flash and the board are kept, and so is what the outside has sent and received. -/
def State.fresh (s : State) (rails : Bool) : State :=
  let bs := s.trust.banks
  let r : State := { State.reset with
    part := s.part
    faulty := s.faulty
    freeCtr := s.freeCtr + 1
    outs := s.outs
    pending := s.pending
    board := { s.board with rails := rails, dyn := none, index := 0, tap := 0, bypass := false }
    trust := { Trust.reset with
      banks := bs, revoked := s.trust.revoked, bank := if bs.isEmpty then none else some (bs.length - 1) } }
  let r := (r.setReg .SEC_SVNMIN 0 (s.reg .SEC_SVNMIN 0)).setReg .SEC_SERIAL 0 (s.reg .SEC_SERIAL 0)
  if bs.isEmpty then r else (r.raise F.SEC_STATE.OWNED 0).setFld F.SEC_STATE.OWNER_BANK 0 (bs.length - 1)

/-- A module reset, which needs input power, no thermal trip and no enabled airflow input low (R363, R364). -/
def execModuleReset (s : State) : Res State :=
  .next (if !s.board.aux || !s.board.vin || s.board.trip || s.airLow then s else s.fresh true)

/-- Input power is within range: the rails come up unless a thermal trip is latched; the slot number is sampled where the
auxiliary rail comes up (R446). -/
def State.powered (s : State) : State :=
  let b := s.board
  let s := { s with board := { b with aux := true, vin := true, slot := if b.aux then b.slot else b.pins % 8 } }
  if s.board.trip then s else s.fresh true

/-- A power-on reset. -/
def execPowerOnReset (s : State) : Res State := .next s.powered

/-- The package rails are enabled. -/
def execRailsEnable (s : State) : Res State := .next (if s.board.vin then s else s.powered)

/-- The package rails are removed, for over- or undervoltage, and all state is lost; the status latch keeps the cause. -/
def execRailsRemove (high : Bool) (s : State) : Res State :=
  let b := s.board
  let cause : Board := if !b.rails then b else if high then { b with ov := true } else { b with uv := true }
  .next (if !b.aux || !b.vin then s else { s with board := { cause with vin := false } }.fresh false)

/-- Input power is removed: the auxiliary rail turns off and every latch clears. -/
def execInputPowerRemoved (s : State) : Res State :=
  let b : Board := { s.board with
    aux := false, vin := false, trip := false, air0 := false, air1 := false, uv := false, ov := false }
  .next ({ s with board := b }.fresh false)

/-- The comparator of a die or stack trips: power is removed and the trip is latched, also beside an airflow stop (R449). -/
def execThermalTrip (sensor : Nat) (s : State) : Res State :=
  .next (if !(s.board.alive || (s.board.vin && (s.board.air0 || s.board.air1))) || !s.part.hasSensor sensor then s
    else { s with board := { s.board with trip := true } }.fresh false)

/-- The level of airflow input `n`. -/
def Board.setLow (b : Board) (n : Nat) (x : Bool) : Board := if n = 0 then { b with low0 := x } else { b with low1 := x }

/-- An airflow input has been low for 20 µs: if it is enabled the package stops, and the latch shows which input. -/
def execAirfailStop (n : Nat) (s : State) : Res State :=
  let b := s.board.setLow n true
  let latched : Board := if n = 0 then { b with air0 := true } else { b with air1 := true }
  .next (if 2 ≤ n || !(s.fld F.PWR_FUSE.AIRFAIL_EN 0).testBit n then s
    else if !b.aux || !b.vin then { s with board := b }
    else { s with board := latched }.fresh false)

/-- An airflow input returns high; when no enabled one is low, a stop ends in a module reset. -/
def execAirfailRelease (n : Nat) (s : State) : Res State :=
  let s' : State := { s with board := s.board.setLow n false }
  .next (if 2 ≤ n || !(s.fld F.PWR_FUSE.AIRFAIL_EN 0).testBit n then s
    else if s'.airLow || s'.board.rails || !s'.board.aux || !s'.board.vin || s'.board.trip then s'
    else s'.fresh true)

/-! ## Host loss (R312 to R315) -/

/-- QUIESCING begins. -/
def State.beginQuiesce (s : State) : State :=
  let st := s.fld F.HOD_HOSTLOSS.STATE 0
  if st = 1 || st = 2 then s else s.setFld F.HOD_HOSTLOSS.STATE 0 1

/-- The module declares host loss: a module reset, or under RETAIN a quiesce, after a rebuild reset that runs. -/
def State.declareLoss (s : State) : State :=
  let mode := s.fld F.HOD_HOSTLOSS.MODE 0
  let s := ((s.raise F.HOD_EVENT.HOST_LOSS 0).bump F.HOD_HOSTLOSS.LOSSES 0 1).ibi 3
  let s := s.reportSelf 0x0503 0 (uFn 0) 0 mode
  if mode = 0 then s.fresh true
  else if s.rebuilding then { s with lossPend := true }
  else s.beginQuiesce

/-- The link has been down for 20 ms. -/
def execHostLoss (s : State) : Res State :=
  let st := s.fld F.HOD_HOSTLOSS.STATE 0
  .next (if !s.board.alive || !s.timer || s.on F.HOD_LINK.UP 0 || s.lossPend || st = 1 || st = 2 then s else s.declareLoss)

/-- A LOAD_IMAGE that passed its checks is being written. -/
def State.loading (s : State) : Bool :=
  match s.trust.cmd with
  | some (1, len) =>
    let e := s.mboxArg len
    s.mbServed && envType e ≤ 6 && (s.envCause e).isNone
  | _ => false

/-- PERST_N is asserted; the slot number is sampled (R446). -/
def execPerstAssert (s : State) : Res State :=
  .next (if s.board.perst then s
  else
    let s := { s with board := { s.board with perst := true, slot := s.board.pins % 8 } }
    if !s.board.alive || s.airLow then s
    else
      let s := if s.loading then s.mbEnd false else s
      if !s.timer then s.fresh true
      else (if s.on F.HOD_LINK.UP 0 then s.linkDown else s).declareLoss)

/-- PERST_N has stayed asserted for 1 s under RETAIN. -/
def execPerstLongHold (s : State) : Res State :=
  .next (if s.board.alive && s.board.perst && s.timer && s.on F.HOD_HOSTLOSS.MODE 0 then s.fresh true else s)

/-- A hod works on a transfer, or has one waiting: internal ones finish, those with a bus side start and fail (R314). -/
def State.hodsRun (s : State) : Bool := s.hods.any fun (p : Nat × List HodJob) => !p.2.isEmpty

/-- Nothing runs any more: the cores' buffers drain and the complex stops, the slices write back, memory enters
self-refresh and the quadrants without a plinth region power down. -/
def execQuiesceComplete (s : State) : Res State :=
  .next (if !s.board.alive || s.fld F.HOD_HOSTLOSS.STATE 0 ≠ 1 || s.rebuilding || !s.blocks.isEmpty || !s.packets.isEmpty ||
      s.hodsRun then s
  else
    let s := ((s.cores.map Prod.fst).foldl State.drainCore s).flushCaches
    let s := (s.writeBackAll fun _ => true).wcDrainAll
    let off := (List.range 16).filter fun q => s.part.hasDomain q && !s.quadPlinth q
    let s := { s with
      cores := []
      l3 := []
      gdir := []
      coreReset := false
      coreDown := true
      quadOff := off
      quadWake := s.quadWake.filter fun q => !off.contains q
      tileHolder := SMap.drop s.tileHolder fun t => off.contains (quadOf t) }
    (s.setFld F.CFE_STATUS.READY 0 0).setFld F.HOD_HOSTLOSS.STATE 0 2)

/-- The link is back: domains and cores start, and what the host configured returns to its reset values. -/
def execReattach (s : State) : Res State :=
  .next (if !s.board.alive || s.fld F.HOD_HOSTLOSS.STATE 0 ≠ 2 || !s.on F.HOD_LINK.UP 0 then s
  else
    let s := { s with
      fns := []
      msixAddr := []
      msixData := []
      msixPend := []
      quadOff := []
      quadWake := []
      idle := []
      coreDown := false
      trust := { s.trust with ide := [] } }
    let s := ((s.clearReg .HOD_OUTWIN 0).clearReg .HOD_PF_WIN 0).clearReg .HOD_BAR2_WIN 0
    s.coreComplexReset.setFld F.HOD_HOSTLOSS.STATE 0 3)

/-- The accelerator accepts work again. -/
def execResumeComplete (s : State) : Res State :=
  .next (if !s.board.alive || s.fld F.HOD_HOSTLOSS.STATE 0 ≠ 3 then s
  else
    let s := s.setFld F.HOD_HOSTLOSS.STATE 0 0
    if s.halted || s.rebuilding then s else s.raise F.CFE_STATUS.READY 0)

/-! ## Rebuild reset (R33, R287, R417, R418) -/

/-- A hod runs the copy of an item. -/
def State.copying (s : State) (i : Item) : Bool :=
  s.hods.any fun (p : Nat × List HodJob) => p.2.any fun j => j.active && decide (j.src = HodSrc.item i.queue i.seq)

/-- A block or a copy of the queue has passed more boundaries than its timeout allows. -/
def State.exceeds (s : State) (q : Nat) : Bool :=
  let t := (s.queue q).timeout
  !isAdmin q && ((s.blocks.any fun b => b.queue = q && t < s.course - b.start) ||
    (s.items.any fun i => i.queue = q && s.copying i && t < s.course - i.start))

/-- A queue's timeout is exceeded: the rebuild reset starts, for every queue whose timeout is. -/
def execTimeoutExceeded (q : Nat) (s : State) : Res State :=
  .next (if !s.board.alive || !s.timer || s.halted || s.rebuilding || !s.exceeds q then s
  else
    let mark (e : Nat × Queue) : Nat × Queue := if s.exceeds e.1 then (e.1, { e.2 with timedOut := true }) else e
      let s' := (s.queues.filter fun e => s.exceeds e.1).foldl (fun s' e => s'.raise F.CFE_Q_EVENT.TIMEOUT e.1) s
    { s' with queues := s.queues.map mark }.rebuild (uQueue q) 1)

/-- CFG_RESET.REBUILD. -/
def execRebuildReset (s : State) : Res State :=
  .next (if !s.board.alive then s
    else if !s.timer || s.halted then s.raise F.CFG_EVENT.RESET_REFUSED 0
    else if s.rebuilding then s
    else s.rebuild uFrontEnd 2)

/-- A queue whose timeout started the reset enters FAULTED; a draining one may be done. -/
def State.afterRebuild (s : State) (q : Nat) : State :=
  if (s.queue q).timedOut then
    (((s.modQueue q fun x => { x with timedOut := false }).queueFault q faultTimeout)).drained q
  else s.drained q

/-- The rebuild reset ends. -/
def execRebuildComplete (s : State) : Res State :=
  .next (if !s.board.alive || !s.rebuilding then s
  else
    let s := { s.finishItems (fun _ => true) stReset 0 with debt := 0, slip := false }
    let s := (s.setFld F.CRS_DEBT.DEBT 0 0).bump F.CFE_STATUS.REBUILDS 0 1
    let s := (List.range 1033).foldl State.afterRebuild s
    let s := s.setFld F.CFG_STATE.PHASE 0 9
    let s := if s.halted then s else s.signalReady
    if s.lossPend then { s with lossPend := false }.beginQuiesce else s)

/-! ## The flash port (R450) -/

/-- SPI_REQ_N falls; with PERST_N deasserted that has no effect. -/
def execSpiReqAssert (s : State) : Res State :=
  .next (if s.board.perst then { s with board := { s.board with spiReq := true } } else s)

/-- SPI_REQ_N rises. -/
def execFlashRelease (s : State) : Res State := .next { s with board := { s.board with spiReq := false } }

/-- A flash command of the tray: read, erase to 0xFF, or program, which clears bits. -/
def execSpiFlashCommand (cmd : SpiCmd) (s : State) : Res State :=
  .next (if !s.trayOwns then s
  else match cmd with
    | .read off len => s.emit (.spi (s.flashRead off len))
    | .erase off len => s.flashWrite off (List.replicate len 0xFF)
    | .program off data => s.flashWrite off ((s.flashRead off data.length).zipWith (· &&& ·) data))

end Sys2Proof.Machine
end

