-- ==== Sys2Proof/Machine/Views.lean ====
section
/-! DEFINITION. Machine/Views.lean: what a read of each register shows: the stored contents, and the fields worked out from
the rest of the state (R4, R82, R100, R123, R163, R182, R219, R238, R292, R319, R320, R345, R355, R367, R385, R401, R432,
R436, R439). -/
namespace Sys2Proof.Machine

/-- Replace a field of a word. -/
def withFld (w : Word) (f : Fld) (v : Nat) : Word := setField w f.hi f.lo v

/-- Register kinds of a lintel's window, of a riddle, of a power domain. -/
def ofLintel : RegKind → Bool
  | .LTL_STATE | .LTL_FLITS_AB | .LTL_FLITS_BA | .LTL_REPLAY | .LTL_WIN | .LTL_TRAIN | .LTL_SB | .LTL_EVENT => true
  | _ => false
def ofRiddle : RegKind → Bool
  | .FDR_RDL_STATE | .FDR_RDL_TOKENS | .FDR_RDL_ASSIGN | .FDR_RDL_EVENT => true
  | _ => false

/-- The unit a register belongs to is present (R436). -/
def Part.hasReg (p : Part) (k : RegKind) (i : Nat) : Bool :=
  match k.place with
  | .tile _ n => i / n / 200 < p.dies
  | .die _ n => i / n < p.dies && (!ofRiddle k || p.hasRiddle (i / n))
  | _ =>
    if ofLintel k then p.hasLintel i
    else match k with
      | .PWR_DOM | .PWR_TRIM => p.hasDomain i
      | .PWR_TEMP => p.hasSensor i
      | _ => true

/-- Registers with a field whose value is open at each read: the rows a row feeder has ready for a lane stream. -/
def openView : RegKind → Bool
  | .FDR_STATE => true
  | _ => false

/-! ## Tile windows -/

/-- CRB_STATE (R100). -/
def State.viewCrb (s : State) (t : Nat) (w : Word) : Word :=
  let x := s.tile t
  let w := withFld w F.CRB_STATE.BOUND (bitN x.block.isSome)
  let w := match s.c0Of t with
    | some g => withFld (withFld w F.CRB_STATE.C0 1) F.CRB_STATE.C0_GROUP g
    | none => w
  withFld (withFld (withFld w F.CRB_STATE.BP_LEVEL x.bp.length) F.CRB_STATE.BQ_LEVEL x.bq.length)
    F.CRB_STATE.LS_LEVEL x.ls.length

/-- CRB_LS_POS (R100). ADDR is the physical scratch address, and REPEAT the passes after the current one: the rule leaves
both readings open (log entry 93). -/
def State.viewLsPos (s : State) (t : Nat) (w : Word) : Word :=
  match (s.tile t).lane with
  | [] => w
  | m :: _ =>
    let w := withFld (withFld w F.CRB_LS_POS.REMAIN (m.count - m.pos)) F.CRB_LS_POS.REPEAT m.again
    match m.src with
    | .scratch k st => withFld (withFld w F.CRB_LS_POS.SOURCE 1) F.CRB_LS_POS.ADDR ((k : Int) + m.pos * st).toNat
    | .feeder _ => withFld w F.CRB_LS_POS.SOURCE 2

/-- Row feeder descriptors of lane streams, in order. -/
def laneFeeders (x : Tile) : List (List Byte) := x.lane.filterMap fun m => match m.src with
  | .feeder d => some d
  | .scratch _ _ => none

/-- FDR_STATE (R163): the tile's own lane streams, or the streams of the arch whose row feeder or drain it is. Ready rows of
an arch are those read and not entered; how many a lane stream's feeder has ready is open. -/
def State.viewFdr (s : State) (t : Nat) (w : Word) : Word :=
  let x := s.tile t
  let arch : ArchCtl := match s.archOf t with
    | some (o, _) => (s.tile o).arch
    | none => .none
  let west := s.on F.ARC_SHAPE.WEST t
  let run := if west then (arch.streams.filter ArchStream.started).map ArchStream.desc else []
  let wait := if west then (arch.streams.filter fun m => !m.started).length else 0
  let own := laneFeeders x
  let act := run ++ own.take 1
  let held := (arch.streams.map fun m => (m.acts.filter fun e => m.issued ≤ e.1).length).sum
  let ready := if west && !arch.streams.isEmpty then min 128 held else if own.isEmpty then 0 else s.freeNat % 129
  let w := withFld w F.FDR_STATE.RF_READY ready
  let w := withFld w F.FDR_STATE.SORT_PEND (s.sortsOf t).length
  let w := withFld w F.FDR_STATE.RF_QUEUE (wait + (own.drop 1).length)
  let w := match act with
    | d :: _ => withFld (withFld w F.FDR_STATE.RF_ACTIVE 1) F.FDR_STATE.RF_KIND (rdKind d)
    | [] => w
  let w := withFld w F.FDR_STATE.WF_BUSY (bitN (arch.wdesc.isSome && !arch.staged))
  withFld w F.FDR_STATE.DR_BUSY (bitN !(s.drainPackets t).isEmpty)

/-- Registers of a tile window. -/
def State.viewTile (s : State) (k : RegKind) (t : Nat) (w : Word) : Word :=
  match k with
  | .CRB_STATE => s.viewCrb t w
  | .CRB_LS_POS => s.viewLsPos t w
  | .TSQ_PC => withFld w F.TSQ_PC.PC (s.tile t).pc
  | .FDR_STATE => s.viewFdr t w
  | _ => w

/-! ## Die windows, lintels, power -/

/-- Die-level registers. -/
def State.viewDie (s : State) (k : RegKind) (d : Nat) (w : Word) : Word :=
  match k with
  | .FDR_RDL_STATE =>
    let js := s.jobs d
    let w := withFld (withFld w F.FDR_RDL_STATE.PRESENT 1) F.FDR_RDL_STATE.BUSY (bitN (js.any RJob.started))
    withFld w F.FDR_RDL_STATE.QUEUED (js.drop 1).length
  | .SCP_DS_CLAIM =>
    withFld w F.SCP_DS_CLAIM.CLAIMED ((((s.heldBanks.eraseDups.filter fun g => g / 64 = d)).map fun g => 2 ^ (g % 64)).sum)
  | .MTC_STATE =>
    let lost := (s.lost.filter fun l => s.part.homeDie l = d).length + (s.copies.filter fun c => c.die = d && c.gone).length
    let w := withFld w F.MTC_STATE.LOST_LINES lost
    withFld w F.MTC_STATE.COPIES (s.copies.filter fun c => c.die = d).length
  | .MEM_TRACK =>
    let n := min 65536 (s.tracked d)
    withFld (withFld w F.MEM_TRACK.OUTSTANDING n) F.MEM_TRACK.PEAK (max n (s.fld F.MEM_TRACK.PEAK d))
  | _ => w

/-- PWR_DOM. -/
def State.viewDom (s : State) (d : Nat) (w : Word) : Word :=
  let w := withFld w F.PWR_DOM.ON (bitN (s.domOn d))
  if 16 ≤ d then withFld w F.PWR_DOM.DUTY 15
  else
    let w := withFld (withFld w F.PWR_DOM.C0 (bitN (s.quadC0 d))) F.PWR_DOM.PLINTH (bitN (s.quadPlinth d))
    withFld w F.PWR_DOM.DUTY ((quadTiles d).foldl (fun m t => min m (s.duty t)) 16 - 1)

/-- PWR_PHASE_DATA: entry i is the i-th most recent one. -/
def State.viewPhase (s : State) (w : Word) : Word :=
  let i := s.fld F.PWR_PHASE_SEL.INDEX 0
  match s.phases[i]? with
  | none => w
  | some (sig, p, u) =>
    let w := withFld (withFld w F.PWR_PHASE_DATA.VALID 1) F.PWR_PHASE_DATA.SIG sig
    withFld (withFld (withFld w F.PWR_PHASE_DATA.P_TILE (min p 65535)) F.PWR_PHASE_DATA.UTIL (min u 255))
      F.PWR_PHASE_DATA.AGE i

/-- An energy counter as an agent of owner tag `tag` sees it (R400): the live value for tag 8; for a queue of the partition or
the partition itself the value latched at the boundary; zero otherwise. -/
def State.viewEnergy (s : State) (tag : Nat) (mine : Bool) (key : Nat) (w : Word) : Word :=
  if tag = 8 then w else if mine then BitVec.ofNat 64 (SMap.get s.eview 0 key) else 0

/-! ## The error log (R423, R426, R432) -/

/-- The 64 bytes of a record. -/
def LogRec.bytes (e : LogRec) : List Byte :=
  bytesOf 2 e.code ++ bytesOf 1 e.sev ++ bytesOf 1 e.flags ++ bytesOf 2 e.cause ++ bytesOf 2 e.source ++
    List.flatten [bytesOf 8 e.course, bytesOf 8 e.time, bytesOf 8 e.addr, bytesOf 4 e.count, bytesOf 1 e.dies,
      bytesOf 1 e.part, bytesOf 2 e.queue, bytesOf 8 e.detail, bytesOf 4 e.seq, bytesOf 12 0]

/-- Word `j` of a log entry: the record, then a 32-byte tile map for each C-die. -/
def LogRec.word (e : LogRec) (j : Nat) : Word :=
  if j < 8 then BitVec.ofNat 64 (le e.bytes (8 * j) 8)
  else if j < 24 then BitVec.ofNat 64 (e.maps.getD ((j - 8) / 4) 0 / 2 ^ (64 * ((j - 8) % 4)))
  else 0

/-! ## Every register -/

/-- Registers of the front end, host coupling, lintels and power. -/
def State.viewBlock (s : State) (tag : Nat) (k : RegKind) (i : Nat) (w : Word) : Word :=
  match k with
  | .CFE_Q_STATE =>
    withFld (withFld w F.CFE_Q_STATE.IN_FLIGHT (s.inFlight i)) F.CFE_Q_STATE.HELD (s.queue i).held.length
  | .HOD_LINK => withFld w F.HOD_LINK.IDE_STREAMS s.trust.ide.length
  | .HOD_STATE =>
    withFld (withFld (withFld w F.HOD_STATE.QUEUED (s.hodWaiting i)) F.HOD_STATE.ACTIVE (s.hodActive i).length)
      F.HOD_STATE.TAGS (s.hodTags i)
  | .CHK_VALUE => BitVec.ofNat 64 (s.chkValue i)
  | .CHK_RESULT => BitVec.ofNat 64 (s.chkResult i)
  | .LTL_STATE =>
    withFld (withFld (withFld w F.LTL_STATE.PRESENT 1) F.LTL_STATE.END_A (lintelEnds i).1) F.LTL_STATE.END_B (lintelEnds i).2
  | .PWR_PHASE_DATA => s.viewPhase w
  | .PWR_DOM => s.viewDom i w
  | .PWR_TEMP => withFld w F.PWR_TEMP.PRESENT 1
  | .PWR_EPART => s.viewEnergy tag (i = tag) (1024 + i) w
  | .PWR_EQ => s.viewEnergy tag (s.qPart i = tag && s.qState i ≠ qFree) i w
  | _ => w

/-- Registers of security, errors and the part. -/
def State.viewSys (s : State) (k : RegKind) (i : Nat) (w : Word) : Word :=
  match k with
  | .SEC_SLOTS => BitVec.ofNat 64 s.slotsInUse
  | .SEC_PART =>
    withFld (withFld (withFld w F.SEC_PART.TILES (s.tilesOf i).length) F.SEC_PART.RANGES (s.rangesOf i).length)
      F.SEC_PART.SLOTS (s.trust.slots.filter fun p => p.2 = i).length
  | .SEC_MBOX_BUF =>
    if s.on F.SEC_MBOX_CMD.BUSY 0 then 0
    else BitVec.ofNat 64 (ofBytes ((List.range 8).map fun j => SMap.get s.trust.mbox 0 (8 * i + j)))
  | .ERR_LOG => match SMap.find? s.grout (i / 32) with
    | some e => e.word (i % 32)
    | none => 0
  | .CAP_ID => withFld (withFld w F.CAP_ID.STEPPING (1 + Config.fuse 16 % 255)) F.CAP_ID.PART s.part.id
  | .CAP_UNITS => BitVec.ofNat 64 s.part.units
  | .CAP_SIZES => BitVec.ofNat 64 s.part.sizes
  | _ => w

/-- What a read of a register by an agent of owner tag `tag` returns: WO fields read zero, an absent unit's registers too. -/
def State.view (s : State) (tag : Nat) (k : RegKind) (i : Nat) : Word :=
  if !s.part.hasReg k i then 0
  else
    let w := k.fields.foldl (fun w f => if f.acc = .wo then withFld w f 0 else w) (s.reg k i)
    match k.place with
    | .tile _ n => s.viewTile k (i / n) w
    | .die _ n => s.viewDie k (i / n) w
    | _ => s.viewSys k i (s.viewBlock tag k i w)

end Sys2Proof.Machine
end

