-- ==== Sys2Proof/Machine/ErrLog.lean ====
section
/-! DEFINITION. Machine/ErrLog.lean: reports that reach the root collector, the closing of records, and the count of records
software has consumed (R421, R424, R425, R427, R428, R431). -/
namespace Sys2Proof.Machine

/-- Severity of each error code (R431); the other codes are reserved and never written. -/
def codeSev : Nat → Option Nat
  | 0x0101 | 0x0401 | 0x0503 | 0x0701 | 0x0702 | 0x0703 => some 0
  | 0x0304 => some 1
  | 0x0102 | 0x0103 | 0x0104 | 0x0201 | 0x0203 | 0x0204 | 0x0301 | 0x0303 | 0x0501 | 0x0502 | 0x0601 | 0x0602 => some 2
  | 0x0105 | 0x0202 | 0x0302 | 0x0305 | 0x0306 | 0x0402 | 0x0403 | 0x0603 => some 3
  | _ => none

/-- Classes of unit that a code may name as cause (R431). -/
def codeCause : Nat → List Nat
  | 0x0101 | 0x0105 => [0xA]
  | 0x0102 | 0x0103 => [6]
  | 0x0104 => [6, 0xA]
  | 0x0201 | 0x0202 => [0]
  | 0x0203 => [0, 1]
  | 0x0204 => [5, 0xA]
  | 0x0301 | 0x0302 => [2]
  | 0x0303 | 0x0304 | 0x0305 | 0x0306 => [3]
  | 0x0401 | 0x0402 | 0x0403 => [4]
  | 0x0501 => [5]
  | 0x0502 | 0x0503 => [0xC]
  | 0x0601 => [7, 8]
  | 0x0602 | 0x0603 => [7]
  | 0x0701 | 0x0702 | 0x0703 => [0xB]
  | _ => []

/-- A report as a unit makes one: a code with its severity and a cause it may name, detected by now. -/
def State.reportOk (s : State) (r : Report) (course time : Nat) : Bool :=
  s.board.alive && codeSev r.code = some r.sev && (codeCause r.code).contains (r.cause / 0x1000) &&
    course ≤ s.course && time ≤ s.ticks

/-- A unit's report reaches the log; a lost slice also takes memory to RECOVERY. -/
def execErrorReport (d : Detected) (s : State) : Res State :=
  let r := d.report
  .next (if !s.reportOk r d.course d.time then s
    else if r.code = 0x0302 && r.cause - uSlice 0 < s.part.dies then
      (s.sliceGone (r.cause - uSlice 0)).reportOf d.course d.time r
    else s.reportOf d.course d.time r)

/-- The record in entry `n` closes, at the second boundary after its course or later. -/
def execRecordClose (n : Nat) (s : State) : Res State :=
  .next (match SMap.find? s.grout n with
    | some e => if s.timer && e.course + 2 ≤ s.course then
        { s with grout := SMap.insert s.grout n { e with flags := e.flags ||| 1 } } else s
    | none => s)

/-- Software has consumed records up to a count; one behind the count in force or beyond HEAD has no effect. -/
def execErrLogTailWrite (v : BitVec 64) (s : State) : Res State :=
  let n := v.toNat % 2 ^ 32
  let tail := s.fld F.ERR_LOG_TAIL.TAIL 0
  .next (if s.board.alive && ahead n tail ≤ ahead (s.fld F.ERR_LOG_HEAD.HEAD 0) tail then
      s.setFld F.ERR_LOG_TAIL.TAIL 0 n
    else s)

end Sys2Proof.Machine
end

