-- ==== Sys2Proof/Machine/Mgmt.lean ====
section
/-! DEFINITION. Machine/Mgmt.lean: the management bus targets, the FRU EEPROM and the test access port (R451 to R453). -/
namespace Sys2Proof.Machine

/-! ## The IO-die target (R452) -/

/-- The target answers from the end of phase 0 of start-up. -/
def State.mgmtUp (s : State) : Bool := s.board.alive && 1 ≤ s.fld F.CFG_STATE.PHASE 0

/-- A transfer to the target: refused before it answers. -/
def State.mgmt (s : State) (f : State → State) : State := if s.mgmtUp then f s else s.emit .nack

/-- SETDASA to a static address: the target whose address it is takes the dynamic one, if it has none. -/
def execSetdasa (static dyn : Nat) (s : State) : Res State :=
  .next (if static ≠ 0x30 + s.board.slot then s
    else s.mgmt fun s =>
      if s.board.dyn.isSome then s.emit .nack else { s with board := { s.board with dyn := some dyn } })

/-- ENTDAA: a target without a dynamic address takes one. -/
def execEntdaa (dyn : Nat) (s : State) : Res State :=
  .next (if s.mgmtUp && s.board.dyn.isNone then { s with board := { s.board with dyn := some dyn } } else s)

/-- A private write: two bytes are the index, little-endian; any other length is ignored. -/
def execMgmtIndexWrite (data : List (BitVec 8)) (s : State) : Res State :=
  .next (s.mgmt fun s =>
    if data.length = 2 then { s with board := { s.board with index := ofBytes data } } else s)

/-- The register an index names. -/
def mgmtReg (n : Nat) : Option (RegKind × Nat) :=
  match n with
  | 0x00 => some (.CAP_ID, 0)
  | 0x01 => some (.SEC_SERIAL, 0)
  | 0x02 => some (.CFG_STATE, 0)
  | 0x03 => some (.CFE_STATUS, 0)
  | 0x04 => some (.SEC_STATE, 0)
  | 0x18 => some (.CFG_LIVE_SEQ, 0)
  | 0x28 => some (.CFG_EPOCH, 0)
  | 0x30 => some (.ERR_FATAL, 0)
  | 0x31 => some (.ERR_COUNT, 0)
  | 0x40 => some (.PWR_STATUS, 0)
  | 0x41 => some (.PWR_CAP, 0)
  | 0x42 => some (.PWR_EVENT, 0)
  | 0x70 => some (.HOD_HOSTLOSS, 0)
  | _ =>
    if 0x10 ≤ n && n ≤ 0x15 then some (.CFG_PLUMB, n - 0x10)
    else if 0x20 ≤ n && n ≤ 0x25 then some (.CFG_LIVE, n - 0x20)
    else if 0x50 ≤ n && n ≤ 0x62 then some (.PWR_TEMP, n - 0x50)
    else none

/-- A private read: the indexed register's eight bytes, zero for an index not in the table; nothing is cleared. -/
def execMgmtRead (s : State) : Res State :=
  .next (s.mgmt fun s =>
    s.emit (.i3c (match mgmtReg s.board.index with
      | some (k, i) => bytesOf 8 (s.view 8 k i).toNat
      | none => List.replicate 8 0)))

/-! ## The regulator management port (R453) -/

/-- A PMBus command reaches the port, which the auxiliary rail powers (R442). -/
def State.pmbus (s : State) (f : State → State) : State := if s.board.aux then f s else s.emit .nack

/-- A reading of `n` bytes: its value is open. -/
def State.reading (s : State) (cmd n : Nat) : State :=
  s.drawn.emit (.pmbus cmd (bytesOf n (Config.pmbus cmd s.freeCtr)))

def execReadVin (s : State) : Res State := .next (s.pmbus fun s => s.reading 0x88 2)
def execReadIin (s : State) : Res State := .next (s.pmbus fun s => s.reading 0x89 2)
def execReadPin (s : State) : Res State := .next (s.pmbus fun s => s.reading 0x97 2)
/-- The input energy accumulator: its bytes; the read leaves it unchanged. -/
def execReadEin (s : State) : Res State :=
  .next (s.pmbus fun s => s.emit (.pmbus 0x86 (bytesOf 6 (Config.pmbus 0x86 (s.freeCtr * 2 ^ 64 + s.ticks)))))
def execReadTemperature1 (s : State) : Res State := .next (s.pmbus fun s => s.reading 0x8D 2)
/-- The status word: its bits are the PMBus standard's and open here. -/
def execStatusWord (s : State) : Res State := .next (s.pmbus fun s => s.reading 0x79 2)

/-- The status latch as a byte. -/
def Board.latch (b : Board) : Nat :=
  bitN b.trip + 2 * bitN b.air0 + 4 * bitN b.air1 + 8 * bitN b.uv + 16 * bitN b.ov + 64 * bitN b.perst + 128 * bitN b.rails

def execStatusMfrSpecific (s : State) : Res State :=
  .next (s.pmbus fun s => s.emit (.pmbus 0x80 (bytesOf 1 s.board.latch)))

/-- The serial: the same bytes at every read, which the board holds. -/
def execMfrSerial (s : State) : Res State :=
  .next (s.pmbus fun s =>
    s.emit (.pmbus 0x9E ((List.range (Config.pmbus 0x9E 0 % 33)).map fun i => BitVec.ofNat 8 (Config.pmbus 0x9E (1 + i)))))

/-- Bits 1 to 4 of the status latch clear. -/
def execClearFaults (s : State) : Res State :=
  .next (s.pmbus fun s =>
    { s with board := { s.board with air0 := false, air1 := false, uv := false, ov := false } })

/-- The commands the port accepts. -/
def pmbusCmds : List Nat := [0x03, 0x79, 0x80, 0x86, 0x88, 0x89, 0x8D, 0x97, 0x9E]

/-- Every other command is refused. -/
def execPmbusUnsupported (cmd : BitVec 8) (s : State) : Res State :=
  .next (if pmbusCmds.contains cmd.toNat then s else s.emit .nack)

/-- A read of the FRU EEPROM: what it holds is open. -/
def execFruRead (off len : Nat) (s : State) : Res State :=
  .next (s.pmbus fun s => s.emit (.i3c ((List.range len).map fun i => Config.fruByte (off + i))))

/-! ## The test access port (R451) -/

/-- Successor of a TAP controller state of IEEE 1149.1, numbered from Test-Logic-Reset and Run-Test/Idle through the DR
column (2 Select, 3 Capture, 4 Shift, 5 Exit1, 6 Pause, 7 Exit2, 8 Update) and the IR column (9 to 15). -/
def tapNext (st : Nat) (tms : Bool) : Nat :=
  let t (a b : Nat) : Nat := if tms then a else b
  match st with
  | 0 => t 0 1
  | 1 => t 2 1
  | 2 => t 9 3
  | 3 => t 5 4
  | 4 => t 5 4
  | 5 => t 8 6
  | 6 => t 7 6
  | 7 => t 8 4
  | 8 => t 2 1
  | 9 => t 0 10
  | 10 => t 12 11
  | 11 => t 12 11
  | 12 => t 15 13
  | 13 => t 14 13
  | 14 => t 15 11
  | _ => t 2 1

/-- An edge of TCK: the bypass register is captured as 0 and shifted towards TDO; what the instruction register or, with
the JTAG level unlocked, a vendor test instruction gives is open. -/
def execJtagTck (tms tdi : Bool) (s : State) : Res State :=
  let b := s.board
  let s' : State := { s with board := { b with tap := tapNext b.tap tms } }
  .next (if !b.alive then s
    else if b.tap = 3 then { s' with board := { s'.board with bypass := false } }
    else if b.tap = 4 then
      let out := if s.on F.SEC_DEBUG.JTAG 0 then s.freeNat % 2 = 1 else b.bypass
      { s'.drawn with board := { s'.board with bypass := tdi } }.emit (.tdo out)
    else if b.tap = 11 then s'.drawn.emit (.tdo (s.freeNat % 2 = 1))
    else s')

/-- JTAG_TRST_N: the TAP returns to Test-Logic-Reset. -/
def execJtagTrst (s : State) : Res State := .next { s with board := { s.board with tap := 0, bypass := false } }

end Sys2Proof.Machine
end

