-- ==== Sys2Proof/Machine/Registers.lean ====
section
/-! DEFINITION. Machine/Registers.lean: accesses to registers by the host and the cores: decoding, who may reach what, and
what reads and writes do (R3 to R7, R292, R296 to R298, R326, R374, R384, R387, R400, R404, R405, R434 to R438). -/
namespace Sys2Proof.Machine

/-! ## Decoding (R297, R298, R434) -/

/-- A block of the PF's BAR0: offset, size, physical base. -/
def pfBlocks : List (Nat × Nat × Nat) :=
  [(0x0000000, 0x1000000, 0x10000000), (0x1000000, 0x1000000, 0x11000000), (0x2000000, 0x400000, 0x13000000),
    (0x2400000, 0x400000, 0x12000000), (0x2800000, 0x400000, 0x15000000), (0x2C00000, 0x400000, 0x14000000),
    (0x3000000, 0x400000, 0x16000000)]

/-- Physical address of an offset of the PF's BAR0; the window's base is HOD_PF_WIN.BASE. -/
def State.pfPa (s : State) (o : Nat) : Option Nat :=
  if 0x3400000 ≤ o && o < 0x3500000 then some (s.fld F.HOD_PF_WIN.BASE 0 * 2 ^ 20 + (o - 0x3400000))
  else (pfBlocks.find? fun b => b.1 ≤ o && o < b.1 + b.2.1).map fun b => b.2.2 + (o - b.1)

/-- Physical address of an offset of VF `fn`'s BAR0. -/
def vfPa (fn o : Nat) : Option Nat :=
  if o < 0x400000 then some (0x10000000 + o)
  else if o < 0x401000 then some (0x10400000 + fn * 0x1000 + (o - 0x400000))
  else if 0x500000 ≤ o && o < 0x510000 then some (0x10500000 + (o - 0x500000))
  else if 0x600000 ≤ o && o < 0x600040 then some (0x10600000 + fn * 0x40 + (o - 0x600000))
  else none

/-- Offset ranges of the MSI-X table and pending-bit array of a function. -/
def msixBase (fn : Nat) : Nat := if fn = 0 then 0x3F00000 else 0x700000
def pbaBase (fn : Nat) : Nat := if fn = 0 then 0x3F80000 else 0x780000

/-- Before the first READY, BAR0 decodes the CFG, ERR and SEC blocks and CFE_STATUS; in boot recovery the SEC block alone
(R374, R404). -/
def State.bar0Open (s : State) (o : Nat) : Bool :=
  if s.recovering then 0x2C00000 ≤ o && o < 0x3000000
  else s.timer || (0x2000000 ≤ o && o < 0x2400000) || (0x2800000 ≤ o && o < 0x3000000) || o / 8 = 0x700000 / 8

/-- What an access meets: a register, a word of a function's MSI-X table or pending-bit array, or nothing. -/
inductive Target where
  | reg (k : RegKind) (i : Nat)
  | msix (fn word : Nat)
  | pba (fn word : Nat)
  | none

/-- A queue is one of owner tag `tag`'s: of its admin queue, or that queue itself. -/
def State.queueIs (s : State) (q tag : Nat) : Bool := s.qOwner q = tag + 1 && (isAdmin q || s.qState q ≠ qFree)

/-- An owner tag may reach a register (R387, R400): the operator everything but the tile windows, queues and contexts of
LOCKED partitions, and writes only to tile windows of its own tiles; a tenant its own tiles and queues, and the energy
counters to read. -/
def State.mayReach (s : State) (tag : Nat) (k : RegKind) (i : Nat) (write : Bool) : Bool :=
  let locked (p : Nat) : Bool := p < 8 && s.partState p = pLocked
  let queue (q : Nat) : Bool :=
    if tag = 8 then s.qOwner q = 0 || (!isAdmin q && s.qState q = qFree) || !locked (s.qOwner q - 1) else s.queueIs q tag
  match k.place with
  | .tile _ n =>
    let o := s.tileOwnerOf (i / n)
    if tag = 8 then (if write then o = 8 else !locked o) else o = tag
  | .qdb _ | .qctl _ | .qwork _ | .qadmin _ => queue i
  | _ => match k with
    | .XLT_CTX_ROOT | .XLT_CTX_DATUM => tag = 8 && !(s.ctxValid i && locked (s.ctxTag i))
    | .PWR_EQ | .PWR_EPART => tag = 8 || !write
    | _ => tag = 8

/-- The register at a physical address that a tag may reach. -/
def State.target (s : State) (tag pa : Nat) (write : Bool) : Target :=
  match regAt (pa / 8 * 8) with
  | some r => if s.part.hasReg r.kind r.idx && s.mayReach tag r.kind r.idx write then .reg r.kind r.idx else .none
  | none => .none

/-- What an offset of function `fn`'s BAR0 meets. -/
def State.bar0 (s : State) (fn o : Nat) (write : Bool) : Target :=
  if (if fn = 0 then !s.bar0Open o else s.recovering || !s.timer) then .none
  else if msixBase fn ≤ o && o < msixBase fn + 0x8000 then .msix fn ((o - msixBase fn) / 8)
  else if pbaBase fn ≤ o && o < pbaBase fn + 0x100 then .pba fn ((o - pbaBase fn) / 8)
  else match if fn = 0 then s.pfPa o else vfPa fn o with
    | none => .none
    | some pa => s.target (if fn = 0 then 8 else fn - 1) pa write

/-! ## MSI-X table and pending bits (R298, R405) -/

/-- A word of the table: the message address, or the message data with the vector's mask bit. -/
def State.msixWord (s : State) (fn w : Nat) : Word :=
  let k := fn * 2048 + w / 2
  if w % 2 = 0 then SMap.get s.msixAddr 0 k else SMap.get s.msixData (BitVec.ofNat 64 (2 ^ 32)) k

/-- Replace a word of the table: the address is 4 B aligned, and of the vector control only the mask bit is held. A held
message of an unmasked vector goes out. -/
def State.setMsixWord (s : State) (fn w : Nat) (v : Word) : State :=
  let k := fn * 2048 + w / 2
  if w % 2 = 0 then { s with msixAddr := SMap.insert s.msixAddr k (BitVec.ofNat 64 (v.toNat / 4 * 4)) }
  else { s with msixData := SMap.insert s.msixData k (BitVec.ofNat 64 (v.toNat % 2 ^ 33)) }.msixFlush fn

/-- A word of the pending-bit array. -/
def State.pbaWord (s : State) (fn w : Nat) : Word :=
  BitVec.ofNat 64 (((List.range 64).map fun j => if s.msixPend.contains (fn * 2048 + 64 * w + j) then 2 ^ j else 0).sum)

/-! ## Writes (R4, R6, R7, R437) -/

/-- Bits `hi` to `lo` of a word replaced by those of `v`. -/
def merge (w v : Word) (hi lo : Nat) : Word := setField w hi lo (getField v hi lo)

/-- The bytes written, bits `hi` to `lo`, reach a field, or cover it. -/
def Fld.meets (f : Fld) (hi lo : Nat) : Bool := f.lo ≤ hi && lo ≤ f.hi
def Fld.within (f : Fld) (hi lo : Nat) : Bool := lo ≤ f.lo && f.hi ≤ hi

/-- A write's effect on one field by its access code; a configuration-class field keeps its value once locked. -/
def State.writeFld (s : State) (i : Nat) (v : Word) (hi lo : Nat) (f : Fld) : State :=
  if !f.meets hi lo then s
  else match f.acc with
    | .rw =>
      if f.cls = .config && s.on F.CFG_STATE.LOCKED 0 then s
      else s.setFld f i (f.fit (getField (merge (s.reg f.reg i) v hi lo) f.hi f.lo))
    | .w1c => if v.toNat.testBit f.lo then s.setFld f i 0 else s
    | .w1s => if v.toNat.testBit f.lo then s.setFld f i 1 else s
    | .ro | .wo | .rc => s

/-- A write of bits `hi` to `lo` under the access codes; one that reaches a locked configuration-class field is counted. -/
def State.writeFields (s : State) (k : RegKind) (i : Nat) (v : Word) (hi lo : Nat) : State :=
  let hit := s.on F.CFG_STATE.LOCKED 0 && k.fields.any fun f => f.acc = .rw && f.cls = .config && f.meets hi lo
  let s := k.fields.foldl (fun s f => s.writeFld i v hi lo f) s
  if hit then (s.bump F.CFG_LOCKED_WRITES.COUNT 0 1).raise F.CFG_EVENT.LOCKED_WRITE 0 else s

/-- A write to CFE_AQ_CFG (R284, R292). -/
def State.writeAq (s : State) (q : Nat) (v : Word) : State :=
  if s.on F.CFE_AQ_CFG.ENABLE q then
    if v.toNat.testBit 63 then s.raise F.CFE_Q_EVENT.CTL_REFUSED q else Res.st (execAdminQueueDisable (q - 1024) v s) s
  else if v.toNat.testBit 63 then Res.st (execAdminQueueEnable (q - 1024) v s) s
  else s.setReg .CFE_AQ_CFG q (aqCfg v)

/-- A write to a queue's registers: `m` is the register as the write leaves its RW bits. -/
def State.writeQueue (s : State) (k : RegKind) (q : Nat) (m : Word) (hi lo : Nat) : State :=
  match k with
  | .CFE_Q_SQ_DB => if F.CFE_Q_SQ_DB.TAIL.within hi lo then Res.st (execSqDoorbell q m s) s else s
  | .CFE_Q_CQ_DB => if F.CFE_Q_CQ_DB.CONSUMED.within hi lo then Res.st (execCqDoorbell q m s) s else s
  | .CFE_AQ_CFG => s.writeAq q m
  | .CFE_Q_SQ_BASE | .CFE_Q_CQ_BASE =>
    if !isAdmin q then s
    else if s.on F.CFE_AQ_CFG.ENABLE q then s.raise F.CFE_Q_EVENT.CTL_REFUSED q
    else s.setReg k q (BitVec.ofNat 64 (m.toNat / 4096 * 4096))
  | .CFE_Q_CTL =>
    if !F.CFE_Q_CTL.TIMEOUT.meets hi lo then s
    else
      let s := Res.st (execTimeoutWrite q m s) s
      if m.toNat.testBit 8 then Res.st (execResume q s) s else s
  | _ => s.writeFields k q m hi lo

/-- A write to MTC_CMD (R218): OP selects the command. -/
def State.writeMtc (s : State) (d : Nat) (m : Word) (hi lo : Nat) : State :=
  let n := getField m 26 16
  if s.on F.MTC_CMD.BUSY d then s.raise F.MTC_EVENT.CMD_REJECT d
  else if !F.MTC_CMD.OP.within hi lo then s
  else match getField m 3 0 with
    | 1 => Res.st (execWritebackAll d n s) s
    | 2 => Res.st (execWritebackRange d n s) s
    | 3 => Res.st (execEvictRange d n s) s
    | 4 => Res.st (execDiscardLostRange d n s) s
    | _ => s.raise F.MTC_EVENT.CMD_REJECT d

/-- A write to MEM_ADD_CMD (R235): OP 0 and 3 are no command, and TYPE applies. -/
def State.writeAdd (s : State) (d : Nat) (m : Word) (hi lo : Nat) : State :=
  let ty := min 2 (getField m 5 4)
  if !F.MEM_ADD_CMD.OP.within hi lo then s
  else match getField m 1 0 with
    | 1 => Res.st (execMemAdd d ty s) s
    | 2 => Res.st (execMemSum d ty s) s
    | _ => s.setFld F.MEM_ADD_CMD.TYPE d ty

/-- A write to XLT_INV (R250). -/
def State.writeXlt (s : State) (m : Word) (hi lo : Nat) : State :=
  let c := getField m 15 8
  if s.on F.XLT_INV.BUSY 0 then s.raise F.XLT_EVENT.INV_REJECT 0
  else if !F.XLT_INV.OP.within hi lo then s
  else match getField m 1 0 with
    | 1 => (Res.st (execXltInvAll s) s).setFld F.XLT_INV.CTX 0 c
    | 2 => Res.st (execXltInvContext c s) s
    | 3 => Res.st (execXltInvContextRange c s) s
    | _ => s.raise F.XLT_EVENT.INV_REJECT 0

/-- A write to a check-value unit (R316, R317). -/
def State.writeChk (s : State) (k : RegKind) (u : Nat) (m : Word) (hi lo : Nat) : State :=
  match k with
  | .CHK_CFG => if F.CHK_CFG.WIDTH.meets hi lo then Res.st (execChkLoad u m s) s else s
  | .CHK_VALUE => Res.st (execChkValueWrite u m s) s
  | .CHK_DATA8 => if F.CHK_DATA8.DATA.within hi lo then Res.st (execChkData8 u (m.setWidth 8) s) s else s
  | .CHK_DATA16 => if F.CHK_DATA16.DATA.within hi lo then Res.st (execChkData16 u (m.setWidth 16) s) s else s
  | .CHK_DATA32 => if F.CHK_DATA32.DATA.within hi lo then Res.st (execChkData32 u (m.setWidth 32) s) s else s
  | _ => s.writeFields k u m hi lo

/-- A write to SEC_MBOX_CMD (R384): LENGTH applies, and OP, where the write covers it, starts a command. -/
def State.writeMbox (s : State) (m : Word) (hi lo : Nat) : State :=
  if s.on F.SEC_MBOX_CMD.BUSY 0 then s.raise F.SEC_EVENT.REFUSED 0
  else
    let len := min 1048576 (getField m 40 20)
    if F.SEC_MBOX_CMD.OP.within hi lo then s.mboxStart (getField m 7 0) len else s.setFld F.SEC_MBOX_CMD.LENGTH 0 len

/-- A write to eight bytes of the mailbox buffer, dropped while a command runs. -/
def State.writeMboxBuf (s : State) (i : Nat) (m : Word) : State :=
  if s.on F.SEC_MBOX_CMD.BUSY 0 then s
  else
    let put (b : SMap Byte) : SMap Byte := (bytesOf 8 m.toNat).zipIdx.foldl (fun b p => SMap.set b 0 (8 * i + p.2) p.1) b
    { s with trust := { s.trust with mbox := put s.trust.mbox } }

/-- A write of 1 to the resets of CFG_RESET (R417, R419). -/
def State.writeReset (s : State) (m : Word) (hi lo : Nat) : State :=
  if !F.CFG_RESET.CORE.within hi lo then s
  else
    let s := if m.toNat.testBit 0 then Res.st (execRebuildReset s) s else s
    if m.toNat.testBit 1 then Res.st (execCfgResetCore s) s else s

/-- The contents a write merges with: zero in the bits of WO fields, the bytes held for the mailbox buffer. -/
def State.writeBase (s : State) (k : RegKind) (i : Nat) : Word :=
  match k with
  | .CFE_Q_SQ_DB | .CFE_Q_CQ_DB | .CHK_DATA8 | .CHK_DATA16 | .CHK_DATA32 | .CFG_RESET => 0
  | .SEC_MBOX_BUF => s.view 8 k i
  | _ => s.reg k i

/-- TILE_COUNT applies as at most the tiles from FIRST_TILE on (R6). -/
def State.fitGroup (s : State) (g : Nat) : State :=
  s.setFld F.CRS_C0_GROUP.TILE_COUNT g
    (min (s.fld F.CRS_C0_GROUP.TILE_COUNT g) (800 - s.fld F.CRS_C0_GROUP.FIRST_TILE g))

/-- A write of bits `hi` to `lo` of a register. -/
def State.writeReg (s : State) (k : RegKind) (i : Nat) (v : Word) (hi lo : Nat) : State :=
  let m := merge (s.writeBase k i) v hi lo
  match k with
  | .CFE_Q_SQ_DB | .CFE_Q_CQ_DB | .CFE_AQ_CFG | .CFE_Q_SQ_BASE | .CFE_Q_CQ_BASE | .CFE_Q_CTL => s.writeQueue k i m hi lo
  | .MTC_CMD => s.writeMtc i m hi lo
  | .MEM_ADD_CMD => s.writeAdd i m hi lo
  | .XLT_INV => s.writeXlt m hi lo
  | .CHK_CFG | .CHK_VALUE | .CHK_DATA8 | .CHK_DATA16 | .CHK_DATA32 => s.writeChk k i m hi lo
  | .SEC_MBOX_CMD => s.writeMbox m hi lo
  | .SEC_MBOX_BUF => s.writeMboxBuf i m
  | .CFG_RESET => s.writeReset m hi lo
  | .ERR_LOG_TAIL => if F.ERR_LOG_TAIL.TAIL.meets hi lo then Res.st (execErrLogTailWrite m s) s else s
  | .PWR_CAP => if F.PWR_CAP.CAP.meets hi lo then Res.st (execPwrCapWrite m s) s else s
  | .CRS_SHARE => if F.CRS_SHARE.C3_SHARE.meets hi lo then Res.st (execCrsShareWrite m s) s else s
  | .CRS_SLICE => if F.CRS_SLICE.C1_SLICE.meets hi lo then Res.st (execCrsSliceWrite m s) s else s
  | .CRS_C0_GROUP => (s.writeFields k i v hi lo).fitGroup i
  | _ => s.writeFields k i v hi lo

/-! ## Accesses (R296, R326, R437) -/

/-- An access is of 4 or 8 naturally aligned bytes. -/
def RegAcc.aligned (a : RegAcc) : Bool := (a.size = 4 || a.size = 8) && a.addr % a.size = 0

/-- Bits of its doubleword that an access covers: its lowest, its highest. -/
def RegAcc.lo (a : RegAcc) : Nat := 8 * (a.addr % 8)
def RegAcc.hi (a : RegAcc) : Nat := RegAcc.lo a + 8 * a.size - 1

/-- BAR0 of function `fn` is there: the link is up and the function enumerated. -/
def State.bar0Here (s : State) (fn : Nat) : Bool :=
  s.board.alive && s.on F.HOD_LINK.UP 0 && (fn = 0 || (fn ≤ 8 && (s.fn 0).vfEn))

/-- A write at what an access meets; one that meets nothing is dropped, and counted if it came through BAR0. -/
def State.writeTarget (s : State) (g : Target) (v : Word) (hi lo : Nat) (bar : Bool) : State :=
  match g with
  | .reg k i => s.writeReg k i v hi lo
  | .msix fn w => s.setMsixWord fn w (merge (s.msixWord fn w) v hi lo)
  | .pba _ _ => s
  | .none => if bar then s.bump F.HOD_INBOUND.DROPPED 0 1 else s

/-- The access fault of a core's misaligned register access (R326). -/
def RegAcc.fault (write : Bool) (n : Nat) (mode : Priv) (va deleg : Nat) : Out :=
  .coreFault n (if write then .storeAmo else .load) (taker mode deleg) va

/-- A write of a register, after the ordered inbound writes that came before it (R201), and of a core after its own earlier
I/O accesses (R326). The value is as it stands in the access: its low bits where 4 B are written. -/
def execRegisterWrite (acc : RegAcc) (v : BitVec 64) (s : State) : Res State :=
  let w : Word := v <<< RegAcc.lo acc
  .next (match acc.via with
    | .bar0 fn =>
      if !s.bar0Here fn || (s.fn fn).d3 then s
      else if !RegAcc.aligned acc then s.bump F.HOD_INBOUND.DROPPED 0 1
      else
        let s := s.inboundOrdered
        s.writeTarget (s.bar0 fn acc.addr true) w (RegAcc.hi acc) (RegAcc.lo acc) true
    | .core n mode va deleg =>
      if !s.coreRuns n || s.readOut n || 2 ^ 32 ≤ acc.addr then s
      else if !RegAcc.aligned acc then s.emit (RegAcc.fault true n mode va deleg)
      else s.writeTarget (s.target (s.coreTag n mode.virt) acc.addr true) w (RegAcc.hi acc) (RegAcc.lo acc) false)

/-- Clear the RC fields that lie wholly within the bytes read. -/
def State.clearRc (s : State) (k : RegKind) (i hi lo : Nat) : State :=
  k.fields.foldl (fun s f => if f.acc = .rc && f.within hi lo then s.setFld f i 0 else s) s

/-- A read at what an access meets: the doubleword returned, and the state it leaves. -/
def State.readTarget (s : State) (g : Target) (tag hi lo : Nat) : State × Word :=
  match g with
  | .reg k i =>
    let v := s.view tag k i
    let s := s.clearRc k i hi lo
    (if openView k then s.drawn.drawn else s, v)
  | .msix fn w => (s, s.msixWord fn w)
  | .pba fn w => (s, s.pbaWord fn w)
  | .none => (s, 0)

/-- The bytes of a doubleword that an access covers. -/
def RegAcc.bytes (a : RegAcc) (v : Word) : List Byte := ((bytesOf 8 v.toNat).drop (a.addr % 8)).take a.size

/-- A read of a register, which clears its RC fields; one of BAR0 finds every earlier inbound write performed (R201). -/
def execRcRead (acc : RegAcc) (s : State) : Res State :=
  .next (match acc.via with
    | .bar0 fn =>
      if !s.bar0Here fn then s
      else if (s.fn fn).d3 || !RegAcc.aligned acc then s.emit (.reply fn 1 [])
      else
        let s := s.inboundAll
        let r := s.readTarget (s.bar0 fn acc.addr false) (if fn = 0 then 8 else fn - 1) (RegAcc.hi acc) (RegAcc.lo acc)
        r.1.emit (.reply fn 0 (RegAcc.bytes acc r.2))
    | .core n mode va deleg =>
      if !s.coreRuns n || s.readOut n || 2 ^ 32 ≤ acc.addr then s
      else if !RegAcc.aligned acc then s.emit (RegAcc.fault false n mode va deleg)
      else
        let tag := s.coreTag n mode.virt
        let r := s.readTarget (s.target tag acc.addr false) tag (RegAcc.hi acc) (RegAcc.lo acc)
        r.1.emit (.core n (RegAcc.bytes acc r.2)))

end Sys2Proof.Machine
end

