-- ==== Sys2Proof/Machine/Dispatch.lean ====
section
/-! DEFINITION. Machine/Dispatch.lean: the effect of a command on everything but the queue, one arm per command. -/
namespace Sys2Proof.Machine
open Sys2Proof

def exec (i : Instr) (s : State) : Host.Outcome State Fault Refusal :=
  match i with
  | .courseBoundary m => Sys2Proof.Machine.execCourseBoundary m s
  | .c1C3SnapshotClose => Sys2Proof.Machine.execC1C3SnapshotClose s
  | .c0SnapshotClose => Sys2Proof.Machine.execC0SnapshotClose s
  | .quadrantPowerUp quad => Sys2Proof.Machine.execQuadrantPowerUp quad s
  | .timeoutExceeded q => Sys2Proof.Machine.execTimeoutExceeded q s
  | .sqDoorbell q v => Sys2Proof.Machine.execSqDoorbell q v s
  | .cqDoorbell q v => Sys2Proof.Machine.execCqDoorbell q v s
  | .descriptorFetch q => Sys2Proof.Machine.execDescriptorFetch q s
  | .descriptorRefetch q => Sys2Proof.Machine.execDescriptorRefetch q s
  | .workNop q => Sys2Proof.Machine.execWorkNop q s
  | .run q => Sys2Proof.Machine.execRun q s
  | .copy q => Sys2Proof.Machine.execCopy q s
  | .tilePartEnd t => Sys2Proof.Machine.execTilePartEnd t s
  | .completionRecordWrite q => Sys2Proof.Machine.execCompletionRecordWrite q s
  | .resume q => Sys2Proof.Machine.execResume q s
  | .timeoutWrite q v => Sys2Proof.Machine.execTimeoutWrite q v s
  | .adminQueueEnable a v => Sys2Proof.Machine.execAdminQueueEnable a v s
  | .adminQueueDisable a v => Sys2Proof.Machine.execAdminQueueDisable a v s
  | .retireToken q e => Sys2Proof.Machine.execRetireToken q e s
  | .createQueue a => Sys2Proof.Machine.execCreateQueue a s
  | .destroyQueue a => Sys2Proof.Machine.execDestroyQueue a s
  | .resetQueue a => Sys2Proof.Machine.execResetQueue a s
  | .createContext a => Sys2Proof.Machine.execCreateContext a s
  | .destroyContext a => Sys2Proof.Machine.execDestroyContext a s
  | .createResidentSet a => Sys2Proof.Machine.execCreateResidentSet a s
  | .releaseResidentSet a => Sys2Proof.Machine.execReleaseResidentSet a s
  | .moveResidentSet a => Sys2Proof.Machine.execMoveResidentSet a s
  | .partCreate a => Sys2Proof.Machine.execPartCreate a s
  | .partDestroy a => Sys2Proof.Machine.execPartDestroy a s
  | .partAssignTiles a => Sys2Proof.Machine.execPartAssignTiles a s
  | .partAssignRange a => Sys2Proof.Machine.execPartAssignRange a s
  | .echo a => Sys2Proof.Machine.execEcho a s
  | .partitionClose p => Sys2Proof.Machine.execPartitionClose p s
  | .nop t => Sys2Proof.Machine.execNop t s
  | .end_ t => Sys2Proof.Machine.execEnd t s
  | .yield t => Sys2Proof.Machine.execYield t s
  | .j t => Sys2Proof.Machine.execJ t s
  | .jal t => Sys2Proof.Machine.execJal t s
  | .jr t => Sys2Proof.Machine.execJr t s
  | .beq t => Sys2Proof.Machine.execBeq t s
  | .bne t => Sys2Proof.Machine.execBne t s
  | .blt t => Sys2Proof.Machine.execBlt t s
  | .bge t => Sys2Proof.Machine.execBge t s
  | .bltu t => Sys2Proof.Machine.execBltu t s
  | .bgeu t => Sys2Proof.Machine.execBgeu t s
  | .add t => Sys2Proof.Machine.execAdd t s
  | .sub t => Sys2Proof.Machine.execSub t s
  | .and_ t => Sys2Proof.Machine.execAnd t s
  | .or_ t => Sys2Proof.Machine.execOr t s
  | .xor t => Sys2Proof.Machine.execXor t s
  | .sll t => Sys2Proof.Machine.execSll t s
  | .srl t => Sys2Proof.Machine.execSrl t s
  | .sra t => Sys2Proof.Machine.execSra t s
  | .mul t => Sys2Proof.Machine.execMul t s
  | .slt t => Sys2Proof.Machine.execSlt t s
  | .sltu t => Sys2Proof.Machine.execSltu t s
  | .min t => Sys2Proof.Machine.execMin t s
  | .max t => Sys2Proof.Machine.execMax t s
  | .lui t => Sys2Proof.Machine.execLui t s
  | .getinfo t => Sys2Proof.Machine.execGetinfo t s
  | .ld t => Sys2Proof.Machine.execLd t s
  | .st t => Sys2Proof.Machine.execSt t s
  | .ldc t => Sys2Proof.Machine.execLdc t s
  | .wload t => Sys2Proof.Machine.execWload t s
  | .rstream t => Sys2Proof.Machine.execRstream t s
  | .drain t => Sys2Proof.Machine.execDrain t s
  | .lstr t => Sys2Proof.Machine.execLstr t s
  | .bstr t => Sys2Proof.Machine.execBstr t s
  | .smov t => Sys2Proof.Machine.execSmov t s
  | .mcpyIn t => Sys2Proof.Machine.execMcpyIn t s
  | .mcpyOut t => Sys2Proof.Machine.execMcpyOut t s
  | .sfill t => Sys2Proof.Machine.execSfill t s
  | .waitc t => Sys2Proof.Machine.execWaitc t s
  | .waitcRelease t => Sys2Proof.Machine.execWaitcRelease t s
  | .acset t => Sys2Proof.Machine.execAcset t s
  | .acget t => Sys2Proof.Machine.execAcget t s
  | .waitu t => Sys2Proof.Machine.execWaitu t s
  | .waituRelease t => Sys2Proof.Machine.execWaituRelease t s
  | .amo t => Sys2Proof.Machine.execAmo t s
  | .fence t => Sys2Proof.Machine.execFence t s
  | .fenceRelease t => Sys2Proof.Machine.execFenceRelease t s
  | .hodreq t => Sys2Proof.Machine.execHodreq t s
  | .qinv t => Sys2Proof.Machine.execQinv t s
  | .qen t => Sys2Proof.Machine.execQen t s
  | .qpf t => Sys2Proof.Machine.execQpf t s
  | .quoinFill t k => Sys2Proof.Machine.execQuoinFill t k s
  | .cfma t => Sys2Proof.Machine.execCfma t s
  | .cadd t => Sys2Proof.Machine.execCadd t s
  | .csub t => Sys2Proof.Machine.execCsub t s
  | .cmul t => Sys2Proof.Machine.execCmul t s
  | .cmax t => Sys2Proof.Machine.execCmax t s
  | .cmin t => Sys2Proof.Machine.execCmin t s
  | .cdotBf16 t => Sys2Proof.Machine.execCdotBf16 t s
  | .cdotFp8 t => Sys2Proof.Machine.execCdotFp8 t s
  | .cmov t => Sys2Proof.Machine.execCmov t s
  | .ccvt t => Sys2Proof.Machine.execCcvt t s
  | .cqmx t => Sys2Proof.Machine.execCqmx t s
  | .csfu t => Sys2Proof.Machine.execCsfu t s
  | .csfuExpm t => Sys2Proof.Machine.execCsfuExpm t s
  | .cpushb t => Sys2Proof.Machine.execCpushb t s
  | .cred t => Sys2Proof.Machine.execCred t s
  | .cbset t => Sys2Proof.Machine.execCbset t s
  | .cbget t => Sys2Proof.Machine.execCbget t s
  | .csinit t => Sys2Proof.Machine.execCsinit t s
  | .csmax t => Sys2Proof.Machine.execCsmax t s
  | .cssum t => Sys2Proof.Machine.execCssum t s
  | .csfin t => Sys2Proof.Machine.execCsfin t s
  | .cst t => Sys2Proof.Machine.execCst t s
  | .cstMx t => Sys2Proof.Machine.execCstMx t s
  | .arrivalCount w => Sys2Proof.Machine.execArrivalCount w s
  | .plinthScrub t => Sys2Proof.Machine.execPlinthScrub t s
  | .wloadComplete t => Sys2Proof.Machine.execWloadComplete t s
  | .weightCopy t => Sys2Proof.Machine.execWeightCopy t s
  | .streamStart t => Sys2Proof.Machine.execStreamStart t s
  | .archFreeze t raised => Sys2Proof.Machine.execArchFreeze t raised s
  | .archRewind t => Sys2Proof.Machine.execArchRewind t s
  | .drainRow t col => Sys2Proof.Machine.execDrainRow t col s
  | .riddleJobStart d => Sys2Proof.Machine.execRiddleJobStart d s
  | .riddleJobFinish d => Sys2Proof.Machine.execRiddleJobFinish d s
  | .writebackAll d n => Sys2Proof.Machine.execWritebackAll d n s
  | .writebackRange d n => Sys2Proof.Machine.execWritebackRange d n s
  | .evictRange d n => Sys2Proof.Machine.execEvictRange d n s
  | .discardLostRange d n => Sys2Proof.Machine.execDiscardLostRange d n s
  | .mtcCmdDone d => Sys2Proof.Machine.execMtcCmdDone d s
  | .wcDrain line => Sys2Proof.Machine.execWcDrain line s
  | .patrolScrub ctl run => Sys2Proof.Machine.execPatrolScrub ctl run s
  | .memAdd d ty => Sys2Proof.Machine.execMemAdd d ty s
  | .memSum d ty => Sys2Proof.Machine.execMemSum d ty s
  | .addDone d => Sys2Proof.Machine.execAddDone d s
  | .xltInvAll => Sys2Proof.Machine.execXltInvAll s
  | .xltInvContext c => Sys2Proof.Machine.execXltInvContext c s
  | .xltInvContextRange c => Sys2Proof.Machine.execXltInvContextRange c s
  | .invDone => Sys2Proof.Machine.execInvDone s
  | .hodCopy h => Sys2Proof.Machine.execHodCopy h s
  | .hodFill h => Sys2Proof.Machine.execHodFill h s
  | .hodFence h => Sys2Proof.Machine.execHodFence h s
  | .hodFenceRelease h => Sys2Proof.Machine.execHodFenceRelease h s
  | .hodTransferComplete h k => Sys2Proof.Machine.execHodTransferComplete h k s
  | .inboundRead src len => Sys2Proof.Machine.execInboundRead src len s
  | .inboundWrite src data attr => Sys2Proof.Machine.execInboundWrite src data attr s
  | .inboundAtomicop off => Sys2Proof.Machine.execInboundAtomicop off s
  | .outboundAccess who pa size st => Sys2Proof.Machine.execOutboundAccess who pa size st s
  | .flrVf n => Sys2Proof.Machine.execFlrVf n s
  | .flrPf => Sys2Proof.Machine.execFlrPf s
  | .perstAssert => Sys2Proof.Machine.execPerstAssert s
  | .perstLongHold => Sys2Proof.Machine.execPerstLongHold s
  | .linkLeavesDlActive => Sys2Proof.Machine.execLinkLeavesDlActive s
  | .hostLoss => Sys2Proof.Machine.execHostLoss s
  | .quiesceComplete => Sys2Proof.Machine.execQuiesceComplete s
  | .reattach => Sys2Proof.Machine.execReattach s
  | .resumeComplete => Sys2Proof.Machine.execResumeComplete s
  | .chkLoad u v => Sys2Proof.Machine.execChkLoad u v s
  | .chkData8 u v => Sys2Proof.Machine.execChkData8 u v s
  | .chkData16 u v => Sys2Proof.Machine.execChkData16 u v s
  | .chkData32 u v => Sys2Proof.Machine.execChkData32 u v s
  | .chkValueWrite u v => Sys2Proof.Machine.execChkValueWrite u v s
  | .ntEntryDrain core k => Sys2Proof.Machine.execNtEntryDrain core k s
  | .cfgResetCore => Sys2Proof.Machine.execCfgResetCore s
  | .coreWatchdog core => Sys2Proof.Machine.execCoreWatchdog core s
  | .flitCrcFail l flit => Sys2Proof.Machine.execFlitCrcFail l flit s
  | .nak l ba => Sys2Proof.Machine.execNak l ba s
  | .ack l ba n => Sys2Proof.Machine.execAck l ba n s
  | .replayWindowEnd l ba => Sys2Proof.Machine.execReplayWindowEnd l ba s
  | .sidebandSymbol l x y z => Sys2Proof.Machine.execSidebandSymbol l x y z s
  | .powerWindow => Sys2Proof.Machine.execPowerWindow s
  | .freqStep dom step => Sys2Proof.Machine.execFreqStep dom step s
  | .droop dom cycles => Sys2Proof.Machine.execDroop dom cycles s
  | .thermalSample readings => Sys2Proof.Machine.execThermalSample readings s
  | .dieThrottleStep die => Sys2Proof.Machine.execDieThrottleStep die s
  | .thermalTrip sensor => Sys2Proof.Machine.execThermalTrip sensor s
  | .airfailStop n => Sys2Proof.Machine.execAirfailStop n s
  | .pwrCapWrite v => Sys2Proof.Machine.execPwrCapWrite v s
  | .crsShareWrite v => Sys2Proof.Machine.execCrsShareWrite v s
  | .crsSliceWrite v => Sys2Proof.Machine.execCrsSliceWrite v s
  | .loadImage len => Sys2Proof.Machine.execLoadImage len s
  | .takeOwnership len => Sys2Proof.Machine.execTakeOwnership len s
  | .raiseSvn len => Sys2Proof.Machine.execRaiseSvn len s
  | .debugChallenge len => Sys2Proof.Machine.execDebugChallenge len s
  | .debugUnlock len => Sys2Proof.Machine.execDebugUnlock len s
  | .mailboxComplete flashOk => Sys2Proof.Machine.execMailboxComplete flashOk s
  | .getVersion => Sys2Proof.Machine.execGetVersion s
  | .getCapabilities ver => Sys2Proof.Machine.execGetCapabilities ver s
  | .negotiateAlgorithms offer => Sys2Proof.Machine.execNegotiateAlgorithms offer s
  | .getDigests => Sys2Proof.Machine.execGetDigests s
  | .getCertificate slot off len => Sys2Proof.Machine.execGetCertificate slot off len s
  | .challenge slot nonce => Sys2Proof.Machine.execChallenge slot nonce s
  | .getMeasurements op signed nonce => Sys2Proof.Machine.execGetMeasurements op signed nonce s
  | .respondIfReady => Sys2Proof.Machine.execRespondIfReady s
  | .keyExchange slot share => Sys2Proof.Machine.execKeyExchange slot share s
  | .finish verify => Sys2Proof.Machine.execFinish verify s
  | .heartbeat => Sys2Proof.Machine.execHeartbeat s
  | .keyUpdate => Sys2Proof.Machine.execKeyUpdate s
  | .endSession => Sys2Proof.Machine.execEndSession s
  | .chunkSend handle seq last chunk => Sys2Proof.Machine.execChunkSend handle seq last chunk s
  | .chunkGet handle seq => Sys2Proof.Machine.execChunkGet handle seq s
  | .vendorDefinedRequest req => Sys2Proof.Machine.execVendorDefinedRequest req s
  | .lockInterfaceRequest vf => Sys2Proof.Machine.execLockInterfaceRequest vf s
  | .stopInterface vf => Sys2Proof.Machine.execStopInterface vf s
  | .ideIntegrityFail vf => Sys2Proof.Machine.execIdeIntegrityFail vf s
  | .railsEnable => Sys2Proof.Machine.execRailsEnable s
  | .railsRemove high => Sys2Proof.Machine.execRailsRemove high s
  | .inputPowerRemoved => Sys2Proof.Machine.execInputPowerRemoved s
  | .powerOnReset => Sys2Proof.Machine.execPowerOnReset s
  | .moduleReset => Sys2Proof.Machine.execModuleReset s
  | .startUp o => Sys2Proof.Machine.execStartUp o s
  | .flashRelease => Sys2Proof.Machine.execFlashRelease s
  | .rebuildReset => Sys2Proof.Machine.execRebuildReset s
  | .rebuildComplete => Sys2Proof.Machine.execRebuildComplete s
  | .liveSnapshot => Sys2Proof.Machine.execLiveSnapshot s
  | .errorReport r => Sys2Proof.Machine.execErrorReport r s
  | .recordClose n => Sys2Proof.Machine.execRecordClose n s
  | .errLogTailWrite v => Sys2Proof.Machine.execErrLogTailWrite v s
  | .setdasa static dyn => Sys2Proof.Machine.execSetdasa static dyn s
  | .entdaa dyn => Sys2Proof.Machine.execEntdaa dyn s
  | .mgmtIndexWrite data => Sys2Proof.Machine.execMgmtIndexWrite data s
  | .mgmtRead => Sys2Proof.Machine.execMgmtRead s
  | .readVin => Sys2Proof.Machine.execReadVin s
  | .readIin => Sys2Proof.Machine.execReadIin s
  | .readPin => Sys2Proof.Machine.execReadPin s
  | .readEin => Sys2Proof.Machine.execReadEin s
  | .readTemperature1 => Sys2Proof.Machine.execReadTemperature1 s
  | .statusWord => Sys2Proof.Machine.execStatusWord s
  | .statusMfrSpecific => Sys2Proof.Machine.execStatusMfrSpecific s
  | .mfrSerial => Sys2Proof.Machine.execMfrSerial s
  | .clearFaults => Sys2Proof.Machine.execClearFaults s
  | .pmbusUnsupported cmd => Sys2Proof.Machine.execPmbusUnsupported cmd s
  | .fruRead off len => Sys2Proof.Machine.execFruRead off len s
  | .jtagTrst => Sys2Proof.Machine.execJtagTrst s
  | .registerWrite acc v => Sys2Proof.Machine.execRegisterWrite acc v s
  | .rcRead acc => Sys2Proof.Machine.execRcRead acc s
  | .coreMemoryAccess acc => Sys2Proof.Machine.execCoreMemoryAccess acc s
  | .coreFence core kind => Sys2Proof.Machine.execCoreFence core kind s
  | .streamEntryArrival t bcast => Sys2Proof.Machine.execStreamEntryArrival t bcast s
  | .busCompletion id st data => Sys2Proof.Machine.execBusCompletion id st data s
  | .completionTimeout id => Sys2Proof.Machine.execCompletionTimeout id s
  | .linkUp => Sys2Proof.Machine.execLinkUp s
  | .airfailRelease n => Sys2Proof.Machine.execAirfailRelease n s
  | .configRequest fn req => Sys2Proof.Machine.execConfigRequest fn req s
  | .coreResetComplete => Sys2Proof.Machine.execCoreResetComplete s
  | .replayFlitReceived l ba => Sys2Proof.Machine.execReplayFlitReceived l ba s
  | .spiReqAssert => Sys2Proof.Machine.execSpiReqAssert s
  | .spiFlashCommand cmd => Sys2Proof.Machine.execSpiFlashCommand cmd s
  | .jtagTck tms tdi => Sys2Proof.Machine.execJtagTck tms tdi s
  | .reservedOpcode t => Sys2Proof.Machine.execReservedOpcode t s

end Sys2Proof.Machine
end

