-- ==== Sys2Proof/Safety.lean ====
section
/-! DEFINITION. Safety.lean: the words of the claims: sound states, what a command leaves unchanged, an instruction that issues. -/
namespace Sys2Proof.Machine

/-- External memory is in canonical form: addresses strictly rising, and no entry equal to what the unlisted byte is known
to read as (zero, outside the regions of open contents). -/
def Memory.wf (s : State) : Bool :=
  SMap.rising s.mem && s.mem.all fun p => p.2 ≠ 0 || (s.seedAt p.1).isSome

/-- Scratch is in canonical form. -/
def Scratch.wf (s : State) : Bool := SMap.wf s.scr 0

/-- The capability registers (R439) show a part. -/
def State.shows (s : State) (p : Part) : Prop :=
  s.view 8 .CAP_UNITS 0 = BitVec.ofNat 64 p.units ∧ s.view 8 .CAP_SIZES 0 = BitVec.ofNat 64 p.sizes ∧
    getField (s.view 8 .CAP_ID 0) 15 0 = p.id

/-! ## Frames -/

/-- Address of the register that holds instance `i` of a field. -/
def Fld.at (f : Fld) (i : Nat) : Nat := f.reg.place.addr i

/-- From `s` to `u` every register keeps its contents but those at the addresses listed. -/
def State.regsBut (s u : State) (as : List Nat) : Prop := ∀ a, a ∉ as → SMap.find? u.regs a = SMap.find? s.regs a

/-- From `s` to `u` nothing changed but the registers at the addresses listed. -/
def State.onlyRegs (s u : State) (as : List Nat) : Prop := s.regsBut u as ∧ u = { s with regs := u.regs }

/-- From `s` to `u` nothing changed but tile `t` and the registers at the addresses listed. -/
def State.onlyTile (s u : State) (t : Nat) (as : List Nat) : Prop :=
  (∀ q, q ≠ t → u.tile q = s.tile q) ∧ s.regsBut u as ∧ u = { s with regs := u.regs, tiles := u.tiles }

/-- Of tile `t` only scalar registers, the program counter and the clock of its dispatches changed. -/
def State.onlyScalars (s u : State) (t : Nat) : Prop :=
  { u.tile t with sregs := (s.tile t).sregs, pc := (s.tile t).pc, clock := (s.tile t).clock } = s.tile t

/-! ## States without latent errors -/

/-- No uncorrectable or correctable error waits to be met, and no line or copy is LOST. -/
def State.sound (s : State) : Prop :=
  s.lost = [] ∧ s.memUe = [] ∧ s.memCe = [] ∧ s.scrUe = [] ∧ s.scrCe = [] ∧ s.lineUe = [] ∧ s.lineCe = [] ∧ s.tagUe = [] ∧
    s.copyUe = [] ∧ s.cacheUe = [] ∧ s.cacheCe = [] ∧ ∀ c ∈ s.copies, c.gone = false

/-- No die-local copy of another die has modified a byte that an agent of die `d` could meet: its accesses are well scoped
(R191). -/
def State.scoped (s : State) (d : Nat) : Prop := ∀ a, s.illScoped (some d) a = false

/-- Tile `t` may make an access to external memory of `n` bytes at virtual address `a` now: no fence holds it, its owner has
service, a tracking entry is free, and no lintel on the way is full (R15, R116, R224, R338, R399). -/
def State.goes (s : State) (t a n : Nat) : Prop :=
  (s.tile t).fence = [] ∧ s.noEntry t false = false ∧ s.readHeld t a n = false

/-- Counters of the slices, the controllers and the translation units, which an access to external memory moves. -/
def memCount (a : Nat) : Prop :=
  (0x20000000 ≤ a ∧ a < 0x30000000 ∧ 0x3A00000 ≤ (a - 0x20000000) % 0x4000000) ∨ a = F.XLT_STATS.HITS.at 0

/-- From `s` to `u` a read of external memory by a tile went through: beside the registers listed, the counters of memory,
the tiles and what the caches hold, nothing changed. -/
def State.readFrame (s u : State) (as : List Nat) : Prop :=
  (∀ a, a ∉ as → ¬ memCount a → SMap.find? u.regs a = SMap.find? s.regs a) ∧
    u = { s with
      regs := u.regs, tiles := u.tiles, xlt := u.xlt, xplru := u.xplru, lines := u.lines, plru := u.plru, gdir := u.gdir,
      l3 := u.l3, cores := u.cores, wc := u.wc }

/-- External memory, scratch and the copies read the same. -/
def State.sameBytes (s u : State) : Prop :=
  u.mem = s.mem ∧ u.scrambles = s.scrambles ∧ u.copies = s.copies ∧ u.scr = s.scr

/-- The bytes of `n` addresses from `a`. -/
def State.memRun (s : State) (a n : Nat) : List Byte := (List.range n).map fun i => s.memByte (a + i)

/-- From `s` to `u` memory took `bs` at `a`: no other byte of memory and none of scratch changed. -/
def State.stored (s u : State) (a : Nat) (bs : List Byte) : Prop :=
  u.memRun a bs.length = bs ∧ (∀ b, (b < a ∨ a + bs.length ≤ b) → u.memByte b = s.memByte b) ∧ u.scr = s.scr

/-- From `s` to `u` the valid bytes of a non-temporal entry went to memory, and every other byte kept its value. -/
def State.ntPut (s u : State) (e : NtEntry) : Prop :=
  (∀ k b, SMap.find? e.bytes k = some b → u.memByte (e.block + k) = b) ∧ u.scr = s.scr ∧
    ∀ a, (a < e.block ∨ SMap.find? e.bytes (a - e.block) = none) → u.memByte a = s.memByte a

/-- From `s` to `u` everything that ran was discarded (R417): tiles, blocks, riddles, hods, writes on their way, copies, the plan
and cached translations; scratch keeps its bytes. -/
def State.discarded (s u : State) : Prop :=
  u.tiles = [] ∧ u.blocks = [] ∧ u.riddles = [] ∧ u.hods = [] ∧ (∀ p ∈ u.packets, p ∈ s.packets ∧ ∃ f, p.unit = .inbound f) ∧
    u.copies = [] ∧ u.plan = [] ∧ u.xlt = [] ∧ u.scr = s.scr

/-- MSI-X vector `v` of function `f` is enabled, and neither it nor the function is masked. -/
def State.msixOpen (s : State) (f v : Nat) : Prop :=
  (s.fn f).msixEn = true ∧ (s.fn f).msixMask = false ∧
    (SMap.get s.msixData (BitVec.ofNat 64 (2 ^ 32)) (f * 2048 + v)).toNat.testBit 32 = false

/-- A register access reaches the module: BAR0 of the function is there and the function in D0, or the core runs and the address is
in the register range; the access is of 4 or 8 aligned bytes. -/
def State.regOpen (s : State) (a : RegAcc) : Prop :=
  RegAcc.aligned a = true ∧ match a.via with
    | .bar0 fn => s.bar0Here fn = true ∧ (s.fn fn).d3 = false
    | .core n _ _ _ => s.coreRuns n = true ∧ s.readOut n = false ∧ a.addr < 2 ^ 32

/-- Owner tag of a register access (R386). -/
def State.regTag (s : State) (a : RegAcc) : Nat := match a.via with
  | .bar0 fn => if fn = 0 then 8 else fn - 1
  | .core n mode _ _ => s.coreTag n mode.virt

/-- What a register access meets. -/
def State.regMeets (s : State) (a : RegAcc) (write : Bool) : Target := match a.via with
  | .bar0 fn => s.bar0 fn a.addr write
  | .core _ _ _ _ => s.target (s.regTag a) a.addr write

/-- The answer to a register read, by the bytes it returns. -/
def regAnswer (a : RegAcc) (bs : List Byte) : Out := match a.via with
  | .bar0 fn => .reply fn 0 bs
  | .core n _ _ _ => .core n bs

/-- Registers a write of which is a command of its own. -/
def actsOnWrite : RegKind → Bool
  | .CFE_Q_SQ_DB | .CFE_Q_CQ_DB | .CFE_AQ_CFG | .CFE_Q_SQ_BASE | .CFE_Q_CQ_BASE | .CFE_Q_CTL | .MTC_CMD | .MEM_ADD_CMD
  | .XLT_INV | .CHK_CFG | .CHK_VALUE | .CHK_DATA8 | .CHK_DATA16 | .CHK_DATA32 | .SEC_MBOX_CMD | .SEC_MBOX_BUF | .CFG_RESET
  | .ERR_LOG_TAIL | .PWR_CAP | .CRS_SHARE | .CRS_SLICE => true
  | _ => false

/-! ## Tile exceptions -/

/-- TSQ_EXC and its word and address record an exception of tile `t` (R121). -/
def State.recorded (u : State) (t : Nat) (precise : Bool) (pc : Nat) (w : Word) (code addr : Nat) : Prop :=
  u.fld F.TSQ_EXC.VALID t = 1 ∧ u.fld F.TSQ_EXC.PRECISE t = bitN precise ∧ u.fld F.TSQ_EXC.CODE t = code ∧
    u.fld F.TSQ_EXC.PC t = pc % 2 ^ 48 ∧ u.fld F.TSQ_EXC_WORD.WORD t = w.toNat ∧
    u.fld F.TSQ_EXC_ADDR.ADDR t = addr % 2 ^ 64

/-- The block of tile `t` keeps the first failure recorded for it. -/
def State.failed (s u : State) (t : Nat) (status detail : Nat) : Prop :=
  ∀ b, s.blockOf t = some b → b.fail = none →
    (u.block b.id).map Block.fail = some (some (status, detail, s.fld F.TSQ_STATE.HANDLE t))

/-- Instruction `w` at `pc` ended in an exception: TSQ_EXC records it, or LOST says that an earlier one is still held; the tile
stops where it stands, its block fails with `status` and `detail`, and neither memory nor scratch changes. -/
def State.excepted (s u : State) (t : Nat) (precise : Bool) (pc : Nat) (w : Word) (code addr status detail : Nat) : Prop :=
  (if s.fld F.TSQ_EXC.VALID t = 1 then u.fld F.TSQ_EXC.LOST t = 1 ∧ u.fld F.TSQ_EXC.CODE t = s.fld F.TSQ_EXC.CODE t
    else u.recorded t precise pc w code addr) ∧
    u.fld F.TSQ_STATE.RUN t = 3 ∧ (u.tile t).pc = (if precise then pc else nextPc pc) ∧ s.failed u t status detail ∧ s.sameBytes u ∧
    (∀ i, u.sreg t i = s.sreg t i) ∧ (u.tile t).waitC = none ∧ (u.tile t).waitU = none

/-! ## Tile instructions -/

/-- Tile `t` can issue, and its fetch delivers the word `w`, leaving `s'`. -/
def State.issues (s : State) (t : Nat) (w : Word) (s' : State) : Prop := s.running t = true ∧ s.fetch t = .word w s'

/-- The registers an instruction that issues writes: the count of issued instructions and the WAIT code. -/
def issueRegs (t : Nat) : List Nat := [F.TSQ_ISSUED.ISSUED.at t, F.TSQ_STATE.WAIT.at t]

/-- Tile `t` has issued: the instruction is counted and the program counter stands at `pc`. -/
def State.issuedAt (s u : State) (t pc : Nat) : Prop :=
  (u.tile t).pc = pc ∧ u.fld F.TSQ_ISSUED.ISSUED t = min (s.fld F.TSQ_ISSUED.ISSUED t + 1) (2 ^ 64 - 1)

/-- `u` is `s` after tile `t` issued an instruction that changed nothing of the tile but what `f` changes of it. -/
def State.issuedTile (s u : State) (t : Nat) (f : Tile → Tile) : Prop :=
  s.issuedAt u t (nextPc (s.tile t).pc) ∧
    u.tile t = { f (s.tile t) with pc := nextPc (s.tile t).pc, clock := (s.tile t).clock + 1 } ∧
    s.onlyTile u t (issueRegs t)

/-- From `s` to `u` tile `t` issued an instruction with no effect but on scalar registers: register `d` takes `v` (none is
written where `d` is 0), every other keeps its value, and the program counter stands at `pc`. -/
def State.scalarIssue (s u : State) (t pc d : Nat) (v : Word) : Prop :=
  s.issuedAt u t pc ∧ (∀ i, u.sreg t i = if i = d ∧ d ≠ 0 then v else s.sreg t i) ∧
    s.onlyScalars u t ∧ s.onlyTile u t (issueRegs t)

/-- The byte address PC + 8 × IMM in the 48-bit program counter (R101, R109). -/
def jumpTo (pc : Nat) (w : Word) : Nat := wrapN 48 ((pc : Int) + 8 * sext 32 w.toNat)

/-- The physical bytes of a run that start at scratch location `c`: nothing else may change in a store there. -/
def State.scrOnly (s u : State) (t : Nat) (c : Scr) (n : Nat) : Prop :=
  ∀ q : Scr, (∀ i, i < n → q.key t ≠ c.key t + i) → u.scrByte t q 0 = s.scrByte t q 0

/-- Packets carry `bs` to consecutive addresses from `dst`, at most 256 bytes each (R181). -/
def carries (ps : List Packet) (t : Nat) (u : PUnit) (toMem : Bool) (dst : Nat) (ctr : Option (Nat × Nat))
    (bs : List Byte) : Prop :=
  (ps.map Packet.data).flatten = bs ∧ (∀ p ∈ ps, p.tile = t ∧ p.unit = u ∧ p.toMem = toMem ∧ p.ctr = ctr ∧
    p.data.length ≤ 256) ∧ ps.map Packet.dst = (List.range ps.length).map fun i => dst + 256 * i

/-- Packets carry `bs` to the pieces of external memory listed, one after another. -/
def carriesAll (t : Nat) (u : PUnit) (ctr : Option (Nat × Nat)) : List (Nat × Nat) → List Byte → List Packet → Prop
  | [], _, ps => ps = []
  | (a, n) :: rest, bs, ps => ∃ qs rs, ps = qs ++ rs ∧ carries qs t u true a ctr (bs.take n) ∧
      carriesAll t u ctr rest (bs.drop n) rs

/-- The corbel row is free and everything a corbel instruction names is there: it issues where it is dispatched. -/
def State.rowReady (s : State) (t : Nat) (w : Word) : Prop :=
  corbelCheck w = none ∧ (s.tile t).corbelQ = [] ∧ ∀ c ∈ selsOf w, s.emptyQueue t c = none

/-- Registers that issuing and executing a corbel instruction writes. -/
def corbelRegs (t : Nat) : List Nat := [F.CRB_OPS.ISSUED.at t, F.CRB_SFU.RESULTS.at t] ++ issueRegs t

/-- A corbel instruction popped LS and BQ as its selectors say, and left the streams, the scalars and the fences alone. -/
def State.rowIssued (s u : State) (t : Nat) (w : Word) : Prop :=
  s.issuedAt u t (nextPc (s.tile t).pc) ∧ s.onlyTile u t (corbelRegs t) ∧ (∀ i, u.sreg t i = s.sreg t i) ∧
    u.fld F.CRB_OPS.ISSUED t = min (s.fld F.CRB_OPS.ISSUED t + 1) (2 ^ 64 - 1) ∧ (u.tile t).corbelQ = [] ∧
    (u.tile t).ls = (if (selsOf w).contains 0x20 then (s.tile t).ls.tail else (s.tile t).ls) ∧
    (u.tile t).bq = (if (selsOf w).contains 0x22 then (s.tile t).bq.tail else (s.tile t).bq) ∧
    (u.tile t).lane = (s.tile t).lane ∧ (u.tile t).bcast = (s.tile t).bcast ∧ (u.tile t).fence = (s.tile t).fence

/-! ## Bulk transfers -/

/-- The free tags of hod `h`, from the lowest (R302). -/
def State.hodFree (s : State) (h : Nat) : List Nat :=
  ((List.range 1024).map (1024 * h + ·)).filter fun n => (SMap.find? s.bus n).isNone

/-- Reads by hod `h` of the function, address and length of each entry listed, under its free tags from the lowest. -/
def State.asked (s : State) (h : Nat) (ps : List (Nat × Nat × Nat)) : List Out :=
  (ps.zip (s.hodFree h)).map fun p => Out.busRead p.2 p.1.1 (s.ideStream p.1.1) p.1.2.1 p.1.2.2

/-- The writes that send `bs` to the bus destination of a job of hod `h`, and the read behind the last of them (R304). -/
def State.pushed (s : State) (h : Nat) (j : HodJob) (bs : List Byte) : List Out :=
  let ws : List Out := (busPieces (s.fn 0).mps (tbDst j.body) bs.length).map fun p =>
    Out.busWrite j.fn (s.ideStream j.fn) (tbDst j.body + p.1) ((bs.drop p.1).take p.2) true
  ws ++ s.asked h [(j.fn, tbDst j.body, 0)]

/-! ## Queues -/

/-- The slot of queue `q`'s memory ring that HEAD names reads as `bs`, without a fault (R277), leaving `s2`. -/
def State.slotAt (s : State) (q : Nat) (bs : List Byte) (s2 : State) : Prop :=
  let a := s.sqBase q + s.qHead q % 2 ^ s.sqOrder q * 64
  s.sqBus q = false ∧
    if isAdmin q then
      s.part.populatedRun a 64 = true ∧ s.rangeOk (s.qPart q) a .read = true ∧ s.memRead ⟨none, s.qPart q⟩ a 64 = ⟨bs, false, s2⟩
    else
      let g := s.vaRead none 0 4 4 (s.qCtx q) a 64 .read
      g.fault = none ∧ g.ue = false ∧ g.data = bs ∧ g.st = s2

/-- Queue `q` may read the descriptor at HEAD now (R276). -/
def State.canFetch (s : State) (q : Nat) : Prop := s.mayFetch q = true ∧ s.starved (s.qPart q) = false

/-- Every item of queue `q` with SEQ `seq` is finished with a status, a detail and a block index. -/
def State.itemEnded (u : State) (q seq status detail blk : Nat) : Prop :=
  ∀ k ∈ u.items, k.queue = q → k.seq = seq → k.stage = .finished status detail blk

/-- The admin command of `i` is complete with a status and RESULT (R290). -/
def State.adminEnded (u : State) (i : Item) (status result : Nat) : Prop :=
  ∀ k ∈ u.items, k.queue = i.queue → k.seq = i.seq → k.stage = .finished status 0 0xFF ∧ k.result = result

/-- Admin queue `a` offers the unchecked command `i` with opcode `op`, and the partition it speaks for exists (R290). -/
def State.offers (s : State) (a op : Nat) (i : Item) : Prop :=
  a < 9 ∧ s.ready = true ∧ s.unchecked (adminQ a) op = some i ∧ (a = 0 ∨ s.partState (a - 1) ≠ 0)

/-! ## Reports -/

/-- From `s` to `u` grout took a report with a cause, code and detail in the present course (R424, R427): it opened an entry at
HEAD, or counted in the open record of its cause, or found no room and counted as lost. -/
def State.took (s u : State) (cause code detail : Nat) : Prop :=
  let head := s.fld F.ERR_LOG_HEAD.HEAD 0
  let entries := (head + 2 ^ 32 - s.fld F.ERR_LOG_TAIL.TAIL 0) % 2 ^ 32
  (SMap.rising s.grout = true → ∀ (n : Nat) (e : LogRec), s.openRec cause s.course = some (n, e) → ∃ e' : LogRec, SMap.find? u.grout n = some e' ∧
    e'.cause = cause ∧ e'.code = e.code ∧ min (e.count + 1) 0xFFFFFFFF ≤ e'.count) ∧
  (s.openRec cause s.course = none → entries < 256 → SMap.find? s.grout (head % 256) = none → s.lostKeys = [] →
    ∃ e : LogRec, SMap.find? u.grout (head % 256) = some e ∧ e.code = code ∧ e.cause = cause ∧ e.detail = detail ∧
      e.course = s.course) ∧
  (s.openRec cause s.course = none → 256 ≤ entries →
    min (s.fld F.ERR_LOST.COUNT 0 + 1) (2 ^ 32 - 1) ≤ u.fld F.ERR_LOST.COUNT 0)

end Sys2Proof.Machine
end

