-- ==== Sys2Proof/Certificates/Slice0/Obligations.lean ====
section
/-! DEFINITION. Obligations.lean: the statements for the provers. -/
open Sys2Proof Sys2Proof.Machine

/-- The scalar operations of R109: constructor, opcode of R108, and the value s[D] receives from s[A] and op2. -/
def scalarOps : List ((Nat → Instr) × Nat × (Word → Word → Word)) :=
  [(.add, 0x10, fun a b => a + b), (.sub, 0x11, fun a b => a - b), (.and_, 0x12, fun a b => a &&& b),
    (.or_, 0x13, fun a b => a ||| b), (.xor, 0x14, fun a b => a ^^^ b),
    (.sll, 0x15, fun a b => a <<< (b.toNat % 64)), (.srl, 0x16, fun a b => a >>> (b.toNat % 64)),
    (.sra, 0x17, fun a b => a.sshiftRight (b.toNat % 64)), (.mul, 0x18, fun a b => BitVec.ofNat 64 (a.toNat * b.toNat)),
    (.slt, 0x19, fun a b => if a.toInt < b.toInt then 1 else 0), (.sltu, 0x1A, fun a b => if a.toNat < b.toNat then 1 else 0),
    (.min, 0x1B, fun a b => if a.toInt ≤ b.toInt then a else b), (.max, 0x1C, fun a b => if a.toInt ≤ b.toInt then b else a),
    (.lui, 0x1D, fun a b => BitVec.ofNat 64 (b.toNat % 2 ^ 32 * 2 ^ 32 + a.toNat % 2 ^ 32))]

/-- Every scalar operation completes where its tile issues it: s[D] receives the operation's value of s[A] and
op2 = s[B] + sext(IMM) (for LUI of the immediate), s0 discards it, the program counter moves on by 8, and nothing else of the
machine changes but the instruction's own count and WAIT code.

Next states are stated of: add, sub, and_, or_, xor, sll, srl, sra, mul, slt, sltu, min, max, lui. -/
def Obligations.ScalarResults : Prop :=
  ∀ p ∈ scalarOps, ∀ (s s' : State) (t : Nat) (w : Word), s.issues t w s' → opOf w = p.2.1 →
    ∃ u, exec (p.1 t) s = .next u ∧
      s'.scalarIssue u t (nextPc (s.tile t).pc) (dOf w)
        (p.2.2 (s'.sreg t (aOf w)) (if p.2.1 = 0x1D then immOf w else s'.sreg t (bOf w) + immOf w))

/-- The branches of R109: constructor, opcode, and the condition on s[A] and s[B] under which the branch is taken. -/
def branchOps : List ((Nat → Instr) × Nat × (Word → Word → Bool)) :=
  [(.beq, 0x06, fun a b => a == b), (.bne, 0x07, fun a b => a != b), (.blt, 0x08, fun a b => a.toInt < b.toInt),
    (.bge, 0x09, fun a b => b.toInt ≤ a.toInt), (.bltu, 0x0A, fun a b => a.toNat < b.toNat),
    (.bgeu, 0x0B, fun a b => b.toNat ≤ a.toNat)]

/-- Every branch and every jump of R109 completes where its tile issues it, with the next program counter R109 gives it.

Every branch completes where its tile issues it: to PC + 8 × IMM if its condition holds of s[A] and s[B], else to the
next instruction, with no other effect.

NOP, J, JAL and JR to a multiple of 8 complete where their tile issues them. JAL puts the address after it into s[D].

Next states are stated of: beq, bne, blt, bge, bltu, bgeu, nop, j, jal, jr. -/
def Obligations.ControlFlow : Prop :=
  (∀ p ∈ branchOps, ∀ (s s' : State) (t : Nat) (w : Word), s.issues t w s' → opOf w = p.2.1 →
      ∃ u, exec (p.1 t) s = .next u ∧
        s'.scalarIssue u t (if p.2.2 (s'.sreg t (aOf w)) (s'.sreg t (bOf w)) then jumpTo (s.tile t).pc w
          else nextPc (s.tile t).pc) 0 0) ∧
  (∀ (s s' : State) (t : Nat) (w : Word), s.issues t w s' →
      (opOf w = 0x00 → ∃ u, exec (.nop t) s = .next u ∧ s'.scalarIssue u t (nextPc (s.tile t).pc) 0 0) ∧
      (opOf w = 0x03 → ∃ u, exec (.j t) s = .next u ∧ s'.scalarIssue u t (jumpTo (s.tile t).pc w) 0 0) ∧
      (opOf w = 0x04 → ∃ u, exec (.jal t) s = .next u ∧
        s'.scalarIssue u t (jumpTo (s.tile t).pc w) (dOf w) (BitVec.ofNat 64 (nextPc (s.tile t).pc))) ∧
      (opOf w = 0x05 → (s'.sreg t (aOf w) + immOf w).toNat % 8 = 0 → ∃ u, exec (.jr t) s = .next u ∧
        s'.scalarIssue u t ((s'.sreg t (aOf w) + immOf w).toNat % 2 ^ 48) 0 0))

/-- GETINFO, END and YIELD, and the end of a tile's part of its block (R105, R106, R109).

GETINFO completes with the item FN selects (R109): the handle, the place in the arch, the course number, the argument
block, the block's index. For item 3, a cycle count, some value is written.
Item 3 is a free value, the model's choice (log entry 20).

END and YIELD complete: the tile's part ends, RUN says so, and a YIELD under a program record with CONTINUING leaves the
address after it and s1 to s7 with its block's item (R105, R106).

A tile that has executed END or was stopped, with nothing of its own unfinished, ends its part: RUN returns to 0 after
END; with the last tile the block is gone and each of its tiles is free (R106).

Next states are stated of: getinfo, end_, yield, tilePartEnd. -/
def Obligations.TileEnds : Prop :=
  (∀ (s s' : State) (t : Nat) (w : Word) (b : Block), s.issues t w s' → opOf w = 0x1E → s'.blockOf t = some b →
      let pc := nextPc (s.tile t).pc
      let gives (v : Nat) : Prop := ∃ u, exec (.getinfo t) s = .next u ∧ s'.scalarIssue u t pc (dOf w) (BitVec.ofNat 64 v)
      (fnOf w = 0 → gives (s'.fld F.TSQ_STATE.HANDLE t)) ∧
      (fnOf w = 1 → s'.fld F.ARC_SHAPE.VALID t = 0 → s'.reg .ARC_SHAPE t = 0 → gives 0) ∧
      (fnOf w = 1 → s'.fld F.ARC_SHAPE.VALID t = 1 →
        gives (2 ^ 63 + s'.fld F.ARC_SHAPE.ROW_POS t * 256 + s'.fld F.ARC_SHAPE.COL_POS t)) ∧
      (fnOf w = 2 → gives (s'.fld F.CRS_COURSE_NUM.COURSE 0)) ∧
      (fnOf w = 3 → ∃ u v, exec (.getinfo t) s = .next u ∧
        { s' with freeCtr := s'.freeCtr + 1 }.scalarIssue u t pc (dOf w) v) ∧
      (fnOf w = 4 → gives b.args) ∧ (fnOf w = 5 → gives b.idx)) ∧
  (∀ (s s' : State) (t : Nat) (w : Word), s.issues t w s' →
      let pc := nextPc (s.tile t).pc
      let regs := [1, 2, 3, 4, 5, 6, 7].map (s'.sreg t)
      (opOf w = 0x01 → ∃ u, exec (.end_ t) s = .next u ∧ s'.scalarIssue u t pc 0 0 ∧ u.fld F.TSQ_STATE.RUN t = 2) ∧
      (opOf w = 0x02 → (s'.tile t).cont = false →
        ∃ u, exec (.yield t) s = .next u ∧ s'.scalarIssue u t pc 0 0 ∧ u.fld F.TSQ_STATE.RUN t = 2) ∧
      (opOf w = 0x02 → (s'.tile t).cont = true → ∀ b, s'.blockOf t = some b →
        ∃ u, exec (.yield t) s = .next u ∧ { s' with items := u.items }.scalarIssue u t pc 0 0 ∧
          u.fld F.TSQ_STATE.RUN t = 2 ∧
          u.items = s'.items.map fun i => if i.queue = b.queue ∧ i.seq = b.seq then
            { i with conts := SMap.insert i.conts (b.idx * 1024 + s'.fld F.TSQ_STATE.HANDLE t) (pc, regs) } else i)) ∧
  (∀ (s : State) (t : Nat) (b : Block), s.blockOf t = some b → s.tileEnded t = true →
      ∃ u, exec (.tilePartEnd t) s = .next u ∧
        (s.fld F.TSQ_STATE.RUN t = 2 → u.fld F.TSQ_STATE.RUN t = 0) ∧
        ((∃ q ∈ b.tiles, q ≠ t ∧ s.fld F.TSQ_STATE.RUN q = 1) →
          u.blocks = s.blocks ∧ s.onlyRegs u [F.TSQ_STATE.RUN.at t]) ∧
        ((∀ q ∈ b.tiles, s.fld F.TSQ_STATE.RUN q = 0 ∨ q = t) → s.fld F.TSQ_STATE.RUN t = 2 →
          (∀ x ∈ u.blocks, x.id ≠ b.id) ∧ ∀ q ∈ b.tiles, (u.tile q).block = none))

/-- The exceptions of an instruction that is not one, and what a fetch leaves unchanged (R107, R109, R120, R121).

A reserved opcode, and GETINFO of a reserved item, take ILLEGAL_OP; JR to a target that is not a multiple of 8 takes
ALIGN: precise, with the block failed with TILE_EXCEPTION, and nothing written (R107, R109, R120, R121).

What fetching an instruction leaves unchanged: every byte of memory and scratch, every other tile, the tile's scalar
registers and program counter.

Next states are stated of: reservedOpcode, getinfo, jr. -/
def Obligations.TileStops : Prop :=
  (∀ (s s' : State) (t : Nat) (w : Word), s.issues t w s' →
      (opcodeListed (opOf w) = false → ∃ u, exec (.reservedOpcode t) s = .next u ∧
        s'.excepted u t true (s.tile t).pc w 0x01 0 0x08 0x01) ∧
      (opOf w = 0x1E → 6 ≤ fnOf w → ∃ u, exec (.getinfo t) s = .next u ∧
        s'.excepted u t true (s.tile t).pc w 0x01 0 0x08 0x01) ∧
      (opOf w = 0x05 → (s'.sreg t (aOf w) + immOf w).toNat % 8 ≠ 0 → ∃ u, exec (.jr t) s = .next u ∧
        s'.excepted u t true (s.tile t).pc w 0x05 (s'.sreg t (aOf w) + immOf w).toNat 0x08 0x05)) ∧
  (∀ (s s' : State) (t : Nat) (w : Word), s.sound → s.issues t w s' →
      s.sameBytes s' ∧ s'.sound ∧ (∀ q, q ≠ t → s'.tile q = s.tile q) ∧
      { s'.tile t with quoin := (s.tile t).quoin, clock := (s.tile t).clock } = s.tile t ∧
      s' = { s with regs := s'.regs, tiles := s'.tiles } ∧ s.regsBut s' [F.TSQ_QHIT.HITS.at t])

/-- Size in bytes of LD and ST, SUB[1:0] (R110). -/
def memSize (w : Word) : Nat := 2 ^ (subOf w % 4)

/-- Address of LD, ST, LDC and AMO: s[A] + sext(IMM), modulo 2⁶⁴. -/
def memAddr (s : State) (t : Nat) (w : Word) : Nat := (s.sreg t (aOf w) + immOf w).toNat

/-- LD and LDC complete with the bytes they read (R110, R125, R129, R214).

LD completes (R110): s[D] receives the bytes at the address, least significant first and zero-extended, from scratch, or
from a virtual address through the view of the tile's die (R214). Memory and scratch keep every byte. A load of the very bytes
that the tile's one store on its way writes performs that store first and receives its bytes (R193).

LDC completes from the text area of tile scratch (R110, R129), from the quoin cache where the line is held
(R125), and from memory while the cache is disabled (R126): s[D] receives the 8 bytes.

Next states are stated of: ld, ldc. -/
def Obligations.Loads : Prop :=
  (∀ (s s' : State) (t : Nat) (w : Word), s.issues t w s' → s'.sound → opOf w = 0x20 →
      memAddr s' t w % memSize w = 0 →
      let pc := nextPc (s.tile t).pc
      let n := memSize w
      let d := tileDie t
      (subOf w < 4 → ∀ c, s'.conv t t (memAddr s' t w) n true false = .ok c → s'.ownBusy t c = false →
        ∃ u, exec (.ld t) s = .next u ∧ s'.scalarIssue u t pc (dOf w)
          (BitVec.ofNat 64 (ofBytes ((List.range n).map (s'.scrByte t c))))) ∧
      (4 ≤ subOf w → s'.goes t (memAddr s' t w) n → s'.scoped d →
        ∀ pa, (s'.xlate t d 0 (s'.ctxOf t) (memAddr s' t w) .read).res = .ok pa →
        (s'.opsOf t .scalar = 0 → ∃ u, exec (.ld t) s = .next u ∧ (u.tile t).pc = pc ∧ s'.sameBytes u ∧
          (∀ i, u.sreg t i = if i = dOf w ∧ i ≠ 0 then
            BitVec.ofNat 64 (ofBytes ((List.range n).map fun i => s'.viewByte (some d) (pa + i))) else s'.sreg t i) ∧
          (∀ q, q ≠ t → u.tile q = s'.tile q) ∧ s'.readFrame u (issueRegs t)) ∧
        (∀ p, s'.packets = [p] → p.tile = t → p.unit = .scalar → p.toMem = true → p.dst = pa → p.data.length = n →
          p.done = [] → p.seen = [] → s'.ill = [] → p.ctr = none → ∃ u, exec (.ld t) s = .next u ∧ (u.tile t).pc = pc ∧
          u.packets = [] ∧ (∀ i, i < n → u.memByte (pa + i) = p.data.getD i 0) ∧ u.scr = s'.scr ∧
          (∀ i, u.sreg t i = if i = dOf w ∧ i ≠ 0 then
            BitVec.ofNat 64 (ofBytes ((List.range n).map fun i => u.viewByte (some d) (pa + i))) else s'.sreg t i)))) ∧
  (∀ (s s' : State) (t : Nat) (w : Word), s.issues t w s' → s'.sound → opOf w = 0x22 →
      let a := memAddr s' t w
      let pc := nextPc (s.tile t).pc
      a % 8 = 0 → a < 2 ^ 48 → (inRange (s'.tile t).text a 8 || inRange (s'.tile t).const a 8) = true →
      (s'.textMode t = true → ∃ u, exec (.ldc t) s = .next u ∧
        s'.scalarIssue u t pc (dOf w) (BitVec.ofNat 64 (ofBytes ((List.range 8).map (s'.scrByte t (s'.textScr t a)))))) ∧
      (s'.textMode t = false → s'.quoinOn t = true → ∀ k e, (s'.tile t).entry (a / 128 * 128) = some (k, e) → e.ue = false →
        ∃ u, exec (.ldc t) s = .next u ∧ (u.tile t).pc = pc ∧ s'.sameBytes u ∧ s'.onlyTile u t (F.TSQ_QHIT.HITS.at t :: issueRegs t) ∧
          ∀ i, u.sreg t i = if i = dOf w ∧ i ≠ 0 then
            BitVec.ofNat 64 (ofBytes ((e.data.drop (a % 128)).take 8)) else s'.sreg t i) ∧
      (s'.textMode t = false → s'.quoinOn t = false → s'.scoped (tileDie t) →
        ∀ pa, (s'.xlate t (tileDie t) 0 (s'.ctxOf t) a .fetch).res = .ok pa →
        ∃ u, exec (.ldc t) s = .next u ∧ (u.tile t).pc = pc ∧ s'.sameBytes u ∧ s'.readFrame u (issueRegs t) ∧
          ∀ i, u.sreg t i = if i = dOf w ∧ i ≠ 0 then
            BitVec.ofNat 64 (ofBytes ((List.range 8).map fun i => s'.viewByte (some (tileDie t)) (pa + i))) else s'.sreg t i))

/-- ST completes (R110, R192): to scratch, the low bytes of s[B] stand at the address computed and every other byte keeps its
value; to a virtual address, a packet sets out with them for the physical address the virtual one translates to, and no byte
changes before it is performed.

Next states are stated of: st. -/
def Obligations.StoreResults : Prop :=
  ∀ (s s' : State) (t : Nat) (w : Word), s.issues t w s' → s'.sound → opOf w = 0x21 →
    memAddr s' t w % memSize w = 0 →
    let pc := nextPc (s.tile t).pc
    let n := memSize w
    let b (i : Nat) : Byte := BitVec.ofNat 8 ((s'.sreg t (bOf w)).toNat / 256 ^ i)
    (subOf w < 4 → ∀ c, s'.conv t t (memAddr s' t w) n true true = .ok c → s'.ownBusy t c = false →
      ∃ u, exec (.st t) s = .next u ∧ s'.issuedAt u t pc ∧ (∀ i, u.sreg t i = s'.sreg t i) ∧
        (∀ i, i < n → u.scrByte t c i = b i) ∧ s'.scrOnly u t c n ∧
        { s' with scr := u.scr }.onlyTile u t (issueRegs t) ∧
        { u.tile t with opbuf := (s'.tile t).opbuf, pc := (s'.tile t).pc, clock := (s'.tile t).clock } = s'.tile t) ∧
    (4 ≤ subOf w → (s'.tile t).fence = [] → s'.scalarFull t = false → s'.noEntry t false = false →
      ∀ pa, (s'.xlate t (tileDie t) 0 (s'.ctxOf t) (memAddr s' t w) .write).res = .ok pa →
      ∃ u ps, exec (.st t) s = .next u ∧ (u.tile t).pc = pc ∧ s'.sameBytes u ∧ (∀ i, u.sreg t i = s'.sreg t i) ∧
        u.packets = s'.packets ++ ps ∧ carries ps t .scalar true pa none ((List.range n).map b) ∧
        (∀ p ∈ ps, p.done = [] ∧ p.seen = [] ∧ p.fenced = true ∧ p.agent = s'.tileAgent t) ∧
        (∀ q, q ≠ t → u.tile q = s'.tile q))

/-- AMO completes (R115, R210, R213, R214): s[D] receives the old value; at DIE scope the result stands in the die's copy of
the line and the home line keeps its bytes, at a wider scope it stands at the home slice.
What an ill-scoped access leaves undefined is a free value (log entry 13).

Next states are stated of: amo. -/
def Obligations.AtomicResults : Prop :=
  ∀ (s s' : State) (t n pa : Nat) (w : Word), s.issues t w s' → s'.sound → opOf w = 0x70 → amoSize (amoFnOf w) = some n →
    subOf w < 3 → memAddr s' t w % n = 0 → s'.goes t (memAddr s' t w) n → s'.scoped (tileDie t) →
    (∀ p ∈ s'.packets, p.toMem = false) →
    (s'.xlate t (tileDie t) 0 (s'.ctxOf t) (memAddr s' t w) .atomic).res = .ok pa →
    let d := tileDie t
    let old := ofBytes ((List.range n).map fun i => s'.viewByte (some d) (pa + i))
    let new := amoResult (amoFnOf w) old (s'.sreg t (bOf w)).toNat (s'.sreg t (dOf w)).toNat
    (subOf w = 0 → s'.copyRoom d (s'.tileAgent t).tag (pa / 128 * 128) = true) →
    ∃ u, exec (.amo t) s = .next u ∧ (u.tile t).pc = nextPc (s.tile t).pc ∧
      (∀ i, u.sreg t i = if i = dOf w ∧ i ≠ 0 then BitVec.ofNat 64 old else s'.sreg t i) ∧
      (s'.ill = [] → ∀ i, i < n → u.viewByte (some d) (pa + i) = BitVec.ofNat 8 (new / 256 ^ i)) ∧
      (subOf w = 0 → ∀ a, u.memByte a = s'.memByte a) ∧
      (subOf w ≠ 0 → ∀ i, i < n → u.memByte (pa + i) = BitVec.ofNat 8 (new / 256 ^ i)) ∧
      (∀ a, (a < pa ∨ pa + n ≤ a) → u.memByte a = s'.memByte a ∧ u.viewByte (some d) a = s'.viewByte (some d) a) ∧
      u.scr = s'.scr ∧ (∀ q, q ≠ t → u.tile q = s'.tile q)

/-- The moves complete at issue (R110, R112, R181, R183): SMOV, MCPY.IN, MCPY.OUT and SFILL put packets with the source's
bytes, or repeats of s[B], on their way to the destination, counting on counter CTR of the destination's tile, or of the
tile itself for external memory; no byte of memory or scratch changes before they land.

Next states are stated of: smov, mcpyIn, mcpyOut, sfill. -/
def Obligations.MoveResults : Prop :=
  ∀ (s s' : State) (t : Nat) (w : Word), s.issues t w s' → s'.sound → s'.moveFull t = false →
    let n := (s'.sreg t (dOf w)).toNat
    let dst := memAddr s' t w
    let src := (s'.sreg t (bOf w)).toNat
    let d := tileDie t
    let sends (i : Instr) (P : List Packet → Prop) : Prop :=
      ∃ u ps, exec i s = .next u ∧ u.packets = s'.packets ++ ps ∧ P ps ∧
        s'.issuedAt u t (nextPc (s.tile t).pc) ∧ (∀ i, u.sreg t i = s'.sreg t i) ∧ s'.sameBytes u ∧
        ∀ q, q ≠ t → u.tile q = s'.tile q
    (opOf w = 0x50 → moveCheck n dst src = none → ∀ a b, s'.conv t t src n true false = .ok a →
      s'.conv t t dst n true true = .ok b → s'.ownBusy t a = false → s'.ownBusy t b = false →
      (toOther t b = true → (s'.tile t).fence = []) → sends (.smov t) fun ps =>
        carries ps t .move false (b.key t) (moveCtr t b (ctrOf w))
          (s'.afterMoves t false (a.key t) ((List.range n).map (s'.scrByte t a)))) ∧
    (opOf w = 0x51 → moveCheck n dst src = none → (s'.tile t).fence = [] → s'.noEntry t (s'.latency t) = false →
      s'.readHeld t src n = false → s'.scoped d → ∀ b r, s'.conv t t dst n false true = .ok b →
      s'.xlateRun t d 0 (s'.ctxOf t) src n .read = r → r.fault = none → sends (.mcpyIn t) fun ps =>
        carries ps t .move false (b.key t) (moveCtr t b (ctrOf w))
          (r.pieces.map fun p => s'.afterMoves t true p.1 ((List.range p.2).map fun i => s'.viewByte (some d) (p.1 + i))).flatten) ∧
    (opOf w = 0x52 → moveCheck n dst src = none → (s'.tile t).fence = [] → s'.noEntry t false = false →
      ∀ a r, s'.conv t t src n false false = .ok a →
      s'.xlateRun t d 0 (s'.ctxOf t) dst n .write = r → r.fault = none → sends (.mcpyOut t) fun ps =>
        carriesAll t .move (some (t, ctrOf w)) r.pieces
          (s'.afterMoves t false (a.key t) ((List.range n).map (s'.scrByte t a))) ps) ∧
    (opOf w = 0x53 → moveCheck n dst 0 = none → ∀ b, s'.conv t t dst n false true = .ok b →
      (toOther t b = true → (s'.tile t).fence = []) → sends (.sfill t) fun ps =>
        carries ps t .move false (b.key t) (moveCtr t b (ctrOf w))
          ((List.range n).map fun i => BitVec.ofNat 8 (src / 256 ^ (i % 8))))

/-- A packet that nothing holds lands (R181, R182): the bytes it still had to perform stand at its destination and it is gone,
nothing else of memory or scratch changes, and its bytes are added, modulo 2⁴⁸, to the counter it names and to no other. One of
its 8 B units may be performed before the others (R187), and a tile's store may be seen by a die before it is performed (R188).
A patrol pass over a plinth region clears VALID where it meets an uncorrectable unit (R180).

Next states are stated of: arrivalCount, plinthScrub. -/
def Obligations.ArrivalResults : Prop :=
  (∀ (s : State) (k : Nat) (p : Packet), s.sound → s.packets[k]? = some p → (∀ q ∈ s.packets, p.behind q = false ∧ q.seen = []) →
    (∀ j, j ≠ k → (s.packets[j]?).map Packet.pid ≠ some p.pid) →
    s.staged p = false → s.linkHeld p = false → (p.toMem = true → s.starved p.agent.tag = false) →
    let new (a : Nat) : Prop := p.dst ≤ a ∧ a < p.dst + p.data.length ∧ a / 8 ∉ p.done
    (∃ u, exec (.arrivalCount ⟨k, .whole⟩) s = .next u ∧ u.packets = s.packets.eraseIdx k ∧
      (p.toMem = false → u.mem = s.mem ∧ s.scrOnly u (keyScr p.dst).1 (keyScr p.dst).2 p.data.length ∧
        ∀ i, i < p.data.length → (p.dst + i) / 8 ∉ p.done →
          u.scrByte (keyScr p.dst).1 (keyScr p.dst).2 i = p.data.getD i 0) ∧
      (p.toMem = true → u.scr = s.scr ∧ (∀ a, new a → u.memByte a = p.data.getD (a - p.dst) 0) ∧
        ∀ a, ¬ new a → u.memByte a = s.memByte a) ∧
      (∀ t c, p.ctr = some (t, c) → c < 64 →
        u.fld F.SCP_ACTR.COUNT (t * 64 + c) = (s.fld F.SCP_ACTR.COUNT (t * 64 + c) + p.data.length) % 2 ^ 48 ∧
        ∀ t' c', c' < 64 → (t', c') ≠ (t, c) →
          u.fld F.SCP_ACTR.COUNT (t' * 64 + c') = s.fld F.SCP_ACTR.COUNT (t' * 64 + c'))) ∧
    (∀ a, new a → ∃ u, exec (.arrivalCount ⟨k, .unit a⟩) s = .next u ∧
      (u.packets[k]?).map Packet.done = some (a / 8 :: p.done) ∧
      (p.toMem = true → u.scr = s.scr ∧ (∀ b, b / 8 = a / 8 → new b → u.memByte b = p.data.getD (b - p.dst) 0) ∧
        ∀ b, (b / 8 ≠ a / 8 ∨ ¬ new b) → u.memByte b = s.memByte b) ∧
      (p.toMem = false → u.mem = s.mem ∧ u.scrByte (keyScr p.dst).1 (keyScr p.dst).2 (a - p.dst) = p.data.getD (a - p.dst) 0) ∧
      ∀ t c, u.fld F.SCP_ACTR.COUNT (t * 64 + c) = s.fld F.SCP_ACTR.COUNT (t * 64 + c)) ∧
    (∀ d, p.unit = .scalar → d < s.part.dies → ∃ u, exec (.arrivalCount ⟨k, .seen d⟩) s = .next u ∧ s.sameBytes u ∧
      (u.packets[k]?).map Packet.seen = some [d] ∧
      (s.ill = [] → p.toMem = true → ∀ a, new a → u.viewByte (some d) a = p.data.getD (a - p.dst) 0))) ∧
  (∀ (s : State) (t pa : Nat), t < 800 → s.fld F.SCP_PLINTH.VALID t = 1 → s.fld F.SCP_PLINTH.BANKS t ≠ 0 →
    s.scrUe = [tilePa t + pa] → s.scrCe = [] → s.plinthBase t ≤ pa → pa < 2 ^ 20 →
    ∃ u, exec (.plinthScrub t) s = .next u ∧ u.fld F.SCP_PLINTH.VALID t = 0 ∧ u.fld F.SCP_EVENT.PLINTH_UE t = 1 ∧
      s.sameBytes u ∧ u.scrUe = s.scrUe ∧ u.tiles = s.tiles)

/-- Waits, counters and fences, and what releases them (R113, R116, R198, R215).

WAITC and WAITU issue and go on at once where their condition holds, else stall the sequencer; the releases end the stall
as soon as it holds; ACSET and ACGET write and read a counter (R113, R198).
What TSQ_STATE.WAIT shows meanwhile is the model's reading (log entry 73).

FENCE holds later operations of its classes from its issue; its release, once nothing dispatched before it is pending,
lets them go and publishes the die's copies of the block's partition for the wider scopes (R116, R215): afterwards no
such copy is left, and every byte reads in memory as the copy showed it.
Which operations a fence orders is the model's reading (log entry 29).

Next states are stated of: waitc, waitu, acset, acget, waitcRelease, waituRelease, fence, fenceRelease. -/
def Obligations.Waiting : Prop :=
  (∀ (s s' : State) (t : Nat), t < 800 →
      (∀ w, s.issues t w s' →
        let pc := nextPc (s.tile t).pc
        let goal := memAddr s' t w % 2 ^ 48
        let count (c : Nat) : Nat := s'.fld F.SCP_ACTR.COUNT (t * 64 + c)
        (opOf w = 0x60 → goal ≤ count (ctrOf w) → ∃ u, exec (.waitc t) s = .next u ∧ s'.scalarIssue u t pc 0 0) ∧
        (opOf w = 0x60 → count (ctrOf w) < goal → ∃ u, exec (.waitc t) s = .next u ∧
          s'.issuedTile u t (fun x => { x with waitC := some (ctrOf w, goal) }) ∧ u.fld F.TSQ_STATE.WAIT t = 2 ∧
          u.running t = false) ∧
        (opOf w = 0x63 → s'.unitsIdle t (w.toNat % 128) = true → ∃ u, exec (.waitu t) s = .next u ∧
          s'.scalarIssue u t pc 0 0) ∧
        (opOf w = 0x63 → s'.unitsIdle t (w.toNat % 128) = false → ∃ u, exec (.waitu t) s = .next u ∧
          s'.issuedTile u t (fun x => { x with waitU := some (w.toNat % 128) }) ∧ u.fld F.TSQ_STATE.WAIT t = 3 ∧
          u.running t = false) ∧
        (opOf w = 0x61 → ∃ u, exec (.acset t) s = .next u ∧ s'.issuedAt u t pc ∧
          (∀ c, c < 64 → u.fld F.SCP_ACTR.COUNT (t * 64 + c) =
            if c = ctrOf w then (s'.sreg t (bOf w)).toNat % 2 ^ 48 else count c) ∧
          s'.onlyTile u t (F.SCP_ACTR.COUNT.at (t * 64 + ctrOf w) :: issueRegs t)) ∧
        (opOf w = 0x62 → ∃ u, exec (.acget t) s = .next u ∧
          s'.scalarIssue u t pc (dOf w) (BitVec.ofNat 64 (count (ctrOf w))))) ∧
      (∀ c n, (s.tile t).waitC = some (c, n) → n ≤ s.fld F.SCP_ACTR.COUNT (t * 64 + c) →
        ∃ u, exec (.waitcRelease t) s = .next u ∧ u.fld F.TSQ_STATE.WAIT t = 0 ∧
          u.tile t = { s.tile t with waitC := none } ∧
          { s with freeCtr := s.freeCtr + 1 }.onlyTile u t [F.TSQ_STALL.WAITS.at t, F.TSQ_STATE.WAIT.at t]) ∧
      (∀ m, (s.tile t).waitU = some m → s.unitsIdle t m = true →
        ∃ u, exec (.waituRelease t) s = .next u ∧ u.fld F.TSQ_STATE.WAIT t = 0 ∧
          u.tile t = { s.tile t with waitU := none } ∧
          { s with freeCtr := s.freeCtr + 1 }.onlyTile u t [F.TSQ_STALL.WAITS.at t, F.TSQ_STATE.WAIT.at t])) ∧
  ((∀ (s s' : State) (t : Nat) (w : Word), s.issues t w s' → opOf w = 0x80 →
      (fnOf w < 3 → ∃ u, exec (.fence t) s = .next u ∧
        s'.issuedTile u t (fun x => { x with fence := x.fence ++ [(fnOf w, x.clock)] })) ∧
      (3 ≤ fnOf w → ∃ u, exec (.fence t) s = .next u ∧ s'.excepted u t true (s.tile t).pc w 0x03 0 0x08 0x03)) ∧
    (∀ (s : State) (t scope stamp : Nat) (rest : List (Nat × Nat)) (b : Block), s.sound →
      (s.tile t).fence = (scope, stamp) :: rest → s.fencePending t scope stamp = false → s.blockOf t = some b →
      ∃ u, exec (.fenceRelease t) s = .next u ∧ u.tile t = { s.tile t with fence := rest } ∧ u.scr = s.scr ∧
        (scope = 0 → u.mem = s.mem ∧ u.copies = s.copies) ∧
        (scope ≠ 0 → (∀ c ∈ u.copies, ¬ (c.die = tileDie t ∧ c.part = b.part)) ∧
          ∀ c ∈ s.copies, ¬ (c.die = tileDie t ∧ c.part = b.part) → c ∈ u.copies) ∧
        (scope ≠ 0 → ∀ c, s.copies = [c] → c.die = tileDie t → c.part = b.part → c.line % 128 = 0 →
          SMap.rising c.bytes = true → (∀ p ∈ c.bytes, p.1 < 128) → s.ill = [] → s.packets = [] →
          ∀ a, u.memByte a = s.viewByte (some (tileDie t)) a)))

/-- QINV, QEN and QPF complete on a tile that reads text through the quoin cache (R126, R127), and do nothing in scratch text
mode (R129). A fill of a line that is still wanted enters the cache (R125), or the fetch buffer while it is disabled.

Next states are stated of: qinv, qen, qpf, quoinFill. -/
def Obligations.QuoinResults : Prop :=
  (∀ (s s' : State) (t : Nat) (w : Word), t < 800 → s.issues t w s' →
    let pc := nextPc (s.tile t).pc
    let qctl := F.TSQ_QCTL.CLEAN.at t :: issueRegs t
    let on := s'.textMode t = false
    (opOf w = 0xA0 → on → ∃ u, exec (.qinv t) s = .next u ∧ s'.issuedAt u t pc ∧ (u.tile t).quoin = [] ∧
      u.fld F.TSQ_QCTL.CLEAN t = 1 ∧ u.fld F.TSQ_QCTL.ENABLE t = s'.fld F.TSQ_QCTL.ENABLE t ∧ s'.onlyTile u t qctl) ∧
    (opOf w = 0xA1 → on → w.toNat.testBit 0 = true → s'.fld F.TSQ_QCTL.CLEAN t = 1 →
      ∃ u, exec (.qen t) s = .next u ∧ s'.issuedAt u t pc ∧ u.fld F.TSQ_QCTL.ENABLE t = 1 ∧ s'.onlyTile u t qctl) ∧
    (opOf w = 0xA1 → on → w.toNat.testBit 0 = true → s'.fld F.TSQ_QCTL.CLEAN t = 0 →
      ∃ u, exec (.qen t) s = .next u ∧ s'.excepted u t true (s.tile t).pc w 0x0B 0 0x08 0x0B) ∧
    (opOf w = 0xA1 → on → w.toNat.testBit 0 = false → ∃ u, exec (.qen t) s = .next u ∧ s'.issuedAt u t pc ∧
      u.fld F.TSQ_QCTL.ENABLE t = 0 ∧ u.fld F.TSQ_QCTL.CLEAN t = 0 ∧ s'.onlyTile u t qctl) ∧
    (opOf w = 0xA2 → on → s'.quoinOn t = true → (s'.tile t).fills = [] → s'.tracked (tileDie t) + 8 ≤ 61440 →
      let l (i : Nat) : Nat := memAddr s' t w / 128 * 128 + 128 * i
      (∀ i, i ≤ fnOf w → (s'.tile t).entry (l i) = none ∧ touches (s'.tile t).text (l i) 128 = true) →
      ∃ u, exec (.qpf t) s = .next u ∧ s'.issuedAt u t pc ∧
        (u.tile t).fills = (List.range (min (fnOf w + 1) 8)).map (fun i => ⟨l i, true, false, false, false, some ((s.tile t).pc, w)⟩) ∧
        s'.onlyTile u t (F.TSQ_QMISS.PREFETCHES.at t :: issueRegs t)) ∧
    (s'.textMode t = true →
      (opOf w = 0xA0 → ∃ u, exec (.qinv t) s = .next u ∧ s'.scalarIssue u t pc 0 0) ∧
      (opOf w = 0xA1 → ∃ u, exec (.qen t) s = .next u ∧ s'.scalarIssue u t pc 0 0) ∧
      (opOf w = 0xA2 → ∃ u, exec (.qpf t) s = .next u ∧ s'.scalarIssue u t pc 0 0))) ∧
  (∀ (s : State) (t l pa : Nat) (pre buf prec : Bool) (qpf : Option (Nat × Word)), s.sound → s.scoped (tileDie t) → t < 800 →
    s.starvedTile t = false → (s.tile t).fills = [⟨l, pre, buf, false, prec, qpf⟩] → l % 128 = 0 →
    (s.xlate t (tileDie t) 0 (s.ctxOf t) l .fetch).res = .ok pa →
    ∃ u, exec (.quoinFill t 0) s = .next u ∧ (u.tile t).fills = [] ∧ s.sameBytes u ∧
      (∀ i, u.sreg t i = s.sreg t i) ∧ (u.tile t).pc = (s.tile t).pc ∧
      let bs := (List.range 128).map fun i => s.viewByte (some (tileDie t)) (pa + i)
      (buf = true → (u.tile t).fetchBuf = some ⟨l, bs, false, 0, false⟩) ∧
      (buf = false → s.quoinOn t = true → (s.tile t).entry l = none →
        ∃ e, (u.tile t).entry l = some e ∧ e.2.data = bs ∧ e.2.ue = false))

/-- The lane operations of R88, R92 and R119: constructor, opcode, and the value a lane receives from the instruction word,
the slot's M and the lane's three operands. -/
def laneOps : List ((Nat → Instr) × Nat × (Word → Nat → Nat → Nat → Nat → Nat)) :=
  [(.cfma, 0xB0, fun _ _ a b c => ffma (lo32 a) (lo32 b) (lo32 c)), (.cadd, 0xB1, fun _ _ a b _ => fadd (lo32 a) (lo32 b)),
    (.csub, 0xB2, fun _ _ a b _ => fsub (lo32 a) (lo32 b)), (.cmul, 0xB3, fun _ _ a b _ => fmul (lo32 a) (lo32 b)),
    (.cmax, 0xB4, fun _ _ a b _ => fmax (lo32 a) (lo32 b)), (.cmin, 0xB5, fun _ _ a b _ => fmin (lo32 a) (lo32 b)),
    (.cdotBf16, 0xB6, fun _ _ a b c => dot 1 1 4 a b (lo32 c)),
    (.cdotFp8, 0xB7, fun w _ a b c => dot (f1Of w) (f2Of w) 8 a b (lo32 c)), (.cmov, 0xB8, fun _ _ a _ _ => a),
    (.ccvt, 0xB9, fun w _ a _ _ => cvt (f1Of w) (f2Of w) (satOf w) a),
    (.csfu, 0xBB, fun w _ a _ _ => sfuFn (cfnOf w) (lo32 a)), (.csfuExpm, 0xBC, fun _ m a _ _ => expm m (lo32 a))]

/-- The lane operations, and what their selectors deliver (R84, R88, R92, R118, R119).

Every lane operation completes where the row is free and its operands are there: the 64 lanes of v[VD] receive the
operation's value of the selected operands, every other register of the row keeps its value, and the queues named by a
popping selector lose their heads (R84, R88, R92, R118, R119).

What a selector delivers to lane `l` (R84, R118): a lane of a vector register, of the head of LS, or one broadcast value.

Next states are stated of: cfma, cadd, csub, cmul, cmax, cmin, cdotBf16, cdotFp8, cmov, ccvt, csfu, csfuExpm. -/
def Obligations.LaneOperations : Prop :=
  (∀ p ∈ laneOps, ∀ (s s' : State) (t : Nat) (w : Word), s.issues t w s' → opOf w = p.2.1 → s'.rowReady t w →
      let x := s'.tile t
      ∃ u, exec (p.1 t) s = .next u ∧ s'.rowIssued u t w ∧
        (∀ l, l < 64 → (u.tile t).cval (64 * vdOf w + l) =
          p.2.2 w (lo32 (x.cval (sxIdx (sxOf w) 0))) ((x.operand (saOf w)).getD l 0) ((x.operand (sbOf w)).getD l 0)
            ((x.operand (scOf w)).getD l 0) % 2 ^ 64) ∧
        (∀ i, i / 64 ≠ vdOf w → (u.tile t).cval i = x.cval i)) ∧
  (∀ (x : Tile) (l : Nat), l < 64 →
      (∀ r, r < 32 → (x.operand r).getD l 0 = x.cval (64 * r + l)) ∧
      (∀ e rest, x.ls = e :: rest → (x.operand 0x20).getD l 0 = (e.getD l 0).toNat ∧
        (x.operand 0x21).getD l 0 = (e.getD l 0).toNat) ∧
      (∀ e rest, x.bq = e :: rest → (x.operand 0x22).getD l 0 = e.toNat ∧ (x.operand 0x23).getD l 0 = e.toNat) ∧
      (∀ e rest, x.bp = e :: rest → (x.operand 0x24).getD l 0 = e.toNat ∧ (x.operand 0x25).getD l 0 = e.toNat) ∧
      (∀ n, n < 8 → (x.operand (0x28 + n)).getD l 0 = x.cval (bIdx n) ∧
        (x.operand (0x30 + n)).getD l 0 = x.cval (sxIdx n 0) % 2 ^ 32 ∧
        (x.operand (0x38 + n)).getD l 0 = x.cval (sxIdx n 1) % 2 ^ 32 ∧
        (x.operand (0x40 + n)).getD l 0 = x.cval (sxIdx n 2) % 2 ^ 32))

/-- Reductions, broadcast registers, softmax slots and packed results (R91, R94 to R96, R119).

The reductions, broadcast registers and softmax slots (R91, R94, R119): CRED, CBSET and CBGET, and CSINIT, CSMAX, CSSUM and
CSFIN on the three fields of slot SX, each leaving every other register of the row.

CPUSHB appends the packed lanes to the push queue, of which BP shows the first 16 entries (R95); CQMX writes each lane's
element code and shared scale to bits 15:0, the upper bits being open (R96).
The open bits are free values (log entry 8).

Next states are stated of: cred, cbset, csinit, csmax, cssum, csfin, cbget, cpushb, cqmx. -/
def Obligations.RowOperations : Prop :=
  (∀ (s s' : State) (t : Nat) (w : Word), s.issues t w s' →
      let x := s'.tile t
      let a := x.operand (saOf w)
      let sx (f : Nat) : Nat := lo32 (x.cval (sxIdx (sxOf w) f))
      let sets (i : Instr) (k v : Nat) : Prop := ∃ u, exec i s = .next u ∧ s'.rowIssued u t w ∧
        (u.tile t).cval k = v % 2 ^ 64 ∧ ∀ j, j ≠ k → (u.tile t).cval j = x.cval j
      let slot (i : Instr) (m l c : Nat) : Prop := ∃ u, exec i s = .next u ∧ s'.rowIssued u t w ∧
        (u.tile t).cval (sxIdx (sxOf w) 0) = m % 2 ^ 64 ∧ (u.tile t).cval (sxIdx (sxOf w) 1) = l % 2 ^ 64 ∧
        (u.tile t).cval (sxIdx (sxOf w) 2) = c % 2 ^ 64 ∧
        ∀ j, j ≠ sxIdx (sxOf w) 0 → j ≠ sxIdx (sxOf w) 1 → j ≠ sxIdx (sxOf w) 2 → (u.tile t).cval j = x.cval j
      (s'.rowReady t w →
        (opOf w = 0xBE → cfnOf w = 0 → sets (.cred t) (bIdx (bnOf w)) (tree fmax a)) ∧
        (opOf w = 0xBE → cfnOf w = 1 → sets (.cred t) (bIdx (bnOf w)) (tree fadd a)) ∧
        (opOf w = 0xBF → sets (.cbset t) (bIdx (bnOf w)) (s'.sreg t (ss1Of w)).toNat) ∧
        (opOf w = 0xC0 → slot (.csinit t) 0xFF800000 0 0x3F800000) ∧
        (opOf w = 0xC1 → slot (.csmax t) (softMax (sx 0) a).1 (sx 1) (softMax (sx 0) a).2) ∧
        (opOf w = 0xC2 → slot (.cssum t) (sx 0) (ffma (sx 1) (sx 2) (tree fadd a)) (sx 2)) ∧
        (opOf w = 0xC3 → slot (.csfin t) (sx 0) (sx 1) (if sx 1 = 0 then 0 else sfuRcp (sx 1)))) ∧
      (opOf w = 0xC6 → x.corbelQ = [] → ∃ u, exec (.cbget t) s = .next u ∧
        s'.scalarIssue u t (nextPc (s.tile t).pc) (ss1Of w) (BitVec.ofNat 64 (x.cval (bIdx (bnOf w)))))) ∧
  (∀ (s s' : State) (t : Nat) (w : Word), s.issues t w s' → s'.rowReady t w →
      let x := s'.tile t
      let a := x.operand (saOf w)
      (opOf w = 0xBD → ∃ u, exec (.cpushb t) s = .next u ∧ s'.rowIssued u t w ∧
        (u.tile t).bp ++ (u.tile t).bpWait =
          (if saOf w = 0x24 then (x.bp ++ x.bpWait).tail else x.bp ++ x.bpWait) ++ pushEntries (f1Of w) a ∧
        (x.bp.length ≤ 16 → (u.tile t).bp.length ≤ 16 ∧ ((u.tile t).bpWait ≠ [] → (u.tile t).bp.length = 16)) ∧
        ∀ i, (u.tile t).cval i = x.cval i) ∧
      (opOf w = 0xBA → ∃ u, exec (.cqmx t) s = .next u ∧
        { s' with freeCtr := s'.freeCtr + 1 }.rowIssued u t w ∧
        (∀ l, l < 64 → (u.tile t).cval (64 * vdOf w + l) % 2 ^ 16 =
          (quantGroup (f1Of w) (((a.map lo32).drop (l / 32 * 32)).take 32)).getD (l % 32) 0 % 2 ^ 16) ∧
        (∀ i, i / 64 ≠ vdOf w → (u.tile t).cval i = x.cval i)))

/-- CST and CST.MX complete (R90, R96, R119): on the own tile the elements stand in scratch at once, CST.MX's scale bytes
besides; for another tile or the die store packets carry them, counting on the named counter of the destination's tile.

Next states are stated of: cst, cstMx. -/
def Obligations.CorbelStores : Prop :=
  ∀ (s s' : State) (t : Nat) (w : Word), s.issues t w s' → s'.sound → s'.rowReady t w →
    let a := (s'.tile t).operand (saOf w)
    let elems := (a.map fun v => bytesOf (2 ^ wOf w) v).flatten
    let codes := packElems (f1Of w) (a.map (· % 256))
    let scales := [BitVec.ofNat 8 (a.getD 0 0 / 256), BitVec.ofNat 8 (a.getD 32 0 / 256)]
    let a1 := (s'.sreg t (ss1Of w)).toNat
    let a2 := (s'.sreg t (ss2Of w)).toNat
    let pc := nextPc (s.tile t).pc
    (opOf w = 0xC4 → a1 % 2 ^ wOf w = 0 → ∀ c, s'.conv t t a1 (64 * 2 ^ wOf w) true true = .ok c →
      (2 ^ 31 ≤ c.key t → s'.unitIdle t 1 = true) →
      (remoteScr t (c.key t) = false → ∃ u, exec (.cst t) s = .next u ∧ s'.issuedAt u t pc ∧
        (∀ i, i < 64 * 2 ^ wOf w → u.scrByte t c i = elems.getD i 0) ∧ s'.scrOnly u t c (64 * 2 ^ wOf w) ∧
        u.mem = s'.mem ∧ (∀ i, u.sreg t i = s'.sreg t i) ∧ (∀ i, (u.tile t).cval i = (s'.tile t).cval i)) ∧
      (remoteScr t (c.key t) = true → (s'.tile t).fence = [] → ∃ u ps, exec (.cst t) s = .next u ∧ s'.issuedAt u t pc ∧
        u.packets = s'.packets ++ ps ∧ carries ps t .corbel false (c.key t) (some (ctrFor t (c.key t) (cstCtrOf w))) elems ∧
        s'.sameBytes u ∧ (∀ i, u.sreg t i = s'.sreg t i) ∧ (∀ i, (u.tile t).cval i = (s'.tile t).cval i))) ∧
    (opOf w = 0xC5 → ∀ c d, s'.conv t t a1 (8 * fmtWidth (f1Of w)) true true = .ok c → s'.conv t t a2 2 true true = .ok d →
      ((2 ^ 31 ≤ c.key t ∨ 2 ^ 31 ≤ d.key t) → s'.unitIdle t 1 = true) →
      ((remoteScr t (c.key t) || remoteScr t (d.key t)) = true → (s'.tile t).fence = []) →
      let far1 := remoteScr t (c.key t) = true
      let far2 := remoteScr t (d.key t) = true
      ∃ u ps qs, exec (.cstMx t) s = .next u ∧ s'.issuedAt u t pc ∧ u.mem = s'.mem ∧
        u.packets = s'.packets ++ ps ++ qs ∧
        (if far1 then carries ps t .corbel false (c.key t) (some (ctrFor t (c.key t) (cstCtrOf w))) codes else ps = []) ∧
        (if far2 then carries qs t .corbel false (d.key t) (some (ctrFor t (d.key t) (cstCtrOf w))) scales else qs = []) ∧
        (¬ far2 → ∀ i, i < 2 → u.scrByte t d i = scales.getD i 0) ∧
        (¬ far1 → ∀ i, i < 8 * fmtWidth (f1Of w) → (¬ far2 → ∀ j, j < 2 → c.key t + i ≠ d.key t + j) →
          u.scrByte t c i = codes.getD i 0) ∧
        (∀ q : Scr, (¬ far1 → ∀ i, i < 8 * fmtWidth (f1Of w) → q.key t ≠ c.key t + i) →
          (¬ far2 → ∀ j, j < 2 → q.key t ≠ d.key t + j) → u.scrByte t q 0 = s'.scrByte t q 0))

/-- LSTR from scratch and BSTR queue their stream behind those before it (R85, R111). An entry of a stream from scratch then
arrives at the tail of LS or BQ with the 512 or 8 bytes at its address, and the stream stands at its next entry; the
corbel row stays as it is while nothing waits to issue.

Next states are stated of: lstr, bstr, streamEntryArrival. -/
def Obligations.StreamResults : Prop :=
  (∀ (s s' : State) (t : Nat) (w : Word) (k : Nat), s.issues t w s' → strCount (s'.sreg t (bOf w)) ≠ 0 →
    let v := s'.sreg t (bOf w)
    let m : Strm := ⟨.scratch k (sext 32 (getField v 55 24)), getField v 15 0, getField v 23 16, 0, [], (s'.tile t).clock,
      (s.tile t).pc, w⟩
    (opOf w = 0x40 → subOf w % 4 = 0 → s'.scrSource t (memAddr s' t w) 512 v true = .ok k → (s'.tile t).lane.length < 5 →
      ∃ u, exec (.lstr t) s = .next u ∧ s'.issuedTile u t fun x => { x with lane := x.lane ++ [m] }) ∧
    (opOf w = 0x41 → s'.scrSource t (memAddr s' t w) 8 v false = .ok k → (s'.tile t).bcast.length < 5 →
      ∃ u, exec (.bstr t) s = .next u ∧ s'.issuedTile u t fun x => { x with bcast := x.bcast ++ [m] })) ∧
  (∀ (s s' : State) (t : Nat) (w : Word), s.issues t w s' → strCount (s'.sreg t (bOf w)) = 0 →
    (opOf w = 0x40 → ∃ u, exec (.lstr t) s = .next u ∧ s'.excepted u t true (s.tile t).pc w 0x04 0 0x08 0x04) ∧
    (opOf w = 0x41 → ∃ u, exec (.bstr t) s = .next u ∧ s'.excepted u t true (s.tile t).pc w 0x04 0 0x08 0x04)) ∧
  (∀ (s : State) (t k : Nat) (st : Int) (m : Strm) (rest : List Strm), s.sound → (s.tile t).corbelQ = [] →
    m.src = .scratch k st → 0 ≤ (k : Int) + m.pos * st → s.fld F.TSQ_STATE.RUN t ≠ 3 →
    let a := ((k : Int) + m.pos * st).toNat
    let next := (if m.pos + 1 < m.count then [{ m with pos := m.pos + 1, kv := [] }]
      else if m.again = 0 then [] else [{ m with pos := 0, again := m.again - 1, kv := [] }]) ++ rest
    ((s.tile t).lane = m :: rest → (s.tile t).ls.length < 16 → ∃ u e, exec (.streamEntryArrival t false) s = .next u ∧
      u = s.setTile t { s.tile t with ls := (s.tile t).ls ++ [e], lane := next } ∧
      e = (List.range 64).map fun i => BitVec.ofNat 64 (ofBytes ((List.range 8).map fun j => s.scrByte t (.at a) (8 * i + j)))) ∧
    ((s.tile t).bcast = m :: rest → (s.tile t).bq.length < 16 → ∃ u e, exec (.streamEntryArrival t true) s = .next u ∧
      u = s.setTile t { s.tile t with bq := (s.tile t).bq ++ [e], bcast := next } ∧
      e = BitVec.ofNat 64 (ofBytes ((List.range 8).map fun j => s.scrByte t (.at a) j))))

/-- The arch-control instructions complete at their origin (R67, R69, R70, R139): WLOAD puts its descriptor in force, not yet
staged; DRAIN sets the drain descriptor for later streams; RSTREAM queues a stream of s[B] rows under the weights and the
drain descriptor in force. Issued elsewhere they take ROLE; RSTREAM before a WLOAD and a DRAIN takes ARCH_STATE.

Next states are stated of: wload, drain, rstream. -/
def Obligations.ArchDispatch : Prop :=
  ∀ (s s' s2 : State) (t : Nat) (w : Word) (h : Shape) (d : List Byte), s.issues t w s' →
    let pc := nextPc (s.tile t).pc
    let c := (s2.tile t).arch
    let reads := s'.shapeOf t = some h ∧ s2.shapeOf t = some h ∧
      s'.descRead t (subOf w % 2 = 1) (memAddr s' t w) 64 64 = .got d s2
    let sets (i : Instr) (k : ArchCtl) : Prop := ∃ u, exec i s = .next u ∧ s2.issuedTile u t fun x => { x with arch := k }
    (opOf w = 0x30 → reads → weightCheck s2.part d = .ok → s2.weightScrBad t h.a h.b d = none → c.full = false →
      (∀ m ∈ c.streams, m.wnum = c.wnum → m.copied = true) →
      sets (.wload t) { c with
        wdesc := some d, staged := false, second := false, wnum := c.wnum + 1, wpc := (s2.tile t).pc, wword := w }) ∧
    (opOf w = 0x32 → reads → s2.drainBad t h d = none → c.full = false →
      sets (.drain t) { c with drain := some d, drains := (c.drains ++ [c.dispatched]).drop (c.drains.length - 7) }) ∧
    (opOf w = 0x31 → reads → ∀ wd dd, (s'.tile t).arch.wdesc = some wd → (s'.tile t).arch.drain = some dd →
      (s'.tile t).arch = c → let n := (s'.sreg t (bOf w)).toNat
      0 < n → n < 2 ^ 32 → rowCheck s2.part false h.a n d = .ok → s2.streamBad t h d wd dd n = none →
      s2.rowScrBad t false h.a n (wdC wd) d = none → c.full = false →
      ∃ u m, exec (.rstream t) s = .next u ∧ s2.issuedAt u t pc ∧ s2.sameBytes u ∧
        (u.tile t).arch = { c with streams := c.streams ++ [m], dispatched := c.dispatched + 1 } ∧
        m.desc = d ∧ m.rows = n ∧ m.wnum = c.wnum ∧ m.drain = dd ∧ m.interval = rowInterval h.a h.b wd ∧
        m.joined = joinedBlock wd ∧ m.started = false ∧ m.copied = false ∧ m.done = List.replicate h.b 0 ∧
        (∀ q, q ≠ t → u.tile q = s2.tile q) ∧ (∀ i, u.sreg t i = s2.sreg t i)) ∧
    (s'.shapeOf t = none →
      (opOf w = 0x30 → ∃ u, exec (.wload t) s = .next u ∧ s'.excepted u t true (s.tile t).pc w 0x0A 0 0x08 0x0A) ∧
      (opOf w = 0x31 → ∃ u, exec (.rstream t) s = .next u ∧ s'.excepted u t true (s.tile t).pc w 0x0A 0 0x08 0x0A) ∧
      (opOf w = 0x32 → ∃ u, exec (.drain t) s = .next u ∧ s'.excepted u t true (s.tile t).pc w 0x0A 0 0x08 0x0A)) ∧
    (s'.shapeOf t = some h → ((s'.tile t).arch.wdesc = none ∨ (s'.tile t).arch.drain = none) → opOf w = 0x31 →
      ∃ u, exec (.rstream t) s = .next u ∧ s'.excepted u t true (s.tile t).pc w 0x10 0 0x08 0x10)

/-- Weights, streams and drained rows of an arch (R67, R71, R140).

Loading and starting (R67, R68, R71). WLOAD_COMPLETE: a WLOAD of a 1 × 1 arch whose reads meet no fault leaves its block, or
the half of a joined block that is due, in the staging buffer. WEIGHT_COPY: staged weights go to the buffer of the next
stream's parity in every member, the other buffer being kept; a joined block fills both, by halves. STREAM_START: the first
stream of an arch whose weights are held and whose first rows are read starts, and every member shows its first row issued and
none drained.
The instants at which ROWS_ISSUED moves, and which columns make a half, are the model's choice (log entries 33 and 100).

DRAIN_ROW: a finished row of the newest started stream reaches its drain (R77, R140) unless the drain's staging holds 128
rows already: DONE of the column's drain shows one more row; after the last row of every column the stream is complete and
leaves the arch, else its count of that column's rows has grown.

Next states are stated of: wloadComplete, weightCopy, streamStart, drainRow. -/
def Obligations.ArchStreams : Prop :=
  ((∀ (s : State) (t : Nat) (d : List Byte) (cols : List (List WEl)) (f : Feed), s.shapeOf t = some ⟨1, 1, [t]⟩ →
      let c := (s.tile t).arch
      c.wdesc = some d → (c.staged = false ∨ c.wantsSecond = true) → s.starvedTile t = false →
      weightCols t t d 0 0 (stageCols (joinedBlock d) c.staged) ⟨s, false, none, []⟩ = (cols, f) → f.exc = none → f.ue = false →
      ∃ u, exec (.wloadComplete t) s = .next u ∧ (u.tile t).staging = some ⟨c.wnum, d, cols⟩ ∧
        (u.tile t).arch = { c with staged := true, second := c.staged } ∧ u.regs = f.st.regs ∧ f.st.sameBytes u ∧
        ∀ q, q ≠ t → u.tile q = f.st.tile q) ∧
    (∀ (s : State) (t : Nat) (h : Shape) (m : ArchStream) (before : List ArchStream), s.shapeOf t = some h → h.tiles.Nodup →
      (s.tile t).arch.nextCopy = some (m, before) → m.wnum = (s.tile t).arch.wnum → bufferFree m before = true →
      ∃ u, exec (.weightCopy t) s = .next u ∧ u.regs = s.regs ∧ s.sameBytes u ∧
        (∀ q, q ≠ t → q ∉ h.tiles → u.tile q = s.tile q) ∧
        let all := (u.tile t).arch = (s.tile t).arch.put { m with first := true, copied := true, blocks := u.heldBlocks h m.seq }
        (m.joined = false → (s.tile t).arch.staged = true → all ∧ ∀ q ∈ h.tiles,
          (u.tile q).wbuf m.seq = (s.tile q).staging ∧ (u.tile q).wbuf (m.seq + 1) = (s.tile q).wbuf (m.seq + 1)) ∧
        (m.joined = true → m.first = false → s.holdsJoined h m.wnum = false → (s.tile t).arch.staged = true →
          (u.tile t).arch = (s.tile t).arch.put { m with first := true } ∧ ∀ q ∈ h.tiles,
            (u.tile q).wbuf0 = (s.tile q).staging ∧ (u.tile q).wbuf1 = (s.tile q).staging) ∧
        (m.joined = true → m.first = true → (s.tile t).arch.second = true → all ∧ ∀ q ∈ h.tiles, ∀ b,
          (s.tile q).staging = some b → (u.tile q).wbuf0 = some { b with
            cols := (((s.tile q).wbuf0.map WBlock.cols).getD []) ++ b.cols } ∧ (u.tile q).wbuf1 = (u.tile q).wbuf0)) ∧
    (∀ (s : State) (t : Nat) (h : Shape) (m m' : ArchStream) (f : Feed), s.shapeOf t = some h → h.tiles.Nodup →
      (∀ q ∈ h.tiles, q < 800) → let c := (s.tile t).arch
      c.streams.find? (fun m => !m.started) = some m → m.copied = true → (∀ p ∈ c.streams, p.seq + 1 ≠ m.seq) →
      s.starvedTile t = false → let s1 := s.showStream h m.interval
      readRows t h m.c 0 (min m.rows (s1.fld F.ARC_MARKS.LWM t + 1)) m ⟨s1, false, none, m.kv⟩ = (m', f) → f.exc = none →
      (∀ q ∈ h.tiles, s1.fld F.ARC_TIMING.ROW_INT q = m.interval % 16) ∧
      ∃ u, exec (.streamStart t) s = .next u ∧
        u.tile t = { f.st.tile t with arch := c.put { m' with started := true, issued := 1 } } ∧
        (∀ q ∈ h.tiles, u.fld F.ARC_STREAM.ROWS_ISSUED q = 1 ∧ u.fld F.ARC_DRAIN_DONE.DONE q = 0) ∧
        u = { f.st with regs := u.regs, tiles := u.tiles } ∧ ∀ q, q ≠ t → u.tile q = f.st.tile q)) ∧
  (∀ (s : State) (t col : Nat) (h : Shape) (m : ArchStream) (b : WBlock) (bs : List WBlock)
      (acts : List (List (Nat × Nat))) (f : Feed), s.shapeOf t = some h → col < h.b → h.south col < 800 →
      (∀ q ∈ h.tiles, q < 800) → (s.tile t).arch.draining col = some m → s.starvedTile t = false →
      s.drainFull (h.south col) = false → (∀ q ∈ (s.tile t).arch.streams, q.started = true → q.seq ≤ m.seq) →
      (List.range h.a).filterMap (fun i => m.blocks[i * h.b + col]?) = b :: bs →
      drainRow t h m (b :: bs) b.desc col (m.done.getD col 0) ⟨s, false, none, m.kv⟩ = (acts, f) → f.exc = none →
      ∃ u, exec (.drainRow t col) s = .next u ∧
        u.fld F.ARC_DRAIN_DONE.DONE (h.south col) = (m.done.getD col 0 + 1) % 2 ^ 32 ∧
        u.mem = f.st.mem ∧ u.scr = f.st.scr ∧ u.packets = f.st.packets ∧
        (let done := m.done.set col (m.done.getD col 0 + 1)
         (done.all (· = m.rows) = true → (u.tile t).arch.streams = (f.st.tile t).arch.streams.filter fun q => q.seq ≠ m.seq) ∧
         (done.all (· = m.rows) = false → ∀ k ∈ (f.st.tile t).arch.streams, k.seq = m.seq →
           ∃ k' ∈ (u.tile t).arch.streams, k'.seq = m.seq ∧ k'.done = done ∧ k'.rows = m.rows)))

/-- ARCH_FREEZE and ARCH_REWIND (R72, R74, R75, R78 to R80): the members freeze together for the conditions raised, each
counting it and showing the ones raised at it, and THROTTLE at every member; a due frequency step is taken within the freeze of
the arch it is due in; an overflowing skid buffer of a die-edge port halts the accelerator; a rewind at such a port discards
what the row feeders hold and returns every member to the lowest row a drain has not completed, the rows done staying done.
What ROWS_ISSUED shows after a rewind is the model's choice (log entry 33).

Next states are stated of: archFreeze, archRewind. -/
def Obligations.ArchStops : Prop :=
  ∀ (s : State) (t o : Nat) (h : Shape), s.archOf t = some (o, h) → h.tiles.Nodup → (∀ q ∈ h.tiles, q < 800) → t ∈ h.tiles →
    let frozen (u : State) (cause : Nat → Nat) : Prop :=
      (∀ q ∈ h.tiles, u.fld F.ARC_COUNT.FREEZES q = min (s.fld F.ARC_COUNT.FREEZES q + 1) (2 ^ 32 - 1) ∧
        u.reg .ARC_CAUSE q = BitVec.ofNat 64 (cause q)) ∧ s.sameBytes u
    (∀ l : List (Nat × StallCond), l ≠ [] → (∀ r ∈ l, s.raises o h r = true ∧ r.2 ≠ .fstep) →
      ∃ u, exec (.archFreeze t l) s = .next u ∧ u.tiles = s.tiles ∧
        frozen u fun q => (if (q, StallCond.rowDry) ∈ l then 1 else 0) + (if (q, StallCond.drainFull) ∈ l then 2 else 0) +
          (if ∃ r ∈ l, r.2 = .throttle then 4 else 0)) ∧
    (∀ b, let due := s.dueWith (quadOf t)
      due ≠ [] → SMap.rising s.pw.left = true → (∀ p ∈ due, p.1 < 22 ∧ p.2 < 32) → s.archesIn (due.map Prod.fst) = [b] →
      b.tiles.headD 0 = o → s.shapeOf o = some h →
      ∃ u, exec (.archFreeze t [(t, .fstep)]) s = .next u ∧ u.tiles = s.tiles ∧ frozen u (fun _ => 8) ∧
        ∀ p ∈ due, u.fld F.PWR_DOM.STEP p.1 = p.2 ∧ p ∉ u.pw.left) ∧
    (h.edgePort t = true → s.timer = true → s.halted = false →
      ∃ u, exec (.archFreeze t [(t, .skidOverflow)]) s = .next u ∧
        u.fld F.CFE_STATUS.HALTED 0 = 1 ∧ u.fld F.CFE_STATUS.READY 0 = 0 ∧ u.blocks = [] ∧ u.mem = s.mem) ∧
    (h.edgePort t = true → ∀ m, (s.tile o).arch.streams.find? ArchStream.started = some m →
      (∀ k ∈ (s.tile o).arch.streams, k.started = true → k.blocks = [] ∨ ∀ q ∈ s.heldBlocks h k.seq, q.num = k.wnum) →
      ∃ u, exec (.archRewind t) s = .next u ∧ frozen u (fun q => if q = t then 16 else 0) ∧
        (∀ q ∈ h.tiles, u.fld F.ARC_COUNT.REWINDS q = min (s.fld F.ARC_COUNT.REWINDS q + 1) (2 ^ 16 - 1) ∧
          u.fld F.ARC_EVENT.REWIND q = 1 ∧ u.fld F.ARC_STREAM.ROWS_ISSUED q = m.done.foldl min m.rows % 2 ^ 32) ∧
        u.tile o = { s.tile o with arch := { (s.tile o).arch with
          streams := (s.tile o).arch.streams.map fun k =>
            { k with acts := [], kv := [], issued := min k.issued (k.done.foldl min k.rows) } } } ∧
        ∀ q, q ≠ o → u.tile q = s.tile q)

/-- RIDDLE_JOB_START: a sort job without biases starts, sends the records of its tokens in order and counts its tokens, the
accepted and the dropped assignments (R159, R162). RIDDLE_JOB_FINISH: it pads every bucket; once the records have landed, it
sends its count table, the counts per expert and then the drops as 32-bit words, to the scratch address its descriptor names,
counting on the counter of the tile it lies in, and is gone (R161, R183).

Next states are stated of: riddleJobStart, riddleJobFinish. -/
def Obligations.RiddleResults : Prop :=
  (∀ (s : State) (d : Nat) (j : RJob) (rest : List RJob) (ps : List SortOut) (counts : List Nat) (drops : Nat) (f : Feed),
    d < 4 → s.jobs d = j :: rest → j.started = false → s.starvedTile j.tile = false → jdBiasEn j.job = false →
    sortAll j (List.replicate (jdExperts j.job) 0) (List.range j.tokens) (List.replicate (jdExperts j.job) 0) 0
      ⟨s, false, none, []⟩ = ((ps, counts, drops), f) → f.exc = none → f.ue = false →
    ∃ u, exec (.riddleJobStart d) s = .next u ∧ u.packets = (f.st.sortSend j ps).packets ∧
      u.jobs d = { j with started := true, counts := counts, drops := drops } :: rest ∧
      u.fld F.FDR_RDL_TOKENS.TOKENS d = min (f.st.fld F.FDR_RDL_TOKENS.TOKENS d + j.tokens) (2 ^ 64 - 1) ∧
      u.fld F.FDR_RDL_ASSIGN.ACCEPTED d =
        min (f.st.fld F.FDR_RDL_ASSIGN.ACCEPTED d + counts.foldl (· + ·) 0) (2 ^ 32 - 1) ∧
      u.fld F.FDR_RDL_ASSIGN.DROPPED d = min (f.st.fld F.FDR_RDL_ASSIGN.DROPPED d + drops) (2 ^ 32 - 1) ∧
      f.st.sameBytes u ∧ u.tiles = f.st.tiles) ∧
  (∀ (s : State) (d : Nat) (j : RJob) (rest : List RJob) (ps : List SortOut) (f : Feed), s.jobs d = j :: rest →
    j.started = true → j.padded = false → padBuckets j (List.range (jdExperts j.job)) ⟨s, false, none, []⟩ = (ps, f) →
    f.exc = none → ∃ u, exec (.riddleJobFinish d) s = .next u ∧ u.jobs d = { j with padded := true } :: rest ∧
      u.packets = (f.st.sortSend j ps).packets ∧ f.st.sameBytes u ∧ u.regs = f.st.regs ∧ u.tiles = f.st.tiles) ∧
  (∀ (s : State) (d pa : Nat) (j : RJob) (rest : List RJob), s.jobs d = j :: rest → j.started = true → j.padded = true →
    (∀ p ∈ s.packets, p.unit ≠ .riddle) → jdCountScr j.job = true →
    let tbl := ((j.counts ++ [j.drops]).map (bytesOf 4)).flatten
    s.conv j.tile j.tile (jdCountOut j.job) tbl.length false true = .ok (.at pa) →
    ∃ u ps, exec (.riddleJobFinish d) s = .next u ∧ u.jobs d = rest ∧ s.sameBytes u ∧ u.regs = s.regs ∧ u.tiles = s.tiles ∧
      u.packets = s.packets ++ ps ∧ carries ps j.tile .riddle false pa
        (if jdCtrEn j.job then some ((paTile pa).getD j.tile, jdCtr j.job) else none) tbl)

/-- HODREQ and COPY submit a transfer (R117, R303, R305): a checked body goes to the tail of the hod its class and tile or
queue number select.

Next states are stated of: hodreq, copy. -/
def Obligations.HodSubmit : Prop :=
  (∀ (s s' s2 : State) (t a b : Nat) (w : Word) (d : List Byte) (blk : Block), s.issues t w s' → opOf w = 0x90 →
    let cls := subOf w / 2
    let h := hodOf cls t
    cls ≠ 3 → (s'.tile t).fence = [] →
    s'.descRead t (subOf w % 2 = 1) (memAddr s' t w) 64 64 = .got d s2 → bodyOk true d = true →
    (tbKind d = 2 ∨ tbClass d = cls) → s2.hodSides t d = .ok (a, b) → s2.hodWaiting h < 64 → (s2.hodsOf t).length < 4 → s2.blockOf t = some blk →
    ∃ (u : State) (j : HodJob), exec (.hodreq t) s = .next u ∧ s2.issuedAt u t (nextPc (s.tile t).pc) ∧ u.hod h = s2.hod h ++ [j] ∧
      (∀ g, g ≠ h → u.hod g = s2.hod g) ∧ j.body = d ∧ j.src = .tile t (ctrOf w) (s2.tile t).clock blk.id ∧
      j.ctx = blk.ctx ∧ j.part = blk.part ∧ j.ssrc = a ∧ j.sdst = b ∧ j.active = false ∧ j.fail = none ∧
      s2.sameBytes u ∧ (∀ i, u.sreg t i = s2.sreg t i)) ∧
  (∀ (s s' : State) (t : Nat) (w : Word), s.issues t w s' → opOf w = 0x90 → subOf w / 2 = 3 →
    ∃ u, exec (.hodreq t) s = .next u ∧ s'.excepted u t true (s.tile t).pc w 0x03 0 0x08 0x03) ∧
  (∀ (s : State) (q : Nat) (i : Item), q < 1024 → s.ready = true → s.unchecked q 2 = some i →
    s.ctxValid (s.qCtx q) = true →
    let h := hodOf (tbClass i.desc) q
    (bodyOk false i.desc = true → s.copyReady { i with stage := .waiting, checked := s.ticks } = true →
      ∃ (u : State) (j : HodJob), exec (.copy q) s = .next u ∧ u.hod h = s.hod h ++ [j] ∧ (∀ g, g ≠ h → u.hod g = s.hod g) ∧
        j.body = i.desc ∧ j.src = .item q i.seq ∧ j.ctx = s.qCtx q ∧ j.part = s.qPart q ∧ j.fn = s.qOwner q ∧
        j.active = false ∧ (∀ k ∈ u.items, k.queue = q → k.seq = i.seq → k.stage = .active) ∧
        u = { s with items := u.items, hods := u.hods, nextJob := s.nextJob + 1 }) ∧
    (bodyOk false i.desc = false → ∃ u, exec (.copy q) s = .next u ∧
      (∀ k ∈ u.items, k.queue = q → k.seq = i.seq → k.stage = .finished 0x03 0 0xFF) ∧ u.hods = s.hods ∧ u.regs = s.regs))

/-- The start and the end of a hod's descriptors (R196, R304, R306, R307, R309, R310).

A hod's next descriptor starts (R196, R304, R306, R307, R309). HOD_COPY within external memory sends the source's bytes on
their way to the destination; one to the bus sends them there and a read behind them; one from the bus asks for its pieces in
order. HOD_FILL sends repeats of its pattern. HOD_FENCE reads every bus destination whose own read has not completed. No byte of
memory or scratch changes before the writes are performed, and the descriptor is being worked on.
That a source within the module is read in one step is the model's choice (log entry 42).

A transfer whose writes are all performed and that has nothing outstanding, and a fence whose reads have completed, leave
their hod (R196, R307, R309, R310): a COPY item completes with OK, or with HOD_FAULT and the detail of its first failure; a
HODREQ counts its bytes on its tile's counter.

Next states are stated of: hodCopy, hodFill, hodFence, hodTransferComplete, hodFenceRelease. -/
def Obligations.HodTransfers : Prop :=
  (∀ (s : State) (h : Nat) (j : HodJob) (q seq : Nat), s.sound → (∀ a, s.illScoped none a = false) →
      s.hod h = [j] → j.active = false → j.body.length = 64 →
      j.src = .item q seq → j.fail = none → j.xfail = none → s.starved j.part = false →
      let d := j.body
      let n := tbLen d
      let active (u : State) : Prop := ∃ k, u.hod h = [k] ∧ k.id = j.id ∧ k.active = true ∧ k.body = j.body ∧ k.fail = none
      let sends (i : Instr) (P : State → List Packet → Prop) : Prop := ∃ u ps, exec i s = .next u ∧ active u ∧ s.sameBytes u ∧
        u.packets = s.packets ++ ps ∧ P u ps
      (tbKind d = 0 → tbSrcSpace d = 0 → ∀ g pa, s.vaRead none 0 4 3 j.ctx (tbSrc d) n .read = g → g.fault = none →
        (s.xlateRun 0 4 3 j.ctx (tbSrc d) n .read).pieces = [(pa, n)] →
        let src := (List.range n).map fun i => s.viewByte none (pa + i)
        (tbDstSpace d = 0 → ∀ pb, (g.st.xlateRun 0 4 3 j.ctx (tbDst d) n .write).pieces = [(pb, n)] →
          (g.st.xlateRun 0 4 3 j.ctx (tbDst d) n .write).fault = none →
          sends (.hodCopy h) fun _ ps => carries ps 0 (.hod h j.id) true pb none src) ∧
        (tbDstSpace d = 1 → s.busFault j.fn = none → s.hodFree h ≠ [] →
          sends (.hodCopy h) fun u ps => ps = [] ∧ u.outs = s.outs ++ s.pushed h j src)) ∧
      (tbKind d = 0 → tbSrcSpace d = 1 → s.busFault j.fn = none →
        let ps := busPieces (s.fn 0).mrrs (tbSrc d) n
        ps.length ≤ (s.hodFree h).length → sends (.hodCopy h) fun u qs => qs = [] ∧
          u.outs = s.outs ++ s.asked h (ps.map fun p => (j.fn, tbSrc d + p.1, p.2))) ∧
      (tbKind d = 1 → tbDstSpace d = 0 → ∀ pa, (s.xlateRun 0 4 3 j.ctx (tbDst d) n .write).pieces = [(pa, n)] →
        (s.xlateRun 0 4 3 j.ctx (tbDst d) n .write).fault = none →
        sends (.hodFill h) fun _ ps => carries ps 0 (.hod h j.id) true pa none
          ((List.range n).map fun i => (tbFill d).getD (i % 8) 0)) ∧
      (tbKind d = 2 → let owed := SMap.get s.hodDsts [] h
        (∀ e ∈ owed, s.busFault e.2.1 = none) → owed.length ≤ (s.hodFree h).length →
        sends (.hodFence h) fun u ps => ps = [] ∧ u.outs = s.outs ++ s.asked h (owed.map fun e => (e.2.1, e.2.2, 0)))) ∧
  (∀ (s : State) (h : Nat) (j : HodJob), s.hod h = [j] → j.active = true → j.ue = false → j.xfail = none →
      s.hodWrites h j.id = false →
      let idle := j.todo = [] ∧ j.reads = [] ∧ j.flushes = [] ∧ j.flush = [] ∧ j.prof = []
      let done (i : Instr) (st dt : Nat) : Prop := ∀ q seq, j.src = .item q seq → ∃ u, exec i s = .next u ∧ u.hod h = [] ∧
        (∀ k ∈ u.items, k.queue = q → k.seq = seq → k.stage = .finished st dt 0xFF) ∧ s.sameBytes u ∧ u.regs = s.regs
      (tbKind j.body ≠ 2 → j.fail = none → idle → done (.hodTransferComplete h 0) 0x00 0) ∧
      (∀ d, tbKind j.body ≠ 2 → j.fail = some d → done (.hodTransferComplete h 0) 0x0D d) ∧
      (tbKind j.body = 2 → j.fail = none → j.flushes = [] → j.flush = [] → done (.hodFenceRelease h) 0x00 0 ∧
        ∀ q seq, j.src = .item q seq → ∃ u, exec (.hodFenceRelease h) s = .next u ∧ SMap.get u.hodDsts [] h = []) ∧
      (∀ t c st b, tbKind j.body ≠ 2 → j.fail = none → idle → j.src = .tile t c st b → c < 64 →
        ∃ u, exec (.hodTransferComplete h 0) s = .next u ∧ u.hod h = [] ∧ s.sameBytes u ∧ u.tiles = s.tiles ∧
          u.fld F.SCP_ACTR.COUNT (t * 64 + c) = (s.fld F.SCP_ACTR.COUNT (t * 64 + c) + tbLen j.body) % 2 ^ 48))

/-- A standalone check-value unit (R316, R317): a configuration write with LOAD sets VALUE to INIT within the new width; each
byte fed moves VALUE on by eight bits, most significant first, or least with REFIN; wider data feeds its bytes from bits 7:0
up; a VALUE write keeps the bits below the width. Nothing else changes.

Next states are stated of: chkLoad, chkData8, chkData16, chkData32, chkValueWrite. -/
def Obligations.CheckUnits : Prop :=
  ∀ (s : State) (k : Nat), k < 4 → s.board.rails = true →
    (∀ v : Word, v.toNat.testBit 16 = true → ∃ u, exec (.chkLoad k v) s = .next u ∧
      u.fld F.CHK_CFG.WIDTH k = getField v 5 0 ∧ u.fld F.CHK_CFG.REFIN k = getField v 8 8 ∧
      u.fld F.CHK_CFG.REFOUT k = getField v 9 9 ∧ u.fld F.CHK_CFG.INVERT k = getField v 10 10 ∧
      u.fld F.CHK_VALUE.VALUE k = s.fld F.CHK_INIT.INIT k % 2 ^ (getField v 5 0 + 1) ∧
      s.onlyRegs u [RegKind.CHK_CFG.place.addr k, RegKind.CHK_VALUE.place.addr k]) ∧
    (∀ v : Word, v.toNat.testBit 16 = false → ∃ u, exec (.chkLoad k v) s = .next u ∧
      u.fld F.CHK_CFG.WIDTH k = getField v 5 0 ∧ u.fld F.CHK_VALUE.VALUE k = s.fld F.CHK_VALUE.VALUE k ∧
      s.onlyRegs u [RegKind.CHK_CFG.place.addr k]) ∧
    (∀ b : Byte, ∃ u, exec (.chkData8 k b) s = .next u ∧ s.onlyRegs u [RegKind.CHK_VALUE.place.addr k] ∧
      u.fld F.CHK_VALUE.VALUE k = (List.range 8).foldl (fun x i =>
        let w := s.fld F.CHK_CFG.WIDTH k + 1
        let bit := b.toNat.testBit (if s.fld F.CHK_CFG.REFIN k = 1 then i else 7 - i)
        (x * 2 % 2 ^ w) ^^^ (if x.testBit (w - 1) ≠ bit then s.fld F.CHK_POLY.POLY k % 2 ^ w else 0)) (s.chkValue k)) ∧
    (∀ a b : Byte, ∃ u u', exec (.chkData8 k a) s = .next u ∧ exec (.chkData8 k b) u = .next u' ∧
      exec (.chkData16 k (b ++ a)) s = .next u') ∧
    (∀ a b : BitVec 16, ∃ u u', exec (.chkData16 k a) s = .next u ∧ exec (.chkData16 k b) u = .next u' ∧
      exec (.chkData32 k (b ++ a)) s = .next u') ∧
    (∀ v : Word, ∃ u, exec (.chkValueWrite k v) s = .next u ∧
      u.fld F.CHK_VALUE.VALUE k = v.toNat % 2 ^ (s.fld F.CHK_CFG.WIDTH k + 1) ∧
      s.onlyRegs u [RegKind.CHK_VALUE.place.addr k])

/-- Message 4 of the PF (and any other vector) goes out where MSI-X is enabled, unmasked and the function masters the bus, and is
held pending otherwise (R405, R429). -/
def msixSent (s u : State) (f v : Nat) : Prop :=
  let d := SMap.get s.msixData (BitVec.ofNat 64 (2 ^ 32)) (f * 2048 + v)
  if (s.fn f).msixEn = true ∧ (s.fn f).msixMask = false ∧ (s.fn f).bme = true ∧ d.toNat.testBit 32 = false then
    u.outs = s.outs ++ [Out.msix f v (SMap.get s.msixAddr 0 (f * 2048 + v)) (BitVec.ofNat 64 (d.toNat % 2 ^ 32))] ∧
      u.msixPend = s.msixPend
  else u.outs = s.outs ∧ f * 2048 + v ∈ u.msixPend

/-- The slice commands, write combining and patrol scrub (R218, R227, R231).

The slice commands (R218). On an idle slice WRITEBACK_ALL and WRITEBACK_RANGE leave none of the lines they name dirty and
every other dirty line dirty; EVICT_RANGE besides leaves none of them in the slice, but LOST ones, nor in a core cache;
DISCARD_LOST_RANGE drops the LOST lines it names alone. BUSY is set and no byte and no copy changes. A busy slice refuses with
CMD_REJECT and nothing else. MTC_CMD_DONE clears BUSY and sets CMD_DONE, which
is all where no range passes.

WC_DRAIN: a write-combining entry leaves without an effect on any byte (R227): it is gone, its units of 8 B with a valid byte
count as written, and those of them that are not wholly valid as read. PATROL_SCRUB in RUN mode corrects a single-bit unit that
its pass comes to, records an uncorrectable one with SCRUB set, and lets no work fail; a pass finished in time clears BEHIND;
while C3 work is withheld it reads nothing, and a late pass sets BEHIND (R231).
The order within a pass is the model's choice (log entry 90).

Next states are stated of: writebackAll, writebackRange, evictRange, discardLostRange, mtcCmdDone, wcDrain, patrolScrub. -/
def Obligations.SliceWork : Prop :=
  (∀ (s : State) (d n : Nat), s.board.rails = true → d < s.part.dies → SMap.rising s.lines = true → SMap.rising s.gdir = true →
      let inRange (l : Nat) : Prop := s.part.homeDie l = d ∧ l / 2 ^ 30 = n
      let cleans (i : Instr) (p : Nat → Prop) (q : State → Prop) : Prop := ∃ u, exec i s = .next u ∧ u.fld F.MTC_CMD.BUSY d = 1 ∧
        s.sameBytes u ∧ (∀ l, l ∈ u.dirtyLines ↔ l ∈ s.dirtyLines ∧ ¬ p l) ∧ q u
      let refused (i : Instr) : Prop := ∃ u, exec i s = .next u ∧ u.fld F.MTC_EVENT.CMD_REJECT d = 1 ∧
        s.onlyRegs u [F.MTC_EVENT.CMD_REJECT.at d]
      (s.fld F.MTC_CMD.BUSY d = 0 → s.lineUe = [] → s.cacheUe = [] →
        cleans (.writebackAll d n) (fun l => s.part.homeDie l = d) (fun u => u.lost = s.lost ∧ u.gdir = s.gdir) ∧
        cleans (.writebackRange d n) inRange (fun u => u.lost = s.lost ∧ u.gdir = s.gdir) ∧
        cleans (.evictRange d n) inRange fun u => ∀ l, inRange l → SMap.find? u.gdir l = none ∧
          (l ∉ s.lost → SMap.find? u.lines l = none)) ∧
      (s.fld F.MTC_CMD.BUSY d = 0 → ∃ u, exec (.discardLostRange d n) s = .next u ∧ u.fld F.MTC_CMD.BUSY d = 1 ∧
        s.sameBytes u ∧ ∀ l, (l ∈ u.lost ↔ l ∈ s.lost ∧ ¬ inRange l) ∧
          SMap.find? u.lines l = if l ∈ s.lost ∧ inRange l then none else SMap.find? s.lines l) ∧
      (s.fld F.MTC_CMD.BUSY d = 1 → refused (.writebackAll d n) ∧ refused (.writebackRange d n) ∧
        refused (.evictRange d n) ∧ refused (.discardLostRange d n)) ∧
      (s.fld F.MTC_CMD.BUSY d = 1 → s.passes = [] → ∃ u, exec (.mtcCmdDone d) s = .next u ∧ u.fld F.MTC_CMD.BUSY d = 0 ∧
        u.fld F.MTC_EVENT.CMD_DONE d = 1 ∧ msixSent s u 0 4 ∧
        { s with outs := u.outs, msixPend := u.msixPend }.onlyRegs u [F.MTC_CMD.BUSY.at d, F.MTC_EVENT.CMD_DONE.at d])) ∧
  ((∀ (s : State) (l m : Nat), s.wc.find? (fun e => e.1 = l) = some (l, m) →
      let byte (i : Nat) : Nat := m / 2 ^ (8 * i) % 256
      let some' := (List.range 16).filter fun i => byte i ≠ 0
      let d := s.part.homeDie l
      ∃ u, exec (.wcDrain l) s = .next u ∧ u.wc = s.wc.filter (fun e => e.1 ≠ l) ∧
        u.fld F.MEM_WR_BYTES.BYTES d = min (s.fld F.MEM_WR_BYTES.BYTES d + 8 * some'.length) (2 ^ 64 - 1) ∧
        u.fld F.MEM_RD_BYTES.BYTES d =
          min (s.fld F.MEM_RD_BYTES.BYTES d + 8 * (some'.filter fun i => byte i ≠ 255).length) (2 ^ 64 - 1) ∧
        { s with wc := u.wc }.onlyRegs u [F.MEM_WR_BYTES.BYTES.at d, F.MEM_RD_BYTES.BYTES.at d]) ∧
    (∀ (s : State) (c upto : Nat) (last : Bool), s.board.rails = true → s.fld F.MEM_MODE.MODE (ctlDie c) = 2 →
      c ∈ s.part.controllers (ctlDie c) →
      let late := max 1 (s.fld F.MEM_SCRUB.PERIOD (ctlDie c)) * 360000000000 < s.ticks - SMap.get s.scrubStart 0 c
      let reaches (x : Nat) : Prop := s.part.controller x = c ∧ SMap.get s.scrubPos (ctlBase c) c ≤ x ∧ x < s.part.ctlEnd c ∧
        (last = true ∨ x < upto / 512 * 512)
      (∀ x, s.c3Held = false → s.memUe = [x] → s.memCe = [] → reaches x → let d := s.part.homeDie x
        ∃ u, exec (.patrolScrub c ⟨upto, last⟩) s = .next u ∧ u.fld F.MEM_EVENT.UE d = 1 ∧
          u.fld F.MEM_ECC.SCRUB_UE d = min (s.fld F.MEM_ECC.SCRUB_UE d + 1) (2 ^ 8 - 1) ∧
          (s.fld F.MEM_UE_ADDR.VALID d = 0 → u.fld F.MEM_UE_ADDR.VALID d = 1 ∧ u.fld F.MEM_UE_ADDR.SCRUB d = 1) ∧
          s.sameBytes u ∧ u.blocks = s.blocks ∧ u.tiles = s.tiles ∧ u.memUe = s.memUe) ∧
      (∀ x, s.c3Held = false → s.memUe = [] → s.memCe = [x] → reaches x → let d := s.part.homeDie x
        ∃ u, exec (.patrolScrub c ⟨upto, last⟩) s = .next u ∧ u.memCe = [] ∧ u.fld F.MEM_EVENT.CE d = 1 ∧ s.sameBytes u ∧
          u.blocks = s.blocks ∧ u.tiles = s.tiles) ∧
      (s.c3Held = false → s.memUe = [] → s.memCe = [] → last = true → ¬ late →
        ∃ u, exec (.patrolScrub c ⟨upto, last⟩) s = .next u ∧ u.fld F.MEM_SCRUB.BEHIND (ctlDie c) = 0 ∧
          SMap.get u.scrubPasses 0 c = SMap.get s.scrubPasses 0 c + 1 ∧ s.sameBytes u ∧ u.tiles = s.tiles) ∧
      (s.c3Held = true → ∃ u, exec (.patrolScrub c ⟨upto, last⟩) s = .next u ∧ (late → u.fld F.MEM_SCRUB.BEHIND (ctlDie c) = 1) ∧
        s.onlyRegs u [F.MEM_SCRUB.BEHIND.at (ctlDie c)])))

/-- The memory-side adders (R235, R237): outside RUN mode ADD returns the old element and leaves the sum in its place, every other
byte keeping its value; SUM returns the sum, from +0 and upward, of the range's elements homed on the die, changing no byte;
a command R237 refuses sets ADD_REFUSED and has no other effect. Completion clears BUSY and sets ADD_DONE.

Next states are stated of: memAdd, memSum, addDone. -/
def Obligations.Adders : Prop :=
  ∀ (s : State) (d ty : Nat), s.board.rails = true → d < s.part.dies → ty < 3 →
    let w := elemSize ty
    let a := s.fld F.MEM_ADD_ADDR.ADDR d
    let n := s.fld F.MEM_ADD_LEN.LEN d
    let elem (e : Nat) : Nat := ofBytes ((List.range w).map fun i => s.memByte (e + i))
    let idle := s.fld F.MEM_MODE.MODE d ≠ 2 ∧ s.fld F.MEM_ADD_CMD.BUSY d = 0 ∧ a % w = 0 ∧ n % w = 0
    let adds := idle ∧ s.part.populatedRun a w = true ∧ s.part.homeDie a = d
    let sums := idle ∧ s.part.populatedRun a n = true
    let refused (i : Instr) : Prop := ∃ u, exec i s = .next u ∧ u.fld F.MEM_EVENT.ADD_REFUSED d = 1 ∧
      u.fld F.MEM_ADD_CMD.BUSY d = s.fld F.MEM_ADD_CMD.BUSY d ∧
      s.onlyRegs u [F.MEM_EVENT.ADD_REFUSED.at d, F.MEM_ADD_CMD.TYPE.at d]
    (s.sound → adds → ∃ u, exec (.memAdd d ty) s = .next u ∧ u.fld F.MEM_ADD_CMD.BUSY d = 1 ∧
      u.fld F.MEM_ADD_RESULT.RESULT d = elem a ∧
      (∀ i, i < w → u.memByte (a + i) = BitVec.ofNat 8
        (elemAdd ty (elem a) (s.fld F.MEM_ADD_OPND.OPND d % 2 ^ (8 * w)) / 256 ^ i)) ∧
      ∀ b, (b < a ∨ a + w ≤ b) → u.memByte b = s.memByte b) ∧
    (s.sound → sums → ∃ u, exec (.memSum d ty) s = .next u ∧ u.fld F.MEM_ADD_CMD.BUSY d = 1 ∧ s.sameBytes u ∧
      u.fld F.MEM_ADD_RESULT.RESULT d = (((List.range (n / w)).map fun i => a + w * i).filter
        (fun e => s.part.homeDie e = d)).foldl (fun v e => elemAdd ty v (elem e)) 0 % 2 ^ 64) ∧
    (¬ adds → refused (.memAdd d ty)) ∧ (¬ sums → refused (.memSum d ty)) ∧
    (s.fld F.MEM_ADD_CMD.BUSY d = 1 → ∃ u, exec (.addDone d) s = .next u ∧ u.fld F.MEM_ADD_CMD.BUSY d = 0 ∧
      u.fld F.MEM_EVENT.ADD_DONE d = 1 ∧ msixSent s u 0 4 ∧
      { s with outs := u.outs, msixPend := u.msixPend }.onlyRegs u [F.MEM_ADD_CMD.BUSY.at d, F.MEM_EVENT.ADD_DONE.at d])

/-- The invalidations (R250): ALL empties the translation caches, CONTEXT drops every entry of its context and no other,
CONTEXT_RANGE drops its level-4 pointers and every leaf that serves an address of the range; a second one while BUSY is
refused; INV_DONE clears BUSY and sets INV_DONE once the writes already translated through what it dropped are performed.

Next states are stated of: xltInvAll, xltInvContext, xltInvContextRange, invDone. -/
def Obligations.Invalidations : Prop :=
  ∀ (s : State) (c : Nat), s.board.rails = true →
    let regs := [F.XLT_INV.BUSY.at 0]
    let waits (hit : Nat → Bool) : List Nat := (s.packets.filter fun p => p.toMem && p.ctx.any hit).map Packet.pid
    (s.fld F.XLT_INV.BUSY 0 = 0 →
      (∃ u, exec .xltInvAll s = .next u ∧ u.xlt = [] ∧ u.fld F.XLT_INV.BUSY 0 = 1 ∧
        { s with xlt := [], invWait := waits fun _ => true }.onlyRegs u regs) ∧
      (∃ u, exec (.xltInvContext c) s = .next u ∧ (∀ e, e ∈ u.xlt ↔ e ∈ s.xlt ∧ e.ctx ≠ c) ∧
        u.fld F.XLT_INV.BUSY 0 = 1 ∧ { s with xlt := u.xlt, invWait := waits (· = c) }.onlyRegs u regs) ∧
      (∃ u, exec (.xltInvContextRange c) s = .next u ∧ (∀ e ∈ u.xlt, e ∈ s.xlt) ∧
        (∀ e ∈ s.xlt, e.ctx ≠ c → e ∈ u.xlt) ∧ (∀ e ∈ u.xlt, e.ctx = c → e.level ≠ 4 ∧
          ∀ a, s.fld F.XLT_INV_RANGE.BASE 0 * 2 ^ 30 ≤ a →
            a < min ((s.fld F.XLT_INV_RANGE.BASE 0 + max 1 (s.fld F.XLT_INV_RANGE.COUNT 0)) * 2 ^ 30) (2 ^ 48) →
            vtag (s.cva c a) e.level ≠ e.vpn) ∧
        u.fld F.XLT_INV.BUSY 0 = 1 ∧ { s with xlt := u.xlt, invWait := waits (· = c) }.onlyRegs u regs)) ∧
    (s.fld F.XLT_INV.BUSY 0 = 1 →
      (∀ i ∈ [.xltInvAll, .xltInvContext c, .xltInvContextRange c], ∃ u, exec i s = .next u ∧
        u.fld F.XLT_EVENT.INV_REJECT 0 = 1 ∧ s.onlyRegs u [F.XLT_EVENT.INV_REJECT.at 0]) ∧
      ((∃ p ∈ s.packets, p.pid ∈ s.invWait) → exec .invDone s = .next s) ∧
      ((∀ p ∈ s.packets, p.pid ∉ s.invWait) → ∃ u, exec .invDone s = .next u ∧ u.fld F.XLT_INV.BUSY 0 = 0 ∧
        u.fld F.XLT_EVENT.INV_DONE 0 = 1 ∧ msixSent s u 0 3 ∧
        { s with outs := u.outs, msixPend := u.msixPend, invWait := [] }.onlyRegs u [F.XLT_INV.BUSY.at 0, F.XLT_EVENT.INV_DONE.at 0]))

/-- Inbound requests through BAR2 (R201, R299, R300): INBOUND_READ returns memory's bytes and changes none, after performing the
earlier writes of its requester; INBOUND_WRITE sends its bytes on their way there, with its Relaxed Ordering attribute; requests
to a LOCKED partition's range are counted, answered with all ones or dropped; a poisoned write is dropped, counted and reported;
INBOUND_ATOMICOP completes with Unsupported Request.
What BLOCKED counts, and the report of a poisoned write as an output, are the model's readings (log entries 44 and 70).

Next states are stated of: inboundAtomicop, inboundRead, inboundWrite. -/
def Obligations.Inbound : Prop :=
  ∀ (s : State) (req off len : Nat) (data : List Byte) (ep ro : Bool), s.sound → (∀ a, s.illScoped none a = false) →
    s.board.rails = true → s.fld F.HOD_LINK.UP 0 = 1 →
    let a := s.bar2Pa off
    (∃ u, exec (.inboundAtomicop off) s = .next u ∧ u = { s with outs := s.outs ++ [Out.reply 0 1 []] }) ∧
    ((s.fn 0).d3 = false →
      (off + len ≤ s.bar2Size →
        (s.inbound a len .read = .go → (∀ p ∈ s.packets, p.unit ≠ .inbound req) →
          ∃ u, exec (.inboundRead ⟨req, off⟩ len) s = .next u ∧ s.sameBytes u ∧ u.packets = s.packets ∧
            u.outs = s.outs ++ [Out.reply 0 0 ((List.range len).map fun i => s.viewByte none (a + i))]) ∧
        (s.inbound a len .read = .go → s.ill = [] → ∀ p, s.packets = [p] → p.unit = .inbound req → p.toMem = true →
          p.dst = a → p.data.length = len → p.done = [] → p.seen = [] → p.ctr = none →
          ∃ u, exec (.inboundRead ⟨req, off⟩ len) s = .next u ∧ u.packets = [] ∧ (∀ i, i < len → u.memByte (a + i) = p.data.getD i 0) ∧
            u.outs = s.outs ++ [Out.reply 0 0 p.data]) ∧
        (s.inbound a len .read = .blocked → ∃ u, exec (.inboundRead ⟨req, off⟩ len) s = .next u ∧ s.sameBytes u ∧
          u.outs = s.outs ++ [Out.reply 0 0 (List.replicate len 0xFF)] ∧ u.fld F.HOD_EVENT.INBOUND_BLOCKED 0 = 1 ∧
          u.fld F.HOD_INBOUND.BLOCKED 0 = min (s.fld F.HOD_INBOUND.BLOCKED 0 + 1) (2 ^ 32 - 1))) ∧
      (s.bar2Size < off + len → ∃ u, exec (.inboundRead ⟨req, off⟩ len) s = .next u ∧
        u = { s with outs := s.outs ++ [Out.reply 0 1 []] }) ∧
      (off + data.length ≤ s.bar2Size →
        (ep = false → s.inbound a data.length .write = .go → ∃ u ps, exec (.inboundWrite ⟨req, off⟩ data ⟨ep, ro⟩) s = .next u ∧
          u = { s with packets := s.packets ++ ps, nextPid := s.nextPid + ps.length } ∧
          carries ps 0 (.inbound req) true a none data ∧ ∀ p ∈ ps, p.ro = ro ∧ p.agent = hostAgent ∧ p.done = []) ∧
        (ep = true → ∃ u, exec (.inboundWrite ⟨req, off⟩ data ⟨ep, ro⟩) s = .next u ∧
          u.fld F.HOD_INBOUND.DROPPED 0 = min (s.fld F.HOD_INBOUND.DROPPED 0 + 1) (2 ^ 16 - 1) ∧
          u.outs = s.outs ++ [Out.aer .poisonedWrite] ∧ { s with outs := u.outs }.onlyRegs u [F.HOD_INBOUND.DROPPED.at 0])))

/-- The outbound window and the ends of outstanding bus requests (R293, R301, R308).

OUTBOUND_ACCESS (R301, R302, R326): a core's store goes to the bus address the window gives, its load becomes a bus read
under a free tag of the cores' share; without bus mastering a load brings all ones and OUT_ERR; an access of another size or
alignment is an access fault.
With the link down all ones is the model's reading (log entry 54).

BUS_COMPLETION and COMPLETION_TIMEOUT (R293, R301, R308): the data of a core's read goes to the core; UR, CA or a timeout
bring all ones, OUT_ERR and a record, a poisoned or damaged completion some bytes. A completion for an abandoned tag frees the
tag and is reported, and does nothing else; one that fails a hod's read fails its transfer.

Next states are stated of: outboundAccess, busCompletion, completionTimeout. -/
def Obligations.BusTraffic : Prop :=
  (∀ (s : State) (n va deleg pa size : Nat) (mode : Priv) (v : Word), s.coreRuns n = true → s.readOut n = false →
      0x080000000000 ≤ pa → pa < 0x100000000000 →
      let fits := (size = 1 ∨ size = 2 ∨ size = 4 ∨ size = 8) ∧ pa % size = 0
      let addr := s.fld F.HOD_OUTWIN.BASE 0 * 2 ^ 43 + (pa - 0x080000000000)
      (fits → s.canMaster 0 = true → ∃ u, exec (.outboundAccess ⟨n, mode, va, deleg⟩ pa size (some v)) s = .next u ∧
        u = { s with outs := s.outs ++ [Out.busWrite 0 (s.ideStream 0) addr (bytesOf size v.toNat) false] }) ∧
      (fits → s.canMaster 0 = true → ∀ tag, s.freeTagOf (.core n) = some tag →
        ∃ u, exec (.outboundAccess ⟨n, mode, va, deleg⟩ pa size none) s = .next u ∧ 14336 ≤ tag ∧ tag < 16384 ∧
          u.outs = s.outs ++ [Out.busRead tag 0 (s.ideStream 0) addr size] ∧
          SMap.find? u.bus tag = some ⟨.core n, 0, addr, size⟩ ∧ u = { s with outs := u.outs, bus := u.bus }) ∧
      (fits → s.canMaster 0 = false → ∃ u, exec (.outboundAccess ⟨n, mode, va, deleg⟩ pa size none) s = .next u ∧ s.sameBytes u ∧
        u.fld F.HOD_EVENT.OUT_ERR 0 = 1 ∧ u.outs.getLast? = some (.core n (List.replicate size 0xFF))) ∧
      (¬ fits → ∃ u, exec (.outboundAccess ⟨n, mode, va, deleg⟩ pa size none) s = .next u ∧
        u = { s with outs := s.outs ++ [Out.coreFault n .load (taker mode deleg) va] })) ∧
  (∀ (s : State) (id n : Nat) (r : BusReq) (data : List Byte), SMap.find? s.bus id = some r → s.board.rails = true →
      let answered (i : Instr) (bs : List Byte) : Prop := ∃ u, exec i s = .next u ∧ u.outs = s.outs ++ [Out.core n bs] ∧
        u = { s with bus := SMap.erase s.bus id, outs := u.outs, cores := u.cores, freeCtr := u.freeCtr }
      let allOnes (i : Instr) : Prop := ∃ u, exec i s = .next u ∧ SMap.find? u.bus id = none ∧ u.fld F.HOD_EVENT.OUT_ERR 0 = 1 ∧
        u.outs.getLast? = some (.core n (List.replicate r.len 0xFF)) ∧ s.sameBytes u
      (r.owner = .core n → 14336 ≤ id →
        (s.fld F.HOD_LINK.UP 0 = 1 →
          (data.length = r.len → answered (.busCompletion id .ok data) data) ∧
          allOnes (.busCompletion id .ur data) ∧ allOnes (.busCompletion id .ca data) ∧
          (∀ st ∈ [BusStatus.poison, BusStatus.ide], ∃ bs, bs.length = r.len ∧ answered (.busCompletion id st data) bs)) ∧
        allOnes (.completionTimeout id)) ∧
      (r.owner = .abandoned → s.hods = [] → s.queues = [] →
        (∃ u, exec (.completionTimeout id) s = .next u ∧ u = { s with bus := SMap.erase s.bus id }) ∧
        (s.fld F.HOD_LINK.UP 0 = 1 → ∀ st ∈ [BusStatus.ur, BusStatus.ca, BusStatus.poison, BusStatus.ide],
          ∃ u, exec (.busCompletion id st data) s = .next u ∧
            u = { s with bus := SMap.erase s.bus id, outs := s.outs ++ [Out.aer .unexpectedCompletion] })) ∧
      (∀ h j off, r.owner = .hodRead h j.id off → s.hod h = [j] → j.fail = none → j.xfail = none → s.fld F.HOD_LINK.UP 0 = 1 →
        s.fld F.HOD_FAULT.VALID 0 = 0 →
        (∃ u k, exec (.busCompletion id .ur data) s = .next u ∧ u.hod h = [k] ∧ k.fail = some 1 ∧
          u.fld F.HOD_EVENT.FAULT 0 = 1 ∧ s.sameBytes u) ∧
        ∃ u k, exec (.completionTimeout id) s = .next u ∧ u.hod h = [k] ∧ k.fail = some 3 ∧ s.sameBytes u))

/-- The PCI Express functions and their link (R293, R295, R312, R404).

FLR_VF, FLR_PF and CONFIG_REQUEST (R293, R295, R404): a reset function is at its reset values and its admin
queue disabled and FREE, for the PF every VF's too; a request early in start-up is answered with Request Retry Status, one to
a VF that is not enabled with Unsupported Request; a read returns the field, and Bus Master Enable, the power state and MSI-X
control take effect.
A reset ends within its row, and disabled VFs follow PCI Express, by the model's choice (log entries 43 and 69).

LINK_UP and LINK_LEAVES_DL_ACTIVE (R312, R404): reaching DL_Active sets UP with a supported rate and width; leaving it
clears UP, and a transfer with a bus side that a hod works on fails with LINK_DOWN.
The rate and the width are free values within what the part supports (the model's choice, log entry 47).

Next states are stated of: flrVf, flrPf, configRequest, linkUp, linkLeavesDlActive. -/
def Obligations.BusFunctions : Prop :=
  (∀ (s : State), s.board.rails = true →
      (∀ n, 1 ≤ n → n ≤ 8 → (s.fn 0).vfEn = true → ∃ u, exec (.flrVf n) s = .next u ∧ u.fn n = PFn.reset ∧
        u.fld F.CFE_AQ_CFG.ENABLE (1024 + n) = 0 ∧ u.fld F.CFE_Q_STATE.STATE (1024 + n) = 0 ∧ u.fn 0 = s.fn 0) ∧
      (∃ u, exec .flrPf s = .next u ∧ ∀ n, n ≤ 8 → u.fn n = PFn.reset ∧ u.fld F.CFE_AQ_CFG.ENABLE (1024 + n) = 0 ∧
        u.fld F.CFE_Q_STATE.STATE (1024 + n) = 0) ∧
      (∀ fn req, s.fld F.HOD_LINK.UP 0 = 1 →
        (s.fld F.CFG_STATE.PHASE 0 ≤ 3 → s.ticks < 100000000 →
          ∃ u, exec (.configRequest fn req) s = .next u ∧ u = { s with outs := s.outs ++ [Out.reply fn 3 []] }) ∧
        (3 < s.fld F.CFG_STATE.PHASE 0 → fn ≠ 0 → (s.fn 0).vfEn = false →
          ∃ u, exec (.configRequest fn req) s = .next u ∧ u = { s with outs := s.outs ++ [Out.reply fn 1 []] }) ∧
        (3 < s.fld F.CFG_STATE.PHASE 0 → s.msixPend = [] → (fn = 0 ∨ (fn ≤ 8 ∧ (s.fn 0).vfEn = true)) →
          (∀ f, ∃ u, exec (.configRequest fn (.read f)) s = .next u ∧
            u = { s with outs := s.outs ++ [Out.reply fn 0 (bytesOf 4 (s.configRead fn f))] }) ∧
          (∀ on, ∃ u, exec (.configRequest fn (.bme on)) s = .next u ∧ u.fn fn = { s.fn fn with bme := on } ∧
            u = { s with fns := u.fns, outs := s.outs ++ [Out.reply fn 0 []] }) ∧
          (∀ on, ∃ u, exec (.configRequest fn (.d3 on)) s = .next u ∧ u.fn fn = { s.fn fn with d3 := on } ∧
            u = { s with fns := u.fns, outs := s.outs ++ [Out.reply fn 0 []] }) ∧
          (∀ en mask, ∃ u, exec (.configRequest fn (.msix en mask)) s = .next u ∧
            u.fn fn = { s.fn fn with msixEn := en, msixMask := mask } ∧
            u = { s with fns := u.fns, outs := s.outs ++ [Out.reply fn 0 []] })))) ∧
  (∀ (s : State), s.board.rails = true →
      (s.fld F.HOD_LINK.UP 0 = 0 → ∃ u, exec .linkUp s = .next u ∧ u.fld F.HOD_LINK.UP 0 = 1 ∧
        (u.fld F.HOD_LINK.SPEED 0 = 5 ∨ u.fld F.HOD_LINK.SPEED 0 = 6 ∨ u.fld F.HOD_LINK.SPEED 0 = 7) ∧
        (u.fld F.HOD_LINK.WIDTH 0 = 2 ∨ u.fld F.HOD_LINK.WIDTH 0 = 3 ∨ u.fld F.HOD_LINK.WIDTH 0 = 4) ∧
        { s with board := { s.board with perst := false }, freeCtr := s.freeCtr + 2 }.onlyRegs u [F.HOD_LINK.UP.at 0]) ∧
      (s.fld F.HOD_LINK.UP 0 = 1 → ∃ u, exec .linkLeavesDlActive s = .next u ∧ u.fld F.HOD_LINK.UP 0 = 0 ∧ s.sameBytes u ∧
        u.tiles = s.tiles ∧
        (∀ h j, s.hods = [(h, [j])] → j.active = true → busSrc j.body = true → j.fail = none → j.xfail = none →
          ∃ k, u.hod h = [k] ∧ k.fail = some 7 ∧ k.id = j.id)))

/-- A lintel is declared DOWN: its state and cause are set, the accelerator halts with every block and tile stopped, and neither
memory nor scratch changes (R341, R342). -/
def wentDown (s u : State) (l : Nat) (rate consec : Bool) : Prop :=
  u.fld F.LTL_STATE.STATE l = 3 ∧ u.fld F.LTL_EVENT.DOWN l = 1 ∧ u.fld F.LTL_STATE.CAUSE_RATE l = bitN rate ∧
    u.fld F.LTL_STATE.CAUSE_CONSEC l = bitN consec ∧ u.scr = s.scr ∧ u.mem = s.mem ∧
    (s.timer = true → s.halted = false → u.halted = true ∧ u.ready = false ∧ u.blocks = [] ∧ u.tiles = [])

/-- Replays of the lintels, and their sideband symbols (R337, R339 to R341).

Replays (R336, R338 to R341): a flit whose CRC-32C is right, or that is no flit of 64 bytes, changes nothing; one that fails
sets the NAK with its number, and the receiver discards from it on; the NAK's resend carries the kept flits from that one on
under new numbers, counts a replay and sets REPLAY, warns at half of RATE and takes the lintel down beyond RATE; a first resent
flit that fails is a failed replay, the eighth in a row takes the lintel down, one that passes ends the run. Acknowledged flits
leave the replay buffer, and a window's end clears its count. Each direction is on its own.

Sideband symbols (R337): two equal copies of three decide the value used; copies that disagree are counted in LTL_SB.ERRORS
and set SB_ERR; no replay follows, and nothing else changes.

Next states are stated of: flitCrcFail, nak, replayFlitReceived, ack, replayWindowEnd, sidebandSymbol. -/
def Obligations.LintelLinks : Prop :=
  (∀ (s : State) (l : Nat) (ba : Bool), s.ltlUp l = true →
      let x := s.ldir l ba
      let others (u : State) : Prop := ∀ k b, (k, b) ≠ (l, ba) → u.ldir k b = s.ldir k b
      let only (u : State) (y : LDir) (as : List Nat) : Prop :=
        u.ldir l ba = y ∧ others u ∧ { s with ldirs := u.ldirs }.onlyRegs u as
      (∀ n payload (crc : BitVec 32), payload.length ≠ 64 ∨ crc32c payload = crc.toNat →
        exec (.flitCrcFail l ⟨ba, n, payload, crc⟩) s = .next s) ∧
      (∀ n payload (crc : BitVec 32), payload.length = 64 → crc32c payload ≠ crc.toNat →
        (x.resent = false → x.nak = none → x.taken ≤ n → n < x.sent → ∃ u, exec (.flitCrcFail l ⟨ba, n, payload, crc⟩) s = .next u ∧
          only u { x with nak := some n, taken := n } []) ∧
        (x.resent = true → x.failed < 7 → ∃ u, exec (.flitCrcFail l ⟨ba, n, payload, crc⟩) s = .next u ∧
          only u { x with resent := false, failed := x.failed + 1 } [F.LTL_STATE.CONSEC_MAX.at l] ∧
          u.fld F.LTL_STATE.CONSEC_MAX l = max (s.fld F.LTL_STATE.CONSEC_MAX l) (x.failed + 1) ∧
          u.fld F.LTL_STATE.STATE l = 2) ∧
        (x.resent = true → x.failed = 7 → ∃ u, exec (.flitCrcFail l ⟨ba, n, payload, crc⟩) s = .next u ∧ wentDown s u l false true)) ∧
      (∀ k, x.nak = some k → x.resent = false →
        let again := (x.kept.filter fun i => k ≤ i).length
        let n := s.fld (winFld ba) l + 1
        let rate := max 1 (s.fld F.LTL_CFG.RATE 0)
        ∃ u, exec (.nak l ba) s = .next u ∧ others u ∧
          u.ldir l ba = { x with sent := again, taken := 0, kept := List.range again, nak := some 0, resent := true } ∧
          u.fld F.LTL_EVENT.REPLAY l = 1 ∧ u.fld (winFld ba) l = min n 4095 ∧
          u.fld (replayFld ba) l = min (s.fld (replayFld ba) l + 1) (2 ^ 32 - 1) ∧
          (n ≤ rate → u.fld F.LTL_STATE.STATE l = 2) ∧ (n = ceilDiv rate 2 → u.fld F.LTL_EVENT.RATE_WARN l = 1) ∧
          (rate < n → wentDown s u l true false) ∧
          (n < ceilDiv rate 2 → { s with ldirs := u.ldirs }.onlyRegs u
            [F.LTL_EVENT.REPLAY.at l, (replayFld ba).at l, (winFld ba).at l])) ∧
      (x.resent = true → ∃ u, exec (.replayFlitReceived l ba) s = .next u ∧
        only u { x with nak := none, resent := false, failed := 0 } []) ∧
      (x.nak = none → ∀ n, n ≤ x.kept.length → ∃ u, exec (.ack l ba n) s = .next u ∧ others u ∧
        (u.ldir l ba).kept = x.kept.drop n ∧ (∀ i, (x.kept.take n).getLast? = some i → i < (u.ldir l ba).taken) ∧
        { s with ldirs := u.ldirs }.onlyRegs u []) ∧
      ∃ u, exec (.replayWindowEnd l ba) s = .next u ∧ u.fld (winFld ba) l = 0 ∧
        u.fld (winFld (!ba)) l = s.fld (winFld (!ba)) l ∧ s.onlyRegs u [(winFld ba).at l]) ∧
  (∀ (s : State) (l : Nat) (x y z : Word), s.ltlUp l = true →
      ∃ u v, exec (.sidebandSymbol l x y z) s = .next u ∧ SMap.find? u.sideband l = some v ∧
        (x = y → v = x) ∧ (x = z → v = x) ∧ (y = z → v = y) ∧
        (x = y → y = z → u = { s with sideband := u.sideband }) ∧
        (¬ (x = y ∧ y = z) → u.fld F.LTL_SB.ERRORS l = min (s.fld F.LTL_SB.ERRORS l + 1) (2 ^ 32 - 1) ∧
          u.fld F.LTL_EVENT.SB_ERR l = 1 ∧
          { s with sideband := u.sideband }.onlyRegs u [F.LTL_SB.ERRORS.at l, F.LTL_EVENT.SB_ERR.at l]) ∧
        ∀ k, k ≠ l → SMap.find? u.sideband k = SMap.find? s.sideband k)

/-- The cores' accesses to memory, and what orders them (R325 to R332).

The cores' accesses (R321, R325 to R331), made where nothing holds them back and the caches have made room. A load, a fetch
and a vector load answer with the bytes memory shows, under those of the core's own waiting stores. A store to I/O-typed memory
is performed at once; another waits in the store buffer, or with a non-temporal hint in an entry of its buffer. An AMO, an SC
that holds its reservation and a cache block zero leave exactly their bytes, LR reserves the 64 B block, an SC without it stores
nothing. CBO.CLEAN, FLUSH and INVAL keep every byte, the latter two with no cached copy left. An access that may not go is an
access fault alone. Machine-mode memory reads as written; an extension the core lacks is illegal; time reads the ticks.
Which blocks the caches give up is named by the command (log entry 51).

Ordering events of a core (R195, R330): one with W or O in its predecessor set, FENCE.TSO, rl or SFENCE.VMA leaves both
buffers empty and their stores in memory; another changes nothing, but one with I among its predecessors holds its successors
while an outbound read is out. An entry that drains leaves the buffer and stands in memory. A core-complex reset ends (R332, R374)
with the caches empty and, where no route of a modified line is cut or held back, every byte in place; the firmware is verified
again, and the cores execute, or, where both copies fail, stay stopped in boot recovery.
Which modified lines come too late is the model's reading (log entry 105).

Next states are stated of: coreMemoryAccess, amo, coreResetComplete, fence, coreFence, ntEntryDrain. -/
def Obligations.CoreMemory : Prop :=
  (∀ (s : State) (n deleg pbmt va a : Nat) (mode : Priv) (evict : List Nat), s.sound → (∀ b, s.illScoped none b = false) →
      s.coreRuns n = true → s.readOut n = false → s.starved (s.coreTag n mode.virt) = false →
      s.coreHeld n a = false →
      let acc (op : CoreOp) : CoreAcc := ⟨n, mode, deleg, false, pbmt, va, a, op, evict⟩
      let may (op : CoreOp) : Prop := s.coreRefused (acc op) = false
      let after (op : CoreOp) (p : State → Prop) : Prop := ∃ u, exec (.coreMemoryAccess (acc op)) s = .next u ∧ p u
      let tag := s.coreTag n mode.virt
      let s0 := evict.foldl (fun s b => s.coreEvict n b) s
      let seen (d : State) (len : Nat) : List Byte := (List.range len).map fun i => d.viewByte none (a + i)
      let answer (len : Nat) (u : State) : Prop :=
        let d := s0.ntDrainOver n a len
        d.sameBytes u ∧ u.outs = s.outs ++ [Out.core n (d.forwarded n a (seen d len))]
      let lone (bs : List Byte) : Prop :=
        (s.coreOf n).nt = [] ∧ (s.coreOf n).sb = [] ∧ bs ≠ [] ∧ bs.length < 64 ∧ a % 64 + bs.length ≤ 64 ∧
          ∀ b ∈ (s0.coreOf n).l2, b / 128 ≠ a / 128
      let storing (op : CoreOp) (bs : List Byte) (nt : Bool) : Prop :=
        let us := unitsOf 8 a bs.length
        (pbmt = 2 → after op fun u => s0.stored u a bs ∧ u.outs = s.outs) ∧
        (pbmt ≠ 2 → (nt = false ∨ pbmt ≠ 0) → (s.coreOf n).sb.length + us.length ≤ 56 → after op fun u =>
          (s0.ntDrainOver n a bs.length).sameBytes u ∧ u.outs = s.outs ∧
          (u.coreOf n).sb = (s.coreOf n).sb ++ us.map fun v =>
            ⟨tag, decide (pbmt = 0), max a v, (bs.drop (max a v - a)).take (v + 8 - max a v)⟩) ∧
        (pbmt = 0 → nt = true → lone bs → after op fun u => s.sameBytes u ∧ u.outs = s.outs ∧ (u.coreOf n).sb = [] ∧
          ∃ e, (u.coreOf n).nt = [e] ∧ e.block = a / 64 * 64 ∧ e.tag = tag ∧ e.bytes.length = bs.length ∧
            ∀ i, i < bs.length → SMap.find? e.bytes (a % 64 + i) = bs[i]?)
      s.sameBytes s0 ∧
      (∀ op, (∀ e, op ≠ .ext e) → op ≠ .time → s.coreRefused (acc op) = true → after op fun u =>
        u = { s with outs := s.outs ++ [Out.coreFault n (opFault op) (taker mode deleg) va] }) ∧
      (∀ len, (may (.load len) → after (.load len) (answer len)) ∧ (may (.fetch len) → after (.fetch len) (answer len)) ∧
        ∀ nt, may (.vector none len nt) → after (.vector none len nt) (answer len)) ∧
      (∀ bs nt, (may (.store bs nt) → storing (.store bs nt) bs nt) ∧
        ∀ len, may (.vector (some bs) len nt) → storing (.vector (some bs) len nt) bs nt) ∧
      (∀ op len x, may (.amo op len x) → after (.amo op len x) fun u =>
        let d := s0.drainOver n a len
        d.stored u a (bytesOf len (coreAmo op len (ofBytes (seen d len)) x)) ∧ u.outs = s.outs ++ [Out.core n (seen d len)]) ∧
      (∀ len, may (.lr len) → after (.lr len) fun u =>
        let d := s0.drainOver n a len
        d.sameBytes u ∧ u.outs = s.outs ++ [Out.core n (seen d len)] ∧ (u.coreOf n).resv = some (a / 64 * 64)) ∧
      (∀ bs, may (.sc bs) →
        ((s.coreOf n).resv = some (a / 64 * 64) → after (.sc bs) fun u =>
          ((s0.modCore n fun c => { c with resv := none }).drainOver n a bs.length).stored u a bs ∧
          u.outs = s.outs ++ [Out.core n (bytesOf 8 0)] ∧ (u.coreOf n).resv = none) ∧
        ((s.coreOf n).resv ≠ some (a / 64 * 64) → after (.sc bs) fun u => s.sameBytes u ∧
          u.outs = s.outs ++ [Out.core n (bytesOf 8 1)] ∧ (u.coreOf n).resv = none)) ∧
      (may .cboZero → after .cboZero fun u =>
        (s0.drainOver n (a / 64 * 64) 64).stored u (a / 64 * 64) (List.replicate 64 0) ∧ u.outs = s.outs) ∧
      (may .cboClean → after .cboClean fun u => (s0.drainOver n (a / 64 * 64) 64).sameBytes u ∧ u.outs = s.outs) ∧
      (∀ op ∈ [CoreOp.cboFlush, .cboInval], may op → after op fun u =>
        (s0.drainOver n (a / 64 * 64) 64).sameBytes u ∧ u.outs = s.outs ∧ SMap.find? u.gdir (a / 128 * 128) = none) ∧
      (mode = .m → ∀ v op, a + (opSpan a op).2.1 ≤ 2 ^ 22 → opLegal 0 a op = true →
        (∀ len, op = .load len → ∃ u, exec (.coreMemoryAccess ⟨n, mode, deleg, true, pbmt, v, a, op, evict⟩) s = .next u ∧
          u = { s with outs := s.outs ++ [Out.core n (s.mmRead (mmKey (n / 48) a) len)] }) ∧
        ∀ bs nt, op = .store bs nt → ∃ u, exec (.coreMemoryAccess ⟨n, mode, deleg, true, pbmt, v, a, op, evict⟩) s = .next u ∧
          u.mmRead (mmKey (n / 48) a) bs.length = bs ∧ s.sameBytes u ∧ u.outs = s.outs ∧
          ∀ k, (k < mmKey (n / 48) a ∨ mmKey (n / 48) a + bs.length ≤ k) → u.mmByte k = s.mmByte k) ∧
      (∀ e, after (.ext e) fun u => u = if s.hasExt e then s else { s with outs := s.outs ++ [Out.coreIllegal n] }) ∧
      after .time fun u => u = { s with outs := s.outs ++ [Out.core n (bytesOf 8 s.ticks)] }) ∧
  ((∀ (s : State), s.board.rails = true → s.coreReset = true → s.trayOwns = false →
      let clear (l g : Nat) : Prop := s.coreCut (48 * g) l = false ∧ s.coreHeld (48 * g) l = false
      let good : Prop := s.copyCause 4 0 = none ∨ s.copyCause 4 1 = none
      ∃ u, exec .coreResetComplete s = .next u ∧ u.cores = [] ∧ u.gdir = [] ∧ u.l3 = [] ∧ u.tiles = s.tiles ∧ u.blocks = s.blocks ∧
        (s.sound → (∀ e ∈ s.gdir, ∀ g, e.2.owner = some g → clear e.1 g) → s.sameBytes u) ∧
        (good → u.coreReset = false) ∧
        (¬ good → u.coreReset = true ∧ u.recovering = true ∧ u.fld F.SEC_STATE.FAIL_TYPE 0 = 4)) ∧
    ∀ (s : State) (n : Nat), s.coreRuns n = true →
      let drains (k : CoreFenceKind) : Prop :=
        k ∈ [CoreFenceKind.tso, .rl, .sfence] ∨ ∃ p q, k = .fence p q ∧ (p.o || p.w) = true
      let goes (e : NtEntry) : Prop := SMap.rising e.bytes = true ∧ s.part.populated e.block = true ∧
        s.rangeOk e.tag e.block .write = true
      (∀ k, drains k → ∃ u, exec (.coreFence n k) s = .next u ∧ (u.coreOf n).nt = [] ∧ (u.coreOf n).sb = [] ∧ u.scr = s.scr ∧
        (s.sound → (s.coreOf n).sb = [] → ∀ e, (s.coreOf n).nt = [e] → goes e → s.ntPut u e) ∧
        (s.sound → (s.coreOf n).nt = [] → ∀ e, (s.coreOf n).sb = [e] → s.part.populated e.pa = true →
          s.rangeOk e.tag e.pa .write = true → s.stored u e.pa e.data)) ∧
      (∀ p q, p.o = false → p.w = false → (p.i = false ∨ s.readOut n = false) →
        ∃ u, exec (.coreFence n (.fence p q)) s = .next u ∧ u = s) ∧
      (∀ p q, p.o = false → p.w = false → p.i = true → s.readOut n = true → (s.coreOf n).hold = none →
        ∃ u, exec (.coreFence n (.fence p q)) s = .next u ∧ (u.coreOf n).hold = some q ∧ u = { s with cores := u.cores }) ∧
      ∀ k e, (s.coreOf n).nt[k]? = some e → (∀ f ∈ (s.coreOf n).nt, f.block = e.block → f = e) →
        ∃ u, exec (.ntEntryDrain n k) s = .next u ∧ (u.coreOf n).nt = (s.coreOf n).nt.filter (fun f => f.block ≠ e.block) ∧
          u.scr = s.scr ∧ (s.sound → goes e → s.ntPut u e))

/-- R419: a request for a core-complex reset starts one, which discards the cores' buffers and reservations but not their
caches, and is counted; one that comes while a reset runs, or in QUIESCING or
RETAINED, has no effect but RESET_REFUSED; a watchdog's joins the reset that runs.

Next states are stated of: cfgResetCore, coreWatchdog. -/
def Obligations.CoreComplexResets : Prop :=
  ∀ (s : State), s.board.rails = true →
    let quiet := s.fld F.HOD_HOSTLOSS.STATE 0 = 1 ∨ s.fld F.HOD_HOSTLOSS.STATE 0 = 2
    let count := s.fld F.CFG_RESET.CORE_RESETS 0
    (s.coreReset = false → ¬ quiet → ∃ u, exec .cfgResetCore s = .next u ∧ u.coreReset = true ∧
      (∀ m, u.coreOf m = { Core.reset with l2 := (s.coreOf m).l2 }) ∧
      u.fld F.CFG_RESET.CORE_RESETS 0 = min (count + 1) (2 ^ 16 - 1) ∧ s.sameBytes u ∧ u.tiles = s.tiles ∧
      u.blocks = s.blocks ∧ (∀ t r, SMap.find? u.bus t = some r → ∀ n, r.owner ≠ .core n) ∧
      s.regsBut u [F.CFG_RESET.CORE_RESETS.at 0]) ∧
    (s.coreReset = true ∨ quiet → ∃ u, exec .cfgResetCore s = .next u ∧ u.fld F.CFG_EVENT.RESET_REFUSED 0 = 1 ∧
      s.onlyRegs u [F.CFG_EVENT.RESET_REFUSED.at 0]) ∧
    (∀ n, n < s.part.cores → s.coreDown = false → ∃ u, exec (.coreWatchdog n) s = .next u ∧ u.coreReset = true ∧
      u.fld F.CFG_RESET.CORE_RESETS 0 = (if s.coreReset then count else min (count + 1) (2 ^ 16 - 1)) ∧
      (s.coreReset = true → u.cores = s.cores ∧ u.bus = s.bus) ∧ s.sameBytes u ∧ u.tiles = s.tiles ∧ u.blocks = s.blocks)

/-- R405: at READY and at the end of every rebuild reset CFE_STATUS.READY and CFG_EVENT.READY are set, and the PF's vector 0
goes out; where MSI-X is not enabled, or the vector or the function is masked, it is held.
That a message also needs Bus Master Enable is presumed (log entry 27).

Next states are stated of: startUp, rebuildComplete. -/
def Obligations.ReadySignals : Prop :=
  ∀ (s : State), s.board.rails = true →
    let signalled (u : State) : Prop := u.fld F.CFE_STATUS.READY 0 = 1 ∧ u.fld F.CFG_EVENT.READY 0 = 1 ∧
      (s.msixOpen 0 0 → (s.fn 0).bme = true → ∃ a d, Out.msix 0 0 a d ∈ u.outs.drop s.outs.length) ∧
      (¬ s.msixOpen 0 0 → 0 ∈ u.msixPend)
    (s.timer = false → s.airLow = false → s.fld F.CFG_STATE.FAIL 0 = 0 → s.recovering = false →
      s.fld F.CFG_STATE.PHASE 0 = 9 → ∃ u, exec (.startUp .ok) s = .next u ∧ signalled u ∧ u.timer = true) ∧
    (s.rebuilding = true → s.halted = false → ∃ u, exec .rebuildComplete s = .next u ∧ signalled u)

/-- The rebuild reset (R33, R287, R417, R418). It starts on CFG_RESET.REBUILD and where a queue's timeout is exceeded, clears READY
and discards what runs; before the first READY or once halted the request sets RESET_REFUSED alone; while one runs it joins.
At its end every item fetched is finished, the debt is gone, the reset is counted, and a queue that timed out is FAULTED.
When a request is refused or joins, and which queue a timeout may name, are the model's readings (log entries 77 and 78).

Next states are stated of: rebuildReset, timeoutExceeded, rebuildComplete. -/
def Obligations.RebuildResets : Prop :=
  ∀ (s : State), s.board.rails = true →
    let began (u : State) : Prop := u.rebuilding = true ∧ u.ready = false ∧ s.discarded u ∧ (∀ r ∈ u.sets, r.moving = none) ∧
      (∀ e ∈ u.queues, e.2.tokens = []) ∧ u.items = s.items ∧ (s.sound → SMap.rising s.lines = true → u.mem = s.mem ∧ u.dirtyLines = [])
    (s.timer = true → s.halted = false → s.rebuilding = false → ∃ u, exec .rebuildReset s = .next u ∧ began u) ∧
    (s.timer = false ∨ s.halted = true → ∃ u, exec .rebuildReset s = .next u ∧
      u.fld F.CFG_EVENT.RESET_REFUSED 0 = 1 ∧ s.onlyRegs u [F.CFG_EVENT.RESET_REFUSED.at 0]) ∧
    (s.timer = true → s.halted = false → s.rebuilding = true → ∃ u, exec .rebuildReset s = .next u ∧ u = s) ∧
    (∀ q, s.timer = true → s.halted = false → s.rebuilding = false → s.exceeds q = true →
      (SMap.find? s.queues q).isSome = true → ∃ u, exec (.timeoutExceeded q) s = .next u ∧ began u ∧
        u.fld F.CFE_Q_EVENT.TIMEOUT q = 1 ∧ (u.queue q).timedOut = true) ∧
    (s.rebuilding = true → ∃ u, exec .rebuildComplete s = .next u ∧ u.rebuilding = false ∧ u.debt = 0 ∧
      u.fld F.CRS_DEBT.DEBT 0 = 0 ∧ (∀ i ∈ u.items, i.done = true) ∧ u.mem = s.mem ∧ u.scr = s.scr ∧
      u.fld F.CFE_STATUS.REBUILDS 0 = min (s.fld F.CFE_STATUS.REBUILDS 0 + 1) (2 ^ 32 - 1) ∧
      ∀ q, q < 1024 → (s.queue q).timedOut = true →
        (s.qState q = 1 → u.qState q = 3 ∧ u.qFault q = 3 ∧ u.fld F.CFE_Q_EVENT.FAULT q = 1) ∧
        (s.qState q = 2 → u.qState q = 2 ∧ u.qFault q = 3))

/-- The cap, its windows and the quadrants (R346, R347, R354, R357, R359): a write to PWR_CAP applies clamped and counts in
CFG_EPOCH if it changes the value; a window takes the brake pin and the estimate (both open values) into PWR_STATUS, sets
CAP_EXCEED above the effective cap and lowers no duty below 1/16, raises every reduced duty by 1/16 where the input lies more
than 3 % below it and no die of the tile's group throttles, and changes no step; the input stays within 1,800 W, and within the
effective cap from the second window after an excess while duty or steps are left to lower; a stretch is counted, at least 32
cycles of it, once more for each quadrant of another die that an arch joins; a quadrant that has powered up is on.
The estimate and the pin are free values, the model's choice (log entry 16).

Next states are stated of: pwrCapWrite, powerWindow, droop, quadrantPowerUp. -/
def Obligations.PowerControl : Prop :=
  ∀ (s : State), s.board.rails = true →
    (∀ v : Word, let n := max 500 (min 1800 (v.toNat % 2 ^ 11))
      (s.fld F.PWR_CAP.CAP 0 = n → ∃ u, exec (.pwrCapWrite v) s = .next u ∧ u = s) ∧
      (s.fld F.PWR_CAP.CAP 0 ≠ n → ∃ u, exec (.pwrCapWrite v) s = .next u ∧ u.fld F.PWR_CAP.CAP 0 = n ∧
        u.fld F.CFG_EPOCH.EPOCH 0 = (s.fld F.CFG_EPOCH.EPOCH 0 + 1) % 2 ^ 64 ∧ u.fld F.CFG_EVENT.EPOCH 0 = 1 ∧
        s.onlyRegs u [F.PWR_CAP.CAP.at 0, F.CFG_EPOCH.EPOCH.at 0, F.CFG_EVENT.EPOCH.at 0])) ∧
    (3 ≤ s.fld F.CFG_STATE.PHASE 0 → SMap.rising s.pw.duty = true →
      ∃ u pin brake, exec .powerWindow s = .next u ∧ pin ≤ 1800 ∧ u.fld F.PWR_STATUS.INPUT_EST 0 = pin ∧
        u.fld F.PWR_BRAKE.ACTIVE 0 = bitN brake ∧
        (s.fld F.PWR_BRAKE.ACTIVE 0 ≠ bitN brake → u.fld F.PWR_EVENT.BRAKE 0 = 1) ∧
        (let cap := s.fld F.PWR_CAP.CAP 0
        let eff := if brake then min cap (s.fld F.PWR_BRAKE.LIMIT 0) else cap
        u.fld F.PWR_STATUS.EFF_CAP 0 = eff ∧ (2 ≤ s.pw.above → s.allLow = false → pin ≤ eff) ∧ (∀ d, d < 24 → u.domStep d = s.domStep d) ∧
        (eff < pin → u.fld F.PWR_EVENT.CAP_EXCEED 0 = 1 ∧ (∀ t ∈ s.throttleable, 1 ≤ u.duty t ∧ u.duty t ≤ max 1 (s.duty t)) ∧
          ∀ t, t ∉ s.throttleable → u.duty t = s.duty t) ∧
        (100 * pin < 97 * eff → ∀ t, u.duty t = min 16 (if s.hotTile t then s.duty t else s.duty t + 1)) ∧
        (pin ≤ eff → 97 * eff ≤ 100 * pin → ∀ t, u.duty t = s.duty t)) ∧
        s.sameBytes u ∧ u.tiles = s.tiles ∧ u.blocks = s.blocks) ∧
    (∀ dom n, dom < 22 → s.domOn dom = true →
      let die := if dom < 16 then dom / 4 else dom - 16
      let own := if dom < 16 then [dom] else if dom < 20 then (List.range 4).map (4 * die + ·) else []
      let far := (((s.archesIn own).map fun b => b.tiles.map quadOf).flatten.filter fun q => q / 4 ≠ die).eraseDups
      ∃ u, exec (.droop dom n) s = .next u ∧ u.fld F.PWR_EVENT.DROOP 0 = 1 ∧
      u.fld F.PWR_STRETCH.EVENTS 0 = min (s.fld F.PWR_STRETCH.EVENTS 0 + 1) (2 ^ 32 - 1) ∧
      u.fld F.PWR_STRETCH.CYCLES 0 = min (s.fld F.PWR_STRETCH.CYCLES 0 + (1 + far.length) * max 32 n) (2 ^ 32 - 1) ∧
      s.onlyRegs u [F.PWR_EVENT.DROOP.at 0, F.PWR_STRETCH.EVENTS.at 0]) ∧
    ∀ q ∈ s.quadWake, ∃ u, exec (.quadrantPowerUp q) s = .next u ∧
      u = { s with quadWake := s.quadWake.filter (· ≠ q) } ∧ q ∉ u.quadWake

/-- From `s` to `u` the module started again from its fuses (R416), or lost all state without starting where `rails` is off: the
owner banks, revoked keys and minimum SVNs, the serial and the part are kept, and nothing else. -/
def restarted (s u : State) (rails : Bool) : Prop :=
  u.board.rails = rails ∧ u.mem = [] ∧ u.scrambles = [] ∧ u.scr = [] ∧ u.tiles = [] ∧ u.blocks = [] ∧ u.items = [] ∧
    u.queues = [] ∧ u.hods = [] ∧ u.sets = [] ∧ u.xlt = [] ∧ u.grout = [] ∧ u.trust.slots = [] ∧ u.timer = false ∧
    u.ticks = 0 ∧ u.fld F.CFG_STATE.PHASE 0 = 0 ∧ u.fld F.CFE_STATUS.READY 0 = 0 ∧ u.course = 0 ∧
    u.trust.banks = s.trust.banks ∧ u.trust.revoked = s.trust.revoked ∧
    u.fld F.SEC_SVNMIN.MIN 0 = s.fld F.SEC_SVNMIN.MIN 0 ∧ u.fld F.SEC_SERIAL.SERIAL 0 = s.fld F.SEC_SERIAL.SERIAL 0 ∧
    u.part = s.part

/-- Steps, temperatures, power and the stops (R349, R360 to R365, R416, R442, R443).

Steps and temperatures (R349, R360 to R362): a domain switches to its due step with
those that arches join to it, and with no other; a reading shows in
TEMP and its highest in PEAK, starts the unit's throttling at 100 °C (95 °C for a stack) and ends it below 97 °C (92 °C); a
throttled C-die's quadrants go down one step, or at their lowest step one sixteenth of duty, and a G-die's cores one step.
Which quadrants go down with a die is the model's reading (log entry 40).

Power and the stops (R363 to R365, R416, R442, R443): power within range starts the module again unless a trip is latched, and
samples the slot number where the auxiliary rail comes up; a
removal of the rails, a trip or an enabled airflow input held low takes all state and latches its cause; input power removed
clears every latch; the end of an airflow stop is a module reset. The flash outlives them all.
What is kept, and when a row has no effect, are the model's readings (log entries 75 and 76).

Next states are stated of: freqStep, thermalSample, dieThrottleStep, powerOnReset, railsEnable, moduleReset, railsRemove,
inputPowerRemoved, thermalTrip, airfailStop, airfailRelease. -/
def Obligations.PowerLimits : Prop :=
  (∀ (s : State), s.board.rails = true →
      (∀ dom step, SMap.rising s.pw.left = true → (∀ p ∈ s.pw.left, p.1 < 24 ∧ p.2 < 32) →
        SMap.find? s.pw.left dom = some step → ∃ u, exec (.freqStep dom step) s = .next u ∧
        u.domStep dom = step ∧ (∀ p ∈ s.dueWith dom, u.domStep p.1 = p.2 ∧ p ∉ u.pw.left) ∧
        (∀ d, d < 24 → (∀ p ∈ s.dueWith dom, p.1 ≠ d) → u.domStep d = s.domStep d) ∧
        s.sameBytes u ∧ u.tiles = s.tiles ∧ u.blocks = s.blocks) ∧
      (∀ n (x : Int), s.part.hasSensor n = true → -32768 ≤ x → x < 32768 →
        let hi : Int := if n < 7 then 800 else 760
        let low : Int := if n < 7 then 776 else 736
        let peak := sext 16 (s.fld F.PWR_TEMP.PEAK n)
        ∃ u, exec (.thermalSample [(n, x)]) s = .next u ∧ sext 16 (u.fld F.PWR_TEMP.TEMP n) = x ∧
          sext 16 (u.fld F.PWR_TEMP.PEAK n) = (if peak < x then x else peak) ∧
          u.fld F.PWR_TEMP.THROTTLE n = (if s.fld F.PWR_TEMP.THROTTLE n = 1 then (if x < low then 0 else 1)
            else if hi ≤ x then 1 else 0) ∧
          (hi ≤ x → u.fld (if n < 7 then F.PWR_EVENT.DIE_THROTTLE else F.PWR_EVENT.HBM_THROTTLE) 0 = 1) ∧
          s.sameBytes u ∧ u.tiles = s.tiles ∧ u.blocks = s.blocks) ∧
      (∀ die, die < 4 → s.fld F.PWR_TEMP.THROTTLE die = 1 →
        let qs := (((List.range 4).map (4 * die + ·)).map s.group).flatten.filter s.domOn
        ∃ u, exec (.dieThrottleStep die) s = .next u ∧ s.sameBytes u ∧ u.tiles = s.tiles ∧
          (∀ q, q ∉ qs → u.domStep q = s.domStep q) ∧
          ∀ q ∈ qs, (s.lowStep q < s.domStep q → u.domStep q = s.domStep q - 1 ∧ ∀ t ∈ quadTiles q, u.duty t = s.duty t) ∧
            (s.domStep q ≤ s.lowStep q → u.domStep q = s.domStep q ∧ ∀ t ∈ quadTiles q,
              u.duty t = if (s.c0Of t).isSome then s.duty t else max 1 (s.duty t - 1))) ∧
      (∀ die, 4 ≤ die → die < 6 → s.fld F.PWR_TEMP.THROTTLE die = 1 → ∃ u, exec (.dieThrottleStep die) s = .next u ∧
        u.domStep (16 + die) = s.domStep (16 + die) - 1 ∧ s.onlyRegs u [F.PWR_DOM.STEP.at (16 + die)]) ∧
      (s.fld F.PWR_TEMP.THROTTLE 6 = 1 → ∃ u, exec (.dieThrottleStep 6) s = .next u ∧ u = s)) ∧
  (∀ (s : State),
      let b := s.board
      let run (i : Instr) (rails : Bool) (p : State → Prop) : Prop :=
        ∃ u, exec i s = .next u ∧ restarted s u rails ∧ u.board.flash = b.flash ∧ p u
      let enabled (n : Nat) : Prop := (s.fld F.PWR_FUSE.AIRFAIL_EN 0).testBit n = true
      let sampled := if b.aux then b.slot else b.pins % 8
      ((b.trip = false → run .powerOnReset true fun u => u.board.vin = true ∧ u.board.aux = true ∧
          u.board.slot = sampled) ∧
        (b.trip = true → ∃ u, exec .powerOnReset s = .next u ∧
          u = { s with board := { b with aux := true, vin := true, slot := sampled } }) ∧
        (b.vin = false → b.trip = false → run .railsEnable true fun u => u.board.vin = true ∧ u.board.slot = sampled) ∧
        (b.vin = true → ∃ u, exec .railsEnable s = .next u ∧ u = s)) ∧
      (b.aux = true → b.vin = true → b.trip = false → s.airLow = false → run .moduleReset true fun u =>
        u.board.air0 = b.air0 ∧ u.board.air1 = b.air1 ∧ u.board.uv = b.uv ∧ u.board.ov = b.ov) ∧
      (∀ high, b.aux = true → b.vin = true → run (.railsRemove high) false fun u => u.board.vin = false ∧
        (b.rails = true → (if high then u.board.ov else u.board.uv) = true) ∧ u.board.trip = b.trip) ∧
      (run .inputPowerRemoved false fun u => u.board.aux = false ∧ u.board.vin = false ∧ u.board.trip = false ∧
        u.board.air0 = false ∧ u.board.air1 = false ∧ u.board.uv = false ∧ u.board.ov = false) ∧
      (∀ n, (b.rails = true ∨ b.vin = true ∧ (b.air0 = true ∨ b.air1 = true)) → s.part.hasSensor n = true →
        run (.thermalTrip n) false fun u => u.board.trip = true) ∧
      (∀ n, n < 2 → enabled n → b.aux = true → b.vin = true → run (.airfailStop n) false fun u =>
        (if n = 0 then u.board.air0 else u.board.air1) = true ∧ (if n = 0 then u.board.low0 else u.board.low1) = true) ∧
      (∀ n, n < 2 → enabled n → b.aux = true → b.vin = true → b.trip = false → b.rails = false →
        { s with board := b.setLow n false }.airLow = false → run (.airfailRelease n) true fun u =>
          (if n = 0 then u.board.low0 else u.board.low1) = false) ∧
      ∀ n, ¬ enabled n → (∃ u, exec (.airfailStop n) s = .next u ∧ u = s) ∧ ∃ u, exec (.airfailRelease n) s = .next u ∧ u = s)

/-- Host loss (R312 to R315): after READY a lost link or PERST_N declares it, which under RESET resets the module and under RETAIN
begins QUIESCING, after a rebuild reset that runs; before READY PERST_N resets the module; its assertion samples the slot; once nothing runs the caches are
written back, the cores and the quadrants without a plinth region power down, and the state is RETAINED; on reattach what the
host configured is at its reset values, the cores start, and the accelerator accepts work again.
The sequence is the model's reading (log entry 74), READY's value in it too (log entry 50).

Next states are stated of: hostLoss, perstAssert, perstLongHold, quiesceComplete, reattach, resumeComplete. -/
def Obligations.HostLoss : Prop :=
  ∀ (s : State), s.board.rails = true →
    let st := s.fld F.HOD_HOSTLOSS.STATE 0
    let mode := s.fld F.HOD_HOSTLOSS.MODE 0
    let kept (u : State) : Prop := u.queues = s.queues ∧ u.sets = s.sets ∧ u.scr = s.scr ∧ u.trust.slots = s.trust.slots
    let declared (u : State) : Prop :=
      if mode = 0 then restarted s u true
      else u.fld F.HOD_EVENT.HOST_LOSS 0 = 1 ∧ kept u ∧
        u.fld F.HOD_HOSTLOSS.LOSSES 0 = min (s.fld F.HOD_HOSTLOSS.LOSSES 0 + 1) (2 ^ 32 - 1) ∧
        (if s.rebuilding then u.lossPend = true ∧ u.fld F.HOD_HOSTLOSS.STATE 0 = st else u.fld F.HOD_HOSTLOSS.STATE 0 = 1)
    (s.timer = true → s.fld F.HOD_LINK.UP 0 = 0 → s.lossPend = false → st ≠ 1 → st ≠ 2 →
      ∃ u, exec .hostLoss s = .next u ∧ declared u ∧ (mode = 1 → s.sameBytes u ∧ u.blocks = s.blocks ∧ u.tiles = s.tiles)) ∧
    (s.board.perst = false → s.airLow = false → s.loading = false →
      let held (u : State) : Prop := u.board.perst = true ∧ u.board.slot = s.board.pins % 8
      (s.timer = false → ∃ u, exec .perstAssert s = .next u ∧ restarted s u true ∧ held u) ∧
      (s.timer = true → s.hods = [] → st ≠ 1 → st ≠ 2 →
        ∃ u, exec .perstAssert s = .next u ∧ declared u ∧ held u)) ∧
    (s.board.perst = true → s.timer = true → mode = 1 → ∃ u, exec .perstLongHold s = .next u ∧ restarted s u true) ∧
    (st = 1 → s.rebuilding = false → s.blocks = [] → s.packets = [] → s.hodsRun = false → SMap.rising s.lines = true →
      ∃ u, exec .quiesceComplete s = .next u ∧ u.fld F.HOD_HOSTLOSS.STATE 0 = 2 ∧ u.fld F.CFE_STATUS.READY 0 = 0 ∧
        u.dirtyLines = [] ∧ u.wc = [] ∧ u.cores = [] ∧ u.coreDown = true ∧ kept u ∧
        ∀ q, q ∈ u.quadOff ↔ q < 16 ∧ s.part.hasDomain q = true ∧ s.quadPlinth q = false) ∧
    (st = 2 → s.fld F.HOD_LINK.UP 0 = 1 → ∃ u, exec .reattach s = .next u ∧ u.fld F.HOD_HOSTLOSS.STATE 0 = 3 ∧
      u.fns = [] ∧ u.msixAddr = [] ∧ u.msixData = [] ∧ u.msixPend = [] ∧ u.quadOff = [] ∧ u.coreDown = false ∧
      u.coreReset = true ∧ u.fld F.HOD_OUTWIN.BASE 0 = 0 ∧ u.reg .HOD_PF_WIN 0 = RegKind.reset .HOD_PF_WIN ∧
      u.reg .HOD_BAR2_WIN 0 = RegKind.reset .HOD_BAR2_WIN ∧ kept u ∧ s.sameBytes u) ∧
    (st = 3 → ∃ u, exec .resumeComplete s = .next u ∧ u.fld F.HOD_HOSTLOSS.STATE 0 = 0 ∧
      (s.halted = false → s.rebuilding = false → u.fld F.CFE_STATUS.READY 0 = 1) ∧
      s.onlyRegs u [F.HOD_HOSTLOSS.STATE.at 0, F.CFE_STATUS.READY.at 0])

/-- Start-up and the live digest (R233, R374, R402 to R411, R414, R415).

Start-up, a phase a command (R233, R374, R402 to R411, R414): each phase that ends well leaves what the rules give it and goes on
to the next one; phase 1 waits for the flash and ends in boot recovery at the first type of which no copy is accepted; phase 3
loads the record's fields as applied, or leaves the record defaults, and locks them; a phase that fails stops the sequence.
One command a phase is the model's choice (log entry 17), and record defaults before phase 3 too (log entry 7).

The live digest (R415): a snapshot takes the digest of the module's present configuration and makes the sequence count odd
where it was even; the update that the next reference tick makes puts it into the six registers together, moves the count on
again, and a change of the digest sets LIVE_CHANGED.

Next states are stated of: startUp, liveSnapshot. -/
def Obligations.StartUp : Prop :=
  (∀ (s : State), s.board.rails = true → s.timer = false → s.airLow = false → s.fld F.CFG_STATE.FAIL 0 = 0 →
      s.recovering = false →
      let ph := s.fld F.CFG_STATE.PHASE 0
      let ends (n : Nat) (p : State → Prop) : Prop := ph = n → ∃ u, exec (.startUp .ok) s = .next u ∧
        u.fld F.CFG_STATE.PHASE 0 = n + 1 ∧ p u
      let good (ty : Nat) : Prop := s.copyCause ty 0 = none ∨ s.copyCause ty 1 = none
      ends 0 (fun u => s.sameBytes u) ∧
      (s.board.spiReq = false → (∀ ty, 1 ≤ ty → ty ≤ 4 → good ty) → ends 1 fun u => u.fld F.SEC_STATE.STAGE 0 = 1 ∧
        ∀ ty, 1 ≤ ty → ty ≤ 4 → u.fld F.SEC_BOOT.VALID ty = 1 ∧
          u.fld F.SEC_BOOT.COPY ty = if s.copyCause ty 0 = none then 0 else 1) ∧
      (∀ ty, 1 ≤ ty → ty ≤ 4 → s.board.spiReq = false → (∀ k, 1 ≤ k → k < ty → good k) → ¬ good ty → ph = 1 →
        ∃ u, exec (.startUp .ok) s = .next u ∧ u.recovering = true ∧ u.fld F.SEC_STATE.FAIL_TYPE 0 = ty ∧
          u.fld F.SEC_STATE.STAGE 0 = (if ty = 1 then 3 else 4) ∧ u.fld F.CFG_STATE.PHASE 0 = 1) ∧
      (s.board.spiReq = true → ph = 1 → ∃ u, exec (.startUp .ok) s = .next u ∧
        u = { s with board := { s.board with perst := false } }) ∧
      (s.trust.bank = none → s.trust.record = none → ends 2 fun u => u.fld F.SEC_STATE.STAGE 0 = 2 ∧ u.trust = s.trust) ∧
      (s.trust.bank ≠ none → s.copyCause 6 0 = none → let r := envPayload (s.copyBytes 6 0)
        (le r 28 1).testBit 2 = false → ends 2 fun u => u.fld F.SEC_STATE.STAGE 0 = 2 ∧ u.trust.record = some r) ∧
      (s.trust.record = none → ends 3 fun u => u.fld F.CFG_STATE.LOCKED 0 = 1 ∧
        u.fld F.CFG_STATE.RECORD 0 = s.fld F.CFG_STATE.RECORD 0 ∧
        ∀ f ∈ recFields, ∀ i, i < f.count → u.fld f.fld (f.first + i * f.stride) = s.fld f.fld (f.first + i * f.stride)) ∧
      (∀ r, s.trust.record = some r → ends 3 fun u => u.fld F.CFG_STATE.LOCKED 0 = 1 ∧ u.fld F.CFG_STATE.RECORD 0 = 1 ∧
        u.fld F.HOD_HOSTLOSS.MODE 0 = bitN ((le r 28 1).testBit 1) ∧
        ∀ f ∈ recFields, ∀ i, i < f.count → u.fld f.fld (f.first + i * f.stride) = f.fld.fit (le r f.off f.len)) ∧
      ends 4 (fun u => ∀ l, s.part.hasLintel l = true → u.ltlUp l = true ∧ 64 ≤ u.fld F.LTL_TRAIN.EYE_MIN l) ∧
      ends 5 (fun u => s.sameBytes u) ∧
      ends 6 (fun u => (∀ a, u.memByte a = 0) ∧ u.memUe = [] ∧ u.memCe = [] ∧ SMap.find? u.trust.slots 0 = some 8 ∧
        ∀ d, d < s.part.dies → u.fld F.MEM_MODE.MODE d = 2) ∧
      ends 7 (fun u => s.sameBytes u) ∧
      ((∀ g, g < 16 → s.fld F.CRS_C0_GROUP.VALID g = 0) → ends 8 fun u => u.plumb = s.plumbDigest) ∧
      ∀ unit detail, (4 ≤ ph → ph ≤ 8 → ∃ u, exec (.startUp (.fail unit detail)) s = .next u ∧
          u.fld F.CFG_STATE.FAIL 0 = 1 ∧ u.fld F.CFG_STATE.FAIL_PHASE 0 = ph ∧ u.fld F.CFG_STATE.PHASE 0 = ph ∧
          u.fld F.ERR_FATAL.VALID 0 = 1 ∧ u.fld F.ERR_STATUS.FATAL 0 = 1) ∧
        ((ph < 4 ∨ 8 < ph) → ∃ u, exec (.startUp (.fail unit detail)) s = .next u ∧
          u = { s with board := { s.board with perst := false } })) ∧
  (∀ (s : State), s.board.rails = true → s.timer = true → s.live = none →
      let shown (x : State) : List Byte := ((List.range 6).map fun n => bytesOf 8 (x.fld F.CFG_LIVE.DIGEST n)).flatten
      let seq (x : State) : Nat := x.fld F.CFG_LIVE_SEQ.SEQ 0
      ∃ u, exec .liveSnapshot s = .next u ∧ u.live = some s.liveDigest ∧ seq u = (seq s + 1) % 2 ^ 64 ∧ shown u = shown s ∧
        { s with live := u.live }.onlyRegs u [F.CFG_LIVE_SEQ.SEQ.at 0] ∧
        let v := u.liveEnd
        v.live = none ∧ shown v = s.liveDigest ∧ seq v = (seq s + 2) % 2 ^ 64 ∧
        (shown s ≠ s.liveDigest → v.fld F.CFG_EVENT.LIVE_CHANGED 0 = 1) ∧
        s.onlyRegs v (((List.range 6).map fun n => F.CFG_LIVE.DIGEST.at n) ++
          [F.CFG_LIVE_SEQ.SEQ.at 0, F.CFG_EVENT.LIVE_CHANGED.at 0]))

/-- The error log (R421 to R428, R431). A report whose cause has no open record in its course opens one at HEAD with what it names,
and counts under its severity; one whose cause has an open record adds to its count, keeps the worst severity, and counts in
ERR_SECONDARY; one whose entry is not consumed and CLOSED is lost and counted. A code comes with its listed severity and a cause
of its classes, detected by now; any other report is none. A record closes at the second boundary after its course; TAIL moves on at most to HEAD.
That any other report is none, and when a record may close, are the model's readings (log entries 64 and 65).

Next states are stated of: errorReport, recordClose, errLogTailWrite. -/
def Obligations.ErrorLog : Prop :=
  ∀ (s : State), s.board.rails = true →
    let head := s.fld F.ERR_LOG_HEAD.HEAD 0
    let tail := s.fld F.ERR_LOG_TAIL.TAIL 0
    (∀ (r : Report) (c time : Nat), r.sev < 3 → s.reportOk r c time = true →
      let barred : Prop := 256 ≤ ahead head tail ∨ (r.cause, c) ∈ s.lostKeys ∨
        ∃ e, SMap.find? s.grout (head % 256) = some e ∧ e.flags.testBit 0 = false
      (s.openRec r.cause c = none → ¬ barred → ∃ u e, exec (.errorReport ⟨r, c, time⟩) s = .next u ∧
          SMap.find? u.grout (head % 256) = some e ∧ e.code = r.code ∧
          e.sev = r.sev ∧ e.cause = r.cause ∧ e.source = r.source ∧ e.course = c ∧ e.time = time ∧
          e.addr = r.addr ∧ e.detail = r.detail ∧ e.part = r.part ∧ e.queue = r.queue ∧ e.count = 1 ∧ e.seq = head ∧
          u.fld F.ERR_LOG_HEAD.HEAD 0 = (head + 1) % 2 ^ 32 ∧ u.fld F.ERR_STATUS.NEW 0 = 1 ∧
          u.fld (sevCounter r.sev) 0 = min (s.fld (sevCounter r.sev) 0 + 1) (2 ^ 16 - 1) ∧
          (s.sevIrq r.sev = true → msixSent s u 0 1) ∧ s.sameBytes u ∧ u.tiles = s.tiles ∧ u.blocks = s.blocks) ∧
      (s.openRec r.cause c = none → barred →
        ∃ u, exec (.errorReport ⟨r, c, time⟩) s = .next u ∧ u.grout = s.grout ∧
          u.fld F.ERR_LOST.COUNT 0 = min (s.fld F.ERR_LOST.COUNT 0 + 1) (2 ^ 32 - 1) ∧
          u.fld F.ERR_STATUS.OVERFLOW 0 = 1 ∧ { s with lostKeys := u.lostKeys }.onlyRegs u
            [F.ERR_LOST.COUNT.at 0, F.ERR_STATUS.OVERFLOW.at 0]) ∧
      (∀ n e, s.openRec r.cause c = some (n, e) → ∃ u e', exec (.errorReport ⟨r, c, time⟩) s = .next u ∧
        SMap.find? u.grout n = some e' ∧ e'.code = e.code ∧ e'.sev = max e.sev r.sev ∧
        e'.count = min (e.count + 1) (2 ^ 32 - 1) ∧ e'.addr = e.addr ∧ (e.sev < r.sev → e'.flags.testBit 1 = true) ∧
        u.fld F.ERR_SECONDARY.COUNT 0 = min (s.fld F.ERR_SECONDARY.COUNT 0 + 1) (2 ^ 64 - 1) ∧
        { s with grout := u.grout }.onlyRegs u [F.ERR_SECONDARY.COUNT.at 0])) ∧
    (∀ (r : Report) (c time : Nat), r.code ≠ 0x0302 → s.reportOk r c time = true → r.sev = 3 → s.timer = true →
      s.halted = false → ∃ u, exec (.errorReport ⟨r, c, time⟩) s = .next u ∧ u.halted = true ∧ u.ready = false ∧ s.discarded { u with xlt := [] } ∧
        u.fld F.ERR_STATUS.FATAL 0 = 1 ∧ u.fld F.ERR_FATAL.VALID 0 = 1 ∧
        (s.fld F.ERR_FATAL.VALID 0 = 0 → u.fld F.ERR_FATAL.CAUSE 0 = r.cause % 2 ^ 16 ∧
          u.fld F.ERR_FATAL.CODE 0 = r.code) ∧ ∀ i ∈ u.items, i.done = true) ∧
    (∀ (r : Report) (c time : Nat), s.reportOk r c time = false → ∃ u, exec (.errorReport ⟨r, c, time⟩) s = .next u ∧ u = s) ∧
    (∀ n e, SMap.find? s.grout n = some e → s.timer = true →
      (e.course + 2 ≤ s.course → ∃ u, exec (.recordClose n) s = .next u ∧
        SMap.find? u.grout n = some { e with flags := e.flags ||| 1 } ∧ u = { s with grout := u.grout } ∧
        ∀ k, k ≠ n → SMap.find? u.grout k = SMap.find? s.grout k) ∧
      (s.course < e.course + 2 → ∃ u, exec (.recordClose n) s = .next u ∧ u = s)) ∧
    ∀ v : Word, let n := v.toNat % 2 ^ 32
      (ahead n tail ≤ ahead head tail → ∃ u, exec (.errLogTailWrite v) s = .next u ∧ u.fld F.ERR_LOG_TAIL.TAIL 0 = n ∧
        s.onlyRegs u [F.ERR_LOG_TAIL.TAIL.at 0]) ∧
      (ahead head tail < ahead n tail → ∃ u, exec (.errLogTailWrite v) s = .next u ∧ u = s)

/-- The management target and the ports of the board (R450 to R453).

The IO-die management target (R452): before the end of phase 0 it acknowledges nothing; then it takes a dynamic address once, a
two-byte write sets its index and any other is ignored, and a read returns the indexed register's eight bytes, or zero, and
clears nothing.
The target's address and its answers early in start-up are the model's readings (log entries 61 and 62).

The regulator port, the FRU EEPROM, the test access port and the flash port (R450, R451, R453). While the auxiliary rail is off
the port refuses everything; else each reading returns its bytes (the energy accumulator's and the EEPROM's without an effect),
the status latch shows what R453 lists, CLEAR_FAULTS clears
bits 1 to 4 of it and only those, and any other command is refused. The TAP follows IEEE 1149.1 and while locked shifts its
bypass bit. The tray reads, erases and programs the flash only while PERST_N is asserted and SPI_REQ_N is low.
What the port reads is open, and the limits of the TAP and of the flash are the model's (log entries 62, 63 and 75).

Next states are stated of: setdasa, entdaa, mgmtRead, mgmtIndexWrite, readVin, readIin, readPin, readTemperature1,
statusWord, readEin, statusMfrSpecific, mfrSerial, clearFaults, fruRead, pmbusUnsupported, jtagTrst, jtagTck, spiReqAssert,
flashRelease, spiFlashCommand. -/
def Obligations.ManagementBoard : Prop :=
  (∀ (s : State),
      let ans (o : Out) : State := { s with outs := s.outs ++ [o] }
      let goes (i : Instr) (t : State) : Prop := ∃ u, exec i s = .next u ∧ u = t
      let mine := 0x30 + s.board.slot
      (∀ a d, a ≠ mine → goes (.setdasa a d) s) ∧
      (s.mgmtUp = false → (∀ d, goes (.setdasa mine d) (ans .nack) ∧ goes (.entdaa d) s) ∧ goes .mgmtRead (ans .nack) ∧
        ∀ bs, goes (.mgmtIndexWrite bs) (ans .nack)) ∧
      (s.mgmtUp = true →
        (∀ d, (s.board.dyn = none → goes (.setdasa mine d) { s with board := { s.board with dyn := some d } } ∧
            goes (.entdaa d) { s with board := { s.board with dyn := some d } }) ∧
          (s.board.dyn ≠ none → goes (.setdasa mine d) (ans .nack) ∧ goes (.entdaa d) s)) ∧
        (∀ x y, goes (.mgmtIndexWrite [x, y]) { s with board := { s.board with index := x.toNat + 256 * y.toNat } }) ∧
        (∀ bs, bs.length ≠ 2 → goes (.mgmtIndexWrite bs) s) ∧
        (∀ k i, mgmtReg s.board.index = some (k, i) → goes .mgmtRead (ans (.i3c (bytesOf 8 (s.view 8 k i).toNat)))) ∧
        (mgmtReg s.board.index = none → goes .mgmtRead (ans (.i3c (List.replicate 8 0)))))) ∧
  (∀ (s : State),
      let b := s.board
      let ans (o : Out) : State := { s with outs := s.outs ++ [o] }
      let on (x : Board) : State := { s with board := x }
      let goes (i : Instr) (t : State) : Prop := ∃ u, exec i s = .next u ∧ u = t
      (∀ p ∈ [(Instr.readVin, 0x88), (.readIin, 0x89), (.readPin, 0x97), (.readTemperature1, 0x8D), (.statusWord, 0x79)],
        (b.aux = false → goes p.1 (ans .nack)) ∧ (b.aux = true → ∃ u v, exec p.1 s = .next u ∧
          u = { ans (.pmbus p.2 (bytesOf 2 v)) with freeCtr := s.freeCtr + 1 })) ∧
      (b.aux = true → ∃ v, goes .readEin (ans (.pmbus 0x86 (bytesOf 6 v)))) ∧
      (b.aux = false → goes .readEin (ans .nack) ∧ goes .statusMfrSpecific (ans .nack) ∧ goes .mfrSerial (ans .nack) ∧ goes .clearFaults (ans .nack) ∧
        ∀ off len, goes (.fruRead off len) (ans .nack)) ∧
      (b.aux = true →
        (∃ x : Byte, goes .statusMfrSpecific (ans (.pmbus 0x80 [x])) ∧
          (List.range 8).map x.getLsbD = [b.trip, b.air0, b.air1, b.uv, b.ov, false, b.perst, b.rails]) ∧
        goes .clearFaults (on { b with air0 := false, air1 := false, uv := false, ov := false }) ∧
        (∃ bs, bs.length ≤ 32 ∧ goes .mfrSerial (ans (.pmbus 0x9E bs))) ∧
        ∃ f : Nat → Byte, ∀ off len, goes (.fruRead off len) (ans (.i3c ((List.range len).map fun i => f (off + i))))) ∧
      (∀ cmd, pmbusCmds.contains cmd.toNat = false → goes (.pmbusUnsupported cmd) (ans .nack)) ∧
      goes .jtagTrst (on { b with tap := 0, bypass := false }) ∧
      (∀ tms tdi, b.rails = true → s.fld F.SEC_DEBUG.JTAG 0 = 0 →
        (b.tap = 3 → goes (.jtagTck tms tdi) (on { b with tap := tapNext b.tap tms, bypass := false })) ∧
        (b.tap = 4 → goes (.jtagTck tms tdi) { on { b with tap := tapNext b.tap tms, bypass := tdi } with
          outs := s.outs ++ [Out.tdo b.bypass], freeCtr := s.freeCtr + 1 }) ∧
        (b.tap ≠ 3 → b.tap ≠ 4 → b.tap ≠ 11 → goes (.jtagTck tms tdi) (on { b with tap := tapNext b.tap tms })) ∧
        (b.tap = 11 → ∃ u o, exec (.jtagTck tms tdi) s = .next u ∧ u = { on { b with tap := tapNext b.tap tms } with
          outs := s.outs ++ [Out.tdo o], freeCtr := s.freeCtr + 1 })) ∧
      (b.perst = true → goes .spiReqAssert (on { b with spiReq := true })) ∧ (b.perst = false → goes .spiReqAssert s) ∧
      goes .flashRelease (on { b with spiReq := false }) ∧
      (s.trayOwns = false → ∀ c, goes (.spiFlashCommand c) s) ∧
      (b.aux = true → b.perst = true → b.spiReq = true →
        let byte (x : State) (a : Nat) : Byte := SMap.get x.board.flash 0xFF a
        (∀ off len, goes (.spiFlashCommand (.read off len)) (ans (.spi ((List.range len).map fun i => byte s (off + i))))) ∧
        (∀ off len, ∃ u, exec (.spiFlashCommand (.erase off len)) s = .next u ∧ u = on { b with flash := u.board.flash } ∧
          ∀ a, byte u a = if off ≤ a ∧ a < off + len then 0xFF else byte s a) ∧
        ∀ off data, ∃ u, exec (.spiFlashCommand (.program off data)) s = .next u ∧
          u = on { b with flash := u.board.flash } ∧
          ∀ a, byte u a = if off ≤ a ∧ a < off + data.length then byte s a &&& data.getD (a - off) 0 else byte s a))

/-- Registers under their access codes (R4, R6, R7, R201, R296, R326, R437). An access through BAR0 finds the inbound writes before
it performed: every one of them for a read, the ordered ones for a write. A read returns the bytes of what the register shows and
clears the RC fields that lie wholly within them, and no other; the MSI-X table and pending bits read as they stand; what names
no register reads zero. A write gives each RW field it reaches the value it holds after the write, as the field applies it
(TILE_COUNT at most the tiles from FIRST_TILE on), clears the W1C bits written 1, and leaves every other field; a locked
configuration-class field keeps its value, and the write is counted; one that meets nothing is dropped, and counted if it came
through BAR0. One of another size or alignment is refused: by an access fault of a core, an error reply and a counted drop
through BAR0; in D3 a function drops writes and refuses reads.
What becomes of an odd size or of no register is the model's reading (log entry 56).

Next states are stated of: rcRead, registerWrite. -/
def Obligations.RegisterAccess : Prop :=
  ∀ (s : State) (a : RegAcc) (v : Word),
    let lo := RegAcc.lo a
    let hi := RegAcc.hi a
    let rd := match a.via with
      | .bar0 _ => s.inboundAll
      | .core _ _ _ _ => s
    let wr := match a.via with
      | .bar0 _ => s.inboundOrdered
      | .core _ _ _ _ => s
    (s.regOpen a →
      (∀ k i, rd.regMeets a false = .reg k i → ∃ u, exec (.rcRead a) s = .next u ∧
        u.outs = rd.outs ++ [regAnswer a (RegAcc.bytes a (rd.view (s.regTag a) k i))] ∧
        (∀ f ∈ k.fields, u.fld f i = if f.acc = .rc ∧ f.within hi lo = true then 0 else rd.fld f i) ∧
        { rd with outs := u.outs, freeCtr := u.freeCtr }.onlyRegs u [k.place.addr i]) ∧
      (∀ f w, rd.regMeets a false = .msix f w → ∃ u, exec (.rcRead a) s = .next u ∧
        u = { rd with outs := rd.outs ++ [regAnswer a (RegAcc.bytes a (rd.msixWord f w))] }) ∧
      (∀ f w, rd.regMeets a false = .pba f w → ∃ u, exec (.rcRead a) s = .next u ∧
        u = { rd with outs := rd.outs ++ [regAnswer a (RegAcc.bytes a (rd.pbaWord f w))] }) ∧
      (∀ f w, wr.regMeets a true = .msix f w → ∃ u, exec (.registerWrite a v) s = .next u ∧
        u.msixWord f w = (let m := merge (wr.msixWord f w) (v <<< lo) hi lo
          BitVec.ofNat 64 (if w % 2 = 0 then m.toNat / 4 * 4 else m.toNat % 2 ^ 33)) ∧
        u = { wr with msixAddr := u.msixAddr, msixData := u.msixData, msixPend := u.msixPend, outs := u.outs }) ∧
      (rd.regMeets a false = .none → ∃ u, exec (.rcRead a) s = .next u ∧
        u = { rd with outs := rd.outs ++ [regAnswer a (List.replicate a.size 0)] }) ∧
      (∀ k i, wr.regMeets a true = .reg k i → actsOnWrite k = false →
        let locked := wr.fld F.CFG_STATE.LOCKED 0 = 1
        let w := merge (wr.reg k i) (v <<< lo) hi lo
        let hit := locked ∧ ∃ f ∈ k.fields, f.acc = .rw ∧ f.cls = .config ∧ f.meets hi lo = true
        let takes (f : Fld) : Nat :=
          if f.meets hi lo = true ∧ f.acc = .rw ∧ ¬ (f.cls = .config ∧ locked) then f.fit (getField w f.hi f.lo)
          else if f.meets hi lo = true ∧ f.acc = .w1c ∧ (v <<< lo).toNat.testBit f.lo = true then 0 else wr.fld f i
        ∃ u, exec (.registerWrite a v) s = .next u ∧
          (∀ f ∈ k.fields, u.fld f i =
            if f = F.CRS_C0_GROUP.TILE_COUNT then min (takes f) (800 - u.fld F.CRS_C0_GROUP.FIRST_TILE i) else takes f) ∧
          (¬ hit → wr.onlyRegs u [k.place.addr i]) ∧
          (hit → u.fld F.CFG_EVENT.LOCKED_WRITE 0 = 1 ∧
            u.fld F.CFG_LOCKED_WRITES.COUNT 0 = min (wr.fld F.CFG_LOCKED_WRITES.COUNT 0 + 1) (2 ^ 64 - 1) ∧
            wr.onlyRegs u [k.place.addr i, F.CFG_EVENT.LOCKED_WRITE.at 0, F.CFG_LOCKED_WRITES.COUNT.at 0])) ∧
      (wr.regMeets a true = .none → ∃ u, exec (.registerWrite a v) s = .next u ∧ match a.via with
        | .bar0 _ => u.fld F.HOD_INBOUND.DROPPED 0 = min (wr.fld F.HOD_INBOUND.DROPPED 0 + 1) (2 ^ 16 - 1) ∧
          wr.onlyRegs u [F.HOD_INBOUND.DROPPED.at 0]
        | .core _ _ _ _ => u = s)) ∧
    (∀ fn, a.via = .bar0 fn → s.bar0Here fn = true → ((s.fn fn).d3 = true ∨ RegAcc.aligned a = false) →
      (∃ u, exec (.rcRead a) s = .next u ∧ u = { s with outs := s.outs ++ [Out.reply fn 1 []] }) ∧
      ((s.fn fn).d3 = true → ∃ u, exec (.registerWrite a v) s = .next u ∧ u = s) ∧
      ((s.fn fn).d3 = false → ∃ u, exec (.registerWrite a v) s = .next u ∧ s.onlyRegs u [F.HOD_INBOUND.DROPPED.at 0] ∧
        u.fld F.HOD_INBOUND.DROPPED 0 = min (s.fld F.HOD_INBOUND.DROPPED 0 + 1) (2 ^ 16 - 1))) ∧
    ∀ n mode va deleg, a.via = .core n mode va deleg → s.coreRuns n = true → s.readOut n = false → a.addr < 2 ^ 32 →
      RegAcc.aligned a = false →
      (∃ u, exec (.rcRead a) s = .next u ∧
        u = { s with outs := s.outs ++ [Out.coreFault n .load (taker mode deleg) va] }) ∧
      ∃ u, exec (.registerWrite a v) s = .next u ∧
        u = { s with outs := s.outs ++ [Out.coreFault n .storeAmo (taker mode deleg) va] }

/-- The registers a write of which is a command (R37, R218, R235, R250, R272, R280, R316, R354, R384, R417, R419, R427): a write of
eight bytes does exactly what that command does, after the ordered inbound writes before it where it comes through BAR0.

Next states are stated of: registerWrite, sqDoorbell, cqDoorbell, pwrCapWrite, crsShareWrite, crsSliceWrite, errLogTailWrite,
writebackAll, writebackRange, evictRange, discardLostRange, memAdd, memSum, xltInvContext, xltInvContextRange, chkValueWrite,
chkData8, chkData16, chkData32, chkLoad, loadImage, takeOwnership, raiseSvn, debugChallenge, debugUnlock, rebuildReset,
cfgResetCore. -/
def Obligations.RegisterActions : Prop :=
  ∀ (s : State) (via : RegVia) (o i : Nat) (v : Word), s.regOpen ⟨via, o, 8⟩ →
    let wr := match via with
      | .bar0 _ => s.inboundOrdered
      | .core _ _ _ _ => s
    let met (k : RegKind) : Prop := wr.regMeets ⟨via, o, 8⟩ true = .reg k i
    let same (c : Instr) : Prop := exec (.registerWrite ⟨via, o, 8⟩ v) s = exec c wr
    let op (h l : Nat) : Nat := getField v h l
    (met .CFE_Q_SQ_DB → same (.sqDoorbell i v)) ∧ (met .CFE_Q_CQ_DB → same (.cqDoorbell i v)) ∧
    (met .PWR_CAP → same (.pwrCapWrite v)) ∧ (met .CRS_SHARE → same (.crsShareWrite v)) ∧
    (met .CRS_SLICE → same (.crsSliceWrite v)) ∧ (met .ERR_LOG_TAIL → same (.errLogTailWrite v)) ∧
    (met .MTC_CMD → (op 3 0 = 1 → same (.writebackAll i (op 26 16))) ∧ (op 3 0 = 2 → same (.writebackRange i (op 26 16))) ∧
      (op 3 0 = 3 → same (.evictRange i (op 26 16))) ∧ (op 3 0 = 4 → same (.discardLostRange i (op 26 16)))) ∧
    (met .MEM_ADD_CMD → (op 1 0 = 1 → same (.memAdd i (min 2 (op 5 4)))) ∧ (op 1 0 = 2 → same (.memSum i (min 2 (op 5 4))))) ∧
    (met .XLT_INV → (op 1 0 = 2 → same (.xltInvContext (op 15 8))) ∧ (op 1 0 = 3 → same (.xltInvContextRange (op 15 8)))) ∧
    (met .CHK_VALUE → same (.chkValueWrite i v)) ∧ (met .CHK_DATA8 → same (.chkData8 i (v.setWidth 8))) ∧
    (met .CHK_DATA16 → same (.chkData16 i (v.setWidth 16))) ∧ (met .CHK_DATA32 → same (.chkData32 i (v.setWidth 32))) ∧
    (met .CHK_CFG → same (.chkLoad i v)) ∧
    (met .SEC_MBOX_CMD → let len := min 1048576 (op 40 20)
      (op 7 0 = 1 → same (.loadImage len)) ∧ (op 7 0 = 2 → same (.takeOwnership len)) ∧ (op 7 0 = 3 → same (.raiseSvn len)) ∧
        (op 7 0 = 4 → same (.debugChallenge len)) ∧ (op 7 0 = 5 → same (.debugUnlock len))) ∧
    (met .CFG_RESET → (op 1 0 = 1 → same .rebuildReset) ∧ (op 1 0 = 2 → same .cfgResetCore))

/-- The SEC mailbox (R371, R372, R383, R384). A command starts where none runs, and is refused otherwise; its end clears BUSY, sets
DONE, counts, and leaves its status: LOAD_IMAGE writes a verified image to the copy not in use, and nothing that fails its
checks or comes while the tray owns the flash; TAKE_OWNERSHIP adds a bank to a module with fewer than four; RAISE_SVN raises a type's minimum, never above 32 or the SVN in
use, and never lowers it; DEBUG_CHALLENGE makes a nonce valid, and any DEBUG_UNLOCK consumes it, unlocking only with it.
The envelope's length and its signer are the model's reading (log entry 67), verification is open (log entry 15), and an OP that is no command ends with NOT_PERMITTED by the model's reading (log entry 57).

Next states are stated of: loadImage, takeOwnership, raiseSvn, debugChallenge, debugUnlock, mailboxComplete. -/
def Obligations.Mailbox : Prop :=
  (∀ (s : State) (len : Nat), s.board.rails = true →
    ∀ p ∈ [(Instr.loadImage len, 1), (.takeOwnership len, 2), (.raiseSvn len, 3), (.debugChallenge len, 4), (.debugUnlock len, 5)],
      (s.fld F.SEC_MBOX_CMD.BUSY 0 = 0 → ∃ u : State, exec p.1 s = .next u ∧ u.fld F.SEC_MBOX_CMD.BUSY 0 = 1 ∧
        u.fld F.SEC_MBOX_CMD.LENGTH 0 = min len 1048576 ∧ u.trust = { s.trust with cmd := some (p.2, min len 1048576) } ∧
        { s with trust := u.trust }.onlyRegs u [F.SEC_MBOX_CMD.BUSY.at 0]) ∧
      (s.fld F.SEC_MBOX_CMD.BUSY 0 = 1 → ∃ u : State, exec p.1 s = .next u ∧ u.fld F.SEC_EVENT.REFUSED 0 = 1 ∧
        s.onlyRegs u [F.SEC_EVENT.REFUSED.at 0])) ∧
  ∀ (s : State) (op len : Nat) (ok : Bool), s.mbServed = true → s.trust.cmd = some (op, len) → s.trust.waiting = [] →
    let e := s.mboxArg len
    let ty := envType e
    let min0 (n : Nat) : Nat := s.svnMin n
    let t := (s.mboxArg 2).getD 0 0 |>.toNat
    let n := (s.mboxArg 2).getD 1 0 |>.toNat
    let flash (u : State) : Prop := u.board = s.board
    let ends (st : Nat) (p : State → Prop) : Prop := ∃ u : State, exec (.mailboxComplete ok) s = .next u ∧
      u.fld F.SEC_MBOX_CMD.BUSY 0 = 0 ∧ u.fld F.SEC_EVENT.DONE 0 = 1 ∧ u.fld F.SEC_MBOX_STATUS.STATUS 0 = st ∧
      u.fld F.SEC_MBOX_STATUS.COUNT 0 = (s.fld F.SEC_MBOX_STATUS.COUNT 0 + 1) % 2 ^ 16 ∧ u.trust.cmd = none ∧ p u
    (op = 1 →
      (envValid e = true → 6 < ty → ends 0x12 flash) ∧
      (¬ (envValid e = true ∧ 6 < ty) → ∀ c : Nat, s.envCause e = some c → ends c flash) ∧
      (ty ≤ 6 → s.envCause e = none → s.trayOwns = true → ends 0x0A flash) ∧
      (ty ≤ 6 → s.envCause e = none → s.trayOwns = false → ok = true → ends 0x00 fun u =>
        u.flashRead (copyBase ty (s.loadCopy ty)) e.length = e ∧
        ∀ x : Nat, (x < copyBase ty (s.loadCopy ty) ∨ copyBase ty (s.loadCopy ty) + e.length ≤ x) →
          SMap.get u.board.flash 0xFF x = SMap.get s.board.flash 0xFF x) ∧
      (ty ≤ 6 → s.envCause e = none → s.trayOwns = false → ok = false → ends 0x0A fun u =>
        ∀ x : Nat, (x < copyBase ty (s.loadCopy ty) ∨ copyBase ty (s.loadCopy ty) + e.length ≤ x) →
          SMap.get u.board.flash 0xFF x = SMap.get s.board.flash 0xFF x)) ∧
    (op = 2 →
      (s.recovering = true ∨ 4 ≤ s.trust.banks.length → ends 0x11 fun u => u.trust.banks = s.trust.banks) ∧
      (s.recovering = false → s.trust.banks.length < 4 → ty = 7 → s.envCause e = none → envLen e = 48 →
        ends 0x00 fun u => u.trust.banks = s.trust.banks ++ [envPayload e] ∧ u.fld F.SEC_STATE.OWNED 0 = 1 ∧
          u.fld F.SEC_EVENT.OWNER_SET 0 = 1)) ∧
    (op = 3 → s.recovering = false →
      ((t = 0 ∨ 6 < t) → ends 0x12 fun u => u.fld F.SEC_SVNMIN.MIN 0 = s.fld F.SEC_SVNMIN.MIN 0) ∧
      (1 ≤ t → t ≤ 6 → (32 < n ∨ s.fld F.SEC_BOOT.SVN t < n) →
        ends 0x11 fun u => u.fld F.SEC_SVNMIN.MIN 0 = s.fld F.SEC_SVNMIN.MIN 0) ∧
      (1 ≤ t → t ≤ 6 → n ≤ 32 → n ≤ s.fld F.SEC_BOOT.SVN t →
        ends 0x00 fun u => ∀ k : Nat, 1 ≤ k → k ≤ 6 → u.svnMin k = if k = t then max (min0 k) n else min0 k)) ∧
    (op = 4 → s.recovering = false → ends 0x00 fun u => u.fld F.SEC_DEBUG.CHALLENGE 0 = 1 ∧
      u.fld F.SEC_MBOX_STATUS.RESULT_LEN 0 = 40 ∧ ∃ c : List Byte, u.trust.nonce = some c ∧ c.length = 32 ∧ u.mboxArg 32 = c) ∧
    (op = 5 → s.recovering = false →
      (∃ u : State, exec (.mailboxComplete ok) s = .next u ∧ u.trust.nonce = none ∧ u.fld F.SEC_DEBUG.CHALLENGE 0 = 0) ∧
      (ty = 8 → s.envCause e = none → envLen e = 40 →
        (le e 72 8 ≠ s.fld F.SEC_SERIAL.SERIAL 0 ∨ s.trust.nonce ≠ some ((envPayload e).take 32) →
          ends 0x08 fun u => u.fld F.SEC_DEBUG.UNLOCKED 0 = s.fld F.SEC_DEBUG.UNLOCKED 0 ∧ s.sameBytes u) ∧
        (le e 72 8 = s.fld F.SEC_SERIAL.SERIAL 0 → s.trust.nonce = some ((envPayload e).take 32) →
          ends 0x00 fun u => u.fld F.SEC_DEBUG.UNLOCKED 0 = 1 ∧ u.scr = [] ∧ u.tiles = [] ∧ u.blocks = [] ∧ u.trust.slots = [] ∧
            u.coreReset = true ∧ ∀ p : Nat, p < 8 → u.partState p = 0))) ∧
    (5 < op → s.recovering = false → ends 0x12 flash)

/-- An SPDM response of at most 4,096 bytes goes out at once; a larger one is kept, to be fetched in chunks by its handle (R380). -/
def answered (s u : State) (code : Nat) (bs : List Byte) : Prop :=
  if bs.length + 4 ≤ 4096 then u.outs = s.outs ++ [Out.spdm code bs]
  else u.outs = s.outs ++ [Out.spdm 0x7F (bytesOf 1 0x0F ++ bytesOf 1 s.trust.spdm.handle)] ∧
    u.trust.spdm.large = some (s.trust.spdm.handle, code, bs)

/-- Request `i` has the effect `p`, and changes nothing but what is sent out and what Shusis holds. -/
def spdmDoes (s : State) (i : Instr) (p : State → Prop) : Prop :=
  ∃ u : State, exec i s = .next u ∧ p u ∧ u = { s with outs := u.outs, trust := u.trust, freeCtr := u.freeCtr }

/-- Request `i` is answered with error `e`. -/
def spdmErr (s : State) (i : Instr) (e : Nat) : Prop :=
  spdmDoes s i fun u => u.outs = s.outs ++ [Out.spdm 0x7F [BitVec.ofNat 8 e]] ∧ u.trust = s.trust

/-- Requests that need the algorithms, and requests that need a session. -/
def spdmEarly : List Instr := [.getDigests, .getCertificate 0 0 0, .challenge 0 [], .getMeasurements 0 false [], .keyExchange 0 []]
def spdmInner : List Instr := [.heartbeat, .keyUpdate, .endSession, .vendorDefinedRequest .ideOther]

def spdmOther : List Instr :=
  [.getVersion, .getCapabilities 0x12, .respondIfReady, .finish [], .chunkGet 0 0, .chunkSend 0 0 true [],
    .negotiateAlgorithms ⟨true, true, true, true, true⟩]
def spdmAny : List Instr := spdmEarly ++ (spdmInner ++ spdmOther)

/-- The requests that need the algorithms, once these are agreed. -/
def spdmAgreed (s : State) : Prop :=
  let x := s.trust.spdm
  (spdmDoes s .getDigests fun u => answered s u 0x01 (bytesOf 1 1 ++ sha384 s.rsaChain)) ∧
  (∀ off len : Nat, off < s.rsaChain.length → spdmDoes s (.getCertificate 0 off len) fun u =>
    u.outs = s.outs ++ [Out.spdm 0x02 (slice s.rsaChain off (min len 4088))]) ∧
  (∀ slot off len : Nat, (slot ≠ 0 ∨ s.rsaChain.length ≤ off) → spdmErr s (.getCertificate slot off len) 0x01) ∧
  (∀ n : List Byte, spdmDoes s (.challenge 0 n) fun u => ∃ own sig : List Byte, own.length = 32 ∧ answered s u 0x03
    (List.flatten [sha384 s.rsaChain, own, sha384 s.blocksAll.flatten] ++ sig)) ∧
  (∀ (sg : Bool) (n : List Byte), spdmDoes s (.getMeasurements 0 sg n) fun u => ∃ sig : List Byte, (sg = false → sig = []) ∧
    answered s u 0x60 (bytesOf 1 11 ++ sig)) ∧
  (∀ n : List Byte, spdmDoes s (.getMeasurements 0xFF false n) fun u => answered s u 0x60 s.blocksAll.flatten) ∧
  (∀ n : List Byte, spdmDoes s (.getMeasurements 0xFF true n) fun u => u.outs = s.outs ++ [Out.spdm 0x7F [0x42]] ∧
    ∃ more : List Byte, u.trust.spdm.busy = some (0x60, s.blocksAll.flatten ++ more, s.ticks)) ∧
  (∀ (op : Nat) (n b : List Byte), op ≠ 0 → op ≠ 0xFF → s.blocksAll.find? (fun b => blockIdx b = op) = some b →
    spdmDoes s (.getMeasurements op false n) fun u => answered s u 0x60 b) ∧
  (∀ (o : AlgOffer) (sh : List Byte), x.algs = some o → o.dhe = true → o.aead = true → o.sched = true → x.session = 0 →
    spdmDoes s (.keyExchange 0 sh) fun u => u.trust.spdm.session = 1 ∧ ∃ own sig : List Byte, own.length = 96 ∧
      answered s u 0x64 (own ++ sig)) ∧
  (∀ (sh : List Byte) (o : AlgOffer), x.algs = some o → o.dhe = true → o.aead = true → o.sched = true → x.session ≠ 0 →
    spdmErr s (.keyExchange 0 sh) 0x0A)

/-- The requests of an established session. -/
def spdmInside (s : State) : Prop :=
  let x := s.trust.spdm
  (spdmDoes s .heartbeat fun u => u.outs = s.outs ++ [Out.spdm 0x68 []] ∧ u.trust = s.trust) ∧
  (spdmDoes s .keyUpdate fun u => u.outs = s.outs ++ [Out.spdm 0x69 []] ∧
    u.trust.spdm = { x with updates := x.updates + 1 }) ∧
  (spdmDoes s .endSession fun u => u.outs = s.outs ++ [Out.spdm 0x6C []] ∧ u.trust.spdm = { x with session := 0 }) ∧
  (∀ k f : Nat, k < 16 → f ≤ 8 → spdmDoes s (.vendorDefinedRequest (.ideGo k f)) fun u => SMap.find? u.trust.ide k = some f ∧
    u.outs = s.outs ++ [Out.spdm 0x7E [1]]) ∧
  (∀ vf : Nat, 1 ≤ vf → vf ≤ 8 → s.fld F.SEC_PART.TDI (vf - 1) = 1 → ∃ u,
    exec (.vendorDefinedRequest (.tdispStart vf)) s = .next u ∧ u.fld F.SEC_PART.TDI (vf - 1) = 2 ∧
      u.outs = s.outs ++ [Out.spdm 0x7E [1]]) ∧
  ∀ r ∈ [VendorReq.ideOther, .tdispOther], spdmDoes s (.vendorDefinedRequest r) fun u =>
    u.outs = s.outs ++ [Out.spdm 0x7E [1]] ∧ u.trust = s.trust

/-- The SPDM responder (R376 to R382): while Shusis serves, each request is answered as R380 gives it, out of order with an error,
and behind a mailbox command that runs it waits; GET_MEASUREMENTS gives the blocks of R378, the whole set signed with both
algorithms and prepared first; a session needs KEY_EXCHANGE and FINISH, and its requests need the session.
The forms of the messages are the model's (log entry 21), signatures and random numbers open (log entry 15).

Next states are stated of: getVersion, getCapabilities, negotiateAlgorithms, getDigests, getCertificate, challenge,
getMeasurements, keyExchange, heartbeat, keyUpdate, endSession, vendorDefinedRequest, respondIfReady, finish, chunkSend,
chunkGet. -/
def Obligations.SpdmResponder : Prop :=
  ∀ (s : State), s.shusisUp = true →
    let x := s.trust.spdm
    (s.trust.cmd ≠ none → ∀ i ∈ spdmAny,
      spdmDoes s i fun u => u.outs = s.outs ∧ u.trust = { s.trust with waiting := s.trust.waiting ++ [i] }) ∧
    (s.trust.cmd = none →
      (spdmDoes s .getVersion fun u => u.outs = s.outs ++ [Out.spdm 0x04 [0x12, 0x13]] ∧ u.trust.spdm.stage = 1 ∧
        u.trust.spdm.session = 0) ∧
      (x.stage = 0 → spdmErr s (.getCapabilities 0x12) 0x04) ∧
      (x.stage ≠ 0 → (∀ v : Nat, (v = 0x12 ∨ v = 0x13) → spdmDoes s (.getCapabilities v) fun u => u.trust.spdm.stage = 2 ∧
          u.outs = s.outs ++ [Out.spdm 0x61 (bytesOf 4 4096 ++ bytesOf 4 131072)]) ∧
        ∀ v : Nat, v ≠ 0x12 → v ≠ 0x13 → spdmErr s (.getCapabilities v) 0x01) ∧
      (∀ o : AlgOffer, (x.stage ≠ 2 → spdmErr s (.negotiateAlgorithms o) 0x04) ∧
        (x.stage = 2 → o.base = false → spdmErr s (.negotiateAlgorithms o) 0x01) ∧
        (x.stage = 2 → o.base = true → spdmDoes s (.negotiateAlgorithms o) fun u => u.trust.spdm.stage = 3 ∧
          u.trust.spdm.algs = some o)) ∧
      (x.stage < 3 → ∀ i ∈ spdmEarly, spdmErr s i 0x04) ∧
      (3 ≤ x.stage → spdmAgreed s) ∧
      (x.busy = none → spdmErr s .respondIfReady 0x04) ∧
      (∀ (code : Nat) (bs : List Byte) (at_ : Nat), x.busy = some (code, bs, at_) → spdmDoes s .respondIfReady fun u =>
        (answered s u code bs ∧ u.trust.spdm.busy = none) ∨
          (s.ticks - at_ < 40000000 ∧ u.outs = s.outs ++ [Out.spdm 0x7F [0x42]] ∧ u.trust = s.trust)) ∧
      (∀ v : List Byte, (x.session ≠ 1 → spdmErr s (.finish v) 0x04) ∧ (x.session = 1 → spdmDoes s (.finish v) fun u =>
        (u.trust.spdm.session = 2 ∧ u.outs = s.outs ++ [Out.spdm 0x65 []]) ∨
          (u.trust.spdm.session = 0 ∧ u.outs = s.outs ++ [Out.spdm 0x7F [0x06]]))) ∧
      (x.session ≠ 2 → ∀ i ∈ spdmInner, spdmErr s i 0x04) ∧
      (x.session = 2 → spdmInside s) ∧
      (∀ (h : Nat) (bs : List Byte) (last : Bool), bs.length ≤ 131072 → ∃ u : State, exec (.chunkSend h 0 last bs) s = .next u ∧
        u.outs.take (s.outs.length + 1) = s.outs ++ [Out.spdm 0x05 (bytesOf 1 h ++ bytesOf 2 0)] ∧
        (last = false → u.trust.spdm.chunk = some (h, 0, bs) ∧ u.outs.length = s.outs.length + 1)) ∧
      (x.large = none → ∀ h n : Nat, spdmErr s (.chunkGet h n) 0x04) ∧
      (∀ (h code : Nat) (bs : List Byte) (n : Nat), x.large = some (h, code, bs) → n * 4080 < bs.length → spdmDoes s (.chunkGet h n) fun u =>
        u.outs = s.outs ++ [Out.spdm 0x06 (List.flatten [bytesOf 1 code, bytesOf 2 n, slice bs (n * 4080) 4080])]))

/-- Doorbells (R272, R280). A tail at most one ring beyond HEAD and beyond the tail in force is taken over, and so is a consumed
count within the records produced; any other value changes nothing but DB_IGNORED, and so does a submission doorbell to a FREE or DRAINING queue and
a completion doorbell to a disabled admin queue.

Next states are stated of: sqDoorbell, cqDoorbell. -/
def Obligations.Doorbells : Prop :=
  ∀ (s : State) (q : Nat) (v : BitVec 64), q < 1033 →
    let n := v.toNat % 2 ^ 32
    let ring := 2 ^ s.sqOrder q
    let c := s.fld F.CFE_Q_CPL.CONSUMED q
    let ignored (i : Instr) : Prop := ∃ u : State, exec i s = .next u ∧ s.onlyRegs u [F.CFE_Q_STAT.DB_IGNORED.at q] ∧
      u.fld F.CFE_Q_STAT.DB_IGNORED q = min (s.fld F.CFE_Q_STAT.DB_IGNORED q + 1) (2 ^ 16 - 1) ∧
      u.fld F.CFE_Q_STAT.ITEMS q = s.fld F.CFE_Q_STAT.ITEMS q ∧ u.fld F.CFE_Q_STAT.REFETCH q = s.fld F.CFE_Q_STAT.REFETCH q
    let tailOk := s.qState q ≠ 0 ∧ s.qState q ≠ 4 ∧ ahead n (s.qHead q) ≤ ring ∧ ahead n (s.queue q).tail ≤ ring
    let countOk := ahead n c ≤ ahead (s.fld F.CFE_Q_CPL.PRODUCED q) c
    (tailOk → ∃ u : State, exec (.sqDoorbell q v) s = .next u ∧ u.queue q = { s.queue q with tail := n } ∧
      (∀ k, k ≠ q → u.queue k = s.queue k) ∧ u = { s with queues := u.queues }) ∧
    (¬ tailOk → ignored (.sqDoorbell q v)) ∧
    (s.qState q ≠ 0 → countOk → ∃ u : State, exec (.cqDoorbell q v) s = .next u ∧ u.fld F.CFE_Q_CPL.CONSUMED q = n ∧
      u.fld F.CFE_Q_CPL.PRODUCED q = s.fld F.CFE_Q_CPL.PRODUCED q ∧ s.onlyRegs u [F.CFE_Q_CPL.CONSUMED.at q]) ∧
    (¬ countOk ∨ (1024 ≤ q ∧ s.qState q = 0) → ignored (.cqDoorbell q v))

/-- A queue's controls (R284, R285, R288, R292). A timeout is at least 1 and counts in CFG_EPOCH where it changes; one of a FREE or
admin queue, a RESUME outside CPL_BLOCKED or while one runs, and an ENABLE or disable out of turn are refused. RESUME writes the held
record and the queue is ACTIVE again. An admin queue enabled starts at HEAD 0 with the sizes written, and one disabled is FREE.
A completion doorbell to a FREE work queue is ignored too, the model's choice (log entry 84).

Next states are stated of: cqDoorbell, timeoutWrite, resume, adminQueueEnable, adminQueueDisable. -/
def Obligations.QueueControls : Prop :=
  ∀ (s : State) (q : Nat) (v : BitVec 64), q < 1033 →
    let refused (i : Instr) : Prop := ∃ u : State, exec i s = .next u ∧ s.onlyRegs u [F.CFE_Q_EVENT.CTL_REFUSED.at q] ∧
      u.fld F.CFE_Q_EVENT.CTL_REFUSED q = 1
    (q < 1024 → s.qState q = 0 → ∃ u : State, exec (.cqDoorbell q v) s = .next u ∧ s.onlyRegs u [F.CFE_Q_STAT.DB_IGNORED.at q] ∧
      u.fld F.CFE_Q_STAT.DB_IGNORED q = min (s.fld F.CFE_Q_STAT.DB_IGNORED q + 1) (2 ^ 16 - 1)) ∧
    (q < 1024 → s.qState q ≠ 0 → ∃ u : State, exec (.timeoutWrite q v) s = .next u ∧
      u.fld F.CFE_Q_CTL.TIMEOUT q = max 1 (v.toNat % 256) ∧ (u.queue q).timeout = (s.queue q).timeout ∧
      s.onlyRegs u [F.CFE_Q_CTL.TIMEOUT.at q, F.CFG_EPOCH.EPOCH.at 0, F.CFG_EVENT.EPOCH.at 0] ∧
      (s.fld F.CFE_Q_CTL.TIMEOUT q ≠ max 1 (v.toNat % 256) →
        u.fld F.CFG_EPOCH.EPOCH 0 = (s.fld F.CFG_EPOCH.EPOCH 0 + 1) % 2 ^ 64 ∧ u.fld F.CFG_EVENT.EPOCH 0 = 1)) ∧
    (1024 ≤ q ∨ s.qState q = 0 → refused (.timeoutWrite q v)) ∧
    (s.qState q ≠ 2 ∨ (s.queue q).resuming = true → refused (.resume q)) ∧
    (s.qState q = 2 → (s.queue q).resuming = false → ∀ (r : HeldRec) (s2 : State), (s.queue q).held = [r] → r.irq = false →
      s.putRecord q r = .ok s2 → (s2.queue q).held = [r] → s2.oldestDone q = none → s2.qFault q = 0 →
      ∃ u : State, exec (.resume q) s = .next u ∧ u.qState q = 1 ∧ (u.queue q).held = [] ∧ s2.sameBytes u ∧
        u.items = s2.items ∧ u.outs = s2.outs ∧ s2.regsBut u [F.CFE_Q_STATE.STATE.at q]) ∧
    (1024 ≤ q → v.toNat.testBit 63 = true → s.fld F.CFE_AQ_CFG.ENABLE q = 1 → refused (.adminQueueEnable (q - 1024) v)) ∧
    (1024 ≤ q → v.toNat.testBit 63 = true → s.fld F.CFE_AQ_CFG.ENABLE q = 0 →
      ∃ u : State, exec (.adminQueueEnable (q - 1024) v) s = .next u ∧ u.qState q = 1 ∧ u.qHead q = 0 ∧ u.qFault q = 0 ∧
        u.reg .CFE_Q_CPL q = 0 ∧ u.queue q = Queue.reset ∧ u.fld F.CFE_AQ_CFG.ENABLE q = 1 ∧
        u.fld F.CFE_AQ_CFG.MSIX q = getField v 26 16 ∧ u.fld F.CFE_AQ_CFG.CQ_SPACE q = getField v 13 13 ∧
        u.fld F.CFE_AQ_CFG.SQ_SPACE q = getField v 12 12 ∧ u.fld F.CFE_AQ_CFG.CQ_ORDER q = max 4 (min 16 (getField v 9 5)) ∧
        u.fld F.CFE_AQ_CFG.SQ_ORDER q = max 4 (min 16 (getField v 4 0)) ∧
        { s with queues := u.queues }.onlyRegs u [F.CFE_AQ_CFG.ENABLE.at q, F.CFE_Q_STATE.STATE.at q, F.CFE_Q_CPL.PRODUCED.at q]) ∧
    (1024 ≤ q → v.toNat.testBit 63 = false → s.fld F.CFE_AQ_CFG.ENABLE q = 1 →
      (s.inFlight q ≠ 0 → refused (.adminQueueDisable (q - 1024) v)) ∧
      (s.inFlight q = 0 → ∃ u : State, exec (.adminQueueDisable (q - 1024) v) s = .next u ∧ u.qState q = 0 ∧ u.qHead q = 0 ∧
        u.reg .CFE_Q_CPL q = 0 ∧ u.queue q = Queue.reset ∧ u.fld F.CFE_AQ_CFG.ENABLE q = 0 ∧ u.items = s.items))

/-- Fetching a descriptor (R256, R276, R277). A queue reads its ring when its turn comes, and not before. A slot whose SEQ is HEAD
becomes an item and HEAD moves on; a reserved OP completes it with DESC_INVALID; a RUN whose image would not fit its class's
share is not fetched, and its queue reads nothing until there is room. Another SEQ starts up to 16 further reads, each counted, after which an ACTIVE queue is FAULTED with STALE.
A ring on the bus is read over the bus under a free tag, for which the queue waits; where the function may not master the bus,
an ACTIVE queue is FAULTED with RING.
One slot at a time, and where a class's turn begins, are the model's choice (log entry 36).

Next states are stated of: descriptorFetch, descriptorRefetch. -/
def Obligations.QueueFetch : Prop :=
  ∀ (s : State) (q : Nat) (bs : List Byte) (s2 : State), s.canFetch q →
    let s1 : State := { s with fetchLast := SMap.insert s.fetchLast (s.creditOf q) q }
    let s3 := s2.modQueue q fun x => { x with fetchTag := none }
    let fits := s3.imageFits q (s3.imageRoom q bs)
    let took (i : Instr) (t : State) : Prop := ∃ u : State, exec i s = .next u ∧ u.qHead q = (t.qHead q + 1) % 2 ^ 32 ∧
      (u.queue q).refetch = none ∧ t.sameBytes u ∧
      (opReserved q (le bs 4 1) = false → ∃ k : Item, u.items = t.items ++ [k] ∧ k.queue = q ∧ k.seq = t.qHead q ∧ k.desc = bs ∧
        k.stage = .fetched) ∧
      (opReserved q (le bs 4 1) = true → u.itemEnded q (t.qHead q) 0x03 0 0xFF ∧ u.items.length = t.items.length + 1)
    let again (i : Instr) (t : State) (k : Nat) : Prop := ∃ u : State, exec i s = .next u ∧ u.items = t.items ∧
      u.qHead q = t.qHead q ∧ (u.queue q).refetch = some k ∧ t.sameBytes u
    let faulted (i : Instr) (t : State) (reason : Nat) : Prop := ∃ u : State, exec i s = .next u ∧ u.qState q = 3 ∧
      u.qFault q = reason ∧ u.fld F.CFE_Q_EVENT.FAULT q = 1 ∧ u.items = t.items ∧ (u.queue q).refetch = none ∧ t.sameBytes u
    let waits (i : Instr) : Prop := exec i s =
      .next (s3.modQueue q fun x => { x with refetch := none, room := s3.imageRoom q bs })
    let room := s.imageFits q (s.queue q).room
    ((s.fetchTurn q = false ∨ room = false) → exec (.descriptorFetch q) s = .next s) ∧
    (s.fetching q = false → s.fetchTurn q = true → room = true →
      (s1.slotAt q bs s2 → (s2.queue q).refetch = none →
        (le bs 0 4 = s2.qHead q → fits = true → took (.descriptorFetch q) s2) ∧
        (le bs 0 4 = s2.qHead q → fits = false → waits (.descriptorFetch q)) ∧
        (le bs 0 4 ≠ s2.qHead q → again (.descriptorFetch q) s2 1)) ∧
      (s.sqBus q = true → s.canMaster (s.qOwner q) = true → ∀ n, s.freeTagOf (.ring q) = some n →
        ∃ u : State, exec (.descriptorFetch q) s = .next u ∧ (u.queue q).fetchTag = some n ∧ s.sameBytes u ∧
          u.regs = s.regs ∧ u.items = s.items ∧ u.outs = s.outs ++ [Out.busRead n (s.qOwner q) (s.ideStream (s.qOwner q))
            (s.sqBase q + s.qHead q % 2 ^ s.sqOrder q * 64) 64]) ∧
      (s.sqBus q = true → s.canMaster (s.qOwner q) = true → s.freeTagOf (.ring q) = none →
        exec (.descriptorFetch q) s = .next s1) ∧
      (s.sqBus q = true → s.canMaster (s.qOwner q) = false → s.qState q = 1 → faulted (.descriptorFetch q) s 2)) ∧
    (∀ k : Nat, (s.queue q).refetch = some k → (s.queue q).fetchTag = none →
      (s.bump F.CFE_Q_STAT.REFETCH q 1).slotAt q bs s2 → (s2.queue q).refetch = some k →
        (le bs 0 4 = s2.qHead q → fits = true → took (.descriptorRefetch q) s2) ∧
        (le bs 0 4 = s2.qHead q → fits = false → waits (.descriptorRefetch q)) ∧
        (le bs 0 4 ≠ s2.qHead q → k < 16 → again (.descriptorRefetch q) s2 (k + 1)) ∧
        (le bs 0 4 ≠ s2.qHead q → 16 ≤ k → s2.qState q = 1 → faulted (.descriptorRefetch q) s2 1))

/-- Completion records (R279 to R282, R285, R286). The record of the item that completed first takes the next number and is
written to its slot: SEQ, STATUS, PHASE, the queue, the COOKIE, the course, and an admin command's RESULT; a failed write of an
ACTIVE queue blocks it and holds the record; a CPL_BLOCKED queue holds at most four; a ring on the bus is written over the bus,
with a read behind it under a free tag, for which it waits. A retire token returned by an idle engine is struck off, and the last one frees a queue that drains.

Next states are stated of: completionRecordWrite, retireToken. -/
def Obligations.QueueRecords : Prop :=
  ∀ (s : State) (q : Nat), q < 1033 →
    (∀ (i : Item) (st dt bl : Nat), s.oldestDone q = some i → i.stage = .finished st dt bl → s.writesRecords = true →
      s.starved (s.qPart q) = false → (s.queue q).writing = none → (s.queue q).resuming = false → i.queue = q →
      i.desc.length = 64 → i.seq < 2 ^ 32 → st < 2 ^ 8 → s.course < 2 ^ 64 →
      let n := s.fld F.CFE_Q_CPL.PRODUCED q
      let a := s.recSlot q n
      let produced (u : State) : Prop := u.fld F.CFE_Q_CPL.PRODUCED q = (n + 1) % 2 ^ 32 ∧
        u.fld F.CFE_Q_STAT.ITEMS q = min (s.fld F.CFE_Q_STAT.ITEMS q + 1) (2 ^ 32 - 1) ∧
        u.items = s.items.filter fun j => !(j.queue = q && j.seq = i.seq)
      let shows (bs : List Byte) (held : Bool) : Prop := bs.length = 32 ∧ le bs 0 4 = i.seq ∧ le bs 4 1 = st ∧
        le bs 6 2 = q ∧ slice bs 8 8 = slice i.desc 8 8 ∧ le bs 16 8 = s.course ∧
        (1024 ≤ q → le bs 24 8 = i.result % 2 ^ 64) ∧ (q < 1024 → le bs 24 2 = dt % 2 ^ 16 ∧ le bs 26 1 = bl % 2 ^ 8) ∧
        ((le bs 5 1).testBit 0 = true ↔ n / 2 ^ s.cqOrder q % 2 = 0) ∧
        ((le bs 5 1).testBit 1 = true ↔ st ≠ 0 ∧ i.begun = true) ∧ (le bs 5 1).testBit 2 = held
      let live := s.qState q = 1 ∨ s.qState q = 3
      (live → 1024 ≤ q → s.cqBus q = false → s.sound → s.halted = false → s.part.populatedRun a 32 = true →
        s.rangeOk (s.qPart q) a .write = true → ∃ (u : State) (bs : List Byte), exec (.completionRecordWrite q) s = .next u ∧
          produced u ∧ s.stored u a bs ∧ shows bs false ∧ (i.irq = false → u.outs = s.outs) ∧
          (i.irq = true → msixSent s u (q - 1024) (s.fld F.CFE_AQ_CFG.MSIX q))) ∧
      (live → q < 1024 → s.cqBus q = false → i.irq = false → ∀ (pa : Nat) (s2 : State), s2.sound → s2.halted = false →
        s2.qState q = s.qState q → (s.produce i).1.xlate 0 4 4 (s.qCtx q) a .write = ⟨.ok pa, s2⟩ → ∃ (u : State) (bs : List Byte),
          exec (.completionRecordWrite q) s = .next u ∧ s2.stored u pa bs ∧ shows bs false ∧ u.items = s2.items) ∧
      (s.qState q = 1 → 1024 ≤ q → s.cqBus q = false → s.part.populatedRun a 32 = false →
        ∃ u : State, exec (.completionRecordWrite q) s = .next u ∧ produced u ∧ u.qState q = 2 ∧
          u.fld F.CFE_Q_EVENT.CPL_FAIL q = 1 ∧ s.sameBytes u ∧
          ∃ r : HeldRec, (u.queue q).held = [r] ∧ r.num = n ∧ r.irq = i.irq ∧ shows r.bytes true) ∧
      (s.qState q = 2 → (s.queue q).held.length < 4 → ∃ u : State, exec (.completionRecordWrite q) s = .next u ∧ produced u ∧
        s.sameBytes u ∧ u.qState q = 2 ∧
        ∃ r : HeldRec, (u.queue q).held = (s.queue q).held ++ [r] ∧ r.num = n ∧ r.irq = i.irq ∧ shows r.bytes true) ∧
      (s.qState q = 2 → 4 ≤ (s.queue q).held.length → exec (.completionRecordWrite q) s = .next s) ∧
      (live → s.cqBus q = true → s.canMaster (s.qOwner q) = true →
        let f := s.qOwner q
        (∀ tag, s.freeTagOf (.record q) = some tag → ∃ (u : State) (r : HeldRec), exec (.completionRecordWrite q) s = .next u ∧
          produced u ∧ (u.queue q).writing = some (r, tag) ∧ shows r.bytes false ∧ s.sameBytes u ∧
          u.outs = s.outs ++ [Out.busWrite f (s.ideStream f) (a + 8) (r.bytes.drop 8) false,
            Out.busWrite f (s.ideStream f) a (r.bytes.take 8) false, Out.busRead tag f (s.ideStream f) a 0]) ∧
        (s.freeTagOf (.record q) = none → exec (.completionRecordWrite q) s = .next s))) ∧
    (∀ b : Nat, Engine.placer b ∈ (s.queue q).tokens → s.engineBusy q (.placer b) = false →
      let x := s.queue q
      (s.qState q ≠ 4 ∨ x.tokens ≠ [.placer b] → ∃ u : State, exec (.retireToken q (.placer b)) s = .next u ∧
        u.queue q = { x with tokens := x.tokens.erase (.placer b) } ∧ u = { s with queues := u.queues }) ∧
      (s.qState q = 4 → x.tokens = [.placer b] → x.writing = none → s.itemsOf q = [] → s.closePend = [] →
        ∀ d : Destroy, x.destroy = some d → ∀ i : Item, d.admin = some i.queue → d.seq = i.seq → i.queue ≠ q →
          ∃ u : State, exec (.retireToken q (.placer b)) s = .next u ∧ u.qState q = 0 ∧ u.qHead q = 0 ∧ u.reg .CFE_Q_CPL q = 0 ∧
            u.queue q = Queue.reset ∧ s.sameBytes u ∧
            u.adminEnded i 0 (min d.cancelled (2 ^ 32 - 1) + min d.discarded (2 ^ 16 - 1) * 2 ^ 32)))

/-- Work items (R255, R256, R273, R274). A NOP completes at once, or with AFTER once every earlier item has. A RUN item is checked
in the order of R274: a misaligned or overlong address, a context that is not valid, an image that cannot be read, is not valid
or is refused completes the item with its status; an accepted image is kept whole and its blocks wait, unless its class's share
of the image store has no room.

Next states are stated of: workNop, run. -/
def Obligations.WorkItems : Prop :=
  ∀ (s : State) (q : Nat), q < 1024 → s.ready = true →
    let ends (i : Instr) (seq st dt bl : Nat) (t : State) : Prop := ∃ u : State, exec i s = .next u ∧
      u.itemEnded q seq st dt bl ∧ u = { t with items := u.items, finishCtr := u.finishCtr }
    (∀ i : Item, s.unchecked q 0 = some i → s.ctxValid (s.qCtx q) = true →
      (i.after = false ∨ s.earlierDone i = true → ends (.workNop q) i.seq 0 0 0xFF s) ∧
      (i.after = true → s.earlierDone i = false → ∃ u : State, exec (.workNop q) s = .next u ∧ u = { s with items := u.items } ∧
        ∀ k ∈ u.items, k.queue = q → k.seq = i.seq → k.stage = .waiting)) ∧
    (∀ i : Item, s.unchecked q 0 = some i → s.ctxValid (s.qCtx q) = false → ∃ u : State, exec (.workNop q) s = .next u ∧
      u.itemEnded q i.seq 0x09 xNoContext 0xFF ∧ s.sameBytes u) ∧
    (∀ i : Item, s.unchecked q 0 = none → s.waitingNop q = some i → i.queue = q → ends (.workNop q) i.seq 0 0 0xFF s) ∧
    (∀ i : Item, s.unchecked q 1 = some i → s.starved (s.qPart q) = false →
      let ava := le i.desc 16 8
      let argsOk := ava % 64 = 0 ∧ ava < 2 ^ 48 ∧ le i.desc 24 8 < 2 ^ 48
      let cls := s.qClass q
      (¬ argsOk → ends (.run q) i.seq 0x03 0 0xFF s) ∧
      (argsOk → s.ctxValid (s.qCtx q) = true → (cls ≠ 0 ∨ (s.groupOf q).isSome = true) → ∀ (im : List Byte) (s2 : State),
        (∀ e : Nat × Nat, s.imageRead q ava = (im, some e, s2) → ends (.run q) i.seq e.1 e.2 0xFF s2) ∧
        (s.imageRead q ava = (im, none, s2) →
          (imageValid im = false → ends (.run q) i.seq 0x04 0 0xFF s2) ∧
          (imageValid im = true → ∀ e : Nat × Nat, s2.refusal cls (s2.qPart q) (s.groupOf q) im = some e →
            ends (.run q) i.seq e.1 0 e.2 s2) ∧
          (imageValid im = true → s2.refusal cls (s2.qPart q) (s.groupOf q) im = none →
            (s.imagesHeld cls (q, i.seq) + im.length ≤ imageShare cls → ∃ u : State, exec (.run q) s = .next u ∧
              u = { s2 with items := u.items } ∧
              u.items = s2.items.map fun k => if k.queue = q && k.seq = i.seq then
                { k with stage := .waiting, image := im, checked := s.ticks } else k) ∧
            (imageShare cls < s.imagesHeld cls (q, i.seq) + im.length → exec (.run q) s = .next s)))))

/-- A command that an admin queue offers is checked in the order of R290: one of a partition that is FREE is refused; rights come
before arguments, arguments by byte offset, then the command's own conditions; a command that fails has no effect but its
completion. ECHO returns its argument.

Next states are stated of: createQueue, destroyQueue, resetQueue, createContext, destroyContext, createResidentSet,
releaseResidentSet, moveResidentSet, partCreate, partDestroy, partAssignTiles, partAssignRange, echo. -/
def Obligations.AdminChecks : Prop :=
  ∀ (s : State) (a op : Nat) (i : Item), a < 9 → s.ready = true → s.unchecked (adminQ a) op = some i →
    let d := i.desc
    let ends (c : Instr) (st res : Nat) : Prop := ∃ u : State, exec c s = .next u ∧ u.adminEnded i st res ∧
      u = { s with items := u.items, finishCtr := u.finishCtr }
    let there := a = 0 ∨ s.partState (a - 1) ≠ 0
    (¬ there → ∀ p ∈ [(Instr.createQueue a, 0x01), (.destroyQueue a, 0x02), (.resetQueue a, 0x03), (.createContext a, 0x08),
        (.destroyContext a, 0x09), (.createResidentSet a, 0x10), (.releaseResidentSet a, 0x11), (.moveResidentSet a, 0x12),
        (.partCreate a, 0x20), (.partDestroy a, 0x21), (.partAssignTiles a, 0x22), (.partAssignRange a, 0x23), (.echo a, 0x30)],
      op = p.2 → ends p.1 0x02 0) ∧
    (there → op = 0x30 → ends (.echo a) 0 (le d 16 8)) ∧
    (there → a ≠ 0 → ∀ p ∈ [(Instr.partCreate a, 0x20), (.partDestroy a, 0x21), (.partAssignTiles a, 0x22),
        (.partAssignRange a, 0x23)], op = p.2 → ends p.1 0x12 0) ∧
    (there → ∀ p ∈ [(Instr.destroyQueue a, 0x02), (.resetQueue a, 0x03)], op = p.2 →
      (s.foreignQueue a (le d 16 2) = true → ends p.1 0x12 0) ∧ (1024 ≤ le d 16 2 → ends p.1 0x10 16)) ∧
    (there → op = 0x02 → le d 16 2 < 1024 → s.qState (le d 16 2) = 0 → ends (.destroyQueue a) 0x02 0) ∧
    (there → op = 0x03 → le d 16 2 < 1024 → s.foreignQueue a (le d 16 2) = false → s.qState (le d 16 2) ≠ 3 →
      ends (.resetQueue a) 0x02 0) ∧
    (there → op = 0x08 → a = 0 → 8 < le d 17 1 → ends (.createContext a) 0x10 17) ∧
    (there → op = 0x08 → a = 0 → le d 17 1 ≤ 8 → 2 ^ 44 ≤ le d 24 8 → ends (.createContext a) 0x10 24) ∧
    (there → op = 0x09 → s.ctxValid (le d 16 1) = false → ends (.destroyContext a) 0x02 0) ∧
    (there → op = 0x10 → s.foreignSet a d = true → ends (.createResidentSet a) 0x12 0) ∧
    (there → op = 0x10 → s.foreignSet a d = false → (le d 20 1 = 0 ∨ 12 < le d 20 1) → ends (.createResidentSet a) 0x10 20) ∧
    (there → op = 0x11 → s.rset (le d 16 4) = none → ends (.releaseResidentSet a) 0x02 0) ∧
    (there → op = 0x12 → s.foreignSet a d = true → ends (.moveResidentSet a) 0x12 0)

/-- The admin commands on queues (R286, R291): CREATE_QUEUE makes a FREE queue ACTIVE with the descriptor's values, HEAD and tail
at FIRST_SEQ, no records and no energy; RESET_QUEUE takes a FAULTED queue back to ACTIVE at NEW_SEQ; DESTROY_QUEUE drains a queue, which
without work is FREE at once and the command complete.

Next states are stated of: createQueue, resetQueue, destroyQueue. -/
def Obligations.QueueLifeCycle : Prop :=
  ∀ (s : State) (a : Nat) (i : Item),
    let d := i.desc
    let q := le d 16 2
    let ctx := le d 19 1
    let tag := s.ctxTag ctx
    let cls := le d 18 1
    let own (p : Nat) : Prop := (a = 0 ∧ (p = 8 ∨ s.partState p ≠ 2)) ∨ (a ≠ 0 ∧ p = a - 1)
    (s.offers a 0x01 i → q < 1024 → s.qState q = 0 → s.ctxValid ctx = true → own tag → cls < 4 →
      (cls = 0 → a = 0 ∧ ∃ g : Nat, s.groupOf q = some g ∧ tag = (s.c0i g).owner) →
      4 ≤ le d 20 1 → le d 20 1 ≤ 16 → 4 ≤ le d 21 1 → le d 21 1 ≤ 16 → 1 ≤ le d 23 1 → le d 24 8 % 4096 = 0 →
      le d 32 8 % 4096 = 0 → le d 40 2 < 2048 → 1 ≤ le d 42 1 → le d 42 1 ≤ 64 →
      ∃ u : State, exec (.createQueue a) s = .next u ∧ u.adminEnded i 0 0 ∧ u.qState q = 1 ∧ u.qHead q = le d 44 4 % 2 ^ 32 ∧
        u.qFault q = 0 ∧ u.reg .CFE_Q_CPL q = 0 ∧ u.queue q = { Queue.reset with tail := le d 44 4, timeout := le d 23 1 } ∧
        u.qOwner q = a ∧ u.qPart q = tag ∧ u.qCtx q = ctx ∧ u.qClass q = cls ∧ u.sqOrder q = le d 20 1 ∧
        u.cqOrder q = le d 21 1 ∧ u.sqBase q = le d 24 8 ∧ u.cqBase q = le d 32 8 ∧ u.fetchAhead q = le d 42 1 ∧
        u.fld F.CFE_Q_CFG.MSIX q = le d 40 2 ∧ u.fld F.CFE_Q_CTL.TIMEOUT q = le d 23 1 ∧
        u.fld F.CFE_Q_CFG.SQ_SPACE q = le d 22 1 % 2 ∧ u.fld F.CFE_Q_CFG.CQ_SPACE q = le d 22 1 / 2 % 2 ∧
        u.fld F.CFE_Q_CFG.MSIX_EN q = le d 22 1 / 4 % 2 ∧ u.fld F.PWR_EQ.ENERGY q = 0 ∧ (∀ k, k ≠ q → u.queue k = s.queue k) ∧
        { s with queues := u.queues, items := u.items, finishCtr := u.finishCtr, eview := u.eview }.onlyRegs u
          [F.CFE_Q_STATE.STATE.at q, F.PWR_EQ.ENERGY.at q, F.CFE_Q_CFG.OWNER.at q, F.CFE_Q_SQ_BASE.BASE.at q, F.CFE_Q_CQ_BASE.BASE.at q, F.CFE_Q_CPL.PRODUCED.at q,
          F.CFE_Q_CTL.TIMEOUT.at q]) ∧
    (s.offers a 0x03 i → q < 1024 → s.qState q = 3 → own (s.qPart q) →
      ∃ u : State, exec (.resetQueue a) s = .next u ∧ u.adminEnded i 0 0 ∧ u.qState q = 1 ∧ u.qFault q = 0 ∧
        u.qHead q = le d 20 4 % 2 ^ 32 ∧ (u.queue q).tail = le d 20 4 ∧ (u.queue q).refetch = none ∧
        (∀ k, k ≠ q → u.queue k = s.queue k) ∧
        { s with queues := u.queues, items := u.items, finishCtr := u.finishCtr }.onlyRegs u [F.CFE_Q_STATE.STATE.at q]) ∧
    (s.offers a 0x02 i → q < 1024 → (s.qState q = 1 ∨ s.qState q = 2 ∨ s.qState q = 3) → own (s.qPart q) →
      s.itemsOf q = [] → (s.queue q).held = [] → (s.queue q).writing = none → (∀ b ∈ s.blocks, b.queue ≠ q) → s.hods = [] →
      s.closePend = [] → ∃ u : State, exec (.destroyQueue a) s = .next u ∧ u.adminEnded i 0 0 ∧ u.qState q = 0 ∧
        u.qHead q = 0 ∧ u.reg .CFE_Q_CPL q = 0 ∧ u.queue q = Queue.reset ∧ s.sameBytes u ∧ u.blocks = s.blocks ∧
        s.regsBut u [F.CFE_Q_STATE.STATE.at q, F.CFE_Q_CPL.PRODUCED.at q, F.CFE_Q_CTL.TIMEOUT.at q]) ∧
    (s.offers a 0x02 i → q < 1024 → (s.qState q = 1 ∨ s.qState q = 3) → own (s.qPart q) → ∀ b ∈ s.blocks, b.queue = q →
      ∃ u : State, exec (.destroyQueue a) s = .next u ∧ u.qState q = 4 ∧ Engine.placer b.id ∈ (u.queue q).tokens ∧
        u.blocks = s.blocks ∧ (∀ p ∈ u.plan, p.queue ≠ q) ∧ s.sameBytes u ∧
        ∀ k ∈ u.items, k.queue = i.queue → k.seq = i.seq → k.stage = .active)

/-- Contexts and resident sets (R239, R252, R267, R269): CREATE_CONTEXT makes a context valid with its root and datum,
DESTROY_CONTEXT clears it and drops what is cached of it; CREATE_RESIDENT_SET gives the tiles R263 picks their plinth regions,
not yet valid, or answers NO_RESOURCES; RELEASE clears them; MOVE waits with the tiles it has picked.
When a move switches is the model's reading (log entry 41).

Next states are stated of: createContext, destroyContext, createResidentSet, releaseResidentSet, moveResidentSet. -/
def Obligations.AdminObjects : Prop :=
  ∀ (s : State) (a : Nat) (i : Item),
    let d := i.desc
    let c := le d 16 1
    let own (p : Nat) : Prop := (a = 0 ∧ (p = 8 ∨ s.partState p ≠ 2)) ∨ (a ≠ 0 ∧ p = a - 1)
    (s.offers a 0x08 i → own (le d 17 1) → le d 17 1 ≤ 8 → s.ctxValid c = false → le d 24 8 < 2 ^ 44 →
      le d 32 8 % 2 ^ 30 = 0 → le d 32 8 ≤ 2 ^ 57 - 2 ^ 30 →
      ∃ u : State, exec (.createContext a) s = .next u ∧ u.adminEnded i 0 0 ∧ u.ctxValid c = true ∧ u.ctxTag c = le d 17 1 ∧
        u.fld F.XLT_CTX_ROOT.MODE c = 10 ∧ u.fld F.XLT_CTX_ROOT.PPN c = le d 24 8 ∧
        u.fld F.XLT_CTX_DATUM.DATUM c * 2 ^ 30 = le d 32 8 ∧
        { s with items := u.items, finishCtr := u.finishCtr }.onlyRegs u
          [F.XLT_CTX_ROOT.PPN.at c, F.XLT_CTX_DATUM.DATUM.at c]) ∧
    (s.offers a 0x09 i → s.ctxValid c = true → own (s.ctxTag c) → s.ctxBound c = false →
      ∃ u : State, exec (.destroyContext a) s = .next u ∧ u.adminEnded i 0 0 ∧ u.ctxValid c = false ∧
        (∀ e, e ∈ u.xlt ↔ e ∈ s.xlt ∧ e.ctx ≠ c) ∧
        { s with items := u.items, finishCtr := u.finishCtr, xlt := u.xlt }.onlyRegs u
          [F.XLT_CTX_ROOT.PPN.at c, F.XLT_CTX_DATUM.DATUM.at c]) ∧
    (s.offers a 0x10 i → 1 ≤ le d 20 1 → le d 20 1 ≤ 12 → (le d 21 1 = 0xFF ∨ le d 21 1 < s.part.dies) → 1 ≤ le d 22 2 →
      le d 22 2 ≤ 800 → s.rset (le d 16 4) = none →
      let pick := s.setTiles (adminPart a) (le d 20 1) (le d 21 1) (le d 22 2)
      (∀ ts : List Nat, pick = some ts → ∃ u : State, exec (.createResidentSet a) s = .next u ∧
        u.adminEnded i 0 (ts.headD 0) ∧
        u.sets = s.sets ++ [⟨le d 16 4, adminPart a, ts, le d 20 1, false, none, none, false, false, []⟩] ∧
        (∀ t ∈ ts, u.fld F.SCP_PLINTH.VALID t = 0 ∧ u.fld F.SCP_PLINTH.BANKS t = le d 20 1 ∧
          u.fld F.SCP_PLINTH.PARTITION t = adminPart a ∧ u.fld F.SCP_PLINTH.SET_ID t = le d 16 4) ∧
        u.mem = s.mem ∧ s.regsBut u (ts.map F.SCP_PLINTH.VALID.at)) ∧
      (pick = none → ∃ u : State, exec (.createResidentSet a) s = .next u ∧ u.adminEnded i 0x11 0 ∧
        u = { s with items := u.items, finishCtr := u.finishCtr })) ∧
    (∀ r : RSet, s.namedSet d = some r → own r.part →
      (s.offers a 0x11 i → s.setBusy r.id = false → r.moving = none → r.moveAdmin = none →
        ∃ u : State, exec (.releaseResidentSet a) s = .next u ∧ u.adminEnded i 0 0 ∧
          u.sets = s.sets.filter (fun x => x.id ≠ r.id) ∧ (∀ t ∈ r.members, u.reg .SCP_PLINTH t = 0) ∧
          { s with items := u.items, finishCtr := u.finishCtr, sets := u.sets }.onlyRegs u (r.members.map F.SCP_PLINTH.VALID.at)) ∧
      (s.offers a 0x12 i → r.moving = none → (le d 21 1 = 0xFF ∨ le d 21 1 < s.part.dies) →
        let pick := s.setTiles r.part r.banks (le d 21 1) r.members.length
        (∀ ts : List Nat, pick = some ts → ∃ u : State, exec (.moveResidentSet a) s = .next u ∧
          (∀ k ∈ u.items, k.queue = i.queue → k.seq = i.seq → k.stage = .active) ∧
          u.sets = s.sets.map (fun x => if x.id = r.id then
            { x with moving := some ts, moveAdmin := some (i.queue, i.seq) } else x) ∧
          u = { s with items := u.items, sets := u.sets }) ∧
        (pick = none → ∃ u : State, exec (.moveResidentSet a) s = .next u ∧ u.adminEnded i 0x11 0 ∧
          u = { s with items := u.items, finishCtr := u.finishCtr })))

/-- Partition commands of A0, the end of a closing partition, and the TDIs (R388 to R392, R394 to R397).

Partition commands of A0 (R209, R366, R388 to R392, R394, R395): PART_CREATE makes a FREE partition ACTIVE with its cores, a new
primary slot, no energy and the tiles of its C0 groups; PART_DESTROY closes one without queues and leaves its ranges PENDING;
PART_ASSIGN_TILES passes tiles over. PART_ASSIGN_RANGE of a range to the owner and slot it has sets SHARE at once; any other makes
it PENDING and has every slice evict it, and when the last has done so (MTC_CMD_DONE) the range has its owner, slot and SHARE and
the command is complete: a new key changes no byte outside its range.

A CLOSING partition closes (R209, R391), range by range: the next one becomes PENDING and every slice evicts it on its way to
the operator; while one passes there is nothing else to do. With none left the partition's tiles pass to the operator, its
contexts, resident sets, cores and slots are gone, nothing is held for its contents, its TDI, if locked, enters ERROR, and it
is FREE.

The TDIs (R396, R397): LOCK_INTERFACE_REQUEST, once no write is on its way, locks an ACTIVE partition whose VF has a secure stream and an unlocked TDI, and
answers an error otherwise; STOP_INTERFACE unlocks the TDI; a locked partition whose TDI leaves its state, by a stop or an IDE
failure, closes once its queues are FREE.
That the TDISP and IDE conditions are those named is presumed (log entry 66).

Next states are stated of: partCreate, partDestroy, partAssignTiles, partAssignRange, mtcCmdDone, partitionClose,
lockInterfaceRequest, stopInterface, ideIntegrityFail. -/
def Obligations.Partitions : Prop :=
  (∀ (s : State) (i : Item),
      let d := i.desc
      let p := le d 16 1
      let m := le d 24 12
      (s.offers 0 0x20 i → p < 8 → m < 2 ^ s.part.cores → s.partState p = 0 → s.trust.bank.isSome = true →
        (∀ r, r < 8 → s.partState r ≠ 0 → s.partCores r &&& m = 0) →
        (∀ k : Nat, s.freeSlot = some k → ∃ u : State, exec (.partCreate 0) s = .next u ∧ u.adminEnded i 0 k ∧ u.partState p = 1 ∧
          u.fld F.SEC_PART.SLOT p = k ∧ u.fld F.SEC_PART.TDI p = 0 ∧ u.fld F.PWR_EPART.ENERGY p = 0 ∧ u.partCores p = m ∧ SMap.find? u.trust.slots k = some p ∧
          (∀ r, r < 8 → r ≠ p → u.reg .SEC_PART r = s.reg .SEC_PART r) ∧ u.mem = s.mem ∧
          ∀ g, g < 16 → s.fld F.CRS_C0_GROUP.VALID g = 1 → (s.c0i g).owner = p → ∀ t ∈ s.groupTiles g, u.tileOwnerOf t = p) ∧
        (s.freeSlot = none → ∃ u : State, exec (.partCreate 0) s = .next u ∧ u.adminEnded i 0x11 0 ∧ u.regs = s.regs)) ∧
      (s.offers 0 0x21 i → p < 8 → (s.partState p = 1 ∨ s.partState p = 2) → s.partQueues p = false →
        ∃ u : State, exec (.partDestroy 0) s = .next u ∧ u.adminEnded i 0 (s.rangesOf p).length ∧ u.partState p = 3 ∧
          (∀ n ∈ s.rangesOf p, u.fld F.SEC_RANGE.PENDING n = 1 ∧ u.fld F.SEC_RANGE.OWNER n = p) ∧ s.sameBytes u ∧
          u = { s with regs := u.regs, items := u.items, finishCtr := u.finishCtr }) ∧
      (s.offers 0 0x22 i →
        let n := le d 20 2
        let ts := (List.range n).map (le d 18 2 + ·)
        p ≤ 8 → 1 ≤ n → n ≤ 800 → le d 18 2 + n ≤ s.part.tiles → s.partState p = 1 →
        (∀ t ∈ ts, s.c0Of t = none ∧ s.partState (s.tileOwnerOf t) = 1 ∧ t ∉ s.heldTiles ∧
          ∀ r ∈ s.sets, t ∉ r.members ∧ t ∉ r.moving.getD []) →
        ∃ u : State, exec (.partAssignTiles 0) s = .next u ∧ u.adminEnded i 0 (ts.filter (s.tileOwnerOf · ≠ p)).length ∧
          (∀ t, u.tileOwnerOf t = if t ∈ ts then p else s.tileOwnerOf t) ∧
          u = { s with tileOwner := u.tileOwner, items := u.items, finishCtr := u.finishCtr }) ∧
      (s.offers 0 0x23 i →
        let n := le d 16 2
        let o := le d 18 1
        let x := le d 19 1
        let has (k : Nat) : Prop := s.fld F.SEC_RANGE.OWNER n = o ∧ s.fld F.SEC_RANGE.SLOT n = k
        s.board.rails = true → n < 2048 → s.part.populated (n * 2 ^ 30) = true → o ≤ 8 → (o = 8 ∨ le d 20 1 = 0) →
        s.partState (s.fld F.SEC_RANGE.OWNER n) = 1 → s.partState o = 1 → s.fld F.SEC_RANGE.PENDING n = 0 →
        (∀ k, (x < 64 ∧ SMap.find? s.trust.slots x = some o ∧ k = x) ∨ (x = 0xFE ∧ k = s.primary o) ∨
            (x = 0xFF ∧ s.freeSlot = some k) →
          (has k → ∃ u : State, exec (.partAssignRange 0) s = .next u ∧ u.adminEnded i 0 k ∧
            u.fld F.SEC_RANGE.SHARE n = le d 20 1 ∧
            { s with items := u.items, finishCtr := u.finishCtr }.onlyRegs u [F.SEC_RANGE.SHARE.at n]) ∧
          (¬ has k → s.packets = [] → ∃ u : State, exec (.partAssignRange 0) s = .next u ∧ u.fld F.SEC_RANGE.PENDING n = 1 ∧
            u.fld F.SEC_RANGE.OWNER n = s.fld F.SEC_RANGE.OWNER n ∧ u.fld F.SEC_RANGE.SLOT n = s.fld F.SEC_RANGE.SLOT n ∧
            SMap.find? u.trust.slots k = some o ∧ (∀ j ∈ u.items, j.queue = i.queue → j.seq = i.seq → j.stage = .active) ∧
            (∀ e, e < s.part.dies → u.fld F.MTC_CMD.BUSY e = 1) ∧ (s.sound → s.sameBytes u) ∧
            ∃ r ∈ u.passes, r.range = n ∧ r.owner = o ∧ r.slot = k ∧ r.share = le d 20 1 ∧ r.admin = some (i.queue, i.seq))) ∧
        (x = 0xFF → s.freeSlot = none → ∃ u : State, exec (.partAssignRange 0) s = .next u ∧ u.adminEnded i 0x11 0 ∧
          u.regs = s.regs)) ∧
      ∀ (e n o k share : Nat), n < 2048 → o ≤ 8 → k < 64 → share < 256 → s.fld F.MTC_CMD.BUSY e = 1 →
        s.passes = [⟨n, o, k, share, some (i.queue, i.seq), [], [e]⟩] →
        ∃ u : State, exec (.mtcCmdDone e) s = .next u ∧ u.adminEnded i 0 k ∧ u.passes = [] ∧ u.fld F.MTC_CMD.BUSY e = 0 ∧
          u.fld F.SEC_RANGE.OWNER n = o ∧ u.fld F.SEC_RANGE.SLOT n = k ∧ u.fld F.SEC_RANGE.SHARE n = share ∧
          u.fld F.SEC_RANGE.PENDING n = 0 ∧ u.scr = s.scr ∧
          ∀ a, (a / 2 ^ 30 ≠ n ∨ s.fld F.SEC_RANGE.SLOT n = k) → u.memByte a = s.memByte a) ∧
  (∀ (s : State) (p : Nat), p < 8 → s.board.rails = true → s.partState p = 3 →
      ((∃ r ∈ s.passes, r.range ∈ s.rangesOf p) → exec (.partitionClose p) s = .next s) ∧
      (∀ n ns, s.rangesOf p = n :: ns → (∀ r ∈ s.passes, r.range ∉ s.rangesOf p) → s.packets = [] →
        ∃ u : State, exec (.partitionClose p) s = .next u ∧ u.partState p = 3 ∧ u.fld F.SEC_RANGE.PENDING n = 1 ∧
          u.fld F.SEC_RANGE.OWNER n = p ∧ (∀ e, e < s.part.dies → u.fld F.MTC_CMD.BUSY e = 1) ∧ (s.sound → s.sameBytes u) ∧
          ∃ r ∈ u.passes, r.range = n ∧ r.owner = 8 ∧ r.slot = 0 ∧ r.share = 0 ∧ r.admin = none) ∧
      (s.rangesOf p = [] → ∃ u : State, exec (.partitionClose p) s = .next u ∧ u.partState p = 0 ∧
        (∀ n, n < 2048 → u.reg .SEC_RANGE n = s.reg .SEC_RANGE n) ∧
        u.tilesOf p = [] ∧ (∀ t, t ∉ s.tilesOf p → u.tileOwnerOf t = s.tileOwnerOf t) ∧
        (∀ c, c < 256 → s.ctxTag c = p → u.ctxValid c = false) ∧ (∀ r ∈ u.sets, r ∈ s.sets ∧ r.part ≠ p) ∧
        u.partCores p = 0 ∧ (∀ e ∈ u.trust.slots, e ∈ s.trust.slots ∧ e.2 ≠ p) ∧
        (∀ e ∈ u.tileHolder, e.2 ≠ p) ∧ (∀ e ∈ u.bankHolder, e.2 ≠ p) ∧ s.sameBytes u ∧
        (let tdi := s.fld F.SEC_PART.TDI p
         u.fld F.SEC_PART.TDI p = if tdi = 1 ∨ tdi = 2 then 3 else tdi) ∧
        ∀ r, r < 8 → r ≠ p → u.reg .SEC_PART r = s.reg .SEC_PART r)) ∧
  (∀ (s : State) (vf : Nat), 1 ≤ vf → vf ≤ 8 →
      let p := vf - 1
      let lockable := s.partState p = 1 ∧ s.ideSecure vf = true ∧ s.fld F.SEC_PART.TDI p = 0
      let answer (n : Byte) : List Out := s.outs ++ [Out.spdm 0x7E [n]]
      let closes (u : State) (tdi : Nat) : Prop := s.queues = [] → s.closePend = [] → u.partState p = 3 ∧ u.closePend = [] ∧
        u.fld F.SEC_PART.TDI p = tdi ∧ s.sameBytes u
      let tdi := s.fld F.SEC_PART.TDI p
      (s.shusisUp = true →
        (lockable → s.packets = [] → ∃ u : State, exec (.lockInterfaceRequest vf) s = .next u ∧ u.partState p = 2 ∧
          u.fld F.SEC_PART.TDI p = 1 ∧ u.outs = answer 1 ∧ { s with outs := u.outs }.onlyRegs u [F.SEC_PART.STATE.at p]) ∧
        (¬ lockable → ∃ u : State, exec (.lockInterfaceRequest vf) s = .next u ∧ u = { s with outs := answer 0 }) ∧
        ∃ u : State, exec (.stopInterface vf) s = .next u ∧
          (s.partState p ≠ 2 → u.fld F.SEC_PART.TDI p = 0 ∧ u.outs = answer 1 ∧
            { s with outs := u.outs }.onlyRegs u [F.SEC_PART.STATE.at p]) ∧
          (s.partState p = 2 → closes u 0)) ∧
      (s.board.rails = true → s.ideSecure vf = true → ∃ u : State, exec (.ideIntegrityFail vf) s = .next u ∧
        u.ideSecure vf = false ∧ (s.partState p ≠ 2 → u = { s with trust := u.trust }) ∧
        (s.partState p = 2 → closes u (if tdi = 1 ∨ tdi = 2 then 3 else tdi))))

/-- Debt (R30 to R32): at a C1 to C3 close while the accelerator is READY, with a lost host too, the debt grows by the pool tiles late blocks hold and shrinks by what is
withheld from the C2 and then the C3 portion; above 1,024 units it raises SCHED_SLIP once, counts it and sends its record, and
not again before it has fallen to 512 or less. No block starts or stops there. That the thresholds are compared with what the
close's withholding leaves is the model's choice (log entry 101).

Next states are stated of: c1C3SnapshotClose. -/
def Obligations.SchedSlip : Prop :=
  ∀ (s : State), s.timer = true → s.closed13 = false → s.ready = true → s.halted = false →
    let c2 := s.fld F.CRS_SHARE.C2_SHARE 0
    let c3 := s.fld F.CRS_SHARE.C3_SHARE 0
    let p := max 1 s.pool
    let grown := s.debt + (256 * s.lateTiles + p - 1) / p
    let debt := grown - min grown c2 - min (grown - min grown c2) c3
    let count := s.fld F.CRS_EVENT.SLIP_COUNT 0
    ∃ u : State, exec .c1C3SnapshotClose s = .next u ∧ u.debt = debt ∧ u.fld F.CRS_DEBT.DEBT 0 = min debt (2 ^ 24 - 1) ∧
      u.closed13 = true ∧ u.blocks = s.blocks ∧ u.mem = s.mem ∧
      (1024 < debt → s.slip = false → u.slip = true ∧ u.fld F.CRS_EVENT.SCHED_SLIP 0 = 1 ∧
        u.fld F.CRS_EVENT.SLIP_COUNT 0 = min (count + 1) (2 ^ 32 - 1) ∧
        s.took u uFrontEnd 0x0101 debt) ∧
      (debt ≤ 1024 ∨ s.slip = true → u.fld F.CRS_EVENT.SLIP_COUNT 0 = count ∧
        u.fld F.CRS_EVENT.SCHED_SLIP 0 = s.fld F.CRS_EVENT.SCHED_SLIP 0) ∧
      (512 < debt → s.slip = true → u.slip = true) ∧ (debt ≤ 512 → u.slip = false) ∧
      (512 < debt → debt ≤ 1024 → u.slip = s.slip)

/-- Closes and boundaries (R14, R19, R20, R22, R34, R104, R288, R314): while the timer runs, a boundary advances the course, but
for the first, restarts CRS_NOW, applies every queue's timeout and starts every planned block on its tiles; with a lost host
nothing starts, and before READY or after a halt nothing does either. Closes made then only count as made, and
a second one has no effect. A C0 close counts late C0 blocks and, unless the host is lost, plans the head of each group's queue.
That closes come as their commands do is the model's choice (log entry 23).

Next states are stated of: c1C3SnapshotClose, c0SnapshotClose, courseBoundary. -/
def Obligations.Courses : Prop :=
  ∀ (s : State), s.timer = true →
    let idle := s.ready = false ∨ s.halted = true
    (s.closed13 = true → exec .c1C3SnapshotClose s = .next s) ∧ (s.closed0 = true → exec .c0SnapshotClose s = .next s) ∧
    (s.closed13 = false → idle → exec .c1C3SnapshotClose s = .next { s with closed13 := true }) ∧
    (s.closed0 = false → idle → exec .c0SnapshotClose s = .next { s with closed0 := true }) ∧
    (s.closed0 = false → ¬ idle →
      let late := (s.blocks.filter fun b => b.cls = 0 && b.start = s.course).length
      ∃ u : State, exec .c0SnapshotClose s = .next u ∧ u.closed0 = true ∧ u.blocks = s.blocks ∧ u.mem = s.mem ∧
        u.fld F.CRS_EVENT.C0_LATE_COUNT 0 = min (s.fld F.CRS_EVENT.C0_LATE_COUNT 0 + late) (2 ^ 16 - 1) ∧
        (0 < late → u.fld F.CRS_EVENT.C0_LATE 0 = 1) ∧
        (s.fld F.HOD_HOSTLOSS.STATE 0 ≠ 0 → u.plan = s.plan) ∧
        (late = 0 → s.fld F.HOD_HOSTLOSS.STATE 0 = 0 → ∀ g, g < 16 → (∀ h, h < 16 → (s.fld F.CRS_C0_GROUP.VALID h = 1 ↔ h = g)) →
          let q := s.fld F.CRS_C0_GROUP.QUEUE g
          s.qState q ≠ 0 → s.qClass q = 0 → ∀ (i : Item) (idx : Nat) (pl : Planned) (c : Rat) (s2 : State),
            { s with closed0 := true }.head q none = (some (i, idx, .now pl c), s2) → u.plan = s2.plan ++ [pl])) ∧
    (∀ m : Option Nat, ∃ u : State, exec (.courseBoundary m) s = .next u ∧ u.started = true ∧ u.closed13 = false ∧
      u.closed0 = false ∧ u.course = (if s.started then (s.course + 1) % 2 ^ 64 else s.course) ∧ u.fld F.CRS_NOW.TICK 0 = 0 ∧
      (∀ q x, SMap.find? s.queues q = some x → (u.queue q).timeout = s.fld F.CFE_Q_CTL.TIMEOUT q) ∧
      (s.ready = false ∨ s.halted = true → u.plan = s.plan ∧ u.blocks = s.blocks) ∧
      (s.ready = true → s.halted = false → u.plan = [] ∧
        (s.fld F.HOD_HOSTLOSS.STATE 0 ≠ 0 → u.blocks = s.blocks) ∧
        (s.fld F.HOD_HOSTLOSS.STATE 0 = 0 → (∀ r ∈ s.sets, r.planned = false) → ∀ (p : Planned) (i : Item), s.plan = [p] →
          s.item p.queue p.seq = some i → (∀ t ∈ p.tiles, t < 800) → p.tiles.Nodup →
          (∃ b ∈ u.blocks, b.id = s.nextBlock ∧ b.queue = p.queue ∧ b.seq = p.seq ∧ b.idx = p.idx ∧ b.tiles = p.tiles ∧
            b.banks = p.banks ∧ b.start = u.course ∧ b.part = s.qPart p.queue ∧ b.ctx = s.qCtx p.queue) ∧
          ∀ t ∈ p.tiles, (u.tile t).block = some s.nextBlock ∧ u.fld F.TSQ_STATE.RUN t = 1)))

/-- CRS_SHARE and CRS_SLICE (R37): a write applies within its range, and counts in CFG_EPOCH where it changes a value; no plan
already built is changed.

Next states are stated of: crsShareWrite, crsSliceWrite. -/
def Obligations.ShareWrites : Prop :=
  ∀ (s : State) (v : BitVec 64), s.board.rails = true →
    let cap (n : Nat) : Nat := max 1 (min 64 n)
    let counted (u : State) : Prop := u.fld F.CFG_EPOCH.EPOCH 0 = (s.fld F.CFG_EPOCH.EPOCH 0 + 1) % 2 ^ 64 ∧
      u.fld F.CFG_EVENT.EPOCH 0 = 1
    (∃ u : State, exec (.crsShareWrite v) s = .next u ∧ u.fld F.CRS_SHARE.C2_SHARE 0 = min 128 (getField v 15 8) ∧
      u.fld F.CRS_SHARE.C3_SHARE 0 = min 128 (getField v 7 0) ∧
      s.onlyRegs u [F.CRS_SHARE.C2_SHARE.at 0, F.CFG_EPOCH.EPOCH.at 0, F.CFG_EVENT.EPOCH.at 0] ∧
      (u.reg .CRS_SHARE 0 ≠ s.reg .CRS_SHARE 0 → counted u) ∧
      (u.reg .CRS_SHARE 0 = s.reg .CRS_SHARE 0 → u = s)) ∧
    ∃ u : State, exec (.crsSliceWrite v) s = .next u ∧ u.fld F.CRS_SLICE.C1_SLICE 0 = cap (getField v 6 0) ∧
      u.fld F.CRS_SLICE.C2_SLICE 0 = cap (getField v 13 7) ∧ u.fld F.CRS_SLICE.C3_SLICE 0 = cap (getField v 20 14) ∧
      s.onlyRegs u [F.CRS_SLICE.C1_SLICE.at 0, F.CFG_EPOCH.EPOCH.at 0, F.CFG_EVENT.EPOCH.at 0] ∧
      (u.reg .CRS_SLICE 0 ≠ s.reg .CRS_SLICE 0 → counted u) ∧ (u.reg .CRS_SLICE 0 = s.reg .CRS_SLICE 0 → u = s)

/-- A step takes the command at the front of the queue: it is the command's effect on the state with the queue's rest. With no
command waiting it is one reference tick, the model's choice (log entry 2). -/
def Obligations.StepRunsFront : Prop :=
  (∀ (c : Instr) (rest : List Instr) (s : State), step { s with pending := c :: rest } = exec c { s with pending := rest }) ∧
    ∀ s : State, s.pending = [] → step s = .next s.tick

/-- No command stops the machine: each answers a next state in every state, and leaves the queue of waiting commands alone. -/
def Obligations.CommandsAnswer : Prop :=
  ∀ (c : Instr) (s : State), ∃ u : State, exec c s = .next u ∧ u.pending = s.pending

/-- Right after a power-on reset (R6, R233, R402, R416) nothing runs or waits, no queue, partition or context exists, memory and
scratch read zero and are in canonical form, the accelerator is not READY, and the capability registers show the part (a
CZ-9768: the model's choice, log entry 6). -/
def Obligations.ResetState : Prop :=
  let s := State.reset
  Memory.wf s = true ∧ Scratch.wf s = true ∧ s.pending = [] ∧ s.blocks = [] ∧ s.items = [] ∧ s.ready = false ∧
    s.halted = false ∧ s.timer = false ∧ s.fld F.CFG_STATE.PHASE 0 = 0 ∧ s.shows .cz9768 ∧
    (∀ a, s.memByte a = 0) ∧ (∀ a, SMap.get s.scr 0 a = 0) ∧ (∀ q, q < 1033 → s.qState q = 0) ∧
    (∀ p, p < 8 → s.partState p = 0) ∧ (∀ c, c < 256 → s.ctxValid c = false) ∧
    (∀ n, n < 2048 → s.fld F.SEC_RANGE.OWNER n = 8) ∧ ∀ t, t < 800 → s.fld F.TSQ_STATE.RUN t = 0

/-- External memory and scratch stay in canonical form at every step: addresses rise strictly, and no entry equals what its
address is known to read as when it is not listed. -/
def Obligations.MemoryCanonical : Prop :=
  ∀ s u : State, Memory.wf s = true → Scratch.wf s = true → step s = .next u → Memory.wf u = true ∧ Scratch.wf u = true

/-- The part and the capability registers that show it (R439) stay the same at every step. -/
def Obligations.CapabilitiesFixed : Prop :=
  ∀ s u : State, step s = .next u → u.part = s.part ∧ u.shows s.part
end

