-- ==== Sys2Proof/Decode.lean ====
section
/-! DEFINITION. Decode.lean: the command that a word spells by the opcode table's bits. -/
namespace Sys2Proof

/-- The opcode table gives no row any bits: commands are register accesses, protocol messages, pin events and events of the
module's own engines. No word spells one. -/
def decodeTableWord (_nbits _w : Nat) : Option Instr := none

end Sys2Proof
end

