-- ==== Sys2Proof/Laws/Bits.lean ====
section
/-! SUPPORT. Laws/Bits.lean: what reading a bit field after replacing one gives. -/
namespace Sys2Proof.Machine

theorem bits_lt (x hi lo : Nat) : bits x hi lo < 2 ^ (hi + 1 - lo) := Nat.mod_lt _ (by positivity)

theorem mul_add_lt {a n c m : Nat} (h : a < n) (hc : c < m) : a * m + c < n * m := by
  have : (a + 1) * m ≤ n * m := Nat.mul_le_mul_right m h
  rw [add_mul] at this; omega

/-- A number in three parts around a field. -/
theorem bits_split (x hi lo : Nat) (h : lo ≤ hi) :
    x = x / 2 ^ (hi + 1) * 2 ^ (hi + 1) + bits x hi lo * 2 ^ lo + x % 2 ^ lo := by
  have e : 2 ^ (hi + 1) = 2 ^ (hi + 1 - lo) * 2 ^ lo := by rw [← pow_add]; congr 1; omega
  unfold bits
  rw [Nat.shiftRight_eq_div_pow, e, ← mul_assoc, ← add_mul, mul_comm (2 ^ (hi + 1 - lo)) (2 ^ lo), ← Nat.div_div_eq_div_mul]
  have h1 := Nat.div_add_mod (x / 2 ^ lo) (2 ^ (hi + 1 - lo))
  have h2 := Nat.div_add_mod x (2 ^ lo)
  rw [mul_comm _ (2 ^ (hi + 1 - lo)), h1, mul_comm _ (2 ^ lo), h2]

/-- The field read back after a replacement. -/
theorem bits_join (a b c hi lo : Nat) (h : lo ≤ hi) (hb : b < 2 ^ (hi + 1 - lo)) (hc : c < 2 ^ lo) :
    bits (a * 2 ^ (hi + 1) + b * 2 ^ lo + c) hi lo = b := by
  have e : 2 ^ (hi + 1) = 2 ^ (hi + 1 - lo) * 2 ^ lo := by rw [← pow_add]; congr 1; omega
  unfold bits
  rw [Nat.shiftRight_eq_div_pow, e]
  have : (a * (2 ^ (hi + 1 - lo) * 2 ^ lo) + b * 2 ^ lo + c) / 2 ^ lo = a * 2 ^ (hi + 1 - lo) + b := by
    rw [← mul_assoc, ← add_mul, Nat.add_comm _ c, Nat.add_mul_div_right _ _ (by positivity), Nat.div_eq_of_lt hc]; omega
  rw [this, Nat.add_comm, Nat.add_mul_mod_self_right, Nat.mod_eq_of_lt hb]

theorem setField_toNat (w : Word) (hi lo v : Nat) (h : lo ≤ hi) (hh : hi < 64) :
    (setField w hi lo v).toNat =
      w.toNat / 2 ^ (hi + 1) * 2 ^ (hi + 1) + v % 2 ^ (hi + 1 - lo) * 2 ^ lo + w.toNat % 2 ^ lo := by
  have s := bits_split w.toNat hi lo h
  have hv : v % 2 ^ (hi + 1 - lo) < 2 ^ (hi + 1 - lo) := Nat.mod_lt _ (by positivity)
  have hl : w.toNat % 2 ^ lo < 2 ^ lo := Nat.mod_lt _ (by positivity)
  have e : 2 ^ (hi + 1) = 2 ^ (hi + 1 - lo) * 2 ^ lo := by rw [← pow_add]; congr 1; omega
  have hq : w.toNat / 2 ^ (hi + 1) < 2 ^ (63 - hi) := by
    apply Nat.div_lt_of_lt_mul
    rw [← pow_add]
    have : hi + 1 + (63 - hi) = 64 := by omega
    rw [this]; exact w.isLt
  have e64 : 2 ^ 64 = 2 ^ (63 - hi) * 2 ^ (hi + 1) := by rw [← pow_add]; congr 1; omega
  unfold setField
  simp only [Nat.shiftLeft_eq, BitVec.toNat_ofNat]
  have lt : w.toNat / 2 ^ (hi + 1) * 2 ^ (hi + 1) + v % 2 ^ (hi + 1 - lo) * 2 ^ lo + w.toNat % 2 ^ lo < 2 ^ 64 := by
    rw [e64]
    have h1 : v % 2 ^ (hi + 1 - lo) * 2 ^ lo + w.toNat % 2 ^ lo < 2 ^ (hi + 1) := by rw [e]; exact mul_add_lt hv hl
    rw [add_assoc]; exact mul_add_lt hq h1
  have eq : w.toNat - bits w.toNat hi lo * 2 ^ lo + v % 2 ^ (hi + 1 - lo) * 2 ^ lo =
      w.toNat / 2 ^ (hi + 1) * 2 ^ (hi + 1) + v % 2 ^ (hi + 1 - lo) * 2 ^ lo + w.toNat % 2 ^ lo := by omega
  rw [eq, Nat.mod_eq_of_lt lt]

/-- A field reads back what was put there, cut to its width. -/
theorem getField_setField (w : Word) (hi lo v : Nat) (h : lo ≤ hi) (hh : hi < 64) :
    getField (setField w hi lo v) hi lo = v % 2 ^ (hi + 1 - lo) := by
  unfold getField
  rw [setField_toNat w hi lo v h hh]
  exact bits_join _ _ _ hi lo h (Nat.mod_lt _ (by positivity)) (Nat.mod_lt _ (by positivity))

theorem getField_testBit (w : Word) (hi lo i : Nat) :
    (getField w hi lo).testBit i = (decide (i < hi + 1 - lo) && w.toNat.testBit (lo + i)) := by
  unfold getField bits
  rw [Nat.testBit_mod_two_pow, Nat.testBit_shiftRight]

/-- Bits outside a replaced field keep their value. -/
theorem setField_testBit_other (w : Word) (hi lo v i : Nat) (h : lo ≤ hi) (hh : hi < 64) (hi' : i < lo ∨ hi < i) :
    (setField w hi lo v).toNat.testBit i = w.toNat.testBit i := by
  rw [setField_toNat w hi lo v h hh]
  have hl : w.toNat % 2 ^ lo < 2 ^ lo := Nat.mod_lt _ (by positivity)
  have hv : v % 2 ^ (hi + 1 - lo) < 2 ^ (hi + 1 - lo) := Nat.mod_lt _ (by positivity)
  have e : 2 ^ (hi + 1) = 2 ^ (hi + 1 - lo) * 2 ^ lo := by rw [← pow_add]; congr 1; omega
  rcases hi' with hi' | hi'
  · have : w.toNat / 2 ^ (hi + 1) * 2 ^ (hi + 1) + v % 2 ^ (hi + 1 - lo) * 2 ^ lo + w.toNat % 2 ^ lo =
        2 ^ lo * (w.toNat / 2 ^ (hi + 1) * 2 ^ (hi + 1 - lo) + v % 2 ^ (hi + 1 - lo)) + w.toNat % 2 ^ lo := by rw [e]; ring
    rw [this, Nat.testBit_two_pow_mul_add _ hl, if_pos hi', Nat.testBit_mod_two_pow]
    simp [hi']
  · have low : v % 2 ^ (hi + 1 - lo) * 2 ^ lo + w.toNat % 2 ^ lo < 2 ^ (hi + 1) := by rw [e]; exact mul_add_lt hv hl
    rw [Nat.add_assoc, Nat.mul_comm, Nat.testBit_two_pow_mul_add _ low, if_neg (by omega), Nat.testBit_div_two_pow]
    congr 1; omega

/-- A field that a replacement does not overlap keeps its value. -/
theorem getField_setField_other (w : Word) (hi lo v hi' lo' : Nat) (h : lo ≤ hi) (hh : hi < 64)
    (d : hi' < lo ∨ hi < lo') : getField (setField w hi lo v) hi' lo' = getField w hi' lo' := by
  apply Nat.eq_of_testBit_eq
  intro i
  rw [getField_testBit, getField_testBit]
  by_cases hw : i < hi' + 1 - lo'
  · rw [setField_testBit_other w hi lo v _ h hh (by omega)]
  · simp [hw]

end Sys2Proof.Machine
end

