-- ==== Sys2Proof/Laws/Store.lean ====
section
/-! SUPPORT. Laws/Store.lean: what a sparse store reads after a write, and that writes keep its canonical form. -/
namespace Sys2Proof.Machine

variable {α : Type}

@[simp] theorem SMap.find?_insert (m : SMap α) (a b : Nat) (v : α) :
    SMap.find? (SMap.insert m a v) b = if b = a then some v else SMap.find? m b := by
  induction m with
  | nil => simp [SMap.insert, SMap.find?]
  | cons p m ih =>
    obtain ⟨k, w⟩ := p
    simp only [SMap.insert]
    split
    · simp only [SMap.find?]
    · split
      · subst_vars; simp only [SMap.find?]; split <;> rfl
      · simp only [SMap.find?, ih]
        split <;> split <;> first | rfl | (subst_vars; contradiction)

@[simp] theorem SMap.find?_erase (m : SMap α) (a b : Nat) :
    SMap.find? (SMap.erase m a) b = if b = a then none else SMap.find? m b := by
  induction m with
  | nil => simp [SMap.erase, SMap.find?]
  | cons p m ih =>
    obtain ⟨k, w⟩ := p
    simp only [SMap.erase, List.filter_cons] at ih ⊢
    by_cases h : k = a
    · subst h; simp only [ne_eq, not_true_eq_false, decide_false, Bool.false_eq_true, ↓reduceIte, ih, SMap.find?]
      split <;> rfl
    · simp only [ne_eq, h, not_false_eq_true, decide_true, ↓reduceIte, SMap.find?, ih]
      split <;> split <;> first | rfl | (subst_vars; contradiction)

theorem SMap.find?_set [DecidableEq α] (m : SMap α) (d : α) (a b : Nat) (v : α) :
    SMap.find? (SMap.set m d a v) b = if b = a then (if v = d then none else some v) else SMap.find? m b := by
  unfold SMap.set
  split <;> simp

@[simp] theorem SMap.get_insert (m : SMap α) (d : α) (a b : Nat) (v : α) :
    SMap.get (SMap.insert m a v) d b = if b = a then v else SMap.get m d b := by
  unfold SMap.get; rw [SMap.find?_insert]; split <;> rfl

@[simp] theorem SMap.get_set [DecidableEq α] (m : SMap α) (d : α) (a b : Nat) (v : α) :
    SMap.get (SMap.set m d a v) d b = if b = a then v else SMap.get m d b := by
  unfold SMap.get; rw [SMap.find?_set]
  split
  · split
    · simp [*]
    · rfl
  · rfl

/-! ## Canonical form -/

theorem SMap.rising_cons (a : Nat) (v : α) (m : SMap α) :
    SMap.rising ((a, v) :: m) = true ↔ (∀ q ∈ m, a < q.1) ∧ SMap.rising m = true := by
  induction m generalizing a v with
  | nil => simp [SMap.rising]
  | cons p m ih =>
    obtain ⟨k, w⟩ := p
    simp only [SMap.rising, Bool.and_eq_true, decide_eq_true_eq, List.mem_cons, forall_eq_or_imp]
    constructor
    · rintro ⟨h, r⟩
      refine ⟨⟨h, fun q hq => ?_⟩, r⟩
      have := ((ih k w).1 r).1 q hq
      omega
    · rintro ⟨⟨h, -⟩, r⟩
      exact ⟨h, r⟩

theorem SMap.mem_insert (m : SMap α) (a : Nat) (v : α) (q : Nat × α) (h : q ∈ SMap.insert m a v) : q = (a, v) ∨ q ∈ m := by
  induction m with
  | nil => simp [SMap.insert] at h; exact .inl h
  | cons p m ih =>
    obtain ⟨k, w⟩ := p
    simp only [SMap.insert] at h
    split at h
    · simpa using h
    · split at h
      · rcases List.mem_cons.1 h with h | h
        · exact .inl h
        · exact .inr (List.mem_cons_of_mem _ h)
      · rcases List.mem_cons.1 h with h | h
        · exact .inr (by simp [h])
        · rcases ih h with h | h
          · exact .inl h
          · exact .inr (List.mem_cons_of_mem _ h)

theorem SMap.rising_insert (m : SMap α) (a : Nat) (v : α) (h : SMap.rising m = true) :
    SMap.rising (SMap.insert m a v) = true := by
  induction m with
  | nil => rfl
  | cons p m ih =>
    obtain ⟨k, w⟩ := p
    have hr := (SMap.rising_cons k w m).1 h
    simp only [SMap.insert]
    split
    · rename_i hlt
      refine (SMap.rising_cons _ _ _).2 ⟨fun q hq => ?_, h⟩
      rcases List.mem_cons.1 hq with hq | hq
      · simpa [hq] using hlt
      · have := hr.1 q hq; omega
    · split
      · rename_i _ e; subst e
        exact (SMap.rising_cons _ _ _).2 hr
      · refine (SMap.rising_cons _ _ _).2 ⟨fun q hq => ?_, ih hr.2⟩
        rcases SMap.mem_insert _ _ _ _ hq with hq | hq
        · simp only [hq]; omega
        · exact hr.1 q hq

theorem SMap.rising_filter (m : SMap α) (p : Nat × α → Bool) (h : SMap.rising m = true) :
    SMap.rising (m.filter p) = true := by
  induction m with
  | nil => rfl
  | cons q m ih =>
    obtain ⟨k, w⟩ := q
    have hr := (SMap.rising_cons k w m).1 h
    rw [List.filter_cons]
    split
    · exact (SMap.rising_cons _ _ _).2 ⟨fun q hq => hr.1 q (List.mem_of_mem_filter hq), ih hr.2⟩
    · exact ih hr.2

theorem SMap.rising_erase (m : SMap α) (a : Nat) (h : SMap.rising m = true) : SMap.rising (SMap.erase m a) = true :=
  SMap.rising_filter m _ h

/-- Writing in a store with a default keeps its canonical form. -/
theorem SMap.wf_set [DecidableEq α] (m : SMap α) (d : α) (a : Nat) (v : α) (h : SMap.wf m d = true) :
    SMap.wf (SMap.set m d a v) d = true := by
  unfold SMap.wf at h ⊢
  simp only [Bool.and_eq_true, List.all_eq_true, decide_eq_true_eq] at h ⊢
  unfold SMap.set
  split
  · exact ⟨SMap.rising_erase m a h.1, fun q hq => h.2 q (List.mem_of_mem_filter hq)⟩
  · refine ⟨SMap.rising_insert m a v h.1, fun q hq => ?_⟩
    rcases SMap.mem_insert _ _ _ _ hq with hq | hq
    · simpa [hq] using ‹_›
    · exact h.2 q hq

theorem SMap.wf_filter [DecidableEq α] (m : SMap α) (d : α) (p : Nat × α → Bool) (h : SMap.wf m d = true) :
    SMap.wf (m.filter p) d = true := by
  unfold SMap.wf at h ⊢
  simp only [Bool.and_eq_true, List.all_eq_true, decide_eq_true_eq] at h ⊢
  exact ⟨SMap.rising_filter m p h.1, fun q hq => h.2 q (List.mem_of_mem_filter hq)⟩

end Sys2Proof.Machine
end

