-- ==== Sys2Proof/Laws/State.lean ====
section
/-! SUPPORT. Laws/State.lean: what each named update of the state leaves unchanged, field by field, and what reads give
after it. -/
namespace Sys2Proof.Machine

variable (s : State)

/-! ## Untouched fields -/

@[simp] theorem State.setReg_frame (k : RegKind) (i : Nat) (v : Word) :
    (s.setReg k i v).mem = s.mem ∧ (s.setReg k i v).scrambles = s.scrambles ∧ (s.setReg k i v).lines = s.lines ∧
    (s.setReg k i v).plru = s.plru ∧ (s.setReg k i v).lost = s.lost ∧ (s.setReg k i v).copies = s.copies ∧
    (s.setReg k i v).ill = s.ill ∧ (s.setReg k i v).gdir = s.gdir ∧ (s.setReg k i v).l3 = s.l3 ∧
    (s.setReg k i v).wc = s.wc ∧ (s.setReg k i v).memUe = s.memUe ∧ (s.setReg k i v).memCe = s.memCe ∧
    (s.setReg k i v).memOde = s.memOde ∧ (s.setReg k i v).scrUe = s.scrUe ∧ (s.setReg k i v).scrCe = s.scrCe ∧
    (s.setReg k i v).lineUe = s.lineUe ∧ (s.setReg k i v).lineCe = s.lineCe ∧ (s.setReg k i v).copyUe = s.copyUe ∧
    (s.setReg k i v).tagUe = s.tagUe ∧ (s.setReg k i v).cacheUe = s.cacheUe ∧ (s.setReg k i v).cacheCe = s.cacheCe ∧
    (s.setReg k i v).scr = s.scr ∧ (s.setReg k i v).tileHolder = s.tileHolder ∧
    (s.setReg k i v).bankHolder = s.bankHolder ∧ (s.setReg k i v).tiles = s.tiles ∧
    (s.setReg k i v).packets = s.packets ∧ (s.setReg k i v).nextPid = s.nextPid ∧ (s.setReg k i v).blocks = s.blocks ∧
    (s.setReg k i v).nextBlock = s.nextBlock ∧ (s.setReg k i v).riddles = s.riddles ∧ (s.setReg k i v).xlt = s.xlt ∧
    (s.setReg k i v).xplru = s.xplru ∧ (s.setReg k i v).invWait = s.invWait ∧ (s.setReg k i v).items = s.items ∧
    (s.setReg k i v).finishCtr = s.finishCtr ∧ (s.setReg k i v).queues = s.queues ∧ (s.setReg k i v).sets = s.sets ∧
    (s.setReg k i v).plan = s.plan ∧ (s.setReg k i v).grout = s.grout ∧ (s.setReg k i v).lostKeys = s.lostKeys ∧
    (s.setReg k i v).hods = s.hods ∧ (s.setReg k i v).nextJob = s.nextJob ∧ (s.setReg k i v).hodDsts = s.hodDsts ∧
    (s.setReg k i v).bus = s.bus ∧ (s.setReg k i v).fetchLast = s.fetchLast ∧ (s.setReg k i v).fns = s.fns ∧
    (s.setReg k i v).msixAddr = s.msixAddr ∧ (s.setReg k i v).msixData = s.msixData ∧
    (s.setReg k i v).msixPend = s.msixPend ∧ (s.setReg k i v).outs = s.outs ∧ (s.setReg k i v).part = s.part ∧
    (s.setReg k i v).tileOwner = s.tileOwner ∧ (s.setReg k i v).faulty = s.faulty ∧
    (s.setReg k i v).c0info = s.c0info ∧ (s.setReg k i v).timer = s.timer ∧ (s.setReg k i v).started = s.started ∧
    (s.setReg k i v).closed13 = s.closed13 ∧ (s.setReg k i v).closed0 = s.closed0 ∧ (s.setReg k i v).drr = s.drr ∧
    (s.setReg k i v).slip = s.slip ∧ (s.setReg k i v).debt = s.debt ∧ (s.setReg k i v).idle = s.idle ∧
    (s.setReg k i v).quadOff = s.quadOff ∧ (s.setReg k i v).quadWake = s.quadWake ∧
    (s.setReg k i v).closePend = s.closePend ∧ (s.setReg k i v).phases = s.phases ∧ (s.setReg k i v).pw = s.pw ∧
    (s.setReg k i v).mults = s.mults ∧ (s.setReg k i v).board = s.board ∧ (s.setReg k i v).trust = s.trust ∧
    (s.setReg k i v).cores = s.cores ∧ (s.setReg k i v).mmem = s.mmem ∧ (s.setReg k i v).mmSeed = s.mmSeed ∧
    (s.setReg k i v).coreReset = s.coreReset ∧ (s.setReg k i v).coreDown = s.coreDown ∧
    (s.setReg k i v).ldirs = s.ldirs ∧ (s.setReg k i v).sideband = s.sideband ∧ (s.setReg k i v).passes = s.passes ∧
    (s.setReg k i v).scrubPasses = s.scrubPasses ∧ (s.setReg k i v).scrubStart = s.scrubStart ∧
    (s.setReg k i v).scrubPos = s.scrubPos ∧ (s.setReg k i v).c3Held = s.c3Held ∧
    (s.setReg k i v).lossPend = s.lossPend ∧ (s.setReg k i v).live = s.live ∧ (s.setReg k i v).ceCourse = s.ceCourse ∧
    (s.setReg k i v).eview = s.eview ∧ (s.setReg k i v).freeCtr = s.freeCtr ∧ (s.setReg k i v).ticks = s.ticks ∧
    (s.setReg k i v).pending = s.pending := by
  and_intros <;> rfl

@[simp] theorem State.setFld_frame (f : Fld) (i v : Nat) :
    (s.setFld f i v).mem = s.mem ∧ (s.setFld f i v).scrambles = s.scrambles ∧ (s.setFld f i v).lines = s.lines ∧
    (s.setFld f i v).plru = s.plru ∧ (s.setFld f i v).lost = s.lost ∧ (s.setFld f i v).copies = s.copies ∧
    (s.setFld f i v).ill = s.ill ∧ (s.setFld f i v).gdir = s.gdir ∧ (s.setFld f i v).l3 = s.l3 ∧
    (s.setFld f i v).wc = s.wc ∧ (s.setFld f i v).memUe = s.memUe ∧ (s.setFld f i v).memCe = s.memCe ∧
    (s.setFld f i v).memOde = s.memOde ∧ (s.setFld f i v).scrUe = s.scrUe ∧ (s.setFld f i v).scrCe = s.scrCe ∧
    (s.setFld f i v).lineUe = s.lineUe ∧ (s.setFld f i v).lineCe = s.lineCe ∧ (s.setFld f i v).copyUe = s.copyUe ∧
    (s.setFld f i v).tagUe = s.tagUe ∧ (s.setFld f i v).cacheUe = s.cacheUe ∧ (s.setFld f i v).cacheCe = s.cacheCe ∧
    (s.setFld f i v).scr = s.scr ∧ (s.setFld f i v).tileHolder = s.tileHolder ∧
    (s.setFld f i v).bankHolder = s.bankHolder ∧ (s.setFld f i v).tiles = s.tiles ∧
    (s.setFld f i v).packets = s.packets ∧ (s.setFld f i v).nextPid = s.nextPid ∧ (s.setFld f i v).blocks = s.blocks ∧
    (s.setFld f i v).nextBlock = s.nextBlock ∧ (s.setFld f i v).riddles = s.riddles ∧ (s.setFld f i v).xlt = s.xlt ∧
    (s.setFld f i v).xplru = s.xplru ∧ (s.setFld f i v).invWait = s.invWait ∧ (s.setFld f i v).items = s.items ∧
    (s.setFld f i v).finishCtr = s.finishCtr ∧ (s.setFld f i v).queues = s.queues ∧ (s.setFld f i v).sets = s.sets ∧
    (s.setFld f i v).plan = s.plan ∧ (s.setFld f i v).grout = s.grout ∧ (s.setFld f i v).lostKeys = s.lostKeys ∧
    (s.setFld f i v).hods = s.hods ∧ (s.setFld f i v).nextJob = s.nextJob ∧ (s.setFld f i v).hodDsts = s.hodDsts ∧
    (s.setFld f i v).bus = s.bus ∧ (s.setFld f i v).fetchLast = s.fetchLast ∧ (s.setFld f i v).fns = s.fns ∧
    (s.setFld f i v).msixAddr = s.msixAddr ∧ (s.setFld f i v).msixData = s.msixData ∧
    (s.setFld f i v).msixPend = s.msixPend ∧ (s.setFld f i v).outs = s.outs ∧ (s.setFld f i v).part = s.part ∧
    (s.setFld f i v).tileOwner = s.tileOwner ∧ (s.setFld f i v).faulty = s.faulty ∧
    (s.setFld f i v).c0info = s.c0info ∧ (s.setFld f i v).timer = s.timer ∧ (s.setFld f i v).started = s.started ∧
    (s.setFld f i v).closed13 = s.closed13 ∧ (s.setFld f i v).closed0 = s.closed0 ∧ (s.setFld f i v).drr = s.drr ∧
    (s.setFld f i v).slip = s.slip ∧ (s.setFld f i v).debt = s.debt ∧ (s.setFld f i v).idle = s.idle ∧
    (s.setFld f i v).quadOff = s.quadOff ∧ (s.setFld f i v).quadWake = s.quadWake ∧
    (s.setFld f i v).closePend = s.closePend ∧ (s.setFld f i v).phases = s.phases ∧ (s.setFld f i v).pw = s.pw ∧
    (s.setFld f i v).mults = s.mults ∧ (s.setFld f i v).board = s.board ∧ (s.setFld f i v).trust = s.trust ∧
    (s.setFld f i v).cores = s.cores ∧ (s.setFld f i v).mmem = s.mmem ∧ (s.setFld f i v).mmSeed = s.mmSeed ∧
    (s.setFld f i v).coreReset = s.coreReset ∧ (s.setFld f i v).coreDown = s.coreDown ∧
    (s.setFld f i v).ldirs = s.ldirs ∧ (s.setFld f i v).sideband = s.sideband ∧ (s.setFld f i v).passes = s.passes ∧
    (s.setFld f i v).scrubPasses = s.scrubPasses ∧ (s.setFld f i v).scrubStart = s.scrubStart ∧
    (s.setFld f i v).scrubPos = s.scrubPos ∧ (s.setFld f i v).c3Held = s.c3Held ∧
    (s.setFld f i v).lossPend = s.lossPend ∧ (s.setFld f i v).live = s.live ∧ (s.setFld f i v).ceCourse = s.ceCourse ∧
    (s.setFld f i v).eview = s.eview ∧ (s.setFld f i v).freeCtr = s.freeCtr ∧ (s.setFld f i v).ticks = s.ticks ∧
    (s.setFld f i v).pending = s.pending := by
  and_intros <;> rfl

@[simp] theorem State.bump_frame (f : Fld) (i n : Nat) :
    (s.bump f i n).mem = s.mem ∧ (s.bump f i n).scrambles = s.scrambles ∧ (s.bump f i n).lines = s.lines ∧
    (s.bump f i n).plru = s.plru ∧ (s.bump f i n).lost = s.lost ∧ (s.bump f i n).copies = s.copies ∧
    (s.bump f i n).ill = s.ill ∧ (s.bump f i n).gdir = s.gdir ∧ (s.bump f i n).l3 = s.l3 ∧ (s.bump f i n).wc = s.wc ∧
    (s.bump f i n).memUe = s.memUe ∧ (s.bump f i n).memCe = s.memCe ∧ (s.bump f i n).memOde = s.memOde ∧
    (s.bump f i n).scrUe = s.scrUe ∧ (s.bump f i n).scrCe = s.scrCe ∧ (s.bump f i n).lineUe = s.lineUe ∧
    (s.bump f i n).lineCe = s.lineCe ∧ (s.bump f i n).copyUe = s.copyUe ∧ (s.bump f i n).tagUe = s.tagUe ∧
    (s.bump f i n).cacheUe = s.cacheUe ∧ (s.bump f i n).cacheCe = s.cacheCe ∧ (s.bump f i n).scr = s.scr ∧
    (s.bump f i n).tileHolder = s.tileHolder ∧ (s.bump f i n).bankHolder = s.bankHolder ∧
    (s.bump f i n).tiles = s.tiles ∧ (s.bump f i n).packets = s.packets ∧ (s.bump f i n).nextPid = s.nextPid ∧
    (s.bump f i n).blocks = s.blocks ∧ (s.bump f i n).nextBlock = s.nextBlock ∧ (s.bump f i n).riddles = s.riddles ∧
    (s.bump f i n).xlt = s.xlt ∧ (s.bump f i n).xplru = s.xplru ∧ (s.bump f i n).invWait = s.invWait ∧
    (s.bump f i n).items = s.items ∧ (s.bump f i n).finishCtr = s.finishCtr ∧ (s.bump f i n).queues = s.queues ∧
    (s.bump f i n).sets = s.sets ∧ (s.bump f i n).plan = s.plan ∧ (s.bump f i n).grout = s.grout ∧
    (s.bump f i n).lostKeys = s.lostKeys ∧ (s.bump f i n).hods = s.hods ∧ (s.bump f i n).nextJob = s.nextJob ∧
    (s.bump f i n).hodDsts = s.hodDsts ∧ (s.bump f i n).bus = s.bus ∧ (s.bump f i n).fetchLast = s.fetchLast ∧
    (s.bump f i n).fns = s.fns ∧ (s.bump f i n).msixAddr = s.msixAddr ∧ (s.bump f i n).msixData = s.msixData ∧
    (s.bump f i n).msixPend = s.msixPend ∧ (s.bump f i n).outs = s.outs ∧ (s.bump f i n).part = s.part ∧
    (s.bump f i n).tileOwner = s.tileOwner ∧ (s.bump f i n).faulty = s.faulty ∧ (s.bump f i n).c0info = s.c0info ∧
    (s.bump f i n).timer = s.timer ∧ (s.bump f i n).started = s.started ∧ (s.bump f i n).closed13 = s.closed13 ∧
    (s.bump f i n).closed0 = s.closed0 ∧ (s.bump f i n).drr = s.drr ∧ (s.bump f i n).slip = s.slip ∧
    (s.bump f i n).debt = s.debt ∧ (s.bump f i n).idle = s.idle ∧ (s.bump f i n).quadOff = s.quadOff ∧
    (s.bump f i n).quadWake = s.quadWake ∧ (s.bump f i n).closePend = s.closePend ∧ (s.bump f i n).phases = s.phases ∧
    (s.bump f i n).pw = s.pw ∧ (s.bump f i n).mults = s.mults ∧ (s.bump f i n).board = s.board ∧
    (s.bump f i n).trust = s.trust ∧ (s.bump f i n).cores = s.cores ∧ (s.bump f i n).mmem = s.mmem ∧
    (s.bump f i n).mmSeed = s.mmSeed ∧ (s.bump f i n).coreReset = s.coreReset ∧ (s.bump f i n).coreDown = s.coreDown ∧
    (s.bump f i n).ldirs = s.ldirs ∧ (s.bump f i n).sideband = s.sideband ∧ (s.bump f i n).passes = s.passes ∧
    (s.bump f i n).scrubPasses = s.scrubPasses ∧ (s.bump f i n).scrubStart = s.scrubStart ∧
    (s.bump f i n).scrubPos = s.scrubPos ∧ (s.bump f i n).c3Held = s.c3Held ∧ (s.bump f i n).lossPend = s.lossPend ∧
    (s.bump f i n).live = s.live ∧ (s.bump f i n).ceCourse = s.ceCourse ∧ (s.bump f i n).eview = s.eview ∧
    (s.bump f i n).freeCtr = s.freeCtr ∧ (s.bump f i n).ticks = s.ticks ∧ (s.bump f i n).pending = s.pending := by
  and_intros <;> rfl

@[simp] theorem State.raise_frame (f : Fld) (i : Nat) :
    (s.raise f i).mem = s.mem ∧ (s.raise f i).scrambles = s.scrambles ∧ (s.raise f i).lines = s.lines ∧
    (s.raise f i).plru = s.plru ∧ (s.raise f i).lost = s.lost ∧ (s.raise f i).copies = s.copies ∧
    (s.raise f i).ill = s.ill ∧ (s.raise f i).gdir = s.gdir ∧ (s.raise f i).l3 = s.l3 ∧ (s.raise f i).wc = s.wc ∧
    (s.raise f i).memUe = s.memUe ∧ (s.raise f i).memCe = s.memCe ∧ (s.raise f i).memOde = s.memOde ∧
    (s.raise f i).scrUe = s.scrUe ∧ (s.raise f i).scrCe = s.scrCe ∧ (s.raise f i).lineUe = s.lineUe ∧
    (s.raise f i).lineCe = s.lineCe ∧ (s.raise f i).copyUe = s.copyUe ∧ (s.raise f i).tagUe = s.tagUe ∧
    (s.raise f i).cacheUe = s.cacheUe ∧ (s.raise f i).cacheCe = s.cacheCe ∧ (s.raise f i).scr = s.scr ∧
    (s.raise f i).tileHolder = s.tileHolder ∧ (s.raise f i).bankHolder = s.bankHolder ∧
    (s.raise f i).tiles = s.tiles ∧ (s.raise f i).packets = s.packets ∧ (s.raise f i).nextPid = s.nextPid ∧
    (s.raise f i).blocks = s.blocks ∧ (s.raise f i).nextBlock = s.nextBlock ∧ (s.raise f i).riddles = s.riddles ∧
    (s.raise f i).xlt = s.xlt ∧ (s.raise f i).xplru = s.xplru ∧ (s.raise f i).invWait = s.invWait ∧
    (s.raise f i).items = s.items ∧ (s.raise f i).finishCtr = s.finishCtr ∧ (s.raise f i).queues = s.queues ∧
    (s.raise f i).sets = s.sets ∧ (s.raise f i).plan = s.plan ∧ (s.raise f i).grout = s.grout ∧
    (s.raise f i).lostKeys = s.lostKeys ∧ (s.raise f i).hods = s.hods ∧ (s.raise f i).nextJob = s.nextJob ∧
    (s.raise f i).hodDsts = s.hodDsts ∧ (s.raise f i).bus = s.bus ∧ (s.raise f i).fetchLast = s.fetchLast ∧
    (s.raise f i).fns = s.fns ∧ (s.raise f i).msixAddr = s.msixAddr ∧ (s.raise f i).msixData = s.msixData ∧
    (s.raise f i).msixPend = s.msixPend ∧ (s.raise f i).outs = s.outs ∧ (s.raise f i).part = s.part ∧
    (s.raise f i).tileOwner = s.tileOwner ∧ (s.raise f i).faulty = s.faulty ∧ (s.raise f i).c0info = s.c0info ∧
    (s.raise f i).timer = s.timer ∧ (s.raise f i).started = s.started ∧ (s.raise f i).closed13 = s.closed13 ∧
    (s.raise f i).closed0 = s.closed0 ∧ (s.raise f i).drr = s.drr ∧ (s.raise f i).slip = s.slip ∧
    (s.raise f i).debt = s.debt ∧ (s.raise f i).idle = s.idle ∧ (s.raise f i).quadOff = s.quadOff ∧
    (s.raise f i).quadWake = s.quadWake ∧ (s.raise f i).closePend = s.closePend ∧ (s.raise f i).phases = s.phases ∧
    (s.raise f i).pw = s.pw ∧ (s.raise f i).mults = s.mults ∧ (s.raise f i).board = s.board ∧
    (s.raise f i).trust = s.trust ∧ (s.raise f i).cores = s.cores ∧ (s.raise f i).mmem = s.mmem ∧
    (s.raise f i).mmSeed = s.mmSeed ∧ (s.raise f i).coreReset = s.coreReset ∧ (s.raise f i).coreDown = s.coreDown ∧
    (s.raise f i).ldirs = s.ldirs ∧ (s.raise f i).sideband = s.sideband ∧ (s.raise f i).passes = s.passes ∧
    (s.raise f i).scrubPasses = s.scrubPasses ∧ (s.raise f i).scrubStart = s.scrubStart ∧
    (s.raise f i).scrubPos = s.scrubPos ∧ (s.raise f i).c3Held = s.c3Held ∧ (s.raise f i).lossPend = s.lossPend ∧
    (s.raise f i).live = s.live ∧ (s.raise f i).ceCourse = s.ceCourse ∧ (s.raise f i).eview = s.eview ∧
    (s.raise f i).freeCtr = s.freeCtr ∧ (s.raise f i).ticks = s.ticks ∧ (s.raise f i).pending = s.pending := by
  and_intros <;> rfl

@[simp] theorem State.clearReg_frame (k : RegKind) (i : Nat) :
    (s.clearReg k i).mem = s.mem ∧ (s.clearReg k i).scrambles = s.scrambles ∧ (s.clearReg k i).lines = s.lines ∧
    (s.clearReg k i).plru = s.plru ∧ (s.clearReg k i).lost = s.lost ∧ (s.clearReg k i).copies = s.copies ∧
    (s.clearReg k i).ill = s.ill ∧ (s.clearReg k i).gdir = s.gdir ∧ (s.clearReg k i).l3 = s.l3 ∧
    (s.clearReg k i).wc = s.wc ∧ (s.clearReg k i).memUe = s.memUe ∧ (s.clearReg k i).memCe = s.memCe ∧
    (s.clearReg k i).memOde = s.memOde ∧ (s.clearReg k i).scrUe = s.scrUe ∧ (s.clearReg k i).scrCe = s.scrCe ∧
    (s.clearReg k i).lineUe = s.lineUe ∧ (s.clearReg k i).lineCe = s.lineCe ∧ (s.clearReg k i).copyUe = s.copyUe ∧
    (s.clearReg k i).tagUe = s.tagUe ∧ (s.clearReg k i).cacheUe = s.cacheUe ∧ (s.clearReg k i).cacheCe = s.cacheCe ∧
    (s.clearReg k i).scr = s.scr ∧ (s.clearReg k i).tileHolder = s.tileHolder ∧
    (s.clearReg k i).bankHolder = s.bankHolder ∧ (s.clearReg k i).tiles = s.tiles ∧
    (s.clearReg k i).packets = s.packets ∧ (s.clearReg k i).nextPid = s.nextPid ∧ (s.clearReg k i).blocks = s.blocks ∧
    (s.clearReg k i).nextBlock = s.nextBlock ∧ (s.clearReg k i).riddles = s.riddles ∧ (s.clearReg k i).xlt = s.xlt ∧
    (s.clearReg k i).xplru = s.xplru ∧ (s.clearReg k i).invWait = s.invWait ∧ (s.clearReg k i).items = s.items ∧
    (s.clearReg k i).finishCtr = s.finishCtr ∧ (s.clearReg k i).queues = s.queues ∧ (s.clearReg k i).sets = s.sets ∧
    (s.clearReg k i).plan = s.plan ∧ (s.clearReg k i).grout = s.grout ∧ (s.clearReg k i).lostKeys = s.lostKeys ∧
    (s.clearReg k i).hods = s.hods ∧ (s.clearReg k i).nextJob = s.nextJob ∧ (s.clearReg k i).hodDsts = s.hodDsts ∧
    (s.clearReg k i).bus = s.bus ∧ (s.clearReg k i).fetchLast = s.fetchLast ∧ (s.clearReg k i).fns = s.fns ∧
    (s.clearReg k i).msixAddr = s.msixAddr ∧ (s.clearReg k i).msixData = s.msixData ∧
    (s.clearReg k i).msixPend = s.msixPend ∧ (s.clearReg k i).outs = s.outs ∧ (s.clearReg k i).part = s.part ∧
    (s.clearReg k i).tileOwner = s.tileOwner ∧ (s.clearReg k i).faulty = s.faulty ∧
    (s.clearReg k i).c0info = s.c0info ∧ (s.clearReg k i).timer = s.timer ∧ (s.clearReg k i).started = s.started ∧
    (s.clearReg k i).closed13 = s.closed13 ∧ (s.clearReg k i).closed0 = s.closed0 ∧ (s.clearReg k i).drr = s.drr ∧
    (s.clearReg k i).slip = s.slip ∧ (s.clearReg k i).debt = s.debt ∧ (s.clearReg k i).idle = s.idle ∧
    (s.clearReg k i).quadOff = s.quadOff ∧ (s.clearReg k i).quadWake = s.quadWake ∧
    (s.clearReg k i).closePend = s.closePend ∧ (s.clearReg k i).phases = s.phases ∧ (s.clearReg k i).pw = s.pw ∧
    (s.clearReg k i).mults = s.mults ∧ (s.clearReg k i).board = s.board ∧ (s.clearReg k i).trust = s.trust ∧
    (s.clearReg k i).cores = s.cores ∧ (s.clearReg k i).mmem = s.mmem ∧ (s.clearReg k i).mmSeed = s.mmSeed ∧
    (s.clearReg k i).coreReset = s.coreReset ∧ (s.clearReg k i).coreDown = s.coreDown ∧
    (s.clearReg k i).ldirs = s.ldirs ∧ (s.clearReg k i).sideband = s.sideband ∧ (s.clearReg k i).passes = s.passes ∧
    (s.clearReg k i).scrubPasses = s.scrubPasses ∧ (s.clearReg k i).scrubStart = s.scrubStart ∧
    (s.clearReg k i).scrubPos = s.scrubPos ∧ (s.clearReg k i).c3Held = s.c3Held ∧
    (s.clearReg k i).lossPend = s.lossPend ∧ (s.clearReg k i).live = s.live ∧ (s.clearReg k i).ceCourse = s.ceCourse ∧
    (s.clearReg k i).eview = s.eview ∧ (s.clearReg k i).freeCtr = s.freeCtr ∧ (s.clearReg k i).ticks = s.ticks ∧
    (s.clearReg k i).pending = s.pending := by
  and_intros <;> rfl

@[simp] theorem State.drawn_frame :
    (s.drawn).regs = s.regs ∧ (s.drawn).mem = s.mem ∧ (s.drawn).scrambles = s.scrambles ∧ (s.drawn).lines = s.lines ∧
    (s.drawn).plru = s.plru ∧ (s.drawn).lost = s.lost ∧ (s.drawn).copies = s.copies ∧ (s.drawn).ill = s.ill ∧
    (s.drawn).gdir = s.gdir ∧ (s.drawn).l3 = s.l3 ∧ (s.drawn).wc = s.wc ∧ (s.drawn).memUe = s.memUe ∧
    (s.drawn).memCe = s.memCe ∧ (s.drawn).memOde = s.memOde ∧ (s.drawn).scrUe = s.scrUe ∧ (s.drawn).scrCe = s.scrCe ∧
    (s.drawn).lineUe = s.lineUe ∧ (s.drawn).lineCe = s.lineCe ∧ (s.drawn).copyUe = s.copyUe ∧
    (s.drawn).tagUe = s.tagUe ∧ (s.drawn).cacheUe = s.cacheUe ∧ (s.drawn).cacheCe = s.cacheCe ∧
    (s.drawn).scr = s.scr ∧ (s.drawn).tileHolder = s.tileHolder ∧ (s.drawn).bankHolder = s.bankHolder ∧
    (s.drawn).tiles = s.tiles ∧ (s.drawn).packets = s.packets ∧ (s.drawn).nextPid = s.nextPid ∧
    (s.drawn).blocks = s.blocks ∧ (s.drawn).nextBlock = s.nextBlock ∧ (s.drawn).riddles = s.riddles ∧
    (s.drawn).xlt = s.xlt ∧ (s.drawn).xplru = s.xplru ∧ (s.drawn).invWait = s.invWait ∧ (s.drawn).items = s.items ∧
    (s.drawn).finishCtr = s.finishCtr ∧ (s.drawn).queues = s.queues ∧ (s.drawn).sets = s.sets ∧
    (s.drawn).plan = s.plan ∧ (s.drawn).grout = s.grout ∧ (s.drawn).lostKeys = s.lostKeys ∧ (s.drawn).hods = s.hods ∧
    (s.drawn).nextJob = s.nextJob ∧ (s.drawn).hodDsts = s.hodDsts ∧ (s.drawn).bus = s.bus ∧
    (s.drawn).fetchLast = s.fetchLast ∧ (s.drawn).fns = s.fns ∧ (s.drawn).msixAddr = s.msixAddr ∧
    (s.drawn).msixData = s.msixData ∧ (s.drawn).msixPend = s.msixPend ∧ (s.drawn).outs = s.outs ∧
    (s.drawn).part = s.part ∧ (s.drawn).tileOwner = s.tileOwner ∧ (s.drawn).faulty = s.faulty ∧
    (s.drawn).c0info = s.c0info ∧ (s.drawn).timer = s.timer ∧ (s.drawn).started = s.started ∧
    (s.drawn).closed13 = s.closed13 ∧ (s.drawn).closed0 = s.closed0 ∧ (s.drawn).drr = s.drr ∧
    (s.drawn).slip = s.slip ∧ (s.drawn).debt = s.debt ∧ (s.drawn).idle = s.idle ∧ (s.drawn).quadOff = s.quadOff ∧
    (s.drawn).quadWake = s.quadWake ∧ (s.drawn).closePend = s.closePend ∧ (s.drawn).phases = s.phases ∧
    (s.drawn).pw = s.pw ∧ (s.drawn).mults = s.mults ∧ (s.drawn).board = s.board ∧ (s.drawn).trust = s.trust ∧
    (s.drawn).cores = s.cores ∧ (s.drawn).mmem = s.mmem ∧ (s.drawn).mmSeed = s.mmSeed ∧
    (s.drawn).coreReset = s.coreReset ∧ (s.drawn).coreDown = s.coreDown ∧ (s.drawn).ldirs = s.ldirs ∧
    (s.drawn).sideband = s.sideband ∧ (s.drawn).passes = s.passes ∧ (s.drawn).scrubPasses = s.scrubPasses ∧
    (s.drawn).scrubStart = s.scrubStart ∧ (s.drawn).scrubPos = s.scrubPos ∧ (s.drawn).c3Held = s.c3Held ∧
    (s.drawn).lossPend = s.lossPend ∧ (s.drawn).live = s.live ∧ (s.drawn).ceCourse = s.ceCourse ∧
    (s.drawn).eview = s.eview ∧ (s.drawn).ticks = s.ticks ∧ (s.drawn).pending = s.pending := by
  and_intros <;> rfl

@[simp] theorem State.setTile_frame (t : Nat) (x : Tile) :
    (s.setTile t x).regs = s.regs ∧ (s.setTile t x).mem = s.mem ∧ (s.setTile t x).scrambles = s.scrambles ∧
    (s.setTile t x).lines = s.lines ∧ (s.setTile t x).plru = s.plru ∧ (s.setTile t x).lost = s.lost ∧
    (s.setTile t x).copies = s.copies ∧ (s.setTile t x).ill = s.ill ∧ (s.setTile t x).gdir = s.gdir ∧
    (s.setTile t x).l3 = s.l3 ∧ (s.setTile t x).wc = s.wc ∧ (s.setTile t x).memUe = s.memUe ∧
    (s.setTile t x).memCe = s.memCe ∧ (s.setTile t x).memOde = s.memOde ∧ (s.setTile t x).scrUe = s.scrUe ∧
    (s.setTile t x).scrCe = s.scrCe ∧ (s.setTile t x).lineUe = s.lineUe ∧ (s.setTile t x).lineCe = s.lineCe ∧
    (s.setTile t x).copyUe = s.copyUe ∧ (s.setTile t x).tagUe = s.tagUe ∧ (s.setTile t x).cacheUe = s.cacheUe ∧
    (s.setTile t x).cacheCe = s.cacheCe ∧ (s.setTile t x).scr = s.scr ∧ (s.setTile t x).tileHolder = s.tileHolder ∧
    (s.setTile t x).bankHolder = s.bankHolder ∧ (s.setTile t x).packets = s.packets ∧
    (s.setTile t x).nextPid = s.nextPid ∧ (s.setTile t x).blocks = s.blocks ∧
    (s.setTile t x).nextBlock = s.nextBlock ∧ (s.setTile t x).riddles = s.riddles ∧ (s.setTile t x).xlt = s.xlt ∧
    (s.setTile t x).xplru = s.xplru ∧ (s.setTile t x).invWait = s.invWait ∧ (s.setTile t x).items = s.items ∧
    (s.setTile t x).finishCtr = s.finishCtr ∧ (s.setTile t x).queues = s.queues ∧ (s.setTile t x).sets = s.sets ∧
    (s.setTile t x).plan = s.plan ∧ (s.setTile t x).grout = s.grout ∧ (s.setTile t x).lostKeys = s.lostKeys ∧
    (s.setTile t x).hods = s.hods ∧ (s.setTile t x).nextJob = s.nextJob ∧ (s.setTile t x).hodDsts = s.hodDsts ∧
    (s.setTile t x).bus = s.bus ∧ (s.setTile t x).fetchLast = s.fetchLast ∧ (s.setTile t x).fns = s.fns ∧
    (s.setTile t x).msixAddr = s.msixAddr ∧ (s.setTile t x).msixData = s.msixData ∧
    (s.setTile t x).msixPend = s.msixPend ∧ (s.setTile t x).outs = s.outs ∧ (s.setTile t x).part = s.part ∧
    (s.setTile t x).tileOwner = s.tileOwner ∧ (s.setTile t x).faulty = s.faulty ∧ (s.setTile t x).c0info = s.c0info ∧
    (s.setTile t x).timer = s.timer ∧ (s.setTile t x).started = s.started ∧ (s.setTile t x).closed13 = s.closed13 ∧
    (s.setTile t x).closed0 = s.closed0 ∧ (s.setTile t x).drr = s.drr ∧ (s.setTile t x).slip = s.slip ∧
    (s.setTile t x).debt = s.debt ∧ (s.setTile t x).idle = s.idle ∧ (s.setTile t x).quadOff = s.quadOff ∧
    (s.setTile t x).quadWake = s.quadWake ∧ (s.setTile t x).closePend = s.closePend ∧
    (s.setTile t x).phases = s.phases ∧ (s.setTile t x).pw = s.pw ∧ (s.setTile t x).mults = s.mults ∧
    (s.setTile t x).board = s.board ∧ (s.setTile t x).trust = s.trust ∧ (s.setTile t x).cores = s.cores ∧
    (s.setTile t x).mmem = s.mmem ∧ (s.setTile t x).mmSeed = s.mmSeed ∧ (s.setTile t x).coreReset = s.coreReset ∧
    (s.setTile t x).coreDown = s.coreDown ∧ (s.setTile t x).ldirs = s.ldirs ∧ (s.setTile t x).sideband = s.sideband ∧
    (s.setTile t x).passes = s.passes ∧ (s.setTile t x).scrubPasses = s.scrubPasses ∧
    (s.setTile t x).scrubStart = s.scrubStart ∧ (s.setTile t x).scrubPos = s.scrubPos ∧
    (s.setTile t x).c3Held = s.c3Held ∧ (s.setTile t x).lossPend = s.lossPend ∧ (s.setTile t x).live = s.live ∧
    (s.setTile t x).ceCourse = s.ceCourse ∧ (s.setTile t x).eview = s.eview ∧ (s.setTile t x).freeCtr = s.freeCtr ∧
    (s.setTile t x).ticks = s.ticks ∧ (s.setTile t x).pending = s.pending := by
  and_intros <;> rfl

@[simp] theorem State.modTile_frame (t : Nat) (f : Tile → Tile) :
    (s.modTile t f).regs = s.regs ∧ (s.modTile t f).mem = s.mem ∧ (s.modTile t f).scrambles = s.scrambles ∧
    (s.modTile t f).lines = s.lines ∧ (s.modTile t f).plru = s.plru ∧ (s.modTile t f).lost = s.lost ∧
    (s.modTile t f).copies = s.copies ∧ (s.modTile t f).ill = s.ill ∧ (s.modTile t f).gdir = s.gdir ∧
    (s.modTile t f).l3 = s.l3 ∧ (s.modTile t f).wc = s.wc ∧ (s.modTile t f).memUe = s.memUe ∧
    (s.modTile t f).memCe = s.memCe ∧ (s.modTile t f).memOde = s.memOde ∧ (s.modTile t f).scrUe = s.scrUe ∧
    (s.modTile t f).scrCe = s.scrCe ∧ (s.modTile t f).lineUe = s.lineUe ∧ (s.modTile t f).lineCe = s.lineCe ∧
    (s.modTile t f).copyUe = s.copyUe ∧ (s.modTile t f).tagUe = s.tagUe ∧ (s.modTile t f).cacheUe = s.cacheUe ∧
    (s.modTile t f).cacheCe = s.cacheCe ∧ (s.modTile t f).scr = s.scr ∧ (s.modTile t f).tileHolder = s.tileHolder ∧
    (s.modTile t f).bankHolder = s.bankHolder ∧ (s.modTile t f).packets = s.packets ∧
    (s.modTile t f).nextPid = s.nextPid ∧ (s.modTile t f).blocks = s.blocks ∧
    (s.modTile t f).nextBlock = s.nextBlock ∧ (s.modTile t f).riddles = s.riddles ∧ (s.modTile t f).xlt = s.xlt ∧
    (s.modTile t f).xplru = s.xplru ∧ (s.modTile t f).invWait = s.invWait ∧ (s.modTile t f).items = s.items ∧
    (s.modTile t f).finishCtr = s.finishCtr ∧ (s.modTile t f).queues = s.queues ∧ (s.modTile t f).sets = s.sets ∧
    (s.modTile t f).plan = s.plan ∧ (s.modTile t f).grout = s.grout ∧ (s.modTile t f).lostKeys = s.lostKeys ∧
    (s.modTile t f).hods = s.hods ∧ (s.modTile t f).nextJob = s.nextJob ∧ (s.modTile t f).hodDsts = s.hodDsts ∧
    (s.modTile t f).bus = s.bus ∧ (s.modTile t f).fetchLast = s.fetchLast ∧ (s.modTile t f).fns = s.fns ∧
    (s.modTile t f).msixAddr = s.msixAddr ∧ (s.modTile t f).msixData = s.msixData ∧
    (s.modTile t f).msixPend = s.msixPend ∧ (s.modTile t f).outs = s.outs ∧ (s.modTile t f).part = s.part ∧
    (s.modTile t f).tileOwner = s.tileOwner ∧ (s.modTile t f).faulty = s.faulty ∧ (s.modTile t f).c0info = s.c0info ∧
    (s.modTile t f).timer = s.timer ∧ (s.modTile t f).started = s.started ∧ (s.modTile t f).closed13 = s.closed13 ∧
    (s.modTile t f).closed0 = s.closed0 ∧ (s.modTile t f).drr = s.drr ∧ (s.modTile t f).slip = s.slip ∧
    (s.modTile t f).debt = s.debt ∧ (s.modTile t f).idle = s.idle ∧ (s.modTile t f).quadOff = s.quadOff ∧
    (s.modTile t f).quadWake = s.quadWake ∧ (s.modTile t f).closePend = s.closePend ∧
    (s.modTile t f).phases = s.phases ∧ (s.modTile t f).pw = s.pw ∧ (s.modTile t f).mults = s.mults ∧
    (s.modTile t f).board = s.board ∧ (s.modTile t f).trust = s.trust ∧ (s.modTile t f).cores = s.cores ∧
    (s.modTile t f).mmem = s.mmem ∧ (s.modTile t f).mmSeed = s.mmSeed ∧ (s.modTile t f).coreReset = s.coreReset ∧
    (s.modTile t f).coreDown = s.coreDown ∧ (s.modTile t f).ldirs = s.ldirs ∧ (s.modTile t f).sideband = s.sideband ∧
    (s.modTile t f).passes = s.passes ∧ (s.modTile t f).scrubPasses = s.scrubPasses ∧
    (s.modTile t f).scrubStart = s.scrubStart ∧ (s.modTile t f).scrubPos = s.scrubPos ∧
    (s.modTile t f).c3Held = s.c3Held ∧ (s.modTile t f).lossPend = s.lossPend ∧ (s.modTile t f).live = s.live ∧
    (s.modTile t f).ceCourse = s.ceCourse ∧ (s.modTile t f).eview = s.eview ∧ (s.modTile t f).freeCtr = s.freeCtr ∧
    (s.modTile t f).ticks = s.ticks ∧ (s.modTile t f).pending = s.pending := by
  and_intros <;> rfl

@[simp] theorem State.setSreg_frame (t i : Nat) (v : Word) :
    (s.setSreg t i v).regs = s.regs ∧ (s.setSreg t i v).mem = s.mem ∧ (s.setSreg t i v).scrambles = s.scrambles ∧
    (s.setSreg t i v).lines = s.lines ∧ (s.setSreg t i v).plru = s.plru ∧ (s.setSreg t i v).lost = s.lost ∧
    (s.setSreg t i v).copies = s.copies ∧ (s.setSreg t i v).ill = s.ill ∧ (s.setSreg t i v).gdir = s.gdir ∧
    (s.setSreg t i v).l3 = s.l3 ∧ (s.setSreg t i v).wc = s.wc ∧ (s.setSreg t i v).memUe = s.memUe ∧
    (s.setSreg t i v).memCe = s.memCe ∧ (s.setSreg t i v).memOde = s.memOde ∧ (s.setSreg t i v).scrUe = s.scrUe ∧
    (s.setSreg t i v).scrCe = s.scrCe ∧ (s.setSreg t i v).lineUe = s.lineUe ∧ (s.setSreg t i v).lineCe = s.lineCe ∧
    (s.setSreg t i v).copyUe = s.copyUe ∧ (s.setSreg t i v).tagUe = s.tagUe ∧ (s.setSreg t i v).cacheUe = s.cacheUe ∧
    (s.setSreg t i v).cacheCe = s.cacheCe ∧ (s.setSreg t i v).scr = s.scr ∧
    (s.setSreg t i v).tileHolder = s.tileHolder ∧ (s.setSreg t i v).bankHolder = s.bankHolder ∧
    (s.setSreg t i v).packets = s.packets ∧ (s.setSreg t i v).nextPid = s.nextPid ∧
    (s.setSreg t i v).blocks = s.blocks ∧ (s.setSreg t i v).nextBlock = s.nextBlock ∧
    (s.setSreg t i v).riddles = s.riddles ∧ (s.setSreg t i v).xlt = s.xlt ∧ (s.setSreg t i v).xplru = s.xplru ∧
    (s.setSreg t i v).invWait = s.invWait ∧ (s.setSreg t i v).items = s.items ∧
    (s.setSreg t i v).finishCtr = s.finishCtr ∧ (s.setSreg t i v).queues = s.queues ∧
    (s.setSreg t i v).sets = s.sets ∧ (s.setSreg t i v).plan = s.plan ∧ (s.setSreg t i v).grout = s.grout ∧
    (s.setSreg t i v).lostKeys = s.lostKeys ∧ (s.setSreg t i v).hods = s.hods ∧
    (s.setSreg t i v).nextJob = s.nextJob ∧ (s.setSreg t i v).hodDsts = s.hodDsts ∧ (s.setSreg t i v).bus = s.bus ∧
    (s.setSreg t i v).fetchLast = s.fetchLast ∧ (s.setSreg t i v).fns = s.fns ∧
    (s.setSreg t i v).msixAddr = s.msixAddr ∧ (s.setSreg t i v).msixData = s.msixData ∧
    (s.setSreg t i v).msixPend = s.msixPend ∧ (s.setSreg t i v).outs = s.outs ∧ (s.setSreg t i v).part = s.part ∧
    (s.setSreg t i v).tileOwner = s.tileOwner ∧ (s.setSreg t i v).faulty = s.faulty ∧
    (s.setSreg t i v).c0info = s.c0info ∧ (s.setSreg t i v).timer = s.timer ∧ (s.setSreg t i v).started = s.started ∧
    (s.setSreg t i v).closed13 = s.closed13 ∧ (s.setSreg t i v).closed0 = s.closed0 ∧ (s.setSreg t i v).drr = s.drr ∧
    (s.setSreg t i v).slip = s.slip ∧ (s.setSreg t i v).debt = s.debt ∧ (s.setSreg t i v).idle = s.idle ∧
    (s.setSreg t i v).quadOff = s.quadOff ∧ (s.setSreg t i v).quadWake = s.quadWake ∧
    (s.setSreg t i v).closePend = s.closePend ∧ (s.setSreg t i v).phases = s.phases ∧ (s.setSreg t i v).pw = s.pw ∧
    (s.setSreg t i v).mults = s.mults ∧ (s.setSreg t i v).board = s.board ∧ (s.setSreg t i v).trust = s.trust ∧
    (s.setSreg t i v).cores = s.cores ∧ (s.setSreg t i v).mmem = s.mmem ∧ (s.setSreg t i v).mmSeed = s.mmSeed ∧
    (s.setSreg t i v).coreReset = s.coreReset ∧ (s.setSreg t i v).coreDown = s.coreDown ∧
    (s.setSreg t i v).ldirs = s.ldirs ∧ (s.setSreg t i v).sideband = s.sideband ∧
    (s.setSreg t i v).passes = s.passes ∧ (s.setSreg t i v).scrubPasses = s.scrubPasses ∧
    (s.setSreg t i v).scrubStart = s.scrubStart ∧ (s.setSreg t i v).scrubPos = s.scrubPos ∧
    (s.setSreg t i v).c3Held = s.c3Held ∧ (s.setSreg t i v).lossPend = s.lossPend ∧ (s.setSreg t i v).live = s.live ∧
    (s.setSreg t i v).ceCourse = s.ceCourse ∧ (s.setSreg t i v).eview = s.eview ∧
    (s.setSreg t i v).freeCtr = s.freeCtr ∧ (s.setSreg t i v).ticks = s.ticks ∧
    (s.setSreg t i v).pending = s.pending := by
  and_intros <;> rfl

@[simp] theorem State.modBlock_frame (b : Nat) (f : Block → Block) :
    (s.modBlock b f).regs = s.regs ∧ (s.modBlock b f).mem = s.mem ∧ (s.modBlock b f).scrambles = s.scrambles ∧
    (s.modBlock b f).lines = s.lines ∧ (s.modBlock b f).plru = s.plru ∧ (s.modBlock b f).lost = s.lost ∧
    (s.modBlock b f).copies = s.copies ∧ (s.modBlock b f).ill = s.ill ∧ (s.modBlock b f).gdir = s.gdir ∧
    (s.modBlock b f).l3 = s.l3 ∧ (s.modBlock b f).wc = s.wc ∧ (s.modBlock b f).memUe = s.memUe ∧
    (s.modBlock b f).memCe = s.memCe ∧ (s.modBlock b f).memOde = s.memOde ∧ (s.modBlock b f).scrUe = s.scrUe ∧
    (s.modBlock b f).scrCe = s.scrCe ∧ (s.modBlock b f).lineUe = s.lineUe ∧ (s.modBlock b f).lineCe = s.lineCe ∧
    (s.modBlock b f).copyUe = s.copyUe ∧ (s.modBlock b f).tagUe = s.tagUe ∧ (s.modBlock b f).cacheUe = s.cacheUe ∧
    (s.modBlock b f).cacheCe = s.cacheCe ∧ (s.modBlock b f).scr = s.scr ∧ (s.modBlock b f).tileHolder = s.tileHolder ∧
    (s.modBlock b f).bankHolder = s.bankHolder ∧ (s.modBlock b f).tiles = s.tiles ∧
    (s.modBlock b f).packets = s.packets ∧ (s.modBlock b f).nextPid = s.nextPid ∧
    (s.modBlock b f).nextBlock = s.nextBlock ∧ (s.modBlock b f).riddles = s.riddles ∧ (s.modBlock b f).xlt = s.xlt ∧
    (s.modBlock b f).xplru = s.xplru ∧ (s.modBlock b f).invWait = s.invWait ∧ (s.modBlock b f).items = s.items ∧
    (s.modBlock b f).finishCtr = s.finishCtr ∧ (s.modBlock b f).queues = s.queues ∧ (s.modBlock b f).sets = s.sets ∧
    (s.modBlock b f).plan = s.plan ∧ (s.modBlock b f).grout = s.grout ∧ (s.modBlock b f).lostKeys = s.lostKeys ∧
    (s.modBlock b f).hods = s.hods ∧ (s.modBlock b f).nextJob = s.nextJob ∧ (s.modBlock b f).hodDsts = s.hodDsts ∧
    (s.modBlock b f).bus = s.bus ∧ (s.modBlock b f).fetchLast = s.fetchLast ∧ (s.modBlock b f).fns = s.fns ∧
    (s.modBlock b f).msixAddr = s.msixAddr ∧ (s.modBlock b f).msixData = s.msixData ∧
    (s.modBlock b f).msixPend = s.msixPend ∧ (s.modBlock b f).outs = s.outs ∧ (s.modBlock b f).part = s.part ∧
    (s.modBlock b f).tileOwner = s.tileOwner ∧ (s.modBlock b f).faulty = s.faulty ∧
    (s.modBlock b f).c0info = s.c0info ∧ (s.modBlock b f).timer = s.timer ∧ (s.modBlock b f).started = s.started ∧
    (s.modBlock b f).closed13 = s.closed13 ∧ (s.modBlock b f).closed0 = s.closed0 ∧ (s.modBlock b f).drr = s.drr ∧
    (s.modBlock b f).slip = s.slip ∧ (s.modBlock b f).debt = s.debt ∧ (s.modBlock b f).idle = s.idle ∧
    (s.modBlock b f).quadOff = s.quadOff ∧ (s.modBlock b f).quadWake = s.quadWake ∧
    (s.modBlock b f).closePend = s.closePend ∧ (s.modBlock b f).phases = s.phases ∧ (s.modBlock b f).pw = s.pw ∧
    (s.modBlock b f).mults = s.mults ∧ (s.modBlock b f).board = s.board ∧ (s.modBlock b f).trust = s.trust ∧
    (s.modBlock b f).cores = s.cores ∧ (s.modBlock b f).mmem = s.mmem ∧ (s.modBlock b f).mmSeed = s.mmSeed ∧
    (s.modBlock b f).coreReset = s.coreReset ∧ (s.modBlock b f).coreDown = s.coreDown ∧
    (s.modBlock b f).ldirs = s.ldirs ∧ (s.modBlock b f).sideband = s.sideband ∧ (s.modBlock b f).passes = s.passes ∧
    (s.modBlock b f).scrubPasses = s.scrubPasses ∧ (s.modBlock b f).scrubStart = s.scrubStart ∧
    (s.modBlock b f).scrubPos = s.scrubPos ∧ (s.modBlock b f).c3Held = s.c3Held ∧
    (s.modBlock b f).lossPend = s.lossPend ∧ (s.modBlock b f).live = s.live ∧ (s.modBlock b f).ceCourse = s.ceCourse ∧
    (s.modBlock b f).eview = s.eview ∧ (s.modBlock b f).freeCtr = s.freeCtr ∧ (s.modBlock b f).ticks = s.ticks ∧
    (s.modBlock b f).pending = s.pending := by
  and_intros <;> rfl

@[simp] theorem State.setFn_frame (f : Nat) (x : PFn) :
    (s.setFn f x).regs = s.regs ∧ (s.setFn f x).mem = s.mem ∧ (s.setFn f x).scrambles = s.scrambles ∧
    (s.setFn f x).lines = s.lines ∧ (s.setFn f x).plru = s.plru ∧ (s.setFn f x).lost = s.lost ∧
    (s.setFn f x).copies = s.copies ∧ (s.setFn f x).ill = s.ill ∧ (s.setFn f x).gdir = s.gdir ∧
    (s.setFn f x).l3 = s.l3 ∧ (s.setFn f x).wc = s.wc ∧ (s.setFn f x).memUe = s.memUe ∧
    (s.setFn f x).memCe = s.memCe ∧ (s.setFn f x).memOde = s.memOde ∧ (s.setFn f x).scrUe = s.scrUe ∧
    (s.setFn f x).scrCe = s.scrCe ∧ (s.setFn f x).lineUe = s.lineUe ∧ (s.setFn f x).lineCe = s.lineCe ∧
    (s.setFn f x).copyUe = s.copyUe ∧ (s.setFn f x).tagUe = s.tagUe ∧ (s.setFn f x).cacheUe = s.cacheUe ∧
    (s.setFn f x).cacheCe = s.cacheCe ∧ (s.setFn f x).scr = s.scr ∧ (s.setFn f x).tileHolder = s.tileHolder ∧
    (s.setFn f x).bankHolder = s.bankHolder ∧ (s.setFn f x).tiles = s.tiles ∧ (s.setFn f x).packets = s.packets ∧
    (s.setFn f x).nextPid = s.nextPid ∧ (s.setFn f x).blocks = s.blocks ∧ (s.setFn f x).nextBlock = s.nextBlock ∧
    (s.setFn f x).riddles = s.riddles ∧ (s.setFn f x).xlt = s.xlt ∧ (s.setFn f x).xplru = s.xplru ∧
    (s.setFn f x).invWait = s.invWait ∧ (s.setFn f x).items = s.items ∧ (s.setFn f x).finishCtr = s.finishCtr ∧
    (s.setFn f x).queues = s.queues ∧ (s.setFn f x).sets = s.sets ∧ (s.setFn f x).plan = s.plan ∧
    (s.setFn f x).grout = s.grout ∧ (s.setFn f x).lostKeys = s.lostKeys ∧ (s.setFn f x).hods = s.hods ∧
    (s.setFn f x).nextJob = s.nextJob ∧ (s.setFn f x).hodDsts = s.hodDsts ∧ (s.setFn f x).bus = s.bus ∧
    (s.setFn f x).fetchLast = s.fetchLast ∧ (s.setFn f x).msixAddr = s.msixAddr ∧
    (s.setFn f x).msixData = s.msixData ∧ (s.setFn f x).msixPend = s.msixPend ∧ (s.setFn f x).outs = s.outs ∧
    (s.setFn f x).part = s.part ∧ (s.setFn f x).tileOwner = s.tileOwner ∧ (s.setFn f x).faulty = s.faulty ∧
    (s.setFn f x).c0info = s.c0info ∧ (s.setFn f x).timer = s.timer ∧ (s.setFn f x).started = s.started ∧
    (s.setFn f x).closed13 = s.closed13 ∧ (s.setFn f x).closed0 = s.closed0 ∧ (s.setFn f x).drr = s.drr ∧
    (s.setFn f x).slip = s.slip ∧ (s.setFn f x).debt = s.debt ∧ (s.setFn f x).idle = s.idle ∧
    (s.setFn f x).quadOff = s.quadOff ∧ (s.setFn f x).quadWake = s.quadWake ∧ (s.setFn f x).closePend = s.closePend ∧
    (s.setFn f x).phases = s.phases ∧ (s.setFn f x).pw = s.pw ∧ (s.setFn f x).mults = s.mults ∧
    (s.setFn f x).board = s.board ∧ (s.setFn f x).trust = s.trust ∧ (s.setFn f x).cores = s.cores ∧
    (s.setFn f x).mmem = s.mmem ∧ (s.setFn f x).mmSeed = s.mmSeed ∧ (s.setFn f x).coreReset = s.coreReset ∧
    (s.setFn f x).coreDown = s.coreDown ∧ (s.setFn f x).ldirs = s.ldirs ∧ (s.setFn f x).sideband = s.sideband ∧
    (s.setFn f x).passes = s.passes ∧ (s.setFn f x).scrubPasses = s.scrubPasses ∧
    (s.setFn f x).scrubStart = s.scrubStart ∧ (s.setFn f x).scrubPos = s.scrubPos ∧ (s.setFn f x).c3Held = s.c3Held ∧
    (s.setFn f x).lossPend = s.lossPend ∧ (s.setFn f x).live = s.live ∧ (s.setFn f x).ceCourse = s.ceCourse ∧
    (s.setFn f x).eview = s.eview ∧ (s.setFn f x).freeCtr = s.freeCtr ∧ (s.setFn f x).ticks = s.ticks ∧
    (s.setFn f x).pending = s.pending := by
  and_intros <;> rfl

@[simp] theorem State.setQueue_frame (q : Nat) (x : Queue) :
    (s.setQueue q x).regs = s.regs ∧ (s.setQueue q x).mem = s.mem ∧ (s.setQueue q x).scrambles = s.scrambles ∧
    (s.setQueue q x).lines = s.lines ∧ (s.setQueue q x).plru = s.plru ∧ (s.setQueue q x).lost = s.lost ∧
    (s.setQueue q x).copies = s.copies ∧ (s.setQueue q x).ill = s.ill ∧ (s.setQueue q x).gdir = s.gdir ∧
    (s.setQueue q x).l3 = s.l3 ∧ (s.setQueue q x).wc = s.wc ∧ (s.setQueue q x).memUe = s.memUe ∧
    (s.setQueue q x).memCe = s.memCe ∧ (s.setQueue q x).memOde = s.memOde ∧ (s.setQueue q x).scrUe = s.scrUe ∧
    (s.setQueue q x).scrCe = s.scrCe ∧ (s.setQueue q x).lineUe = s.lineUe ∧ (s.setQueue q x).lineCe = s.lineCe ∧
    (s.setQueue q x).copyUe = s.copyUe ∧ (s.setQueue q x).tagUe = s.tagUe ∧ (s.setQueue q x).cacheUe = s.cacheUe ∧
    (s.setQueue q x).cacheCe = s.cacheCe ∧ (s.setQueue q x).scr = s.scr ∧ (s.setQueue q x).tileHolder = s.tileHolder ∧
    (s.setQueue q x).bankHolder = s.bankHolder ∧ (s.setQueue q x).tiles = s.tiles ∧
    (s.setQueue q x).packets = s.packets ∧ (s.setQueue q x).nextPid = s.nextPid ∧ (s.setQueue q x).blocks = s.blocks ∧
    (s.setQueue q x).nextBlock = s.nextBlock ∧ (s.setQueue q x).riddles = s.riddles ∧ (s.setQueue q x).xlt = s.xlt ∧
    (s.setQueue q x).xplru = s.xplru ∧ (s.setQueue q x).invWait = s.invWait ∧ (s.setQueue q x).items = s.items ∧
    (s.setQueue q x).finishCtr = s.finishCtr ∧ (s.setQueue q x).sets = s.sets ∧ (s.setQueue q x).plan = s.plan ∧
    (s.setQueue q x).grout = s.grout ∧ (s.setQueue q x).lostKeys = s.lostKeys ∧ (s.setQueue q x).hods = s.hods ∧
    (s.setQueue q x).nextJob = s.nextJob ∧ (s.setQueue q x).hodDsts = s.hodDsts ∧ (s.setQueue q x).bus = s.bus ∧
    (s.setQueue q x).fetchLast = s.fetchLast ∧ (s.setQueue q x).fns = s.fns ∧ (s.setQueue q x).msixAddr = s.msixAddr ∧
    (s.setQueue q x).msixData = s.msixData ∧ (s.setQueue q x).msixPend = s.msixPend ∧ (s.setQueue q x).outs = s.outs ∧
    (s.setQueue q x).part = s.part ∧ (s.setQueue q x).tileOwner = s.tileOwner ∧ (s.setQueue q x).faulty = s.faulty ∧
    (s.setQueue q x).c0info = s.c0info ∧ (s.setQueue q x).timer = s.timer ∧ (s.setQueue q x).started = s.started ∧
    (s.setQueue q x).closed13 = s.closed13 ∧ (s.setQueue q x).closed0 = s.closed0 ∧ (s.setQueue q x).drr = s.drr ∧
    (s.setQueue q x).slip = s.slip ∧ (s.setQueue q x).debt = s.debt ∧ (s.setQueue q x).idle = s.idle ∧
    (s.setQueue q x).quadOff = s.quadOff ∧ (s.setQueue q x).quadWake = s.quadWake ∧
    (s.setQueue q x).closePend = s.closePend ∧ (s.setQueue q x).phases = s.phases ∧ (s.setQueue q x).pw = s.pw ∧
    (s.setQueue q x).mults = s.mults ∧ (s.setQueue q x).board = s.board ∧ (s.setQueue q x).trust = s.trust ∧
    (s.setQueue q x).cores = s.cores ∧ (s.setQueue q x).mmem = s.mmem ∧ (s.setQueue q x).mmSeed = s.mmSeed ∧
    (s.setQueue q x).coreReset = s.coreReset ∧ (s.setQueue q x).coreDown = s.coreDown ∧
    (s.setQueue q x).ldirs = s.ldirs ∧ (s.setQueue q x).sideband = s.sideband ∧ (s.setQueue q x).passes = s.passes ∧
    (s.setQueue q x).scrubPasses = s.scrubPasses ∧ (s.setQueue q x).scrubStart = s.scrubStart ∧
    (s.setQueue q x).scrubPos = s.scrubPos ∧ (s.setQueue q x).c3Held = s.c3Held ∧
    (s.setQueue q x).lossPend = s.lossPend ∧ (s.setQueue q x).live = s.live ∧ (s.setQueue q x).ceCourse = s.ceCourse ∧
    (s.setQueue q x).eview = s.eview ∧ (s.setQueue q x).freeCtr = s.freeCtr ∧ (s.setQueue q x).ticks = s.ticks ∧
    (s.setQueue q x).pending = s.pending := by
  and_intros <;> rfl

@[simp] theorem State.modQueue_frame (q : Nat) (f : Queue → Queue) :
    (s.modQueue q f).regs = s.regs ∧ (s.modQueue q f).mem = s.mem ∧ (s.modQueue q f).scrambles = s.scrambles ∧
    (s.modQueue q f).lines = s.lines ∧ (s.modQueue q f).plru = s.plru ∧ (s.modQueue q f).lost = s.lost ∧
    (s.modQueue q f).copies = s.copies ∧ (s.modQueue q f).ill = s.ill ∧ (s.modQueue q f).gdir = s.gdir ∧
    (s.modQueue q f).l3 = s.l3 ∧ (s.modQueue q f).wc = s.wc ∧ (s.modQueue q f).memUe = s.memUe ∧
    (s.modQueue q f).memCe = s.memCe ∧ (s.modQueue q f).memOde = s.memOde ∧ (s.modQueue q f).scrUe = s.scrUe ∧
    (s.modQueue q f).scrCe = s.scrCe ∧ (s.modQueue q f).lineUe = s.lineUe ∧ (s.modQueue q f).lineCe = s.lineCe ∧
    (s.modQueue q f).copyUe = s.copyUe ∧ (s.modQueue q f).tagUe = s.tagUe ∧ (s.modQueue q f).cacheUe = s.cacheUe ∧
    (s.modQueue q f).cacheCe = s.cacheCe ∧ (s.modQueue q f).scr = s.scr ∧ (s.modQueue q f).tileHolder = s.tileHolder ∧
    (s.modQueue q f).bankHolder = s.bankHolder ∧ (s.modQueue q f).tiles = s.tiles ∧
    (s.modQueue q f).packets = s.packets ∧ (s.modQueue q f).nextPid = s.nextPid ∧ (s.modQueue q f).blocks = s.blocks ∧
    (s.modQueue q f).nextBlock = s.nextBlock ∧ (s.modQueue q f).riddles = s.riddles ∧ (s.modQueue q f).xlt = s.xlt ∧
    (s.modQueue q f).xplru = s.xplru ∧ (s.modQueue q f).invWait = s.invWait ∧ (s.modQueue q f).items = s.items ∧
    (s.modQueue q f).finishCtr = s.finishCtr ∧ (s.modQueue q f).sets = s.sets ∧ (s.modQueue q f).plan = s.plan ∧
    (s.modQueue q f).grout = s.grout ∧ (s.modQueue q f).lostKeys = s.lostKeys ∧ (s.modQueue q f).hods = s.hods ∧
    (s.modQueue q f).nextJob = s.nextJob ∧ (s.modQueue q f).hodDsts = s.hodDsts ∧ (s.modQueue q f).bus = s.bus ∧
    (s.modQueue q f).fetchLast = s.fetchLast ∧ (s.modQueue q f).fns = s.fns ∧ (s.modQueue q f).msixAddr = s.msixAddr ∧
    (s.modQueue q f).msixData = s.msixData ∧ (s.modQueue q f).msixPend = s.msixPend ∧ (s.modQueue q f).outs = s.outs ∧
    (s.modQueue q f).part = s.part ∧ (s.modQueue q f).tileOwner = s.tileOwner ∧ (s.modQueue q f).faulty = s.faulty ∧
    (s.modQueue q f).c0info = s.c0info ∧ (s.modQueue q f).timer = s.timer ∧ (s.modQueue q f).started = s.started ∧
    (s.modQueue q f).closed13 = s.closed13 ∧ (s.modQueue q f).closed0 = s.closed0 ∧ (s.modQueue q f).drr = s.drr ∧
    (s.modQueue q f).slip = s.slip ∧ (s.modQueue q f).debt = s.debt ∧ (s.modQueue q f).idle = s.idle ∧
    (s.modQueue q f).quadOff = s.quadOff ∧ (s.modQueue q f).quadWake = s.quadWake ∧
    (s.modQueue q f).closePend = s.closePend ∧ (s.modQueue q f).phases = s.phases ∧ (s.modQueue q f).pw = s.pw ∧
    (s.modQueue q f).mults = s.mults ∧ (s.modQueue q f).board = s.board ∧ (s.modQueue q f).trust = s.trust ∧
    (s.modQueue q f).cores = s.cores ∧ (s.modQueue q f).mmem = s.mmem ∧ (s.modQueue q f).mmSeed = s.mmSeed ∧
    (s.modQueue q f).coreReset = s.coreReset ∧ (s.modQueue q f).coreDown = s.coreDown ∧
    (s.modQueue q f).ldirs = s.ldirs ∧ (s.modQueue q f).sideband = s.sideband ∧ (s.modQueue q f).passes = s.passes ∧
    (s.modQueue q f).scrubPasses = s.scrubPasses ∧ (s.modQueue q f).scrubStart = s.scrubStart ∧
    (s.modQueue q f).scrubPos = s.scrubPos ∧ (s.modQueue q f).c3Held = s.c3Held ∧
    (s.modQueue q f).lossPend = s.lossPend ∧ (s.modQueue q f).live = s.live ∧ (s.modQueue q f).ceCourse = s.ceCourse ∧
    (s.modQueue q f).eview = s.eview ∧ (s.modQueue q f).freeCtr = s.freeCtr ∧ (s.modQueue q f).ticks = s.ticks ∧
    (s.modQueue q f).pending = s.pending := by
  and_intros <;> rfl

@[simp] theorem State.emit_frame (o : Out) :
    (s.emit o).regs = s.regs ∧ (s.emit o).mem = s.mem ∧ (s.emit o).scrambles = s.scrambles ∧
    (s.emit o).lines = s.lines ∧ (s.emit o).plru = s.plru ∧ (s.emit o).lost = s.lost ∧ (s.emit o).copies = s.copies ∧
    (s.emit o).ill = s.ill ∧ (s.emit o).gdir = s.gdir ∧ (s.emit o).l3 = s.l3 ∧ (s.emit o).wc = s.wc ∧
    (s.emit o).memUe = s.memUe ∧ (s.emit o).memCe = s.memCe ∧ (s.emit o).memOde = s.memOde ∧
    (s.emit o).scrUe = s.scrUe ∧ (s.emit o).scrCe = s.scrCe ∧ (s.emit o).lineUe = s.lineUe ∧
    (s.emit o).lineCe = s.lineCe ∧ (s.emit o).copyUe = s.copyUe ∧ (s.emit o).tagUe = s.tagUe ∧
    (s.emit o).cacheUe = s.cacheUe ∧ (s.emit o).cacheCe = s.cacheCe ∧ (s.emit o).scr = s.scr ∧
    (s.emit o).tileHolder = s.tileHolder ∧ (s.emit o).bankHolder = s.bankHolder ∧ (s.emit o).tiles = s.tiles ∧
    (s.emit o).packets = s.packets ∧ (s.emit o).nextPid = s.nextPid ∧ (s.emit o).blocks = s.blocks ∧
    (s.emit o).nextBlock = s.nextBlock ∧ (s.emit o).riddles = s.riddles ∧ (s.emit o).xlt = s.xlt ∧
    (s.emit o).xplru = s.xplru ∧ (s.emit o).invWait = s.invWait ∧ (s.emit o).items = s.items ∧
    (s.emit o).finishCtr = s.finishCtr ∧ (s.emit o).queues = s.queues ∧ (s.emit o).sets = s.sets ∧
    (s.emit o).plan = s.plan ∧ (s.emit o).grout = s.grout ∧ (s.emit o).lostKeys = s.lostKeys ∧
    (s.emit o).hods = s.hods ∧ (s.emit o).nextJob = s.nextJob ∧ (s.emit o).hodDsts = s.hodDsts ∧
    (s.emit o).bus = s.bus ∧ (s.emit o).fetchLast = s.fetchLast ∧ (s.emit o).fns = s.fns ∧
    (s.emit o).msixAddr = s.msixAddr ∧ (s.emit o).msixData = s.msixData ∧ (s.emit o).msixPend = s.msixPend ∧
    (s.emit o).part = s.part ∧ (s.emit o).tileOwner = s.tileOwner ∧ (s.emit o).faulty = s.faulty ∧
    (s.emit o).c0info = s.c0info ∧ (s.emit o).timer = s.timer ∧ (s.emit o).started = s.started ∧
    (s.emit o).closed13 = s.closed13 ∧ (s.emit o).closed0 = s.closed0 ∧ (s.emit o).drr = s.drr ∧
    (s.emit o).slip = s.slip ∧ (s.emit o).debt = s.debt ∧ (s.emit o).idle = s.idle ∧ (s.emit o).quadOff = s.quadOff ∧
    (s.emit o).quadWake = s.quadWake ∧ (s.emit o).closePend = s.closePend ∧ (s.emit o).phases = s.phases ∧
    (s.emit o).pw = s.pw ∧ (s.emit o).mults = s.mults ∧ (s.emit o).board = s.board ∧ (s.emit o).trust = s.trust ∧
    (s.emit o).cores = s.cores ∧ (s.emit o).mmem = s.mmem ∧ (s.emit o).mmSeed = s.mmSeed ∧
    (s.emit o).coreReset = s.coreReset ∧ (s.emit o).coreDown = s.coreDown ∧ (s.emit o).ldirs = s.ldirs ∧
    (s.emit o).sideband = s.sideband ∧ (s.emit o).passes = s.passes ∧ (s.emit o).scrubPasses = s.scrubPasses ∧
    (s.emit o).scrubStart = s.scrubStart ∧ (s.emit o).scrubPos = s.scrubPos ∧ (s.emit o).c3Held = s.c3Held ∧
    (s.emit o).lossPend = s.lossPend ∧ (s.emit o).live = s.live ∧ (s.emit o).ceCourse = s.ceCourse ∧
    (s.emit o).eview = s.eview ∧ (s.emit o).freeCtr = s.freeCtr ∧ (s.emit o).ticks = s.ticks ∧
    (s.emit o).pending = s.pending := by
  and_intros <;> rfl

@[simp] theorem State.putByte_frame (a : Nat) (b : Byte) :
    (s.putByte a b).regs = s.regs ∧ (s.putByte a b).scrambles = s.scrambles ∧ (s.putByte a b).lines = s.lines ∧
    (s.putByte a b).plru = s.plru ∧ (s.putByte a b).lost = s.lost ∧ (s.putByte a b).copies = s.copies ∧
    (s.putByte a b).ill = s.ill ∧ (s.putByte a b).gdir = s.gdir ∧ (s.putByte a b).l3 = s.l3 ∧
    (s.putByte a b).wc = s.wc ∧ (s.putByte a b).memUe = s.memUe ∧ (s.putByte a b).memCe = s.memCe ∧
    (s.putByte a b).memOde = s.memOde ∧ (s.putByte a b).scrUe = s.scrUe ∧ (s.putByte a b).scrCe = s.scrCe ∧
    (s.putByte a b).lineUe = s.lineUe ∧ (s.putByte a b).lineCe = s.lineCe ∧ (s.putByte a b).copyUe = s.copyUe ∧
    (s.putByte a b).tagUe = s.tagUe ∧ (s.putByte a b).cacheUe = s.cacheUe ∧ (s.putByte a b).cacheCe = s.cacheCe ∧
    (s.putByte a b).scr = s.scr ∧ (s.putByte a b).tileHolder = s.tileHolder ∧
    (s.putByte a b).bankHolder = s.bankHolder ∧ (s.putByte a b).tiles = s.tiles ∧
    (s.putByte a b).packets = s.packets ∧ (s.putByte a b).nextPid = s.nextPid ∧ (s.putByte a b).blocks = s.blocks ∧
    (s.putByte a b).nextBlock = s.nextBlock ∧ (s.putByte a b).riddles = s.riddles ∧ (s.putByte a b).xlt = s.xlt ∧
    (s.putByte a b).xplru = s.xplru ∧ (s.putByte a b).invWait = s.invWait ∧ (s.putByte a b).items = s.items ∧
    (s.putByte a b).finishCtr = s.finishCtr ∧ (s.putByte a b).queues = s.queues ∧ (s.putByte a b).sets = s.sets ∧
    (s.putByte a b).plan = s.plan ∧ (s.putByte a b).grout = s.grout ∧ (s.putByte a b).lostKeys = s.lostKeys ∧
    (s.putByte a b).hods = s.hods ∧ (s.putByte a b).nextJob = s.nextJob ∧ (s.putByte a b).hodDsts = s.hodDsts ∧
    (s.putByte a b).bus = s.bus ∧ (s.putByte a b).fetchLast = s.fetchLast ∧ (s.putByte a b).fns = s.fns ∧
    (s.putByte a b).msixAddr = s.msixAddr ∧ (s.putByte a b).msixData = s.msixData ∧
    (s.putByte a b).msixPend = s.msixPend ∧ (s.putByte a b).outs = s.outs ∧ (s.putByte a b).part = s.part ∧
    (s.putByte a b).tileOwner = s.tileOwner ∧ (s.putByte a b).faulty = s.faulty ∧ (s.putByte a b).c0info = s.c0info ∧
    (s.putByte a b).timer = s.timer ∧ (s.putByte a b).started = s.started ∧ (s.putByte a b).closed13 = s.closed13 ∧
    (s.putByte a b).closed0 = s.closed0 ∧ (s.putByte a b).drr = s.drr ∧ (s.putByte a b).slip = s.slip ∧
    (s.putByte a b).debt = s.debt ∧ (s.putByte a b).idle = s.idle ∧ (s.putByte a b).quadOff = s.quadOff ∧
    (s.putByte a b).quadWake = s.quadWake ∧ (s.putByte a b).closePend = s.closePend ∧
    (s.putByte a b).phases = s.phases ∧ (s.putByte a b).pw = s.pw ∧ (s.putByte a b).mults = s.mults ∧
    (s.putByte a b).board = s.board ∧ (s.putByte a b).trust = s.trust ∧ (s.putByte a b).cores = s.cores ∧
    (s.putByte a b).mmem = s.mmem ∧ (s.putByte a b).mmSeed = s.mmSeed ∧ (s.putByte a b).coreReset = s.coreReset ∧
    (s.putByte a b).coreDown = s.coreDown ∧ (s.putByte a b).ldirs = s.ldirs ∧ (s.putByte a b).sideband = s.sideband ∧
    (s.putByte a b).passes = s.passes ∧ (s.putByte a b).scrubPasses = s.scrubPasses ∧
    (s.putByte a b).scrubStart = s.scrubStart ∧ (s.putByte a b).scrubPos = s.scrubPos ∧
    (s.putByte a b).c3Held = s.c3Held ∧ (s.putByte a b).lossPend = s.lossPend ∧ (s.putByte a b).live = s.live ∧
    (s.putByte a b).ceCourse = s.ceCourse ∧ (s.putByte a b).eview = s.eview ∧ (s.putByte a b).freeCtr = s.freeCtr ∧
    (s.putByte a b).ticks = s.ticks ∧ (s.putByte a b).pending = s.pending := by
  and_intros <;> rfl

@[simp] theorem State.modItem_frame (q seq : Nat) (f : Item → Item) :
    (s.modItem q seq f).regs = s.regs ∧ (s.modItem q seq f).mem = s.mem ∧
    (s.modItem q seq f).scrambles = s.scrambles ∧ (s.modItem q seq f).lines = s.lines ∧
    (s.modItem q seq f).plru = s.plru ∧ (s.modItem q seq f).lost = s.lost ∧ (s.modItem q seq f).copies = s.copies ∧
    (s.modItem q seq f).ill = s.ill ∧ (s.modItem q seq f).gdir = s.gdir ∧ (s.modItem q seq f).l3 = s.l3 ∧
    (s.modItem q seq f).wc = s.wc ∧ (s.modItem q seq f).memUe = s.memUe ∧ (s.modItem q seq f).memCe = s.memCe ∧
    (s.modItem q seq f).memOde = s.memOde ∧ (s.modItem q seq f).scrUe = s.scrUe ∧
    (s.modItem q seq f).scrCe = s.scrCe ∧ (s.modItem q seq f).lineUe = s.lineUe ∧
    (s.modItem q seq f).lineCe = s.lineCe ∧ (s.modItem q seq f).copyUe = s.copyUe ∧
    (s.modItem q seq f).tagUe = s.tagUe ∧ (s.modItem q seq f).cacheUe = s.cacheUe ∧
    (s.modItem q seq f).cacheCe = s.cacheCe ∧ (s.modItem q seq f).scr = s.scr ∧
    (s.modItem q seq f).tileHolder = s.tileHolder ∧ (s.modItem q seq f).bankHolder = s.bankHolder ∧
    (s.modItem q seq f).tiles = s.tiles ∧ (s.modItem q seq f).packets = s.packets ∧
    (s.modItem q seq f).nextPid = s.nextPid ∧ (s.modItem q seq f).blocks = s.blocks ∧
    (s.modItem q seq f).nextBlock = s.nextBlock ∧ (s.modItem q seq f).riddles = s.riddles ∧
    (s.modItem q seq f).xlt = s.xlt ∧ (s.modItem q seq f).xplru = s.xplru ∧ (s.modItem q seq f).invWait = s.invWait ∧
    (s.modItem q seq f).finishCtr = s.finishCtr ∧ (s.modItem q seq f).queues = s.queues ∧
    (s.modItem q seq f).sets = s.sets ∧ (s.modItem q seq f).plan = s.plan ∧ (s.modItem q seq f).grout = s.grout ∧
    (s.modItem q seq f).lostKeys = s.lostKeys ∧ (s.modItem q seq f).hods = s.hods ∧
    (s.modItem q seq f).nextJob = s.nextJob ∧ (s.modItem q seq f).hodDsts = s.hodDsts ∧
    (s.modItem q seq f).bus = s.bus ∧ (s.modItem q seq f).fetchLast = s.fetchLast ∧ (s.modItem q seq f).fns = s.fns ∧
    (s.modItem q seq f).msixAddr = s.msixAddr ∧ (s.modItem q seq f).msixData = s.msixData ∧
    (s.modItem q seq f).msixPend = s.msixPend ∧ (s.modItem q seq f).outs = s.outs ∧
    (s.modItem q seq f).part = s.part ∧ (s.modItem q seq f).tileOwner = s.tileOwner ∧
    (s.modItem q seq f).faulty = s.faulty ∧ (s.modItem q seq f).c0info = s.c0info ∧
    (s.modItem q seq f).timer = s.timer ∧ (s.modItem q seq f).started = s.started ∧
    (s.modItem q seq f).closed13 = s.closed13 ∧ (s.modItem q seq f).closed0 = s.closed0 ∧
    (s.modItem q seq f).drr = s.drr ∧ (s.modItem q seq f).slip = s.slip ∧ (s.modItem q seq f).debt = s.debt ∧
    (s.modItem q seq f).idle = s.idle ∧ (s.modItem q seq f).quadOff = s.quadOff ∧
    (s.modItem q seq f).quadWake = s.quadWake ∧ (s.modItem q seq f).closePend = s.closePend ∧
    (s.modItem q seq f).phases = s.phases ∧ (s.modItem q seq f).pw = s.pw ∧ (s.modItem q seq f).mults = s.mults ∧
    (s.modItem q seq f).board = s.board ∧ (s.modItem q seq f).trust = s.trust ∧ (s.modItem q seq f).cores = s.cores ∧
    (s.modItem q seq f).mmem = s.mmem ∧ (s.modItem q seq f).mmSeed = s.mmSeed ∧
    (s.modItem q seq f).coreReset = s.coreReset ∧ (s.modItem q seq f).coreDown = s.coreDown ∧
    (s.modItem q seq f).ldirs = s.ldirs ∧ (s.modItem q seq f).sideband = s.sideband ∧
    (s.modItem q seq f).passes = s.passes ∧ (s.modItem q seq f).scrubPasses = s.scrubPasses ∧
    (s.modItem q seq f).scrubStart = s.scrubStart ∧ (s.modItem q seq f).scrubPos = s.scrubPos ∧
    (s.modItem q seq f).c3Held = s.c3Held ∧ (s.modItem q seq f).lossPend = s.lossPend ∧
    (s.modItem q seq f).live = s.live ∧ (s.modItem q seq f).ceCourse = s.ceCourse ∧
    (s.modItem q seq f).eview = s.eview ∧ (s.modItem q seq f).freeCtr = s.freeCtr ∧
    (s.modItem q seq f).ticks = s.ticks ∧ (s.modItem q seq f).pending = s.pending := by
  and_intros <;> rfl

@[simp] theorem State.setHod_frame (h : Nat) (l : List HodJob) :
    (s.setHod h l).regs = s.regs ∧ (s.setHod h l).mem = s.mem ∧ (s.setHod h l).scrambles = s.scrambles ∧
    (s.setHod h l).lines = s.lines ∧ (s.setHod h l).plru = s.plru ∧ (s.setHod h l).lost = s.lost ∧
    (s.setHod h l).copies = s.copies ∧ (s.setHod h l).ill = s.ill ∧ (s.setHod h l).gdir = s.gdir ∧
    (s.setHod h l).l3 = s.l3 ∧ (s.setHod h l).wc = s.wc ∧ (s.setHod h l).memUe = s.memUe ∧
    (s.setHod h l).memCe = s.memCe ∧ (s.setHod h l).memOde = s.memOde ∧ (s.setHod h l).scrUe = s.scrUe ∧
    (s.setHod h l).scrCe = s.scrCe ∧ (s.setHod h l).lineUe = s.lineUe ∧ (s.setHod h l).lineCe = s.lineCe ∧
    (s.setHod h l).copyUe = s.copyUe ∧ (s.setHod h l).tagUe = s.tagUe ∧ (s.setHod h l).cacheUe = s.cacheUe ∧
    (s.setHod h l).cacheCe = s.cacheCe ∧ (s.setHod h l).scr = s.scr ∧ (s.setHod h l).tileHolder = s.tileHolder ∧
    (s.setHod h l).bankHolder = s.bankHolder ∧ (s.setHod h l).tiles = s.tiles ∧ (s.setHod h l).packets = s.packets ∧
    (s.setHod h l).nextPid = s.nextPid ∧ (s.setHod h l).blocks = s.blocks ∧ (s.setHod h l).nextBlock = s.nextBlock ∧
    (s.setHod h l).riddles = s.riddles ∧ (s.setHod h l).xlt = s.xlt ∧ (s.setHod h l).xplru = s.xplru ∧
    (s.setHod h l).invWait = s.invWait ∧ (s.setHod h l).items = s.items ∧ (s.setHod h l).finishCtr = s.finishCtr ∧
    (s.setHod h l).queues = s.queues ∧ (s.setHod h l).sets = s.sets ∧ (s.setHod h l).plan = s.plan ∧
    (s.setHod h l).grout = s.grout ∧ (s.setHod h l).lostKeys = s.lostKeys ∧ (s.setHod h l).nextJob = s.nextJob ∧
    (s.setHod h l).hodDsts = s.hodDsts ∧ (s.setHod h l).bus = s.bus ∧ (s.setHod h l).fetchLast = s.fetchLast ∧
    (s.setHod h l).fns = s.fns ∧ (s.setHod h l).msixAddr = s.msixAddr ∧ (s.setHod h l).msixData = s.msixData ∧
    (s.setHod h l).msixPend = s.msixPend ∧ (s.setHod h l).outs = s.outs ∧ (s.setHod h l).part = s.part ∧
    (s.setHod h l).tileOwner = s.tileOwner ∧ (s.setHod h l).faulty = s.faulty ∧ (s.setHod h l).c0info = s.c0info ∧
    (s.setHod h l).timer = s.timer ∧ (s.setHod h l).started = s.started ∧ (s.setHod h l).closed13 = s.closed13 ∧
    (s.setHod h l).closed0 = s.closed0 ∧ (s.setHod h l).drr = s.drr ∧ (s.setHod h l).slip = s.slip ∧
    (s.setHod h l).debt = s.debt ∧ (s.setHod h l).idle = s.idle ∧ (s.setHod h l).quadOff = s.quadOff ∧
    (s.setHod h l).quadWake = s.quadWake ∧ (s.setHod h l).closePend = s.closePend ∧ (s.setHod h l).phases = s.phases ∧
    (s.setHod h l).pw = s.pw ∧ (s.setHod h l).mults = s.mults ∧ (s.setHod h l).board = s.board ∧
    (s.setHod h l).trust = s.trust ∧ (s.setHod h l).cores = s.cores ∧ (s.setHod h l).mmem = s.mmem ∧
    (s.setHod h l).mmSeed = s.mmSeed ∧ (s.setHod h l).coreReset = s.coreReset ∧ (s.setHod h l).coreDown = s.coreDown ∧
    (s.setHod h l).ldirs = s.ldirs ∧ (s.setHod h l).sideband = s.sideband ∧ (s.setHod h l).passes = s.passes ∧
    (s.setHod h l).scrubPasses = s.scrubPasses ∧ (s.setHod h l).scrubStart = s.scrubStart ∧
    (s.setHod h l).scrubPos = s.scrubPos ∧ (s.setHod h l).c3Held = s.c3Held ∧ (s.setHod h l).lossPend = s.lossPend ∧
    (s.setHod h l).live = s.live ∧ (s.setHod h l).ceCourse = s.ceCourse ∧ (s.setHod h l).eview = s.eview ∧
    (s.setHod h l).freeCtr = s.freeCtr ∧ (s.setHod h l).ticks = s.ticks ∧ (s.setHod h l).pending = s.pending := by
  and_intros <;> rfl

@[simp] theorem State.modCore_frame (n : Nat) (f : Core → Core) :
    (s.modCore n f).regs = s.regs ∧ (s.modCore n f).mem = s.mem ∧ (s.modCore n f).scrambles = s.scrambles ∧
    (s.modCore n f).lines = s.lines ∧ (s.modCore n f).plru = s.plru ∧ (s.modCore n f).lost = s.lost ∧
    (s.modCore n f).copies = s.copies ∧ (s.modCore n f).ill = s.ill ∧ (s.modCore n f).gdir = s.gdir ∧
    (s.modCore n f).l3 = s.l3 ∧ (s.modCore n f).wc = s.wc ∧ (s.modCore n f).memUe = s.memUe ∧
    (s.modCore n f).memCe = s.memCe ∧ (s.modCore n f).memOde = s.memOde ∧ (s.modCore n f).scrUe = s.scrUe ∧
    (s.modCore n f).scrCe = s.scrCe ∧ (s.modCore n f).lineUe = s.lineUe ∧ (s.modCore n f).lineCe = s.lineCe ∧
    (s.modCore n f).copyUe = s.copyUe ∧ (s.modCore n f).tagUe = s.tagUe ∧ (s.modCore n f).cacheUe = s.cacheUe ∧
    (s.modCore n f).cacheCe = s.cacheCe ∧ (s.modCore n f).scr = s.scr ∧ (s.modCore n f).tileHolder = s.tileHolder ∧
    (s.modCore n f).bankHolder = s.bankHolder ∧ (s.modCore n f).tiles = s.tiles ∧
    (s.modCore n f).packets = s.packets ∧ (s.modCore n f).nextPid = s.nextPid ∧ (s.modCore n f).blocks = s.blocks ∧
    (s.modCore n f).nextBlock = s.nextBlock ∧ (s.modCore n f).riddles = s.riddles ∧ (s.modCore n f).xlt = s.xlt ∧
    (s.modCore n f).xplru = s.xplru ∧ (s.modCore n f).invWait = s.invWait ∧ (s.modCore n f).items = s.items ∧
    (s.modCore n f).finishCtr = s.finishCtr ∧ (s.modCore n f).queues = s.queues ∧ (s.modCore n f).sets = s.sets ∧
    (s.modCore n f).plan = s.plan ∧ (s.modCore n f).grout = s.grout ∧ (s.modCore n f).lostKeys = s.lostKeys ∧
    (s.modCore n f).hods = s.hods ∧ (s.modCore n f).nextJob = s.nextJob ∧ (s.modCore n f).hodDsts = s.hodDsts ∧
    (s.modCore n f).bus = s.bus ∧ (s.modCore n f).fetchLast = s.fetchLast ∧ (s.modCore n f).fns = s.fns ∧
    (s.modCore n f).msixAddr = s.msixAddr ∧ (s.modCore n f).msixData = s.msixData ∧
    (s.modCore n f).msixPend = s.msixPend ∧ (s.modCore n f).outs = s.outs ∧ (s.modCore n f).part = s.part ∧
    (s.modCore n f).tileOwner = s.tileOwner ∧ (s.modCore n f).faulty = s.faulty ∧ (s.modCore n f).c0info = s.c0info ∧
    (s.modCore n f).timer = s.timer ∧ (s.modCore n f).started = s.started ∧ (s.modCore n f).closed13 = s.closed13 ∧
    (s.modCore n f).closed0 = s.closed0 ∧ (s.modCore n f).drr = s.drr ∧ (s.modCore n f).slip = s.slip ∧
    (s.modCore n f).debt = s.debt ∧ (s.modCore n f).idle = s.idle ∧ (s.modCore n f).quadOff = s.quadOff ∧
    (s.modCore n f).quadWake = s.quadWake ∧ (s.modCore n f).closePend = s.closePend ∧
    (s.modCore n f).phases = s.phases ∧ (s.modCore n f).pw = s.pw ∧ (s.modCore n f).mults = s.mults ∧
    (s.modCore n f).board = s.board ∧ (s.modCore n f).trust = s.trust ∧ (s.modCore n f).mmem = s.mmem ∧
    (s.modCore n f).mmSeed = s.mmSeed ∧ (s.modCore n f).coreReset = s.coreReset ∧
    (s.modCore n f).coreDown = s.coreDown ∧ (s.modCore n f).ldirs = s.ldirs ∧ (s.modCore n f).sideband = s.sideband ∧
    (s.modCore n f).passes = s.passes ∧ (s.modCore n f).scrubPasses = s.scrubPasses ∧
    (s.modCore n f).scrubStart = s.scrubStart ∧ (s.modCore n f).scrubPos = s.scrubPos ∧
    (s.modCore n f).c3Held = s.c3Held ∧ (s.modCore n f).lossPend = s.lossPend ∧ (s.modCore n f).live = s.live ∧
    (s.modCore n f).ceCourse = s.ceCourse ∧ (s.modCore n f).eview = s.eview ∧ (s.modCore n f).freeCtr = s.freeCtr ∧
    (s.modCore n f).ticks = s.ticks ∧ (s.modCore n f).pending = s.pending := by
  and_intros <;> rfl

@[simp] theorem State.setLdir_frame (l : Nat) (ba : Bool) (x : LDir) :
    (s.setLdir l ba x).regs = s.regs ∧ (s.setLdir l ba x).mem = s.mem ∧ (s.setLdir l ba x).scrambles = s.scrambles ∧
    (s.setLdir l ba x).lines = s.lines ∧ (s.setLdir l ba x).plru = s.plru ∧ (s.setLdir l ba x).lost = s.lost ∧
    (s.setLdir l ba x).copies = s.copies ∧ (s.setLdir l ba x).ill = s.ill ∧ (s.setLdir l ba x).gdir = s.gdir ∧
    (s.setLdir l ba x).l3 = s.l3 ∧ (s.setLdir l ba x).wc = s.wc ∧ (s.setLdir l ba x).memUe = s.memUe ∧
    (s.setLdir l ba x).memCe = s.memCe ∧ (s.setLdir l ba x).memOde = s.memOde ∧ (s.setLdir l ba x).scrUe = s.scrUe ∧
    (s.setLdir l ba x).scrCe = s.scrCe ∧ (s.setLdir l ba x).lineUe = s.lineUe ∧ (s.setLdir l ba x).lineCe = s.lineCe ∧
    (s.setLdir l ba x).copyUe = s.copyUe ∧ (s.setLdir l ba x).tagUe = s.tagUe ∧
    (s.setLdir l ba x).cacheUe = s.cacheUe ∧ (s.setLdir l ba x).cacheCe = s.cacheCe ∧ (s.setLdir l ba x).scr = s.scr ∧
    (s.setLdir l ba x).tileHolder = s.tileHolder ∧ (s.setLdir l ba x).bankHolder = s.bankHolder ∧
    (s.setLdir l ba x).tiles = s.tiles ∧ (s.setLdir l ba x).packets = s.packets ∧
    (s.setLdir l ba x).nextPid = s.nextPid ∧ (s.setLdir l ba x).blocks = s.blocks ∧
    (s.setLdir l ba x).nextBlock = s.nextBlock ∧ (s.setLdir l ba x).riddles = s.riddles ∧
    (s.setLdir l ba x).xlt = s.xlt ∧ (s.setLdir l ba x).xplru = s.xplru ∧ (s.setLdir l ba x).invWait = s.invWait ∧
    (s.setLdir l ba x).items = s.items ∧ (s.setLdir l ba x).finishCtr = s.finishCtr ∧
    (s.setLdir l ba x).queues = s.queues ∧ (s.setLdir l ba x).sets = s.sets ∧ (s.setLdir l ba x).plan = s.plan ∧
    (s.setLdir l ba x).grout = s.grout ∧ (s.setLdir l ba x).lostKeys = s.lostKeys ∧ (s.setLdir l ba x).hods = s.hods ∧
    (s.setLdir l ba x).nextJob = s.nextJob ∧ (s.setLdir l ba x).hodDsts = s.hodDsts ∧ (s.setLdir l ba x).bus = s.bus ∧
    (s.setLdir l ba x).fetchLast = s.fetchLast ∧ (s.setLdir l ba x).fns = s.fns ∧
    (s.setLdir l ba x).msixAddr = s.msixAddr ∧ (s.setLdir l ba x).msixData = s.msixData ∧
    (s.setLdir l ba x).msixPend = s.msixPend ∧ (s.setLdir l ba x).outs = s.outs ∧ (s.setLdir l ba x).part = s.part ∧
    (s.setLdir l ba x).tileOwner = s.tileOwner ∧ (s.setLdir l ba x).faulty = s.faulty ∧
    (s.setLdir l ba x).c0info = s.c0info ∧ (s.setLdir l ba x).timer = s.timer ∧
    (s.setLdir l ba x).started = s.started ∧ (s.setLdir l ba x).closed13 = s.closed13 ∧
    (s.setLdir l ba x).closed0 = s.closed0 ∧ (s.setLdir l ba x).drr = s.drr ∧ (s.setLdir l ba x).slip = s.slip ∧
    (s.setLdir l ba x).debt = s.debt ∧ (s.setLdir l ba x).idle = s.idle ∧ (s.setLdir l ba x).quadOff = s.quadOff ∧
    (s.setLdir l ba x).quadWake = s.quadWake ∧ (s.setLdir l ba x).closePend = s.closePend ∧
    (s.setLdir l ba x).phases = s.phases ∧ (s.setLdir l ba x).pw = s.pw ∧ (s.setLdir l ba x).mults = s.mults ∧
    (s.setLdir l ba x).board = s.board ∧ (s.setLdir l ba x).trust = s.trust ∧ (s.setLdir l ba x).cores = s.cores ∧
    (s.setLdir l ba x).mmem = s.mmem ∧ (s.setLdir l ba x).mmSeed = s.mmSeed ∧
    (s.setLdir l ba x).coreReset = s.coreReset ∧ (s.setLdir l ba x).coreDown = s.coreDown ∧
    (s.setLdir l ba x).sideband = s.sideband ∧ (s.setLdir l ba x).passes = s.passes ∧
    (s.setLdir l ba x).scrubPasses = s.scrubPasses ∧ (s.setLdir l ba x).scrubStart = s.scrubStart ∧
    (s.setLdir l ba x).scrubPos = s.scrubPos ∧ (s.setLdir l ba x).c3Held = s.c3Held ∧
    (s.setLdir l ba x).lossPend = s.lossPend ∧ (s.setLdir l ba x).live = s.live ∧
    (s.setLdir l ba x).ceCourse = s.ceCourse ∧ (s.setLdir l ba x).eview = s.eview ∧
    (s.setLdir l ba x).freeCtr = s.freeCtr ∧ (s.setLdir l ba x).ticks = s.ticks ∧
    (s.setLdir l ba x).pending = s.pending := by
  and_intros <;> rfl

@[simp] theorem State.setJobs_frame (d : Nat) (l : List RJob) :
    (s.setJobs d l).regs = s.regs ∧ (s.setJobs d l).mem = s.mem ∧ (s.setJobs d l).scrambles = s.scrambles ∧
    (s.setJobs d l).lines = s.lines ∧ (s.setJobs d l).plru = s.plru ∧ (s.setJobs d l).lost = s.lost ∧
    (s.setJobs d l).copies = s.copies ∧ (s.setJobs d l).ill = s.ill ∧ (s.setJobs d l).gdir = s.gdir ∧
    (s.setJobs d l).l3 = s.l3 ∧ (s.setJobs d l).wc = s.wc ∧ (s.setJobs d l).memUe = s.memUe ∧
    (s.setJobs d l).memCe = s.memCe ∧ (s.setJobs d l).memOde = s.memOde ∧ (s.setJobs d l).scrUe = s.scrUe ∧
    (s.setJobs d l).scrCe = s.scrCe ∧ (s.setJobs d l).lineUe = s.lineUe ∧ (s.setJobs d l).lineCe = s.lineCe ∧
    (s.setJobs d l).copyUe = s.copyUe ∧ (s.setJobs d l).tagUe = s.tagUe ∧ (s.setJobs d l).cacheUe = s.cacheUe ∧
    (s.setJobs d l).cacheCe = s.cacheCe ∧ (s.setJobs d l).scr = s.scr ∧ (s.setJobs d l).tileHolder = s.tileHolder ∧
    (s.setJobs d l).bankHolder = s.bankHolder ∧ (s.setJobs d l).tiles = s.tiles ∧
    (s.setJobs d l).packets = s.packets ∧ (s.setJobs d l).nextPid = s.nextPid ∧ (s.setJobs d l).blocks = s.blocks ∧
    (s.setJobs d l).nextBlock = s.nextBlock ∧ (s.setJobs d l).xlt = s.xlt ∧ (s.setJobs d l).xplru = s.xplru ∧
    (s.setJobs d l).invWait = s.invWait ∧ (s.setJobs d l).items = s.items ∧ (s.setJobs d l).finishCtr = s.finishCtr ∧
    (s.setJobs d l).queues = s.queues ∧ (s.setJobs d l).sets = s.sets ∧ (s.setJobs d l).plan = s.plan ∧
    (s.setJobs d l).grout = s.grout ∧ (s.setJobs d l).lostKeys = s.lostKeys ∧ (s.setJobs d l).hods = s.hods ∧
    (s.setJobs d l).nextJob = s.nextJob ∧ (s.setJobs d l).hodDsts = s.hodDsts ∧ (s.setJobs d l).bus = s.bus ∧
    (s.setJobs d l).fetchLast = s.fetchLast ∧ (s.setJobs d l).fns = s.fns ∧ (s.setJobs d l).msixAddr = s.msixAddr ∧
    (s.setJobs d l).msixData = s.msixData ∧ (s.setJobs d l).msixPend = s.msixPend ∧ (s.setJobs d l).outs = s.outs ∧
    (s.setJobs d l).part = s.part ∧ (s.setJobs d l).tileOwner = s.tileOwner ∧ (s.setJobs d l).faulty = s.faulty ∧
    (s.setJobs d l).c0info = s.c0info ∧ (s.setJobs d l).timer = s.timer ∧ (s.setJobs d l).started = s.started ∧
    (s.setJobs d l).closed13 = s.closed13 ∧ (s.setJobs d l).closed0 = s.closed0 ∧ (s.setJobs d l).drr = s.drr ∧
    (s.setJobs d l).slip = s.slip ∧ (s.setJobs d l).debt = s.debt ∧ (s.setJobs d l).idle = s.idle ∧
    (s.setJobs d l).quadOff = s.quadOff ∧ (s.setJobs d l).quadWake = s.quadWake ∧
    (s.setJobs d l).closePend = s.closePend ∧ (s.setJobs d l).phases = s.phases ∧ (s.setJobs d l).pw = s.pw ∧
    (s.setJobs d l).mults = s.mults ∧ (s.setJobs d l).board = s.board ∧ (s.setJobs d l).trust = s.trust ∧
    (s.setJobs d l).cores = s.cores ∧ (s.setJobs d l).mmem = s.mmem ∧ (s.setJobs d l).mmSeed = s.mmSeed ∧
    (s.setJobs d l).coreReset = s.coreReset ∧ (s.setJobs d l).coreDown = s.coreDown ∧
    (s.setJobs d l).ldirs = s.ldirs ∧ (s.setJobs d l).sideband = s.sideband ∧ (s.setJobs d l).passes = s.passes ∧
    (s.setJobs d l).scrubPasses = s.scrubPasses ∧ (s.setJobs d l).scrubStart = s.scrubStart ∧
    (s.setJobs d l).scrubPos = s.scrubPos ∧ (s.setJobs d l).c3Held = s.c3Held ∧
    (s.setJobs d l).lossPend = s.lossPend ∧ (s.setJobs d l).live = s.live ∧ (s.setJobs d l).ceCourse = s.ceCourse ∧
    (s.setJobs d l).eview = s.eview ∧ (s.setJobs d l).freeCtr = s.freeCtr ∧ (s.setJobs d l).ticks = s.ticks ∧
    (s.setJobs d l).pending = s.pending := by
  and_intros <;> rfl

@[simp] theorem State.setDuty_frame (t n : Nat) :
    (s.setDuty t n).regs = s.regs ∧ (s.setDuty t n).mem = s.mem ∧ (s.setDuty t n).scrambles = s.scrambles ∧
    (s.setDuty t n).lines = s.lines ∧ (s.setDuty t n).plru = s.plru ∧ (s.setDuty t n).lost = s.lost ∧
    (s.setDuty t n).copies = s.copies ∧ (s.setDuty t n).ill = s.ill ∧ (s.setDuty t n).gdir = s.gdir ∧
    (s.setDuty t n).l3 = s.l3 ∧ (s.setDuty t n).wc = s.wc ∧ (s.setDuty t n).memUe = s.memUe ∧
    (s.setDuty t n).memCe = s.memCe ∧ (s.setDuty t n).memOde = s.memOde ∧ (s.setDuty t n).scrUe = s.scrUe ∧
    (s.setDuty t n).scrCe = s.scrCe ∧ (s.setDuty t n).lineUe = s.lineUe ∧ (s.setDuty t n).lineCe = s.lineCe ∧
    (s.setDuty t n).copyUe = s.copyUe ∧ (s.setDuty t n).tagUe = s.tagUe ∧ (s.setDuty t n).cacheUe = s.cacheUe ∧
    (s.setDuty t n).cacheCe = s.cacheCe ∧ (s.setDuty t n).scr = s.scr ∧ (s.setDuty t n).tileHolder = s.tileHolder ∧
    (s.setDuty t n).bankHolder = s.bankHolder ∧ (s.setDuty t n).tiles = s.tiles ∧
    (s.setDuty t n).packets = s.packets ∧ (s.setDuty t n).nextPid = s.nextPid ∧ (s.setDuty t n).blocks = s.blocks ∧
    (s.setDuty t n).nextBlock = s.nextBlock ∧ (s.setDuty t n).riddles = s.riddles ∧ (s.setDuty t n).xlt = s.xlt ∧
    (s.setDuty t n).xplru = s.xplru ∧ (s.setDuty t n).invWait = s.invWait ∧ (s.setDuty t n).items = s.items ∧
    (s.setDuty t n).finishCtr = s.finishCtr ∧ (s.setDuty t n).queues = s.queues ∧ (s.setDuty t n).sets = s.sets ∧
    (s.setDuty t n).plan = s.plan ∧ (s.setDuty t n).grout = s.grout ∧ (s.setDuty t n).lostKeys = s.lostKeys ∧
    (s.setDuty t n).hods = s.hods ∧ (s.setDuty t n).nextJob = s.nextJob ∧ (s.setDuty t n).hodDsts = s.hodDsts ∧
    (s.setDuty t n).bus = s.bus ∧ (s.setDuty t n).fetchLast = s.fetchLast ∧ (s.setDuty t n).fns = s.fns ∧
    (s.setDuty t n).msixAddr = s.msixAddr ∧ (s.setDuty t n).msixData = s.msixData ∧
    (s.setDuty t n).msixPend = s.msixPend ∧ (s.setDuty t n).outs = s.outs ∧ (s.setDuty t n).part = s.part ∧
    (s.setDuty t n).tileOwner = s.tileOwner ∧ (s.setDuty t n).faulty = s.faulty ∧ (s.setDuty t n).c0info = s.c0info ∧
    (s.setDuty t n).timer = s.timer ∧ (s.setDuty t n).started = s.started ∧ (s.setDuty t n).closed13 = s.closed13 ∧
    (s.setDuty t n).closed0 = s.closed0 ∧ (s.setDuty t n).drr = s.drr ∧ (s.setDuty t n).slip = s.slip ∧
    (s.setDuty t n).debt = s.debt ∧ (s.setDuty t n).idle = s.idle ∧ (s.setDuty t n).quadOff = s.quadOff ∧
    (s.setDuty t n).quadWake = s.quadWake ∧ (s.setDuty t n).closePend = s.closePend ∧
    (s.setDuty t n).phases = s.phases ∧ (s.setDuty t n).mults = s.mults ∧ (s.setDuty t n).board = s.board ∧
    (s.setDuty t n).trust = s.trust ∧ (s.setDuty t n).cores = s.cores ∧ (s.setDuty t n).mmem = s.mmem ∧
    (s.setDuty t n).mmSeed = s.mmSeed ∧ (s.setDuty t n).coreReset = s.coreReset ∧
    (s.setDuty t n).coreDown = s.coreDown ∧ (s.setDuty t n).ldirs = s.ldirs ∧ (s.setDuty t n).sideband = s.sideband ∧
    (s.setDuty t n).passes = s.passes ∧ (s.setDuty t n).scrubPasses = s.scrubPasses ∧
    (s.setDuty t n).scrubStart = s.scrubStart ∧ (s.setDuty t n).scrubPos = s.scrubPos ∧
    (s.setDuty t n).c3Held = s.c3Held ∧ (s.setDuty t n).lossPend = s.lossPend ∧ (s.setDuty t n).live = s.live ∧
    (s.setDuty t n).ceCourse = s.ceCourse ∧ (s.setDuty t n).eview = s.eview ∧ (s.setDuty t n).freeCtr = s.freeCtr ∧
    (s.setDuty t n).ticks = s.ticks ∧ (s.setDuty t n).pending = s.pending := by
  and_intros <;> rfl

/-! ## Registers -/

theorem State.regs_setReg (k : RegKind) (i : Nat) (v : Word) : (s.setReg k i v).regs = SMap.insert s.regs (k.place.addr i) v := rfl

theorem State.regs_setFld (f : Fld) (i v : Nat) :
    (s.setFld f i v).regs = SMap.insert s.regs (f.reg.place.addr i) (setField (s.reg f.reg i) f.hi f.lo v) := rfl

theorem State.find?_setReg (k : RegKind) (i : Nat) (v : Word) (a : Nat) :
    SMap.find? (s.setReg k i v).regs a = if a = k.place.addr i then some v else SMap.find? s.regs a := by
  rw [State.regs_setReg, SMap.find?_insert]

theorem State.find?_setFld (f : Fld) (i v a : Nat) :
    SMap.find? (s.setFld f i v).regs a =
      if a = f.reg.place.addr i then some (setField (s.reg f.reg i) f.hi f.lo v) else SMap.find? s.regs a := by
  rw [State.regs_setFld, SMap.find?_insert]

@[simp] theorem State.reg_setReg_self (k : RegKind) (i : Nat) (v : Word) : (s.setReg k i v).reg k i = v := by
  simp [State.reg, State.regs_setReg]

/-- A register at another address keeps its contents. -/
theorem State.reg_setReg_other (k k' : RegKind) (i i' : Nat) (v : Word) (h : k'.place.addr i' ≠ k.place.addr i) :
    (s.setReg k i v).reg k' i' = s.reg k' i' := by
  simp [State.reg, State.regs_setReg, h]

@[simp] theorem State.reg_setFld_self (f : Fld) (i v : Nat) :
    (s.setFld f i v).reg f.reg i = setField (s.reg f.reg i) f.hi f.lo v := State.reg_setReg_self s _ _ _

theorem State.reg_setFld_other (f : Fld) (k : RegKind) (i i' v : Nat) (h : k.place.addr i' ≠ f.reg.place.addr i) :
    (s.setFld f i v).reg k i' = s.reg k i' := State.reg_setReg_other s _ _ _ _ _ h

/-- A field reads back what was put there. -/
theorem State.fld_setFld_self (f : Fld) (i v : Nat) (h : f.lo ≤ f.hi ∧ f.hi < 64) :
    (s.setFld f i v).fld f i = v % 2 ^ (f.hi + 1 - f.lo) := by
  simp only [State.fld, State.reg_setFld_self, getField_setField _ _ _ _ h.1 h.2]

/-- Another field of the same register keeps its value. -/
theorem State.fld_setFld_beside (f g : Fld) (i v : Nat) (h : f.lo ≤ f.hi ∧ f.hi < 64) (e : g.reg = f.reg)
    (d : g.hi < f.lo ∨ f.hi < g.lo) : (s.setFld f i v).fld g i = s.fld g i := by
  simp only [State.fld, e, State.reg_setFld_self, getField_setField_other _ _ _ _ _ _ h.1 h.2 d]

/-- A field of a register at another address keeps its value. -/
theorem State.fld_setFld_other (f g : Fld) (i i' v : Nat) (h : g.reg.place.addr i' ≠ f.reg.place.addr i) :
    (s.setFld f i v).fld g i' = s.fld g i' := by
  simp only [State.fld, State.reg_setFld_other s f g.reg i i' v h]

theorem State.fld_setReg_other (k : RegKind) (g : Fld) (i i' : Nat) (v : Word)
    (h : g.reg.place.addr i' ≠ k.place.addr i) : (s.setReg k i v).fld g i' = s.fld g i' := by
  simp only [State.fld, State.reg_setReg_other s k g.reg i i' v h]

/-! ## Tiles, functions, queues -/

@[simp] theorem State.tile_setTile (t q : Nat) (x : Tile) : (s.setTile t x).tile q = if q = t then x else s.tile q := by
  simp [State.tile, State.setTile]

@[simp] theorem State.tile_modTile (t q : Nat) (f : Tile → Tile) :
    (s.modTile t f).tile q = if q = t then f (s.tile t) else s.tile q := by simp [State.modTile]

@[simp] theorem State.fn_setFn (f g : Nat) (x : PFn) : (s.setFn f x).fn g = if g = f then x else s.fn g := by
  simp [State.fn, State.setFn]

@[simp] theorem State.queue_setQueue (q r : Nat) (x : Queue) : (s.setQueue q x).queue r = if r = q then x else s.queue r := by
  simp [State.queue, State.setQueue]

@[simp] theorem State.queue_modQueue (q r : Nat) (f : Queue → Queue) :
    (s.modQueue q f).queue r = if r = q then f (s.queue q) else s.queue r := by simp [State.modQueue]

/-- Tiles read the same where the stores of tiles are the same. -/
theorem State.tile_congr (u : State) (t : Nat) (h : u.tiles = s.tiles) : u.tile t = s.tile t := by simp [State.tile, h]

theorem State.reg_congr (u : State) (k : RegKind) (i : Nat) (h : u.regs = s.regs) : u.reg k i = s.reg k i := by
  simp [State.reg, h]

theorem State.fld_congr (u : State) (f : Fld) (i : Nat) (h : u.regs = s.regs) : u.fld f i = s.fld f i := by
  simp [State.fld, State.reg, h]

/-! ## Scalar registers (R101) -/

/-- s0 reads as zero whatever was written; every other register reads what was written last. -/
@[simp] theorem Tile.sreg_setSreg (x : Tile) (i j : Nat) (v : Word) :
    (x.setSreg i v).sreg j = if j = i ∧ i ≠ 0 then v else x.sreg j := by
  unfold Tile.setSreg Tile.sreg
  by_cases hi : i = 0
  · simp [hi]
  · by_cases hj : j = 0
    · simp [hi, hj]; omega
    · simp [hi, hj]

theorem State.sreg_setSreg (t q i j : Nat) (v : Word) :
    (s.setSreg t i v).sreg q j = if q = t ∧ j = i ∧ i ≠ 0 then v else s.sreg q j := by
  by_cases h : q = t
  · simp [State.setSreg, State.sreg, h]
  · simp [State.setSreg, State.sreg, h]

end Sys2Proof.Machine
end

