-- ==== Sys2Proof/Laws/Issue.lean ====
section
/-! SUPPORT. Laws/Issue.lean: how the issue of a tile instruction ends, and what counting it and moving on leaves. -/
namespace Sys2Proof.Machine

variable {s s' u : State} {t op : Nat} {w : Word} {f : Word → State → Iss}

theorem State.issueOp_eq (h : s.issues t w s') (ho : opOf w = op) :
    s.issueOp t op f = match f w s' with
      | .done u => u.issued t (nextPc (s.tile t).pc)
      | .jump g u => u.issued t (g % 2 ^ 48)
      | .hold code => s.stall t code
      | .line l prec => (s.demand t l prec).setFld F.TSQ_STATE.WAIT t wConst
      | .exc e u => u.tileExc t true (s.tile t).pc w e
      | .late e u => (u.issued t (nextPc (s.tile t).pc)).tileExc t false (s.tile t).pc w e := by
  simp only [State.issueOp, State.issue, h.1, h.2, ho, decide_true, Bool.not_true, Bool.false_eq_true, ↓reduceIte]
  all_goals rfl

theorem State.issueOp_done (h : s.issues t w s') (ho : opOf w = op) (hf : f w s' = .done u) :
    s.issueOp t op f = u.issued t (nextPc (s.tile t).pc) := by rw [State.issueOp_eq h ho, hf]

theorem State.issueOp_jump {g : Nat} (h : s.issues t w s') (ho : opOf w = op) (hf : f w s' = .jump g u) :
    s.issueOp t op f = u.issued t (g % 2 ^ 48) := by rw [State.issueOp_eq h ho, hf]

/-- Instruction counting writes two registers of the tile. -/
theorem State.issued_regs (s : State) (t pc : Nat) :
    (s.issued t pc).regs = (((s.bump F.TSQ_ISSUED.ISSUED t 1).setFld F.TSQ_STATE.WAIT t
      ((s.bump F.TSQ_ISSUED.ISSUED t 1).tile t).waitCode)).regs := rfl

theorem tile_addr_ne (o o' t : Nat) (h : o ≠ o') :
    (Place.tile o 1).addr t ≠ (Place.tile o' 1).addr t := by
  simp only [Place.addr, dieBase, Nat.div_one, Nat.mod_one]; omega

theorem State.issued_count (s : State) (t pc : Nat) :
    (s.issued t pc).fld F.TSQ_ISSUED.ISSUED t = min (s.fld F.TSQ_ISSUED.ISSUED t + 1) (2 ^ 64 - 1) := by
  have e : (s.issued t pc).fld F.TSQ_ISSUED.ISSUED t = (s.bump F.TSQ_ISSUED.ISSUED t 1).fld F.TSQ_ISSUED.ISSUED t := by
    unfold State.fld State.reg
    rw [State.issued_regs]
    exact congrArg (fun w => getField w 63 0)
      (State.reg_setFld_other _ F.TSQ_STATE.WAIT .TSQ_ISSUED t t _ (tile_addr_ne 0x840 0x800 t (by decide)))
  rw [e]
  unfold State.bump
  rw [State.fld_setFld_self _ _ _ _ ⟨by decide, by decide⟩, Nat.mod_eq_of_lt]
  · rfl
  · change min _ (2 ^ 64 - 1) < 2 ^ 64
    omega

theorem State.issued_regsBut (s : State) (t pc : Nat) : s.regsBut (s.issued t pc) (issueRegs t) := by
  intro a ha
  simp only [issueRegs, List.mem_cons, List.not_mem_nil, or_false, not_or, Fld.at] at ha
  rw [State.issued_regs, State.find?_setFld, if_neg ha.2]
  unfold State.bump
  rw [State.find?_setFld, if_neg ha.1]

/-- What counting an instruction and moving on does. -/
theorem State.issued_spec (s : State) (t pc : Nat) :
    s.issuedAt (s.issued t pc) t pc ∧ s.onlyTile (s.issued t pc) t (issueRegs t) ∧
      (s.issued t pc).tile t = { s.tile t with pc := pc, clock := (s.tile t).clock + 1 } := by
  refine ⟨⟨?_, State.issued_count s t pc⟩, ⟨?_, State.issued_regsBut s t pc, rfl⟩, ?_⟩
  · simp [State.issued, State.bump, State.tile, State.modTile, State.setTile]
  · intro q hq
    simp [State.issued, hq, State.tile_congr s _ q]
  · simp [State.issued, State.tile_congr s _ t]

/-- A result in a scalar register, then the issue. -/
theorem State.scalarIssue_set (s : State) (t pc d : Nat) (v : Word) :
    s.scalarIssue ((s.setSreg t d v).issued t pc) t pc d v := by
  obtain ⟨h1, h2, h3⟩ := State.issued_spec (s.setSreg t d v) t pc
  refine ⟨⟨h1.1, ?_⟩, ?_, ?_, ?_, ?_, ?_⟩
  · rw [h1.2]; rfl
  · intro i
    have : ((s.setSreg t d v).issued t pc).sreg t i = (s.setSreg t d v).sreg t i := by
      simp only [State.sreg, h3, Tile.sreg]
    rw [this, State.sreg_setSreg]; simp
  · simp only [State.onlyScalars, h3]
    simp [State.setSreg, Tile.setSreg]
    split <;> rfl
  · intro q hq
    rw [h2.1 q hq]; simp [State.setSreg, hq]
  · intro a ha; rw [h2.2.1 a ha]; simp
  · conv_lhs => rw [h2.2.2]
    rfl

/-- An issue without a result. -/
theorem State.scalarIssue_none (s : State) (t pc : Nat) : s.scalarIssue (s.issued t pc) t pc 0 0 := by
  obtain ⟨h1, h2, h3⟩ := State.issued_spec s t pc
  refine ⟨h1, fun i => ?_, ?_, h2⟩
  · simp only [State.sreg, h3, Tile.sreg]; simp
  · simp [State.onlyScalars, h3]

end Sys2Proof.Machine
end

