-- ==== Sys2Proof/Laws/Memory.lean ====
section
/-! SUPPORT. Laws/Memory.lean: what bytes of external memory and scratch read as after each operation on them, and that every
operation keeps their canonical form. -/
namespace Sys2Proof.Machine

/-! ## External memory: reads after writes -/

@[simp] theorem State.seedAt_putByte (s : State) (a c : Nat) (b : Byte) : (s.putByte a b).seedAt c = s.seedAt c := rfl

@[simp] theorem State.unlisted_putByte (s : State) (a c : Nat) (b : Byte) : (s.putByte a b).unlisted c = s.unlisted c := rfl

theorem State.unlisted_eq_zero (s : State) (a : Nat) (h : s.seedAt a = none) : s.unlisted a = 0 := by
  simp [State.unlisted, h]

/-- A byte written reads back, and every other byte reads as before. -/
@[simp] theorem State.memByte_putByte (s : State) (a c : Nat) (b : Byte) :
    (s.putByte a b).memByte c = if c = a then b else s.memByte c := by
  unfold State.memByte
  rw [State.unlisted_putByte]
  simp only [State.putByte]
  split
  · rename_i h
    simp only [Bool.and_eq_true, decide_eq_true_eq, Option.isNone_iff_eq_none] at h
    rw [SMap.find?_erase]
    split
    · subst_vars; simp [State.unlisted_eq_zero s _ h.2, h.1]
    · rfl
  · rw [SMap.find?_insert]
    split <;> rfl

/-- Bytes outside a run written read as before. -/
theorem State.memByte_putBytes_out (s : State) (a c : Nat) (bs : List Byte) (h : c < a ∨ a + bs.length ≤ c) :
    (s.putBytes a bs).memByte c = s.memByte c := by
  induction bs generalizing s a with
  | nil => rfl
  | cons b bs ih =>
    simp only [List.length_cons] at h
    rw [State.putBytes, ih _ _ (by omega), State.memByte_putByte, if_neg (by omega)]

/-- Bytes of a run written read back. -/
theorem State.memByte_putBytes_in (s : State) (a i : Nat) (bs : List Byte) (h : i < bs.length) :
    (s.putBytes a bs).memByte (a + i) = bs.getD i 0 := by
  induction bs generalizing s a i with
  | nil => simp at h
  | cons b bs ih =>
    rw [State.putBytes]
    cases i with
    | zero => rw [State.memByte_putBytes_out _ _ _ _ (by omega)]; simp
    | succ i =>
      have := ih (s.putByte a b) (a + 1) i (by simpa using h)
      rw [show a + (i + 1) = a + 1 + i by omega, this]; simp

/-- What a region becoming open leaves of the bytes outside it. -/
theorem State.memByte_scramble_out (s : State) (r : Region) (a : Nat) (h : r.has s.part a = false) :
    (s.scramble r).memByte a = s.memByte a := by
  have hf : ∀ m : SMap Byte, SMap.find? (m.filter fun p => !r.has s.part p.1) a = SMap.find? m a := by
    intro m
    induction m with
    | nil => rfl
    | cons p m ih =>
      obtain ⟨k, v⟩ := p
      rw [List.filter_cons]
      split
      · simp only [SMap.find?, ih]
      · rename_i hk
        simp only [SMap.find?, ih]
        rw [if_neg]
        rintro rfl
        simp [h] at hk
  have hp : s.drawn.part = s.part := rfl
  unfold State.memByte State.unlisted State.seedAt
  simp only [State.scramble, hf]
  rw [List.find?_cons_of_neg (by simpa [hp] using h)]
  rfl

/-! ## External memory: canonical form -/

/-- The canonical form says the same of two states with the same memory, open regions and part. -/
theorem Memory.wf_congr {s u : State} (hm : u.mem = s.mem) (hr : u.scrambles = s.scrambles) (hp : u.part = s.part) :
    Memory.wf u = Memory.wf s := by
  unfold Memory.wf State.seedAt
  rw [hm, hr, hp]

theorem Memory.wf_iff (s : State) :
    Memory.wf s = true ↔ SMap.rising s.mem = true ∧ ∀ p ∈ s.mem, p.2 ≠ 0 ∨ (s.seedAt p.1).isSome := by
  simp [Memory.wf, List.all_eq_true]

theorem State.putByte_wf (s : State) (a : Nat) (b : Byte) (h : Memory.wf s = true) : Memory.wf (s.putByte a b) = true := by
  rw [Memory.wf_iff] at h ⊢
  refine ⟨?_, ?_⟩
  · simp only [State.putByte]
    split
    · exact SMap.rising_erase _ _ h.1
    · exact SMap.rising_insert _ _ _ h.1
  · intro p hp
    rw [State.seedAt_putByte]
    simp only [State.putByte] at hp
    split at hp
    · exact h.2 p (List.mem_of_mem_filter hp)
    · rename_i hn
      rcases SMap.mem_insert _ _ _ _ hp with hp | hp
      · subst hp
        simp only [Bool.and_eq_true, decide_eq_true_eq, not_and, Bool.not_eq_true, Option.isNone_eq_false_iff] at hn
        by_cases hb : b = 0
        · exact .inr (hn hb)
        · exact .inl hb
      · exact h.2 p hp

theorem State.putBytes_wf (s : State) (a : Nat) (bs : List Byte) (h : Memory.wf s = true) :
    Memory.wf (s.putBytes a bs) = true := by
  induction bs generalizing s a with
  | nil => exact h
  | cons b bs ih => exact ih _ _ (State.putByte_wf s a b h)

theorem State.scramble_wf (s : State) (r : Region) (h : Memory.wf s = true) : Memory.wf (s.scramble r) = true := by
  rw [Memory.wf_iff] at h ⊢
  refine ⟨SMap.rising_filter _ _ h.1, fun p hp => ?_⟩
  have hm : p ∈ s.mem := List.mem_of_mem_filter hp
  rcases h.2 p hm with h' | h'
  · exact .inl h'
  · refine .inr ?_
    unfold State.seedAt at h' ⊢
    simp only [State.scramble, Option.isSome_map] at h' ⊢
    rw [List.find?_isSome] at h' ⊢
    obtain ⟨x, hx, hy⟩ := h'
    exact ⟨x, List.mem_cons_of_mem _ hx, hy⟩

@[simp] theorem State.zeroMem_wf (s : State) : Memory.wf s.zeroMem = true := rfl

/-! ## Updates that leave memory and scratch alone -/

/-- From `s` to `u` the part, the bytes of memory and of scratch, and the errors that lie in caches, are the same data. -/
structure State.sameStore (s u : State) : Prop where
  part : u.part = s.part
  mem : u.mem = s.mem
  scrambles : u.scrambles = s.scrambles
  scr : u.scr = s.scr
  tagUe : u.tagUe = s.tagUe
  lineUe : u.lineUe = s.lineUe
  cacheUe : u.cacheUe = s.cacheUe
  lost : u.lost = s.lost

theorem State.sameStore.refl (s : State) : s.sameStore s := ⟨rfl, rfl, rfl, rfl, rfl, rfl, rfl, rfl⟩

theorem State.sameStore.trans {s u v : State} (h : s.sameStore u) (k : u.sameStore v) : s.sameStore v :=
  ⟨k.part.trans h.part, k.mem.trans h.mem, k.scrambles.trans h.scrambles, k.scr.trans h.scr, k.tagUe.trans h.tagUe,
    k.lineUe.trans h.lineUe, k.cacheUe.trans h.cacheUe, k.lost.trans h.lost⟩

theorem State.sameStore.wf {s u : State} (h : s.sameStore u) : Memory.wf u = Memory.wf s :=
  Memory.wf_congr h.mem h.scrambles h.part

theorem State.sameStore.scratch {s u : State} (h : s.sameStore u) : Scratch.wf u = Scratch.wf s := by
  unfold Scratch.wf; rw [h.scr]

theorem State.sameStore.ite {s u v : State} {c : Prop} [Decidable c] (h : s.sameStore u) (k : s.sameStore v) :
    s.sameStore (if c then u else v) := by split <;> assumption

theorem State.sameStore.foldl {α : Type} {f : State → α → State} (h : ∀ (s : State) (a : α), s.sameStore (f s a)) (l : List α)
    (s : State) : s.sameStore (l.foldl f s) := by
  induction l generalizing s with
  | nil => exact .refl s
  | cons a l ih => exact (h s a).trans (ih _)

/-- The same of a walk that carries a list beside the state. -/
theorem State.sameStore.foldl_fst {α β : Type} {f : State × β → α → State × β} (h : ∀ (s : State) b a, s.sameStore (f (s, b) a).1)
    (l : List α) (s : State) (b : β) : s.sameStore (l.foldl f (s, b)).1 := by
  induction l generalizing s b with
  | nil => exact .refl s
  | cons a l ih => exact (h s b a).trans (ih _ _)

/-- Field writes, event bits and counters are none of that data. -/
theorem State.sameStore_setFld (s : State) (f : Fld) (i v : Nat) : s.sameStore (s.setFld f i v) := ⟨rfl, rfl, rfl, rfl, rfl, rfl, rfl, rfl⟩

theorem State.sameStore_raise (s : State) (f : Fld) (i : Nat) : s.sameStore (s.raise f i) := ⟨rfl, rfl, rfl, rfl, rfl, rfl, rfl, rfl⟩

theorem State.sameStore_bump (s : State) (f : Fld) (i n : Nat) : s.sameStore (s.bump f i n) := ⟨rfl, rfl, rfl, rfl, rfl, rfl, rfl, rfl⟩

theorem State.sameStore_msix (s : State) (f v : Nat) : s.sameStore (s.msix f v) := by
  unfold State.msix
  repeat' first | exact ⟨rfl, rfl, rfl, rfl, rfl, rfl, rfl, rfl⟩ | refine .ite ?_ ?_

theorem State.sameStore_ibi (s : State) (b : Nat) : s.sameStore (s.ibi b) := by
  unfold State.ibi
  repeat' first | exact ⟨rfl, rfl, rfl, rfl, rfl, rfl, rfl, rfl⟩ | refine .ite ?_ ?_

theorem State.sameStore_stopWork (s : State) : s.sameStore s.stopWork := by
  unfold State.stopWork
  refine .trans (State.sameStore.foldl (fun s t => ?_) s.loadedTiles s) ⟨rfl, rfl, rfl, rfl, rfl, rfl, rfl, rfl⟩
  exact (State.sameStore_setFld s _ _ _).trans (State.sameStore_setFld _ _ _ _)

theorem State.sameStore_fatal (s : State) (cause code : Nat) : s.sameStore (s.fatal cause code) := by
  unfold State.fatal
  extract_lets s1 s2 s3 s4
  have h1 : s.sameStore s1 := .ite (.refl s) (.trans (State.sameStore_ibi s 2) ⟨rfl, rfl, rfl, rfl, rfl, rfl, rfl, rfl⟩)
  have h2 : s.sameStore s2 := h1.trans (State.sameStore_raise _ _ _)
  have h4 : s2.sameStore s4 := (State.sameStore_stopWork s2).trans ⟨rfl, rfl, rfl, rfl, rfl, rfl, rfl, rfl⟩
  refine h2.trans (.ite ⟨rfl, rfl, rfl, rfl, rfl, rfl, rfl, rfl⟩ (.ite (.refl _) (h4.trans ?_)))
  exact ⟨rfl, rfl, rfl, rfl, rfl, rfl, rfl, rfl⟩

/-- An error report changes no byte, whatever it does to the log, the interrupts and the running work. -/
theorem State.sameStore_reportOf (s : State) (c time : Nat) (r : Report) : s.sameStore (s.reportOf c time r) := by
  unfold State.reportOf
  extract_lets bitd head tail slot
  split
  · rename_i n e _
    extract_lets esc e' s1 s2
    have h2 : s.sameStore s2 := ⟨rfl, rfl, rfl, rfl, rfl, rfl, rfl, rfl⟩
    refine .ite (.trans ?_ (State.sameStore_fatal _ _ _)) h2
    exact .ite (.trans (.trans h2 (State.sameStore_bump _ _ _ _)) (State.sameStore_msix _ _ _)) h2
  · rename_i free lost again e s5 s4 s3 s2 s1 s0 _ _
    have h0 : s.sameStore s0 := by
      have h3 : s.sameStore s3 := ⟨rfl, rfl, rfl, rfl, rfl, rfl, rfl, rfl⟩
      have h1 : s.sameStore s1 := ⟨rfl, rfl, rfl, rfl, rfl, rfl, rfl, rfl⟩
      refine .ite (.ite (.trans (.ite (.trans h3 (State.sameStore_ibi _ _)) h3) (State.sameStore_msix _ _ _)) ?_) (.ite ?_ h1)
      · exact .ite (.trans h3 (State.sameStore_msix _ _ _)) h3
      · exact .trans h1 (State.sameStore_bump _ _ _ _)
    exact .ite (.trans h0 (State.sameStore_fatal _ _ _)) h0

theorem State.sameStore_reportSelf (s : State) (code sev unit addr detail : Nat) :
    s.sameStore (s.reportSelf code sev unit addr detail) := State.sameStore_reportOf s _ _ _

/-! ## What the memory operations keep -/

/-- What every operation on memory keeps: the part and scratch as they are, and the canonical form of memory. -/
def State.keeps (s u : State) : Prop := u.part = s.part ∧ u.scr = s.scr ∧ (Memory.wf s = true → Memory.wf u = true)

/-- No uncorrectable error lies in a slice or a core cache, and no line is LOST. -/
def State.calm (s : State) : Prop := s.tagUe = [] ∧ s.lineUe = [] ∧ s.cacheUe = [] ∧ s.lost = []

/-- An operation keeps what memory operations keep, and in a calm state it changes no byte and stays calm. -/
structure State.quiet (s u : State) : Prop where
  keeps : s.keeps u
  calm : s.calm → u.calm
  mem : s.calm → u.mem = s.mem
  scrambles : s.calm → u.scrambles = s.scrambles

theorem State.keeps.refl (s : State) : s.keeps s := ⟨rfl, rfl, id⟩

theorem State.keeps.trans {s u v : State} (h : s.keeps u) (k : u.keeps v) : s.keeps v :=
  ⟨k.1.trans h.1, k.2.1.trans h.2.1, fun x => k.2.2 (h.2.2 x)⟩

theorem State.keeps.foldl {α : Type} {f : State → α → State} (h : ∀ (s : State) (a : α), s.keeps (f s a)) (l : List α) (s : State) :
    s.keeps (l.foldl f s) := by
  induction l generalizing s with
  | nil => exact .refl s
  | cons a l ih => exact (h s a).trans (ih _)

theorem State.keeps_putByte (s : State) (a : Nat) (b : Byte) : s.keeps (s.putByte a b) := ⟨rfl, rfl, State.putByte_wf s a b⟩

theorem State.keeps_putBytes (s : State) (a : Nat) (bs : List Byte) : s.keeps (s.putBytes a bs) := by
  induction bs generalizing s a with
  | nil => exact .refl s
  | cons b bs ih => exact (State.keeps_putByte s a b).trans (ih _ _)

theorem State.keeps_scramble (s : State) (r : Region) : s.keeps (s.scramble r) := ⟨rfl, rfl, State.scramble_wf s r⟩

theorem State.sameStore.quiet {s u : State} (h : s.sameStore u) : s.quiet u :=
  ⟨⟨h.part, h.scr, fun k => h.wf ▸ k⟩, fun ⟨a, b, c, d⟩ => ⟨h.tagUe.trans a, h.lineUe.trans b, h.cacheUe.trans c, h.lost.trans d⟩,
    fun _ => h.mem, fun _ => h.scrambles⟩

theorem State.sameStore.keeps {s u : State} (h : s.sameStore u) : s.keeps u := h.quiet.keeps

theorem State.quiet.refl (s : State) : s.quiet s := (State.sameStore.refl s).quiet

theorem State.quiet.trans {s u v : State} (h : s.quiet u) (k : u.quiet v) : s.quiet v :=
  ⟨h.keeps.trans k.keeps, fun c => k.calm (h.calm c), fun c => (k.mem (h.calm c)).trans (h.mem c),
    fun c => (k.scrambles (h.calm c)).trans (h.scrambles c)⟩

theorem State.quiet.ite {s u v : State} {c : Prop} [Decidable c] (h : s.quiet u) (k : s.quiet v) :
    s.quiet (if c then u else v) := by split <;> assumption

theorem State.quiet.foldl {α : Type} {f : State → α → State} (h : ∀ (s : State) (a : α), s.quiet (f s a)) (l : List α) (s : State) :
    s.quiet (l.foldl f s) := by
  induction l generalizing s with
  | nil => exact .refl s
  | cons a l ih => exact (h s a).trans (ih _)

/-- The same of a walk that carries a list beside the state. -/
theorem State.quiet.foldl_fst {α β : Type} {f : State × β → α → State × β} (h : ∀ (s : State) b a, s.quiet (f (s, b) a).1)
    (l : List α) (s : State) (b : β) : s.quiet (l.foldl f (s, b)).1 := by
  induction l generalizing s b with
  | nil => exact .refl s
  | cons a l ih => exact (h s b a).trans (ih _ _)

/-- A state that is not calm is bound only by what every operation keeps. -/
theorem State.quiet.odd {s u : State} (k : s.keeps u) (h : ¬ s.calm) : s.quiet u :=
  ⟨k, fun c => absurd c h, fun c => absurd c h, fun c => absurd c h⟩

/-- An update that only drops errors and LOST marks. -/
theorem State.quiet.fewer {s u : State} (hp : u.part = s.part) (hm : u.mem = s.mem) (hr : u.scrambles = s.scrambles)
    (hs : u.scr = s.scr) (ht : s.tagUe = [] → u.tagUe = []) (hl : s.lineUe = [] → u.lineUe = [])
    (hc : s.cacheUe = [] → u.cacheUe = []) (ho : s.lost = [] → u.lost = []) : s.quiet u :=
  ⟨⟨hp, hs, fun k => Memory.wf_congr hm hr hp ▸ k⟩, fun ⟨a, b, c, d⟩ => ⟨ht a, hl b, hc c, ho d⟩, fun _ => hm, fun _ => hr⟩

/-! ## Controllers and write-combining buffers -/

theorem State.sameStore_meetMemUe (s : State) (u : Nat) (scrub : Bool) : s.sameStore (s.meetMemUe u scrub) := by
  unfold State.meetMemUe
  extract_lets d s1 s2 s3
  have h2 : s.sameStore s2 := .ite ⟨rfl, rfl, rfl, rfl, rfl, rfl, rfl, rfl⟩ ⟨rfl, rfl, rfl, rfl, rfl, rfl, rfl, rfl⟩
  have h3 : s2.sameStore s3 := .ite (.refl _) ⟨rfl, rfl, rfl, rfl, rfl, rfl, rfl, rfl⟩
  exact (h2.trans h3).trans ((State.sameStore_raise _ _ _).trans (State.sameStore_reportSelf _ _ _ _ _ _))

theorem State.sameStore_fixMemCe (s : State) (u : Nat) : s.sameStore (s.fixMemCe u) := by
  unfold State.fixMemCe
  extract_lets d c n s1 s2
  have h2 : s.sameStore s2 := ⟨rfl, rfl, rfl, rfl, rfl, rfl, rfl, rfl⟩
  exact .ite (h2.trans ((State.sameStore_raise _ _ _).trans (State.sameStore_reportSelf _ _ _ _ _ _))) h2

theorem State.sameStore_ctlUnits (s : State) (us : List Nat) : s.sameStore (s.ctlUnits us).1 := by
  unfold State.ctlUnits
  refine State.sameStore.foldl_fst (fun s bad u => ?_) us s []
  dsimp -zeta only
  extract_lets s1
  have h1 : s.sameStore s1 := .ite (State.sameStore_bump _ _ _ _) (.refl _)
  clear_value s1
  split
  · exact h1.trans (State.sameStore_meetMemUe _ _ _)
  · split
    · exact h1.trans (State.sameStore_fixMemCe _ _)
    · exact h1

theorem State.sameStore_ctlRead (s : State) (l sm : Nat) : s.sameStore (s.ctlRead l sm).1 :=
  (State.sameStore_bump s _ _ _).trans (State.sameStore_ctlUnits _ _)

theorem State.sameStore_wcLeave (s : State) (l : Nat) : s.sameStore (s.wcLeave l) := ⟨rfl, rfl, rfl, rfl, rfl, rfl, rfl, rfl⟩

theorem State.sameStore_wcPut (s : State) (l m : Nat) : s.sameStore (s.wcPut l m) := by
  unfold State.wcPut
  extract_lets c s1 mine
  have h1 : s.sameStore s1 := .ite ⟨rfl, rfl, rfl, rfl, rfl, rfl, rfl, rfl⟩ ⟨rfl, rfl, rfl, rfl, rfl, rfl, rfl, rfl⟩
  clear_value s1 mine
  split
  · exact h1.trans (State.sameStore_wcLeave _ _)
  · split
    · exact h1.trans (.ite (State.sameStore_wcLeave _ _) (.refl _))
    · exact h1

theorem State.sameStore_wcDrainAll (s : State) : s.sameStore s.wcDrainAll :=
  State.sameStore.foldl (fun s _ => State.sameStore_wcLeave s _) _ s

/-! ## The directory and the core caches -/

theorem State.quiet_dropBlock (s : State) (g b : Nat) : s.quiet (s.dropBlock g b) :=
  .fewer rfl rfl rfl rfl id id (fun h => by simp [State.dropBlock, h]) id

theorem State.quiet_takeLine (s : State) (l : Nat) : s.quiet (s.takeLine l) := by
  unfold State.takeLine
  split
  · refine .ite (.refl _) ?_
    extract_lets s1
    have h1 : s.quiet s1 := State.sameStore.quiet ⟨rfl, rfl, rfl, rfl, rfl, rfl, rfl, rfl⟩
    split
    · exact h1.trans (.fewer rfl rfl rfl rfl id id id (fun h => by simp [h]))
    · exact h1.trans (State.sameStore_wcPut _ _ _).quiet
  · exact .refl _

theorem State.quiet_meetBlock (s : State) (g b : Nat) : s.quiet (s.meetBlock g b) := by
  unfold State.meetBlock
  extract_lets s1 l s2
  have h1 : s.quiet s1 := State.quiet.ite (State.sameStore.quiet ⟨rfl, rfl, rfl, rfl, rfl, rfl, rfl, rfl⟩) (.refl _)
  refine h1.trans ?_
  split
  · rename_i hc
    have hn : ¬ s1.calm := fun c => by simp [c.2.2.1] at hc
    refine .odd ?_ hn
    have h2 : s1.keeps s2 := (State.quiet_dropBlock s1 g b).keeps
    refine h2.trans ?_
    split
    · split
      · rename_i e _ _
        have h3 : s2.keeps { s2 with gdir := SMap.insert s2.gdir l { e with owner := none, below := [] } } := ⟨rfl, rfl, id⟩
        exact (h3.trans (State.keeps_putBytes _ _ _)).trans (State.sameStore_reportSelf _ _ _ _ _ _).keeps
      · exact .refl _
    · exact .refl _
  · exact .refl _

theorem State.quiet_meetBlocks (s : State) (l : Nat) : s.quiet (s.meetBlocks l) :=
  State.quiet.foldl (fun s _ => State.quiet_meetBlock s _ _) _ s

/-- A recall of modified data changes no byte, unless a cached block holds an error. -/
theorem State.quiet_recallData (s : State) (l : Nat) : s.quiet (s.recallData l) := by
  unfold State.recallData
  split
  · exact .ite ((State.quiet_meetBlocks s l).trans (State.quiet_takeLine _ l)) (.refl _)
  · exact .refl _

/-- So does the recall of every core copy. -/
theorem State.quiet_recall (s : State) (l : Nat) : s.quiet (s.recall l) := by
  unfold State.recall
  split
  · extract_lets s1 s2
    have h1 : s.quiet s1 := (State.quiet_meetBlocks s l).trans (State.quiet_takeLine _ l)
    have h2 : s1.quiet s2 := State.quiet.foldl (fun s g => (State.quiet_dropBlock s g l).trans (State.quiet_dropBlock _ g _)) _ s1
    have h3 := h1.trans h2
    clear_value s2
    exact h3.trans (State.sameStore.quiet ⟨rfl, rfl, rfl, rfl, rfl, rfl, rfl, rfl⟩)
  · exact .refl _

/-! ## The slices -/

theorem State.sameStore_countLost (s : State) (d l : Nat) : s.sameStore (s.countLost d l) := by
  unfold State.countLost
  extract_lets s1 s2
  have h1 : s.sameStore s1 := State.sameStore_bump _ _ _ _
  have h2 : s1.sameStore s2 := .ite (.refl _) ((State.sameStore_raise _ _ _).trans (State.sameStore_setFld _ _ _ _))
  exact (h1.trans h2).trans ((State.sameStore_raise _ _ _).trans (State.sameStore_reportSelf _ _ _ _ _ _))

theorem State.keeps_loseLine (s : State) (l : Nat) : s.keeps (s.loseLine l) := by
  unfold State.loseLine
  extract_lets s1
  have h1 : s.keeps s1 := by
    simp only [s1]
    split
    · rename_i m _
      have h0 : s.keeps { s with lines := SMap.insert s.lines l { m with valid := 0, dirty := 0, below := [] } } := ⟨rfl, rfl, id⟩
      split
      · split
        · exact h0.trans ⟨rfl, rfl, id⟩
        · exact h0.trans (State.keeps_putBytes _ _ _)
      · exact h0.trans (State.keeps_putBytes _ _ _)
    · exact .refl _
  have h2 : s1.keeps { s1 with lost := l :: s1.lost } := ⟨rfl, rfl, id⟩
  exact (h1.trans h2).trans (State.sameStore_countLost _ _ _).keeps

theorem State.quiet_meetLine (s : State) (l : Nat) : s.quiet (s.meetLine l) := by
  unfold State.meetLine
  extract_lets d s1
  split
  · rename_i hc
    refine .odd ?_ fun c => by simp [c.2.1] at hc
    have h1 : s.keeps s1 := ⟨rfl, rfl, id⟩
    split
    · exact h1.trans (State.keeps_loseLine _ _)
    · exact h1.trans ⟨rfl, rfl, id⟩
  · exact .ite (State.sameStore.quiet ⟨rfl, rfl, rfl, rfl, rfl, rfl, rfl, rfl⟩) (.refl _)

theorem State.sameStore_meetCopy (s : State) (d l : Nat) : s.sameStore (s.meetCopy d l) := by
  unfold State.meetCopy
  split
  · extract_lets lose
    have h : s.sameStore { s with copyUe := s.copyUe.filter fun p => p ≠ (d, l), copies := s.copies.map lose } :=
      ⟨rfl, rfl, rfl, rfl, rfl, rfl, rfl, rfl⟩
    exact h.trans (State.sameStore_countLost _ _ _)
  · exact .refl s

theorem State.keeps_sliceGone (s : State) (d : Nat) : s.keeps (s.sliceGone d) := by
  unfold State.sliceGone
  extract_lets mine s1 s2 s3
  have h1 : s.keeps s1 := by
    apply State.keeps.foldl
    intro s p
    split
    · split
      · exact .refl _
      · exact State.keeps_putBytes _ _ _
    · exact State.keeps_putBytes _ _ _
  have h2 : s1.keeps s2 := ⟨rfl, rfl, id⟩
  refine (h1.trans h2).trans ?_
  split
  · have h3 : s2.keeps s3 := by
      simp only [s3]; split
      · exact (State.sameStore_wcDrainAll s2).keeps
      · exact .refl _
    refine h3.trans (State.keeps.foldl (fun s e => ?_) _ _)
    exact ((State.sameStore_setFld s _ _ _).trans (State.sameStore_setFld _ _ _ _)).keeps
  · exact .refl _

theorem State.keeps_loseSlice (s : State) (d : Nat) : s.keeps (s.loseSlice d) :=
  (State.keeps_sliceGone s d).trans (State.sameStore_reportSelf _ _ _ _ _ _).keeps

theorem State.sameStore_useLine (s : State) (l : Nat) (m : MLine) : s.sameStore (s.useLine l m) := ⟨rfl, rfl, rfl, rfl, rfl, rfl, rfl, rfl⟩

theorem State.sameStore_dirtyLine (s : State) (l sm : Nat) : s.sameStore (s.dirtyLine l sm) := by
  unfold State.dirtyLine
  split
  · exact ⟨rfl, rfl, rfl, rfl, rfl, rfl, rfl, rfl⟩
  · exact .refl _

theorem State.quiet_writeBack (s : State) (l : Nat) : s.quiet (s.writeBack l) := by
  unfold State.writeBack
  extract_lets s1
  have h1 : s.quiet s1 := State.quiet.ite (State.quiet_meetLine s l) (.refl _)
  refine h1.trans ?_
  split
  · rename_i m _
    have h2 : s1.sameStore { s1 with lines := SMap.insert s1.lines l { m with dirty := 0, below := [] } } :=
      ⟨rfl, rfl, rfl, rfl, rfl, rfl, rfl, rfl⟩
    exact .ite (.refl _) (h2.trans (State.sameStore_wcPut _ _ _)).quiet
  · exact .refl _

theorem State.quiet_evictLine (s : State) (l : Nat) : s.quiet (s.evictLine l) := by
  unfold State.evictLine
  extract_lets s1
  have h1 : s.quiet s1 := (State.quiet_recall s l).trans (State.quiet_writeBack _ l)
  exact h1.trans (.ite (.refl _) (.fewer rfl rfl rfl rfl id (fun h => by simp [h]) id id))

theorem State.quiet_allocLine (s : State) (l w sm : Nat) : s.quiet (s.allocLine l w sm) := by
  unfold State.allocLine
  extract_lets d s1
  have h1 : s.quiet s1 := by
    simp only [s1]; split
    · exact State.quiet_evictLine _ _
    · exact .refl _
  exact h1.trans (State.sameStore.quiet ⟨rfl, rfl, rfl, rfl, rfl, rfl, rfl, rfl⟩)

theorem State.sameStore_countLook (s : State) (d : Nat) (hit : Bool) : s.sameStore (s.countLook d hit) :=
  .ite (State.sameStore_bump _ _ _ _) (State.sameStore_bump _ _ _ _)

/-- A lookup changes no byte, unless it meets an error of its line or its slice. -/
theorem State.quiet_lookup (s : State) (tag l sm wm : Nat) : s.quiet (s.lookup tag l sm wm).1 := by
  unfold State.lookup
  extract_lets d s1 s2 whole put
  have h1 : s.quiet s1 := by
    simp only [s1]; split
    · rename_i hc
      exact .odd (State.keeps_loseSlice _ _) fun c => by simp [c.1] at hc
    · exact .refl _
  have hput : ∀ u : State, u.quiet (put u) := fun u => .ite (.refl u) (State.sameStore_dirtyLine u l sm).quiet
  have hpass : ∀ u : State, u.quiet (if wm = 0 then u else u.wcPut l wm) := fun u => .ite (.refl u) (State.sameStore_wcPut u l wm).quiet
  have hserve : ∀ u : State, u.quiet (if wm = 0 then u.ctlRead l sm else (u.wcPut l wm, [])).1 := by
    intro u; split
    · exact (State.sameStore_ctlRead _ _ _).quiet
    · exact (State.sameStore_wcPut _ _ _).quiet
  refine h1.trans ?_
  split
  · exact hserve s1
  · refine (State.quiet_meetLine s1 l).trans ?_
    change s2.quiet _
    split
    · rename_i m _
      extract_lets s3 s4 need
      have h3 : s2.quiet s3 := (State.sameStore_useLine s2 l m).quiet
      refine h3.trans ?_
      split
      · refine (State.sameStore_countLook s3 d true).quiet.trans ?_
        exact .ite (.trans (u := { s4 with lost := s4.lost.filter (· ≠ l) }) (.fewer rfl rfl rfl rfl id id id (fun h => by simp [show s4.lost = [] from h]))
          (State.sameStore_dirtyLine _ _ _).quiet) (.refl _)
      · split
        · exact (State.sameStore_countLook s3 d true).quiet.trans (hput _)
        · have h4 := ((State.sameStore_countLook s3 d false).trans (State.sameStore_ctlRead _ l need)).quiet
          generalize (s3.countLook d false).ctlRead l need = r at h4
          obtain ⟨u, bad⟩ := r
          refine h4.trans ?_
          dsimp only
          split
          · have h5 : u.sameStore { u with lines := SMap.insert u.lines l { m with valid := m.valid ||| sm } } :=
              ⟨rfl, rfl, rfl, rfl, rfl, rfl, rfl, rfl⟩
            exact h5.quiet.trans (hput _)
          · exact hpass u
    · rename_i s3 _ _ _
      have h3 : s2.quiet s3 := (State.sameStore_countLook s2 d false).quiet
      refine h3.trans ?_
      split
      · exact hserve s3
      · rename_i w _
        have h4 : s3.quiet (if whole then (s3, []) else s3.ctlRead l sm).1 := by
          split
          · exact .refl _
          · exact (State.sameStore_ctlRead _ _ _).quiet
        generalize (if whole then (s3, []) else s3.ctlRead l sm) = r at h4 ⊢
        obtain ⟨u, bad⟩ := r
        refine h4.trans ?_
        dsimp only
        split
        · exact (State.quiet_allocLine u l w _).trans (hput _)
        · exact hpass u

/-! ## Reads and writes at the home slices -/

theorem State.sameStore_markIll (s : State) (d : Option Nat) (a n : Nat) (wr : Bool) : s.sameStore (s.markIll d a n wr) := by
  unfold State.markIll
  extract_lets as s1
  have h1 : s.sameStore s1 := .ite ⟨rfl, rfl, rfl, rfl, rfl, rfl, rfl, rfl⟩ (.refl s)
  exact h1.trans (.ite ⟨rfl, rfl, rfl, rfl, rfl, rfl, rfl, rfl⟩ (.refl _))

theorem State.sameStore_writeCopies (s : State) (d : Option Nat) (a : Nat) (bs : List Byte) : s.sameStore (s.writeCopies d a bs) := by
  cases d <;> exact ⟨rfl, rfl, rfl, rfl, rfl, rfl, rfl, rfl⟩

/-- A read of external memory keeps its canonical form, and changes no byte of a calm state. -/
theorem State.quiet_memRead (s : State) (g : Agent) (a n : Nat) : s.quiet (s.memRead g a n).st := by
  unfold State.memRead
  refine .trans (State.quiet.foldl_fst (fun s bad l => ?_) (linesOf a n) s []) (State.sameStore_markIll _ _ _ _ _).quiet
  dsimp -zeta only
  extract_lets s1 s2
  have h1 : s.quiet s1 := State.quiet_recallData s l
  have h2 : s1.quiet s2 := by
    simp only [s2]; split
    · exact (State.sameStore_meetCopy _ _ _).quiet
    · exact .refl _
  exact (h1.trans h2).trans (State.quiet_lookup _ g.tag l _ 0)

/-- The slices' part of a write. -/
theorem State.quiet_takeWrite (s : State) (tag l wm : Nat) : s.quiet (s.takeWrite tag l wm) := by
  unfold State.takeWrite
  have h := (State.quiet_recall s l).trans (State.quiet_lookup (s.recall l) tag l (sectorsOf wm) wm)
  generalize (s.recall l).lookup tag l (sectorsOf wm) wm = r at h
  obtain ⟨u, bad⟩ := r
  refine h.trans ?_
  refine .trans (State.sameStore.quiet ?_) (State.quiet.foldl (fun s u => (State.sameStore_meetMemUe s u false).quiet) _ _)
  exact ⟨rfl, rfl, rfl, rfl, rfl, rfl, rfl, rfl⟩

theorem State.keeps_putHome (s : State) (a : Nat) (bs : List Byte) : s.keeps (s.putHome a bs) := by
  unfold State.putHome
  split
  · refine State.keeps.foldl (fun s p => ?_) _ _
    split
    · exact .refl _
    · exact State.keeps_putByte _ _ _
  · exact State.keeps_putBytes _ _ _

/-- A write of external memory keeps its canonical form. -/
theorem State.keeps_memWrite (s : State) (g : Agent) (a : Nat) (bs : List Byte) : s.keeps (s.memWrite g a bs) := by
  unfold State.memWrite
  extract_lets n s1
  have h1 : s.keeps s1 := (State.quiet.foldl (fun s l => State.quiet_takeWrite s g.tag l _) (linesOf a n) s).keeps
  refine (h1.trans (State.keeps_putHome s1 a bs)).trans (State.sameStore.keeps ?_)
  refine .trans ?_ (State.sameStore_markIll _ _ _ _ _)
  exact (State.sameStore_writeCopies (s1.putHome a bs) g.die a bs).trans ⟨rfl, rfl, rfl, rfl, rfl, rfl, rfl, rfl⟩

/-- A line's modified bytes merged into its home keep the canonical form. -/
theorem State.keeps_mergeLine (s : State) (tag l : Nat) (bs : SMap Byte) : s.keeps (s.mergeLine tag l bs) := by
  unfold State.mergeLine
  extract_lets wm s1 s2
  have h1 : s.keeps s1 := (State.quiet_takeWrite s tag l wm).keeps
  have h2 : s1.keeps s2 := by
    simp only [s2]; split
    · exact .refl _
    · exact State.keeps.foldl (fun s b => State.keeps_putByte s _ _) bs s1
  exact (h1.trans h2).trans (State.keeps.foldl (fun s b => (⟨rfl, rfl, id⟩ : s.keeps (s.breakResv (l + b.1) 1))) bs s2)

/-- Publishing the copies of a die keeps the canonical form. -/
theorem State.keeps_publish (s : State) (d p : Nat) : s.keeps (s.publish d p) := by
  unfold State.publish
  extract_lets cs s1 cs' s2
  have h1 : s.keeps s1 := State.keeps.foldl (fun s c => (State.sameStore_meetCopy s d c.line).keeps) cs s
  have h2 : s1.keeps s2 := ⟨rfl, rfl, id⟩
  refine (h1.trans h2).trans (State.keeps.foldl (fun s c => ?_) cs' s2)
  split
  · exact .refl _
  · exact State.keeps_mergeLine _ _ _ _

/-- The read half of an atomic changes no byte of a calm state. -/
theorem State.quiet_amoRead (s : State) (g : Agent) (a n : Nat) (line : Bool) : s.quiet (s.amoRead g a n line).st := by
  unfold State.amoRead
  extract_lets l s1 s2
  have h2 : s.quiet s2 := by
    refine (State.quiet_recall s l).trans ?_
    simp only [s2]; split
    · exact (State.sameStore_meetCopy _ _ _).quiet
    · exact .refl _
  have h3 := h2.trans (State.quiet_lookup s2 g.tag l (if line then 15 else sectorsOf (byteMask l a n)) 0)
  generalize s2.lookup g.tag l (if line then 15 else sectorsOf (byteMask l a n)) 0 = r at h3 ⊢
  obtain ⟨u, bad⟩ := r
  refine h3.trans (.trans ?_ (State.sameStore_markIll _ _ _ _ _).quiet)
  exact State.quiet.foldl (fun s u => (State.sameStore_meetMemUe s u false).quiet) _ _

/-- An atomic in a die-local copy leaves the bytes of home memory to the copy's publishing. -/
theorem State.quiet_amoDie (s : State) (g : Agent) (d p a fn x cmp size : Nat) : s.quiet (s.amoDie g d p a fn x cmp size).st := by
  unfold State.amoDie
  extract_lets l r old s0 s1 s2
  have h : s.quiet r.st := State.quiet_amoRead _ _ _ _ _
  have h1 : r.st.sameStore s1 := by
    simp only [s1]; split
    · exact .refl _
    · exact ⟨rfl, rfl, rfl, rfl, rfl, rfl, rfl, rfl⟩
  split
  · exact h
  · have h2 : s1.sameStore s2 := State.sameStore_bump _ _ _ _
    exact h.trans ((h1.trans h2).trans (State.sameStore_writeCopies s2 (some d) a (bytesOf size (amoResult fn old x cmp)))).quiet

/-- An atomic at the home slice keeps the canonical form. -/
theorem State.keeps_amoHome (s : State) (g : Agent) (a size : Nat) (f : Nat → Nat) : s.keeps (s.amoHome g a size f).st := by
  unfold State.amoHome
  extract_lets r old
  have h : s.keeps r.st := (State.quiet_amoRead _ _ _ _ _).keeps
  split
  · exact h
  · exact (h.trans (State.sameStore_bump _ _ _ _).keeps).trans (State.keeps_memWrite _ _ _ _)

theorem State.memByte_congr {s u : State} (hm : u.mem = s.mem) (hr : u.scrambles = s.scrambles) (hp : u.part = s.part) (a : Nat) :
    u.memByte a = s.memByte a := by
  unfold State.memByte State.unlisted State.seedAt
  rw [hm, hr, hp]

/-- A write of external memory in a calm state: its bytes read back, every other byte reads as before. -/
theorem State.memByte_memWrite (s : State) (g : Agent) (a c : Nat) (bs : List Byte) (hc : s.calm) :
    (s.memWrite g a bs).memByte c = if a ≤ c ∧ c < a + bs.length then bs.getD (c - a) 0 else s.memByte c := by
  unfold State.memWrite
  extract_lets n s1
  have h1 : s.quiet s1 := State.quiet.foldl (fun s l => State.quiet_takeWrite s g.tag l _) (linesOf a n) s
  have hp : s1.putHome a bs = s1.putBytes a bs := by
    unfold State.putHome
    rw [if_neg]
    simp [(h1.calm hc).2.2.2]
  have h2 : (s1.putHome a bs).sameStore ((((s1.putHome a bs).writeCopies g.die a bs).breakResv a n).markIll g.die a n true) := by
    refine .trans ?_ (State.sameStore_markIll _ _ _ _ _)
    exact (State.sameStore_writeCopies (s1.putHome a bs) g.die a bs).trans ⟨rfl, rfl, rfl, rfl, rfl, rfl, rfl, rfl⟩
  rw [State.memByte_congr h2.mem h2.scrambles h2.part, hp]
  split
  · rename_i h
    obtain ⟨i, rfl⟩ : ∃ i, c = a + i := ⟨c - a, by omega⟩
    rw [State.memByte_putBytes_in _ _ _ _ (by omega)]; simp
  · rw [State.memByte_putBytes_out _ _ _ _ (by omega), State.memByte_congr (h1.mem hc) (h1.scrambles hc) h1.keeps.1]

/-! ## Scratch -/

/-- Bytes of scratch written read back, and every other byte reads as before. -/
theorem putScr_get (m : SMap Byte) (a c : Nat) (bs : List Byte) :
    SMap.get (putScr m a bs) 0 c = if a ≤ c ∧ c < a + bs.length then bs.getD (c - a) 0 else SMap.get m 0 c := by
  induction bs generalizing m a with
  | nil => rw [putScr, if_neg (by simp)]
  | cons b bs ih =>
    rw [putScr, ih, SMap.get_set]
    simp only [List.length_cons]
    by_cases h : c = a
    · subst h; rw [if_neg (by omega), if_pos rfl, if_pos (by omega)]; simp
    · by_cases k : a + 1 ≤ c ∧ c < a + 1 + bs.length
      · rw [if_pos k, if_pos (by omega), show c - a = (c - (a + 1)) + 1 by omega]; simp
      · rw [if_neg k, if_neg h, if_neg (by omega)]

/-- Writing scratch keeps its canonical form. -/
theorem putScr_wf (m : SMap Byte) (a : Nat) (bs : List Byte) (h : SMap.wf m 0 = true) : SMap.wf (putScr m a bs) 0 = true := by
  induction bs generalizing m a with
  | nil => exact h
  | cons b bs ih => exact ih _ _ (SMap.wf_set m 0 a b h)

theorem State.sameStore_raiseUe (s : State) (f g : Fld) (i v : Nat) :
    s.sameStore (if s.on f i then s else (s.raise f i).setFld g i v) :=
  .ite (.refl s) ((State.sameStore_raise _ _ _).trans (State.sameStore_setFld _ _ _ _))

/-- Meeting an uncorrectable unit of scratch changes no byte. -/
theorem State.sameStore_meetScrUe (s : State) (u : Nat) : s.sameStore (s.meetScrUe u) := by
  unfold State.meetScrUe
  extract_lets tile
  have h : ∀ (t pa : Nat) (plinth : Bool) (s : State), s.sameStore (tile t pa plinth s) := by
    intro t pa plinth s
    simp only [tile]
    refine .trans ?_ (State.sameStore_reportSelf _ _ _ _ _ _)
    have k := State.sameStore_raiseUe ((s.raise F.SCP_EVENT.UE t).bump F.SCP_ECC.UE t 1) F.SCP_UE_ADDR.VALID F.SCP_UE_ADDR.ADDR t pa
    have k' := ((State.sameStore_raise s F.SCP_EVENT.UE t).trans (State.sameStore_bump _ F.SCP_ECC.UE t 1)).trans k
    refine k'.trans (.ite ?_ (.refl _))
    exact ((State.sameStore_bump _ _ _ _).trans (State.sameStore_raise _ _ _)).trans (State.sameStore_setFld _ _ _ _)
  refine .ite (h _ _ _ _) ?_
  split
  · exact h _ _ _ _
  · have k := State.sameStore_raiseUe ((s.raise F.SCP_DS_EVENT.UE (paBank u).1).bump F.SCP_DS_ECC.UE (paBank u).1 1)
      F.SCP_DS_UE_ADDR.VALID F.SCP_DS_UE_ADDR.ADDR (paBank u).1 u
    exact .trans (.trans ((State.sameStore_raise _ _ _).trans (State.sameStore_bump _ _ _ _)) k) (State.sameStore_reportSelf _ _ _ _ _ _)

/-- Correcting a single-bit error of scratch changes no byte. -/
theorem State.sameStore_fixScrCe (s : State) (u : Nat) : s.sameStore (s.fixScrCe u) := by
  unfold State.fixScrCe
  extract_lets s1 t d
  clear_value t
  split <;> exact ⟨rfl, rfl, rfl, rfl, rfl, rfl, rfl, rfl⟩

/-- The units of a write at a physical scratch address are met, and its bytes put. -/
theorem State.scrWrite_at (s : State) (t a : Nat) (bs : List Byte) :
    (s.scrWrite t (.at a) bs).scr = putScr s.scr a bs ∧ (s.scrWrite t (.at a) bs).mem = s.mem ∧
      (s.scrWrite t (.at a) bs).scrambles = s.scrambles := by
  unfold State.scrWrite
  extract_lets k n us part s1 s2 s3
  have h : s.sameStore s3 := by
    have h1 : s.sameStore s1 := ⟨rfl, rfl, rfl, rfl, rfl, rfl, rfl, rfl⟩
    exact (h1.trans (State.sameStore.foldl State.sameStore_meetScrUe _ s1)).trans (State.sameStore.foldl State.sameStore_fixScrCe _ s2)
  exact ⟨congrArg (putScr · a bs) h.scr, h.mem, h.scrambles⟩

/-- Every write of scratch keeps its canonical form. -/
theorem State.scrWrite_wf (s : State) (t : Nat) (w : Scr) (bs : List Byte) (h : Scratch.wf s = true) :
    Scratch.wf (s.scrWrite t w bs) = true := by
  rcases w with a | o
  · unfold Scratch.wf; rw [(State.scrWrite_at s t a bs).1]; exact putScr_wf _ _ _ h
  · unfold State.scrWrite
    extract_lets k n us part s1 s2 s3
    have h3 : s.sameStore s3 := by
      have h1 : s.sameStore s1 := ⟨rfl, rfl, rfl, rfl, rfl, rfl, rfl, rfl⟩
      exact (h1.trans (State.sameStore.foldl State.sameStore_meetScrUe _ s1)).trans (State.sameStore.foldl State.sameStore_fixScrCe _ s2)
    exact h3.scratch.trans h

end Sys2Proof.Machine
end

