-- ==== Sys2Proof/WellFormed.lean ====
section
/-! DEFINITION. WellFormed.lean: the operands a command can have: units, tiles, queues and functions the module numbers (R10,
R271, R292, R293, R297, R320, R333, R346, R422). -/
namespace Sys2Proof

/-- A register access names one of the PF and VFs, or a core, and a physical address of the register range or an offset. -/
def RegAcc.wf (a : RegAcc) : Bool :=
  (match a.via with
    | .bar0 fn => fn ≤ 8
    | .core n _ _ _ => n < 96) && a.addr < 2 ^ 32

/-- The operands of a command are ones the module numbers. -/
def Instr.wf : Instr → Bool
  | .courseBoundary _ | .c1C3SnapshotClose | .c0SnapshotClose | .arrivalCount _ | .xltInvAll | .invDone | .flrPf
  | .perstLongHold | .linkLeavesDlActive | .hostLoss | .quiesceComplete | .reattach | .resumeComplete
  | .cfgResetCore | .powerWindow | .pwrCapWrite _ | .crsShareWrite _ | .crsSliceWrite _ | .mailboxComplete _
  | .getVersion | .getCapabilities _ | .negotiateAlgorithms _ | .getDigests | .respondIfReady | .finish _ | .heartbeat
  | .keyUpdate | .endSession | .chunkSend _ _ _ _ | .chunkGet _ _ | .vendorDefinedRequest _
  | .railsRemove _ | .inputPowerRemoved | .moduleReset | .startUp _ | .flashRelease | .rebuildReset
  | .rebuildComplete | .liveSnapshot | .errLogTailWrite _ | .mgmtIndexWrite _ | .mgmtRead | .readVin | .readIin
  | .readPin | .readEin | .readTemperature1 | .statusWord | .statusMfrSpecific | .mfrSerial | .clearFaults
  | .pmbusUnsupported _ | .jtagTrst | .busCompletion _ _ _ | .completionTimeout _ | .linkUp | .coreResetComplete
  | .spiReqAssert | .spiFlashCommand _ | .jtagTck _ _ | .perstAssert | .railsEnable | .powerOnReset => true
  | .quadrantPowerUp quad => quad < 16
  | .timeoutExceeded q | .sqDoorbell q _ | .cqDoorbell q _ | .descriptorFetch q | .descriptorRefetch q | .workNop q
  | .run q | .copy q | .completionRecordWrite q | .resume q | .timeoutWrite q _ | .retireToken q _ => q < 1033
  | .tilePartEnd t | .nop t | .end_ t | .yield t | .j t | .jal t | .jr t | .beq t | .bne t | .blt t | .bge t | .bltu t
  | .bgeu t | .add t | .sub t | .and_ t | .or_ t | .xor t | .sll t | .srl t | .sra t | .mul t | .slt t | .sltu t
  | .min t | .max t | .lui t | .getinfo t | .ld t | .st t | .ldc t | .wload t | .rstream t | .drain t | .lstr t
  | .bstr t | .smov t | .mcpyIn t | .mcpyOut t | .sfill t | .waitc t | .waitcRelease t | .acset t | .acget t | .waitu t
  | .waituRelease t | .amo t | .fence t | .fenceRelease t | .hodreq t | .qinv t | .qen t | .qpf t | .quoinFill t _
  | .cfma t | .cadd t | .csub t | .cmul t | .cmax t | .cmin t | .cdotBf16 t | .cdotFp8 t | .cmov t | .ccvt t | .cqmx t
  | .csfu t | .csfuExpm t | .cpushb t | .cred t | .cbset t | .cbget t | .csinit t | .csmax t | .cssum t | .csfin t
  | .cst t | .cstMx t | .plinthScrub t | .wloadComplete t | .weightCopy t | .streamStart t | .archFreeze t _
  | .archRewind t | .streamEntryArrival t _ | .reservedOpcode t => t < 800
  | .adminQueueEnable a _ | .adminQueueDisable a _ | .createQueue a | .destroyQueue a | .resetQueue a | .createContext a
  | .destroyContext a | .createResidentSet a | .releaseResidentSet a | .moveResidentSet a | .partCreate a
  | .partDestroy a | .partAssignTiles a | .partAssignRange a | .echo a => a < 9
  | .partitionClose p => p < 8
  | .drainRow t col => t < 800 && col < 40
  | .riddleJobStart d | .riddleJobFinish d | .mtcCmdDone d | .addDone d => d < 4
  | .writebackAll d n | .writebackRange d n | .evictRange d n | .discardLostRange d n => d < 4 && n < 2048
  | .wcDrain line => line % 128 = 0
  | .patrolScrub ctl _ => ctl < 24
  | .memAdd d ty | .memSum d ty => d < 4 && ty < 4
  | .xltInvContext c | .xltInvContextRange c => c < 256
  | .hodCopy h | .hodFill h | .hodFence h | .hodFenceRelease h | .hodTransferComplete h _ => h < 16
  | .inboundRead r len => r.req < 2 ^ 16 && r.off < 2 ^ 41 && len ≤ 4096
  | .inboundWrite r data _ => r.req < 2 ^ 16 && r.off < 2 ^ 41 && data.length ≤ 4096
  | .inboundAtomicop off => off < 2 ^ 41
  | .outboundAccess w _ _ _ => w.core < 96
  | .ntEntryDrain core _ | .coreWatchdog core | .coreFence core _ => core < 96
  | .flrVf n => 1 ≤ n && n ≤ 8
  | .chkLoad u _ | .chkData8 u _ | .chkData16 u _ | .chkData32 u _ | .chkValueWrite u _ => u < 4
  | .flitCrcFail l f => l < 36 && f.payload.length = 64
  | .nak l _ | .replayWindowEnd l _ | .sidebandSymbol l _ _ _ | .replayFlitReceived l _ => l < 36
  | .ack l _ n => l < 36 && n ≤ 128
  | .freqStep dom step => dom < 24 && step ≤ 24
  | .droop dom _ => dom < 24
  | .thermalSample readings => readings.all fun r => r.1 < 19
  | .dieThrottleStep die => die < 7
  | .thermalTrip sensor => sensor < 19
  | .airfailStop n | .airfailRelease n => n < 2
  | .loadImage len | .takeOwnership len | .raiseSvn len | .debugChallenge len | .debugUnlock len => len < 2 ^ 21
  | .getCertificate slot _ _ => slot < 8
  | .challenge slot nonce => slot < 8 && nonce.length = 32
  | .getMeasurements op _ _ => op < 256
  | .keyExchange slot share => slot < 8 && share.length = 96
  | .lockInterfaceRequest vf | .stopInterface vf | .ideIntegrityFail vf => 1 ≤ vf && vf ≤ 8
  | .errorReport r => r.report.sev < 4
  | .recordClose n => n < 256
  | .setdasa static dyn => static < 128 && dyn < 128
  | .entdaa dyn => dyn < 128
  | .fruRead off _ => off < 8192
  | .registerWrite acc _ | .rcRead acc => acc.wf
  | .coreMemoryAccess acc => acc.core < 96
  | .configRequest fn _ => fn ≤ 8

end Sys2Proof
end

