-- ==== Sys2Proof/Tests/Slice0.lean ====
section
/-! SUPPORT. Tests/Slice0.lean: ill-formed commands refused, single steps against the spec's own values, and states that meet the
premises of each obligation. -/
open Sys2Proof Sys2Proof.Machine

set_option Elab.async false

/-! ## States to test on -/

/-- A module that runs: READY, the course timer on, memory in RUN mode, phase 9. -/
def up : State :=
  let s := ((State.reset.raise F.CFE_STATUS.READY 0).setFld F.CFG_STATE.PHASE 0 9).setFld F.HOD_LINK.UP 0 1
  let s := (List.range 4).foldl (fun s d => s.setFld F.MEM_MODE.MODE d 2) s
  { s with timer := true }

/-- Block 1 of queue 0, of the operator, on tile 0. -/
def blk : Block := ⟨1, 0, 0, 0, 1, 8, 0, 4096, [0], none, [], none, false, 0, none, 0, [], false, 0, 0⟩

/-- Tile 0 runs block 1, its slot 0 names itself, and its fetch buffer holds the instruction `w` at address 0; `f` sets the rest of
the tile. -/
def on0 (w : Word) (f : Tile → Tile) : State :=
  let s := { up with blocks := [blk], nextBlock := 2 }
  ((s.setFld F.TSQ_STATE.RUN 0 1).setFld F.TSQ_RELOC.VALID 0 1).setTile 0 (f { Tile.reset with
    block := some 1, text := (0, 128), fetchBuf := some ⟨0, bytesOf 8 w.toNat, false, 0, false⟩ })

/-- Tile `t` can issue, and its fetch delivers `w`. -/
def isWord (s : State) (t : Nat) (w : Word) : Bool :=
  s.running t && match s.fetch t with
    | .word v _ => v == w
    | _ => false

/-- The state the fetch leaves. -/
def fetched (s : State) (t : Nat) : State :=
  match s.fetch t with
  | .word _ u => u
  | _ => s

theorem issues_of {s : State} {t : Nat} {w : Word} (h : isWord s t w = true) : s.issues t w (fetched s t) := by
  simp only [isWord, Bool.and_eq_true] at h
  refine ⟨h.1, ?_⟩
  unfold fetched
  have h2 := h.2
  cases hf : s.fetch t with
  | word v u => simp only [hf, beq_iff_eq] at h2; subst h2; rfl
  | miss l => simp [hf] at h2
  | bad e u => simp [hf] at h2

/-- An instruction word with opcode, D, A, B and the bits below. -/
def ins (op d a b low : Nat) : Word := BitVec.ofNat 64 (op * 2 ^ 56 + d * 2 ^ 51 + a * 2 ^ 46 + b * 2 ^ 41 + low)

/-- Scalar registers of the tile under test. -/
def regs (l : List (Nat × Word)) (x : Tile) : Tile := { x with sregs := l }

/-- The outcome is a next state of which `p` holds. -/
def next? (r : Res State) (p : State → Bool) : Bool :=
  match r with
  | .next u => p u
  | _ => false

/-! ## Ill-formed commands are refused (WellFormed) -/

theorem test_wf_tile : Instr.wf (.add 800) = false ∧ Instr.wf (.add 799) = true := by decide
theorem test_wf_tile_column : Instr.wf (.drainRow 0 40) = false ∧ Instr.wf (.drainRow 0 39) = true := by decide
theorem test_wf_queue : Instr.wf (.sqDoorbell 1033 0) = false ∧ Instr.wf (.sqDoorbell 1032 0) = true := by decide
theorem test_wf_admin : Instr.wf (.createQueue 9) = false ∧ Instr.wf (.createQueue 8) = true := by decide
theorem test_wf_quadrant : Instr.wf (.quadrantPowerUp 16) = false := by decide
theorem test_wf_partition : Instr.wf (.partitionClose 8) = false := by decide
theorem test_wf_die : Instr.wf (.addDone 4) = false ∧ Instr.wf (.writebackRange 0 2048) = false ∧ Instr.wf (.memAdd 0 4) = false := by decide
theorem test_wf_line : Instr.wf (.wcDrain 64) = false ∧ Instr.wf (.wcDrain 128) = true := by decide
theorem test_wf_controller : Instr.wf (.patrolScrub 24 ⟨0, false⟩) = false := by decide
theorem test_wf_context : Instr.wf (.xltInvContext 256) = false := by decide
theorem test_wf_hod : Instr.wf (.hodCopy 16) = false := by decide
theorem test_wf_inbound : Instr.wf (.inboundRead ⟨0, 2 ^ 41⟩ 4) = false ∧ Instr.wf (.inboundRead ⟨0, 0⟩ 4097) = false ∧
    Instr.wf (.inboundRead ⟨2 ^ 16, 0⟩ 4) = false ∧ Instr.wf (.inboundAtomicop (2 ^ 41)) = false := by decide
theorem test_wf_inbound_write : Instr.wf (.inboundWrite ⟨0, 0⟩ (List.replicate 4097 0) ⟨false, false⟩) = false := by decide +kernel
theorem test_wf_core : Instr.wf (.coreWatchdog 96) = false ∧ Instr.wf (.coreMemoryAccess ⟨96, .m, 0, false, 0, 0, 0, .cboZero, []⟩) = false := by decide
theorem test_wf_vf : Instr.wf (.flrVf 0) = false ∧ Instr.wf (.flrVf 9) = false ∧ Instr.wf (.stopInterface 0) = false := by decide
theorem test_wf_check_unit : Instr.wf (.chkLoad 4 0) = false := by decide
theorem test_wf_lintel : Instr.wf (.nak 36 false) = false ∧ Instr.wf (.flitCrcFail 0 ⟨false, 0, [], 0⟩) = false ∧ Instr.wf (.ack 0 false 129) = false := by decide
theorem test_wf_domain : Instr.wf (.droop 24 0) = false ∧ Instr.wf (.freqStep 0 25) = false := by decide
theorem test_wf_sensor : Instr.wf (.thermalSample [(19, 0)]) = false ∧ Instr.wf (.thermalTrip 19) = false := by decide
theorem test_wf_throttle_die : Instr.wf (.dieThrottleStep 7) = false := by decide
theorem test_wf_airflow : Instr.wf (.airfailStop 2) = false := by decide
theorem test_wf_mailbox : Instr.wf (.loadImage (2 ^ 21)) = false := by decide
theorem test_wf_spdm : Instr.wf (.getCertificate 8 0 0) = false ∧ Instr.wf (.challenge 0 []) = false ∧
    Instr.wf (.keyExchange 0 []) = false ∧ Instr.wf (.getMeasurements 256 false []) = false := by decide
theorem test_wf_report : Instr.wf (.errorReport ⟨⟨0, 4, 0, 0, 0, 0, 0, 0⟩, 0, 0⟩) = false := by decide
theorem test_wf_log_entry : Instr.wf (.recordClose 256) = false := by decide
theorem test_wf_i3c : Instr.wf (.setdasa 128 0) = false ∧ Instr.wf (.entdaa 128) = false ∧ Instr.wf (.fruRead 8192 1) = false := by decide
theorem test_wf_register : Instr.wf (.registerWrite ⟨.bar0 9, 0, 8⟩ 0) = false ∧
    Instr.wf (.rcRead ⟨.core 96 .m 0 0, 0, 8⟩) = false ∧ Instr.wf (.rcRead ⟨.bar0 0, 2 ^ 32, 8⟩) = false := by decide
theorem test_wf_config : Instr.wf (.configRequest 9 (.bme true)) = false := by decide

/-! ## The worked examples of the specification -/

/-- Encoding of WAITC counter 5, s2, and of CDOT.BF16 v1, LS(pop), BQ(pop), v1 (worked example of the sequencer's chapter). -/
theorem test_encoding : (opOf 0x6000802800000000 = 0x60 ∧ aOf 0x6000802800000000 = 2 ∧ ctrOf 0x6000802800000000 = 5) ∧
    (opOf 0xA200407000000400 = 0xA2 ∧ aOf 0xA200407000000400 = 1 ∧ fnOf 0xA200407000000400 = 7 ∧
      immOf 0xA200407000000400 = 0x400) ∧
    (opOf 0xB60A044040000000 = 0xB6 ∧ vdOf 0xB60A044040000000 = 1 ∧ saOf 0xB60A044040000000 = 0x20 ∧
      sbOf 0xB60A044040000000 = 0x22 ∧ scOf 0xB60A044040000000 = 1) := by decide +kernel

/-- 0x0030_4000 through a TILE slot naming package tile 747 is 0x3930_4000; 0x40A1_2340 through a DSTORE slot naming bank 37 of
die 2 is 0x64A1_2340. -/
theorem test_resolution :
    let s := (((up.setFld F.TSQ_RELOC.VALID 3 1).setFld F.TSQ_RELOC.TARGET 3 747).setFld F.TSQ_RELOC.VALID 5 1)
    let s := (s.setFld F.TSQ_RELOC.TYPE 5 1).setFld F.TSQ_RELOC.TARGET 5 (2 * 64 + 37)
    (match s.conv 0 0 0x00304000 8 true true with | .ok (.at a) => a == 0x39304000 | _ => false) = true ∧
    (match s.conv 0 0 0x40A12340 8 true true with | .ok (.at a) => a == 0x64A12340 | _ => false) = true := by decide +kernel

/-- PA 0x0100_1234_5600 of a CZ-9768 is homed on die 2, and the run of 2 KiB around it on dies 1, 0, 3 and 2; it lies on stack 7. -/
theorem test_home : [0x010012345000, 0x010012345200, 0x010012345400, 0x010012345600].map Part.cz9768.homeDie = [1, 0, 3, 2] ∧
    Part.cz9768.controller 0x010012345600 = 7 := by decide +kernel

/-- The nearest bank of die 2 to package tile 590 is bank 56, at distance 3. -/
theorem test_nearest_bank : nearestBank [] 590 2 = some (2 * 64 + 56) ∧ bankDist 590 (2 * 64 + 56) = 3 := by decide +kernel

/-- FDR_EVENT of package tile 747 is at 0x2E4C_1830, and queue 37's doorbell at 0x1002_5000. -/
theorem test_addresses : F.FDR_EVENT.ASHLAR_FIX.at 747 = 0x2E4C1830 ∧ RegKind.CFE_Q_SQ_DB.place.addr 37 = 0x10025000 ∧
    F.FDR_EVENT.ASHLAR_FIX.lo = 1 := by decide +kernel

/-- A CZ-5384 shows PART 0x5384 and CAP_UNITS 0x0000_000F_003F_0013. -/
theorem test_capabilities : Part.cz5384.id = 0x5384 ∧
    ({ up with part := .cz5384 } : State).view 8 .CAP_UNITS 0 = 0x0000000F003F0013 := by decide +kernel

/-- CRC-32C of "123456789" on unit 0: VALUE 0x3EB6_9F38, RESULT 0xE306_9283. -/
theorem test_crc32c :
    let s := (up.setFld F.CHK_POLY.POLY 0 0x1EDC6F41).setFld F.CHK_INIT.INIT 0 0xFFFFFFFF
    next? (exec (.chkLoad 0 0x1071F) s) (fun s => next? (exec (.chkData32 0 0x34333231) s) fun s =>
      next? (exec (.chkData32 0 0x38373635) s) fun s => next? (exec (.chkData8 0 0x39) s) fun s =>
        s.chkValue 0 == 0x3EB69F38 && s.chkResult 0 == 0xE3069283) = true := by decide +kernel

/-- The worked MXFP4 dot product: the chain of one column gives 6.5. -/
theorem test_mxfp4_chain :
    let codes (l : List Byte) : List Nat := (List.range 32).map (unpack 9 (l ++ List.replicate 12 0))
    peChain 9 9 2 ((codes [0x93, 0x56, 0xC7, 0x12]).map fun e => (e, 0x7D))
      ((codes [0x74, 0xA3, 0xD1, 0xF6]).zipIdx.map fun e => ⟨e.2, e.1, 0x80⟩) 0 = 0x40D00000 := by decide +kernel

/-- The online softmax of two chunks: C = exp2(3.0 − 5.0) = 0.25 and L = 10.0 × 0.25 + 6.0 = 8.5. -/
theorem test_softmax : softMax 0x40400000 [0x40A00000] = (0x40A00000, 0x3E800000) ∧
    ffma 0x41200000 0x3E800000 0x40C00000 = 0x41080000 := by decide +kernel

/-- Latencies 1,984 and 4,052 cycles of a 10 × 20 and a 20 × 40 arch. -/
theorem test_arch_latency : archLatency 10 20 = 1984 ∧ archLatency 20 40 = 4052 := by decide

/-- The record of token 100 at expert 1, slot 0, with gate 0.25 and rank 1 (six tokens, four experts). -/
theorem test_riddle_record : record 100 0x3E800000 1 1 0 0 =
    [0x64, 0, 0, 0, 0, 0, 0x80, 0x3E, 1, 0, 1, 0, 0, 0, 0, 0] := by decide +kernel

/-- The choice of experts of tokens 101 and 104 among four with room: the tie goes to the lower number. -/
theorem test_riddle_choice :
    let pick (l : List Nat) : List Nat := selectExperts [3, 3, 3, 3] (fun e => l.getD e 0) 2
    pick [0x3EC00000, 0x3E000000, 0x3EC00000, 0x3E000000] = [0, 2] ∧
    pick [0x3EC00000, 0x3E000000, 0x3E000000, 0x3EC00000] = [0, 3] ∧
    pick [0x3E800000, 0x3F000000, 0x3E000000, 0x3E000000] = [1, 0] := by decide +kernel

/-- Clamping: PWR_CAP takes 1,800 for 2,000 and 500 for 300; C2_SHARE takes 128 for 200. -/
theorem test_clamps : next? (exec (.pwrCapWrite 2000) up) (fun u => u.fld F.PWR_CAP.CAP 0 == 1800) = true ∧
    next? (exec (.pwrCapWrite 300) up) (fun u => u.fld F.PWR_CAP.CAP 0 == 500) = true ∧
    next? (exec (.crsShareWrite (200 * 256)) up) (fun u => u.fld F.CRS_SHARE.C2_SHARE 0 == 128) = true := by decide +kernel

/-- Context 3 with DATUM 2⁴⁸: 0x2345_6780_0000 reads at 0x0100_6780_0000; one gigabyte further a non-leaf at level 2 is LEAF_SIZE. -/
theorem test_translation :
    let s := ((up.setFld F.XLT_CTX_ROOT.VALID 3 1).setFld F.XLT_CTX_ROOT.PARTITION 3 8).setFld F.XLT_CTX_ROOT.PPN 3 0x10000000
    let s := s.setReg .XLT_CTX_DATUM 3 0x0001000000000000
    let pte (a v : Nat) (s : State) : State := s.putBytes a (bytesOf 8 v)
    let s := pte (0x010000000000 + 8 * 0x001) ((0x10000001 <<< 10) + 1) s
    let s := pte (0x010000001000 + 8 * 0x046) ((0x10000002 <<< 10) + 1) s
    let s := pte (0x010000002000 + 8 * 0x115) 0x00000040100001D7 s
    let s := pte (0x010000002000 + 8 * 0x116) ((0x10000003 <<< 10) + 1) s
    (match (s.xlate 0 0 0 3 0x0000234567800000 .read).res with
      | .ok a => a == 0x010067800000
      | .error _ => false) = true ∧
    (match (s.xlate 0 0 0 3 0x00002345A7800000 .read).res with
      | .ok _ => false
      | .error f => f.cause == 3 && f.level == 2) = true := by decide +kernel

/-- Relocation registers of handle 1 on tile 401: bank 56 of die 2 under logical bank 0, and handle 21 on tile 421. -/
theorem test_relocation : ((up.setSlot 401 1 true 0 (2 * 64 + 56)).reg .TSQ_RELOC (401 * 32 + 1) = 0xC0000000000000B8) ∧
    ((up.setSlot 401 2 false 21 421).reg .TSQ_RELOC (401 * 32 + 2) = 0x80000015000001A5) := by decide +kernel

/-- An item of a queue. -/
def item (q seq : Nat) (desc : List Byte) (stage : ItemStage) : Item :=
  ⟨q, seq, desc, stage, 0, [], 0, 0, none, false, [], none, 0, 0, 0, 0⟩

/-- Record 510 of queue 37, for item 0x01FE, completed in course 0x4_93E0 1,210 µs after its check. -/
theorem test_record :
    let s := ((up.setFld F.CFE_Q_CFG.CQ_ORDER 37 8).setFld F.CRS_COURSE_NUM.COURSE 0 0x493E0)
    let bs := ({ s with ticks := 121000 } : State).recordBytes (item 37 0x1FE (List.replicate 64 0) (.finished 0 0 0xFF)) 510 0 0 0xFF
    bs.take 8 = [0xFE, 0x01, 0, 0, 0, 0, 0x25, 0] ∧ le bs 16 8 = 0x493E0 ∧ le bs 26 1 = 0xFF ∧ le bs 28 4 = 0x4BA := by decide +kernel

/-- Bytes 0 to 7 of the record of lintel 14 going down, and what the log shows after its report. -/
theorem test_lintel_record :
    let s := { (up.setFld F.LTL_STATE.STATE 14 2).setFld F.CRS_COURSE_NUM.COURSE 0 0x51A2C with
      ldirs := [(28, { LDir.reset with nak := some 0, resent := true, failed := 7 })] }
    next? (exec (.flitCrcFail 14 ⟨false, 0, List.replicate 64 0, 0⟩) s) (fun u => u.halted && u.reg .ERR_FATAL 0 == 0x8000400E00000402 &&
      match SMap.find? u.grout 0 with
      | some e => e.bytes.take 8 == [0x02, 0x04, 0x03, 0x00, 0x0E, 0x40, 0x0E, 0x40] && e.course == 0x51A2C && e.dies == 1 &&
          e.detail == 2 && e.part == 0xFF && e.queue == 0xFFFF
      | none => false) = true := by decide +kernel

/-- A debt repaid: 192 busy tiles of a pool of 768 count as late. -/
theorem test_debt :
    let s := up.setFld F.CRS_C0_RES.RESERVED_TILES 0 32
    let late := { blk with tiles := (List.range 192).map (32 + ·), start := 0 }
    let s := { s.setFld F.CRS_COURSE_NUM.COURSE 0 1 with blocks := [late] }
    s.pool = 768 ∧ s.lateTiles = 192 := by decide +kernel

/-! ## Single steps, by hand -/

/-- The value of s3 after an instruction with D = 3, A = 1, B = 2. -/
def sets (i : Instr) (op imm : Nat) (a b v : Word) : Bool :=
  next? (exec i (on0 (ins op 3 1 2 imm) (regs [(1, a), (2, b)]))) fun u => u.sreg 0 3 == v && (u.tile 0).pc == 8

theorem test_add : sets (.add 0) 0x10 0xFFFFFFFF 5 7 11 = true := by decide +kernel
theorem test_add_wraps : sets (.add 0) 0x10 0 (-1) 2 1 = true := by decide +kernel
theorem test_sub : sets (.sub 0) 0x11 0 5 7 (-2) = true := by decide +kernel
theorem test_sra : sets (.sra 0) 0x17 0 0x8000000000000000 68 0xF800000000000000 = true := by decide +kernel
theorem test_srl : sets (.srl 0) 0x16 0 0x8000000000000000 4 0x0800000000000000 = true := by decide +kernel
theorem test_mul : sets (.mul 0) 0x18 0 0x100000001 0x100000001 0x200000001 = true := by decide +kernel
theorem test_slt : sets (.slt 0) 0x19 0 (-1) 1 1 = true ∧ sets (.sltu 0) 0x1A 0 (-1) 1 0 = true := by decide +kernel
theorem test_min : sets (.min 0) 0x1B 0 (-1) 1 (-1) = true ∧ sets (.max 0) 0x1C 0 (-1) 1 1 = true := by decide +kernel
theorem test_lui : sets (.lui 0) 0x1D 0x12345678 0xFFFFFFFF9ABCDEF0 0 0x123456789ABCDEF0 = true := by decide +kernel
theorem test_s0 : next? (exec (.add 0) (on0 (ins 0x10 0 1 2 0) (regs [(1, 5)]))) (fun u => u.sreg 0 0 == 0) = true := by
  decide +kernel
theorem test_blt_back : next? (exec (.blt 0) (on0 (ins 0x08 0 1 2 0xFFFFFFFF) fun x => { regs [(1, -1)] x with pc := 0 }))
    (fun u => (u.tile 0).pc == 2 ^ 48 - 8) = true := by decide +kernel
theorem test_jal : next? (exec (.jal 0) (on0 (ins 0x04 3 0 0 5) id)) (fun u => (u.tile 0).pc == 40 && u.sreg 0 3 == 8) = true := by
  decide +kernel
theorem test_jr_align : next? (exec (.jr 0) (on0 (ins 0x05 0 1 0 4) id))
    (fun u => u.fld F.TSQ_EXC.CODE 0 == 5 && u.fld F.TSQ_STATE.RUN 0 == 3 && (u.tile 0).pc == 0) = true := by decide +kernel
theorem test_st_scratch : next? (exec (.st 0) (on0 (ins 0x21 0 1 2 (2 ^ 32)) (regs [(1, 0x100), (2, 0xABCD)])))
    (fun u => SMap.get u.scr 0 (tilePa 0 + 0x100) == 0xCD && SMap.get u.scr 0 (tilePa 0 + 0x101) == 0xAB) = true := by
  decide +kernel
theorem test_ld_zero_extends : next? (exec (.ld 0) { on0 (ins 0x20 3 1 0 (2 ^ 32)) (regs [(1, 0x100)]) with
      scr := [(tilePa 0 + 0x100, 0xFF), (tilePa 0 + 0x101, 0x80)] })
    (fun u => u.sreg 0 3 == 0x80FF) = true := by decide +kernel
theorem test_waitc_stalls : next? (exec (.waitc 0) (on0 (ins 0x60 0 1 0 0) (regs [(1, 4096)])))
    (fun u => (u.tile 0).waitC == some (0, 4096) && u.fld F.TSQ_STATE.WAIT 0 == 2) = true := by decide +kernel
theorem test_acset : next? (exec (.acset 0) (on0 (ins 0x61 0 0 2 (5 * 2 ^ 35)) (regs [(2, 77)])))
    (fun u => u.fld F.SCP_ACTR.COUNT 5 == 77) = true := by decide +kernel
theorem test_amo_add : amoResult 0 0xFFFFFFFF 2 0 = 1 ∧ amoResult 3 (2 ^ 64 - 1) 1 0 = 2 ^ 64 - 1 ∧ amoResult 10 7 9 7 = 9 := by
  decide +kernel
theorem test_cfma : ffma 0x40000000 0x40400000 0x3F800000 = 0x40E00000 ∧ fadd 0x7F800000 0xFF800000 = 0x7FC00000 ∧
    fmul 0x00800000 0x3F000000 = 0x00400000 := by decide +kernel
theorem test_csfu : sfuExp2 0xC0000000 = 0x3E800000 ∧ sfuRcp 0x40800000 = 0x3E800000 ∧ sfuRsq 0x40800000 = 0x3F000000 ∧
    sfuLog2 0x41000000 = 0x40400000 := by decide +kernel
theorem test_sha384_abc : (sha384 [0x61, 0x62, 0x63]).take 8 = [0xCB, 0x00, 0x75, 0x3F, 0x45, 0xA3, 0x5E, 0x8B] := by decide +kernel
theorem test_step_front : next? (step { up with pending := [.pwrCapWrite 600, .getVersion] })
    (fun u => u.fld F.PWR_CAP.CAP 0 == 600 && u.pending == [.getVersion]) = true := by decide +kernel
theorem test_step_idle : next? (step up) (fun u => u.ticks == 1) = true := by decide +kernel
theorem test_register_clamp : next? (exec (.registerWrite ⟨.core 0 .m 0 0, RegKind.PWR_CAP.place.addr 0, 8⟩ 300) up)
    (fun u => u.fld F.PWR_CAP.CAP 0 == 500 && u.fld F.CFG_EPOCH.EPOCH 0 == 1) = true := by decide +kernel
theorem test_doorbell_ignored : next? (exec (.sqDoorbell 3 1) up) (fun u => u.fld F.CFE_Q_STAT.DB_IGNORED 3 == 1) = true := by
  decide +kernel
theorem test_mailbox_refused : next? (exec (.loadImage 16) (up.setFld F.SEC_MBOX_CMD.BUSY 0 1))
    (fun u => u.fld F.SEC_EVENT.REFUSED 0 == 1) = true := by decide +kernel
theorem test_inbound_poisoned : next? (exec (.inboundWrite ⟨0, 0⟩ [1] ⟨true, false⟩) up)
    (fun u => u.fld F.HOD_INBOUND.DROPPED 0 == 1 && u.outs == [.aer .poisonedWrite] && u.mem == []) = true := by decide +kernel
theorem test_inbound_write : next? (exec (.inboundWrite ⟨0, 0⟩ [1, 0, 2] ⟨false, false⟩) up) (fun u => u.mem == [] &&
    next? (exec (.arrivalCount ⟨0, .whole⟩) u) fun u => u.mem == [(0x008000000000, 1), (0x008000000002, 2)]) = true := by decide +kernel


/-! ## States that meet the premises of the obligations -/

/-- The state after the fetch at tile 0. -/
def at0 (w : Word) (f : Tile → Tile) : State := fetched (on0 w f) 0

theorem at0_issues {w : Word} {f : Tile → Tile} (h : isWord (on0 w f) 0 w = true) : (on0 w f).issues 0 w (at0 w f) := issues_of h

/-- No error is latent. -/
def quiet (s : State) : Bool :=
  s.lost == [] && s.memUe == [] && s.memCe == [] && s.scrUe == [] && s.scrCe == [] && s.lineUe == [] && s.lineCe == [] &&
    s.tagUe == [] && s.copyUe == [] && s.cacheUe == [] && s.cacheCe == [] && s.copies.all fun c => !c.gone

theorem sound_of {s : State} (h : quiet s = true) : s.sound := by
  simpa only [State.sound, quiet, Bool.and_eq_true, beq_iff_eq, and_assoc, List.all_eq_true, Bool.not_eq_true'] using h

/-- No die-local copy is held, so no access is ill-scoped. -/
theorem scoped_of {s : State} {d : Nat} (h : s.copies = []) : s.scoped d := by
  intro a
  unfold State.illScoped
  rw [h]
  rfl

def conv? (s : State) (a n : Nat) (own write : Bool) (pa : Nat) : Bool :=
  match s.conv 0 0 a n own write with
  | .ok (.at b) => b == pa
  | _ => false

theorem conv_of {s : State} {a n pa : Nat} {own write : Bool} (h : conv? s a n own write pa = true) :
    s.conv 0 0 a n own write = .ok (.at pa) := by
  unfold conv? at h
  split at h
  · simp only [beq_iff_eq] at h; subst h; assumption
  · cases h

/-- Context 0 maps its first gigabyte to 0x0100_4000_0000, with every right. -/
def paged (s : State) : State :=
  let s := ((s.setFld F.XLT_CTX_ROOT.VALID 0 1).setFld F.XLT_CTX_ROOT.PARTITION 0 8).setFld F.XLT_CTX_ROOT.PPN 0 0x10000000
  let pte (a v : Nat) (s : State) : State := s.putBytes a (bytesOf 8 v)
  pte 0x010000002000 0x40100001DF (pte 0x010000001000 ((0x10000002 <<< 10) + 1) (pte 0x010000000000 ((0x10000001 <<< 10) + 1) s))

/-- What lets tile 0 make an access to external memory now. -/
def goes? (s : State) (a n : Nat) : Bool := (s.tile 0).fence == [] && !s.noEntry 0 false && !s.readHeld 0 a n

theorem goes_of {s : State} {a n : Nat} (h : goes? s a n = true) : s.goes 0 a n := by
  simpa only [State.goes, goes?, Bool.and_eq_true, beq_iff_eq, Bool.not_eq_true', and_assoc] using h

/-- A write of 32 bytes on its way from tile 0, with 7 in its first. -/
def pkt0 (u : Machine.PUnit) (mem : Bool) (dst : Nat) (ctr : Option (Nat × Nat)) : Packet :=
  ⟨3, 0, 0, u, ⟨some 0, 8⟩, none, mem, true, false, dst, bytesOf 32 7, [], [], ctr⟩

def xlate? (s : State) (a : Nat) (acc : Acs) (pa : Nat) : Bool :=
  match (s.xlate 0 0 0 0 a acc).res with
  | .ok b => b == pa
  | _ => false

theorem xlate_of {s : State} {a pa : Nat} {acc : Acs} (h : xlate? s a acc pa = true) : (s.xlate 0 0 0 0 a acc).res = .ok pa := by
  unfold xlate? at h
  split at h
  · simp only [beq_iff_eq] at h; subst h; assumption
  · cases h

/-- Tile 0 of block 1 reads text and constants from its scratch, and `w` stands at address 0. -/
def onText (w : Word) (f : Tile → Tile) : State :=
  let s := (on0 w f).setFld F.TSQ_QCTL.TEXT_MODE 0 1
  { s with scr := putScr s.scr (tilePa 0) (bytesOf 8 w.toNat) }

/-- Tile 0 of block 1 runs with the quoin cache on, which holds `w` at address 0 and 0x77 at 8. -/
def onQuoin (w : Word) (f : Tile → Tile) : State :=
  ((on0 w f).setFld F.TSQ_QCTL.ENABLE 0 1).modTile 0 fun x =>
    { x with quoin := [(0, ⟨0, bytesOf 8 w.toNat ++ bytesOf 120 0x77, false, 0, false⟩)] }

theorem witness_ScalarResults : (.lui, 0x1D, fun a b => BitVec.ofNat 64 (b.toNat % 2 ^ 32 * 2 ^ 32 + a.toNat % 2 ^ 32)) ∈ scalarOps ∧
    (on0 (ins 0x1D 3 1 0 7) id).issues 0 (ins 0x1D 3 1 0 7) (at0 (ins 0x1D 3 1 0 7) id) ∧ opOf (ins 0x1D 3 1 0 7) = 0x1D := by
  refine ⟨by simp [scalarOps], at0_issues (by decide +kernel), by decide +kernel⟩

theorem witness_ControlFlow_branch : (Instr.bgeu, 0x0B, fun a b : Word => decide (b.toNat ≤ a.toNat)) ∈ branchOps ∧
    (on0 (ins 0x0B 0 1 2 3) id).issues 0 (ins 0x0B 0 1 2 3) (at0 (ins 0x0B 0 1 2 3) id) ∧ opOf (ins 0x0B 0 1 2 3) = 0x0B := by
  refine ⟨by simp [branchOps], at0_issues (by decide +kernel), by decide +kernel⟩

theorem witness_ControlFlow_jr : let w := ins 0x05 0 1 0 8
    (on0 w id).issues 0 w (at0 w id) ∧ opOf w = 0x05 ∧ ((at0 w id).sreg 0 (aOf w) + immOf w).toNat % 8 = 0 :=
  ⟨at0_issues (by decide +kernel), by decide +kernel, by decide +kernel⟩

theorem witness_TileEnds_info : let w := ins 0x1E 3 0 0 (5 * 2 ^ 36)
    let s := (on0 w id).setFld F.ARC_SHAPE.VALID 0 1
    s.issues 0 w (fetched s 0) ∧ opOf w = 0x1E ∧ fnOf w = 5 ∧ (fetched s 0).blockOf 0 = some blk ∧
      (fetched s 0).fld F.ARC_SHAPE.VALID 0 = 1 ∧ (at0 w id).reg .ARC_SHAPE 0 = 0 :=
  ⟨issues_of (by decide +kernel), by decide +kernel, by decide +kernel, by decide +kernel, by decide +kernel, by decide +kernel⟩

theorem witness_TileEnds_yield : let w := ins 0x02 0 0 0 0
    let f : Tile → Tile := fun x => { x with cont := true }
    (on0 w f).issues 0 w (at0 w f) ∧ opOf w = 0x02 ∧ ((at0 w f).tile 0).cont = true ∧ (at0 w f).blockOf 0 = some blk :=
  ⟨at0_issues (by decide +kernel), by decide +kernel, by decide +kernel, by decide +kernel⟩

theorem witness_TileEnds_part : let s := (on0 0 id).setFld F.TSQ_STATE.RUN 0 2
    s.blockOf 0 = some blk ∧ s.tileEnded 0 = true ∧ (∀ q ∈ blk.tiles, s.fld F.TSQ_STATE.RUN q = 0 ∨ q = 0) ∧
      s.fld F.TSQ_STATE.RUN 0 = 2 := by decide +kernel

theorem witness_TileEnds_part_early : let b := { blk with tiles := [0, 1] }
    let s := { ((on0 0 id).setFld F.TSQ_STATE.RUN 0 2).setFld F.TSQ_STATE.RUN 1 1 with blocks := [b] }
    s.blockOf 0 = some b ∧ s.tileEnded 0 = true ∧ ∃ q ∈ b.tiles, q ≠ 0 ∧ s.fld F.TSQ_STATE.RUN q = 1 := by decide +kernel

theorem witness_TileStops : let w := ins 0xFF 0 0 0 0
    let v := ins 0x1E 0 0 0 (6 * 2 ^ 36)
    let j := ins 0x05 0 0 0 4
    ((on0 w id).issues 0 w (at0 w id) ∧ opcodeListed (opOf w) = false ∧ (on0 w id).sound) ∧
    ((on0 v id).issues 0 v (at0 v id) ∧ opOf v = 0x1E ∧ fnOf v = 6) ∧
    ((on0 j id).issues 0 j (at0 j id) ∧ opOf j = 0x05 ∧ ((at0 j id).sreg 0 (aOf j) + immOf j).toNat % 8 ≠ 0) :=
  ⟨⟨at0_issues (by decide +kernel), by decide +kernel, sound_of (by decide +kernel)⟩,
    ⟨at0_issues (by decide +kernel), by decide +kernel, by decide +kernel⟩,
    ⟨at0_issues (by decide +kernel), by decide +kernel, by decide +kernel⟩⟩

theorem witness_Loads_scratch : let w := ins 0x20 3 1 0 (3 * 2 ^ 32)
    let f := regs [(1, 0xFFFF8)]
    (on0 w f).issues 0 w (at0 w f) ∧ (at0 w f).sound ∧ opOf w = 0x20 ∧ memAddr (at0 w f) 0 w % memSize w = 0 ∧ subOf w < 4 ∧
      (at0 w f).conv 0 0 (memAddr (at0 w f) 0 w) (memSize w) true false = .ok (.at (tilePa 0 + 0xFFFF8)) ∧
      (at0 w f).ownBusy 0 (.at (tilePa 0 + 0xFFFF8)) = false :=
  ⟨at0_issues (by decide +kernel), sound_of (by decide +kernel), by decide +kernel, by decide +kernel, by decide +kernel,
    conv_of (by decide +kernel), rfl⟩

theorem witness_Loads_memory : let w := ins 0x20 3 1 0 (7 * 2 ^ 32)
    let s := paged (on0 w (regs [(1, 2 ^ 30 - 8)]))
    let u := fetched s 0
    s.issues 0 w u ∧ u.sound ∧ opOf w = 0x20 ∧ 4 ≤ subOf w ∧ memAddr u 0 w % memSize w = 0 ∧ u.goes 0 (memAddr u 0 w) (memSize w) ∧
      u.scoped (tileDie 0) ∧ (u.xlate 0 (tileDie 0) 0 (u.ctxOf 0) (memAddr u 0 w) .read).res = .ok 0x01007FFFFFF8 ∧
      u.opsOf 0 .scalar = 0 :=
  ⟨issues_of (by decide +kernel), sound_of (by decide +kernel), by decide +kernel, by decide +kernel, by decide +kernel,
    goes_of (by decide +kernel), scoped_of (by decide +kernel), xlate_of (by decide +kernel), by decide +kernel⟩

/-- The same load behind the tile's own store to those bytes. -/
theorem witness_Loads_forwarded : let w := ins 0x20 3 1 0 (7 * 2 ^ 32)
    let p : Packet := { pkt0 .scalar true 0x01007FFFFFF8 none with data := bytesOf 8 7 }
    let s := { paged (on0 w (regs [(1, 2 ^ 30 - 8)])) with packets := [p] }
    let u := fetched s 0
    s.issues 0 w u ∧ u.sound ∧ u.goes 0 (memAddr u 0 w) (memSize w) ∧ u.scoped (tileDie 0) ∧
      (u.xlate 0 (tileDie 0) 0 (u.ctxOf 0) (memAddr u 0 w) .read).res = .ok p.dst ∧ u.packets = [p] ∧ p.data.length = memSize w ∧
      u.ill = [] :=
  ⟨issues_of (by decide +kernel), sound_of (by decide +kernel), goes_of (by decide +kernel), scoped_of (by decide +kernel),
    xlate_of (by decide +kernel), by decide +kernel, by decide +kernel, by decide +kernel⟩

theorem witness_StoreResults : let w := ins 0x21 0 1 2 (4 * 2 ^ 32)
    let s := paged (on0 w (regs [(1, 5)]))
    let u := fetched s 0
    s.issues 0 w u ∧ u.sound ∧ opOf w = 0x21 ∧ 4 ≤ subOf w ∧ memAddr u 0 w % memSize w = 0 ∧ (u.tile 0).fence = [] ∧
      u.scalarFull 0 = false ∧ u.noEntry 0 false = false ∧
      (u.xlate 0 (tileDie 0) 0 (u.ctxOf 0) (memAddr u 0 w) .write).res = .ok 0x010040000005 := by
  refine ⟨issues_of (by decide +kernel), sound_of (by decide +kernel), by decide +kernel, by decide +kernel, by decide +kernel,
    by decide +kernel, by decide +kernel, by decide +kernel, xlate_of (by decide +kernel)⟩

theorem witness_StoreResults_scratch : let w := ins 0x21 0 1 2 0
    (on0 w id).issues 0 w (at0 w id) ∧ (at0 w id).sound ∧ opOf w = 0x21 ∧ subOf w < 4 ∧ memAddr (at0 w id) 0 w % memSize w = 0 ∧
      (at0 w id).conv 0 0 (memAddr (at0 w id) 0 w) (memSize w) true true = .ok (.at (tilePa 0)) ∧
      (at0 w id).ownBusy 0 (.at (tilePa 0)) = false :=
  ⟨at0_issues (by decide +kernel), sound_of (by decide +kernel), by decide +kernel, by decide +kernel, by decide +kernel,
    conv_of (by decide +kernel), rfl⟩

theorem witness_Loads_constant : let w := ins 0x22 3 1 0 0
    let s := onText w (regs [(1, 120)])
    let u := fetched s 0
    s.issues 0 w u ∧ opOf w = 0x22 ∧ memAddr u 0 w % 8 = 0 ∧ u.sound ∧ u.textMode 0 = true ∧ memAddr u 0 w < 2 ^ 48 ∧
      inRange (u.tile 0).text (memAddr u 0 w) 8 = true :=
  ⟨issues_of (by decide +kernel), by decide +kernel, by decide +kernel, sound_of (by decide +kernel), by decide +kernel,
    by decide +kernel, by decide +kernel⟩

theorem witness_Loads_constant_quoin : let w := ins 0x22 3 1 0 0
    let s := onQuoin w (regs [(1, 8)])
    let u := fetched s 0
    s.issues 0 w u ∧ u.sound ∧ opOf w = 0x22 ∧ memAddr u 0 w % 8 = 0 ∧ memAddr u 0 w < 2 ^ 48 ∧
      inRange (u.tile 0).text (memAddr u 0 w) 8 = true ∧ u.textMode 0 = false ∧ u.quoinOn 0 = true ∧
      ∃ k e, (u.tile 0).entry (memAddr u 0 w / 128 * 128) = some (k, e) ∧ e.ue = false :=
  ⟨issues_of (by decide +kernel), sound_of (by decide +kernel), by decide +kernel, by decide +kernel, by decide +kernel, by decide +kernel,
    by decide +kernel, by decide +kernel, _, _, rfl, by decide +kernel⟩

theorem witness_Loads_constant_memory : let w := ins 0x22 3 1 0 0
    let s := paged (on0 w (regs [(1, 8)]))
    let u := fetched s 0
    s.issues 0 w u ∧ u.sound ∧ memAddr u 0 w % 8 = 0 ∧ memAddr u 0 w < 2 ^ 48 ∧ inRange (u.tile 0).text (memAddr u 0 w) 8 = true ∧
      u.textMode 0 = false ∧ u.quoinOn 0 = false ∧ u.scoped (tileDie 0) ∧
      (u.xlate 0 (tileDie 0) 0 (u.ctxOf 0) (memAddr u 0 w) .fetch).res = .ok 0x010040000008 :=
  ⟨issues_of (by decide +kernel), sound_of (by decide +kernel), by decide +kernel, by decide +kernel, by decide +kernel,
    by decide +kernel, by decide +kernel, scoped_of (by decide +kernel), xlate_of (by decide +kernel)⟩

theorem witness_AtomicResults : let w := ins 0x70 3 1 2 (11 * 2 ^ 37)
    let s := paged (on0 w (regs [(1, 2 ^ 30 - 8)]))
    let u := fetched s 0
    s.issues 0 w u ∧ u.sound ∧ opOf w = 0x70 ∧ amoSize (amoFnOf w) = some 8 ∧ subOf w < 3 ∧ memAddr u 0 w % 8 = 0 ∧
      u.goes 0 (memAddr u 0 w) 8 ∧ u.scoped (tileDie 0) ∧ u.packets = [] ∧ u.ill = [] ∧
      (u.xlate 0 (tileDie 0) 0 (u.ctxOf 0) (memAddr u 0 w) .atomic).res = .ok 0x01007FFFFFF8 ∧
      u.copyRoom (tileDie 0) (u.tileAgent 0).tag (0x01007FFFFFF8 / 128 * 128) = true := by
  refine ⟨issues_of (by decide +kernel), sound_of (by decide +kernel), by decide +kernel, by decide +kernel, by decide +kernel,
    by decide +kernel, goes_of (by decide +kernel), scoped_of (by decide +kernel), by decide +kernel, by decide +kernel,
    xlate_of (by decide +kernel), by decide +kernel⟩

/-- Every word of `l` can issue on tile 0, with `f` setting the tile. -/
def issueAll (f : Tile → Tile) (l : List Word) : Bool := l.all fun w => isWord (on0 w f) 0 w

theorem issueAll_issues {f : Tile → Tile} {l : List Word} (h : issueAll f l = true) : ∀ w ∈ l, (on0 w f).issues 0 w (at0 w f) :=
  fun w hw => at0_issues (List.all_eq_true.mp h w hw)

/-- The opcode word with everything else zero. -/
def bare (op : Nat) : Word := ins op 0 0 0 0

/-- An operation whose value is known. -/
def okIs {ε α : Type} [BEq α] (e : Except ε α) (a : α) : Bool :=
  match e with
  | .ok b => b == a
  | _ => false

theorem ok_of {ε α : Type} [BEq α] [LawfulBEq α] {e : Except ε α} {a : α} (h : okIs e a = true) : e = .ok a := by
  unfold okIs at h
  split at h
  · simp only [beq_iff_eq] at h; subst h; rfl
  · cases h

theorem witness_MoveResults : let w := ins 0x50 1 2 3 0
    let f := regs [(1, 96), (2, 64), (3, 0xFFF80)]
    let u := at0 w f
    (on0 w f).issues 0 w u ∧ u.sound ∧ u.moveFull 0 = false ∧ opOf w = 0x50 ∧ moveCheck 96 64 0xFFF80 = none ∧
      u.conv 0 0 0xFFF80 96 true false = .ok (.at 0xFFF80) ∧ u.conv 0 0 64 96 true true = .ok (.at 64) ∧
      u.ownBusy 0 (.at 0xFFF80) = false ∧ u.ownBusy 0 (.at 64) = false ∧ toOther 0 (.at 64) = false :=
  ⟨at0_issues (by decide +kernel), sound_of (by decide +kernel), by decide +kernel, by decide +kernel, by decide +kernel,
    conv_of (by decide +kernel), conv_of (by decide +kernel), by decide +kernel, by decide +kernel, by decide +kernel⟩

theorem witness_MoveResults_memory : ∀ op ∈ [0x51, 0x52], let w := ins op 1 2 3 0
    let s := paged (on0 w (regs [(1, 96), (2, 0x640), (3, 0x640)]))
    let u := fetched s 0
    s.issues 0 w u ∧ u.sound ∧ u.moveFull 0 = false ∧ (u.tile 0).fence = [] ∧ u.noEntry 0 (u.latency 0) = false ∧
      u.noEntry 0 false = false ∧ u.readHeld 0 0x640 96 = false ∧ u.scoped (tileDie 0) ∧
      u.conv 0 0 0x640 96 false (op == 0x51) = .ok (.at 0x640) ∧
      (u.xlateRun 0 (tileDie 0) 0 (u.ctxOf 0) 0x640 96 (if op = 0x51 then .read else .write)).fault = none := by
  intro op h
  simp only [List.mem_cons, List.mem_nil_iff, or_false] at h
  rcases h with rfl | rfl
  all_goals exact ⟨issues_of (by decide +kernel), sound_of (by decide +kernel), by decide +kernel, by decide +kernel,
    by decide +kernel, by decide +kernel, by decide +kernel, scoped_of (by decide +kernel), conv_of (by decide +kernel), by decide +kernel⟩

theorem witness_MoveResults_fill : let w := ins 0x53 1 2 3 0
    let f := regs [(1, 32), (2, 0xFFFE0)]
    (on0 w f).issues 0 w (at0 w f) ∧ (at0 w f).sound ∧ moveCheck 32 0xFFFE0 0 = none ∧
      (at0 w f).conv 0 0 0xFFFE0 32 false true = .ok (.at 0xFFFE0) ∧ toOther 0 (.at 0xFFFE0) = false :=
  ⟨at0_issues (by decide +kernel), sound_of (by decide +kernel), by decide +kernel, conv_of (by decide +kernel), by decide +kernel⟩

/-- One packet is on its way. -/
def landing (p : Packet) : State := { up with packets := [p] }

/-- Packet `k` lands: nothing holds it. -/
def mayLand (s : State) (k : Nat) (p : Packet) : Prop :=
  s.packets[k]? = some p ∧ (∀ q ∈ s.packets, p.behind q = false ∧ q.seen = []) ∧
    (∀ j, j ≠ k → (s.packets[j]?).map Packet.pid ≠ some p.pid) ∧ s.staged p = false ∧ s.linkHeld p = false ∧
    (p.toMem = true → s.starved p.agent.tag = false)

theorem landing_meets (p : Packet) (h : ((landing p).staged p == false && (landing p).linkHeld p == false &&
      (landing p).starved p.agent.tag == false && p.seen == [] && !p.behind p) = true) : mayLand (landing p) 0 p := by
  simp only [Bool.and_eq_true, beq_iff_eq, Bool.not_eq_true'] at h
  obtain ⟨⟨⟨⟨h1, h2⟩, h3⟩, h4⟩, h5⟩ := h
  refine ⟨rfl, ?_, ?_, h1, h2, fun _ => h3⟩
  · intro q hq
    have : q = p := by simpa [landing] using hq
    subst this
    exact ⟨h5, h4⟩
  · intro j hj
    cases j with
    | zero => exact absurd rfl hj
    | succ n => simp [landing]

theorem witness_ArrivalResults : let p := pkt0 .move false 0x40 (some (0, 63))
    (landing p).sound ∧ mayLand (landing p) 0 p ∧ p.ctr = some (0, 63) :=
  ⟨sound_of (by decide +kernel), landing_meets _ (by decide +kernel), rfl⟩

theorem witness_ArrivalResults_memory : let p := pkt0 .scalar true 0x010040000640 none
    (landing p).sound ∧ mayLand (landing p) 0 p ∧ p.unit = .scalar ∧ p.toMem = true ∧ (landing p).ill = [] ∧ 3 < (landing p).part.dies :=
  ⟨sound_of (by decide +kernel), landing_meets _ (by decide +kernel), rfl, rfl, rfl, by decide +kernel⟩

theorem witness_ArrivalResults_plinth : let s := { ((up.setFld F.SCP_PLINTH.VALID 0 1).setFld F.SCP_PLINTH.BANKS 0 1) with
      scrUe := [0xFFFC0] }
    s.fld F.SCP_PLINTH.VALID 0 = 1 ∧ s.fld F.SCP_PLINTH.BANKS 0 ≠ 0 ∧ s.scrUe = [tilePa 0 + 0xFFFC0] ∧ s.scrCe = [] ∧
      s.plinthBase 0 ≤ 0xFFFC0 := by decide +kernel

theorem witness_Waiting_issue :
    (∀ w ∈ [bare 0x60, ins 0x60 0 0 0 1, ins 0x63 0 0 0 0x7F, bare 0x61, bare 0x62, bare 0x80, ins 0x80 0 0 0 (3 * 2 ^ 36)],
      (on0 w id).issues 0 w (at0 w id)) ∧
    memAddr (at0 (bare 0x60) id) 0 (bare 0x60) % 2 ^ 48 ≤ (at0 (bare 0x60) id).fld F.SCP_ACTR.COUNT 0 ∧
    (at0 (ins 0x60 0 0 0 1) id).fld F.SCP_ACTR.COUNT 0 < memAddr (at0 (ins 0x60 0 0 0 1) id) 0 (ins 0x60 0 0 0 1) % 2 ^ 48 ∧
    (at0 (ins 0x63 0 0 0 0x7F) id).unitsIdle 0 0x7F = true ∧ fnOf (bare 0x80) < 3 ∧ 3 ≤ fnOf (ins 0x80 0 0 0 (3 * 2 ^ 36)) :=
  ⟨issueAll_issues (by decide +kernel), by decide +kernel, by decide +kernel, by decide +kernel, by decide +kernel,
    by decide +kernel⟩

theorem witness_Waiting_busy : let w := ins 0x63 0 0 0 8
    let s := { on0 w id with packets := [pkt0 .move false 0x40 none] }
    s.issues 0 w (fetched s 0) ∧ (fetched s 0).unitsIdle 0 (w.toNat % 128) = false :=
  ⟨issues_of (by decide +kernel), by decide +kernel⟩

theorem witness_Waiting_release :
    ((on0 0 fun x => { x with waitC := some (63, 0) }).tile 0).waitC = some (63, 0) ∧
    ((on0 0 fun x => { x with waitU := some 127 }).tile 0).waitU = some 127 ∧
    (on0 0 fun x => { x with waitU := some 127 }).unitsIdle 0 127 = true := by decide +kernel

theorem witness_Waiting_fence : let s := { (on0 0 fun x => { x with fence := [(1, 0)] }) with
      copies := [⟨0, 0x010040000000, 8, [(127, 1)], false⟩] }
    s.sound ∧ (s.tile 0).fence = [(1, 0)] ∧ s.fencePending 0 1 0 = false ∧ s.blockOf 0 = some blk ∧ tileDie 0 = 0 ∧ blk.part = 8 ∧
      SMap.rising [(127, (1 : Byte))] = true ∧ s.ill = [] ∧ s.packets = [] :=
  ⟨sound_of (by decide +kernel), by decide +kernel, by decide +kernel, by decide +kernel, by decide +kernel, by decide +kernel,
    by decide +kernel, by decide +kernel, by decide +kernel⟩

theorem witness_QuoinResults :
    (∀ w ∈ [bare 0xA0, ins 0xA1 0 0 0 1, bare 0xA1], (on0 w id).issues 0 w (at0 w id)) ∧
    (at0 (bare 0xA0) id).textMode 0 = false ∧ (at0 (ins 0xA1 0 0 0 1) id).fld F.TSQ_QCTL.CLEAN 0 = 0 ∧
    (ins 0xA1 0 0 0 1).toNat.testBit 0 = true ∧ (bare 0xA1).toNat.testBit 0 = false :=
  ⟨issueAll_issues (by decide +kernel), by decide +kernel, by decide +kernel, by decide +kernel, by decide +kernel⟩

theorem witness_QuoinResults_clean : let w := ins 0xA1 0 0 0 1
    let s := (on0 w id).setFld F.TSQ_QCTL.CLEAN 0 1
    s.issues 0 w (fetched s 0) ∧ (fetched s 0).textMode 0 = false ∧ (fetched s 0).fld F.TSQ_QCTL.CLEAN 0 = 1 :=
  ⟨issues_of (by decide +kernel), by decide +kernel, by decide +kernel⟩

theorem witness_QuoinResults_prefetch : let w := ins 0xA2 0 0 0 (1 * 2 ^ 36 + 0x80)
    let s := onQuoin w fun x => { x with text := (0, 4096) }
    let u := fetched s 0
    s.issues 0 w u ∧ u.textMode 0 = false ∧ u.quoinOn 0 = true ∧ (u.tile 0).fills = [] ∧ u.tracked (tileDie 0) + 8 ≤ 61440 ∧
      ∀ i, i ≤ fnOf w → (u.tile 0).entry (memAddr u 0 w / 128 * 128 + 128 * i) = none ∧
        touches (u.tile 0).text (memAddr u 0 w / 128 * 128 + 128 * i) 128 = true := by
  refine ⟨issues_of (by decide +kernel), by decide +kernel, by decide +kernel, by decide +kernel, by decide +kernel, ?_⟩
  intro i hi
  replace hi : i ≤ 1 := hi
  interval_cases i <;> decide +kernel

theorem witness_QuoinResults_scratch : ∀ w ∈ [bare 0xA0, bare 0xA1, bare 0xA2],
    (onText w id).issues 0 w (fetched (onText w id) 0) ∧ (fetched (onText w id) 0).textMode 0 = true := by
  intro w h
  simp only [List.mem_cons, List.mem_nil_iff, or_false] at h
  rcases h with rfl | rfl | rfl <;> exact ⟨issues_of (by decide +kernel), by decide +kernel⟩

theorem witness_QuoinResults_fill : let s := paged (on0 0 fun x => { x with fills := [⟨0x80, false, true, false, true, none⟩] })
    s.sound ∧ s.scoped (tileDie 0) ∧ s.starvedTile 0 = false ∧ (s.tile 0).fills = [⟨0x80, false, true, false, true, none⟩] ∧
      (s.xlate 0 (tileDie 0) 0 (s.ctxOf 0) 0x80 .fetch).res = .ok 0x010040000080 :=
  ⟨sound_of (by decide +kernel), scoped_of (by decide +kernel), by decide +kernel, by decide +kernel, xlate_of (by decide +kernel)⟩

theorem witness_QuoinResults_fill_cached : let f : Fill := ⟨0x80, true, false, false, false, some (0, bare 0xA2)⟩
    let s := (paged (onQuoin 0 id)).modTile 0 fun x => { x with fills := [f] }
    s.sound ∧ s.scoped (tileDie 0) ∧ s.starvedTile 0 = false ∧ (s.tile 0).fills = [f] ∧ s.quoinOn 0 = true ∧ (s.tile 0).entry 0x80 = none ∧
      (s.xlate 0 (tileDie 0) 0 (s.ctxOf 0) 0x80 .fetch).res = .ok 0x010040000080 :=
  ⟨sound_of (by decide +kernel), scoped_of (by decide +kernel), by decide +kernel, by decide +kernel, by decide +kernel, by decide +kernel,
    xlate_of (by decide +kernel)⟩


/-- Lane registers and slots of the row set. -/
def rowRegs (l : List (Nat × Word)) (x : Tile) : Tile := { x with corbel := l, ls := [List.replicate 64 1], bq := [2], bp := [3] }

theorem rowReady_of {s : State} {t : Nat} {w : Word} (h : ((corbelCheck w).isNone && (s.tile t).corbelQ.isEmpty &&
    (selsOf w).all fun c => (s.emptyQueue t c).isNone) = true) : s.rowReady t w := by
  simp only [Bool.and_eq_true, Option.isNone_iff_eq_none, List.isEmpty_iff, List.all_eq_true] at h
  exact ⟨h.1.1, h.1.2, h.2⟩

theorem witness_LaneOperations : ∀ w ∈ [ins 0xB0 1 0 0 (0x20 * 2 ^ 44 + 1 * 2 ^ 37 + 0x22 * 2 ^ 30), bare 0xBC],
    (on0 w (rowRegs [(0, 5)])).issues 0 w (at0 w (rowRegs [(0, 5)])) ∧ (at0 w (rowRegs [(0, 5)])).rowReady 0 w := by
  intro w h
  simp only [List.mem_cons, List.mem_nil_iff, or_false] at h
  rcases h with rfl | rfl <;> exact ⟨at0_issues (by decide +kernel), rowReady_of (by decide +kernel)⟩

theorem witness_LaneOperations_selectors : (rowRegs [] Tile.reset).ls = [List.replicate 64 1] ∧ (rowRegs [] Tile.reset).bq = [2] ∧
    (rowRegs [] Tile.reset).bp = [3] := by decide +kernel

theorem witness_RowOperations : ∀ w ∈ [bare 0xBE, ins 0xBE 0 0 0 0x1000, bare 0xBF, bare 0xC0, bare 0xC1, bare 0xC2, bare 0xC3,
      bare 0xC6, ins 0xBD 0 0 0 (1 * 2 ^ 26), ins 0xBA 0 0 0 (9 * 2 ^ 26)],
    (on0 w (rowRegs [(0, 5)])).issues 0 w (at0 w (rowRegs [(0, 5)])) := issueAll_issues (by decide +kernel)

theorem witness_RowOperations_ready : (∀ w ∈ [bare 0xBE, bare 0xC3, ins 0xBD 0 0 0 (1 * 2 ^ 26), ins 0xBA 0 0 0 (9 * 2 ^ 26)],
      (at0 w (rowRegs [(0, 5)])).rowReady 0 w) ∧ ((at0 (bare 0xC6) (rowRegs [])).tile 0).corbelQ = [] := by
  refine ⟨fun w h => ?_, by decide +kernel⟩
  simp only [List.mem_cons, List.mem_nil_iff, or_false] at h
  rcases h with rfl | rfl | rfl | rfl <;> exact rowReady_of (by decide +kernel)

theorem witness_CorbelStores : let w := ins 0xC4 0 0 0 (1 * 2 ^ 7 + 2)
    let f : Tile → Tile := fun x => rowRegs [(0, 5)] (regs [(1, 0x100)] x)
    (on0 w f).issues 0 w (at0 w f) ∧ (at0 w f).sound ∧ (at0 w f).rowReady 0 w ∧
      ((at0 w f).sreg 0 (ss1Of w)).toNat % 2 ^ wOf w = 0 ∧
      (at0 w f).conv 0 0 ((at0 w f).sreg 0 (ss1Of w)).toNat (64 * 2 ^ wOf w) true true = .ok (.at 0x100) ∧
      ¬ 2 ^ 31 ≤ (Scr.at 0x100).key 0 ∧ remoteScr 0 ((Scr.at 0x100).key 0) = false :=
  ⟨at0_issues (by decide +kernel), sound_of (by decide +kernel), rowReady_of (by decide +kernel), by decide +kernel,
    conv_of (by decide +kernel), by decide +kernel, by decide +kernel⟩

/-- The same into bank 0 of die 0 through slot 2. -/
theorem witness_CorbelStores_remote : let w := ins 0xC4 0 0 0 (1 * 2 ^ 7 + 2)
    let f : Tile → Tile := fun x => rowRegs [(0, 5)] (regs [(1, 0x40400100)] x)
    let s := ((on0 w f).setFld F.TSQ_RELOC.VALID 2 1).setFld F.TSQ_RELOC.TYPE 2 1
    let u := fetched s 0
    s.issues 0 w u ∧ u.rowReady 0 w ∧ u.conv 0 0 ((u.sreg 0 (ss1Of w)).toNat) (64 * 2 ^ wOf w) true true = .ok (.at 0x40000100) ∧
      remoteScr 0 ((Scr.at 0x40000100).key 0) = true ∧ (u.tile 0).fence = [] :=
  ⟨issues_of (by decide +kernel), rowReady_of (by decide +kernel), conv_of (by decide +kernel), by decide +kernel, by decide +kernel⟩

theorem witness_CorbelStores_mx : let w := ins 0xC5 0 0 0 (9 * 2 ^ 26 + 1 * 2 ^ 7 + 2 * 2 ^ 2)
    let f : Tile → Tile := fun x => rowRegs [(0, 5)] (regs [(1, 0x100), (2, 0x11F)] x)
    (on0 w f).issues 0 w (at0 w f) ∧ (at0 w f).rowReady 0 w ∧
      (at0 w f).conv 0 0 ((at0 w f).sreg 0 (ss1Of w)).toNat (8 * fmtWidth (f1Of w)) true true = .ok (.at 0x100) ∧
      (at0 w f).conv 0 0 ((at0 w f).sreg 0 (ss2Of w)).toNat 2 true true = .ok (.at 0x11F) :=
  ⟨at0_issues (by decide +kernel), rowReady_of (by decide +kernel), conv_of (by decide +kernel), conv_of (by decide +kernel)⟩

/-- A 64 B descriptor with the values listed at their offsets. -/
def desc64 (l : List (Nat × Nat)) : List Byte := bytesOf 64 (l.foldl (fun n p => n + p.2 * 256 ^ p.1) 0)

theorem witness_StreamResults : let w := ins 0x40 0 1 2 0
    let v := ins 0x41 0 1 2 0
    let f := regs [(1, 0xFFE00), (2, 1)]
    ((on0 w f).issues 0 w (at0 w f) ∧ strCount ((at0 w f).sreg 0 (bOf w)) ≠ 0 ∧ opOf w = 0x40 ∧ subOf w % 4 = 0 ∧
      (at0 w f).scrSource 0 (memAddr (at0 w f) 0 w) 512 ((at0 w f).sreg 0 (bOf w)) true = .ok 0xFFE00 ∧
      ((at0 w f).tile 0).lane.length < 5) ∧
    ((on0 v f).issues 0 v (at0 v f) ∧
      (at0 v f).scrSource 0 (memAddr (at0 v f) 0 v) 8 ((at0 v f).sreg 0 (bOf v)) false = .ok 0xFFE00 ∧
      ((at0 v f).tile 0).bcast.length < 5) ∧
    ((on0 w id).issues 0 w (at0 w id) ∧ strCount ((at0 w id).sreg 0 (bOf w)) = 0) :=
  ⟨⟨at0_issues (by decide +kernel), by decide +kernel, by decide +kernel, by decide +kernel, ok_of (by decide +kernel),
    by decide +kernel⟩, ⟨at0_issues (by decide +kernel), ok_of (by decide +kernel), by decide +kernel⟩,
    at0_issues (by decide +kernel), by decide +kernel⟩

theorem witness_StreamResults_arrival : let m : Strm := ⟨.scratch 0x200 (-64), 3, 0, 2, [], 0, 0, 0⟩
    let s := on0 0 fun x => { x with lane := [m], bcast := [m] }
    s.sound ∧ (s.tile 0).corbelQ = [] ∧ s.fld F.TSQ_STATE.RUN 0 ≠ 3 ∧ 0 ≤ ((0x200 : Nat) : Int) + m.pos * (-64) ∧ (s.tile 0).lane = [m] ∧
      (s.tile 0).ls.length < 16 ∧ (s.tile 0).bcast = [m] ∧ (s.tile 0).bq.length < 16 :=
  ⟨sound_of (by decide +kernel), by decide +kernel, by decide +kernel, by decide +kernel, by decide +kernel, by decide +kernel,
    by decide +kernel⟩


/-- Descriptors of a 1 × 1 arch in scratch: one BF16 weight, rows of one BF16 element, FP32 outputs of one column. -/
def wdW : List Byte := desc64 [(1, 1), (2, 9), (3, 1), (4, 1), (8, 0x1000), (20, 1)]
def rdR : List Byte := desc64 [(1, 1), (2, 1), (4, 1), (8, 0x2000)]
def ddD : List Byte := desc64 [(0, 0x43), (4, 1), (8, 0x3000), (16, 4)]

/-- Tile 0 is the origin of a 1 × 1 arch with control `c`, `w` is fetched, and `d` stands in scratch at 0x200. -/
def onArch (w : Word) (d : List Byte) (c : ArchCtl) (f : Tile → Tile) : State :=
  let s := on0 w fun x => f { x with arch := c }
  { s with blocks := [{ blk with arch := some (1, 1) }], scr := putScr s.scr (tilePa 0 + 0x200) d }

/-- The stream of `rdR` under weights `wdW` and drain `ddD`. -/
def str0 : ArchStream := ⟨0, rdR, 2, 1, ddD, 2, false, false, false, [], false, 0, [0], [], [], 0, 0⟩

/-- A descriptor read delivers `d`. -/
def gives (x : Desc) (d : List Byte) : Bool :=
  match x with
  | .got b _ => b == d
  | _ => false

def gotSt (x : Desc) (s : State) : State :=
  match x with
  | .got _ u => u
  | _ => s

theorem gives_got {x : Desc} {d : List Byte} (s : State) (h : gives x d = true) : x = .got d (gotSt x s) := by
  cases x <;> simp_all [gives, gotSt]

/-- The state after the fetch and the read of the descriptor at 0x200. -/
def read200 (s : State) : State := gotSt ((fetched s 0).descRead 0 true 0x200 64 64) s

def verdictOk (v : Verdict) : Bool :=
  match v with
  | .ok => true
  | _ => false

theorem verdict_of {v : Verdict} (h : verdictOk v = true) : v = .ok := by cases v <;> simp_all [verdictOk]

theorem witness_ArchDispatch_weights : let w := ins 0x30 0 0 0 (2 ^ 32 + 0x200)
    let s := onArch w wdW ArchCtl.none id
    s.issues 0 w (fetched s 0) ∧ opOf w = 0x30 ∧ (fetched s 0).shapeOf 0 = some ⟨1, 1, [0]⟩ ∧
      (fetched s 0).descRead 0 true 0x200 64 64 = .got wdW (read200 s) ∧ weightCheck (read200 s).part wdW = .ok ∧
      (read200 s).weightScrBad 0 1 1 wdW = none ∧ ((read200 s).tile 0).arch.full = false ∧ ((read200 s).tile 0).arch.streams = [] :=
  ⟨issues_of (by decide +kernel), by decide +kernel, rfl, gives_got _ (by decide +kernel), verdict_of (by decide +kernel),
    by decide +kernel, by decide +kernel, by decide +kernel⟩

theorem witness_ArchDispatch_drain : let w := ins 0x32 0 0 0 (2 ^ 32 + 0x200)
    let s := onArch w ddD ArchCtl.none id
    s.issues 0 w (fetched s 0) ∧ opOf w = 0x32 ∧ (fetched s 0).descRead 0 true 0x200 64 64 = .got ddD (read200 s) ∧
      (read200 s).drainBad 0 ⟨1, 1, [0]⟩ ddD = none ∧ ((read200 s).tile 0).arch.full = false :=
  ⟨issues_of (by decide +kernel), by decide +kernel, gives_got _ (by decide +kernel), by decide +kernel, by decide +kernel⟩

theorem witness_ArchDispatch_stream : let w := ins 0x31 0 0 2 (2 ^ 32 + 0x200)
    let c : ArchCtl := { ArchCtl.none with wdesc := some wdW, drain := some ddD, wnum := 1 }
    let s := onArch w rdR c (regs [(2, 2)])
    s.issues 0 w (fetched s 0) ∧ opOf w = 0x31 ∧ (fetched s 0).descRead 0 true 0x200 64 64 = .got rdR (read200 s) ∧
      ((fetched s 0).tile 0).arch = c ∧ ((read200 s).tile 0).arch = c ∧ ((fetched s 0).sreg 0 (bOf w)).toNat = 2 ∧
      rowCheck (read200 s).part false 1 2 rdR = .ok ∧ (read200 s).streamBad 0 ⟨1, 1, [0]⟩ rdR wdW ddD 2 = none ∧
      (read200 s).rowScrBad 0 false 1 2 (wdC wdW) rdR = none ∧ c.full = false :=
  ⟨issues_of (by decide +kernel), by decide +kernel, gives_got _ (by decide +kernel), by decide +kernel, by decide +kernel,
    by decide +kernel, verdict_of (by decide +kernel), by decide +kernel, by decide +kernel, by decide +kernel⟩

theorem witness_ArchDispatch_role : (∀ w ∈ [bare 0x30, bare 0x31, bare 0x32], (on0 w id).issues 0 w (at0 w id)) ∧
    (at0 (bare 0x30) id).shapeOf 0 = none ∧ (at0 (bare 0x31) id).shapeOf 0 = none ∧ (at0 (bare 0x32) id).shapeOf 0 = none :=
  ⟨issueAll_issues (by decide +kernel), rfl, rfl, rfl⟩

theorem witness_ArchDispatch_state : let w := bare 0x31
    let s := onArch w rdR ArchCtl.none id
    s.issues 0 w (fetched s 0) ∧ (fetched s 0).shapeOf 0 = some ⟨1, 1, [0]⟩ ∧ ((fetched s 0).tile 0).arch.wdesc = none :=
  ⟨issues_of (by decide +kernel), rfl, by decide +kernel⟩

theorem witness_ArchStreams_load : let c : ArchCtl := { ArchCtl.none with wdesc := some wdW, wnum := 1 }
    let s := onArch 0 [] c id
    s.shapeOf 0 = some ⟨1, 1, [0]⟩ ∧ (s.tile 0).arch.wdesc = some wdW ∧ (s.tile 0).arch.staged = false ∧ s.starvedTile 0 = false ∧
      ∃ cols f, weightCols 0 0 wdW 0 0 (stageCols (joinedBlock wdW) false) ⟨s, false, none, []⟩ = (cols, f) ∧ f.exc = none ∧
        f.ue = false :=
  ⟨rfl, by decide +kernel, by decide +kernel, by decide +kernel, _, _, rfl, by decide +kernel, by decide +kernel⟩

/-- The second half of a joined block is due once the first is in a weight buffer. -/
theorem witness_ArchStreams_load_second : let m := { str0 with joined := true, first := true }
    let c : ArchCtl := { ArchCtl.none with wdesc := some wdW, staged := true, wnum := 1, streams := [m] }
    (onArch 0 [] c id).shapeOf 0 = some ⟨1, 1, [0]⟩ ∧ ((onArch 0 [] c id).tile 0).arch.wantsSecond = true := ⟨rfl, by decide +kernel⟩

theorem witness_ArchStreams_copy : ∀ j : Bool, let m := { str0 with joined := j }
    let c : ArchCtl := { ArchCtl.none with wdesc := some wdW, staged := true, wnum := 1, streams := [m] }
    let s := onArch 0 [] c id
    s.shapeOf 0 = some ⟨1, 1, [0]⟩ ∧ (s.tile 0).arch.nextCopy = some (m, []) ∧ (s.tile 0).arch.staged = true ∧
      m.wnum = (s.tile 0).arch.wnum ∧ bufferFree m [] = true ∧ s.holdsJoined ⟨1, 1, [0]⟩ m.wnum = false := by
  intro j
  cases j <;> exact ⟨rfl, by decide +kernel, by decide +kernel, by decide +kernel, by decide +kernel, by decide +kernel⟩

theorem witness_ArchStreams_copy_second : let m := { str0 with joined := true, first := true }
    let b : WBlock := ⟨1, wdW, [[⟨0, 0x3F80, 0x7F⟩]]⟩
    let c : ArchCtl := { ArchCtl.none with wdesc := some wdW, staged := true, second := true, wnum := 1, streams := [m] }
    let s := onArch 0 [] c fun x => { x with staging := some b, wbuf0 := some b }
    (s.tile 0).arch.nextCopy = some (m, []) ∧ (s.tile 0).arch.second = true ∧ bufferFree m [] = true ∧ (s.tile 0).staging = some b := by
  decide +kernel

theorem witness_ArchStreams_start : let m := { str0 with copied := true }
    let s := onArch 0 [] { ArchCtl.none with streams := [m] } id
    let s1 := s.showStream ⟨1, 1, [0]⟩ m.interval
    s.shapeOf 0 = some ⟨1, 1, [0]⟩ ∧ (s.tile 0).arch.streams.find? (fun m => !m.started) = some m ∧ m.copied = true ∧
      (∀ p ∈ (s.tile 0).arch.streams, p.seq + 1 ≠ m.seq) ∧ s.starvedTile 0 = false ∧
      ∃ m' f, readRows 0 ⟨1, 1, [0]⟩ m.c 0 (min m.rows (s1.fld F.ARC_MARKS.LWM 0 + 1)) m ⟨s1, false, none, m.kv⟩ = (m', f) ∧
        f.exc = none :=
  ⟨rfl, by decide +kernel, by decide +kernel, by decide +kernel, by decide +kernel, _, _, rfl, by decide +kernel⟩

theorem witness_ArchStreams_drain : let b : WBlock := ⟨1, wdW, [[⟨0, 0x3F80, 0x7F⟩]]⟩
    let m := { str0 with copied := true, started := true, issued := 2, done := [1], blocks := [b] }
    let h : Shape := ⟨1, 1, [0]⟩
    let s := onArch 0 [] { ArchCtl.none with streams := [m] } id
    s.shapeOf 0 = some h ∧ h.south 0 < 800 ∧ (s.tile 0).arch.draining 0 = some m ∧ s.starvedTile 0 = false ∧
      s.drainFull (h.south 0) = false ∧ (∀ q ∈ (s.tile 0).arch.streams, q.started = true → q.seq ≤ m.seq) ∧
      (List.range 1).filterMap (fun i => m.blocks[i * h.b + 0]?) = [b] ∧
      ∃ acts f, drainRow 0 h m [b] b.desc 0 1 ⟨s, false, none, m.kv⟩ = (acts, f) ∧ f.exc = none :=
  ⟨rfl, by decide +kernel, by decide +kernel, by decide +kernel, by decide +kernel, by decide +kernel, by decide +kernel, _, _, rfl,
    by decide +kernel⟩

/-- Tile 0 runs a stream whose row feeder has nothing left, whose drain is nearly full, and which is throttled. -/
theorem witness_ArchStops : let m := { str0 with copied := true, started := true }
    let s := ((onArch 0 [] { ArchCtl.none with streams := [m] } id).setFld F.ARC_SHAPE.WEST 0 1).setFld F.ARC_SHAPE.SOUTH 0 1
    let s := { s.setFld F.ARC_MARKS.HWM 0 128 with pw := { s.pw with duty := [(0, 8)] } }
    s.archOf 0 = some (0, ⟨1, 1, [0]⟩) ∧ s.raises 0 ⟨1, 1, [0]⟩ (0, .rowDry) = true ∧
      s.raises 0 ⟨1, 1, [0]⟩ (0, .drainFull) = true ∧ s.raises 0 ⟨1, 1, [0]⟩ (0, .throttle) = true :=
  ⟨rfl, by decide +kernel, by decide +kernel, by decide +kernel⟩

theorem witness_ArchStops_step : let b : Block := { blk with arch := some (1, 1) }
    let s := onArch 0 [] ArchCtl.none id
    let s := { s with pw := { s.pw with left := [(0, 31)] } }
    s.archOf 0 = some (0, ⟨1, 1, [0]⟩) ∧ s.dueWith (quadOf 0) = [(0, 31)] ∧ SMap.rising s.pw.left = true ∧
      s.archesIn [0] = [b] ∧ b.tiles.headD 0 = 0 ∧ s.shapeOf 0 = some ⟨1, 1, [0]⟩ :=
  ⟨rfl, by decide +kernel, by decide +kernel, by decide +kernel, by decide +kernel, rfl⟩

theorem witness_ArchStops_wide : let ts := (List.range 20).map (tileAt · 0)
    let m := { str0 with started := true }
    let s := { (on0 0 fun x => { x with arch := { ArchCtl.none with streams := [m] } }) with
      blocks := [{ blk with arch := some (20, 1), tiles := ts }], tiles := [] }
    let s := ts.foldl (fun s t => s.setTile t { (s.tile t) with block := some 1 }) (s.setTile 0 { Tile.reset with
      block := some 1, arch := { ArchCtl.none with streams := [m] } })
    s.archOf 400 = some (0, ⟨20, 1, ts⟩) ∧ ts.Nodup ∧ (∀ q ∈ ts, q < 800) ∧ (⟨20, 1, ts⟩ : Shape).edgePort 400 = true ∧
      s.timer = true ∧ s.halted = false ∧ (s.tile 0).arch.streams.find? ArchStream.started = some m ∧ m.blocks = [] :=
  ⟨rfl, by decide +kernel, by decide +kernel, by decide +kernel, by decide +kernel, by decide +kernel, by decide +kernel, rfl⟩

/-- A sort of one token among one expert: logits in scratch at 0x400, one slot in the bucket at scratch 0x800. -/
def sort0 : RJob := ⟨0, 0, 0, 0, desc64 [(2, 1), (4, 1), (8, 0x400)], desc64 [(0, 1), (2, 1), (4, 0x80), (24, 0x900), (44, 2)],
  [desc64 [(0, 0x800), (8, 1)]], 1, [], 0, false, false⟩

theorem witness_RiddleResults : let s := { on0 0 id with riddles := [(0, [sort0])] }
    s.jobs 0 = [sort0] ∧ sort0.started = false ∧ s.starvedTile sort0.tile = false ∧ jdBiasEn sort0.job = false ∧
      ∃ ps counts drops f, sortAll sort0 (List.replicate (jdExperts sort0.job) 0) (List.range sort0.tokens)
        (List.replicate (jdExperts sort0.job) 0) 0 ⟨s, false, none, []⟩ = ((ps, counts, drops), f) ∧ f.exc = none ∧ f.ue = false :=
  ⟨by decide +kernel, by decide +kernel, by decide +kernel, by decide +kernel, _, _, _, _, rfl, by decide +kernel, by decide +kernel⟩

theorem witness_RiddleResults_pad : let j := { sort0 with started := true, counts := [0] }
    let s := { on0 0 id with riddles := [(0, [j])] }
    s.jobs 0 = [j] ∧ j.started = true ∧ j.padded = false ∧
      ∃ ps f, padBuckets j (List.range (jdExperts j.job)) ⟨s, false, none, []⟩ = (ps, f) ∧ f.exc = none :=
  ⟨by decide +kernel, by decide +kernel, by decide +kernel, _, _, rfl, by decide +kernel⟩

theorem witness_RiddleResults_finish : let j := { sort0 with started := true, counts := [1], padded := true }
    let s := { on0 0 id with riddles := [(0, [j])] }
    s.jobs 0 = [j] ∧ j.padded = true ∧ s.packets = [] ∧ jdCountScr j.job = true ∧ jdCtrEn j.job = true ∧
      ((j.counts ++ [j.drops]).map (bytesOf 4)).flatten.length = 8 ∧
      s.conv j.tile j.tile (jdCountOut j.job) 8 false true = .ok (.at 0x900) :=
  ⟨by decide +kernel, by decide +kernel, by decide +kernel, by decide +kernel, by decide +kernel, by decide +kernel,
    conv_of (by decide +kernel)⟩
/-- A transfer body: kind, spaces, length, source, destination. -/
def body (op kind spaces len src dst : Nat) : List Byte :=
  desc64 [(4, op), (16, kind), (17, spaces), (20, len), (24, src), (32, dst), (56, 0x0807060504030201)]

theorem witness_HodSubmit : let w := ins 0x90 0 0 0 (5 * 2 ^ 32 + 0x200)
    let d := body 0 0 0 64 0 0x1000
    let s := onArch w d ArchCtl.none id
    s.issues 0 w (fetched s 0) ∧ opOf w = 0x90 ∧ subOf w / 2 = 2 ∧ ((fetched s 0).tile 0).fence = [] ∧
      (fetched s 0).descRead 0 true 0x200 64 64 = .got d (read200 s) ∧ bodyOk true d = true ∧ tbClass d = 2 ∧
      (read200 s).hodSides 0 d = .ok (0, 0) ∧ (read200 s).hodWaiting (hodOf 2 0) < 64 ∧ ((read200 s).hodsOf 0).length < 4 ∧
      (read200 s).blockOf 0 = some { blk with arch := some (1, 1) } :=
  ⟨issues_of (by decide +kernel), by decide +kernel, by decide +kernel, by decide +kernel, gives_got _ (by decide +kernel),
    by decide +kernel, by decide +kernel, ok_of (by decide +kernel), by decide +kernel, by decide +kernel, by decide +kernel⟩

theorem witness_HodSubmit_class : let w := ins 0x90 0 0 0 (6 * 2 ^ 32)
    (on0 w id).issues 0 w (at0 w id) ∧ subOf w / 2 = 3 := ⟨at0_issues (by decide +kernel), by decide +kernel⟩

/-- A fetched item of queue 0. -/
def newItem (d : List Byte) : Item := ⟨0, 5, d, .fetched, 0, [], 0, 0, none, false, [], none, 0, 0, 0, 0⟩

theorem witness_HodSubmit_copy : ∀ d ∈ [body 2 0 0 64 0 0x1000, body 2 0 0 0 0 0], let i := newItem d
    let s := { paged up with items := [i] }
    s.ready = true ∧ s.unchecked 0 2 = some i ∧ s.ctxValid (s.qCtx 0) = true ∧
      (bodyOk false d = true → s.copyReady { i with stage := .waiting, checked := s.ticks } = true) := by
  intro d h
  simp only [List.mem_cons, List.mem_nil_iff, or_false] at h
  rcases h with rfl | rfl <;> decide +kernel

/-- A job of hod 0 with that body, not begun. -/
def job0 (d : List Byte) : HodJob := ⟨1, .item 0 5, d, 0, 0, 8, 0, 0, false, [], [], [], [], [], [], none, none, false, 0, 0⟩

/-- Hod 0 has it; the function masters the bus. -/
def hodding (j : HodJob) : State := { (paged up).setFn 0 { PFn.reset with bme := true } with hods := [(0, [j])] }

/-- No access of an agent that sees no copies is ill-scoped where none is held. -/
theorem unscoped_of {s : State} (h : s.copies = []) : ∀ a, s.illScoped none a = false := by
  intro a
  unfold State.illScoped
  rw [h]
  rfl

/-- What every clause of the statement asks of the hod. -/
theorem hodding_meets (d : List Byte) (h : (d.length == 64 && (hodding (job0 d)).hod 0 == [job0 d] && (hodding (job0 d)).copies == [] &&
      quiet (hodding (job0 d)) && !(hodding (job0 d)).starved 8) = true) :
    (hodding (job0 d)).sound ∧ (∀ a, (hodding (job0 d)).illScoped none a = false) ∧ (hodding (job0 d)).hod 0 = [job0 d] ∧
      (job0 d).body.length = 64 ∧ (hodding (job0 d)).starved 8 = false := by
  simp only [Bool.and_eq_true, beq_iff_eq, Bool.not_eq_true'] at h
  obtain ⟨⟨⟨⟨h1, h2⟩, h3⟩, h4⟩, h5⟩ := h
  exact ⟨sound_of h4, unscoped_of h3, h2, h1, h5⟩

theorem witness_HodTransfers : let d := body 2 0 0 64 (2 ^ 30 - 64) 0x1000
    let s := hodding (job0 d)
    (s.sound ∧ (∀ a, s.illScoped none a = false) ∧ s.hod 0 = [job0 d] ∧ (job0 d).body.length = 64 ∧ s.starved 8 = false) ∧
      (s.vaRead none 0 4 3 0 (tbSrc d) (tbLen d) .read).fault = none ∧
      (s.xlateRun 0 4 3 0 (tbSrc d) (tbLen d) .read).pieces = [(0x01007FFFFFC0, 64)] ∧
      ((s.vaRead none 0 4 3 0 (tbSrc d) (tbLen d) .read).st.xlateRun 0 4 3 0 (tbDst d) (tbLen d) .write).pieces =
        [(0x010040001000, 64)] ∧
      ((s.vaRead none 0 4 3 0 (tbSrc d) (tbLen d) .read).st.xlateRun 0 4 3 0 (tbDst d) (tbLen d) .write).fault = none :=
  ⟨hodding_meets _ (by decide +kernel), by decide +kernel, by decide +kernel, by decide +kernel, by decide +kernel⟩

theorem witness_HodTransfers_push : let d := body 2 0 4 64 (2 ^ 30 - 64) 0x1000
    let s := hodding (job0 d)
    (s.sound ∧ (∀ a, s.illScoped none a = false) ∧ s.hod 0 = [job0 d] ∧ (job0 d).body.length = 64 ∧ s.starved 8 = false) ∧
      tbSrcSpace d = 0 ∧ tbDstSpace d = 1 ∧ (s.vaRead none 0 4 3 0 (tbSrc d) (tbLen d) .read).fault = none ∧
      (s.xlateRun 0 4 3 0 (tbSrc d) (tbLen d) .read).pieces = [(0x01007FFFFFC0, 64)] ∧ s.busFault 0 = none ∧ s.hodFree 0 ≠ [] :=
  ⟨hodding_meets _ (by decide +kernel), by decide +kernel, by decide +kernel, by decide +kernel, by decide +kernel, by decide +kernel,
    by decide +kernel⟩

theorem witness_HodTransfers_bus : let d := body 2 0 1 64 0xFFFFFFC0 0x1000
    let s := hodding (job0 d)
    (s.sound ∧ (∀ a, s.illScoped none a = false) ∧ s.hod 0 = [job0 d] ∧ (job0 d).body.length = 64 ∧ s.starved 8 = false) ∧
      tbSrcSpace d = 1 ∧ s.busFault 0 = none ∧ (busPieces (s.fn 0).mrrs (tbSrc d) (tbLen d)).length ≤ (s.hodFree 0).length :=
  ⟨hodding_meets _ (by decide +kernel), by decide +kernel, by decide +kernel, by decide +kernel⟩

theorem witness_HodTransfers_fill : let d := body 2 1 0 12 0 0x1000
    let s := hodding (job0 d)
    (s.sound ∧ (∀ a, s.illScoped none a = false) ∧ s.hod 0 = [job0 d] ∧ (job0 d).body.length = 64 ∧ s.starved 8 = false) ∧
      tbKind d = 1 ∧ tbDstSpace d = 0 ∧ (s.xlateRun 0 4 3 0 0x1000 12 .write).pieces = [(0x010040001000, 12)] ∧
      (s.xlateRun 0 4 3 0 0x1000 12 .write).fault = none :=
  ⟨hodding_meets _ (by decide +kernel), by decide +kernel, by decide +kernel, by decide +kernel, by decide +kernel⟩

theorem witness_HodTransfers_fence : let d := body 2 2 0 0 0 0
    let s := { hodding (job0 d) with hodDsts := [(0, [(9, 0, 0x1000)])] }
    s.hod 0 = [job0 d] ∧ tbKind d = 2 ∧ (∀ e ∈ SMap.get s.hodDsts [] 0, s.busFault e.2.1 = none) ∧
      (SMap.get s.hodDsts [] 0).length ≤ (s.hodFree 0).length := by decide +kernel

theorem witness_HodTransfers_end : ∀ k ∈ [0, 2], let j := { job0 (body 2 k 0 64 0 0x1000) with active := true }
    (hodding j).hod 0 = [j] ∧ j.active = true ∧ j.ue = false ∧ j.xfail = none ∧ (hodding j).hodWrites 0 j.id = false ∧ j.todo = [] ∧
      j.reads = [] ∧ j.flushes = [] ∧ j.flush = [] ∧ j.prof = [] ∧ tbKind j.body = k ∧ j.src = .item 0 5 := by decide +kernel

theorem witness_HodTransfers_tile : let j := { job0 (body 2 0 0 64 0 0x1000) with active := true, src := .tile 0 63 0 1 }
    (hodding j).hod 0 = [j] ∧ j.fail = none ∧ tbKind j.body ≠ 2 ∧ j.src = .tile 0 63 0 1 := by decide +kernel

theorem witness_CheckUnits : up.board.rails = true ∧ (0x10000 : Word).toNat.testBit 16 = true ∧
    (0x3F : Word).toNat.testBit 16 = false := by decide +kernel

/-- The slice of die 0 holds a dirty line, a LOST line and a directory entry. -/
theorem witness_SliceWork : let s := { up with
      lines := [(0x010000000000, ⟨0, 15, 1, List.replicate 128 0⟩)], gdir := [(0x010000000000, ⟨1, none, []⟩)], lost := [0x010000000000] }
    s.board.rails = true ∧ 0 < s.part.dies ∧ SMap.rising s.lines = true ∧ SMap.rising s.gdir = true ∧ s.fld F.MTC_CMD.BUSY 0 = 0 ∧
      s.lineUe = [] ∧ s.cacheUe = [] ∧ s.part.homeDie 0x010000000000 = 0 ∧ s.passes = [] ∧
      (s.setFld F.MTC_CMD.BUSY 0 1).fld F.MTC_CMD.BUSY 0 = 1 := by decide +kernel

theorem witness_SliceWork_drain : ({ up with wc := [(0x010000000000, 0x1FF)] } : State).wc.find? (fun e => e.1 = 0x010000000000) =
    some (0x010000000000, 0x1FF) := by decide +kernel

theorem witness_SliceWork_background : let x := 0x010000000000
    let c := up.part.controller x
    up.board.rails = true ∧ up.fld F.MEM_MODE.MODE (ctlDie c) = 2 ∧ up.c3Held = false ∧ c ∈ up.part.controllers (ctlDie c) ∧
      SMap.get up.scrubPos (ctlBase c) c ≤ x ∧ x < up.part.ctlEnd c ∧ x < (x + 512) / 512 * 512 ∧
      ¬ max 1 (up.fld F.MEM_SCRUB.PERIOD (ctlDie c)) * 360000000000 < up.ticks - SMap.get up.scrubStart 0 c ∧
      ({ up with c3Held := true } : State).c3Held = true := by decide +kernel

theorem witness_Adders : let s := ((up.setFld F.MEM_MODE.MODE 0 1).setFld F.MEM_ADD_ADDR.ADDR 0 0x010000000000).setFld F.MEM_ADD_LEN.LEN 0 8
    s.sound ∧ s.fld F.MEM_MODE.MODE 0 ≠ 2 ∧ s.fld F.MEM_ADD_CMD.BUSY 0 = 0 ∧
      (∀ ty < 3, s.fld F.MEM_ADD_ADDR.ADDR 0 % elemSize ty = 0 ∧ s.fld F.MEM_ADD_LEN.LEN 0 % elemSize ty = 0 ∧
        s.part.populatedRun (s.fld F.MEM_ADD_ADDR.ADDR 0) (elemSize ty) = true) ∧
      s.part.populatedRun (s.fld F.MEM_ADD_ADDR.ADDR 0) 8 = true ∧ s.part.homeDie (s.fld F.MEM_ADD_ADDR.ADDR 0) = 0 :=
  ⟨sound_of (by decide +kernel), by decide +kernel, by decide +kernel, by decide +kernel, by decide +kernel, by decide +kernel⟩

theorem witness_Invalidations : up.board.rails = true ∧ up.fld F.XLT_INV.BUSY 0 = 0 ∧
    (up.setFld F.XLT_INV.BUSY 0 1).fld F.XLT_INV.BUSY 0 = 1 ∧ (∀ p ∈ up.packets, p.pid ∉ up.invWait) ∧
    ∃ p ∈ (landing (pkt0 .move true 0x40 none)).packets, p.pid ∈ [3] :=
  ⟨by decide +kernel, by decide +kernel, by decide +kernel, by decide +kernel, _, .head _, by decide⟩

theorem witness_Inbound : up.sound ∧ (∀ a, up.illScoped none a = false) ∧ up.board.rails = true ∧ up.fld F.HOD_LINK.UP 0 = 1 ∧
    (up.fn 0).d3 = false ∧ up.inbound (up.bar2Pa 0x40) 8 .read = .go ∧ up.inbound (up.bar2Pa 0x40) 8 .write = .go ∧
    (∀ p ∈ up.packets, p.unit ≠ .inbound 7) ∧ 0x40 + 8 ≤ up.bar2Size ∧ up.bar2Size < (up.bar2Size - 4) + 8 :=
  ⟨sound_of (by decide +kernel), unscoped_of rfl, by decide +kernel, by decide +kernel, by decide +kernel, by decide +kernel,
    by decide +kernel, by decide +kernel, by decide +kernel, by decide +kernel⟩

theorem witness_Inbound_after : let p : Packet := { pkt0 (.inbound 7) true (up.bar2Pa 0x40) none with agent := hostAgent }
    let s := landing p
    s.sound ∧ (∀ a, s.illScoped none a = false) ∧ s.inbound (s.bar2Pa 0x40) 32 .read = .go ∧ s.ill = [] ∧ s.packets = [p] ∧
      p.dst = s.bar2Pa 0x40 ∧ p.data.length = 32 :=
  ⟨sound_of (by decide +kernel), unscoped_of rfl, by decide +kernel, by decide +kernel, by decide +kernel, by decide +kernel,
    by decide +kernel⟩

theorem witness_Inbound_locked : let n := up.bar2Pa 0 / 2 ^ 30
    let s := (up.setFld F.SEC_RANGE.OWNER n 3).setFld F.SEC_PART.STATE 3 2
    s.inbound (s.bar2Pa 0) 8 .read = .blocked := by decide +kernel

/-- The cores run and the host's function masters the bus. -/
def mastering : State := up.setFn 0 { PFn.reset with bme := true }

theorem witness_BusTraffic : mastering.coreRuns 0 = true ∧ mastering.readOut 0 = false ∧ mastering.canMaster 0 = true ∧
    mastering.freeTagOf (.core 0) = some 14336 ∧ up.coreRuns 0 = true ∧ up.readOut 0 = false ∧ up.canMaster 0 = false ∧
    0x080000000000 ≤ 0x0FFFFFFFFFF8 ∧ 0x0FFFFFFFFFF8 < 0x100000000000 := by decide +kernel

/-- Request 14,336 is outstanding for `o`. -/
def asking (o : BusOwner) : State := { mastering with bus := [(14336, ⟨o, 0, 0x1000, 8⟩)] }

theorem witness_BusTraffic_completions : ∀ o ∈ [BusOwner.core 0, .abandoned], SMap.find? (asking o).bus 14336 = some ⟨o, 0, 0x1000, 8⟩ ∧
    (asking o).board.rails = true ∧ (asking o).hods = [] ∧ (asking o).queues = [] ∧ (asking o).fld F.HOD_LINK.UP 0 = 1 := by decide +kernel

theorem witness_BusTraffic_hod : let j := job0 (body 2 0 1 64 0 0x1000)
    let s := { asking (.hodRead 0 1 0) with hods := [(0, [j])] }
    SMap.find? s.bus 14336 = some ⟨.hodRead 0 j.id 0, 0, 0x1000, 8⟩ ∧ s.hod 0 = [j] ∧ j.fail = none ∧ j.xfail = none ∧
      s.fld F.HOD_LINK.UP 0 = 1 ∧ s.fld F.HOD_FAULT.VALID 0 = 0 := by decide +kernel

/-- A start-up that stands in phase `n`. -/
def booting (n : Nat) : State := State.reset.setFld F.CFG_STATE.PHASE 0 n

theorem witness_BusFunctions : let s := up.setFn 0 { PFn.reset with vfEn := true }
    s.board.rails = true ∧ (s.fn 0).vfEn = true ∧ 3 < s.fld F.CFG_STATE.PHASE 0 ∧ s.msixPend = [] ∧ (up.fn 0).vfEn = false ∧
      s.fld F.HOD_LINK.UP 0 = 1 := by decide +kernel

theorem witness_BusFunctions_early : let s := (booting 3).setFld F.HOD_LINK.UP 0 1
    s.board.rails = true ∧ s.fld F.HOD_LINK.UP 0 = 1 ∧ s.fld F.CFG_STATE.PHASE 0 ≤ 3 ∧ s.ticks < 100000000 := by
  decide +kernel

theorem witness_BusFunctions_link : let j := { job0 (body 2 0 1 64 0 0x1000) with active := true }
    State.reset.board.rails = true ∧ State.reset.fld F.HOD_LINK.UP 0 = 0 ∧ (hodding j).hods = [(0, [j])] ∧
      (hodding j).fld F.HOD_LINK.UP 0 = 1 ∧ j.active = true ∧ busSrc j.body = true ∧ j.fail = none ∧ j.xfail = none := by decide +kernel

/-- Lintel 35 carries flits, its direction BA being `x`. -/
def linked (x : LDir) : State := { up.setFld F.LTL_STATE.STATE 35 2 with ldirs := [(71, x)] }

/-- Five flits sent, of which the receiver has two. -/
def five : LDir := { LDir.reset with sent := 5, taken := 2, kept := [0, 1, 2, 3, 4] }

theorem witness_LintelLinks : ∀ x ∈ [five, { five with nak := some 3 }, { five with nak := some 0, resent := true, failed := 6 },
      { five with nak := some 0, resent := true, failed := 7 }], (linked x).ltlUp 35 = true ∧ (linked x).ldir 35 true = x := by
  decide +kernel

theorem witness_LintelLinks_flit : (List.replicate 64 (0 : Byte)).length = 64 ∧ crc32c (List.replicate 64 0) ≠ (0 : BitVec 32).toNat ∧
    five.resent = false ∧ five.nak = none ∧ five.taken ≤ 2 ∧ 2 < five.sent ∧ 5 ≤ five.kept.length := by decide +kernel

/-- The access of core 0 to a populated line. -/
def coreAcc (a : Nat) (op : CoreOp) : CoreAcc := ⟨0, .u, 1, false, 0, 0x40, a, op, []⟩

theorem hopCut_of {s : State} {x y a : Nat} (h : (s.part.lintelsOf x y ++ [99]).all (fun l => !s.ltlDown l) = true) :
    s.hopCut x y a = false := by
  simp only [List.all_append, Bool.and_eq_true, List.all_eq_true, Bool.not_eq_true'] at h
  unfold State.hopCut
  dsimp only
  generalize Config.lintelHash _ a % _ = k
  rw [List.getD_eq_getElem?_getD]
  cases hk : (s.part.lintelsOf x y)[k]? with
  | none => rw [Option.getD_none]; exact h.2 _ (List.mem_singleton.mpr rfl)
  | some l => rw [Option.getD_some]; exact h.1 l (List.mem_of_getElem? hk)

/-- Hops of core 0's routes. -/
theorem coreRoute0 (d : Nat) : ∀ h ∈ coreRoute 0 d, h ∈ [(4, 0), (0, 1), (4, 2), (2, 3)] := by
  rcases d with _ | _ | _ | d <;> simp [coreRoute]

theorem up_hops : ∀ h ∈ [(4, 0), (0, 1), (4, 2), (2, 3)], ((up.part.lintelsOf h.1 h.2) ++ [99]).all (fun l => !up.ltlDown l) = true := by
  decide +kernel

/-- With its lintels up, the route of core 0 to any address is open. -/
theorem up_coreCut (a : Nat) : up.coreCut 0 a = false := by
  unfold State.coreCut
  rw [List.any_eq_false]
  intro h hm
  rw [hopCut_of (up_hops h (coreRoute0 _ h hm))]
  exact Bool.false_ne_true

/-- No direction holds payload back. -/
theorem up_coreHeld (a : Nat) : up.coreHeld 0 a = false := by
  unfold State.coreHeld
  rw [List.any_eq_false]
  intro h _
  have : up.hopHeld a h = false := rfl
  simp [this]

theorem witness_CoreMemory : up.sound ∧ (∀ a, up.illScoped none a = false) ∧ up.coreRuns 0 = true ∧ up.readOut 0 = false ∧
    up.starved (up.coreTag 0 Priv.u.virt) = false ∧ up.coreHeld 0 0x010000000078 = false ∧
    up.coreRefused (coreAcc 0x010000000000 (.sc [1])) = true ∧ (up.coreOf 0).nt = [] ∧ (up.coreOf 0).sb = [] ∧
    (up.coreOf 0).l2 = [] ∧ (up.coreOf 0).resv ≠ some (0x010000000078 / 64 * 64) ∧
    ((up.modCore 0 fun c => { c with resv := some 0x010000000040 }).coreOf 0).resv = some (0x010000000078 / 64 * 64) :=
  ⟨sound_of (by decide +kernel), unscoped_of rfl, by decide +kernel, by decide +kernel, by decide +kernel, up_coreHeld _, by decide +kernel,
    by decide +kernel, by decide +kernel, by decide +kernel, by decide +kernel, by decide +kernel⟩

theorem witness_CoreMemory_own : 0x3FFFF8 + (opSpan 0x3FFFF8 (.store [1, 2] true)).2.1 ≤ 2 ^ 22 ∧
    opLegal 0 0x3FFFF8 (.store [1, 2] true) = true ∧ opLegal 0 0x3FFFF8 (.load 8) = true := by decide +kernel

theorem witness_CoreMemory_may : ∀ op ∈ [CoreOp.load 8, .fetch 4, .vector none 64 false, .vector (some [1, 2]) 2 true, .store [1, 2] false, .store [1, 2] true,
      .amo .add 8 1, .lr 8, .sc [1, 2, 3, 4], .cboZero, .cboClean, .cboFlush, .cboInval],
    up.coreRefused (coreAcc 0x010000000078 op) = false := by
  intro op h
  simp only [List.mem_cons, List.mem_nil_iff, or_false] at h
  rcases h with rfl | rfl | rfl | rfl | rfl | rfl | rfl | rfl | rfl | rfl | rfl | rfl | rfl
  all_goals simp only [State.coreRefused, coreAcc, up_coreCut, Bool.or_false]; decide +kernel

theorem witness_CoreMemory_order : let e : NtEntry := ⟨0x010000000040, 8, [(0, 1), (63, 2)]⟩
    let s := up.modCore 0 fun c => { c with nt := [e] }
    s.coreRuns 0 = true ∧ (s.coreOf 0).nt = [e] ∧ (s.coreOf 0).sb = [] ∧ SMap.rising e.bytes = true ∧
      s.part.populated e.block = true ∧ s.rangeOk e.tag e.block .write = true ∧ (s.coreOf 0).nt[0]? = some e := by decide +kernel

theorem witness_CoreMemory_order_store : let e : SbEntry := ⟨8, true, 0x010000000040, [1, 2]⟩
    let s := up.modCore 0 fun c => { c with sb := [e] }
    s.coreRuns 0 = true ∧ (s.coreOf 0).sb = [e] ∧ (s.coreOf 0).nt = [] ∧ s.part.populated e.pa = true ∧
      s.rangeOk e.tag e.pa .write = true := by decide +kernel

theorem witness_CoreMemory_order_hold : (asking (.core 0)).coreRuns 0 = true ∧ (asking (.core 0)).readOut 0 = true ∧
    ((asking (.core 0)).coreOf 0).hold = none ∧ up.readOut 0 = false := by decide +kernel

/-- A core-complex reset runs, and G-die 0 holds a line modified. -/
def resetting : State := { up with coreReset := true, gdir := [(0x010000000000, ⟨1, some 0, List.replicate 128 0⟩)] }

theorem coreCut_congr {s u : State} (n a : Nat) (hp : u.part = s.part) (hr : u.regs = s.regs) : u.coreCut n a = s.coreCut n a := by
  simp only [State.coreCut, State.hopCut, State.ltlDown, State.fld, State.reg, hp, hr]; rfl

theorem coreHeld_congr {s u : State} (n a : Nat) (hp : u.part = s.part) (hl : u.ldirs = s.ldirs) : u.coreHeld n a = s.coreHeld n a := by
  have h : u.hopHeld a = s.hopHeld a := by funext h; simp only [State.hopHeld, State.ldir, hp, hl]
  simp only [State.coreHeld, hp, h]

/-- Both copies of the core firmware are missing from an erased flash; of others their signatures decide, which are open. -/
theorem witness_CoreMemory_reset : resetting.board.rails = true ∧ resetting.coreReset = true ∧ resetting.trayOwns = false ∧
    resetting.sound ∧ resetting.coreCut 0 0x010000000000 = false ∧ resetting.coreHeld 0 0x010000000000 = false :=
  ⟨by decide +kernel, by decide +kernel, by decide +kernel, sound_of (by decide +kernel),
    (coreCut_congr _ _ rfl rfl).trans (up_coreCut _), (coreHeld_congr _ _ rfl rfl).trans (up_coreHeld _)⟩

theorem witness_CoreMemory_firmware : (resetting.copyCause 4 0).isSome = true ∧ (resetting.copyCause 4 1).isSome = true := by
  decide +kernel

theorem witness_CoreComplexResets : up.board.rails = true ∧ up.coreReset = false ∧ up.fld F.HOD_HOSTLOSS.STATE 0 = 0 ∧
    ({ up with coreReset := true } : State).coreReset = true ∧ (up.setFld F.HOD_HOSTLOSS.STATE 0 2).fld F.HOD_HOSTLOSS.STATE 0 = 2 ∧
    0 < up.part.cores ∧ up.coreDown = false := by decide +kernel

theorem witness_ReadySignals : let s := booting 9
    s.board.rails = true ∧ s.timer = false ∧ s.airLow = false ∧ s.fld F.CFG_STATE.FAIL 0 = 0 ∧ s.recovering = false ∧
      s.fld F.CFG_STATE.PHASE 0 = 9 := by decide +kernel

theorem witness_ReadySignals_open : let s := { mastering.setFn 0 { PFn.reset with bme := true, msixEn := true } with msixData := [(0, 7)] }
    s.msixOpen 0 0 ∧ (s.fn 0).bme = true := by unfold State.msixOpen; decide +kernel

theorem witness_RebuildResets : let s := up.setFld F.CFG_STATE.PHASE 0 10
    up.board.rails = true ∧ up.timer = true ∧ up.halted = false ∧ up.rebuilding = false ∧ s.rebuilding = true ∧ s.halted = false ∧
      State.reset.timer = false ∧ up.lines = [] ∧ quiet up = true := by decide +kernel

theorem witness_RebuildResets_timeout : let s := { (up.setFld F.CRS_COURSE_NUM.COURSE 0 3) with
      blocks := [{ blk with start := 1 }], queues := [(0, { Queue.reset with timeout := 1 })] }
    s.exceeds 0 = true ∧ (SMap.find? s.queues 0).isSome = true ∧ s.rebuilding = false := by decide +kernel

theorem witness_PowerControl : up.board.rails = true ∧ 3 ≤ up.fld F.CFG_STATE.PHASE 0 ∧ SMap.rising up.pw.duty = true ∧
    up.fld F.PWR_CAP.CAP 0 ≠ 500 ∧ (up.setFld F.PWR_CAP.CAP 0 500).fld F.PWR_CAP.CAP 0 = 500 ∧ up.domOn 21 = true ∧ up.domOn 0 = true ∧
    2 ≤ ({ up with pw := { up.pw with above := 2 } } : State).pw.above ∧ ({ up with quadWake := [3] } : State).quadWake = [3] := by
  decide +kernel

/-- Quadrants are not all at their lowest step and duty. -/
theorem witness_PowerControl_room : up.allLow = false := by decide +kernel

theorem witness_PowerLimits : let s := { up with pw := { up.pw with left := [(3, 31)] } }
    s.board.rails = true ∧ SMap.rising s.pw.left = true ∧ (∀ p ∈ s.pw.left, p.1 < 24 ∧ p.2 < 32) ∧
      SMap.find? s.pw.left 3 = some 31 ∧ s.part.hasSensor 0 = true ∧
      (∀ d < 7, (s.setFld F.PWR_TEMP.THROTTLE d 1).fld F.PWR_TEMP.THROTTLE d = 1) := by decide +kernel

theorem witness_PowerLimits_events : let b := State.reset.board
    b.trip = false ∧ b.aux = true ∧ b.vin = true ∧ b.rails = true ∧ State.reset.airLow = false ∧
      ({ b with vin := false } : Board).vin = false ∧ ({ b with trip := true } : Board).trip = true := by decide +kernel

theorem witness_PowerLimits_air : let s := State.reset.setFld F.PWR_FUSE.AIRFAIL_EN 0 1
    let b := { s.board with rails := false, low0 := true, air0 := true }
    (s.fld F.PWR_FUSE.AIRFAIL_EN 0).testBit 0 = true ∧ b.aux = true ∧ b.vin = true ∧ b.trip = false ∧ b.rails = false ∧
      { s with board := b.setLow 0 false }.airLow = false ∧ (s.fld F.PWR_FUSE.AIRFAIL_EN 0).testBit 1 = false := by decide +kernel

/-- The host is being lost: state `n` under RETAIN. -/
def losing (n : Nat) : State := (up.setFld F.HOD_HOSTLOSS.STATE 0 n).setFld F.HOD_HOSTLOSS.MODE 0 1

theorem witness_HostLoss : let s := (losing 0).setFld F.HOD_LINK.UP 0 0
    s.board.rails = true ∧ s.timer = true ∧ s.fld F.HOD_LINK.UP 0 = 0 ∧ s.lossPend = false ∧ s.fld F.HOD_HOSTLOSS.STATE 0 = 0 ∧
      s.board.perst = false ∧ s.airLow = false ∧ s.loading = false ∧ s.hods = [] ∧ s.fld F.HOD_HOSTLOSS.MODE 0 = 1 ∧
      up.fld F.HOD_HOSTLOSS.MODE 0 = 0 ∧ State.reset.timer = false ∧ State.reset.board.perst = false ∧ State.reset.loading = false ∧
      State.reset.airLow = false := by decide +kernel

theorem witness_HostLoss_hold : let s := { losing 2 with board := { up.board with perst := true } }
    s.board.rails = true ∧ s.board.perst = true ∧ s.timer = true ∧ s.fld F.HOD_HOSTLOSS.MODE 0 = 1 := by decide +kernel

theorem witness_HostLoss_states : ((losing 1).fld F.HOD_HOSTLOSS.STATE 0 = 1 ∧ (losing 1).rebuilding = false ∧ (losing 1).blocks = [] ∧
      (losing 1).packets = [] ∧ (losing 1).hodsRun = false ∧ (losing 1).lines = []) ∧
    ((losing 2).fld F.HOD_HOSTLOSS.STATE 0 = 2 ∧ (losing 2).fld F.HOD_LINK.UP 0 = 1) ∧
    ((losing 3).fld F.HOD_HOSTLOSS.STATE 0 = 3 ∧ (losing 3).halted = false) := by decide +kernel

theorem witness_StartUp : ∀ n ∈ List.range 9, let s := booting n
    s.board.rails = true ∧ s.timer = false ∧ s.airLow = false ∧ s.fld F.CFG_STATE.FAIL 0 = 0 ∧ s.recovering = false ∧
      s.fld F.CFG_STATE.PHASE 0 = n ∧ s.board.spiReq = false ∧ s.trust.bank = none ∧ s.trust.record = none ∧
      (∀ g < 16, s.fld F.CRS_C0_GROUP.VALID g = 0) := by decide +kernel

theorem copyBytes_of {s : State} (h : s.board.flash = []) (ty copy : Nat) : ∃ n, 4 ≤ n ∧ s.copyBytes ty copy = List.replicate n 0xFF := by
  have hr (off n : Nat) : s.flashRead off n = List.replicate n 0xFF := by
    unfold State.flashRead
    rw [h, List.eq_replicate_iff]
    refine ⟨by rw [List.length_map, List.length_range], fun b h => ?_⟩
    obtain ⟨i, -, rfl⟩ := List.mem_map.mp h
    rfl
  unfold State.copyBytes
  dsimp only
  generalize hn : min 0x100000 (envBytes (s.flashRead (copyBase ty copy) 1024)) = n
  refine ⟨n, ?_, hr _ _⟩
  rw [← hn]
  exact Nat.le_min.mpr ⟨by omega, by unfold envBytes; omega⟩

theorem ones_invalid (n : Nat) (h : 4 ≤ n) : envValid (List.replicate n 0xFF) = false := by
    have : le (List.replicate n 0xFF) 0 4 = 0xFFFFFFFF := by
      simp only [le, List.drop_zero, List.take_replicate, Nat.min_eq_left h]
      decide
    simp only [envValid, this]
    rfl

/-- An empty flash holds no image that verifies. -/
theorem copyCause_of {s : State} (h : s.board.flash = []) (ty copy : Nat) : s.copyCause ty copy = some mbEnvelope := by
  obtain ⟨n, hn, he⟩ := copyBytes_of h ty copy
  unfold State.copyCause State.envCause
  rw [he]
  simp only [ones_invalid n hn, Bool.not_false, if_true]

theorem witness_StartUp_recovery (ty copy : Nat) : State.reset.copyCause ty copy = some mbEnvelope := copyCause_of rfl ty copy

theorem witness_StartUp_live : up.board.rails = true ∧ up.timer = true ∧ up.live = none := by decide +kernel

/-- A report of code `code`, caused by the first unit of a class that may cause it. -/
def rep (code sev : Nat) : Report :=
  ⟨code, sev, uFrontEnd, (codeCause code).headD 0 * 0x1000, 0, 0, 0xFF, 0xFFFF⟩

theorem witness_ErrorLog : up.board.rails = true ∧ (rep 0x0102 2).sev < 3 ∧ up.reportOk (rep 0x0102 2) up.course up.ticks = true ∧
    up.openRec (rep 0x0102 2).cause up.course = none ∧ ¬ 256 ≤ ahead (up.fld F.ERR_LOG_HEAD.HEAD 0) (up.fld F.ERR_LOG_TAIL.TAIL 0) ∧
    up.lostKeys = [] ∧ SMap.find? up.grout 0 = none ∧ up.reportOk (rep 0x0402 3) 0 0 = true ∧ up.timer = true ∧ up.halted = false ∧
    up.reportOk (rep 0xFFFF 0) 0 0 = false := by decide +kernel

/-- The log after one report of course 4. -/
def logged : State := (up.setFld F.CRS_COURSE_NUM.COURSE 0 4).report (rep 0x0102 2)

theorem witness_ErrorLog_open : (logged.openRec (uQueue 0) 4).isSome = true ∧ logged.course = 4 ∧
    (SMap.find? logged.grout 0).isSome = true ∧ ((SMap.find? logged.grout 0).map LogRec.course) = some 4 := by decide +kernel

theorem witness_ErrorLog_full : let s := up.setFld F.ERR_LOG_HEAD.HEAD 0 256
    256 ≤ ahead (s.fld F.ERR_LOG_HEAD.HEAD 0) (s.fld F.ERR_LOG_TAIL.TAIL 0) ∧ s.openRec (uQueue 0) s.course = none ∧
      ahead 256 (s.fld F.ERR_LOG_TAIL.TAIL 0) ≤ ahead (s.fld F.ERR_LOG_HEAD.HEAD 0) (s.fld F.ERR_LOG_TAIL.TAIL 0) ∧
      ahead (s.fld F.ERR_LOG_HEAD.HEAD 0) (s.fld F.ERR_LOG_TAIL.TAIL 0) < ahead 257 (s.fld F.ERR_LOG_TAIL.TAIL 0) := by decide +kernel

theorem witness_ManagementBoard : State.reset.mgmtUp = false ∧ up.mgmtUp = true ∧ up.board.dyn = none ∧ 0 ≠ 0x30 + up.board.slot ∧
    (mgmtReg 0).isSome = true ∧ mgmtReg 0xFFFF = none := by decide +kernel

theorem witness_ManagementBoard_ports : let b := up.board
    b.aux = true ∧ b.rails = true ∧ up.fld F.SEC_DEBUG.JTAG 0 = 0 ∧ pmbusCmds.contains 0x01 = false ∧ b.perst = false ∧
      up.trayOwns = false ∧ ({ b with perst := true, spiReq := true } : Board).aux = true := by decide +kernel

/-- Core 0's access of 8 bytes to a register. -/
def regAt8 (k : RegKind) (i : Nat) : RegAcc := ⟨.core 0 .m 0 0, k.place.addr i, 8⟩

/-- What an access meets is that register. -/
def meetsReg (s : State) (a : RegAcc) (write : Bool) (k : RegKind) (i : Nat) : Bool :=
  match s.regMeets a write with
  | .reg k' i' => k' == k && i' == i
  | _ => false

theorem meets_of {s : State} {a : RegAcc} {write : Bool} {k : RegKind} {i : Nat} (h : meetsReg s a write k i = true) :
    s.regMeets a write = .reg k i := by
  unfold meetsReg at h
  split at h
  · simp only [Bool.and_eq_true, beq_iff_eq] at h; obtain ⟨rfl, rfl⟩ := h; assumption
  · cases h

theorem witness_RegisterAccess : up.regOpen (regAt8 .HOD_OUTWIN 0) ∧ up.regMeets (regAt8 .HOD_OUTWIN 0) false = .reg .HOD_OUTWIN 0 ∧
    up.regMeets (regAt8 .HOD_OUTWIN 0) true = .reg .HOD_OUTWIN 0 ∧ actsOnWrite .HOD_OUTWIN = false ∧
    up.regMeets (regAt8 .CFG_EVENT 0) false = .reg .CFG_EVENT 0 :=
  ⟨⟨by decide +kernel, show up.coreRuns 0 = true ∧ up.readOut 0 = false ∧ (regAt8 .HOD_OUTWIN 0).addr < 2 ^ 32 by decide +kernel⟩, meets_of (by decide +kernel), meets_of (by decide +kernel), by decide +kernel,
    meets_of (by decide +kernel)⟩

theorem witness_RegisterAccess_bar0 : let a : RegAcc := ⟨.bar0 0, 0x3F00000, 8⟩
    let b : RegAcc := ⟨.bar0 0, 0x3F80000, 8⟩
    let c : RegAcc := ⟨.bar0 0, 0x3FFFFF8, 8⟩
    up.regOpen a ∧ up.regMeets a false = .msix 0 0 ∧ up.regOpen b ∧ up.regMeets b false = .pba 0 0 ∧ up.regOpen c ∧
      up.regMeets c true = .none ∧ up.regMeets c false = .none :=
  ⟨by unfold State.regOpen; decide +kernel, rfl, by unfold State.regOpen; decide +kernel, rfl,
    by unfold State.regOpen; decide +kernel, rfl, rfl⟩

theorem witness_RegisterAccess_odd : RegAcc.aligned ⟨.bar0 0, 4, 8⟩ = false ∧ up.bar0Here 0 = true ∧ (up.fn 0).d3 = false ∧
    (let s := up.setFn 0 { up.fn 0 with d3 := true }; s.bar0Here 0 = true ∧ (s.fn 0).d3 = true) ∧ up.coreRuns 0 = true ∧ up.readOut 0 = false ∧
    RegAcc.aligned ⟨.core 0 .u 0 0, 4, 8⟩ = false := by decide +kernel

theorem witness_RegisterActions : ∀ p ∈ [(RegKind.CFE_Q_SQ_DB, 0), (.CFE_Q_CQ_DB, 0), (.PWR_CAP, 0), (.CRS_SHARE, 0), (.CRS_SLICE, 0),
      (.ERR_LOG_TAIL, 0), (.MTC_CMD, 0), (.MEM_ADD_CMD, 0), (.XLT_INV, 0), (.CHK_VALUE, 3), (.CHK_DATA8, 3), (.CHK_DATA16, 3),
      (.CHK_DATA32, 3), (.CHK_CFG, 3), (.SEC_MBOX_CMD, 0), (.CFG_RESET, 0)],
    up.regOpen (regAt8 p.1 p.2) ∧ up.regMeets (regAt8 p.1 p.2) true = .reg p.1 p.2 := by
  have h : ∀ p ∈ [(RegKind.CFE_Q_SQ_DB, 0), (.CFE_Q_CQ_DB, 0), (.PWR_CAP, 0), (.CRS_SHARE, 0), (.CRS_SLICE, 0),
      (.ERR_LOG_TAIL, 0), (.MTC_CMD, 0), (.MEM_ADD_CMD, 0), (.XLT_INV, 0), (.CHK_VALUE, 3), (.CHK_DATA8, 3), (.CHK_DATA16, 3),
      (.CHK_DATA32, 3), (.CHK_CFG, 3), (.SEC_MBOX_CMD, 0), (.CFG_RESET, 0)],
      (RegAcc.aligned (regAt8 p.1 p.2) = true ∧ up.coreRuns 0 = true ∧ up.readOut 0 = false ∧ (regAt8 p.1 p.2).addr < 2 ^ 32) ∧
        meetsReg up (regAt8 p.1 p.2) true p.1 p.2 = true := by decide +kernel
  exact fun p hp => ⟨(h p hp).1, meets_of (h p hp).2⟩

/-- Shusis serves, and command `op` with `len` argument bytes runs. -/
def mailing (op len : Nat) (mb : SMap Byte) : State :=
  let s := (up.setFld F.SEC_STATE.STAGE 0 2).setFld F.SEC_MBOX_CMD.BUSY 0 1
  { s with trust := { s.trust with cmd := some (op, len), mbox := mb } }

theorem witness_Mailbox : up.fld F.SEC_MBOX_CMD.BUSY 0 = 0 ∧ (mailing 3 2 []).fld F.SEC_MBOX_CMD.BUSY 0 = 1 ∧
    ∀ op ∈ [1, 2, 3, 4, 5, 6], (mailing op 2 []).mbServed = true ∧ (mailing op 2 []).trust.cmd = some (op, 2) ∧
      (mailing op 2 []).trust.waiting = [] ∧ (mailing op 2 []).recovering = false := by decide +kernel

theorem witness_Mailbox_svn : let s := (mailing 3 2 [(0, 6), (1, 32)]).setFld F.SEC_BOOT.SVN 6 32
    ((s.mboxArg 2).getD 0 0).toNat = 6 ∧ ((s.mboxArg 2).getD 1 0).toNat = 32 ∧ s.fld F.SEC_BOOT.SVN 6 = 32 := by decide +kernel

theorem witness_Mailbox_bad : (mailing 1 2 []).envCause ((mailing 1 2 []).mboxArg 2) = some mbEnvelope ∧
    envValid ((mailing 1 2 []).mboxArg 2) = false := by decide +kernel

/-- An ownership envelope of an unowned module, but for its signatures. -/
def ownKey : List Byte := bytesOf 384 1 ++ bytesOf 4 65537 ++ bytesOf 48 2
def ownEnv : List Byte :=
  bytesOf 4 0x4C564E45 ++ bytesOf 2 1 ++ bytesOf 1 7 ++ bytesOf 1 1 ++ bytesOf 4 0 ++ bytesOf 4 48 ++ bytesOf 8 1 ++
    sha384 (sha384 ownKey) ++ bytesOf 8 0 ++ ownKey ++ bytesOf 508 0 ++ sha384 ownKey ++ bytesOf 16 0 ++ bytesOf 16608 0

/-- Where both signatures of it verify (open values), it is accepted. -/
theorem witness_Mailbox_owner (h : sigCause ownEnv = none) : envType ownEnv = 7 ∧ envLen ownEnv = 48 ∧
    (mailing 2 17696 []).trust.banks.length < 4 ∧ (mailing 2 17696 []).envCause ownEnv = none := by
  refine ⟨by decide +kernel, by decide +kernel, by decide +kernel, ?_⟩
  have hv : envValid ownEnv = true := by decide +kernel
  have hk : (mailing 2 17696 []).keyKnown ownEnv = true := by decide +kernel
  have hd : (decide (sha384 (envPayload ownEnv) ≠ slice ownEnv 24 48)) = false := by decide +kernel
  have hp : (le ownEnv 16 4).testBit (mailing 2 17696 []).part.bit = true := by decide +kernel
  have hs : le ownEnv 72 8 = 0 := by decide +kernel
  have ht : envType ownEnv = 7 := by decide +kernel
  unfold State.envCause
  rw [hv, hk, h, hp, hs, ht]
  simp only [decide_eq_false_iff_not] at hd
  rw [if_neg (by decide), if_neg (by decide)]
  dsimp only
  rw [if_neg hd]
  decide

/-- Shusis answers; `f` sets the responder. -/
def speaking (f : Spdm → Spdm) : State :=
  let s := up.setFld F.SEC_STATE.STAGE 0 2
  { s with trust := { s.trust with spdm := f s.trust.spdm } }

def allAlgs : AlgOffer := ⟨true, true, true, true, true⟩

theorem witness_SpdmResponder : let s := speaking fun x => { x with stage := 3, algs := some allAlgs, session := 0 }
    s.shusisUp = true ∧ s.trust.cmd = none ∧ 3 ≤ s.trust.spdm.stage ∧ s.trust.spdm.algs = some allAlgs ∧ allAlgs.dhe = true ∧
      allAlgs.aead = true ∧ allAlgs.sched = true ∧ s.trust.spdm.session = 0 ∧ s.trust.spdm.busy = none ∧ s.trust.spdm.large = none ∧
      (speaking id).trust.spdm.stage = 0 ∧ (speaking fun x => { x with stage := 2 }).trust.spdm.stage = 2 := by decide +kernel

theorem witness_SpdmResponder_session : let f (x : Spdm) : Spdm := { x with stage := 3, session := 2, busy := some (0x60, [1], 0), large := some (1, 0x60, [1, 2]) }
    let s := speaking f
    s.trust.spdm.session = 2 ∧ s.trust.spdm.busy = some (0x60, [1], 0) ∧ s.trust.spdm.large = some (1, 0x60, [1, 2]) ∧
      0 * 4080 < [(1 : Byte), 2].length ∧ (s.setFld F.SEC_PART.TDI 7 1).fld F.SEC_PART.TDI 7 = 1 ∧
      (speaking fun x => { x with session := 1 }).trust.spdm.session = 1 := by decide +kernel

theorem witness_SpdmResponder_waits : (mailing 1 2 []).shusisUp = true ∧ (mailing 1 2 []).trust.cmd ≠ none := by decide +kernel

/-- Queue 0 is active in context 0: rings of 16 at context addresses 4,096 and 8,192, tail 1. -/
def queued (l : List Item) : State :=
  let s := (((paged up).setFld F.CFE_Q_STATE.STATE 0 1).setFld F.CFE_Q_CFG.SQ_ORDER 0 4).setFld F.CFE_Q_CFG.CQ_ORDER 0 4
  let s := ((s.setFld F.CFE_Q_CFG.FETCH_AHEAD 0 8).setFld F.CFE_Q_CTL.TIMEOUT 0 4).setFld F.CFE_Q_SQ_BASE.BASE 0 1
  let s := ((s.setFld F.CFE_Q_CQ_BASE.BASE 0 2).setFld F.CFE_Q_CFG.PARTITION 0 8).setFld F.CFE_Q_CFG.CLASS 0 1
  { s with items := l, queues := [(0, { Queue.reset with tail := 1, timeout := 4 })] }

theorem witness_Doorbells : let s := queued []
    s.qState 0 = 1 ∧ ahead 16 (s.qHead 0) ≤ 2 ^ s.sqOrder 0 ∧ ahead 16 (s.queue 0).tail ≤ 2 ^ s.sqOrder 0 ∧
      ¬ ahead 17 (s.qHead 0) ≤ 2 ^ s.sqOrder 0 ∧ ahead 0 (s.fld F.CFE_Q_CPL.CONSUMED 0) ≤ 0 ∧ s.qState 1032 = 0 ∧
      (s.setFld F.CFE_Q_STATE.STATE 0 4).qState 0 = 4 := by decide +kernel

theorem witness_QueueControls : let s := queued []
    s.qState 0 = 1 ∧ s.qState 1 = 0 ∧ s.fld F.CFE_AQ_CFG.ENABLE 1032 = 0 ∧
      (s.setFld F.CFE_AQ_CFG.ENABLE 1032 1).fld F.CFE_AQ_CFG.ENABLE 1032 = 1 ∧
      s.inFlight 1032 = 0 ∧ (2 ^ 63 : BitVec 64).toNat.testBit 63 = true := by decide +kernel

/-- Admin queue 0: its rings lie in memory at 0x0100_1000_0000 and 0x0100_1001_0000, and `st` is its state. -/
def admins (st : Nat) (x : Queue) (l : List Item) : State :=
  let s := ((up.setFld F.CFE_Q_STATE.STATE 1024 st).setFld F.CFE_AQ_CFG.ENABLE 1024 1).setFld F.CFE_Q_CQ_BASE.BASE 1024 0x10010010
  { s.setFld F.CFE_Q_SQ_BASE.BASE 1024 0x10010000 with queues := [(1024, x)], items := l }

/-- One record is held. -/
def held0 : HeldRec := ⟨0, bytesOf 32 0, false⟩

def putSt (p : Put) (s : State) : State :=
  match p with
  | .ok u => u
  | _ => s

theorem put_of {p : Put} {s : State} (h : (match p with | .ok _ => true | _ => false) = true) : p = .ok (putSt p s) := by
  cases p <;> simp_all [putSt]

theorem witness_QueueControls_resume : let s := admins 2 { Queue.reset with held := [held0] } []
    let s2 := putSt (s.putRecord 1024 held0) s
    s.qState 1024 = 2 ∧ (s.queue 1024).resuming = false ∧ (s.queue 1024).held = [held0] ∧ held0.irq = false ∧
      s.putRecord 1024 held0 = .ok s2 ∧ (s2.queue 1024).held = [held0] ∧ s2.oldestDone 1024 = none ∧ s2.qFault 1024 = 0 :=
  ⟨by decide +kernel, by decide +kernel, by decide +kernel, by decide +kernel, put_of (by decide +kernel), by decide +kernel,
    by decide +kernel, by decide +kernel⟩

/-- Queue 0 with the descriptor `d` in its first slot. -/
def slotted (d : List Byte) (x : Queue) : State := { (queued []).putBytes 0x010040001000 d with queues := [(0, x)] }

/-- A slot that reads as `d`. -/
def slotIs (s : State) (q : Nat) (d : List Byte) : Bool :=
  let g := s.vaRead none 0 4 4 (s.qCtx q) (s.sqBase q + s.qHead q % 2 ^ s.sqOrder q * 64) 64 .read
  !s.sqBus q && !isAdmin q && g.fault.isNone && !g.ue && g.data == d

theorem slot_of {s : State} {q : Nat} {d : List Byte} (h : slotIs s q d = true) : s.slotAt q d
    (s.vaRead none 0 4 4 (s.qCtx q) (s.sqBase q + s.qHead q % 2 ^ s.sqOrder q * 64) 64 .read).st := by
  simp only [slotIs, Bool.and_eq_true, Bool.not_eq_true', Option.isNone_iff_eq_none, beq_iff_eq] at h
  obtain ⟨⟨⟨⟨h1, h2⟩, h3⟩, h4⟩, h5⟩ := h
  refine ⟨h1, ?_⟩
  simp only [h2, Bool.false_eq_true, if_false]
  exact ⟨h3, h4, h5, by first | rfl | trivial⟩

theorem fetch_of {s : State} {q : Nat} (h : (s.mayFetch q && !s.starved (s.qPart q)) = true) : s.canFetch q := by
  simp only [Bool.and_eq_true, Bool.not_eq_true'] at h
  exact h

theorem witness_QueueFetch : ∀ d ∈ [desc64 [(4, 1)], desc64 [(0, 9)]], let s := slotted d { Queue.reset with tail := 1 }
    s.canFetch 0 ∧ s.fetching 0 = false ∧ s.fetchTurn 0 = true ∧ s.imageFits 0 (s.queue 0).room = true ∧
      ∃ s2, s.slotAt 0 d s2 ∧ (s2.queue 0).refetch = none ∧ s2.imageFits 0 (s2.imageRoom 0 d) = true := by
  intro d h
  simp only [List.mem_cons, List.mem_nil_iff, or_false] at h
  rcases h with rfl | rfl <;>
    exact ⟨fetch_of (by decide +kernel), by decide +kernel, by decide +kernel, by decide +kernel, _, slot_of (by decide +kernel),
      by decide +kernel, by decide +kernel⟩

/-- A RUN item of queue 2 (class C1 too) that has `n` bytes of the image store. -/
def hoard (n : Nat) : Item := { item 2 0 (desc64 [(4, 1)]) .waiting with room := n }

/-- Its image, of the largest size, does not fit; the queue then waits, and so does one whose turn has not come. -/
theorem witness_QueueFetch_room : let d := desc64 [(4, 1), (16, 0x400)]
    let s := (slotted d { Queue.reset with tail := 1 }).setFld F.CFE_Q_CFG.CLASS 2 1
    let s := { s.putBytes 0x010040000408 (bytesOf 4 65536) with
      items := [hoard (6 * 2 ^ 20)] }
    let t := s.setQueue 0 { Queue.reset with tail := 1, room := 65536 }
    s.canFetch 0 ∧ (∃ s2, s.slotAt 0 d s2 ∧ le d 0 4 = s2.qHead 0 ∧ s2.imageFits 0 (s2.imageRoom 0 d) = false) ∧
      t.canFetch 0 ∧ t.imageFits 0 (t.queue 0).room = false :=
  ⟨fetch_of (by decide +kernel), ⟨_, slot_of (by decide +kernel), by decide +kernel, by decide +kernel⟩, fetch_of (by decide +kernel),
    by decide +kernel⟩

/-- Queue 3 of class C0 is ready too, and goes first. -/
theorem witness_QueueFetch_turn : let s := queued []
    let s := ((s.setFld F.CFE_Q_STATE.STATE 3 1).setFld F.CFE_Q_CFG.FETCH_AHEAD 3 8).setFld F.CFE_Q_CFG.CQ_ORDER 3 4
    let s := s.setQueue 3 { Queue.reset with tail := 1 }
    s.canFetch 0 ∧ s.fetchTurn 0 = false := ⟨fetch_of (by decide +kernel), by decide +kernel⟩

theorem witness_QueueFetch_again : let d := desc64 [(0, 9)]
    let s := slotted d { Queue.reset with tail := 1, refetch := some 16 }
    s.canFetch 0 ∧ (s.queue 0).refetch = some 16 ∧ (s.queue 0).fetchTag = none ∧
      ∃ s2, (s.bump F.CFE_Q_STAT.REFETCH 0 1).slotAt 0 d s2 ∧ (s2.queue 0).refetch = some 16 ∧ s2.qState 0 = 1 :=
  ⟨fetch_of (by decide +kernel), by decide +kernel, by decide +kernel, _, slot_of (by decide +kernel), by decide +kernel,
    by decide +kernel⟩

theorem witness_QueueFetch_bus : let s := (queued []).setFld F.CFE_Q_CFG.SQ_SPACE 0 1
    let m := s.setFn 0 { PFn.reset with bme := true }
    s.canFetch 0 ∧ s.sqBus 0 = true ∧ s.canMaster (s.qOwner 0) = false ∧ s.qState 0 = 1 ∧ m.canFetch 0 ∧ m.fetchTurn 0 = true ∧
      m.canMaster (m.qOwner 0) = true ∧ (m.freeTagOf (.ring 0)).isSome = true :=
  ⟨fetch_of (by decide +kernel), by decide +kernel, by decide +kernel, by decide +kernel, fetch_of (by decide +kernel),
    by decide +kernel, by decide +kernel, by decide +kernel⟩

/-- Every tag of the front end is in use. -/
def tagsUsed (s : State) : State := { s with bus := (List.range 2048).map fun i => (12288 + i, ⟨.ring 1, 0, 0, 64⟩) }

theorem find_isSome {α : Type} (l : SMap α) (k : Nat) (h : ∃ v, (k, v) ∈ l) : (SMap.find? l k).isSome = true := by
  induction l with
  | nil => simp at h
  | cons e l ih =>
    obtain ⟨k', w⟩ := e
    by_cases hk : k = k'
    · simp [SMap.find?, hk]
    · simpa [SMap.find?, hk] using ih (by simpa [hk] using h)

theorem tagsUsed_none (s : State) (q : Nat) : (tagsUsed s).freeTagOf (.ring q) = none := by
  simp only [State.freeTagOf, BusOwner.share, tagsUsed, List.find?_eq_none, List.mem_map, List.mem_range]
  rintro _ ⟨i, hi, rfl⟩
  have := find_isSome ((List.range 2048).map fun i => (12288 + i, (⟨.ring 1, 0, 0, 64⟩ : BusReq))) (12288 + i)
    ⟨_, List.mem_map.mpr ⟨i, List.mem_range.mpr hi, rfl⟩⟩
  simp only [Option.isNone_iff_eq_none]
  exact fun h => by rw [h] at this; cases this

theorem witness_QueueFetch_tags : let m := ((queued []).setFld F.CFE_Q_CFG.SQ_SPACE 0 1).setFn 0 { PFn.reset with bme := true }
    (tagsUsed m).canFetch 0 ∧ (tagsUsed m).freeTagOf (.ring 0) = none := ⟨fetch_of (by decide +kernel), tagsUsed_none _ _⟩

/-- An item of a queue that is finished with status 0. -/
def doneItem (q : Nat) : Item := item q 0 (desc64 [(4, 1)]) (.finished 0 0 0xFF)

theorem witness_QueueRecords : ∀ st ∈ [1, 2], let s := admins st Queue.reset [doneItem 1024]
    s.oldestDone 1024 = some (doneItem 1024) ∧ s.writesRecords = true ∧ s.starved (s.qPart 1024) = false ∧
      (s.queue 1024).writing = none ∧ (s.queue 1024).resuming = false ∧ (doneItem 1024).desc.length = 64 ∧ s.qState 1024 = st ∧
      s.cqBus 1024 = false ∧ s.halted = false ∧ s.course < 2 ^ 64 ∧ (s.queue 1024).held.length < 4 ∧
      s.part.populatedRun (s.recSlot 1024 0) 32 = true ∧ s.rangeOk (s.qPart 1024) (s.recSlot 1024 0) .write = true := by decide +kernel

theorem witness_QueueRecords_hole : let s := (admins 1 Queue.reset [doneItem 1024]).setFld F.CFE_Q_CQ_BASE.BASE 1024 0
    s.part.populatedRun (s.recSlot 1024 0) 32 = false ∧ s.qState 1024 = 1 := by decide +kernel

theorem witness_QueueRecords_full : let s := admins 2 { Queue.reset with held := List.replicate 4 held0 } [doneItem 1024]
    s.qState 1024 = 2 ∧ 4 ≤ (s.queue 1024).held.length := by decide +kernel

theorem witness_QueueRecords_bus : let m : PFn := { PFn.reset with bme := true }
    let s := ((admins 1 Queue.reset [doneItem 1024]).setFld F.CFE_AQ_CFG.CQ_SPACE 1024 1).setFn 0 m
    s.cqBus 1024 = true ∧ s.canMaster (s.qOwner 1024) = true ∧ (s.freeTagOf (.record 1024)).isSome = true ∧
      (tagsUsed s).freeTagOf (.record 1024) = none := ⟨by decide +kernel, by decide +kernel, by decide +kernel, tagsUsed_none _ 1024⟩

theorem witness_QueueRecords_memory : let s := queued [doneItem 0]
    s.oldestDone 0 = some (doneItem 0) ∧
      ((s.produce (doneItem 0)).1.xlate 0 4 4 (s.qCtx 0) (s.recSlot 0 0) .write).res = .ok 0x010040002000 :=
  ⟨by decide +kernel, ok_of (by decide +kernel)⟩

theorem witness_QueueRecords_token : let d : Destroy := ⟨some 1024, 7, 0, 0⟩
    let s := { (queued []).setFld F.CFE_Q_STATE.STATE 0 4 with
      queues := [(0, { Queue.reset with tokens := [.placer 1], destroy := some d })] }
    Engine.placer 1 ∈ (s.queue 0).tokens ∧ s.engineBusy 0 (.placer 1) = false ∧ s.qState 0 = 4 ∧
      (s.queue 0).tokens = [.placer 1] ∧ (s.queue 0).writing = none ∧ s.itemsOf 0 = [] ∧ s.closePend = [] ∧
      (s.queue 0).destroy = some d := by decide +kernel

/-- A RUN item whose image would start at context address 0x4000. -/
def runItem : Item := item 0 0 (desc64 [(4, 1), (16, 0x4000)]) .fetched

theorem witness_WorkItems : ∀ f ∈ [0, 2], let i := item 0 0 (desc64 [(4, 0), (5, f)]) .fetched
    let s := queued [i]
    s.ready = true ∧ s.unchecked 0 0 = some i ∧ s.ctxValid (s.qCtx 0) = true ∧ s.earlierDone i = true ∧ i.after = (f == 2) := by
  decide +kernel

theorem witness_WorkItems_waits : let i := item 0 1 (desc64 [(4, 0), (5, 2)]) .fetched
    let s := queued [item 0 0 (desc64 [(4, 1)]) .active, i]
    s.unchecked 0 0 = some i ∧ i.after = true ∧ s.earlierDone i = false ∧ s.qCtx 1 = 0 := by decide +kernel

theorem witness_WorkItems_release : let i := item 0 0 (desc64 [(4, 0), (5, 2)]) .waiting
    (queued [i]).unchecked 0 0 = none ∧ (queued [i]).waitingNop 0 = some i ∧ i.queue = 0 := by decide +kernel

theorem witness_WorkItems_context : let i := item 0 0 (desc64 [(4, 0)]) .fetched
    let s := (queued [i]).setFld F.XLT_CTX_ROOT.VALID 0 0
    s.unchecked 0 0 = some i ∧ s.ctxValid (s.qCtx 0) = false := by decide +kernel

/-- Nothing stands at the image's address: it is read, and is not valid. -/
theorem witness_WorkItems_run : let s := queued [runItem]
    s.unchecked 0 1 = some runItem ∧ s.starved (s.qPart 0) = false ∧ le runItem.desc 16 8 % 64 = 0 ∧ le runItem.desc 16 8 < 2 ^ 48 ∧
      le runItem.desc 24 8 < 2 ^ 48 ∧ s.ctxValid (s.qCtx 0) = true ∧ s.qClass 0 ≠ 0 ∧
      ∃ im s2, s.imageRead 0 0x4000 = (im, none, s2) ∧ imageValid im = false :=
  ⟨by decide +kernel, by decide +kernel, by decide +kernel, by decide +kernel, by decide +kernel, by decide +kernel,
    by decide +kernel, _, _, Prod.ext rfl (Prod.ext (by decide +kernel) rfl), by decide +kernel⟩

/-- Admin queue `a` offers the descriptor `d`. -/
def offering (a : Nat) (d : List Byte) : State :=
  let s := (up.setFld F.CFE_Q_STATE.STATE (1024 + a) 1).setFld F.CFE_AQ_CFG.ENABLE (1024 + a) 1
  { s with items := [item (1024 + a) 0 d .fetched] }

/-- Admin queue 0 offers `d` with opcode `op`. -/
def offers0 (s : State) (op : Nat) (d : List Byte) : Bool :=
  s.ready && s.unchecked 1024 op == some (item 1024 0 d .fetched)

theorem offers_of {s : State} {op : Nat} {d : List Byte} (h : offers0 s op d = true) : s.offers 0 op (item 1024 0 d .fetched) := by
  simp only [offers0, Bool.and_eq_true, beq_iff_eq] at h
  exact ⟨by decide, h.1, h.2, .inl rfl⟩

theorem witness_AdminChecks : ∀ op ∈ [0x01, 0x02, 0x03, 0x08, 0x09, 0x10, 0x11, 0x12, 0x20, 0x21, 0x22, 0x23, 0x30], ∀ a ∈ [0, 1, 8],
    let d := desc64 [(4, op)]
    let s := offering a d
    s.ready = true ∧ s.unchecked (adminQ a) op = some (item (1024 + a) 0 d .fetched) ∧ (a = 0 ∨ s.partState (a - 1) = 0) ∧
      (a ≠ 0 → (s.setFld F.SEC_PART.STATE (a - 1) 1).partState (a - 1) ≠ 0) := by decide +kernel

theorem witness_AdminChecks_values : let s := offering 0 (desc64 [(4, 2), (16, 1023)])
    s.qState 1023 = 0 ∧ s.foreignQueue 0 1023 = false ∧ s.qState 1023 ≠ 3 ∧ s.ctxValid 0 = false ∧ s.rset 0 = none ∧
      s.foreignSet 0 (desc64 [(4, 0x10)]) = false ∧ le (desc64 [(4, 8), (17, 9)]) 17 1 = 9 ∧
      2 ^ 44 ≤ le (desc64 [(4, 8), (24, 2 ^ 44)]) 24 8 ∧ 1024 ≤ le (desc64 [(4, 2), (16, 1024)]) 16 2 ∧
      ((s.setFld F.CFE_Q_STATE.STATE 1023 1).setFld F.CFE_Q_CFG.PARTITION 1023 3).foreignQueue 1 1023 = true := by decide +kernel

theorem witness_AdminChecks_set : let d := desc64 [(4, 0x12), (16, 5)]
    let s := { (offering 1 d).setFld F.SEC_PART.STATE 0 1 with sets := [⟨5, 3, [0], 1, false, none, none, false, false, []⟩] }
    s.partState 0 ≠ 0 ∧ s.foreignSet 1 d = true := by decide +kernel

theorem witness_QueueLifeCycle : let d := desc64 [(4, 1), (16, 1023), (18, 3), (20, 4), (21, 16), (23, 1), (42, 64)]
    let s := { paged (offering 0 d) with xlt := [] }
    s.offers 0 0x01 (item 1024 0 d .fetched) ∧ s.qState 1023 = 0 ∧ s.ctxValid 0 = true ∧ s.ctxTag 0 = 8 :=
  ⟨offers_of (by decide +kernel), by decide +kernel, by decide +kernel, by decide +kernel⟩

theorem witness_QueueLifeCycle_c0 : let s := (up.setFld F.CRS_C0_GROUP.VALID 15 1).setFld F.CRS_C0_GROUP.QUEUE 15 7
    s.groupOf 7 = some 15 ∧ (s.c0i 15).owner = 8 := by decide +kernel

theorem witness_QueueLifeCycle_reset : let d := desc64 [(4, 3), (16, 0)]
    let s := { (queued []).setFld F.CFE_Q_STATE.STATE 0 3 with items := [item 1024 0 d .fetched] }
    s.offers 0 0x03 (item 1024 0 d .fetched) ∧ s.qState 0 = 3 ∧ s.qPart 0 = 8 :=
  ⟨offers_of (by decide +kernel), by decide +kernel, by decide +kernel⟩

theorem witness_QueueLifeCycle_destroy : let d := desc64 [(4, 2), (16, 0)]
    let s := queued [item 1024 0 d .fetched]
    s.offers 0 0x02 (item 1024 0 d .fetched) ∧ s.qState 0 = 1 ∧ s.itemsOf 0 = [] ∧ (s.queue 0).held = [] ∧
      (s.queue 0).writing = none ∧ s.blocks = [] ∧ s.hods = [] ∧ s.closePend = [] ∧ blk.queue = 0 :=
  ⟨offers_of (by decide +kernel), by decide +kernel, by decide +kernel, by decide +kernel, by decide +kernel, by decide +kernel,
    by decide +kernel, by decide +kernel, by decide +kernel⟩

theorem witness_AdminObjects_create : let d := desc64 [(4, 8), (16, 255), (17, 8), (24, 2 ^ 44 - 1), (32, 2 ^ 57 - 2 ^ 30)]
    (offering 0 d).offers 0 0x08 (item 1024 0 d .fetched) ∧ (offering 0 d).ctxValid 255 = false ∧ le d 17 1 = 8 ∧
      le d 24 8 < 2 ^ 44 ∧ le d 32 8 % 2 ^ 30 = 0 ∧ le d 32 8 ≤ 2 ^ 57 - 2 ^ 30 :=
  ⟨offers_of (by decide +kernel), by decide +kernel, by decide +kernel, by decide +kernel, by decide +kernel, by decide +kernel⟩

theorem witness_AdminObjects_destroy : let d := desc64 [(4, 9), (16, 0)]
    let s := paged (offering 0 d)
    s.offers 0 0x09 (item 1024 0 d .fetched) ∧ s.ctxValid 0 = true ∧ s.ctxTag 0 = 8 ∧ s.ctxBound 0 = false :=
  ⟨offers_of (by decide +kernel), by decide +kernel, by decide +kernel, by decide +kernel⟩

theorem witness_AdminObjects_set : let d := desc64 [(4, 0x10), (16, 5), (20, 12), (21, 3), (22, 2)]
    let s := offering 0 d
    s.offers 0 0x10 (item 1024 0 d .fetched) ∧ s.rset 5 = none ∧ s.part.dies = 4 ∧
      (s.setTiles 8 12 3 2).isSome = true ∧ s.setTiles 8 12 3 801 = none :=
  ⟨offers_of (by decide +kernel), by decide +kernel, by decide +kernel, by decide +kernel, by decide +kernel⟩

theorem witness_AdminObjects_named : ∀ op ∈ [0x11, 0x12], let d := desc64 [(4, op), (16, 5), (21, 0xFF)]
    let r : RSet := ⟨5, 8, [0], 1, false, none, none, false, false, []⟩
    let s := { offering 0 d with sets := [r] }
    s.offers 0 op (item 1024 0 d .fetched) ∧ s.namedSet d = some r ∧ s.setBusy 5 = false := by
  intro op h
  simp only [List.mem_cons, List.mem_nil_iff, or_false] at h
  rcases h with rfl | rfl <;> exact ⟨offers_of (by decide +kernel), by decide +kernel, by decide +kernel⟩

theorem witness_Partitions_create : let d := desc64 [(4, 0x20), (16, 7), (24, 2 ^ 95)]
    let s := offering 0 d
    let s := { s with trust := { s.trust with bank := some 0, slots := [(0, 8)] } }
    s.offers 0 0x20 (item 1024 0 d .fetched) ∧ le d 16 1 < 8 ∧ le d 24 12 < 2 ^ s.part.cores ∧ s.partState 7 = 0 ∧
      s.trust.bank.isSome = true ∧ (∀ r < 8, s.partState r = 0) ∧ s.freeSlot = some 1 :=
  ⟨offers_of (by decide +kernel), by decide +kernel, by decide +kernel, by decide +kernel, by decide +kernel, by decide +kernel,
    by decide +kernel⟩

theorem witness_Partitions_destroy : let d := desc64 [(4, 0x21), (16, 7)]
    let s := ((offering 0 d).setFld F.SEC_PART.STATE 7 2).setFld F.SEC_RANGE.OWNER 2047 7
    s.offers 0 0x21 (item 1024 0 d .fetched) ∧ s.partState 7 = 2 ∧ s.partQueues 7 = false :=
  ⟨offers_of (by decide +kernel), by decide +kernel, by decide +kernel⟩

theorem witness_Partitions_tiles : let d := desc64 [(4, 0x22), (16, 7), (18, 798), (20, 2)]
    let s := (offering 0 d).setFld F.SEC_PART.STATE 7 1
    s.offers 0 0x22 (item 1024 0 d .fetched) ∧ le d 18 2 + le d 20 2 ≤ s.part.tiles ∧ s.partState 7 = 1 ∧
      (∀ t ∈ [798, 799], s.c0Of t = none ∧ s.partState (s.tileOwnerOf t) = 1 ∧ t ∉ s.heldTiles) ∧ s.sets = [] :=
  ⟨offers_of (by decide +kernel), by decide +kernel, by decide +kernel, by decide +kernel, by decide +kernel⟩

/-- Range 1,024 of the operator goes to slot 63 with SHARE 1: `x` names the slot, `n` is the slot it has. -/
def ranging (x n : Nat) : State :=
  let s := (offering 0 (desc64 [(4, 0x23), (16, 1024), (18, 8), (19, x), (20, 1)])).setFld F.SEC_RANGE.SLOT 1024 n
  { s with trust := { s.trust with slots := [(0, 8), (63, 8)] } }

theorem witness_Partitions_range : ∀ x ∈ [63, 0xFE, 0xFF], let d := desc64 [(4, 0x23), (16, 1024), (18, 8), (19, x), (20, 1)]
    let s := ranging x 63
    s.offers 0 0x23 (item 1024 0 d .fetched) ∧ s.board.rails = true ∧ le d 16 2 = 1024 ∧ s.part.populated (1024 * 2 ^ 30) = true ∧
      SMap.find? s.trust.slots 63 = some 8 ∧ s.partState (s.fld F.SEC_RANGE.OWNER 1024) = 1 ∧ s.partState 8 = 1 ∧
      s.fld F.SEC_RANGE.PENDING 1024 = 0 ∧ s.primary 8 = 0 ∧ s.freeSlot = some 1 ∧ s.fld F.SEC_RANGE.SLOT 1024 = 63 ∧
      s.packets = [] := by
  intro x h
  simp only [List.mem_cons, List.mem_nil_iff, or_false] at h
  rcases h with rfl | rfl | rfl <;>
    exact ⟨offers_of (by decide +kernel), by decide +kernel, by decide +kernel, by decide +kernel, by decide +kernel,
      by decide +kernel, by decide +kernel, by decide +kernel, by decide +kernel, by decide +kernel, by decide +kernel,
      by decide +kernel⟩

theorem witness_Partitions_full : let s := ranging 0xFF 63
    ({ s with trust := { s.trust with slots := (List.range 64).map fun k => (k, 8) } } : State).freeSlot = none := by
  decide +kernel

/-- The last slice has evicted range 1,024. -/
theorem witness_Partitions_passed : let p : RangePass := ⟨1024, 8, 63, 1, some (1024, 0), [], [3]⟩
    let s := { (ranging 63 0).setFld F.MTC_CMD.BUSY 3 1 with passes := [p] }
    s.fld F.MTC_CMD.BUSY 3 = 1 ∧ s.fld F.SEC_RANGE.SLOT 1024 = 0 := by decide +kernel

theorem witness_Partitions_close : let s := up.setFld F.SEC_PART.STATE 7 3
    let m := s.setFld F.SEC_RANGE.OWNER 1024 7
    s.partState 7 = 3 ∧ s.board.rails = true ∧ s.rangesOf 7 = [] ∧ m.partState 7 = 3 ∧ m.rangesOf 7 = [1024] ∧ m.passes = [] ∧
      m.packets = [] ∧ ∃ r ∈ ({ m with passes := [⟨1024, 8, 0, 0, none, [], [3]⟩] } : State).passes, r.range ∈ m.rangesOf 7 := by
  decide +kernel

theorem witness_Partitions_interfaces : let s := (speaking id).setFld F.SEC_PART.STATE 7 1
    let s := { s with trust := { s.trust with ide := [(15, 8)] } }
    s.shusisUp = true ∧ s.partState 7 = 1 ∧ s.ideSecure 8 = true ∧ s.fld F.SEC_PART.TDI 7 = 0 ∧
      s.packets = [] ∧ s.board.rails = true ∧ (s.setFld F.SEC_PART.STATE 7 2).partState 7 = 2 ∧ s.queues = [] ∧ s.closePend = [] ∧ ¬ (speaking id).partState 7 = 1 := by
  decide +kernel

theorem witness_SchedSlip : ∀ d ∈ [512, 513, 1024, 1025], ∀ l ∈ [false, true], let s := { up with debt := d + 80, slip := l }
    s.timer = true ∧ s.closed13 = false ∧ s.ready = true ∧ s.halted = false ∧ s.slip = l ∧ s.lateTiles = 0 ∧
      s.fld F.CRS_SHARE.C2_SHARE 0 + s.fld F.CRS_SHARE.C3_SHARE 0 = 80 := by decide +kernel

theorem witness_Courses : up.timer = true ∧ up.closed13 = false ∧ up.closed0 = false ∧ up.ready = true ∧ up.halted = false ∧
    up.fld F.HOD_HOSTLOSS.STATE 0 = 0 ∧ ({ up with closed0 := true, closed13 := true } : State).closed0 = true ∧
    (losing 1).fld F.HOD_HOSTLOSS.STATE 0 ≠ 0 := by decide +kernel

theorem witness_Courses_boundary : let p : Planned := ⟨0, 0, 0, 0, [0, 1], []⟩
    let i := item 0 0 (desc64 [(4, 1)]) .waiting
    let s := { queued [i] with plan := [p] }
    s.plan = [p] ∧ s.item p.queue p.seq = some i ∧ p.tiles.Nodup ∧ s.sets = [] ∧ s.ready = true ∧ s.halted = false ∧
      s.fld F.HOD_HOSTLOSS.STATE 0 = 0 ∧ (∃ x, SMap.find? s.queues 0 = some x) := by
  refine ⟨by decide +kernel, by decide +kernel, by decide, by decide +kernel, by decide +kernel, by decide +kernel,
    by decide +kernel, _, rfl⟩

/-- An image of one block with one alternative on one tile, of `d` units. -/
def image1 (d : Nat) : List Byte :=
  bytesOf 128 (2 ^ (8 * 12) + 64 * 2 ^ (8 * 16) + 2 ^ (8 * (64 + 2)) + 2 ^ (8 * (64 + 4)) + d * 2 ^ (8 * (64 + 20)))

/-- Group 0 is of queue 0, whose head is placed on its tile 0. -/
def groupHead : State :=
  let s := ((queued [{ item 0 0 (desc64 [(4, 1)]) .waiting with image := image1 1 }]).setFld F.CFE_Q_CFG.CLASS 0 0)
  ((s.setFld F.CRS_C0_GROUP.VALID 0 1).setFld F.CRS_C0_GROUP.QUEUE 0 0).setFld F.CRS_C0_GROUP.TILE_COUNT 0 1

def placedNow (r : Option (Item × Nat × Placed) × State) : Bool :=
  match r.1 with
  | some (_, _, .now _ _) => true
  | _ => false

theorem now_of {r : Option (Item × Nat × Placed) × State} (h : placedNow r = true) :
    ∃ i idx pl c s2, r = (some (i, idx, .now pl c), s2) := by
  unfold placedNow at h
  split at h
  · exact ⟨_, _, _, _, _, Prod.ext (by assumption) rfl⟩
  · cases h

theorem witness_Courses_plan : let s := groupHead
    s.closed0 = false ∧ s.ready = true ∧ s.halted = false ∧ s.blocks = [] ∧ s.fld F.HOD_HOSTLOSS.STATE 0 = 0 ∧
      (∀ h, h < 16 → (s.fld F.CRS_C0_GROUP.VALID h = 1 ↔ h = 0)) ∧ s.fld F.CRS_C0_GROUP.QUEUE 0 = 0 ∧ s.qState 0 ≠ 0 ∧
      s.qClass 0 = 0 ∧ ∃ i idx pl c s2, ({ s with closed0 := true } : State).head 0 none = (some (i, idx, .now pl c), s2) :=
  ⟨by decide +kernel, by decide +kernel, by decide +kernel, by decide +kernel, by decide +kernel, by decide +kernel,
    by decide +kernel, by decide +kernel, by decide +kernel, now_of (by decide +kernel)⟩

theorem witness_StepRunsFront : up.pending = [] := rfl

theorem witness_MemoryCanonical : let s := { up with pending := [.plinthScrub 0] }
    Memory.wf s = true ∧ Scratch.wf s = true ∧ ∃ u, step s = .next u := ⟨by decide +kernel, by decide +kernel, _, rfl⟩

theorem witness_CapabilitiesFixed : ∃ u, step State.reset = .next u := ⟨_, rfl⟩
end

section
/-! PROOFS. The state after a power-on reset (O58). -/
namespace Sys2Proof.Machine

/-- Right after reset no register is stored, so a field reads its reset value at every index. -/
theorem State.fld_reset (f : Fld) (i : Nat) : State.reset.fld f i = getField f.reg.reset f.hi f.lo := rfl

theorem State.memByte_reset (a : Nat) : State.reset.memByte a = 0 := rfl

theorem State.partState_reset (p : Nat) (h : p < 8) : State.reset.partState p = 0 := by
  have reset : getField (RegKind.reset .SEC_PART) F.SEC_PART.STATE.hi F.SEC_PART.STATE.lo = 0 := by decide
  rw [State.partState, if_neg (by omega), State.fld_reset]
  exact reset

/-- CAP_ID's stepping is fused, hence open: only the field PART of it has a known value. -/
theorem State.shows_reset : State.reset.shows .cz9768 := by
  have id : getField (State.reset.view 8 .CAP_ID 0) F.CAP_ID.PART.hi F.CAP_ID.PART.lo = Part.cz9768.id % 2 ^ 16 :=
    getField_setField _ _ _ _ (by decide) (by decide)
  exact ⟨by decide +kernel, by decide +kernel, id⟩

/-- Settles O58: every store is empty after reset, so that each read gives the reset value of what it reads. -/
theorem resetState : Obligations.ResetState := by
  have zero (f : Fld) (i : Nat) (e : getField f.reg.reset f.hi f.lo = 0) : State.reset.fld f i = 0 :=
    (State.fld_reset f i).trans e
  have ready : State.reset.ready = false := by decide
  have halted : State.reset.halted = false := by decide
  have valid (c : Nat) : State.reset.ctxValid c = false := by
    rw [State.ctxValid, State.on, zero _ c (by decide)]; rfl
  exact ⟨rfl, rfl, rfl, rfl, rfl, ready, halted, rfl, zero _ 0 (by decide), State.shows_reset, State.memByte_reset, fun _ => rfl,
    fun q _ => zero _ q (by decide), State.partState_reset, fun c _ => valid c,
    fun n _ => (State.fld_reset _ n).trans (by decide), fun t _ => zero _ t (by decide)⟩

end Sys2Proof.Machine
end

section
/-! PROOFS. Writes to CRS_SHARE and CRS_SLICE (O55). -/
namespace Sys2Proof.Machine

/-- CFG_EPOCH counted a change between two states (R413). -/
def State.epochCounts (s u : State) : Prop :=
  u.fld F.CFG_EPOCH.EPOCH 0 = (s.fld F.CFG_EPOCH.EPOCH 0 + 1) % 2 ^ 64 ∧ u.fld F.CFG_EVENT.EPOCH 0 = 1

/-- What a runtime write changes: its register at address `a` and those that count the change. -/
def epochRegs (a : Nat) : List Nat := [a, F.CFG_EPOCH.EPOCH.at 0, F.CFG_EVENT.EPOCH.at 0]

section
variable (s : State)

theorem State.epochCounts_epoch : s.epochCounts s.epoch := by
  refine ⟨?_, State.fld_setFld_self _ _ 0 1 (by decide)⟩
  calc (s.epoch).fld F.CFG_EPOCH.EPOCH 0
      = (s.setFld F.CFG_EPOCH.EPOCH 0 (s.fld F.CFG_EPOCH.EPOCH 0 + 1)).fld F.CFG_EPOCH.EPOCH 0 :=
        State.fld_setFld_other _ _ _ 0 0 _ (by decide)
    _ = (s.fld F.CFG_EPOCH.EPOCH 0 + 1) % 2 ^ 64 := State.fld_setFld_self _ _ 0 _ (by decide)

theorem State.find?_epoch {a : Nat} (h : a ∉ [F.CFG_EPOCH.EPOCH.at 0, F.CFG_EVENT.EPOCH.at 0]) :
    SMap.find? s.epoch.regs a = SMap.find? s.regs a := by
  simp only [List.mem_cons, List.not_mem_nil, or_false, not_or] at h
  obtain ⟨notEpoch, notEvent⟩ := h
  exact ((State.find?_setFld _ _ 0 1 a).trans (if_neg notEvent)).trans
    ((State.find?_setFld _ _ 0 _ a).trans (if_neg notEpoch))

theorem State.reg_epoch {k : RegKind} (h : k.place.addr 0 ∉ [F.CFG_EPOCH.EPOCH.at 0, F.CFG_EVENT.EPOCH.at 0]) :
    s.epoch.reg k 0 = s.reg k 0 := by
  simp only [State.reg, SMap.get, State.find?_epoch s h]

variable (k : RegKind) (v : Word)

/-- A runtime write of a register outside CFG_EPOCH and CFG_EVENT: the value is taken, and a changed one is counted. -/
theorem State.writeRuntime_spec (h : k.place.addr 0 ∉ [F.CFG_EPOCH.EPOCH.at 0, F.CFG_EVENT.EPOCH.at 0]) :
    (s.writeRuntime k v).reg k 0 = v ∧ s.onlyRegs (s.writeRuntime k v) (epochRegs (k.place.addr 0)) ∧
    ((s.writeRuntime k v).reg k 0 ≠ s.reg k 0 → s.epochCounts (s.writeRuntime k v)) ∧
    ((s.writeRuntime k v).reg k 0 = s.reg k 0 → s.writeRuntime k v = s) := by
  by_cases same : s.reg k 0 = v
  · rw [State.writeRuntime, if_pos same]
    exact ⟨same, ⟨fun _ _ => rfl, rfl⟩, fun ne => absurd rfl ne, fun _ => rfl⟩
  have taken : (s.setReg k 0 v).epoch.reg k 0 = v := (State.reg_epoch _ h).trans (State.reg_setReg_self s k 0 v)
  rw [State.writeRuntime, if_neg same]
  refine ⟨taken, ⟨fun a ha => ?_, rfl⟩, fun _ => ?_, fun e => absurd (e.symm.trans taken) same⟩
  · obtain ⟨notReg, notCount⟩ := not_or.1 (List.mem_cons.not.1 ha)
    rw [State.find?_epoch _ notCount, State.find?_setReg, if_neg notReg]
  · obtain ⟨notEpoch, notEvent⟩ := not_or.1 (List.mem_cons.not.1 h)
    have before : (s.setReg k 0 v).fld F.CFG_EPOCH.EPOCH 0 = s.fld F.CFG_EPOCH.EPOCH 0 :=
      State.fld_setReg_other s k _ 0 0 v fun e => notEpoch e.symm
    obtain ⟨epoch, event⟩ := State.epochCounts_epoch (s.setReg k 0 v)
    exact ⟨before ▸ epoch, event⟩
end

theorem getField_ofNat (n hi lo : Nat) (h : n < 2 ^ 64) : getField (BitVec.ofNat 64 n) hi lo = bits n hi lo := by
  rw [getField, BitVec.toNat_ofNat, Nat.mod_eq_of_lt h]

/-- Two fields of eight bits, packed. -/
theorem bits_pack2 (a b : Nat) (ha : a < 2 ^ 8) (hb : b < 2 ^ 8) :
    bits (a * 2 ^ 8 + b) 15 8 = a ∧ bits (a * 2 ^ 8 + b) 7 0 = b := by
  simp only [bits, Nat.shiftRight_eq_div_pow]
  omega

/-- Three fields of seven bits, packed. -/
theorem bits_pack3 (a b c : Nat) (ha : a < 2 ^ 7) (hb : b < 2 ^ 7) (hc : c < 2 ^ 7) :
    bits (a * 2 ^ 14 + b * 2 ^ 7 + c) 20 14 = a ∧ bits (a * 2 ^ 14 + b * 2 ^ 7 + c) 13 7 = b ∧
      bits (a * 2 ^ 14 + b * 2 ^ 7 + c) 6 0 = c := by
  simp only [bits, Nat.shiftRight_eq_div_pow]
  omega

/-- Settles O55: both commands are one runtime write (R413) of the clamped fields, packed. -/
theorem shareWrites : Obligations.ShareWrites := by
  intro s v rails
  constructor
  · obtain ⟨hc2, hc3⟩ : min 128 (getField v 15 8) < 2 ^ 8 ∧ min 128 (getField v 7 0) < 2 ^ 8 := by omega
    obtain ⟨hi, lo⟩ := bits_pack2 _ _ hc2 hc3
    obtain ⟨value, only, counts, still⟩ := State.writeRuntime_spec s .CRS_SHARE
      (BitVec.ofNat 64 (min 128 (getField v 15 8) * 2 ^ 8 + min 128 (getField v 7 0))) (by decide)
    refine ⟨_, congrArg Host.Outcome.next (if_pos rails), ?_, ?_, only, counts, still⟩
    · exact (congrArg (getField · 15 8) value).trans ((getField_ofNat _ _ _ (by omega)).trans hi)
    · exact (congrArg (getField · 7 0) value).trans ((getField_ofNat _ _ _ (by omega)).trans lo)
  · obtain ⟨h3, h2, h1⟩ : max 1 (min 64 (getField v 20 14)) < 2 ^ 7 ∧ max 1 (min 64 (getField v 13 7)) < 2 ^ 7 ∧
        max 1 (min 64 (getField v 6 0)) < 2 ^ 7 := by omega
    obtain ⟨c3, c2, c1⟩ := bits_pack3 _ _ _ h3 h2 h1
    obtain ⟨value, only, counts, still⟩ := State.writeRuntime_spec s .CRS_SLICE
      (BitVec.ofNat 64 (max 1 (min 64 (getField v 20 14)) * 2 ^ 14 + max 1 (min 64 (getField v 13 7)) * 2 ^ 7 +
        max 1 (min 64 (getField v 6 0)))) (by decide)
    refine ⟨_, congrArg Host.Outcome.next (if_pos rails), ?_, ?_, ?_, only, counts, still⟩
    · exact (congrArg (getField · 6 0) value).trans ((getField_ofNat _ _ _ (by omega)).trans c1)
    · exact (congrArg (getField · 13 7) value).trans ((getField_ofNat _ _ _ (by omega)).trans c2)
    · exact (congrArg (getField · 20 14) value).trans ((getField_ofNat _ _ _ (by omega)).trans c3)

end Sys2Proof.Machine
end

section
/-! PROOFS. Register reads and writes under the access codes (O40). -/
namespace Sys2Proof.Machine

/-! ### The field maps -/

/-- The values that a field supports fit in its bits. -/
def Fld.roomy (f : Fld) : Bool := match f.clamp with
  | .range a b => max a b < 2 ^ (f.hi + 1 - f.lo)
  | _ => true

/-- The field maps: each field lies in its register's 64 bits, apart from the others, with room for what it supports. -/
theorem RegKind.fields_tidy (k : RegKind) :
    (∀ f ∈ k.fields, f.reg = k ∧ f.lo ≤ f.hi ∧ f.hi < 64 ∧ f.roomy = true) ∧
      k.fields.Pairwise fun f g => g.hi < f.lo ∨ f.hi < g.lo := by
  cases k <;> decide

/-- Fields of code W1S lie only in registers a write of which is a command of its own. -/
theorem RegKind.acc_ne_w1s (k : RegKind) (h : actsOnWrite k = false) : ∀ f ∈ k.fields, f.acc ≠ .w1s := by
  revert h
  cases k <;> decide

/-- CFG_STATE and the registers that count writes to locked fields have no RW field, and CFG_STATE only RO ones. -/
theorem RegKind.locks_readOnly (k : RegKind) (h : k = .CFG_STATE ∨ k = .CFG_LOCKED_WRITES ∨ k = .CFG_EVENT) :
    (∀ f ∈ k.fields, ¬ (f.acc = .rw)) ∧ (k = .CFG_STATE → ∀ f ∈ k.fields, f.acc = .ro) := by
  rcases h with rfl | rfl | rfl <;> decide

theorem Fld.fit_lt (f : Fld) (v : Nat) (h : f.roomy = true) : f.fit v < 2 ^ (f.hi + 1 - f.lo) := by
  have pos : 0 < 2 ^ (f.hi + 1 - f.lo) := by positivity
  unfold Fld.fit
  split
  · show min v (2 ^ (f.hi + 1 - f.lo) - 1) < _
    omega
  · rename_i a b clamp
    rw [Fld.roomy, clamp, decide_eq_true_eq] at h
    show max a (min b v) < _
    omega
  · exact (Int.toNat_lt (Int.emod_nonneg _ (by omega))).2 (Int.emod_lt_of_pos _ (by omega))

/-- What a merge leaves in a field is read from the field before it and the value. -/
theorem getField_merge_congr (w w' v : Word) (hi lo h l : Nat) (ho : lo ≤ hi) (hh : hi < 64) (e : getField w h l = getField w' h l) :
    getField (merge w v hi lo) h l = getField (merge w' v hi lo) h l := by
  apply Nat.eq_of_testBit_eq
  intro i
  have e := congrArg (Nat.testBit · i) e
  simp only [getField_testBit] at e ⊢
  by_cases inside : lo ≤ l + i ∧ l + i ≤ hi
  · have mid (x : Word) : (merge x v hi lo).toNat.testBit (l + i) = v.toNat.testBit (l + i) := by
      have put := congrArg (Nat.testBit · (l + i - lo)) (getField_setField x hi lo (getField v hi lo) ho hh)
      simp only [getField_testBit, Nat.testBit_mod_two_pow] at put
      rw [show lo + (l + i - lo) = l + i by omega] at put
      simpa [merge, show l + i - lo < hi + 1 - lo by omega] using put
    rw [mid w, mid w']
  · have out (x : Word) : (merge x v hi lo).toNat.testBit (l + i) = x.toNat.testBit (l + i) :=
      setField_testBit_other _ _ _ _ _ ho hh (by omega)
    rw [out w, out w', e]

/-! ### Frames over registers -/

section
variable {s u : State} {as : List Nat}

theorem State.onlyRegs.refl : s.onlyRegs s as := ⟨fun _ _ => rfl, rfl⟩

theorem State.onlyRegs.setFld {f : Fld} {i n : Nat} (h : s.onlyRegs u as) (within : f.at i ∈ as) : s.onlyRegs (u.setFld f i n) as := by
  obtain ⟨regs, rest⟩ := h
  refine ⟨fun a ha => ?_, congrArg (fun x : State => { x with regs := (u.setFld f i n).regs }) rest⟩
  have apart : a ≠ f.reg.place.addr i := fun e => ha (e ▸ within)
  rw [State.find?_setFld, if_neg apart, regs a ha]

theorem State.onlyRegs.mono {bs : List Nat} (h : s.onlyRegs u as) (sub : as ⊆ bs) : s.onlyRegs u bs :=
  ⟨fun a ha => h.1 a fun m => ha (sub m), h.2⟩

theorem State.onlyRegs.fld (h : s.onlyRegs u as) {f : Fld} {i : Nat} (apart : f.at i ∉ as) : u.fld f i = s.fld f i := by
  have same : u.reg f.reg i = s.reg f.reg i := congrArg (Option.getD · f.reg.reset) (h.1 _ apart)
  rw [State.fld, same]; rfl

theorem State.onlyRegs.fld_apart {a : Nat} (h : s.onlyRegs u [a]) {f : Fld} {i : Nat} (apart : a ≠ f.reg.place.addr i) :
    u.fld f i = s.fld f i := h.fld (List.mem_singleton.not.2 apart.symm)

end

/-! ### One step for each field of a register -/

/-- A step over the fields of the registers of index `i` that sets the field it is given, or nothing. -/
def setsOwn (i : Nat) (upd : State → Fld → State) : Prop := ∀ s f, upd s f = s ∨ ∃ n, upd s f = s.setFld f i n

section
variable {i : Nat} {upd : State → Fld → State} {l : List Fld} {k : RegKind} {s u : State}

theorem setsOwn.onlyRegs_step (h : setsOwn i upd) {f : Fld} (hf : f.reg = k) (o : s.onlyRegs u [k.place.addr i]) :
    s.onlyRegs (upd u f) [k.place.addr i] := by
  rcases h u f with e | ⟨n, e⟩ <;> rw [e]
  · exact o
  · exact o.setFld (by simp [Fld.at, hf])

theorem setsOwn.onlyRegs_foldl (h : setsOwn i upd) (hl : ∀ f ∈ l, f.reg = k) (o : s.onlyRegs u [k.place.addr i]) :
    s.onlyRegs (l.foldl upd u) [k.place.addr i] := by
  induction l generalizing u with
  | nil => exact o
  | cons f l ih => exact ih (fun g hg => hl g (List.mem_cons_of_mem _ hg)) (h.onlyRegs_step (hl f List.mem_cons_self) o)

theorem setsOwn.fld_beside (h : setsOwn i upd) {f g : Fld} (hf : f.lo ≤ f.hi ∧ f.hi < 64) (e : g.reg = f.reg)
    (d : g.hi < f.lo ∨ f.hi < g.lo) : (upd s f).fld g i = s.fld g i := by
  rcases h s f with e' | ⟨n, e'⟩ <;> rw [e']
  exact State.fld_setFld_beside s f g i n hf e d

theorem setsOwn.fld_foldl_beside (h : setsOwn i upd) {g : Fld} (hl : ∀ f ∈ l, (f.lo ≤ f.hi ∧ f.hi < 64) ∧ g.reg = f.reg)
    (d : ∀ f ∈ l, g.hi < f.lo ∨ f.hi < g.lo) : (l.foldl upd s).fld g i = s.fld g i := by
  induction l generalizing s with
  | nil => rfl
  | cons f l ih =>
    obtain ⟨⟨hf, reg⟩, hl⟩ := List.forall_mem_cons.1 hl
    obtain ⟨df, d⟩ := List.forall_mem_cons.1 d
    exact (ih hl d).trans (h.fld_beside hf reg df)

/-- Where a step reads only its own field and what no step changes, each field ends as its own step leaves it. -/
theorem setsOwn.fld_foldl (h : setsOwn i upd) (env : State → Nat) (kept : ∀ s, ∀ f ∈ l, env (upd s f) = env s)
    (own : ∀ s u f, f ∈ l → env s = env u → s.fld f i = u.fld f i → (upd s f).fld f i = (upd u f).fld f i)
    (hl : ∀ f ∈ l, f.reg = k ∧ f.lo ≤ f.hi ∧ f.hi < 64) (apart : l.Pairwise fun f g => g.hi < f.lo ∨ f.hi < g.lo) :
    ∀ f ∈ l, (l.foldl upd s).fld f i = (upd s f).fld f i := by
  induction l generalizing s with
  | nil => simp
  | cons f l ih =>
    obtain ⟨⟨reg, bits⟩, hl⟩ := List.forall_mem_cons.1 hl
    obtain ⟨df, apart⟩ := List.pairwise_cons.1 apart
    obtain ⟨keptF, keptL⟩ : (∀ s, env (upd s f) = env s) ∧ ∀ s, ∀ g ∈ l, env (upd s g) = env s :=
      ⟨fun s => kept s f List.mem_cons_self, fun s g hg => kept s g (List.mem_cons_of_mem _ hg)⟩
    refine List.forall_mem_cons.2 ⟨?_, fun g hg => ?_⟩
    · exact h.fld_foldl_beside (fun g hg => ⟨(hl g hg).2, reg.trans (hl g hg).1.symm⟩) fun g hg => (df g hg).symm
    · have beside : (upd s f).fld g i = s.fld g i := h.fld_beside bits ((hl g hg).1.trans reg.symm) (df g hg)
      calc (l.foldl upd (upd s f)).fld g i
          = (upd (upd s f) g).fld g i :=
            ih keptL (fun s u g hg => own s u g (List.mem_cons_of_mem _ hg)) hl apart g hg
        _ = (upd s g).fld g i := own _ _ g (List.mem_cons_of_mem _ hg) (keptF s) beside

end

/-! ### The register at an address -/

/-- The register index names register `i` of kind `k` at its own address. -/
def named (k : RegKind) (i : Nat) : Prop := regAt (k.place.addr i) = some ⟨k, i⟩

theorem Place.addr_of_find {p : Place} {a i : Nat} (h : p.find a = some i) : p.addr i = a := by
  simp only [Place.find, Option.ite_none_right_eq_some, Option.some.injEq] at h
  obtain ⟨⟨-, -, at_⟩, rfl⟩ := h
  exact at_

theorem named_of_regAt {a : Nat} {r : Reg} (h : regAt a = some r) : named r.kind r.idx := by
  obtain ⟨k, -, found⟩ := List.exists_of_findSome?_eq_some h
  obtain ⟨i, at_, rfl⟩ := Option.map_eq_some_iff.1 found
  rw [named, Place.addr_of_find at_, h]

theorem named.apart {k k' : RegKind} {i i' : Nat} (h : named k i) (h' : named k' i') (ne : k ≠ k') :
    k.place.addr i ≠ k'.place.addr i' := by
  intro e
  have both := h.symm.trans ((congrArg regAt e).trans h')
  injection both with both
  injection both with both
  exact ne both

/-- What the register index finds at the address decides. Proved from the unapplied definition: the kernel then compares the two
bodies and does not search the index. -/
theorem State.target_spec (s : State) (tag pa : Nat) (write : Bool) :
    ∃ r, regAt (pa / 8 * 8) = r ∧ s.target tag pa write = match r with
      | some r => if s.part.hasReg r.kind r.idx && s.mayReach tag r.kind r.idx write then .reg r.kind r.idx else .none
      | none => .none := by
  have body : State.target = fun s tag pa write => match regAt (pa / 8 * 8) with
      | some r => if s.part.hasReg r.kind r.idx && s.mayReach tag r.kind r.idx write then .reg r.kind r.idx else .none
      | none => .none := rfl
  exact ⟨_, rfl, congrFun (congrFun (congrFun (congrFun body s) tag) pa) write⟩

theorem named_of_target {s : State} {tag pa i : Nat} {write : Bool} {k : RegKind} (h : s.target tag pa write = .reg k i) :
    named k i := by
  obtain ⟨r, found, e⟩ := s.target_spec tag pa write
  rw [e] at h
  cases r with
  | none => cases h
  | some r =>
    dsimp only at h
    split at h <;> cases h
    exact named_of_regAt found

theorem named_of_bar0 {s : State} {fn o i : Nat} {write : Bool} {k : RegKind} (h : s.bar0 fn o write = .reg k i) : named k i := by
  rw [State.bar0] at h
  by_cases shut : (if fn = 0 then !s.bar0Open o else s.recovering || !s.timer) = true
  · rw [if_pos shut] at h; cases h
  rw [if_neg shut] at h
  split at h
  · cases h
  split at h
  · cases h
  split at h
  · cases h
  · exact named_of_target h

theorem named_of_regMeets {s : State} {a : RegAcc} {i : Nat} {write : Bool} {k : RegKind} (h : s.regMeets a write = .reg k i) :
    named k i := by
  unfold State.regMeets at h
  split at h
  · exact named_of_bar0 h
  · exact named_of_target h

theorem named_CFG_STATE : named .CFG_STATE 0 := by unfold named; decide +kernel
theorem named_CFG_EVENT : named .CFG_EVENT 0 := by unfold named; decide +kernel
theorem named_CFG_LOCKED_WRITES : named .CFG_LOCKED_WRITES 0 := by unfold named; decide +kernel

/-! ### A write under the access codes -/

/-- The value a field holds after a write of bits `hi` to `lo` of register `i` of kind `k`. -/
def State.takes (s : State) (k : RegKind) (i : Nat) (v : Word) (hi lo : Nat) (f : Fld) : Nat :=
  if f.meets hi lo = true ∧ f.acc = .rw ∧ ¬ (f.cls = .config ∧ s.fld F.CFG_STATE.LOCKED 0 = 1) then
    f.fit (getField (merge (s.reg k i) v hi lo) f.hi f.lo)
  else if f.meets hi lo = true ∧ f.acc = .w1c ∧ v.toNat.testBit f.lo = true then 0 else s.fld f i

/-- A write of bits `hi` to `lo` reaches a locked configuration field of the register. -/
def State.hitsLock (s : State) (k : RegKind) (hi lo : Nat) : Prop :=
  s.fld F.CFG_STATE.LOCKED 0 = 1 ∧ ∃ f ∈ k.fields, f.acc = .rw ∧ f.cls = .config ∧ f.meets hi lo = true

section
variable {s u : State} {k : RegKind} {i hi lo : Nat} {v : Word} {f : Fld}

theorem setsOwn_writeFld : setsOwn i fun s f => s.writeFld i v hi lo f := by
  intro s f
  dsimp only
  unfold State.writeFld
  split
  · exact .inl rfl
  split
  · split
    · exact .inl rfl
    · exact .inr ⟨_, rfl⟩
  · split
    · exact .inr ⟨_, rfl⟩
    · exact .inl rfl
  · split
    · exact .inr ⟨_, rfl⟩
    · exact .inl rfl
  all_goals exact .inl rfl

theorem State.writeFld_own (hf : f ∈ k.fields) (noSet : f.acc ≠ .w1s) : (s.writeFld i v hi lo f).fld f i = s.takes k i v hi lo f := by
  obtain ⟨reg, le, lt, roomy⟩ := k.fields_tidy.1 f hf
  have own (n : Nat) (h : n < 2 ^ (f.hi + 1 - f.lo)) : (s.setFld f i n).fld f i = n := by
    rw [State.fld_setFld_self s f i n ⟨le, lt⟩, Nat.mod_eq_of_lt h]
  unfold State.writeFld State.takes
  by_cases meets : f.meets hi lo = true
  swap
  · simp [meets]
  cases acc : f.acc with
  | rw =>
    by_cases locked : f.cls = .config ∧ s.fld F.CFG_STATE.LOCKED 0 = 1
    · simp [meets, State.on, locked]
    · have put := own _ (Fld.fit_lt f (getField (merge (s.reg f.reg i) v hi lo) f.hi f.lo) roomy)
      rw [reg] at put
      simpa [meets, State.on, locked, reg] using put
  | w1c =>
    by_cases one : v.toNat.testBit f.lo = true
    · simpa [meets, one] using own 0 (by positivity)
    · simp [meets, one]
  | w1s => exact absurd acc noSet
  | ro => simp [meets]
  | wo => simp [meets]
  | rc => simp [meets]

theorem State.writeFld_keepsLocked (h : named k i) (hf : f ∈ k.fields) :
    (s.writeFld i v hi lo f).fld F.CFG_STATE.LOCKED 0 = s.fld F.CFG_STATE.LOCKED 0 := by
  by_cases ek : k = .CFG_STATE
  · have ro := (k.locks_readOnly (.inl ek)).2 ek f hf
    simp [State.writeFld, ro]
  · have only : s.onlyRegs (s.writeFld i v hi lo f) [k.place.addr i] :=
      setsOwn_writeFld.onlyRegs_step (k.fields_tidy.1 f hf).1 .refl
    refine only.fld_apart (h.apart named_CFG_STATE ek)

end

/-- What a write of bits `hi` to `lo` of register `i` of kind `k` does under the access codes: `took` says what each
field holds after it. -/
structure State.wrote (s u : State) (k : RegKind) (i hi lo : Nat) (took : Fld → Nat) : Prop where
  fields : ∀ f ∈ k.fields, u.fld f i = took f
  frame : ¬ s.hitsLock k hi lo → s.onlyRegs u [k.place.addr i]
  counted : s.hitsLock k hi lo → u.fld F.CFG_EVENT.LOCKED_WRITE 0 = 1 ∧
    u.fld F.CFG_LOCKED_WRITES.COUNT 0 = min (s.fld F.CFG_LOCKED_WRITES.COUNT 0 + 1) (2 ^ 64 - 1) ∧
    s.onlyRegs u [k.place.addr i, F.CFG_EVENT.LOCKED_WRITE.at 0, F.CFG_LOCKED_WRITES.COUNT.at 0]

section
variable {s u : State} {k : RegKind} {i hi lo : Nat} {v : Word}

theorem State.fld_bump (s : State) (f : Fld) (i n : Nat) (h : f.lo ≤ f.hi ∧ f.hi < 64) :
    (s.bump f i n).fld f i = min (s.fld f i + n) (2 ^ (f.hi + 1 - f.lo) - 1) := by
  have pos : 0 < 2 ^ (f.hi + 1 - f.lo) := by positivity
  rw [State.bump, State.fld_setFld_self s f i _ h, Nat.mod_eq_of_lt (by omega)]

theorem State.hitsLock_iff : (s.on F.CFG_STATE.LOCKED 0 && k.fields.any fun f => f.acc = .rw && f.cls = .config && f.meets hi lo) = true ↔
    s.hitsLock k hi lo := by
  simp only [State.hitsLock, State.on, Bool.and_eq_true, decide_eq_true_eq, List.any_eq_true, and_assoc]

theorem State.takes_congr {f : Fld} (hf : f.reg = k) (span : lo ≤ hi ∧ hi < 64)
    (locked : s.fld F.CFG_STATE.LOCKED 0 = u.fld F.CFG_STATE.LOCKED 0) (own : s.fld f i = u.fld f i) :
    s.takes k i v hi lo f = u.takes k i v hi lo f := by
  have merged : getField (merge (s.reg k i) v hi lo) f.hi f.lo = getField (merge (u.reg k i) v hi lo) f.hi f.lo :=
    getField_merge_congr _ _ _ _ _ _ _ span.1 span.2 (by rw [State.fld, State.fld, hf] at own; exact own)
  rw [State.takes, State.takes, locked, own, merged]

theorem State.fld_foldl_writeFld (h : named k i) (plain : actsOnWrite k = false) (span : lo ≤ hi ∧ hi < 64) : ∀ f ∈ k.fields,
    (k.fields.foldl (fun s f => s.writeFld i v hi lo f) s).fld f i = s.takes k i v hi lo f := by
  obtain ⟨tidy, apart⟩ := k.fields_tidy
  have alone (s : State) (f : Fld) (hf : f ∈ k.fields) : (s.writeFld i v hi lo f).fld f i = s.takes k i v hi lo f :=
    State.writeFld_own hf (k.acc_ne_w1s plain f hf)
  intro f hf
  rw [← alone s f hf]
  refine setsOwn_writeFld.fld_foldl (k := k) (fun s => s.fld F.CFG_STATE.LOCKED 0) (fun s f hf => State.writeFld_keepsLocked h hf)
    (fun s u f hf locked own => ?_) (fun f hf => ?_) apart f hf
  · rw [alone s f hf, alone u f hf, State.takes_congr (tidy f hf).1 span locked own]
  · obtain ⟨reg, le, lt, -⟩ := tidy f hf
    exact ⟨reg, le, lt⟩

theorem State.writeFields_wrote (h : named k i) (plain : actsOnWrite k = false) (span : lo ≤ hi ∧ hi < 64) :
    s.wrote (s.writeFields k i v hi lo) k i hi lo (s.takes k i v hi lo) := by
  have only : s.onlyRegs (k.fields.foldl (fun s f => s.writeFld i v hi lo f) s) [k.place.addr i] :=
    setsOwn_writeFld.onlyRegs_foldl (fun f hf => (k.fields_tidy.1 f hf).1) .refl
  have fields := State.fld_foldl_writeFld (s := s) (v := v) (hi := hi) (lo := lo) h plain span
  by_cases hit : s.hitsLock k hi lo
  swap
  · rw [State.writeFields, if_neg (State.hitsLock_iff.not.2 hit)]
    exact ⟨fields, fun _ => only, fun h => absurd h hit⟩
  obtain ⟨g, hg, rw_, -⟩ := hit.2
  have neCount : k ≠ .CFG_LOCKED_WRITES := fun e => (k.locks_readOnly (.inr (.inl e))).1 g hg rw_
  have neEvent : k ≠ .CFG_EVENT := fun e => (k.locks_readOnly (.inr (.inr e))).1 g hg rw_
  have count := h.apart named_CFG_LOCKED_WRITES neCount
  have event := h.apart named_CFG_EVENT neEvent
  rw [State.writeFields, if_pos (State.hitsLock_iff.2 hit)]
  generalize k.fields.foldl (fun s f => s.writeFld i v hi lo f) s = x at only fields
  have x_count : x.fld F.CFG_LOCKED_WRITES.COUNT 0 = s.fld F.CFG_LOCKED_WRITES.COUNT 0 :=
    only.fld_apart count
  refine ⟨fun f hf => ?_, fun h => absurd hit h, fun _ => ⟨?_, ?_, ?_⟩⟩
  · have reg := (k.fields_tidy.1 f hf).1
    rw [← fields f hf, State.raise, State.fld_setFld_other _ _ _ _ _ _ (by rw [reg]; exact event), State.bump,
      State.fld_setFld_other _ _ _ _ _ _ (by rw [reg]; exact count)]
  · exact State.fld_setFld_self _ _ 0 1 (by decide)
  · rw [State.raise, State.fld_setFld_other _ _ _ _ _ _ (by decide), State.fld_bump _ _ _ _ (by decide), x_count]
    rfl
  · exact ((only.mono (by simp)).setFld (f := F.CFG_LOCKED_WRITES.COUNT) (i := 0) (by simp)).setFld (by simp)

/-- What the fields hold after a write: as `takes` says, but for TILE_COUNT, fitted to FIRST_TILE as that holds after it. -/
def State.fitted (s u : State) (k : RegKind) (i : Nat) (v : Word) (hi lo : Nat) (f : Fld) : Nat :=
  if f = F.CRS_C0_GROUP.TILE_COUNT then min (s.takes k i v hi lo f) (800 - u.fld F.CRS_C0_GROUP.FIRST_TILE i)
  else s.takes k i v hi lo f

theorem State.writeReg_eq (h : k ≠ .CRS_C0_GROUP) (plain : actsOnWrite k = false) :
    s.writeReg k i v hi lo = s.writeFields k i v hi lo := by
  cases k <;> simp only [actsOnWrite, reduceCtorEq, ne_eq, not_true_eq_false] at plain h <;> rfl

theorem State.writeReg_wrote (h : named k i) (plain : actsOnWrite k = false) (span : lo ≤ hi ∧ hi < 64) :
    s.wrote (s.writeReg k i v hi lo) k i hi lo (s.fitted (s.writeReg k i v hi lo) k i v hi lo) := by
  obtain ⟨fields, frame, counted⟩ := State.writeFields_wrote (s := s) (v := v) h plain span
  by_cases group : k = .CRS_C0_GROUP
  swap
  · rw [State.writeReg_eq group plain]
    refine ⟨fun f hf => ?_, frame, counted⟩
    have ne : f ≠ F.CRS_C0_GROUP.TILE_COUNT := fun e => group ((k.fields_tidy.1 f hf).1.symm.trans (congrArg Fld.reg e))
    rw [State.fitted, if_neg ne, fields f hf]
  subst group
  show s.wrote ((s.writeFields .CRS_C0_GROUP i v hi lo).fitGroup i) _ _ _ _
    (s.fitted ((s.writeFields .CRS_C0_GROUP i v hi lo).fitGroup i) _ _ _ _ _)
  generalize s.writeFields .CRS_C0_GROUP i v hi lo = x at fields frame counted
  have group : F.CRS_C0_GROUP.TILE_COUNT.at i ∈ [RegKind.CRS_C0_GROUP.place.addr i] := List.mem_singleton_self _
  have first : (x.fitGroup i).fld F.CRS_C0_GROUP.FIRST_TILE i = x.fld F.CRS_C0_GROUP.FIRST_TILE i :=
    State.fld_setFld_beside _ _ _ _ _ (by decide) rfl (by decide)
  refine ⟨fun f hf => ?_, fun no => (frame no).setFld group, fun hit => ?_⟩
  · rw [State.fitted, ← fields f hf, first]
    split
    · subst f
      have lt : x.fld F.CRS_C0_GROUP.TILE_COUNT i < 2 ^ 10 := bits_lt _ 41 32
      rw [State.fitGroup, State.fld_setFld_self _ _ _ _ (by decide), Nat.mod_eq_of_lt (by show min _ _ < 2 ^ 10; omega)]
    · have beside : ∀ f ∈ RegKind.CRS_C0_GROUP.fields, f ≠ F.CRS_C0_GROUP.TILE_COUNT →
          f.hi < F.CRS_C0_GROUP.TILE_COUNT.lo ∨ F.CRS_C0_GROUP.TILE_COUNT.hi < f.lo := by decide
      exact State.fld_setFld_beside _ _ _ _ _ (by decide) ((RegKind.fields_tidy _).1 f hf).1 (beside f hf ‹_›)
  · obtain ⟨event, count, only⟩ := counted hit
    have fit : x.onlyRegs (x.fitGroup i) [RegKind.CRS_C0_GROUP.place.addr i] := State.onlyRegs.refl.setFld group
    exact ⟨(fit.fld_apart (f := F.CFG_EVENT.LOCKED_WRITE) (h.apart named_CFG_EVENT (by decide))).trans event,
      (fit.fld_apart (f := F.CFG_LOCKED_WRITES.COUNT) (h.apart named_CFG_LOCKED_WRITES (by decide))).trans count,
      only.setFld (List.mem_cons_self)⟩

end

/-! ### A read -/

section
variable {s : State} {k : RegKind} {i hi lo : Nat}

theorem setsOwn_clearRc : setsOwn i fun s f => if (f.acc = .rc && f.within hi lo) = true then s.setFld f i 0 else s := by
  intro s f
  dsimp only
  split
  · exact .inr ⟨0, rfl⟩
  · exact .inl rfl

theorem State.onlyRegs_clearRc : s.onlyRegs (s.clearRc k i hi lo) [k.place.addr i] :=
  setsOwn_clearRc.onlyRegs_foldl (fun f hf => (k.fields_tidy.1 f hf).1) .refl

theorem State.fld_clearRc : ∀ f ∈ k.fields,
    (s.clearRc k i hi lo).fld f i = if f.acc = .rc ∧ f.within hi lo = true then 0 else s.fld f i := by
  obtain ⟨tidy, apart⟩ := k.fields_tidy
  have alone (s : State) (f : Fld) (hf : f ∈ k.fields) :
      (if (f.acc = .rc && f.within hi lo) = true then s.setFld f i 0 else s).fld f i =
        if f.acc = .rc ∧ f.within hi lo = true then 0 else s.fld f i := by
    obtain ⟨-, le, lt, -⟩ := tidy f hf
    simp only [Bool.and_eq_true, decide_eq_true_eq]
    split
    · rw [State.fld_setFld_self s f i 0 ⟨le, lt⟩, Nat.zero_mod]
    · rfl
  intro f hf
  rw [← alone s f hf]
  refine setsOwn_clearRc.fld_foldl (k := k) (fun _ => 0) (fun _ _ _ => rfl) (fun s u f hf _ own => ?_) (fun f hf => ?_) apart f hf
  · rw [alone s f hf, alone u f hf, own]
  · obtain ⟨reg, le, lt, -⟩ := tidy f hf
    exact ⟨reg, le, lt⟩

/-- A read of a register, with its answer: the RC fields read go, and the answer is of what stood before. -/
theorem State.readTarget_reg (tag : Nat) (ans : Word → Out) :
    let r := s.readTarget (.reg k i) tag hi lo
    let u := r.1.emit (ans r.2)
    u.outs = s.outs ++ [ans (s.view tag k i)] ∧
    (∀ f ∈ k.fields, u.fld f i = if f.acc = .rc ∧ f.within hi lo = true then 0 else s.fld f i) ∧
    { s with outs := u.outs, freeCtr := u.freeCtr }.onlyRegs u [k.place.addr i] := by
  intro r u
  have only : s.onlyRegs (s.clearRc k i hi lo) [k.place.addr i] := State.onlyRegs_clearRc
  have fields : ∀ f ∈ k.fields, (s.clearRc k i hi lo).fld f i = _ := State.fld_clearRc
  obtain ⟨c, st⟩ : ∃ c, r.1 = { s.clearRc k i hi lo with freeCtr := c } := by
    show ∃ c, (if openView k = true then (s.clearRc k i hi lo).drawn.drawn else s.clearRc k i hi lo) = _
    split <;> exact ⟨_, rfl⟩
  have answer : u = { r.1 with outs := r.1.outs ++ [ans (s.view tag k i)] } := rfl
  generalize s.clearRc k i hi lo = x at only fields st
  obtain ⟨regs, rest⟩ := only
  rw [answer, st]
  have outs : x.outs = s.outs := by rw [rest]
  refine ⟨congrArg (· ++ [_]) outs, fields, regs, ?_⟩
  rw [rest]

end

/-! ### The MSI-X table -/

/-- From `s` to `u` messages went out, or were taken into the pending bits or out of them. -/
def State.messages (s u : State) : Prop := ∃ pend outs, u = { s with msixPend := pend, outs := outs }

theorem State.messages_msix {s u : State} (h : s.messages u) (f v : Nat) : s.messages (u.msix f v) := by
  obtain ⟨pend, outs, rfl⟩ := h
  unfold State.msix
  dsimp only
  split
  · exact ⟨_, _, rfl⟩
  split <;> exact ⟨_, _, rfl⟩

theorem State.messages_msixFlush (s : State) (f : Nat) : s.messages (s.msixFlush f) := by
  have sent (l : List Nat) {u : State} (h : s.messages u) : s.messages (l.foldl (fun s k => s.msix f (k % 2048)) u) := by
    induction l generalizing u with
    | nil => exact h
    | cons k l ih => exact ih (State.messages_msix h f _)
  exact sent _ ⟨_, _, rfl⟩

theorem State.setMsixWord_spec (s : State) (f w : Nat) (v : Word) :
    let u := s.setMsixWord f w v
    u.msixWord f w = BitVec.ofNat 64 (if w % 2 = 0 then v.toNat / 4 * 4 else v.toNat % 2 ^ 33) ∧
    u = { s with msixAddr := u.msixAddr, msixData := u.msixData, msixPend := u.msixPend, outs := u.outs } := by
  intro u
  by_cases address : w % 2 = 0
  · have put : u = { s with msixAddr := SMap.insert s.msixAddr (f * 2048 + w / 2) (BitVec.ofNat 64 (v.toNat / 4 * 4)) } :=
      if_pos address
    rw [put]
    simp [State.msixWord, address]
  · have put : u = State.msixFlush
        { s with msixData := SMap.insert s.msixData (f * 2048 + w / 2) (BitVec.ofNat 64 (v.toNat % 2 ^ 33)) } f := if_neg address
    obtain ⟨pend, outs, sent⟩ := State.messages_msixFlush _ f
    rw [put, sent]
    simp [State.msixWord, address]

/-! ### An access that reaches the module -/

/-- The inbound writes that a read of a register finds performed (R201). -/
def State.beforeRead (s : State) (a : RegAcc) : State := match a.via with
  | .bar0 _ => s.inboundAll
  | .core _ _ _ _ => s

/-- The inbound writes that a write of a register finds performed (R201). -/
def State.beforeWrite (s : State) (a : RegAcc) : State := match a.via with
  | .bar0 _ => s.inboundOrdered
  | .core _ _ _ _ => s

/-- An access comes through BAR0. -/
def RegAcc.inbound (a : RegAcc) : Bool := match a.via with
  | .bar0 _ => true
  | .core _ _ _ _ => false

section
variable {s : State} {a : RegAcc}

theorem RegAcc.span (h : RegAcc.aligned a = true) : RegAcc.lo a ≤ RegAcc.hi a ∧ RegAcc.hi a < 64 := by
  simp only [RegAcc.aligned, Bool.and_eq_true, Bool.or_eq_true, decide_eq_true_eq] at h
  unfold RegAcc.hi RegAcc.lo
  obtain ⟨e | e, m⟩ := h <;> rw [e] at m ⊢ <;> omega

theorem RegAcc.bytes_zero (h : RegAcc.aligned a = true) : RegAcc.bytes a 0 = List.replicate a.size 0 := by
  simp only [RegAcc.aligned, Bool.and_eq_true, Bool.or_eq_true, decide_eq_true_eq] at h
  have zeros : bytesOf 8 (0 : Word).toNat = List.replicate 8 0 := by decide
  rw [RegAcc.bytes, zeros, List.drop_replicate, List.take_replicate]
  congr 1
  obtain ⟨e | e, m⟩ := h <;> rw [e] at m ⊢ <;> omega

theorem exec_rcRead (h : s.regOpen a) :
    let rd := s.beforeRead a
    let r := rd.readTarget (rd.regMeets a false) (s.regTag a) (RegAcc.hi a) (RegAcc.lo a)
    exec (.rcRead a) s = .next (r.1.emit (regAnswer a (RegAcc.bytes a r.2))) := by
  obtain ⟨via, o, n⟩ := a
  obtain ⟨ok, reach⟩ := h
  cases via with
  | bar0 fn =>
    obtain ⟨here, d0⟩ := reach
    exact congrArg Host.Outcome.next ((if_neg (by simp [here])).trans (if_neg (by simp [d0, ok])))
  | core c mode va deleg =>
    obtain ⟨runs, out, range⟩ := reach
    exact congrArg Host.Outcome.next ((if_neg (by simpa [runs, out] using range)).trans (if_neg (by simp [ok])))

theorem exec_registerWrite (h : s.regOpen a) (v : Word) :
    let wr := s.beforeWrite a
    exec (.registerWrite a v) s =
      .next (wr.writeTarget (wr.regMeets a true) (v <<< RegAcc.lo a) (RegAcc.hi a) (RegAcc.lo a) (RegAcc.inbound a)) := by
  obtain ⟨via, o, n⟩ := a
  obtain ⟨ok, reach⟩ := h
  cases via with
  | bar0 fn =>
    obtain ⟨here, d0⟩ := reach
    exact congrArg Host.Outcome.next ((if_neg (by simp [here, d0])).trans (if_neg (by simp [ok])))
  | core c mode va deleg =>
    obtain ⟨runs, out, range⟩ := reach
    exact congrArg Host.Outcome.next ((if_neg (by simpa [runs, out] using range)).trans (if_neg (by simp [ok])))
end

/-- The two refusals of BAR0: of an odd access, and of any in D3 (R296). -/
theorem registerAccess_bar0 (s : State) (a : RegAcc) (v : Word) (fn : Nat) (via : a.via = .bar0 fn) (here : s.bar0Here fn = true)
    (refused : (s.fn fn).d3 = true ∨ RegAcc.aligned a = false) :
    exec (.rcRead a) s = .next { s with outs := s.outs ++ [.reply fn 1 []] } ∧
    ((s.fn fn).d3 = true → exec (.registerWrite a v) s = .next s) ∧
    ((s.fn fn).d3 = false → exec (.registerWrite a v) s = .next (s.bump F.HOD_INBOUND.DROPPED 0 1)) := by
  obtain ⟨_, o, n⟩ := a
  subst via
  refine ⟨?_, fun d3 => ?_, fun d0 => ?_⟩
  · exact congrArg Host.Outcome.next ((if_neg (by simp [here])).trans (if_pos (by simpa using refused)))
  · exact congrArg Host.Outcome.next (if_pos (by simp [d3]))
  · have odd := refused.resolve_left (by simp [d0])
    exact congrArg Host.Outcome.next ((if_neg (by simp [here, d0])).trans (if_pos (by simp [odd])))

theorem State.bump_dropped (s : State) :
    let u := s.bump F.HOD_INBOUND.DROPPED 0 1
    u.fld F.HOD_INBOUND.DROPPED 0 = min (s.fld F.HOD_INBOUND.DROPPED 0 + 1) (2 ^ 16 - 1) ∧ s.onlyRegs u [F.HOD_INBOUND.DROPPED.at 0] :=
  ⟨State.fld_bump _ _ _ _ (by decide), State.onlyRegs.refl.setFld (List.mem_singleton_self _)⟩

/-- The access fault of a core's odd access (R326). -/
theorem registerAccess_core (s : State) (a : RegAcc) (v : Word) (n : Nat) (mode : Priv) (va deleg : Nat) (via : a.via = .core n mode va deleg)
    (runs : s.coreRuns n = true) (out : s.readOut n = false) (range : a.addr < 2 ^ 32) (odd : RegAcc.aligned a = false) :
    exec (.rcRead a) s = .next (s.emit (.coreFault n .load (taker mode deleg) va)) ∧
    exec (.registerWrite a v) s = .next (s.emit (.coreFault n .storeAmo (taker mode deleg) va)) := by
  obtain ⟨_, o, size⟩ := a
  subst via
  constructor <;>
    exact congrArg Host.Outcome.next ((if_neg (by simpa [runs, out] using range)).trans (if_pos (by simp [odd])))

section
variable {s : State} {a : RegAcc}

/-- A read, by what it meets. -/
theorem registerAccess_read (open_ : s.regOpen a) {g : Target} (meets : (s.beforeRead a).regMeets a false = g) :
    let r := (s.beforeRead a).readTarget g (s.regTag a) (RegAcc.hi a) (RegAcc.lo a)
    exec (.rcRead a) s = .next (r.1.emit (regAnswer a (RegAcc.bytes a r.2))) := by
  subst meets
  exact exec_rcRead open_

/-- A write, by what it meets. -/
theorem registerAccess_write (open_ : s.regOpen a) (v : Word) {g : Target} (meets : (s.beforeWrite a).regMeets a true = g) :
    exec (.registerWrite a v) s =
      .next ((s.beforeWrite a).writeTarget g (v <<< RegAcc.lo a) (RegAcc.hi a) (RegAcc.lo a) (RegAcc.inbound a)) := by
  subst meets
  exact exec_registerWrite open_ v
end

/-- Settles O40, by what the access meets: a read and a write each run over the fields of one register, one step for each. -/
theorem registerAccess : Obligations.RegisterAccess := by
  intro s a v lo hi rd wr
  refine ⟨fun open_ => ⟨fun k i meets => ?_, fun f w meets => ?_, fun f w meets => ?_, fun f w meets => ?_, fun meets => ?_,
    fun k i meets plain => ?_, fun meets => ?_⟩, fun fn via here refused => ?_, fun n mode va deleg via runs out range odd => ?_⟩
  · exact ⟨_, registerAccess_read open_ meets, State.readTarget_reg (s.regTag a) fun w => regAnswer a (RegAcc.bytes a w)⟩
  · exact ⟨_, registerAccess_read open_ meets, rfl⟩
  · exact ⟨_, registerAccess_read open_ meets, rfl⟩
  · exact ⟨_, registerAccess_write open_ v meets, State.setMsixWord_spec _ f w _⟩
  · refine ⟨_, registerAccess_read open_ meets, ?_⟩
    rw [← RegAcc.bytes_zero open_.1]
    rfl
  · obtain ⟨fields, frame, counted⟩ := State.writeReg_wrote (s := wr) (v := v <<< lo) (named_of_regMeets meets) plain (RegAcc.span open_.1)
    exact ⟨_, registerAccess_write open_ v meets, fields, frame, counted⟩
  · refine ⟨_, registerAccess_write open_ v meets, ?_⟩
    obtain ⟨via, o, n⟩ := a
    cases via with
    | bar0 fn => exact State.bump_dropped _
    | core n mode va deleg => rfl
  · obtain ⟨read, asleep, awake⟩ := registerAccess_bar0 s a v fn via here refused
    obtain ⟨dropped, only⟩ := State.bump_dropped s
    exact ⟨⟨_, read, rfl⟩, fun d3 => ⟨_, asleep d3, rfl⟩, fun d0 => ⟨_, awake d0, only, dropped⟩⟩
  · obtain ⟨read, write⟩ := registerAccess_core s a v n mode va deleg via runs out range odd
    exact ⟨⟨_, read, rfl⟩, _, write, rfl⟩

end Sys2Proof.Machine
end

section
set_option Elab.async false

/-! PROOFS. What every command carries from a state to the next (O57, O59).

Memory, scratch, the part and the queue of waiting commands are reached by few of the model's functions: `putByte` and `scramble`,
the writes of scratch, and the resets. `State.carries s u` says what no function undoes, whatever else it does to the state. It
goes through every function of the model in the order of the model's files, one lemma for each, which rests on the lemmas of
what the function calls: by `.of` for a write of another field of the state, by `.ite`, `.foldl` and a case split for a branch, a
loop and a match. The functions that answer something other than a state have a predicate of their own (`Iss.carried` and so on),
which says it of the states in their answers; `State.answers` says it of a command. -/

namespace Sys2Proof.Machine

/-- The data that the canonical forms, the part and the queue of commands are read from. -/
abbrev State.store (s : State) : Part × List Instr × SMap Byte × List (Region × Nat) × SMap Byte :=
  (s.part, s.pending, s.mem, s.scrambles, s.scr)

/-- From `s` to `u` the part and the waiting commands stay, and canonical forms are kept. -/
structure State.carries (s u : State) : Prop where
  part : u.part = s.part
  pending : u.pending = s.pending
  mem : Memory.wf s = true → Memory.wf u = true
  scr : Scratch.wf s = true → Scratch.wf u = true

section

variable {s₀ s u v : State}

/-! ### Rules of the relation -/

theorem State.carries.refl (s : State) : s.carries s := ⟨rfl, rfl, id, id⟩

/-- What leaves part, queue of commands and the two stores as they stand carries. -/
theorem State.carries.of (h : s₀.carries s) (e : u.store = s.store := by exact rfl) : s₀.carries u := by
  simp only [State.store, Prod.mk.injEq] at e
  obtain ⟨hp, hq, hm, hr, hs⟩ := e
  refine ⟨hp.trans h.part, hq.trans h.pending, fun k => ?_, fun k => ?_⟩
  · rw [Memory.wf_congr hm hr hp]; exact h.mem k
  · unfold Scratch.wf; rw [hs]; exact h.scr k

/-! ### Registers and fields -/

theorem State.carries.setReg {k : RegKind} {i : Nat} {v : Word} (h : s₀.carries s) : s₀.carries (s.setReg k i v) := .of h

theorem State.carries.setFld {f : Fld} {i v : Nat} (h : s₀.carries s) : s₀.carries (s.setFld f i v) := .of h

theorem State.carries.bump {f : Fld} {i n : Nat} (h : s₀.carries s) : s₀.carries (s.bump f i n) := .of h

theorem State.carries.raise {f : Fld} {i : Nat} (h : s₀.carries s) : s₀.carries (s.raise f i) := .of h

theorem State.carries.clearReg {k : RegKind} {i : Nat} (h : s₀.carries s) : s₀.carries (s.clearReg k i) := .of h

theorem State.carries.drawn (h : s₀.carries s) : s₀.carries s.drawn := .of h

theorem State.carries.modBlock {b : Nat} {f : Block → Block} (h : s₀.carries s) : s₀.carries (s.modBlock b f) := .of h

theorem State.carries.setSreg {t i : Nat} {v : Word} (h : s₀.carries s) : s₀.carries (s.setSreg t i v) := .of h

theorem State.carries.setFn {n : Nat} {x : PFn} (h : s₀.carries s) : s₀.carries (s.setFn n x) := .of h

theorem State.carries.setQueue {q : Nat} {x : Queue} (h : s₀.carries s) : s₀.carries (s.setQueue q x) := .of h

theorem State.carries.modQueue {q : Nat} {f : Queue → Queue} (h : s₀.carries s) : s₀.carries (s.modQueue q f) := .of h

theorem State.carries.emit {o : Out} (h : s₀.carries s) : s₀.carries (s.emit o) := .of h

/-! ### Branches and loops -/

theorem State.carries.of_eq (e : u = v) (h : s₀.carries u) : s₀.carries v := e ▸ h

theorem State.carries.ite {c : Prop} [Decidable c] (h : s₀.carries u) (k : s₀.carries v) : s₀.carries (if c then u else v) := by
  split <;> assumption

/-- A branch of a function whose answer holds a state, found by `π`. -/
theorem State.carries.iteOn {α : Type} (π : α → State) {c : Prop} [Decidable c] {a b : α} (h : s₀.carries (π a))
    (k : s₀.carries (π b)) : s₀.carries (π (if c then a else b)) := by split <;> assumption

/-- A loop over a value that holds a state, found by `π`: every turn carries. -/
theorem State.carries.foldlOn {α β : Type} (π : β → State) {f : β → α → β} {l : List α} {b : β}
    (H : ∀ b a, s₀.carries (π b) → s₀.carries (π (f b a))) (h : s₀.carries (π b)) : s₀.carries (π (l.foldl f b)) := by
  induction l generalizing b with
  | nil => exact h
  | cons a l ih => exact ih (H b a h)

theorem State.carries.foldl {α : Type} {f : State → α → State} {l : List α} (H : ∀ s a, s₀.carries s → s₀.carries (f s a))
    (h : s₀.carries s) : s₀.carries (l.foldl f s) := .foldlOn id H h

/-! ### The writers of memory -/

theorem State.carries.putByte {a : Nat} {b : Byte} (h : s₀.carries s) : s₀.carries (s.putByte a b) :=
  ⟨h.part, h.pending, fun k => State.putByte_wf s a b (h.mem k), h.scr⟩

theorem State.carries.putBytes {a : Nat} {bs : List Byte} (h : s₀.carries s) : s₀.carries (s.putBytes a bs) := by
  induction bs generalizing s a with
  | nil => exact h
  | cons b bs ih => exact ih h.putByte

theorem State.carries.scramble {r : Region} (h : s₀.carries s) : s₀.carries (s.scramble r) :=
  ⟨h.part, h.pending, fun k => State.scramble_wf s r (h.mem k), h.scr⟩

theorem State.carries.zeroMem (h : s₀.carries s) : s₀.carries s.zeroMem :=
  ⟨h.part, h.pending, fun _ => rfl, h.scr⟩

/-! ### Answers that hold a state -/

/-- The state of a read of instruction text carries `s₀`. -/
inductive Text.carried (s₀ : State) : Text → Prop where
  | got {bs} {s : State} (h : s₀.carries s) : Text.carried s₀ (.got bs s)
  | miss {l} : Text.carried s₀ (.miss l)
  | bad {e} {s : State} (h : s₀.carries s) : Text.carried s₀ (.bad e s)

theorem Text.carried.ite {c : Prop} [Decidable c] {a b : Text} (h : Text.carried s₀ a) (k : Text.carried s₀ b) :
    Text.carried s₀ (if c then a else b) := by split <;> assumption

theorem State.carries.text_got {r : Text} {bs} (e : r = .got bs s) (h : Text.carried s₀ r) : s₀.carries s := by
  subst e; cases h; assumption

theorem State.carries.text_bad {r : Text} {e} (e : r = .bad e s) (h : Text.carried s₀ r) : s₀.carries s := by
  subst e; cases h; assumption

/-- The state of a fetched word carries `s₀`. -/
inductive Fetch.carried (s₀ : State) : Fetch → Prop where
  | word {w} {s : State} (h : s₀.carries s) : Fetch.carried s₀ (.word w s)
  | miss {l} : Fetch.carried s₀ (.miss l)
  | bad {e} {s : State} (h : s₀.carries s) : Fetch.carried s₀ (.bad e s)

theorem Fetch.carried.ite {c : Prop} [Decidable c] {a b : Fetch} (h : Fetch.carried s₀ a) (k : Fetch.carried s₀ b) :
    Fetch.carried s₀ (if c then a else b) := by split <;> assumption

/-- The state an issued operation leaves, done or with an exception, carries `s₀`. -/
inductive Iss.carried (s₀ : State) : Iss → Prop where
  | done {s : State} (h : s₀.carries s) : Iss.carried s₀ (.done s)
  | jump {pc} {s : State} (h : s₀.carries s) : Iss.carried s₀ (.jump pc s)
  | hold {code} : Iss.carried s₀ (.hold code)
  | line {l prec} : Iss.carried s₀ (.line l prec)
  | exc {e} {s : State} (h : s₀.carries s) : Iss.carried s₀ (.exc e s)
  | late {e} {s : State} (h : s₀.carries s) : Iss.carried s₀ (.late e s)

theorem Iss.carried.ite {c : Prop} [Decidable c] {a b : Iss} (h : Iss.carried s₀ a) (k : Iss.carried s₀ b) :
    Iss.carried s₀ (if c then a else b) := by split <;> assumption

/-- The state a row operation leaves, done or stalled, carries `s₀`. -/
inductive RowOut.carried (s₀ : State) : RowOut → Prop where
  | done {s : State} (h : s₀.carries s) : RowOut.carried s₀ (.done s)
  | stall {s : State} (h : s₀.carries s) : RowOut.carried s₀ (.stall s)
  | underrun : RowOut.carried s₀ .underrun

theorem RowOut.carried.ite {c : Prop} [Decidable c] {a b : RowOut} (h : RowOut.carried s₀ a) (k : RowOut.carried s₀ b) :
    RowOut.carried s₀ (if c then a else b) := by split <;> assumption

theorem State.carries.row_done {r : RowOut} (e : r = .done s) (h : RowOut.carried s₀ r) : s₀.carries s := by
  subst e; cases h; assumption

theorem State.carries.row_stall {r : RowOut} (e : r = .stall s) (h : RowOut.carried s₀ r) : s₀.carries s := by
  subst e; cases h; assumption

/-- The state of a descriptor's read carries `s₀`. -/
inductive Desc.carried (s₀ : State) : Desc → Prop where
  | got {d} {s : State} (h : s₀.carries s) : Desc.carried s₀ (.got d s)
  | miss {l} : Desc.carried s₀ (.miss l)
  | exc {e} {s : State} (h : s₀.carries s) : Desc.carried s₀ (.exc e s)
  | late {e} {s : State} (h : s₀.carries s) : Desc.carried s₀ (.late e s)

theorem Desc.carried.ite {c : Prop} [Decidable c] {a b : Desc} (h : Desc.carried s₀ a) (k : Desc.carried s₀ b) :
    Desc.carried s₀ (if c then a else b) := by split <;> assumption

/-- The state of a record's or a ring entry's write carries `s₀`, however the write ended. -/
inductive Put.carried (s₀ : State) : Put → Prop where
  | ok {s : State} (h : s₀.carries s) : Put.carried s₀ (.ok s)
  | fail {s : State} (h : s₀.carries s) : Put.carried s₀ (.fail s)
  | left {s : State} (h : s₀.carries s) : Put.carried s₀ (.left s)
  | wait {tag} {s : State} (h : s₀.carries s) : Put.carried s₀ (.wait tag s)
  | stall : Put.carried s₀ .stall

theorem Put.carried.ite {c : Prop} [Decidable c] {a b : Put} (h : Put.carried s₀ a) (k : Put.carried s₀ b) :
    Put.carried s₀ (if c then a else b) := by split <;> assumption

theorem State.carries.put_ok {r : Put} (e : r = .ok s) (h : Put.carried s₀ r) : s₀.carries s := by
  subst e; cases h; assumption

theorem State.carries.put_fail {r : Put} (e : r = .fail s) (h : Put.carried s₀ r) : s₀.carries s := by
  subst e; cases h; assumption

theorem State.carries.put_left {r : Put} (e : r = .left s) (h : Put.carried s₀ r) : s₀.carries s := by
  subst e; cases h; assumption

theorem State.carries.put_wait {r : Put} {tag} (e : r = .wait tag s) (h : Put.carried s₀ r) : s₀.carries s := by
  subst e; cases h; assumption

theorem Iss.carried.bind {d : Desc} {f : List Byte → State → Iss} (H : ∀ b u, s₀.carries u → Iss.carried s₀ (f b u))
    (h : Desc.carried s₀ d) : Iss.carried s₀ (d.bind f) := by
  cases h with
  | got h => exact H _ _ h
  | miss => exact .line
  | exc h => exact .exc h
  | late h => exact .late h

/-! ### Actions of the feeder -/

/-- A feeder's action takes a state that carries `s₀` to one that does. -/
def FeedM.carried {α : Type} (s₀ : State) (m : FeedM α) : Prop := ∀ f, s₀.carries f.st → s₀.carries (m f).2.st

theorem FeedM.carried.lam {α : Type} {m : FeedM α} (H : ∀ f : Feed, s₀.carries f.st → s₀.carries (m f).2.st) :
    FeedM.carried s₀ m := H

theorem FeedM.carried.pure {α : Type} {a : α} : FeedM.carried s₀ (Pure.pure a) := fun _ h => h

theorem FeedM.carried.bind {α β : Type} {m : FeedM α} {k : α → FeedM β} (h : FeedM.carried s₀ m)
    (H : ∀ a, FeedM.carried s₀ (k a)) : FeedM.carried s₀ (m >>= k) := fun f hf => H _ _ (h f hf)

theorem FeedM.carried.set {g : State → State} (H : ∀ s, s₀.carries s → s₀.carries (g s)) : FeedM.carried s₀ (feedSet g) :=
  fun f hf => H f.st hf

theorem FeedM.carried.ite {α : Type} {c : Prop} [Decidable c] {a b : FeedM α} (h : FeedM.carried s₀ a)
    (k : FeedM.carried s₀ b) : FeedM.carried s₀ (if c then a else b) := by split <;> assumption

theorem FeedM.carried.mapM {α β : Type} {k : α → FeedM β} {l : List α} (H : ∀ a, FeedM.carried s₀ (k a)) :
    FeedM.carried s₀ (l.mapM k) := by
  induction l with
  | nil => exact .pure
  | cons a l ih =>
    rw [List.mapM_cons]
    exact .bind (H a) fun _ => .bind ih fun _ => .pure

theorem State.carries.feedM {α : Type} {m : FeedM α} {f : Feed} (H : FeedM.carried s₀ m) (h : s₀.carries f.st) :
    s₀.carries (m f).2.st := H f h

theorem State.carries.feed_eq {α : Type} {m : FeedM α} {f g : Feed} {a : α} (e : m f = (a, g)) (H : FeedM.carried s₀ m)
    (h : s₀.carries f.st) : s₀.carries g.st := .of_eq (congrArg (fun p => p.2.st) e) (H f h)

/-! ### Commands -/

/-- The command answers a next state, and that carries `s`. -/
def State.answers (s : State) (r : Res State) : Prop := ∃ u, r = .next u ∧ s.carries u

theorem State.answers.next (h : s.carries u) : s.answers (.next u) := ⟨u, rfl, h⟩

/-! ### Shared operations (Ops) -/

theorem State.carries.markUe {t : Nat} (h : s₀.carries s) : s₀.carries (s.markUe t) := by
  unfold State.markUe
  split
  · exact .of h
  · exact h

theorem State.carries.msix {f v : Nat} (h : s₀.carries s) : s₀.carries (s.msix f v) := by
  unfold State.msix
  extract_lets k d p
  exact .ite (.of h) (.ite h (.of h))

theorem State.carries.setDigest {f : Fld} {d : List Byte} (h : s₀.carries s) : s₀.carries (s.setDigest f d) := .of h

theorem State.carries.liveEnd (h : s₀.carries s) : s₀.carries s.liveEnd := by
  unfold State.liveEnd
  split
  · exact h
  · extract_lets old s1
    have h1 : s₀.carries s1 := .of h
    exact .ite h1 (.of h1)

theorem State.carries.ibi {b : Nat} (h : s₀.carries s) : s₀.carries (s.ibi b) := by
  unfold State.ibi
  exact .ite (.of h) h

/-! ### Error reports and severity actions (Grout) -/

theorem State.carries.stopWork (h : s₀.carries s) : s₀.carries s.stopWork := by
  unfold State.stopWork
  extract_lets s1
  have h1 : s₀.carries s1 := .foldl (fun _ _ hs => .of hs) h
  exact .of h1

theorem State.carries.finishItems {p : Nat → Bool} {status detail : Nat} (h : s₀.carries s) :
    s₀.carries (s.finishItems p status detail) := .of h

theorem State.carries.fatal {cause code : Nat} (h : s₀.carries s) : s₀.carries (s.fatal cause code) := by
  unfold State.fatal
  extract_lets s1 s2 s3 s4
  have h1 : s₀.carries s1 := .ite h (.of (.ibi h))
  have h2 : s₀.carries s3 := .stopWork (.of h1)
  clear_value s1 s3
  exact .ite (.of h1) (.ite (.of h1) (.finishItems (.of h2)))

theorem State.carries.reportOf {c time : Nat} {r : Report} (h : s₀.carries s) : s₀.carries (s.reportOf c time r) := by
  unfold State.reportOf
  extract_lets bitd head tail slot free lost again e s1 s2 s3 s4 s5 s6
  have h1 : s₀.carries s6 := .ite (.ite (.msix (.ite (.ibi (.of h)) (.of h))) (.ite (.msix (.of h)) (.of h))) (.ite (.of h)
    (.of h))
  split
  · extract_lets esc e' s7 s8 s9
    have h2 : s₀.carries s9 := .ite (.msix (.of h)) (.of h)
    exact .ite (.fatal h2) (.of h)
  · exact .ite (.fatal h1) h1

theorem State.carries.report {r : Report} (h : s₀.carries s) : s₀.carries (s.report r) := by
  unfold State.report
  exact .reportOf h

theorem State.carries.reportSelf {code sev unit addr detail : Nat} (h : s₀.carries s) :
    s₀.carries (s.reportSelf code sev unit addr detail) := by
  unfold State.reportSelf
  exact .report h

/-! ### The lintels (Lintel) -/

theorem State.carries.setLdir {l : Nat} {ba : Bool} {x : LDir} (h : s₀.carries s) : s₀.carries (s.setLdir l ba x) := .of h

theorem State.carries.declareDown {l : Nat} {rate consec : Bool} (h : s₀.carries s) :
    s₀.carries (s.declareDown l rate consec) := by
  unfold State.declareDown
  extract_lets s1 s2
  exact .reportSelf (.of h)

theorem State.answers.flitCrcFail {l : Nat} {flit : Flit} (h : s₀.carries s) : s₀.answers (execFlitCrcFail l flit s) := by
  unfold execFlitCrcFail
  exact .next (.ite h (.ite (.ite (.declareDown (.of h)) (.of h)) (.ite h (.setLdir h))))

theorem State.answers.nak {l : Nat} {ba : Bool} (h : s₀.carries s) : s₀.answers (execNak l ba s) := by
  unfold execNak
  refine .next ?_
  split
  · exact h
  · exact .ite h (.ite (.declareDown (.ite (.reportSelf (.of h)) (.of h))) (.ite (.reportSelf (.of h)) (.of h)))

theorem State.answers.replayFlitReceived {l : Nat} {ba : Bool} (h : s₀.carries s) :
    s₀.answers (execReplayFlitReceived l ba s) := by
  unfold execReplayFlitReceived
  exact .next (.ite h (.setLdir h))

theorem State.answers.ack {l : Nat} {ba : Bool} {n : Nat} (h : s₀.carries s) : s₀.answers (execAck l ba n s) := by
  unfold execAck
  exact .next (.ite h (.setLdir h))

theorem State.answers.replayWindowEnd {l : Nat} {ba : Bool} (h : s₀.carries s) : s₀.answers (execReplayWindowEnd l ba s) := by
  unfold execReplayWindowEnd
  exact .next (.ite h (.of h))

theorem State.answers.sidebandSymbol {l : Nat} {x y z : BitVec 64} (h : s₀.carries s) :
    s₀.answers (execSidebandSymbol l x y z s) := by
  unfold execSidebandSymbol
  exact .next (.ite h (.ite (.of h) (.of h)))

theorem State.carries.flitTick (h : s₀.carries s) : s₀.carries s.flitTick := by
  unfold State.flitTick
  exact .foldl (fun _ _ hs => .ite (.foldl (fun _ _ hs1 => .of hs1) hs) hs) h

/-! ### External memory (Mortar) -/

theorem State.carries.meetMemUe {u : Nat} {scrub : Bool} (h : s₀.carries s) : s₀.carries (s.meetMemUe u scrub) := by
  unfold State.meetMemUe
  extract_lets d s1 s2 s3
  have h1 : s₀.carries s2 := .ite (.of h) (.of h)
  have h2 : s₀.carries s3 := .ite h1 (.of h1)
  exact .reportSelf (.of h2)

theorem State.carries.fixMemCe {u : Nat} (h : s₀.carries s) : s₀.carries (s.fixMemCe u) := by
  unfold State.fixMemCe
  extract_lets d c n s1 s2
  exact .ite (.reportSelf (.of h)) (.of h)

theorem State.carries.ctlUnits {us : List Nat} (h : s₀.carries s) : s₀.carries (s.ctlUnits us).1 := by
  unfold State.ctlUnits
  refine .foldlOn Prod.fst (fun y u hs => ?_) h
  split
  · extract_lets s1
    have h1 : s₀.carries s1 := .ite (.of hs) hs
    exact .iteOn Prod.fst (.meetMemUe h1) (.iteOn Prod.fst (.fixMemCe h1) h1)

theorem State.carries.ctlRead {l sm : Nat} (h : s₀.carries s) : s₀.carries (s.ctlRead l sm).1 := by
  unfold State.ctlRead
  exact .ctlUnits (.of h)

theorem State.carries.wcLeave {l : Nat} (h : s₀.carries s) : s₀.carries (s.wcLeave l) := .of h

theorem State.carries.wcPut {l m : Nat} (h : s₀.carries s) : s₀.carries (s.wcPut l m) := by
  unfold State.wcPut
  extract_lets c s1 mine
  have h1 : s₀.carries s1 := .ite (.of h) (.of h)
  refine .ite (.wcLeave h1) ?_
  clear_value mine
  split
  · exact .ite (.wcLeave h1) h1
  · exact h1

theorem State.carries.wcDrainAll (h : s₀.carries s) : s₀.carries s.wcDrainAll := by
  unfold State.wcDrainAll
  exact .foldl (fun _ _ hs => .wcLeave hs) h

theorem State.carries.useLine {l : Nat} {m : MLine} (h : s₀.carries s) : s₀.carries (s.useLine l m) := .of h

theorem State.carries.dirtyLine {l sm : Nat} (h : s₀.carries s) : s₀.carries (s.dirtyLine l sm) := by
  unfold State.dirtyLine
  split
  · extract_lets b
    exact .of h
  · exact h

theorem State.carries.dropBlock {g b : Nat} (h : s₀.carries s) : s₀.carries (s.dropBlock g b) := .of h

theorem State.carries.takeLine {l : Nat} (h : s₀.carries s) : s₀.carries (s.takeLine l) := by
  unfold State.takeLine
  split
  · refine .ite h ?_
    extract_lets s1
    split
    · exact .of h
    · exact .wcPut (.of h)
  · exact h

theorem State.carries.meetBlock {g b : Nat} (h : s₀.carries s) : s₀.carries (s.meetBlock g b) := by
  unfold State.meetBlock
  extract_lets s1 l s2
  have h1 : s₀.carries s1 := .ite (.of h) h
  have h2 : s₀.carries s2 := .dropBlock h1
  refine .ite ?_ h1
  split
  · exact .ite (.reportSelf (.putBytes (.of h2))) h2
  · exact h2

theorem State.carries.meetBlocks {l : Nat} (h : s₀.carries s) : s₀.carries (s.meetBlocks l) := by
  unfold State.meetBlocks
  exact .foldl (fun _ _ hs => .meetBlock hs) h

theorem State.carries.recallData {l : Nat} (h : s₀.carries s) : s₀.carries (s.recallData l) := by
  unfold State.recallData
  split
  · exact .ite (.takeLine (.meetBlocks h)) h
  · exact h

theorem State.carries.recall {l : Nat} (h : s₀.carries s) : s₀.carries (s.recall l) := by
  unfold State.recall
  split
  · extract_lets s1 s2
    have h1 : s₀.carries s1 := .takeLine (.meetBlocks h)
    have h2 : s₀.carries s2 := .foldl (fun _ _ hs => .dropBlock (.dropBlock hs)) h1
    clear_value s1 s2
    exact .of h2
  · exact h

theorem State.carries.countLost {d l : Nat} (h : s₀.carries s) : s₀.carries (s.countLost d l) := by
  unfold State.countLost
  extract_lets s1 s2
  have h1 : s₀.carries s2 := .ite (.of h) (.of h)
  exact .reportSelf (.of h1)

theorem State.carries.loseLine {l : Nat} (h : s₀.carries s) : s₀.carries (s.loseLine l) := by
  unfold State.loseLine
  extract_lets s1
  have h1 : s₀.carries s1 := by
    unfold s1
    split
    · extract_lets s2
      split
      · exact .ite (.of h) (.putBytes (.of h))
      · exact .putBytes (.of h)
    · exact h
  exact .countLost (.of h1)

theorem State.carries.meetLine {l : Nat} (h : s₀.carries s) : s₀.carries (s.meetLine l) := by
  unfold State.meetLine
  extract_lets d s1
  exact .ite (.ite (.loseLine (.of h)) (.of h)) (.ite (.of h) h)

theorem State.carries.meetCopy {d l : Nat} (h : s₀.carries s) : s₀.carries (s.meetCopy d l) := by
  unfold State.meetCopy
  exact .ite (.countLost (.of h)) h

theorem State.carries.sliceGone {d : Nat} (h : s₀.carries s) : s₀.carries (s.sliceGone d) := by
  unfold State.sliceGone
  extract_lets mine s1 s2 s3
  have h1 : s₀.carries s1 := by
    unfold s1
    refine .foldl (fun s4 p hs => ?_) h
    split
    · exact .ite hs (.putBytes hs)
    · exact .putBytes hs
  have h2 : s₀.carries s3 := .ite (.wcDrainAll (.of h1)) (.of h1)
  exact .ite (.foldl (fun _ _ hs => .of hs) h2) (.of h1)

theorem State.carries.loseSlice {d : Nat} (h : s₀.carries s) : s₀.carries (s.loseSlice d) := by
  unfold State.loseSlice
  exact .reportSelf (.sliceGone h)

theorem State.carries.writeBack {l : Nat} (h : s₀.carries s) : s₀.carries (s.writeBack l) := by
  unfold State.writeBack
  extract_lets s1
  have h1 : s₀.carries s1 := .ite (.meetLine h) h
  split
  · exact .ite h1 (.wcPut (.of h1))
  · exact h1

theorem State.carries.evictLine {l : Nat} (h : s₀.carries s) : s₀.carries (s.evictLine l) := by
  unfold State.evictLine
  extract_lets s1
  have h1 : s₀.carries s1 := .writeBack (.recall h)
  exact .ite h1 (.of h1)

theorem State.carries.allocLine {l w sm : Nat} (h : s₀.carries s) : s₀.carries (s.allocLine l w sm) := by
  unfold State.allocLine
  extract_lets d s1
  have h1 : s₀.carries s1 := by
    unfold s1
    split
    · exact .evictLine h
    · exact h
  exact .useLine (.of h1)

theorem State.carries.countLook {d : Nat} {hit : Bool} (h : s₀.carries s) : s₀.carries (s.countLook d hit) := by
  unfold State.countLook
  exact .ite (.of h) (.of h)

theorem State.carries.lookup {tag l sm wm : Nat} (h : s₀.carries s) : s₀.carries (s.lookup tag l sm wm).1 := by
  unfold State.lookup
  extract_lets d s1 s2 whole put s3
  have h1 : s₀.carries s1 := .ite (.loseSlice h) h
  have h2 : s₀.carries s2 := .meetLine h1
  have h3 : s₀.carries s3 := .countLook h2
  refine .iteOn Prod.fst (.iteOn Prod.fst (.ctlRead h1) (.wcPut h1)) ?_
  split
  · extract_lets s4 s5 need
    have h4 : s₀.carries s4 := .useLine h2
    have h5 : s₀.carries s5 := .countLook h4
    refine .iteOn Prod.fst (.ite (.dirtyLine (.of h5)) h5) ?_
    refine .iteOn Prod.fst (.ite (.countLook h4) (.dirtyLine (.countLook h4))) ?_
    split
    · rename_i s6 _ e
      have h6 : s₀.carries s6 := .of_eq (congrArg Prod.fst e) (.ctlRead (.countLook h4))
      exact .iteOn Prod.fst (.ite (.of h6) (.dirtyLine (.of h6))) (.ite h6 (.wcPut h6))
  · split
    · exact .iteOn Prod.fst (.ctlRead h3) (.wcPut h3)
    · split
      · rename_i s4 _ e
        have h4 : s₀.carries s4 := .of_eq (congrArg Prod.fst e) (.iteOn Prod.fst h3 (.ctlRead h3))
        exact .iteOn Prod.fst (.ite (.allocLine h4) (.dirtyLine (.allocLine h4))) (.ite h4 (.wcPut h4))

theorem State.carries.markIll {d : Option Nat} {a n : Nat} {wr : Bool} (h : s₀.carries s) :
    s₀.carries (s.markIll d a n wr) := by
  unfold State.markIll
  extract_lets as s1 src
  have h1 : s₀.carries s1 := .ite (.of h) h
  exact .ite (.of h1) h1

theorem State.carries.memRead {g : Agent} {a n : Nat} (h : s₀.carries s) : s₀.carries (s.memRead g a n).st := by
  unfold State.memRead
  split
  · rename_i s1 _ e
    have h1 : s₀.carries s1 := by
      refine .of_eq (congrArg Prod.fst e) ?_
      refine .foldlOn Prod.fst (fun y l hs => ?_) h
      split
      · extract_lets s2 s3
        have h2 : s₀.carries s2 := .recallData hs
        have h3 : s₀.carries s3 := by
          unfold s3
          split
          · exact .meetCopy h2
          · exact h2
        split
        · rename_i s4 _ e1
          have h4 : s₀.carries s4 := .of_eq (congrArg Prod.fst e1) (.lookup h3)
          exact h4
    extract_lets bad s2 hit
    exact .markIll h1

theorem State.carries.writeCopies {d : Option Nat} {a : Nat} {bs : List Byte} (h : s₀.carries s) :
    s₀.carries (s.writeCopies d a bs) := by
  unfold State.writeCopies
  split
  · exact h
  · exact .of h

theorem State.carries.breakResv {a n : Nat} (h : s₀.carries s) : s₀.carries (s.breakResv a n) := .of h

theorem State.carries.putHome {a : Nat} {bs : List Byte} (h : s₀.carries s) : s₀.carries (s.putHome a bs) := by
  unfold State.putHome
  exact .ite (.foldl (fun _ _ hs => .ite hs (.putByte hs)) h) (.putBytes h)

theorem State.carries.takeWrite {tag l wm : Nat} (h : s₀.carries s) : s₀.carries (s.takeWrite tag l wm) := by
  unfold State.takeWrite
  split
  · rename_i s1 _ e
    have h1 : s₀.carries s1 := .of_eq (congrArg Prod.fst e) (.lookup (.recall h))
    extract_lets unit whole s2
    exact .foldl (fun _ _ hs => .meetMemUe hs) (.of h1)

theorem State.carries.memWrite {g : Agent} {a : Nat} {bs : List Byte} (h : s₀.carries s) : s₀.carries (s.memWrite g a bs) := by
  unfold State.memWrite
  extract_lets n s1
  have h1 : s₀.carries s1 := .foldl (fun _ _ hs => .takeWrite hs) h
  exact .markIll (.breakResv (.writeCopies (.putHome h1)))

theorem State.carries.amoRead {g : Agent} {a n : Nat} {line : Bool} (h : s₀.carries s) :
    s₀.carries (s.amoRead g a n line).st := by
  unfold State.amoRead
  extract_lets l s1 s2
  have h1 : s₀.carries s1 := .recall h
  have h2 : s₀.carries s2 := by
    unfold s2
    split
    · exact .meetCopy h1
    · exact h1
  split
  · rename_i s3 _ e
    have h3 : s₀.carries s3 := .of_eq (congrArg Prod.fst e) (.lookup h2)
    extract_lets held more s4
    exact .markIll (.foldl (fun _ _ hs => .meetMemUe hs) h3)

theorem State.carries.amoDie {g : Agent} {d p a fn x cmp size : Nat} (h : s₀.carries s) :
    s₀.carries (s.amoDie g d p a fn x cmp size).st := by
  unfold State.amoDie
  extract_lets l r old src s1 s2
  have h1 : s₀.carries r.st := .amoRead h
  have h2 : s₀.carries s1 := by
    unfold s1
    split
    · exact h1
    · exact .of h1
  split
  · exact h1
  · dsimp -zeta only
    exact .writeCopies (.of h2)

theorem State.carries.amoHome {g : Agent} {a size : Nat} {f : Nat → Nat} (h : s₀.carries s) :
    s₀.carries (s.amoHome g a size f).st := by
  unfold State.amoHome
  extract_lets r old
  have h1 : s₀.carries r.st := .amoRead h
  exact .iteOn AmoGot.st h1 (.memWrite (.of h1))

theorem State.carries.mergeLine {tag l : Nat} {bs : SMap Byte} (h : s₀.carries s) : s₀.carries (s.mergeLine tag l bs) := by
  unfold State.mergeLine
  extract_lets wm s1 s2
  have h1 : s₀.carries s1 := .takeWrite h
  have h2 : s₀.carries s2 := .ite h1 (.foldl (fun _ _ hs => .putByte hs) h1)
  exact .foldl (fun _ _ hs => .breakResv hs) h2

theorem State.carries.publish {d p : Nat} (h : s₀.carries s) : s₀.carries (s.publish d p) := by
  unfold State.publish
  extract_lets cs s1 cs1 s2
  have h1 : s₀.carries s1 := .foldl (fun _ _ hs => .meetCopy hs) h
  exact .foldl (fun _ _ hs => .ite hs (.mergeLine hs)) (.of h1)

/-! ### Translation (Xlate) -/

theorem State.carries.useX {e : XEntry} (h : s₀.carries s) : s₀.carries (s.useX e) := by
  unfold State.useX
  exact .ite h (.of h)

theorem State.carries.cacheX {e : XEntry} (h : s₀.carries s) : s₀.carries (s.cacheX e) := by
  unfold State.cacheX
  exact .ite (.of h) (.useX (.of h))

theorem State.carries.walk {unit ctx tag cva : Nat} {acc : Acs} {fuel level table : Nat} {ptr : Option Word}
    (h : s₀.carries s) : s₀.carries (s.walk unit ctx tag cva acc fuel level table ptr).st := by
  induction fuel generalizing s level table ptr with
  | zero => exact h
  | succ fuel ih =>
    unfold State.walk
    extract_lets a g p c s1
    have h1 : s₀.carries g.st := .memRead h
    have h2 : s₀.carries s1 := by
      unfold s1
      split
      · exact .cacheX h1
      · exact h1
    refine .iteOn Xlated.st h (.iteOn Xlated.st h (.iteOn Xlated.st h1 (.iteOn Xlated.st h1 ?_)))
    exact .iteOn Xlated.st (.cacheX h2) (ih h1)

theorem State.carries.xlate1 {unit ctx ava : Nat} {acc : Acs} (h : s₀.carries s) :
    s₀.carries (s.xlate1 unit ctx ava acc).st := by
  unfold State.xlate1
  refine .iteOn Xlated.st h ?_
  refine .iteOn Xlated.st h ?_
  extract_lets cva tag hit s1 r
  have h1 : s₀.carries r.st := by
    unfold r
    clear_value hit
    split
    · extract_lets s2 c
      have h2 : s₀.carries s2 := .useX (.of h)
      exact .iteOn Xlated.st h2 h2
    · split
      · exact .walk (.of h)
      · exact .walk (.of h)
  split
  · exact h1
  · exact .iteOn Xlated.st h1 (.iteOn Xlated.st h1 h1)

theorem State.carries.latchX {tile unit source ctx ava : Nat} {acc : Acs} {f : XFault} (h : s₀.carries s) :
    s₀.carries (s.latchX tile unit source ctx ava acc f) := by
  unfold State.latchX
  extract_lets s1 s2 s3 s4 s5
  have h1 : s₀.carries s1 := .raise h
  have h5 : s₀.carries s5 := .setFld (.setFld (.setFld (.setFld (.setFld (.setFld (.setFld (.raise h1)))))))
  exact .ite (.bump h1) (.setReg h5)

theorem State.carries.xlate {tile unit source ctx ava : Nat} {acc : Acs} (h : s₀.carries s) :
    s₀.carries (s.xlate tile unit source ctx ava acc).st := by
  unfold State.xlate
  extract_lets r
  have h1 : s₀.carries r.st := .xlate1 h
  split
  · exact h1
  · exact .latchX h1

theorem State.carries.xlateRun {tile unit source ctx ava n : Nat} {acc : Acs} (h : s₀.carries s) :
    s₀.carries (s.xlateRun tile unit source ctx ava n acc).st := by
  unfold State.xlateRun
  refine .foldlOn XRun.st (fun r p hs => ?_) h
  split
  · exact hs
  · extract_lets y
    have h1 : s₀.carries y.st := .xlate hs
    split
    · exact h1
    · exact h1

theorem State.carries.vaRead {d : Option Nat} {tile unit source ctx ava n : Nat} {acc : Acs} (h : s₀.carries s) :
    s₀.carries (s.vaRead d tile unit source ctx ava n acc).st := by
  unfold State.vaRead
  extract_lets r
  have h1 : s₀.carries r.st := .xlateRun h
  refine .foldlOn VGot.st (fun v p hs => ?_) h1
  extract_lets g
  exact .memRead hs

theorem State.carries.putPieces {g : Agent} {ps : List (Nat × Nat)} {bs : List Byte} (h : s₀.carries s) :
    s₀.carries (s.putPieces g ps bs) := by
  induction ps generalizing s bs with
  | nil => exact h
  | cons p ps ih => exact ih (.memWrite h)

theorem State.carries.dropAll (h : s₀.carries s) : s₀.carries s.dropAll := .of h

theorem State.carries.dropCtx {c : Nat} (h : s₀.carries s) : s₀.carries (s.dropCtx c) := .of h

theorem State.carries.dropCtxRange {c base count : Nat} (h : s₀.carries s) : s₀.carries (s.dropCtxRange c base count) := .of h

theorem State.carries.dropRange {n p q : Nat} (h : s₀.carries s) : s₀.carries (s.dropRange n p q) := .of h

/-! ### Scratch, instruction text and issue (TileMem) -/

theorem State.carries.meetScrUe {u : Nat} (h : s₀.carries s) : s₀.carries (s.meetScrUe u) := by
  unfold State.meetScrUe
  extract_lets tile
  refine .ite (.reportSelf (.ite (.setFld (.raise (.bump (.ite (.of h) (.of h))))) (.ite (.of h) (.of h)))) ?_
  split
  · exact .reportSelf (.ite (.setFld (.raise (.bump (.ite (.of h) (.of h))))) (.ite (.of h) (.of h)))
  · exact .reportSelf (.ite (.of h) (.of h))

theorem State.carries.fixScrCe {u : Nat} (h : s₀.carries s) : s₀.carries (s.fixScrCe u) := by
  unfold State.fixScrCe
  extract_lets s1 t d
  clear_value t
  split
  · exact .of h
  · exact .of h

theorem State.carries.scrRead {t : Nat} {w : Scr} {n : Nat} (h : s₀.carries s) : s₀.carries (s.scrRead t w n).st := by
  unfold State.scrRead
  extract_lets k us bad s' s'1
  have h1 : s₀.carries s' := .foldl (fun _ _ hs => .meetScrUe hs) h
  exact .foldl (fun _ _ hs => .fixScrCe hs) h1

theorem State.carries.scrWrite {t : Nat} {w : Scr} {bs : List Byte} (h : s₀.carries s) : s₀.carries (s.scrWrite t w bs) := by
  unfold State.scrWrite
  extract_lets k n us part s1 s2 s3
  have h1 : s₀.carries s2 := .foldl (fun _ _ hs => .meetScrUe hs) (.of h)
  have h2 : s₀.carries s3 := .foldl (fun _ _ hs => .fixScrCe hs) h1
  split
  · exact ⟨h2.part, h2.pending, h2.mem, fun k => putScr_wf _ _ _ (h2.scr k)⟩
  · exact .of h2

theorem State.carries.count {t c n : Nat} (h : s₀.carries s) : s₀.carries (s.count t c n) := by
  unfold State.count
  extract_lets i v s1
  exact .ite (.of h) (.of h)

theorem State.carries.haltBlock {b : Block} (h : s₀.carries s) : s₀.carries (s.haltBlock b) := by
  unfold State.haltBlock
  extract_lets s1
  have h1 : s₀.carries s1 := .foldl (fun _ _ hs => .ite (.of hs) (.of hs)) h
  exact .of h1

theorem State.carries.failBlock {id status detail handle : Nat} (h : s₀.carries s) :
    s₀.carries (s.failBlock id status detail handle) := by
  unfold State.failBlock
  split
  · exact h
  · extract_lets s1
    have h1 : s₀.carries s1 := .ite (.of h) h
    exact .ite (.haltBlock h1) h1

theorem State.carries.tileExc {t : Nat} {precise : Bool} {pc : Nat} {w : Word} {e : TExc} (h : s₀.carries s) :
    s₀.carries (s.tileExc t precise pc w e) := by
  unfold State.tileExc
  extract_lets s1 s2 s3 s4
  have h1 : s₀.carries s3 := .ite (.of h) (.of h)
  split
  · exact .of h1
  · exact .report (.modBlock (.failBlock (.of h1)))

theorem State.carries.track {d n : Nat} (h : s₀.carries s) : s₀.carries (s.track d n) := .of h

theorem State.carries.tileRead {t source ava n : Nat} {acc : Acs} (h : s₀.carries s) :
    s₀.carries (s.tileRead t source ava n acc).st := by
  unfold State.tileRead
  exact .vaRead (.track h)

theorem State.carries.wideVa {t source ava : Nat} {acc : Acs} (h : s₀.carries s) : s₀.carries (s.wideVa t source ava acc) := by
  unfold State.wideVa
  exact .xlate h

theorem State.carries.demand {t l : Nat} {prec : Bool} (h : s₀.carries s) : s₀.carries (s.demand t l prec) := by
  unfold State.demand
  extract_lets y buf mine s1
  have h1 : s₀.carries s1 := .ite h (.of h)
  exact .ite h (.ite h (.ite (.of h1) (.track (.of h1))))

theorem Text.carried.textRead {t a n : Nat} (h : s₀.carries s) : Text.carried s₀ (s.textRead t a n) := by
  unfold State.textRead
  refine .ite (.ite (.bad (.markUe (.scrRead h))) (.got (.scrRead h))) ?_
  split
  · extract_lets y es x' s1
    split
    · exact .miss
    · exact .ite (.bad (.of h)) (.got (.of h))
  · extract_lets g
    have h1 : s₀.carries g.st := .tileRead h
    split
    · exact .bad h1
    · exact .ite (.bad h1) (.got h1)

theorem Text.carried.constRead {t a n : Nat} (h : s₀.carries s) : Text.carried s₀ (s.constRead t a n) := by
  unfold State.constRead
  extract_lets y
  exact .ite (.bad h) (.textRead h)

theorem Fetch.carried.fetch {t : Nat} (h : s₀.carries s) : Fetch.carried s₀ (s.fetch t) := by
  unfold State.fetch
  extract_lets y a word
  refine .ite (.bad h) ?_
  split
  · split
    · rename_i s1 e
      have h1 : s₀.carries s1 := .text_got e (.textRead h)
      exact .word h1
    · rename_i e
      exact .miss
    · rename_i s1 e
      have h1 : s₀.carries s1 := .text_bad e (.textRead h)
      exact .bad h1
  · split
    · exact .ite .miss (.ite (.bad h) (.word h))
    · exact .miss

theorem State.carries.stall {t code : Nat} (h : s₀.carries s) : s₀.carries (s.stall t code) := by
  unfold State.stall
  extract_lets s1
  exact .ite (.of h) (.ite (.of h) (.of h))

theorem State.carries.issue {t : Nat} {ok : Nat → Bool} {f : Word → State → Iss}
    (H : ∀ w u, s₀.carries u → Iss.carried s₀ (f w u)) (h : s₀.carries s) : s₀.carries (s.issue t ok f) := by
  unfold State.issue
  extract_lets pc
  have hf : Fetch.carried s₀ (s.fetch t) := .fetch h
  generalize s.fetch t = r at hf
  split
  · refine .ite ?_ h
    cases hf with
    | @word w s1 h1 =>
      have hr := H w s1 h1
      refine .ite h ?_
      generalize f w s1 = i at hr
      cases hr with
      | exc h2 => exact .tileExc h2
      | done | jump | hold | line | late => exact h
    | miss | bad => exact h
  · cases hf with
    | miss => exact .of (.demand h)
    | bad h1 => exact .tileExc (.of h1)
    | @word w s1 h1 =>
      have hr := H w s1 h1
      refine .ite h ?_
      generalize f w s1 = i at hr
      cases hr with
      | done h2 => exact .of h2
      | jump h2 => exact .of h2
      | hold => exact .stall h
      | line => exact .of (.demand h)
      | exc h2 => exact .tileExc h2
      | late h2 => exact .tileExc (.of h2)

theorem State.carries.issueOp {t op : Nat} {f : Word → State → Iss} (H : ∀ w u, s₀.carries u → Iss.carried s₀ (f w u))
    (h : s₀.carries s) : s₀.carries (s.issueOp t op f) :=
  .issue H h

theorem State.carries.fillArrives {t k : Nat} (h : s₀.carries s) : s₀.carries (s.fillArrives t k) := by
  unfold State.fillArrives
  extract_lets y s1
  split
  · exact h
  · refine .ite h ?_
    refine .ite (.of h) ?_
    extract_lets g s2 at'
    have h1 : s₀.carries g.st := .tileRead (.of h)
    have h2 : s₀.carries s2 := .ite h1 (.of h1)
    split
    · exact .ite (.tileExc (.of h2)) h2
    · exact .ite (.of h2) (.ite h2 (.of h2))

theorem State.carries.sendAs {t stamp : Nat} {u : PUnit} {g : Agent} {ctx : Option Nat} {toMem fenced ro : Bool} {dst : Nat}
    {bs : List Byte} {ctr : Option (Nat × Nat)} (h : s₀.carries s) :
    s₀.carries (s.sendAs t stamp u g ctx toMem fenced ro dst bs ctr) := .of h

theorem State.carries.send {t : Nat} {u : PUnit} {g : Agent} {toMem fenced : Bool} {dst : Nat} {bs : List Byte}
    {ctr : Option (Nat × Nat)} (h : s₀.carries s) : s₀.carries (s.send t u g toMem fenced dst bs ctr) := by
  unfold State.send
  extract_lets s1
  have h1 : s₀.carries s1 := .sendAs h
  split
  · exact .ite (.track h1) h1
  · exact h1

/-! ### Scalar operations, loads and stores (Scalar, Memory) -/

theorem Iss.carried.loaded {t d : Nat} {g : Got} (h : s₀.carries g.st) : Iss.carried s₀ (loaded t d g) := by
  unfold Machine.loaded
  refine .done ?_
  exact .setSreg (.ite (.markUe h) h)

theorem State.carries.alu {t op : Nat} {f : Word → Word → Word} (h : s₀.carries s) : s₀.carries (s.alu t op f) := by
  unfold State.alu
  exact .issueOp (fun _ _ hu => .done (.of hu)) h

theorem State.carries.branch {t op : Nat} {f : Word → Word → Bool} (h : s₀.carries s) : s₀.carries (s.branch t op f) := by
  unfold State.branch
  exact .issueOp (fun _ _ hu => .ite (.jump hu) (.done hu)) h

theorem State.answers.nop {t : Nat} (h : s₀.carries s) : s₀.answers (execNop t s) := by
  unfold execNop
  exact .next (.issueOp (fun _ _ hu => .done hu) h)

theorem State.answers.end_ {t : Nat} (h : s₀.carries s) : s₀.answers (execEnd t s) := by
  unfold execEnd
  exact .next (.issueOp (fun _ _ hu => .done (.of hu)) h)

theorem State.carries.yielded {t : Nat} (h : s₀.carries s) : s₀.carries (s.yielded t) := by
  unfold State.yielded
  extract_lets h1 c
  split
  · exact h
  · exact .ite h (.of h)

theorem State.answers.yield {t : Nat} (h : s₀.carries s) : s₀.answers (execYield t s) := by
  unfold execYield
  exact .next (.issueOp (fun _ _ hu => .done (.of (.yielded hu))) h)

theorem State.answers.j {t : Nat} (h : s₀.carries s) : s₀.answers (execJ t s) := by
  unfold execJ
  exact .next (.issueOp (fun _ _ hu => .jump hu) h)

theorem State.answers.jal {t : Nat} (h : s₀.carries s) : s₀.answers (execJal t s) := by
  unfold execJal
  exact .next (.issueOp (fun _ _ hu => .jump (.of hu)) h)

theorem State.answers.jr {t : Nat} (h : s₀.carries s) : s₀.answers (execJr t s) := by
  unfold execJr
  exact .next (.issueOp (fun _ _ hu => .ite (.exc hu) (.jump hu)) h)

theorem State.answers.beq {t : Nat} (h : s₀.carries s) : s₀.answers (execBeq t s) := by
  unfold execBeq
  exact .next (.branch h)

theorem State.answers.bne {t : Nat} (h : s₀.carries s) : s₀.answers (execBne t s) := by
  unfold execBne
  exact .next (.branch h)

theorem State.answers.blt {t : Nat} (h : s₀.carries s) : s₀.answers (execBlt t s) := by
  unfold execBlt
  exact .next (.branch h)

theorem State.answers.bge {t : Nat} (h : s₀.carries s) : s₀.answers (execBge t s) := by
  unfold execBge
  exact .next (.branch h)

theorem State.answers.bltu {t : Nat} (h : s₀.carries s) : s₀.answers (execBltu t s) := by
  unfold execBltu
  exact .next (.branch h)

theorem State.answers.bgeu {t : Nat} (h : s₀.carries s) : s₀.answers (execBgeu t s) := by
  unfold execBgeu
  exact .next (.branch h)

theorem State.answers.add {t : Nat} (h : s₀.carries s) : s₀.answers (execAdd t s) := by
  unfold execAdd
  exact .next (.alu h)

theorem State.answers.sub {t : Nat} (h : s₀.carries s) : s₀.answers (execSub t s) := by
  unfold execSub
  exact .next (.alu h)

theorem State.answers.and {t : Nat} (h : s₀.carries s) : s₀.answers (execAnd t s) := by
  unfold execAnd
  exact .next (.alu h)

theorem State.answers.or {t : Nat} (h : s₀.carries s) : s₀.answers (execOr t s) := by
  unfold execOr
  exact .next (.alu h)

theorem State.answers.xor {t : Nat} (h : s₀.carries s) : s₀.answers (execXor t s) := by
  unfold execXor
  exact .next (.alu h)

theorem State.answers.sll {t : Nat} (h : s₀.carries s) : s₀.answers (execSll t s) := by
  unfold execSll
  exact .next (.alu h)

theorem State.answers.srl {t : Nat} (h : s₀.carries s) : s₀.answers (execSrl t s) := by
  unfold execSrl
  exact .next (.alu h)

theorem State.answers.sra {t : Nat} (h : s₀.carries s) : s₀.answers (execSra t s) := by
  unfold execSra
  exact .next (.alu h)

theorem State.answers.mul {t : Nat} (h : s₀.carries s) : s₀.answers (execMul t s) := by
  unfold execMul
  exact .next (.alu h)

theorem State.answers.slt {t : Nat} (h : s₀.carries s) : s₀.answers (execSlt t s) := by
  unfold execSlt
  exact .next (.alu h)

theorem State.answers.sltu {t : Nat} (h : s₀.carries s) : s₀.answers (execSltu t s) := by
  unfold execSltu
  exact .next (.alu h)

theorem State.answers.min {t : Nat} (h : s₀.carries s) : s₀.answers (execMin t s) := by
  unfold execMin
  exact .next (.alu h)

theorem State.answers.max {t : Nat} (h : s₀.carries s) : s₀.answers (execMax t s) := by
  unfold execMax
  exact .next (.alu h)

theorem State.answers.lui {t : Nat} (h : s₀.carries s) : s₀.answers (execLui t s) := by
  unfold execLui
  exact .next (.issueOp (fun _ _ hu => .done (.of hu)) h)

theorem State.answers.getinfo {t : Nat} (h : s₀.carries s) : s₀.answers (execGetinfo t s) := by
  unfold execGetinfo
  exact .next (.issueOp (fun _ _ hu => .ite (.exc hu) (.done (.setSreg (.ite (.of hu) hu)))) h)

theorem State.answers.reservedOpcode {t : Nat} (h : s₀.carries s) : s₀.answers (execReservedOpcode t s) := by
  unfold execReservedOpcode
  exact .next (.issue (fun _ _ hu => .exc hu) h)

theorem State.answers.waitc {t : Nat} (h : s₀.carries s) : s₀.answers (execWaitc t s) := by
  unfold execWaitc
  exact .next (.issueOp (fun _ _ hu => .done (.ite hu (.of hu))) h)

theorem State.answers.waitcRelease {t : Nat} (h : s₀.carries s) : s₀.answers (execWaitcRelease t s) := by
  unfold execWaitcRelease
  refine .next ?_
  split
  · exact .ite (.of h) h
  · exact h

theorem State.answers.acset {t : Nat} (h : s₀.carries s) : s₀.answers (execAcset t s) := by
  unfold execAcset
  exact .next (.issueOp (fun _ _ hu => .done (.of hu)) h)

theorem State.answers.acget {t : Nat} (h : s₀.carries s) : s₀.answers (execAcget t s) := by
  unfold execAcget
  exact .next (.issueOp (fun _ _ hu => .done (.of hu)) h)

theorem State.answers.waitu {t : Nat} (h : s₀.carries s) : s₀.answers (execWaitu t s) := by
  unfold execWaitu
  exact .next (.issueOp (fun _ _ hu => .done (.ite hu (.of hu))) h)

theorem State.answers.waituRelease {t : Nat} (h : s₀.carries s) : s₀.answers (execWaituRelease t s) := by
  unfold execWaituRelease
  refine .next ?_
  split
  · exact .ite (.of h) h
  · exact h

theorem State.answers.fence {t : Nat} (h : s₀.carries s) : s₀.answers (execFence t s) := by
  unfold execFence
  exact .next (.issueOp (fun _ _ hu => .ite (.exc hu) (.done (.of hu))) h)

theorem State.answers.fenceRelease {t : Nat} (h : s₀.carries s) : s₀.answers (execFenceRelease t s) := by
  unfold execFenceRelease
  refine .next ?_
  split
  · refine .ite h ?_
    extract_lets s1
    split
    · exact .ite (.of h) (.publish (.of h))
    · exact .of h
  · exact h

theorem State.answers.qinv {t : Nat} (h : s₀.carries s) : s₀.answers (execQinv t s) := by
  unfold execQinv
  exact .next (.issueOp (fun _ _ hu => .done (.ite hu (.of hu))) h)

theorem State.answers.qen {t : Nat} (h : s₀.carries s) : s₀.answers (execQen t s) := by
  unfold execQen
  exact .next (.issueOp (fun _ _ hu => .ite (.done hu) (.ite (.ite (.done (.of hu)) (.exc hu)) (.done (.of hu)))) h)

theorem State.carries.prefetch {t : Nat} {w : Word} {l : Nat} (h : s₀.carries s) : s₀.carries (s.prefetch t w l) := by
  unfold State.prefetch
  extract_lets y
  exact .ite h (.of h)

theorem State.answers.qpf {t : Nat} (h : s₀.carries s) : s₀.answers (execQpf t s) := by
  unfold execQpf
  exact .next (.issueOp (fun _ _ hu => .done (.ite hu (.foldl (fun _ _ hs1 => .prefetch hs1) hu))) h)

theorem State.answers.quoinFill {t k : Nat} (h : s₀.carries s) : s₀.answers (execQuoinFill t k s) := by
  unfold execQuoinFill
  exact .next (.fillArrives h)

theorem State.carries.put {p : Packet} {a : Nat} {bs : List Byte} (h : s₀.carries s) : s₀.carries (s.put p a bs) := by
  unfold State.put
  exact .ite (.memWrite h) (.scrWrite h)

theorem State.carries.land {p : Packet} (h : s₀.carries s) : s₀.carries (s.land p) := by
  unfold State.land
  extract_lets s1 s2
  have h1 : s₀.carries s2 := .ite (.put (.of h)) (.foldl (fun _ _ hs => .put hs) (.of h))
  split
  · exact .count h1
  · exact h1

theorem State.carries.landAll {q : Packet → Bool} (h : s₀.carries s) : s₀.carries (s.landAll q) := by
  unfold State.landAll
  exact .foldl (fun _ _ hs => .land hs) h

theorem State.carries.ownStores {t a n : Nat} (h : s₀.carries s) : s₀.carries (s.ownStores t a n) := by
  unfold State.ownStores
  exact .landAll h

theorem State.carries.seenStores {d : Option Nat} {a n : Nat} (h : s₀.carries s) : s₀.carries (s.seenStores d a n) := by
  unfold State.seenStores
  exact .landAll h

theorem State.answers.arrivalCount {w : Arrival} (h : s₀.carries s) : s₀.answers (execArrivalCount w s) := by
  unfold execArrivalCount
  refine .next ?_
  split
  · exact h
  · refine .ite h ?_
    split
    · exact .land (.ite (.seenStores h) h)
    · split
      · exact h
      · extract_lets s1 s2
        have h1 : s₀.carries s1 := .ite (.seenStores h) h
        have h2 : s₀.carries s2 := .put h1
        exact .of h2
    · exact .ite h (.of (.foldl (fun _ _ hs => .land hs) h))

theorem State.carries.loadRead {t a n : Nat} (h : s₀.carries s) : s₀.carries (s.loadRead t a n).st := by
  unfold State.loadRead
  extract_lets r
  have h1 : s₀.carries r.st := .xlateRun (.track h)
  refine .foldlOn VGot.st (fun v p hs => ?_) h1
  extract_lets g
  have h2 : s₀.carries g.st := .memRead (.ownStores hs)
  exact h2

theorem State.answers.ld {t : Nat} (h : s₀.carries s) : s₀.answers (execLd t s) := by
  unfold execLd
  refine .next ?_
  refine .issueOp (fun w u hu => ?_) h
  extract_lets a n g
  have h1 : s₀.carries g.st := .loadRead hu
  refine .ite (.exc hu) ?_
  split
  · refine .ite .hold ?_
    refine .ite .hold ?_
    split
    · exact .late h1
    · exact .loaded h1
  · split
    · exact .exc hu
    · exact .ite .hold (.loaded (.scrRead hu))

theorem State.carries.sendPieces {t : Nat} {u : PUnit} {g : Agent} {fenced : Bool} {ctr : Option (Nat × Nat)}
    {ps : List (Nat × Nat)} {bs : List Byte} (h : s₀.carries s) : s₀.carries (s.sendPieces t u g fenced ctr ps bs) := by
  induction ps generalizing s bs with
  | nil => exact h
  | cons p ps ih => exact ih (.send h)

theorem State.answers.st {t : Nat} (h : s₀.carries s) : s₀.answers (execSt t s) := by
  unfold execSt
  refine .next ?_
  refine .issueOp (fun w u hu => ?_) h
  extract_lets a n bs r
  have h1 : s₀.carries r.st := .xlateRun hu
  refine .ite (.exc hu) ?_
  split
  · refine .ite .hold ?_
    refine .ite .hold ?_
    split
    · exact .late h1
    · exact .done (.sendPieces h1)
  · split
    · exact .exc hu
    · exact .ite .hold (.done (.scrWrite hu))

theorem State.answers.ldc {t : Nat} (h : s₀.carries s) : s₀.answers (execLdc t s) := by
  unfold execLdc
  refine .next ?_
  refine .issueOp (fun w u hu => ?_) h
  extract_lets a
  refine .ite (.exc hu) ?_
  split
  · rename_i s1 e
    have h1 : s₀.carries s1 := .text_got e (.constRead hu)
    exact .done (.of h1)
  · rename_i e
    exact .line
  · rename_i s1 e
    have h1 : s₀.carries s1 := .text_bad e (.constRead hu)
    exact .exc h1

theorem State.carries.tileAmo {t scope pa fn x cmp n : Nat} (h : s₀.carries s) :
    s₀.carries (s.tileAmo t scope pa fn x cmp n).st := by
  unfold State.tileAmo
  extract_lets g s1
  have h1 : s₀.carries s1 := .seenStores (.ownStores h)
  exact .iteOn AmoGot.st (.amoDie h1) (.amoHome h1)

theorem State.answers.amo {t : Nat} (h : s₀.carries s) : s₀.answers (execAmo t s) := by
  unfold execAmo
  refine .next ?_
  refine .issueOp (fun w u hu => ?_) h
  extract_lets a fn y
  have h1 : s₀.carries y.st := .xlate (.track hu)
  split
  · exact .exc hu
  · refine .ite (.exc hu) ?_
    refine .ite (.exc hu) ?_
    refine .ite .hold ?_
    refine .ite .hold ?_
    split
    · exact .late h1
    · exact .ite .hold (.loaded (.tileAmo h1))

theorem State.carries.moveScr {t : Nat} {c : Scr} {n : Nat} (h : s₀.carries s) : s₀.carries (s.moveScr t c n).st := by
  unfold State.moveScr
  extract_lets g
  have h1 : s₀.carries g.st := .scrRead h
  exact .ite (.markUe h1) h1

theorem State.carries.moveMem {t a n : Nat} (h : s₀.carries s) : s₀.carries (s.moveMem t a n).st := by
  unfold State.moveMem
  extract_lets r
  have h1 : s₀.carries r.st := .xlateRun (.track h)
  refine .foldlOn VGot.st (fun v p hs => ?_) h1
  extract_lets g
  have h2 : s₀.carries g.st := .memRead hs
  exact .ite (.markUe h2) h2

theorem State.answers.smov {t : Nat} (h : s₀.carries s) : s₀.answers (execSmov t s) := by
  unfold execSmov
  refine .next ?_
  refine .issueOp (fun w u hu => ?_) h
  extract_lets n dst src
  split
  · exact .exc hu
  · split
    · exact .exc hu
    · exact .exc hu
    · exact .ite .hold (.ite .hold (.done (.send (.moveScr hu))))

theorem State.answers.mcpyIn {t : Nat} (h : s₀.carries s) : s₀.answers (execMcpyIn t s) := by
  unfold execMcpyIn
  refine .next ?_
  refine .issueOp (fun w u hu => ?_) h
  extract_lets n dst src g
  have h1 : s₀.carries g.st := .moveMem hu
  split
  · exact .exc hu
  · split
    · exact .exc hu
    · refine .ite .hold ?_
      refine .ite .hold ?_
      refine .ite .hold ?_
      split
      · exact .late h1
      · exact .done (.send h1)

theorem State.answers.mcpyOut {t : Nat} (h : s₀.carries s) : s₀.answers (execMcpyOut t s) := by
  unfold execMcpyOut
  refine .next ?_
  refine .issueOp (fun w u hu => ?_) h
  extract_lets n dst src r
  have h1 : s₀.carries r.st := .xlateRun hu
  split
  · exact .exc hu
  · split
    · exact .exc hu
    · refine .ite .hold ?_
      refine .ite .hold ?_
      refine .ite .hold ?_
      split
      · exact .late h1
      · extract_lets g
        have h2 : s₀.carries g.st := .moveScr h1
        exact .done (.sendPieces h2)

theorem State.answers.sfill {t : Nat} (h : s₀.carries s) : s₀.answers (execSfill t s) := by
  unfold execSfill
  refine .next ?_
  refine .issueOp (fun w u hu => ?_) h
  extract_lets n dst v
  split
  · exact .exc hu
  · split
    · exact .exc hu
    · exact .ite .hold (.ite .hold (.done (.send hu)))

theorem State.answers.plinthScrub {t : Nat} (h : s₀.carries s) : s₀.answers (execPlinthScrub t s) := by
  unfold execPlinthScrub
  exact .next (.ite (.foldl (fun _ _ hs => .fixScrCe hs) (.foldl (fun _ _ hs => .meetScrUe hs) h)) h)

/-! ### The corbel row (Corbel) -/

theorem State.carries.corbelStore {t stamp key ctr : Nat} {bs : List Byte} (h : s₀.carries s) :
    s₀.carries (s.corbelStore t stamp key ctr bs) := by
  unfold State.corbelStore
  exact .ite (.sendAs h) (.scrWrite h)

theorem State.carries.corbelDo {t : Nat} {o : CorbelOp} (h : s₀.carries s) : s₀.carries (s.corbelDo t o) := by
  unfold State.corbelDo
  extract_lets w y a b c x' lanesTo map1 map2 map3 sx set3 q up src n s1
  have h1 : s₀.carries s1 := .corbelStore (.of h)
  split
  · exact .of h
  · exact .of h
  · exact .of h
  · exact .of h
  · exact .of h
  · exact .of h
  · exact .of h
  · exact .of h
  · exact .of h
  · exact .of h
  · exact .of h
  · exact .of h
  · exact .of h
  · exact .of h
  · exact .of h
  · exact .of h
  · exact .of h
  · exact .of h
  · exact .of h
  · exact .of h
  · exact .corbelStore (.of h)
  · exact .corbelStore h1
  · exact h

theorem State.carries.countWait {t sel : Nat} (h : s₀.carries s) : s₀.carries (s.countWait t sel) := .of h

theorem RowOut.carried.corbelHead {t : Nat} {o : CorbelOp} (h : s₀.carries s) : RowOut.carried s₀ (s.corbelHead t o) := by
  unfold State.corbelHead
  extract_lets waits
  clear_value waits
  split
  · exact .underrun
  · exact .stall (.foldl (fun _ _ hs => .countWait hs) h)
  · exact .ite (.stall h) (.ite (.stall h) (.done (.of (.corbelDo h))))

theorem State.carries.corbelRun {t fuel : Nat} (h : s₀.carries s) : s₀.carries (s.corbelRun t fuel) := by
  induction fuel generalizing s with
  | zero => exact h
  | succ fuel ih =>
    unfold State.corbelRun
    split
    · exact h
    · split
      · next e => exact .row_stall e (.corbelHead h)
      · exact .tileExc (.of h)
      · next e => exact ih (.of (.row_done e (.corbelHead h)))

theorem State.carries.corbelDrain {t : Nat} (h : s₀.carries s) : s₀.carries (s.corbelDrain t) := by
  unfold State.corbelDrain
  exact .corbelRun h

theorem Iss.carried.corbelPut {t : Nat} {w s1 : Word} {a1 a2 : Nat} (h : s₀.carries s) :
    Iss.carried s₀ (s.corbelPut t w s1 a1 a2) := by
  unfold State.corbelPut
  extract_lets y o
  exact .ite .hold (.done (.of h))

theorem State.carries.corbelOp {t op : Nat} (h : s₀.carries s) : s₀.carries (s.corbelOp t op) := by
  unfold State.corbelOp
  refine .corbelDrain ?_
  refine .issueOp (fun w u hu => ?_) h
  split
  · exact .exc hu
  · exact .corbelPut hu

theorem State.answers.cfma {t : Nat} (h : s₀.carries s) : s₀.answers (execCfma t s) := by
  unfold execCfma
  exact .next (.corbelOp h)

theorem State.answers.cadd {t : Nat} (h : s₀.carries s) : s₀.answers (execCadd t s) := by
  unfold execCadd
  exact .next (.corbelOp h)

theorem State.answers.csub {t : Nat} (h : s₀.carries s) : s₀.answers (execCsub t s) := by
  unfold execCsub
  exact .next (.corbelOp h)

theorem State.answers.cmul {t : Nat} (h : s₀.carries s) : s₀.answers (execCmul t s) := by
  unfold execCmul
  exact .next (.corbelOp h)

theorem State.answers.cmax {t : Nat} (h : s₀.carries s) : s₀.answers (execCmax t s) := by
  unfold execCmax
  exact .next (.corbelOp h)

theorem State.answers.cmin {t : Nat} (h : s₀.carries s) : s₀.answers (execCmin t s) := by
  unfold execCmin
  exact .next (.corbelOp h)

theorem State.answers.cdotBf16 {t : Nat} (h : s₀.carries s) : s₀.answers (execCdotBf16 t s) := by
  unfold execCdotBf16
  exact .next (.corbelOp h)

theorem State.answers.cdotFp8 {t : Nat} (h : s₀.carries s) : s₀.answers (execCdotFp8 t s) := by
  unfold execCdotFp8
  exact .next (.corbelOp h)

theorem State.answers.cmov {t : Nat} (h : s₀.carries s) : s₀.answers (execCmov t s) := by
  unfold execCmov
  exact .next (.corbelOp h)

theorem State.answers.ccvt {t : Nat} (h : s₀.carries s) : s₀.answers (execCcvt t s) := by
  unfold execCcvt
  exact .next (.corbelOp h)

theorem State.answers.cqmx {t : Nat} (h : s₀.carries s) : s₀.answers (execCqmx t s) := by
  unfold execCqmx
  exact .next (.corbelOp h)

theorem State.answers.csfu {t : Nat} (h : s₀.carries s) : s₀.answers (execCsfu t s) := by
  unfold execCsfu
  exact .next (.corbelOp h)

theorem State.answers.csfuExpm {t : Nat} (h : s₀.carries s) : s₀.answers (execCsfuExpm t s) := by
  unfold execCsfuExpm
  exact .next (.corbelOp h)

theorem State.answers.cpushb {t : Nat} (h : s₀.carries s) : s₀.answers (execCpushb t s) := by
  unfold execCpushb
  exact .next (.corbelOp h)

theorem State.answers.cred {t : Nat} (h : s₀.carries s) : s₀.answers (execCred t s) := by
  unfold execCred
  exact .next (.corbelOp h)

theorem State.answers.cbset {t : Nat} (h : s₀.carries s) : s₀.answers (execCbset t s) := by
  unfold execCbset
  exact .next (.corbelOp h)

theorem State.answers.csinit {t : Nat} (h : s₀.carries s) : s₀.answers (execCsinit t s) := by
  unfold execCsinit
  exact .next (.corbelOp h)

theorem State.answers.csmax {t : Nat} (h : s₀.carries s) : s₀.answers (execCsmax t s) := by
  unfold execCsmax
  exact .next (.corbelOp h)

theorem State.answers.cssum {t : Nat} (h : s₀.carries s) : s₀.answers (execCssum t s) := by
  unfold execCssum
  exact .next (.corbelOp h)

theorem State.answers.csfin {t : Nat} (h : s₀.carries s) : s₀.answers (execCsfin t s) := by
  unfold execCsfin
  exact .next (.corbelOp h)

theorem Iss.carried.storePut {t : Nat} {w : Word} {a b : Scr} (h : s₀.carries s) : Iss.carried s₀ (s.storePut t w a b) := by
  unfold State.storePut
  exact .ite .hold (.corbelPut h)

theorem State.answers.cst {t : Nat} (h : s₀.carries s) : s₀.answers (execCst t s) := by
  unfold execCst
  refine .next ?_
  refine .corbelDrain ?_
  refine .issueOp (fun w u hu => ?_) h
  extract_lets a
  split
  · exact .exc hu
  · refine .ite (.exc hu) ?_
    split
    · exact .exc hu
    · exact .storePut hu

theorem State.answers.cstMx {t : Nat} (h : s₀.carries s) : s₀.answers (execCstMx t s) := by
  unfold execCstMx
  refine .next ?_
  refine .corbelDrain ?_
  refine .issueOp (fun w u hu => ?_) h
  extract_lets a b
  split
  · exact .exc hu
  · split
    · exact .exc hu
    · exact .exc hu
    · exact .storePut hu

theorem State.answers.cbget {t : Nat} (h : s₀.carries s) : s₀.answers (execCbget t s) := by
  unfold execCbget
  exact .next (.issueOp (fun _ _ hu => .ite .hold (.done (.of hu))) h)

/-! ### Descriptors and feeders (Feeder) -/

theorem Desc.carried.descRead {t : Nat} {scratch : Bool} {a al n : Nat} (h : s₀.carries s) :
    Desc.carried s₀ (s.descRead t scratch a al n) := by
  unfold State.descRead
  refine .ite (.exc h) ?_
  split
  · split
    · exact .exc h
    · extract_lets g
      have h1 : s₀.carries g.st := .scrRead h
      exact .ite (.late (.markUe h1)) (.got h1)
  · refine .ite (.exc (.wideVa h)) ?_
    split
    · rename_i s1 e
      have h1 : s₀.carries s1 := .text_got e (.constRead h)
      exact .got h1
    · rename_i e
      exact .miss
    · rename_i s1 e
      have h1 : s₀.carries s1 := .text_bad e (.constRead h)
      exact .ite (.exc h1) (.late h1)

theorem FeedM.carried.feedRead {t m : Nat} {scratch : Bool} {a n : Nat} : FeedM.carried s₀ (feedRead t m scratch a n) := by
  unfold Machine.feedRead
  refine .lam fun f hf => ?_
  extract_lets zeros g
  have h1 : s₀.carries g.st := .vaRead hf
  split
  · exact hf
  · split
    · exact hf
    · split
      · split
        · exact hf
        · extract_lets g1
          exact .scrRead hf
      · split
        · exact h1
        · exact h1

theorem FeedM.carried.feed {t m : Nat} {scratch : Bool} {a n : Nat} {ctr : Fld} :
    FeedM.carried s₀ (feed t m scratch a n ctr) := by
  unfold Machine.feed
  exact .bind .feedRead fun _ => .lam fun _ hf => .iteOn Feed.st hf (.of hf)

theorem FeedM.carried.ashBlocks {t m code : Nat} {space scSpace : Bool} {payload header b0 n : Nat} {two : Bool} {ctr : Fld} :
    FeedM.carried s₀ (ashBlocks t m code space scSpace payload header b0 n two ctr) := by
  unfold Machine.ashBlocks
  exact .bind .feed fun _ => .mapM fun _ => .bind (.set fun _ hs => .of hs) fun _ => .ite .pure (.bind .feed fun _ => .ite
    .pure (.ite (.bind (.set fun _ hs => .ite (.of hs) hs) fun _ => .pure) .pure))

theorem FeedM.carried.tokenOf {t m : Nat} {d : List Byte} {i : Nat} : FeedM.carried s₀ (tokenOf t m d i) := by
  unfold Machine.tokenOf
  exact .bind .feed fun _ => .pure

theorem FeedM.carried.kvHold {t m : Nat} {d : List Byte} {key k last : Nat} : FeedM.carried s₀ (kvHold t m d key k last) := by
  unfold Machine.kvHold
  extract_lets n
  exact .bind .feed fun _ => .lam fun _ hf => hf

theorem FeedM.carried.kvEntry {t m : Nat} {d : List Byte} {lane tk last : Nat} :
    FeedM.carried s₀ (kvEntry t m d lane tk last) := by
  unfold Machine.kvEntry
  extract_lets k key held do_jp do_jp1
  refine .bind (.lam fun _ hf => hf) fun now => ?_
  split
  · exact .bind .kvHold fun _ => .bind (.lam fun _ hf => hf) fun _ => .bind (.lam fun _ hf => .of hf) fun _ => .ite (.bind
      .kvHold fun _ => .lam fun _ hf => hf) (.lam fun _ hf => hf)
  · exact .bind (.lam fun _ hf => hf) fun _ => .bind (.lam fun _ hf => .of hf) fun _ => .ite (.bind .kvHold fun _ => .lam fun _
      hf => hf) (.lam fun _ hf => hf)

theorem FeedM.carried.kvAddr {t m : Nat} {d : List Byte} {lane tk last : Nat} {fresh : Bool} :
    FeedM.carried s₀ (kvAddr t m d lane tk last fresh) := by
  unfold Machine.kvAddr
  exact .bind .kvEntry fun _ => .ite (.bind (.set fun _ hs => .of hs) fun _ => .pure) .pure

theorem FeedM.carried.actSlice {t m : Nat} {d : List Byte} {rows r i c : Nat} :
    FeedM.carried s₀ (actSlice t m d rows r i c) := by
  unfold Machine.actSlice
  extract_lets code kn k0 kk ctr dense line n tk
  split
  · exact .ite .pure (.bind .ashBlocks fun _ => .pure)
  · refine .bind .kvAddr fun a => ?_
    split
    · exact .pure
    · exact .bind .feed fun _ => .pure
  · exact .bind .tokenOf fun _ => .ite .pure (.bind .feed fun _ => .bind .feed fun _ => .pure)
  · exact .bind .feed fun _ => .bind .feed fun _ => .pure

theorem FeedM.carried.weightCols {t m : Nat} {d : List Byte} {rho gam : Nat} {js : List Nat} :
    FeedM.carried s₀ (weightCols t m d rho gam js) := by
  unfold Machine.weightCols
  extract_lets code kn k0 n0 kk nn ctr w gs
  exact .ite (.mapM fun _ => .ite .pure (.ite (.bind .ashBlocks fun _ => .ite .pure .pure) (.bind .feed fun _ => .ite (.bind
    .feed fun _ => .bind .feed fun _ => .pure) (.bind .feed fun _ => .pure)))) (.bind (.mapM fun _ => .feed) fun _ => .pure)

theorem FeedM.carried.laneEntry {t : Nat} {d : List Byte} {n u : Nat} : FeedM.carried s₀ (laneEntry t d n u) := by
  unfold Machine.laneEntry
  extract_lets ctr code last row word g w len i hN tau h
  split
  · exact .bind .tokenOf fun _ => .ite .pure (.ite (.bind (.lam fun _ hf => hf) fun _ => .bind .feed fun _ => .pure) (.bind
      .feed fun _ => .pure))
  · split
    · refine .mapM fun j => ?_
      extract_lets tk
      refine .bind ?_ fun v => ?_
      · unfold word
        refine .bind .kvAddr fun a => ?_
        split
        · exact .pure
        · exact .bind .feed fun _ => .pure
      · exact .pure
    · refine .bind ?_ fun cols => ?_
      · refine .mapM fun n1 => ?_
        extract_lets tk
        refine .bind .kvAddr fun a => ?_
        split
        · exact .pure
        · exact .feed
      · exact .pure
  · exact .ite (.bind (.lam fun _ hf => hf) fun _ => .bind .feed fun _ => .pure) (.bind .feed fun _ => .pure)

/-! ### The sorter (Riddle) -/

theorem FeedM.carried.sortRead {t : Nat} {scratch : Bool} {a n : Nat} : FeedM.carried s₀ (sortRead t scratch a n) := by
  unfold Machine.sortRead
  refine .lam fun f hf => ?_
  extract_lets zeros g
  have h1 : s₀.carries g.st := .tileRead hf
  split
  · exact hf
  · split
    · split
      · exact hf
      · extract_lets g1
        exact .scrRead hf
    · split
      · exact h1
      · exact h1

theorem FeedM.carried.sortDest {t : Nat} {scratch : Bool} {a n : Nat} : FeedM.carried s₀ (sortDest t scratch a n) := by
  unfold Machine.sortDest
  refine .lam fun f hf => ?_
  split
  · exact hf
  · split
    · split
      · exact hf
      · exact hf
    · extract_lets r
      have h1 : s₀.carries r.st := .xlateRun hf
      split
      · exact h1
      · exact h1

theorem FeedM.carried.sortWrite {t : Nat} {scratch : Bool} {a : Nat} {bs : List Byte} {ctr : Option Nat} :
    FeedM.carried s₀ (sortWrite t scratch a bs ctr) := by
  unfold Machine.sortWrite
  exact .bind .sortDest fun _ => .pure

theorem State.carries.sortSend {j : RJob} {l : List SortOut} (h : s₀.carries s) : s₀.carries (s.sortSend j l) := by
  unfold State.sortSend
  exact .foldl (fun _ _ hs => .sendAs hs) h

theorem FeedM.carried.assign {j : RJob} {token flags : Nat} {l : List (Nat × Nat × Nat)} {counts : List Nat} {drops : Nat} :
    FeedM.carried s₀ (assign j token flags l counts drops) := by
  induction l generalizing counts drops with
  | nil => exact .pure
  | cons x l ih =>
    unfold Machine.assign
    refine .ite (.bind .sortWrite fun _ => .bind ih fun _ => .pure) (.ite ?_ ?_)
    · exact .bind .sortWrite fun _ => .bind ih fun _ => .pure
    · exact .bind (.set fun _ hs => .of hs) fun _ => .bind .pure fun _ => .bind ih fun _ => .pure

theorem FeedM.carried.sortToken {j : RJob} {bias : List Nat} {row : Nat} {counts : List Nat} {drops : Nat} :
    FeedM.carried s₀ (sortToken j bias row counts drops) := by
  unfold Machine.sortToken
  extract_lets n w
  exact .bind .sortRead fun _ => .ite (.bind (.set fun _ hs => .of hs) fun _ => .assign) .assign

theorem FeedM.carried.sortAll {j : RJob} {bias rows counts : List Nat} {drops : Nat} :
    FeedM.carried s₀ (sortAll j bias rows counts drops) := by
  induction rows generalizing counts drops with
  | nil => exact .pure
  | cons r rows ih =>
    unfold Machine.sortAll
    exact .bind .sortToken fun _ => .bind ih fun _ => .pure

theorem State.carries.setJobs {d : Nat} {l : List RJob} (h : s₀.carries s) : s₀.carries (s.setJobs d l) := .of h

theorem State.answers.riddleJobStart {d : Nat} (h : s₀.carries s) : s₀.answers (execRiddleJobStart d s) := by
  unfold execRiddleJobStart
  refine .next ?_
  split
  · exact h
  · refine .ite h ?_
    extract_lets do_jp run
    split
    · rename_i f e
      have h1 : s₀.carries f.st := .feed_eq e (.ite (.bind .sortRead fun _ => .sortAll) (.bind .pure fun _ => .sortAll)) h
      extract_lets s1 s2 s3 s4
      have h2 : s₀.carries s1 := .ite (.markUe (.of h1)) h1
      split
      · exact .tileExc (.setJobs h2)
      · exact .sortSend (.setJobs (.of h2))

theorem FeedM.carried.padBuckets {j : RJob} {l : List Nat} : FeedM.carried s₀ (padBuckets j l) := by
  induction l with
  | nil => exact .pure
  | cons e l ih =>
    unfold Machine.padBuckets
    exact .ite (.bind .pure fun _ => .bind ih fun _ => .pure) (.bind .sortWrite fun _ => .bind ih fun _ => .pure)

theorem State.answers.riddleJobFinish {d : Nat} (h : s₀.carries s) : s₀.answers (execRiddleJobFinish d s) := by
  unfold execRiddleJobFinish
  refine .next ?_
  split
  · exact h
  · refine .ite h ?_
    split
    · split
      · rename_i f e
        have h1 : s₀.carries f.st := .feed_eq e .padBuckets h
        split
        · exact .tileExc (.setJobs h1)
        · exact .sortSend (.setJobs h1)
    · refine .ite h ?_
      extract_lets tbl
      split
      · rename_i f e
        have h1 : s₀.carries f.st := .feed_eq e .sortWrite h
        split
        · exact .tileExc (.setJobs h1)
        · exact .sortSend (.setJobs h1)

/-! ### Streams (Streams) -/

theorem Iss.carried.submitSort {t : Nat} {w v : Word} {d : List Byte} (h : s₀.carries s) :
    Iss.carried s₀ (s.submitSort t w v d) := by
  unfold State.submitSort
  refine .ite (.exc h) ?_
  split
  · exact .exc h
  · refine .bind (fun j u hu => ?_) (.descRead h)
    split
    · exact .exc hu
    · refine .bind (fun tb u1 hu1 => ?_) (.descRead hu)
      extract_lets ex q y
      split
      · exact .exc hu1
      · exact .ite .hold (.done (.setJobs hu1))

theorem State.answers.lstr {t : Nat} (h : s₀.carries s) : s₀.answers (execLstr t s) := by
  unfold execLstr
  refine .next ?_
  refine .issueOp (fun w u hu => ?_) h
  extract_lets a v put
  refine .ite (.exc hu) ?_
  split
  · split
    · exact .exc hu
    · exact .ite .hold (.done (.of hu))
  · exact .exc hu
  · refine .bind (fun d u1 hu1 => ?_) (.descRead hu)
    split
    · exact .exc hu1
    · exact .late hu1
    · refine .ite (.submitSort hu1) ?_
      split
      · exact .exc hu1
      · exact .ite .hold (.done (.of hu1))

theorem State.answers.bstr {t : Nat} (h : s₀.carries s) : s₀.answers (execBstr t s) := by
  unfold execBstr
  refine .next ?_
  refine .issueOp (fun w u hu => ?_) h
  extract_lets a v y
  refine .ite (.exc hu) ?_
  split
  · exact .exc hu
  · exact .ite .hold (.done (.of hu))

theorem State.carries.strEntry {t : Nat} {m : Strm} {n : Nat} (h : s₀.carries s) : s₀.carries (s.strEntry t m n).2.st := by
  unfold State.strEntry
  split
  · extract_lets a g
    exact .scrRead h
  · exact .feedM .laneEntry h

theorem State.carries.entryArrives {t : Nat} {bcast : Bool} (h : s₀.carries s) : s₀.carries (s.entryArrives t bcast) := by
  unfold State.entryArrives
  extract_lets y n stopped
  split
  · exact h
  · refine .ite h ?_
    split
    · rename_i f e
      have h1 : s₀.carries f.st := .of_eq (congrArg (fun p => p.2.st) e) (.strEntry h)
      extract_lets s1 next
      have h2 : s₀.carries s1 := .ite (.markUe (.of h1)) h1
      split
      · exact .tileExc (.of h2)
      · exact .ite (.of h2) (.corbelDrain (.of h2))

theorem State.answers.streamEntryArrival {t : Nat} {bcast : Bool} (h : s₀.carries s) :
    s₀.answers (execStreamEntryArrival t bcast s) := by
  unfold execStreamEntryArrival
  exact .next (.entryArrives h)

/-! ### Arches (Arch) -/

theorem State.carries.setArch {t : Nat} {c : ArchCtl} (h : s₀.carries s) : s₀.carries (s.setArch t c) := .of h

theorem State.answers.wload {t : Nat} (h : s₀.carries s) : s₀.answers (execWload t s) := by
  unfold execWload
  refine .next ?_
  refine .issueOp (fun w u hu => ?_) h
  split
  · exact .exc hu
  · refine .bind (fun d u1 hu1 => ?_) (.descRead hu)
    split
    · exact .exc hu1
    · exact .late hu1
    · split
      · exact .exc hu1
      · extract_lets y c
        exact .ite .hold (.done (.setArch hu1))

theorem State.carries.loadStaging {m : Nat} {b : WBlock} (h : s₀.carries s) : s₀.carries (s.loadStaging m b) := .of h

theorem State.carries.stageAll {t : Nat} {h : Shape} {num : Nat} {d : List Byte} {js : List Nat} (hc : s₀.carries s) :
    s₀.carries (s.stageAll t h num d js).1 := by
  unfold State.stageAll
  refine .foldlOn Prod.fst (fun y i hs => ?_) hc
  split
  · split
    · exact hs
    · extract_lets m
      split
      · rename_i f e
        have h1 : s₀.carries f.st := .feed_eq e .weightCols hs
        extract_lets s1
        have h2 : s₀.carries s1 := .ite (.markUe (.of h1)) h1
        exact .loadStaging h2

theorem State.answers.wloadComplete {t : Nat} (h : s₀.carries s) : s₀.answers (execWloadComplete t s) := by
  unfold execWloadComplete
  refine .next ?_
  split
  · exact h
  · extract_lets c
    split
    · exact h
    · refine .ite h ?_
      split
      · rename_i s1 _ e
        have h1 : s₀.carries s1 := .of_eq (congrArg Prod.fst e) (.stageAll h)
        split
        · exact .tileExc (.setArch h1)
        · exact .setArch h1

theorem State.answers.drain {t : Nat} (h : s₀.carries s) : s₀.answers (execDrain t s) := by
  unfold execDrain
  refine .next ?_
  refine .issueOp (fun w u hu => ?_) h
  split
  · exact .exc hu
  · refine .bind (fun d u1 hu1 => ?_) (.descRead hu)
    split
    · exact .exc hu1
    · extract_lets c
      exact .ite .hold (.done (.setArch hu1))

theorem State.carries.showStream {h : Shape} {i : Nat} (hc : s₀.carries s) : s₀.carries (s.showStream h i) := by
  unfold State.showStream
  exact .foldl (fun _ _ hs => .of hs) hc

theorem State.answers.rstream {t : Nat} (h : s₀.carries s) : s₀.answers (execRstream t s) := by
  unfold execRstream
  refine .next ?_
  refine .issueOp (fun w u hu => ?_) h
  split
  · exact .exc hu
  · extract_lets c n
    split
    · refine .ite (.exc hu) ?_
      refine .bind (fun d u1 hu1 => ?_) (.descRead hu)
      split
      · exact .exc hu1
      · exact .late hu1
      · split
        · exact .exc hu1
        · exact .ite .hold (.done (.ite (.showStream (.setArch hu1)) (.setArch hu1)))
    · exact .exc hu

theorem State.carries.copyWeights {m k : Nat} {joined second : Bool} (h : s₀.carries s) :
    s₀.carries (s.copyWeights m k joined second) := .of h

theorem State.answers.weightCopy {t : Nat} (h : s₀.carries s) : s₀.answers (execWeightCopy t s) := by
  unfold execWeightCopy
  refine .next ?_
  split
  · exact h
  · extract_lets c
    split
    · exact h
    · extract_lets done s1
      have h1 : s₀.carries s1 := .foldl (fun _ _ hs => .copyWeights hs) h
      exact .ite (.setArch h) (.ite h (.ite (.setArch h1) (.setArch h1)))

theorem State.carries.countRow {h : Shape} {g act wgt : Nat} {acts : List (List (Nat × Nat))} {blocks : List WBlock}
    (hc : s₀.carries s) : s₀.carries (s.countRow h g act wgt acts blocks) := by
  unfold State.countRow
  exact .foldl (fun _ _ hs => .of hs) hc

theorem FeedM.carried.rowActs {t : Nat} {h : Shape} {m : ArchStream} {c r : Nat} : FeedM.carried s₀ (rowActs t h m c r) := by
  unfold Machine.rowActs
  split
  · exact .pure
  · refine .mapM fun i => ?_
    refine .lam fun f hf => ?_
    extract_lets k
    split
    · rename_i g e
      have h1 : s₀.carries g.st := .feed_eq e .actSlice hf
      extract_lets st
      exact .ite (.markUe (.of h1)) h1

theorem FeedM.carried.readRows {t : Nat} {h : Shape} {c r n : Nat} {m : ArchStream} :
    FeedM.carried s₀ (readRows t h c r n m) := by
  unfold Machine.readRows
  exact .bind (.mapM fun _ => .bind .rowActs fun _ => .pure) fun _ => .lam fun _ hf => hf

theorem State.answers.streamStart {t : Nat} (h : s₀.carries s) : s₀.answers (execStreamStart t s) := by
  unfold execStreamStart
  refine .next ?_
  split
  · exact h
  · extract_lets c
    split
    · exact h
    · extract_lets prev s1 ready
      have h1 : s₀.carries s1 := .showStream h
      refine .ite h ?_
      split
      · rename_i f e
        have h2 : s₀.carries f.st := by
          refine .of_eq (congrArg (fun p => p.2.st) e) ?_
          clear_value prev
          split
          · exact h1
          · split
            · rename_i f1 e1
              exact .feed_eq e1 .readRows h1
        split
        · rename_i f1 e1
          have h3 : s₀.carries f1.st := .feed_eq e1 .readRows h2
          split
          · exact .tileExc (.setArch h3)
          · extract_lets c1 s2
            have h4 : s₀.carries s2 := .setArch h3
            exact .foldl (fun _ _ hs => .of hs) h4

theorem FeedM.carried.drainRead {t k : Nat} {scratch : Bool} {a n : Nat} : FeedM.carried s₀ (drainRead t k scratch a n) := by
  unfold Machine.drainRead
  refine .lam fun f hf => ?_
  extract_lets f1
  have h1 : s₀.carries f1.st := .landAll hf
  split
  · rename_i g e
    have h2 : s₀.carries g.st := .feed_eq e .feedRead h1
    exact .ite (.markUe (.of h2)) h2

theorem FeedM.carried.drainStore {t k a : Nat} {bs : List Byte} : FeedM.carried s₀ (drainStore t k a bs) := by
  unfold Machine.drainStore
  refine .lam fun f hf => ?_
  split
  · exact hf
  · split
    · exact hf
    · exact .of (.scrWrite hf)

theorem State.carries.drainPieces {t k stamp : Nat} {ctr : Option (Nat × Nat)} {ps : List (Nat × Nat)} {bs : List Byte}
    (h : s₀.carries s) : s₀.carries (s.drainPieces t k stamp ctr ps bs) := by
  induction ps generalizing s bs with
  | nil => exact .of h
  | cons p ps ih => exact ih (.of h)

theorem FeedM.carried.drainSend {t k stamp : Nat} {d : List Byte} {a : Nat} {bs : List Byte} :
    FeedM.carried s₀ (drainSend t k stamp d a bs) := by
  unfold Machine.drainSend
  refine .lam fun f hf => ?_
  extract_lets ctr r s
  have h1 : s₀.carries r.st := .xlateRun hf
  have h2 : s₀.carries s := .drainPieces h1
  split
  · exact hf
  · split
    · split
      · exact hf
      · extract_lets key s1
        have h3 : s₀.carries s1 := .sendAs hf
        exact .of h3
    · split
      · exact h1
      · exact .of h2

theorem FeedM.carried.drainRow {t : Nat} {h : Shape} {m : ArchStream} {blocks : List WBlock} {wd : List Byte} {g r : Nat} :
    FeedM.carried s₀ (drainRow t h m blocks wd g r) := by
  unfold Machine.drainRow
  extract_lets dd k n act int c a w
  refine .bind .rowActs fun acts => ?_
  refine .bind (.set fun _ hs => .countRow hs) fun r1 => ?_
  extract_lets vals do_jp do_jp1
  split
  · refine .bind .drainRead fun bs => ?_
    refine .bind .pure fun base => ?_
    unfold do_jp1
    extract_lets vals1 do_jp2 do_jp3
    split
    · refine .bind .drainStore fun r2 => ?_
      unfold do_jp3
      refine .ite ?_ .pure
      split
      · exact .bind .drainRead fun _ => .ite (.bind .drainRead fun _ => .bind .drainSend fun _ => .pure) (.bind .pure fun _ =>
          .bind .drainSend fun _ => .pure)
      · exact .bind .pure fun _ => .ite (.bind .drainRead fun _ => .bind .drainSend fun _ => .pure) (.bind .pure fun _ => .bind
          .drainSend fun _ => .pure)
    · unfold do_jp3
      refine .ite ?_ .pure
      split
      · exact .bind .drainRead fun _ => .ite (.bind .drainRead fun _ => .bind .drainSend fun _ => .pure) (.bind .pure fun _ =>
          .bind .drainSend fun _ => .pure)
      · exact .bind .pure fun _ => .ite (.bind .drainRead fun _ => .bind .drainSend fun _ => .pure) (.bind .pure fun _ => .bind
          .drainSend fun _ => .pure)
  · split
    · refine .bind .drainRead fun bs => ?_
      refine .bind .pure fun base => ?_
      unfold do_jp1
      extract_lets vals1 do_jp2 do_jp3
      split
      · refine .bind .drainStore fun r2 => ?_
        unfold do_jp3
        refine .ite ?_ .pure
        split
        · exact .bind .drainRead fun _ => .ite (.bind .drainRead fun _ => .bind .drainSend fun _ => .pure) (.bind .pure fun _
            => .bind .drainSend fun _ => .pure)
        · exact .bind .pure fun _ => .ite (.bind .drainRead fun _ => .bind .drainSend fun _ => .pure) (.bind .pure fun _ =>
            .bind .drainSend fun _ => .pure)
      · unfold do_jp3
        refine .ite ?_ .pure
        split
        · exact .bind .drainRead fun _ => .ite (.bind .drainRead fun _ => .bind .drainSend fun _ => .pure) (.bind .pure fun _
            => .bind .drainSend fun _ => .pure)
        · exact .bind .pure fun _ => .ite (.bind .drainRead fun _ => .bind .drainSend fun _ => .pure) (.bind .pure fun _ =>
            .bind .drainSend fun _ => .pure)
    · refine .bind .pure fun base => ?_
      unfold do_jp1
      extract_lets vals1 do_jp2 do_jp3
      split
      · refine .bind .drainStore fun r2 => ?_
        unfold do_jp3
        refine .ite ?_ .pure
        split
        · exact .bind .drainRead fun _ => .ite (.bind .drainRead fun _ => .bind .drainSend fun _ => .pure) (.bind .pure fun _
            => .bind .drainSend fun _ => .pure)
        · exact .bind .pure fun _ => .ite (.bind .drainRead fun _ => .bind .drainSend fun _ => .pure) (.bind .pure fun _ =>
            .bind .drainSend fun _ => .pure)
      · unfold do_jp3
        refine .ite ?_ .pure
        split
        · exact .bind .drainRead fun _ => .ite (.bind .drainRead fun _ => .bind .drainSend fun _ => .pure) (.bind .pure fun _
            => .bind .drainSend fun _ => .pure)
        · exact .bind .pure fun _ => .ite (.bind .drainRead fun _ => .bind .drainSend fun _ => .pure) (.bind .pure fun _ =>
            .bind .drainSend fun _ => .pure)

theorem State.answers.drainRow {t col : Nat} (h : s₀.carries s) : s₀.answers (execDrainRow t col s) := by
  unfold execDrainRow
  refine .next ?_
  split
  · exact h
  · extract_lets c k
    split
    · exact h
    · extract_lets blocks r done
      clear_value blocks
      split
      · exact h
      · refine .ite h ?_
        split
        · rename_i f e
          have h1 : s₀.carries f.st := .feed_eq e .drainRow h
          extract_lets s1 src held m' c' s2
          have h2 : s₀.carries s2 := .setArch h1
          split
          · exact .tileExc (.setArch h1)
          · exact .ite h2 (.foldl (fun _ _ hs => .of hs) (.of h2))

theorem State.carries.freeze {h : Shape} {cause : Nat → Nat} (hc : s₀.carries s) : s₀.carries (s.freeze h cause) := by
  unfold State.freeze
  extract_lets n
  exact .foldl (fun _ _ hs => .of hs) (.of hc)

theorem State.carries.refetch {t : Nat} {h : Shape} {m : ArchStream} (hc : s₀.carries s) : s₀.carries (s.refetch t h m).1 := by
  unfold State.refetch
  split
  · exact hc
  · refine .iteOn Prod.fst hc ?_
    split
    · rename_i s1 _ _ e
      have h1 : s₀.carries s1 := by
        refine .of_eq (congrArg Prod.fst e) ?_
        refine .foldlOn Prod.fst (fun y i hs => ?_) hc
        split
        · split
          · exact hs
          · extract_lets k
            split
            · rename_i f e1
              have h2 : s₀.carries f.st := .feed_eq e1 .weightCols hs
              exact .ite (.markUe (.of h2)) h2
      exact h1

theorem State.answers.archRewind {t : Nat} (h : s₀.carries s) : s₀.answers (execArchRewind t s) := by
  unfold execArchRewind
  refine .next ?_
  split
  · exact h
  · extract_lets c s1
    have h1 : s₀.carries s1 := .freeze h
    split
    · exact h
    · refine .ite h ?_
      extract_lets r0
      split
      · rename_i s2 _ _ e
        have h2 : s₀.carries s2 := by
          refine .of_eq (congrArg Prod.fst e) ?_
          refine .foldlOn Prod.fst (fun y m hs => ?_) h1
          split
          · split
            · exact hs
            · split
              · rename_i s3 _ _ e1
                have h3 : s₀.carries s3 := .of_eq (congrArg Prod.fst e1) (.iteOn Prod.fst (.refetch hs) hs)
                exact h3
        split
        · exact .tileExc (.setArch h2)
        · extract_lets s3
          have h3 : s₀.carries s3 := .setArch h2
          exact .foldl (fun _ _ hs => .of hs) h3

/-! ### Queues and their records (Queue) -/

theorem State.carries.beginClose {p : Nat} (h : s₀.carries s) : s₀.carries (s.beginClose p) := by
  unfold State.beginClose
  exact .setFld (.foldl (fun _ _ hs => .ite (.raise hs) hs) h)

theorem State.carries.setQState {q v : Nat} (h : s₀.carries s) : s₀.carries (s.setQState q v) := .of h

theorem State.carries.modItem {q seq : Nat} {f : Item → Item} (h : s₀.carries s) : s₀.carries (s.modItem q seq f) := .of h

theorem State.carries.finish {q seq status detail blk : Nat} (h : s₀.carries s) :
    s₀.carries (s.finish q seq status detail blk) := .of h

theorem State.carries.finishAdmin {q seq status result : Nat} (h : s₀.carries s) :
    s₀.carries (s.finishAdmin q seq status result) := by
  unfold State.finishAdmin
  exact .finish (.modItem h)

theorem State.carries.busRead {o : BusOwner} {fn addr len tag : Nat} (h : s₀.carries s) :
    s₀.carries (s.busRead o fn addr len tag) := .of h

theorem State.carries.busWrite {fn addr : Nat} {data : List Byte} {ro : Bool} (h : s₀.carries s) :
    s₀.carries (s.busWrite fn addr data ro) := .of h

theorem State.carries.queueReport {q code addr detail : Nat} (h : s₀.carries s) :
    s₀.carries (s.queueReport q code addr detail) := by
  unfold State.queueReport
  exact .report h

theorem State.carries.queueFault {q reason : Nat} (h : s₀.carries s) : s₀.carries (s.queueFault q reason) := by
  unfold State.queueFault
  extract_lets s1 st s2
  exact .ite (.of h) (.ite (.queueReport (.of h)) (.ite (.of h) (.of h)))

theorem State.carries.feFault {q : Nat} {f : XFault × Nat} (h : s₀.carries s) : s₀.carries (s.feFault q f).1 := by
  unfold State.feFault
  exact .report h

theorem State.carries.freeQueue {q : Nat} (h : s₀.carries s) : s₀.carries (s.freeQueue q) := by
  unfold State.freeQueue
  extract_lets s1 s2 src
  have h1 : s₀.carries s2 := .ite (.of h) (.of h)
  clear_value s2
  exact .of h1

theorem State.carries.closeDrained (h : s₀.carries s) : s₀.carries s.closeDrained := by
  unfold State.closeDrained
  extract_lets ps s1
  exact .foldl (fun _ _ hs => .beginClose hs) (.of h)

theorem State.carries.drained {q : Nat} (h : s₀.carries s) : s₀.carries (s.drained q) := by
  unfold State.drained
  extract_lets y s1 s2
  have h1 : s₀.carries s1 := .freeQueue h
  have h2 : s₀.carries s2 := by
    unfold s2
    split
    · split
      · exact .finishAdmin h1
      · exact h1
    · exact h1
  exact .ite (.closeDrained h2) h

theorem State.carries.discard {q n : Nat} (h : s₀.carries s) : s₀.carries (s.discard q n) := by
  unfold State.discard
  exact .ite h (.of h)

theorem State.carries.cancel {q : Nat} {p : Item → Bool} (h : s₀.carries s) : s₀.carries (s.cancel q p) := by
  unfold State.cancel
  exact .foldl (fun _ _ hs => .ite (.of hs) hs) h

theorem State.carries.drain {q : Nat} {d : Destroy} (h : s₀.carries s) : s₀.carries (s.drain q d) := by
  unfold State.drain
  extract_lets y waiting toks s1 s2 s3 running
  have h1 : s₀.carries s3 := .discard (.of h)
  exact .drained (.cancel h1)

theorem Put.carried.putRecord {q : Nat} {r : HeldRec} (h : s₀.carries s) : Put.carried s₀ (s.putRecord q r) := by
  unfold State.putRecord
  extract_lets a g mem f s1 y
  have h1 : s₀.carries s1 := .busWrite (.busWrite h)
  have h2 : s₀.carries y.st := .xlate h
  split
  · refine .ite (.fail h) ?_
    split
    · exact .stall
    · exact .wait (.busRead h1)
  · refine .ite (.ite (.ite (.left h) (.ok (.memWrite (.memWrite h)))) (.fail h)) ?_
    refine .ite (.left h) ?_
    split
    · exact .ite (.left h2) (.ok (.memWrite (.memWrite h2)))
    · exact .fail (.feFault h2)

theorem State.carries.produce {i : Item} (h : s₀.carries s) : s₀.carries (s.produce i).1 := by
  unfold State.produce
  extract_lets q n bs s1
  exact .of h

theorem State.carries.recordDone {q : Nat} {r : HeldRec} (h : s₀.carries s) : s₀.carries (s.recordDone q r) := by
  unfold State.recordDone
  exact .ite h (.ite (.msix h) (.ite (.msix h) h))

theorem State.carries.recordFail {q : Nat} {r : HeldRec} (h : s₀.carries s) : s₀.carries (s.recordFail q r) := by
  unfold State.recordFail
  extract_lets s1 st s2
  exact .ite (.discard (.of h)) (.ite (.queueReport (.of h)) (.of h))

theorem State.carries.rewrite {q fuel : Nat} (h : s₀.carries s) : s₀.carries (s.rewrite q fuel) := by
  induction fuel generalizing s with
  | zero => exact h
  | succ fuel ih =>
    unfold State.rewrite
    extract_lets x next s1
    have hn : ∀ p, next = some p → s₀.carries p.1 := by
      intro p e
      unfold next at e
      split at e
      · cases e; exact h
      · obtain ⟨i, -, rfl⟩ := Option.map_eq_some_iff.1 e
        have made : s₀.carries (s.produce i).1 := .produce h
        generalize s.produce i = y at made
        obtain ⟨u, r⟩ := y
        dsimp only at made ⊢
        exact .modQueue made
    have h1 : s₀.carries s1 := .modQueue h
    clear_value next s1
    split
    · exact .ite (.setQState h1) (.queueFault (.setQState h1))
    · next s2 r =>
      have h2 : Put.carried s₀ (s2.putRecord q r) := .putRecord (hn _ rfl)
      split
      · next e => exact ih (.recordDone (.modQueue (.put_ok e h2)))
      · next e => exact ih (.modQueue (.put_left e h2))
      · next e => exact .modQueue (.raise (.put_fail e h2))
      · next e => exact .modQueue (.put_wait e h2)
      · exact .modQueue (hn (s2, r) rfl)

theorem State.carries.rewriteAll {q : Nat} (h : s₀.carries s) : s₀.carries (s.rewriteAll q) := by
  unfold State.rewriteAll
  exact .rewrite h

theorem State.carries.rewriteStalled (h : s₀.carries s) : s₀.carries s.rewriteStalled := by
  unfold State.rewriteStalled
  exact .foldl (fun _ _ hs => .rewriteAll hs) h

theorem State.carries.recordRead {q tag : Nat} {ok : Bool} (h : s₀.carries s) : s₀.carries (s.recordRead q tag ok) := by
  unfold State.recordRead
  split
  · exact h
  · extract_lets resuming s1 s2
    have h1 : s₀.carries s2 := .ite (.ite (.rewriteAll (.recordDone (.of h))) (.of h)) (.ite (.recordDone (.of h)) (.recordFail
      (.of h)))
    exact .drained h1

theorem State.answers.completionRecordWrite {q : Nat} (h : s₀.carries s) : s₀.answers (execCompletionRecordWrite q s) := by
  unfold execCompletionRecordWrite
  refine .next ?_
  split
  · exact h
  · refine .ite h ?_
    refine .ite (.ite h (.of h)) ?_
    split
    · rename_i s1 _ e
      have h1 : s₀.carries s1 := .of_eq (congrArg Prod.fst e) (.produce h)
      split
      · rename_i s2 e1
        have h2 : s₀.carries s2 := .put_ok e1 (.putRecord h1)
        exact .drained (.recordDone h2)
      · rename_i s2 e1
        have h2 : s₀.carries s2 := .put_left e1 (.putRecord h1)
        exact .drained h2
      · rename_i s2 e1
        have h2 : s₀.carries s2 := .put_fail e1 (.putRecord h1)
        exact .drained (.recordFail h2)
      · rename_i s2 e1
        have h2 : s₀.carries s2 := .put_wait e1 (.putRecord h1)
        exact .drained (.of h2)
      · rename_i e1
        exact h

theorem State.answers.resume {q : Nat} (h : s₀.carries s) : s₀.answers (execResume q s) := by
  unfold execResume
  exact .next (.ite h (.ite (.of h) (.rewriteAll h)))

theorem State.answers.retireToken {q : Nat} {e : Engine} (h : s₀.carries s) : s₀.answers (execRetireToken q e s) := by
  unfold execRetireToken
  exact .next (.ite (.drained (.of h)) h)

theorem State.carries.dbIgnored {q : Nat} (h : s₀.carries s) : s₀.carries (s.dbIgnored q) := .of h

theorem State.answers.sqDoorbell {q : Nat} {v : BitVec 64} (h : s₀.carries s) : s₀.answers (execSqDoorbell q v s) := by
  unfold execSqDoorbell
  exact .next (.ite h (.ite (.dbIgnored h) (.of h)))

theorem State.answers.cqDoorbell {q : Nat} {v : BitVec 64} (h : s₀.carries s) : s₀.answers (execCqDoorbell q v s) := by
  unfold execCqDoorbell
  exact .next (.ite h (.ite (.dbIgnored h) (.of h)))

theorem State.carries.epoch (h : s₀.carries s) : s₀.carries s.epoch := .of h

theorem State.answers.timeoutWrite {q : Nat} {v : BitVec 64} (h : s₀.carries s) : s₀.answers (execTimeoutWrite q v s) := by
  unfold execTimeoutWrite
  exact .next (.ite h (.ite (.of h) (.ite h (.epoch (.of h)))))

theorem State.answers.adminQueueEnable {a : Nat} {v : BitVec 64} (h : s₀.carries s) :
    s₀.answers (execAdminQueueEnable a v s) := by
  unfold execAdminQueueEnable
  exact .next (.ite h (.ite (.of h) (.setQState (.of h))))

theorem State.answers.adminQueueDisable {a : Nat} {v : BitVec 64} (h : s₀.carries s) :
    s₀.answers (execAdminQueueDisable a v s) := by
  unfold execAdminQueueDisable
  exact .next (.ite h (.ite (.of h) (.freeQueue (.of h))))

theorem State.carries.slotRead {q : Nat} {got : Option (List Byte)} (h : s₀.carries s) : s₀.carries (s.slotRead q got) := by
  unfold State.slotRead
  extract_lets s1 head s2
  split
  · exact .queueFault (.of h)
  · extract_lets room i s3
    refine .ite (.of h) ?_
    refine .ite (.ite (.finish (.of h)) (.of h)) ?_
    split
    · exact .of h
    · exact .ite (.queueFault (.of h)) (.of h)

theorem State.carries.readSlot {q : Nat} (h : s₀.carries s) : s₀.carries (s.readSlot q) := by
  unfold State.readSlot
  extract_lets a g g1
  have h1 : s₀.carries g.st := .memRead h
  have h2 : s₀.carries g1.st := .vaRead h
  split
  · refine .ite (.slotRead h) ?_
    split
    · exact h
    · exact .modQueue (.busRead h)
  · refine .ite (.ite (.slotRead h1) (.slotRead h)) ?_
    split
    · exact .slotRead (.feFault h2)
    · exact .slotRead h2

theorem State.answers.descriptorFetch {q : Nat} (h : s₀.carries s) : s₀.answers (execDescriptorFetch q s) := by
  unfold execDescriptorFetch
  exact .next (.ite (.readSlot (.of h)) h)

theorem State.answers.descriptorRefetch {q : Nat} (h : s₀.carries s) : s₀.answers (execDescriptorRefetch q s) := by
  unfold execDescriptorRefetch
  exact .next (.ite (.readSlot (.of h)) h)

/-! ### Work items and images (Image) -/

theorem State.carries.noContext {i : Item} (h : s₀.carries s) : s₀.carries (s.noContext i) := by
  unfold State.noContext
  extract_lets ctx f
  exact .finish (.report (.latchX h))

theorem State.answers.workNop {q : Nat} (h : s₀.carries s) : s₀.answers (execWorkNop q s) := by
  unfold execWorkNop
  refine .next ?_
  refine .ite h ?_
  split
  · exact .ite (.noContext h) (.ite (.finish (.modItem h)) (.modItem h))
  · split
    · exact .finish h
    · exact h

theorem State.carries.imageRead {q ava : Nat} (h : s₀.carries s) : s₀.carries (s.imageRead q ava).2.2 := by
  unfold State.imageRead
  extract_lets rd
  have hrd : ∀ u n, s₀.carries u → s₀.carries (rd u n).2.2 := by
    intro u n hu
    unfold rd
    extract_lets g
    have h1 : s₀.carries g.st := .vaRead hu
    split
    · split
      · rename_i e
        exact .of_eq (congrArg Prod.fst e) (.feFault h1)
    · split
      · exact h1
      · exact h1
  split
  · rename_i e
    have h1 := State.carries.of_eq (congrArg (fun p => p.2.2) e) (hrd s 64 h)
    split
    · exact hrd _ _ h1
    · exact h1
  · exact hrd s 64 h

theorem State.answers.run {q : Nat} (h : s₀.carries s) : s₀.answers (execRun q s) := by
  unfold execRun
  refine .next ?_
  refine .ite h ?_
  split
  · exact h
  · extract_lets ava cls grp
    refine .ite (.finish h) ?_
    refine .ite (.noContext h) ?_
    refine .ite (.finish h) ?_
    split
    · rename_i s1 e
      have h1 : s₀.carries s1 := .of_eq (congrArg (fun p => p.2.2) e) (.imageRead h)
      exact .finish h1
    · rename_i s' e
      have h1 : s₀.carries s' := .of_eq (congrArg (fun p => p.2.2) e) (.imageRead h)
      refine .ite (.finish h1) ?_
      split
      · exact .finish h1
      · exact .ite h (.modItem h1)

/-! ### The placer (Placer) -/

theorem State.carries.zeroScr {a n : Nat} (h : s₀.carries s) : s₀.carries (s.zeroScr a n) :=
  ⟨h.part, h.pending, h.mem, fun k => SMap.wf_filter _ _ _ (h.scr k)⟩

theorem State.carries.place {i : Item} {idx : Nat} {limit : Option Rat} (h : s₀.carries s) :
    s₀.carries (s.place i idx limit).2 := by
  unfold State.place
  extract_lets q cls part im b grp alts fits fresh held s1 busy ok found
  have h1 : s₀.carries s1 := .modItem h
  have kept : ∀ r, held = some r → s₀.carries r.2 := by
    intro r e
    unfold held at e
    split at e
    · cases e
    split at e
    · cases e
    split at e
    · cases e; exact h
    dsimp only at e
    split at e <;> (cases e; exact h)
  clear_value held s1 alts
  refine .iteOn Prod.snd h (.iteOn Prod.snd h ?_)
  split
  · exact kept _ rfl
  split
  · split
    · exact .iteOn Prod.snd h1 h1
    · exact h1
  · exact h1

theorem State.carries.settle {q seq : Nat} (h : s₀.carries s) : s₀.carries (s.settle q seq) := by
  unfold State.settle
  split
  · exact h
  · extract_lets busy
    refine .ite h ?_
    split
    · exact .finish h
    · exact .ite (.finish h) (.ite (.cancel h) h)

theorem State.carries.tryHead {q fuel : Nat} {limit : Option Rat} (h : s₀.carries s) :
    s₀.carries (s.tryHead q limit fuel).2 := by
  induction fuel generalizing s with
  | zero => exact h
  | succ fuel ih =>
    unfold State.tryHead
    split
    · exact h
    · next i idx _ =>
      have h1 : s₀.carries (s.place i idx limit).2 := .place h
      generalize s.place i idx limit = y at h1
      obtain ⟨r, s1⟩ := y
      dsimp only at h1 ⊢
      split
      · exact ih (.settle (.modItem h1))
      · exact h1

theorem State.carries.head {q : Nat} {limit : Option ℚ} (h : s₀.carries s) : s₀.carries (s.head q limit).2 := by
  unfold State.head
  exact .tryHead h

theorem State.carries.endHold {q : Nat} (h : s₀.carries s) : s₀.carries (s.endHold q) := by
  unfold State.endHold
  split
  · exact h
  · extract_lets b
    split
    · exact .ite (.modItem h) h
    · exact h

theorem State.carries.enrol {p : Planned} (h : s₀.carries s) : s₀.carries (s.enrol p) := .of h

theorem State.carries.claimTile {t part : Nat} (h : s₀.carries s) : s₀.carries (s.claimTile t part) := by
  unfold State.claimTile
  exact .ite h (.of (.zeroScr h))

theorem State.carries.claimBank {g part : Nat} (h : s₀.carries s) : s₀.carries (s.claimBank g part) := by
  unfold State.claimBank
  exact .ite h (.of (.zeroScr h))

theorem State.carries.setSlot {t slot : Nat} {dstore : Bool} {handle target : Nat} (h : s₀.carries s) :
    s₀.carries (s.setSlot t slot dstore handle target) := .of h

theorem State.carries.fillRelocs {t h : Nat} {tiles banks : List Nat} {rs : List (List Byte)} (hc : s₀.carries s) :
    s₀.carries (s.fillRelocs t h tiles banks rs) := by
  unfold State.fillRelocs
  extract_lets s1 s2
  have h1 : s₀.carries s1 := .foldl (fun _ _ hs => .of hs) hc
  have h2 : s₀.carries s2 := .setSlot h1
  exact .foldl (fun _ _ hs => .ite (.setSlot hs) (.ite (.setSlot hs) hs)) h2

theorem State.carries.showArch {t h : Nat} {tiles : List Nat} {arch : Option (Nat × Nat)} (hc : s₀.carries s) :
    s₀.carries (s.showArch t h tiles arch) := by
  unfold State.showArch
  split
  · exact .of hc
  · extract_lets r c v s1 s2 s3
    exact .of hc

theorem State.carries.copyText {t id : Nat} (h : s₀.carries s) : s₀.carries (s.copyText t id) := by
  unfold State.copyText
  extract_lets y put
  refine .ite ?_ h
  unfold put
  extract_lets g q s1 g1 q1 s2
  have h1 : s₀.carries g.st := .vaRead h
  have h2 : s₀.carries s1 := .ite (.failBlock h1) h1
  have h3 : s₀.carries g1.st := by
    unfold g1
    refine .vaRead ?_
    split
    · exact .failBlock (.report h1)
    · exact .scrWrite h2
  have h4 : s₀.carries s2 := .ite (.failBlock h3) h3
  split
  · exact .failBlock (.report h3)
  · exact .scrWrite h4

theorem State.carries.startTile {b : Block} {i : Item} {h t : Nat} (hc : s₀.carries s) : s₀.carries (s.startTile b i h t) := by
  unfold State.startTile
  extract_lets im p cont s1 y regs src s2 s3 s4 s5 s6
  have h1 : s₀.carries s1 := .claimTile hc
  clear_value s1
  have h2 : s₀.carries s5 := by
    exact .foldl (fun _ _ hs => .of hs) (.of h1)
  have h3 : s₀.carries s6 := by
    exact .fillRelocs h2
  exact .copyText (.showArch h3)

theorem State.carries.startBlock {p : Planned} (h : s₀.carries s) : s₀.carries (s.startBlock p) := by
  unfold State.startBlock
  split
  · exact h
  · extract_lets im r a set b s1 s2 s3 s4
    have h1 : s₀.carries s2 := .modItem (.of h)
    have h2 : s₀.carries s3 := .foldl (fun _ _ hs => .claimBank hs) h1
    have h3 : s₀.carries s4 := .ite (.foldl (fun _ _ hs => .of hs) h2) h2
    exact .foldl (fun _ _ hs => .startTile hs) h3

theorem State.carries.learn {sig : Nat} (h : s₀.carries s) : s₀.carries (s.learn sig) := by
  unfold State.learn
  extract_lets e src
  have h1 : s₀.carries src := .of h
  exact .of h1

theorem State.carries.endBlock {b : Block} (h : s₀.carries s) : s₀.carries (s.endBlock b) := by
  unfold State.endBlock
  split
  · extract_lets dies s1 s2 s3 members s4 s5
    have h1 : s₀.carries s1 := .foldl (fun _ _ hs => .publish hs) h
    have h2 : s₀.carries s2 := .foldl (fun _ _ hs => .of hs) h1
    have h3 : s₀.carries s4 := .ite (.foldl (fun _ _ hs => .of hs) (.of h2)) (.of h2)
    have h4 : s₀.carries s5 := .learn h3
    split
    · exact h4
    · extract_lets failed keep s6
      have h5 : s₀.carries s6 := .modItem h4
      exact .settle h5

theorem State.answers.tilePartEnd {t : Nat} (h : s₀.carries s) : s₀.answers (execTilePartEnd t s) := by
  unfold execTilePartEnd
  refine .next ?_
  split
  · exact h
  · refine .ite h ?_
    extract_lets s1 s2
    have h1 : s₀.carries s2 := .ite (.of h) (.of h)
    refine .ite ?_ h1
    split
    · exact .endBlock h1
    · exact h1

/-! ### Power (Power) -/

theorem State.carries.setDuty {t n : Nat} (h : s₀.carries s) : s₀.carries (s.setDuty t n) := .of h

theorem State.carries.sampleBrake (h : s₀.carries s) : s₀.carries s.sampleBrake := by
  unfold State.sampleBrake
  extract_lets p s1
  exact .ite (.of h) (.of h)

theorem State.carries.addEnergy {f : Fld} {i n : Nat} (h : s₀.carries s) : s₀.carries (s.addEnergy f i n) := .of h

/-- The energy of a window shared out (R366) over the queues at work, the partitions not free, and the operator. -/
def State.shareEnergy (s : State) (e : Nat) : State :=
  let (s, left) := s.energyQueues.foldl (fun ((s, left) : State × Nat) q =>
    let n := s.freeNat % (left + 1)
    let p := s.qPart q
    let s := s.drawn.addEnergy F.PWR_EQ.ENERGY q n
    let s := if p < 8 then s.addEnergy F.PWR_EPART.ENERGY p n else s.addEnergy F.PWR_EOPER.ENERGY 0 n
    (s, left - n)) (s, e)
  let (s, left) := (List.range 8).foldl (fun ((s, left) : State × Nat) p =>
    if s.fld F.SEC_PART.STATE p = pFree then (s, left)
    else
      let n := s.freeNat % (left + 1)
      (s.drawn.addEnergy F.PWR_EPART.ENERGY p n, left - n)) (s, left)
  s.addEnergy F.PWR_EOPER.ENERGY 0 left

theorem State.carries.shareEnergy {e : Nat} (h : s₀.carries s) : s₀.carries (s.shareEnergy e) := by
  unfold State.shareEnergy
  split
  · rename_i s1 _ e1
    have h1 : s₀.carries s1 := by
      refine .of_eq (congrArg Prod.fst e1) ?_
      refine .foldlOn Prod.fst (fun y q hs => ?_) h
      split
      · extract_lets n p s2 s3
        have h2 : s₀.carries s2 := .addEnergy (.of hs)
        exact .ite (.addEnergy h2) (.addEnergy h2)
    split
    · rename_i s2 _ e2
      have h2 : s₀.carries s2 := by
        refine .of_eq (congrArg Prod.fst e2) ?_
        refine .foldlOn Prod.fst (fun y p hs => ?_) h1
        split
        · refine .iteOn Prod.fst hs ?_
          extract_lets n
          exact .addEnergy (.of hs)
      exact .addEnergy h2

theorem State.carries.cutDuty {num den : Nat} (h : s₀.carries s) : s₀.carries (s.cutDuty num den) := by
  unfold State.cutDuty
  exact .foldl (fun _ _ hs => .setDuty hs) h

theorem State.carries.unmet {pin : Nat} (h : s₀.carries s) : s₀.carries (s.unmet pin) := by
  unfold State.unmet
  exact .ite h (.reportSelf (.of h))

theorem State.answers.powerWindow (h : s₀.carries s) : s₀.answers (execPowerWindow s) := by
  unfold execPowerWindow
  refine .next ?_
  refine .ite h ?_
  extract_lets s1 cap limit l0
  have h1 : s₀.carries s1 := .sampleBrake h
  split
  · rename_i s2 _ e
    have h2 : s₀.carries s2 := by
      refine .of_eq (congrArg Prod.fst e) ?_
      refine .foldlOn Prod.fst (fun y d hs => ?_) h1
      split
      · exact .of hs
    extract_lets gain input full ws pin pt s3 s4 s5 src s6 s7 s8 rise src1
    have h3 : s₀.carries s5 := .foldl (fun _ _ hs => .of hs) (.of h2)
    have h4 : s₀.carries s7 := .shareEnergy (.of h3)
    clear_value s5 s7
    exact .ite (.ite (.unmet (.of h4)) (.cutDuty (.of h4))) (.ite (.of h4) h4)

theorem State.answers.pwrCapWrite {v : BitVec 64} (h : s₀.carries s) : s₀.answers (execPwrCapWrite v s) := by
  unfold execPwrCapWrite
  exact .next (.ite h (.epoch (.of h)))

theorem State.carries.calibrate {m : Option Nat} (h : s₀.carries s) : s₀.carries (s.calibrate m) := by
  unfold State.calibrate
  extract_lets est src s1 n src1 s2 s3
  split
  · exact .ite (.reportSelf (.of h)) (.of h)
  · extract_lets s4 g range s5
    have h1 : s₀.carries s5 := .ite (.of h) (.of h)
    exact .ite (.ite (.of h1) (.of h1)) (.of h1)

theorem State.carries.latchEnergy (h : s₀.carries s) : s₀.carries s.latchEnergy := .of h

theorem State.carries.touchPhase {sig : Nat} (h : s₀.carries s) : s₀.carries (s.touchPhase sig) := by
  unfold State.touchPhase
  split
  · exact .of h
  · exact h

theorem State.carries.divideCap (h : s₀.carries s) : s₀.carries s.divideCap := by
  unfold State.divideCap
  extract_lets s1 on gs hot held g0 fixed busy0 busy1 s2 gain l0 l1 w base stay core cores cores1 src
  have h2 : s₀.carries s2 := .drawn (.drawn (.drawn (.foldl (fun _ _ hs => .touchPhase hs) h)))
  clear_value s2
  split
  extract_lets quads plan s3
  have h3 : s₀.carries s3 := .of h2
  exact .ite (.unmet h3) h3

theorem State.carries.oneDuty (h : s₀.carries s) : s₀.carries s.oneDuty := by
  unfold State.oneDuty
  exact .foldl (fun _ _ hs => .foldl (fun _ _ hs1 => .setDuty hs1) hs) h

theorem State.carries.raiseC0 (h : s₀.carries s) : s₀.carries s.raiseC0 := by
  unfold State.raiseC0
  exact .foldl (fun _ _ hs => .ite (.of hs) hs) h

theorem State.carries.applySteps (h : s₀.carries s) : s₀.carries s.applySteps := by
  unfold State.applySteps
  extract_lets s1 want src
  have h1 : s₀.carries s1 := .raiseC0 h
  clear_value s1
  exact .oneDuty (.of h1)

theorem State.carries.quadrants {waiting : List Nat} (h : s₀.carries s) : s₀.carries (s.quadrants waiting) := by
  unfold State.quadrants
  extract_lets held
  exact .foldl (fun _ _ hs => .ite hs (.ite (.ite (.of hs) hs) (.ite hs (.ite (.of hs) (.of hs))))) h

theorem State.answers.quadrantPowerUp {quad : Nat} (h : s₀.carries s) : s₀.answers (execQuadrantPowerUp quad s) := by
  unfold execQuadrantPowerUp
  exact .next (.ite (.of h) h)

theorem State.carries.switchTo {l : List (Nat × Nat)} {cause : Nat → Nat} (h : s₀.carries s) :
    s₀.carries (s.switchTo l cause) := by
  unfold State.switchTo
  extract_lets s1
  have h1 : s₀.carries s1 := by
    unfold s1
    refine .foldl (fun s2 b hs => ?_) h
    split
    · exact .freeze hs
    · exact hs
  exact .foldl (fun _ _ hs => .of hs) h1

theorem State.carries.takeSteps {dom : Nat} {cause : Nat → Nat} (h : s₀.carries s) : s₀.carries (s.takeSteps dom cause) := by
  unfold State.takeSteps
  extract_lets l s1 src
  have h1 : s₀.carries s1 := .switchTo h
  exact .of h1

theorem State.answers.freqStep {dom step : Nat} (h : s₀.carries s) : s₀.answers (execFreqStep dom step s) := by
  unfold execFreqStep
  exact .next (.ite (.takeSteps h) h)

theorem State.carries.skidOverflow {o t : Nat} (h : s₀.carries s) : s₀.carries (s.skidOverflow o t) := by
  unfold State.skidOverflow
  extract_lets b
  exact .report (.of h)

theorem State.answers.archFreeze {t : Nat} {raised : List (Nat × StallCond)} (h : s₀.carries s) :
    s₀.answers (execArchFreeze t raised s) := by
  unfold execArchFreeze
  refine .next ?_
  split
  · exact h
  · extract_lets l s'
    have h1 : s₀.carries s' := by
      unfold s'
      split
      · exact .takeSteps h
      · exact .ite h (.freeze h)
    exact .foldl (fun _ _ hs => .skidOverflow hs) h1

theorem State.answers.droop {dom cycles : Nat} (h : s₀.carries s) : s₀.answers (execDroop dom cycles s) := by
  unfold execDroop
  exact .next (.ite h (.of h))

theorem State.carries.throttleOn {n : Nat} {x : ℤ} (h : s₀.carries s) : s₀.carries (s.throttleOn n x) := by
  unfold State.throttleOn
  extract_lets s1 src
  exact .ite (.of h) (.reportSelf (.of h))

theorem State.carries.sense {n : Nat} {x : ℤ} (h : s₀.carries s) : s₀.carries (s.sense n x) := by
  unfold State.sense
  split
  · exact h
  · extract_lets peak s1 s2
    have h1 : s₀.carries s2 := .ite (.of h) (.of h)
    exact .ite (.ite (.of h1) (.throttleOn h1)) (.ite (.throttleOn h1) h1)

theorem State.answers.thermalSample {readings : List (Nat × ℤ)} (h : s₀.carries s) :
    s₀.answers (execThermalSample readings s) := by
  unfold execThermalSample
  exact .next (.ite h (.foldl (fun _ _ hs => .sense hs) h))

theorem State.answers.dieThrottleStep {die : Nat} (h : s₀.carries s) : s₀.answers (execDieThrottleStep die s) := by
  unfold execDieThrottleStep
  exact .next (.ite h (.ite (.foldl (fun _ _ hs => .foldl (fun _ _ hs1 => .setDuty hs1) hs) (.ite h (.switchTo h))) (.ite (.of
    h) h)))

/-! ### The course boundary (Course) -/

theorem State.carries.pass_can {p : Pass} {q : Nat} (h : s₀.carries p.st) : s₀.carries (p.can q).2.st := by
  unfold Pass.can
  have h1 : s₀.carries (p.st.head q (some p.left)).2 := .head h
  split
  · next e => exact .of_eq (congrArg Prod.snd e) h1
  · next e => exact .of_eq (congrArg Prod.snd e) h1

theorem State.carries.pass_live {p : Pass} {qs : List Nat} (h : s₀.carries p.st) : s₀.carries (p.live qs).2.st :=
  .foldlOn (fun y : Bool × Pass => y.2.st) (fun _ _ hs => .iteOn (fun y : Bool × Pass => y.2.st) hs (.pass_can hs)) h

theorem State.carries.pass_drain {p : Pass} {cls q fuel : Nat} {admitted : Bool} (h : s₀.carries p.st) :
    s₀.carries (p.drain cls q admitted fuel).1.st := by
  induction fuel generalizing p admitted with
  | zero => exact h
  | succ fuel ih =>
    unfold Pass.drain
    have h1 : s₀.carries (p.st.head q (some (min (p.st.queue q).allowance p.left))).2 := .head h
    split
    · next pl c s1 e =>
      have h2 : s₀.carries (s1.enrol pl) := .enrol (.of_eq (congrArg Prod.snd e) h1)
      exact ih (.of h2)
    · next e => exact .of_eq (congrArg Prod.snd e) h1
    · next e => exact .of_eq (congrArg Prod.snd e) h1

theorem State.carries.pass_turn {p : Pass} {cls q : Nat} {slice : Rat} (h : s₀.carries p.st) :
    s₀.carries (p.turn cls q slice).1.st := by
  unfold Pass.turn
  extract_lets s1
  have h0 : s₀.carries s1 := .modQueue h
  have h1 : s₀.carries (Pass.drain { p with st := s1 } cls q false (p.st.part.tiles + 1)).1.st := .pass_drain h0
  split
  next p1 _ _ e =>
    have h2 : s₀.carries p1.st := .of_eq (congrArg (fun y => y.1.st) e) h1
    exact .of h2

theorem State.carries.pass_turns {p : Pass} {cls fuel : Nat} {qs l : List Nat} {slice : Rat} (h : s₀.carries p.st) :
    s₀.carries (p.turns cls qs slice l fuel).st := by
  have after (fuel q : Nat) (rest : List Nat) (ih : ∀ {p : Pass} {l : List Nat}, s₀.carries p.st →
      s₀.carries (p.turns cls qs slice l fuel).st) {p : Pass} (h : s₀.carries p.st) :
      s₀.carries (match p.turn cls q slice with
        | (p, a) => if a then match p.live qs with
            | (l, p) => if l && 0 < p.left then p.turns cls qs slice rest fuel else p
          else p.turns cls qs slice rest fuel).st := by
    have h1 : s₀.carries (p.turn cls q slice).1.st := .pass_turn h
    generalize p.turn cls q slice = y at h1
    obtain ⟨p1, a⟩ := y
    have h2 : s₀.carries (p1.live qs).2.st := .pass_live h1
    generalize e : p1.live qs = z at h2
    obtain ⟨b, p2⟩ := z
    dsimp only
    rw [e]
    exact .iteOn Pass.st (.iteOn Pass.st (ih h2) h2) (ih h1)
  induction fuel generalizing p l with
  | zero => cases l <;> exact h
  | succ fuel ih =>
    cases l with
    | cons q rest => exact after fuel q rest ih h
    | nil =>
      cases qs with
      | nil => exact h
      | cons q rest => exact after fuel q rest ih h

/-- An entry other than the default, put in a store, keeps its canonical form. -/
theorem SMap.wf_insert {α : Type} [DecidableEq α] {m : SMap α} {d v : α} (a : Nat) (h : SMap.wf m d = true) (hv : v ≠ d) :
    SMap.wf (SMap.insert m a v) d = true := by
  have put := SMap.wf_set m d a v h
  rwa [SMap.set, if_neg hv] at put

theorem SMap.wf_foldl_insert {α : Type} [DecidableEq α] {m l : SMap α} {d : α} (f : Nat → Nat) (h : SMap.wf m d = true)
    (hl : ∀ p ∈ l, p.2 ≠ d) : SMap.wf (l.foldl (fun m p => SMap.insert m (f p.1) p.2) m) d = true := by
  induction l generalizing m with
  | nil => exact h
  | cons p l ih =>
    obtain ⟨hp, hl⟩ := List.forall_mem_cons.1 hl
    exact ih (SMap.wf_insert _ h hp) hl

theorem SMap.ne_of_wf {α : Type} [DecidableEq α] {m : SMap α} {d : α} (h : SMap.wf m d = true) : ∀ p ∈ m, p.2 ≠ d := by
  rw [SMap.wf, Bool.and_eq_true, List.all_eq_true] at h
  simpa using h.2

theorem State.carries.copyPlinth {src dst banks : Nat} (h : s₀.carries s) : s₀.carries (s.copyPlinth src dst banks).1 := by
  unfold State.copyPlinth
  extract_lets off ues s1 s2 moved
  have h2 : s₀.carries s2 := .setReg (.zeroScr h)
  clear_value ues s2
  split
  · refine ⟨h2.part, h2.pending, h2.mem, fun k => ?_⟩
    have wf : SMap.wf s2.scr 0 = true := h2.scr k
    exact SMap.wf_foldl_insert (fun a => a - tilePa src + tilePa dst) wf fun p hp =>
      SMap.ne_of_wf wf p (List.mem_of_mem_filter hp)
  · exact .meetScrUe h

theorem State.carries.classPass {cls : Nat} {limit slice : Rat} (h : s₀.carries s) :
    s₀.carries (s.classPass cls limit slice).1 := by
  unfold State.classPass
  extract_lets qs s1 order p
  have h1 : s₀.carries p.st := .foldl (fun _ _ hs => .ite (.modQueue hs) hs) h
  have h2 : s₀.carries (if 0 < limit then p.live qs else (false, p)).2.st :=
    .iteOn (fun y : Bool × Pass => y.2.st) (.pass_live h1) h1
  split
  next p1 e =>
    have h3 : s₀.carries p1.st := .of_eq (congrArg (fun y : Bool × Pass => y.2.st) e) h2
    exact .iteOn Pass.st (.pass_turns h3) h3

theorem State.carries.fillPass {qs : List Nat} {fuel : Nat} (h : s₀.carries s) : s₀.carries (s.fillPass qs fuel) := by
  induction fuel generalizing s with
  | zero => exact h
  | succ fuel ih =>
    unfold State.fillPass
    split
    next s1 _ e =>
      have h1 : s₀.carries s1 := by
        refine .of_eq (congrArg Prod.fst e) (.foldlOn Prod.fst (fun y q hs => ?_) h)
        obtain ⟨s2, any⟩ := y
        dsimp only
        split
        · next e1 => exact .enrol (.of_eq (congrArg Prod.snd e1) (.head hs))
        · next e1 => exact .of_eq (congrArg Prod.snd e1) (.head hs)
      exact .ite (ih h1) h1

theorem State.carries.slipCheck (h : s₀.carries s) : s₀.carries s.slipCheck := by
  unfold State.slipCheck
  exact .ite (.reportSelf (.of h)) (.ite (.of h) h)

theorem State.carries.dropPlinth {t : Nat} (h : s₀.carries s) : s₀.carries (s.dropPlinth t) := .of h

theorem State.carries.switchSet {r : RSet} (h : s₀.carries s) : s₀.carries (s.switchSet r) := by
  unfold State.switchSet
  split
  · extract_lets s1 s2 s3
    have h1 : s₀.carries s1 := .foldl (fun _ _ hs => .dropPlinth hs) h
    have h2 : s₀.carries s2 := .foldl (fun _ _ hs => .of hs) h1
    split
    · exact .finishAdmin (.of h2)
    · exact .of h2
  · exact h

theorem State.carries.switchSets (h : s₀.carries s) : s₀.carries s.switchSets := by
  unfold State.switchSets
  exact .foldl (fun _ _ hs => .switchSet hs) h

theorem State.carries.runMove {r : RSet} (h : s₀.carries s) : s₀.carries (s.runMove r) := by
  unfold State.runMove
  split
  · exact h
  · split
    · rename_i s1 _ e
      have h1 : s₀.carries s1 := by
        refine .of_eq (congrArg Prod.fst e) ?_
        refine .foldlOn Prod.fst (fun y y1 hs => ?_) h
        split
        · split
          · exact .iteOn Prod.fst hs (.copyPlinth hs)
      refine .ite ?_ (.of h1)
      extract_lets s2 s3
      have h2 : s₀.carries s2 := .foldl (fun _ _ hs => .dropPlinth hs) h1
      split
      · exact .finishAdmin (.of h2)
      · exact .of h2

theorem State.carries.planMoves {may : Bool} (h : s₀.carries s) : s₀.carries (s.planMoves may) := by
  unfold State.planMoves
  refine .ite h ?_
  refine .foldl (fun s1 r hs => ?_) h
  split
  · extract_lets held powered
    exact .ite (.of hs) hs
  · exact hs

theorem State.answers.c1C3SnapshotClose (h : s₀.carries s) : s₀.answers (execC1C3SnapshotClose s) := by
  unfold execC1C3SnapshotClose
  refine .next ?_
  refine .ite h ?_
  refine .ite (.of h) ?_
  extract_lets s1 s2 s3 unit slice l1 l2 l3 debt0 w2 w3 debt s4 s5 s6
  have h1 : s₀.carries s1 := .switchSets (.of h)
  have h2 : s₀.carries s5 := .slipCheck (.of h1)
  have h3 : s₀.carries s6 := .foldl (fun _ _ hs => .endHold hs) h2
  refine .ite h2 ?_
  split
  · rename_i s7 _ e
    have h4 : s₀.carries s7 := .of_eq (congrArg Prod.fst e) (.classPass h3)
    split
    · rename_i s8 _ e1
      have h5 : s₀.carries s8 := .of_eq (congrArg Prod.fst e1) (.classPass h4)
      split
      · rename_i s9 _ e2
        have h6 : s₀.carries s9 := .of_eq (congrArg Prod.fst e2) (.classPass h5)
        extract_lets n s10 s11 s12
        have h7 : s₀.carries s10 := .fillPass h6
        have h8 : s₀.carries s11 := .ite (.fillPass (.fillPass h7)) h7
        have h9 : s₀.carries s12 := .planMoves h8
        exact .divideCap (.quadrants h9)

theorem State.answers.c0SnapshotClose (h : s₀.carries s) : s₀.answers (execC0SnapshotClose s) := by
  unfold execC0SnapshotClose
  refine .next ?_
  refine .ite h ?_
  refine .ite (.of h) ?_
  extract_lets late s1 s2
  have h1 : s₀.carries s2 := .ite (.of h) (.of h)
  refine .ite h1 ?_
  refine .foldl (fun s3 g hs => ?_) h1
  extract_lets q
  refine .ite hs ?_
  split
  · rename_i s4 e
    have h2 : s₀.carries s4 := .of_eq (congrArg Prod.snd e) (.head hs)
    exact .enrol h2
  · rename_i e
    exact .of_eq (congrArg Prod.snd e) (.head hs)

theorem State.carries.applyTimeouts (h : s₀.carries s) : s₀.carries s.applyTimeouts := .of h

theorem State.carries.startPlan (h : s₀.carries s) : s₀.carries s.startPlan := by
  unfold State.startPlan
  exact .foldl (fun _ _ hs => .startBlock hs) (.of h)

theorem State.carries.dropPlan (h : s₀.carries s) : s₀.carries s.dropPlan := by
  unfold State.dropPlan
  exact .foldl (fun _ _ hs => .modItem hs) (.of h)

theorem State.answers.courseBoundary {m : Option Nat} (h : s₀.carries s) : s₀.answers (execCourseBoundary m s) := by
  unfold execCourseBoundary
  refine .next ?_
  refine .ite h ?_
  extract_lets s1 src s2 s3
  have h1 : s₀.carries s1 := .ite (.of h) (.of h)
  have h2 : s₀.carries s3 := .latchEnergy (.calibrate (.applySteps (.applyTimeouts (.of h1))))
  exact .ite h2 (.ite (.dropPlan h2) (.foldl (fun _ _ hs => .runMove hs) (.startPlan h2)))

theorem State.carries.writeRuntime {k : RegKind} {v : Word} (h : s₀.carries s) : s₀.carries (s.writeRuntime k v) := by
  unfold State.writeRuntime
  exact .ite h (.epoch (.of h))

theorem State.answers.crsShareWrite {v : BitVec 64} (h : s₀.carries s) : s₀.answers (execCrsShareWrite v s) := by
  unfold execCrsShareWrite
  exact .next (.ite (.writeRuntime h) h)

theorem State.answers.crsSliceWrite {v : BitVec 64} (h : s₀.carries s) : s₀.answers (execCrsSliceWrite v s) := by
  unfold execCrsSliceWrite
  exact .next (.ite (.writeRuntime h) h)

/-! ### The core complex (Ghenath) -/

theorem State.carries.modCore {n : Nat} {f : Core → Core} (h : s₀.carries s) : s₀.carries (s.modCore n f) := .of h

theorem State.carries.enter {g l : Nat} {excl : Bool} (h : s₀.carries s) : s₀.carries (s.enter g l excl) := .of h

theorem State.carries.coreFill {n tag b : Nat} {excl : Bool} (h : s₀.carries s) : s₀.carries (s.coreFill n tag b excl).1 := by
  unfold State.coreFill
  extract_lets g l s1 s2 keep
  have h1 : s₀.carries s1 := .meetBlock h
  have h2 : s₀.carries s2 := by
    unfold s2
    split
    · exact .ite (.recall h1) h1
    · exact h1
  refine .iteOn Prod.fst (.enter (.modCore (.of h2))) ?_
  split
  · rename_i s3 _ e
    have h3 : s₀.carries s3 := .of_eq (congrArg Prod.fst e) (.lookup h2)
    extract_lets bad
    exact .iteOn Prod.fst (.enter (.modCore (.of h3))) h3

theorem State.carries.coreEvict {n b : Nat} (h : s₀.carries s) : s₀.carries (s.coreEvict n b) := by
  unfold State.coreEvict
  extract_lets g l s1
  have h1 : s₀.carries s1 := .meetBlock h
  refine .ite (.modCore h) ?_
  split
  · exact h1
  · extract_lets s2 h2
    have h3 : s₀.carries s2 := .dropBlock (.ite (.takeLine h1) h1)
    exact .ite h3 (.of h3)

theorem State.carries.coreWrite {n tag a : Nat} {bs : List Byte} (h : s₀.carries s) : s₀.carries (s.coreWrite n tag a bs) := by
  unfold State.coreWrite
  split
  · rename_i s1 _ e
    have h1 : s₀.carries s1 := .of_eq (congrArg Prod.fst e) (.coreFill h)
    exact .ite (.memWrite h1) (.ite (.markIll (.breakResv (.putBytes h1))) (.modCore (.markIll (.breakResv (.putBytes h1)))))

theorem State.carries.sbWrite {n : Nat} {e : SbEntry} (h : s₀.carries s) : s₀.carries (s.sbWrite n e) := by
  unfold State.sbWrite
  exact .ite h (.ite (.coreWrite h) (.memWrite h))

theorem State.carries.sbDrain {n : Nat} {p : SbEntry → Bool} (h : s₀.carries s) : s₀.carries (s.sbDrain n p) := by
  unfold State.sbDrain
  exact .foldl (fun _ _ hs => .sbWrite hs) (.modCore h)

theorem State.carries.sbOne {n k : Nat} (h : s₀.carries s) : s₀.carries (s.sbOne n k) := by
  unfold State.sbOne
  split
  · exact .sbDrain h
  · exact h

theorem State.carries.sbPush {n tag : Nat} {cached : Bool} {a : Nat} {bs : List Byte} (h : s₀.carries s) :
    s₀.carries (s.sbPush n tag cached a bs) := by
  unfold State.sbPush
  exact .foldl (fun _ _ hs => .modCore (.ite (.sbOne hs) hs)) h

theorem State.carries.ntWrite {e : NtEntry} (h : s₀.carries s) : s₀.carries (s.ntWrite e) := by
  unfold State.ntWrite
  extract_lets l
  exact .ite (.mergeLine h) h

theorem State.carries.ntDrainBlock {n b : Nat} (h : s₀.carries s) : s₀.carries (s.ntDrainBlock n b) := by
  unfold State.ntDrainBlock
  exact .foldl (fun _ _ hs => .ntWrite hs) (.modCore h)

theorem State.carries.drainCore {n : Nat} (h : s₀.carries s) : s₀.carries (s.drainCore n) := by
  unfold State.drainCore
  extract_lets s1
  have h1 : s₀.carries s1 := .sbDrain h
  exact .foldl (fun _ _ hs => .ntWrite hs) (.modCore h1)

theorem State.carries.ntDrainOver {n a len : Nat} (h : s₀.carries s) : s₀.carries (s.ntDrainOver n a len) := by
  unfold State.ntDrainOver
  exact .foldl (fun _ _ hs => .ntDrainBlock hs) h

theorem State.carries.drainOver {n a len : Nat} (h : s₀.carries s) : s₀.carries (s.drainOver n a len) := by
  unfold State.drainOver
  exact .ntDrainOver (.sbDrain h)

theorem State.carries.ntMerge {n tag b : Nat} {bs : List (Nat × Byte)} (h : s₀.carries s) :
    s₀.carries (s.ntMerge n tag b bs) := by
  unfold State.ntMerge
  extract_lets c listed s1 put grow s2
  have h1 : s₀.carries s1 := by
    unfold s1
    split
    · exact .ntDrainBlock h
    · exact h
  have h2 : s₀.carries s2 := .modCore h1
  exact .ite (.ntDrainBlock h2) h2

theorem State.carries.ntStore {n tag a : Nat} {bs : List Byte} (h : s₀.carries s) : s₀.carries (s.ntStore n tag a bs) := by
  unfold State.ntStore
  extract_lets s1 m
  have h1 : s₀.carries s1 := .sbDrain h
  exact .foldl (fun _ _ hs => .ite (.sbPush (.ntDrainBlock hs)) (.ntMerge hs)) h1

theorem State.answers.ntEntryDrain {core k : Nat} (h : s₀.carries s) : s₀.answers (execNtEntryDrain core k s) := by
  unfold execNtEntryDrain
  refine .next ?_
  split
  · exact .ite (.ntDrainBlock h) h
  · exact h

theorem State.carries.mmWrite {k : Nat} {bs : List Byte} (h : s₀.carries s) : s₀.carries (s.mmWrite k bs) := .of h

theorem State.carries.loadFirmware (h : s₀.carries s) : s₀.carries s.loadFirmware := .of h

theorem State.carries.mmAccess {n k : Nat} {op : CoreOp} (h : s₀.carries s) : s₀.carries (s.mmAccess n k op) := by
  unfold State.mmAccess
  split
  · exact .emit h
  · exact .emit h
  · exact .emit h
  · exact .mmWrite h
  · exact .mmWrite h
  · exact .emit (.mmWrite h)
  · exact .emit (.modCore h)
  · exact .ite (.emit (.mmWrite (.modCore h))) (.emit (.modCore h))
  · exact .mmWrite h
  all_goals exact h

theorem State.carries.coreRead {acc : CoreAcc} {len : Nat} {excl : Bool} {f : State → List Byte → State}
    (H : ∀ u bs, s₀.carries u → s₀.carries (f u bs)) (h : s₀.carries s) : s₀.carries (s.coreRead acc len excl f) := by
  unfold State.coreRead
  extract_lets n a tag s1 g
  have h1 : s₀.carries s1 := .ntDrainOver h
  have h2 : s₀.carries g.st := .memRead h1
  clear_value s1 g
  split
  · split
    next s2 _ e =>
      have h3 : s₀.carries s2 := .of_eq (congrArg Prod.fst e) (.foldlOn Prod.fst (fun _ _ hs => .coreFill hs) h1)
      exact .ite (.emit (.markIll h3)) (H _ _ (.markIll h3))
  · exact .ite (.emit h2) (H _ _ h2)

theorem State.answers.coreFence {core : Nat} {kind : CoreFenceKind} (h : s₀.carries s) :
    s₀.answers (execCoreFence core kind s) := by
  have waited (w : Bool) : s₀.carries (if w then s.drainCore core else s) := .ite (.drainCore h) h
  refine .next (.ite h ?_)
  cases kind with
  | fence p q => exact .ite (.modCore (waited _)) (waited _)
  | tso | rl | sfence => exact waited true

theorem State.carries.coreStore {acc : CoreAcc} {bs : List Byte} {nt : Bool} (h : s₀.carries s) :
    s₀.carries (s.coreStore acc bs nt) := by
  unfold State.coreStore
  extract_lets tag
  exact .ite (.memWrite h) (.ite (.ntStore h) (.sbPush (.ntDrainOver h)))

theorem State.carries.coreAccess {acc : CoreAcc} (h : s₀.carries s) : s₀.carries (s.coreAccess acc) := by
  unfold State.coreAccess
  extract_lets n a tag
  split
  · exact .coreRead (fun _ _ hs => .emit hs) h
  · exact .coreRead (fun _ _ hs => .emit hs) h
  · exact .coreRead (fun _ _ hs => .emit hs) h
  · exact .coreStore h
  · exact .coreStore h
  · extract_lets g
    have h1 : s₀.carries g.st := .amoHome (.drainOver h)
    exact .ite (.emit h1) (.emit h1)
  · exact .coreRead (fun _ _ hs => .emit (.modCore hs)) (.drainOver h)
  · exact .ite (.emit (.coreWrite (.drainOver (.modCore h)))) (.emit (.modCore h))
  · exact .ite (.coreWrite (.drainOver h)) (.memWrite (.drainOver h))
  · exact .takeLine (.meetBlocks (.drainOver h))
  · exact .recall (.drainOver h)
  · exact .recall (.drainOver h)
  · exact h
  · exact h

theorem State.answers.coreMemoryAccess {acc : CoreAcc} (h : s₀.carries s) : s₀.answers (execCoreMemoryAccess acc s) := by
  unfold execCoreMemoryAccess
  refine .next ?_
  refine .ite h ?_
  split
  · exact .ite h (.of h)
  · exact .of h
  · exact .ite h (.ite (.ite (.of h) (.mmAccess h)) (.ite h (.ite (.of h) (.ite h (.coreAccess (.foldl (fun _ _ hs =>
      .coreEvict hs) h))))))

theorem State.carries.flushCaches (h : s₀.carries s) : s₀.carries s.flushCaches := by
  unfold State.flushCaches
  exact .foldl (fun _ _ hs => .recall hs) h

theorem State.carries.coreComplexReset (h : s₀.carries s) : s₀.carries s.coreComplexReset := by
  unfold State.coreComplexReset
  exact .ite h (.of h)

theorem State.answers.cfgResetCore (h : s₀.carries s) : s₀.answers (execCfgResetCore s) := by
  unfold execCfgResetCore
  exact .next (.ite h (.ite (.of h) (.coreComplexReset h)))

theorem State.answers.coreWatchdog {core : Nat} (h : s₀.carries s) : s₀.answers (execCoreWatchdog core s) := by
  unfold execCoreWatchdog
  exact .next (.ite h (.coreComplexReset (.reportSelf h)))

theorem State.carries.dropLate {l : Nat} (h : s₀.carries s) : s₀.carries (s.dropLate l) := by
  unfold State.dropLate
  split
  · split
    · extract_lets s1
      exact .reportSelf (.putBytes (.of h))
    · exact h
  · exact h

theorem State.carries.sbTick (h : s₀.carries s) : s₀.carries s.sbTick := by
  unfold State.sbTick
  exact .foldl (fun _ _ hs => .ite hs (.sbOne (.of hs))) h

theorem State.carries.bankTick (h : s₀.carries s) : s₀.carries s.bankTick := by
  unfold State.bankTick
  exact .foldl (fun _ _ hs => .ite hs (.of hs)) h

theorem State.carries.tick (h : s₀.carries s) : s₀.carries s.tick := by
  unfold State.tick
  exact .ite h (.ite (.bump (.bankTick (.sbTick (.flitTick (.liveEnd (.of h)))))) (.bankTick (.sbTick (.flitTick (.liveEnd (.of
    h))))))

/-! ### Hods (Hod) -/

theorem State.carries.setHod {h : Nat} {l : List HodJob} (hc : s₀.carries s) : s₀.carries (s.setHod h l) := .of hc

theorem State.carries.modJob {h job : Nat} {f : HodJob → HodJob} (hc : s₀.carries s) : s₀.carries (s.modJob h job f) := .of hc

theorem State.carries.hodFail {h job detail addr : Nat} (hc : s₀.carries s) : s₀.carries (s.hodFail h job detail addr) := by
  unfold State.hodFail
  split
  · exact hc
  · extract_lets q s1 s2 s3 s4 s5
    have h1 : s₀.carries s1 := .setFld (.setFld (.raise hc))
    have h3 : s₀.carries s3 := .setFld (.setFld (.setFld (.setFld h1)))
    have h4 : s₀.carries s4 := .ite (.bump hc) (.raise (.setReg h3))
    exact .ite hc (.modJob (.report h4))

theorem State.carries.hodXfail {h job : Nat} {f : XFault × Nat} (hc : s₀.carries s) : s₀.carries (s.hodXfail h job f) := by
  unfold State.hodXfail
  split
  · exact hc
  · refine .ite hc ?_
    extract_lets s1
    have h1 : s₀.carries s1 := by
      unfold s1
      split
      · exact .report hc
      · exact hc
    exact .modJob h1

theorem State.carries.hodSend {h : Nat} {j : HodJob} {toMem : Bool} {a : Nat} {bs : List Byte} (hc : s₀.carries s) :
    s₀.carries (s.hodSend h j toMem a bs) := .of hc

theorem State.carries.hodWrite {h : Nat} {j : HodJob} {off : Nat} {bs : List Byte} (hc : s₀.carries s) :
    s₀.carries (s.hodWrite h j off bs) := by
  unfold State.hodWrite
  extract_lets d a r s1
  have h1 : s₀.carries r.st := .xlateRun hc
  have h2 : s₀.carries s1 := by
    unfold s1
    refine .foldlOn Prod.fst (fun y p hs => ?_) h1
    split
    · exact .hodSend hs
  split
  · split
    · exact .hodXfail h2
    · exact h2
  · exact .foldl (fun _ _ hs => .busWrite hs) (.of hc)
  · exact .hodSend hc

theorem State.carries.hodRead {h : Nat} {j : HodJob} (hc : s₀.carries s) : s₀.carries (s.hodRead h j).2 := by
  unfold State.hodRead
  extract_lets d ue g s1 g1
  have h1 : s₀.carries g.st := .vaRead hc
  have h2 : s₀.carries s1 := .ite (.modJob h1) h1
  have h3 : s₀.carries g1.st := .scrRead hc
  split
  · split
    · exact .hodXfail h2
    · exact h2
  · exact .ite (.modJob h3) h3

theorem State.carries.hodPump {h job fuel : Nat} (hc : s₀.carries s) : s₀.carries (s.hodPump h job fuel) := by
  induction fuel generalizing s with
  | zero => exact hc
  | succ fuel ih =>
    unfold State.hodPump
    split
    · exact hc
    split <;> split
    · exact .hodFail hc
    · exact hc
    · exact ih (.modJob (.busRead hc))
    · exact hc
    · split
      · exact .hodFail hc
      · exact hc
      · exact ih (.modJob (.busRead hc))

theorem State.carries.hodPumpAll {h : Nat} (hc : s₀.carries s) : s₀.carries (s.hodPumpAll h) := by
  unfold State.hodPumpAll
  exact .foldl (fun _ _ hs => .hodPump hs) hc

theorem State.carries.hodStart {h : Nat} {j : HodJob} (hc : s₀.carries s) : s₀.carries (s.hodStart h j) := by
  unfold State.hodStart
  extract_lets s1 s2
  have h1 : s₀.carries s1 := .modJob hc
  have h2 : s₀.carries s2 := .ite (.of h1) h1
  split
  · exact .modItem h2
  · exact h2

theorem State.carries.hodDeliver {h : Nat} {j : HodJob} {bs : List Byte} (hc : s₀.carries s) :
    s₀.carries (s.hodDeliver h j bs) := by
  unfold State.hodDeliver
  extract_lets bus s1
  have h1 : s₀.carries s1 := .modJob hc
  split
  · exact .hodFail hc
  · exact .hodPump (.hodWrite h1)

theorem State.answers.hodCopy {h : Nat} (hc : s₀.carries s) : s₀.answers (execHodCopy h s) := by
  unfold execHodCopy
  refine .next ?_
  split
  · exact hc
  · refine .ite hc ?_
    extract_lets s1 ps
    have h1 : s₀.carries s1 := .hodStart hc
    refine .ite (.hodPump (.modJob h1)) ?_
    split
    · rename_i s2 e
      have h2 : s₀.carries s2 := .of_eq (congrArg Prod.snd e) (.hodRead h1)
      split
      · exact .ite h2 (.hodDeliver h2)
      · exact h2

theorem State.answers.hodFill {h : Nat} (hc : s₀.carries s) : s₀.answers (execHodFill h s) := by
  unfold execHodFill
  refine .next ?_
  split
  · exact hc
  · exact .ite hc (.hodDeliver (.hodStart hc))

theorem State.answers.hodFence {h : Nat} (hc : s₀.carries s) : s₀.answers (execHodFence h s) := by
  unfold execHodFence
  refine .next ?_
  split
  · exact hc
  · exact .ite hc (.hodPump (.modJob (.hodStart hc)))

theorem State.carries.hodEnd {h : Nat} {j : HodJob} (hc : s₀.carries s) : s₀.carries (s.hodEnd h j) := by
  unfold State.hodEnd
  extract_lets s1
  have h1 : s₀.carries s1 := .setHod hc
  split
  · split
    · exact .finish h1
    · exact .ite (.finish h1) (.finish h1)
    · exact .ite (.finish h1) (.finish h1)
  · split
    · exact .failBlock h1
    · exact .tileExc h1
    · extract_lets s2
      have h2 : s₀.carries s2 := .ite (.markUe h1) h1
      exact .ite h2 (.count h2)

theorem State.carries.hodCheck {h : Nat} {j : HodJob} (hc : s₀.carries s) : s₀.carries (s.hodCheck h j) := by
  unfold State.hodCheck
  split
  · extract_lets v out r
    have h1 : s₀.carries r.st := .xlateRun hc
    split
    · exact .hodXfail h1
    · exact .of (.putPieces h1)
  · exact hc

theorem State.answers.hodTransferComplete {h k : Nat} (hc : s₀.carries s) : s₀.answers (execHodTransferComplete h k s) := by
  unfold execHodTransferComplete
  refine .next ?_
  split
  · exact hc
  · refine .ite hc ?_
    refine .ite (.hodEnd hc) ?_
    refine .ite hc ?_
    extract_lets s1 s2
    have h1 : s₀.carries s2 := .hodCheck (.of hc)
    split
    · exact .hodEnd h1
    · exact h1

theorem State.answers.hodFenceRelease {h : Nat} (hc : s₀.carries s) : s₀.answers (execHodFenceRelease h s) := by
  unfold execHodFenceRelease
  refine .next ?_
  split
  · exact hc
  · extract_lets before
    exact .ite hc (.hodEnd (.of hc))

theorem State.carries.hodReadDone {tag h job off addr : Nat} {r : Except Nat (List Byte)} (hc : s₀.carries s) :
    s₀.carries (s.hodReadDone tag h job off addr r) := by
  unfold State.hodReadDone
  split
  · exact hc
  · extract_lets s1
    have h1 : s₀.carries s1 := .modJob hc
    refine .ite h1 ?_
    split
    · exact .hodFail h1
    · exact .hodWrite (.modJob h1)

theorem State.carries.hodDstRead {h job : Nat} (hc : s₀.carries s) : s₀.carries (s.hodDstRead h job) := .of hc

theorem State.carries.hodFlushDone {tag h job addr : Nat} {ok : Bool} (hc : s₀.carries s) :
    s₀.carries (s.hodFlushDone tag h job addr ok) := by
  unfold State.hodFlushDone
  extract_lets s1
  have h1 : s₀.carries s1 := .modJob hc
  exact .ite h1 (.hodFail h1)

theorem State.carries.copySend {i : Item} (h : s₀.carries s) : s₀.carries (s.copySend i) := .of h

theorem State.answers.copy {q : Nat} (h : s₀.carries s) : s₀.answers (execCopy q s) := by
  unfold execCopy
  refine .next ?_
  refine .ite h ?_
  split
  · exact .ite (.noContext h) (.ite (.finish h) (.ite (.copySend (.modItem h)) (.modItem h)))
  · split
    · exact .copySend h
    · exact h

theorem State.answers.hodreq {t : Nat} (h : s₀.carries s) : s₀.answers (execHodreq t s) := by
  unfold execHodreq
  refine .next ?_
  refine .issueOp (fun w u hu => ?_) h
  extract_lets cls h1
  refine .ite (.exc hu) ?_
  refine .ite .hold ?_
  refine .bind (fun d u1 hu1 => ?_) (.descRead hu)
  refine .ite (.exc hu1) ?_
  split
  · exact .exc hu1
  · refine .ite .hold ?_
    split
    · exact .done hu1
    · extract_lets j
      exact .done (.setHod (.of hu1))

theorem State.carries.chkFeed {u : Nat} {bs : List Byte} (h : s₀.carries s) : s₀.carries (s.chkFeed u bs) := by
  unfold State.chkFeed
  exact .ite h (.of h)

theorem State.answers.chkLoad {u : Nat} {v : BitVec 64} (h : s₀.carries s) : s₀.answers (execChkLoad u v s) := by
  unfold execChkLoad
  exact .next (.ite h (.ite (.of h) (.of h)))

theorem State.answers.chkData8 {u : Nat} {v : BitVec 8} (h : s₀.carries s) : s₀.answers (execChkData8 u v s) := by
  unfold execChkData8
  exact .next (.chkFeed h)

theorem State.answers.chkData16 {u : Nat} {v : BitVec 16} (h : s₀.carries s) : s₀.answers (execChkData16 u v s) := by
  unfold execChkData16
  exact .next (.chkFeed h)

theorem State.answers.chkData32 {u : Nat} {v : BitVec 32} (h : s₀.carries s) : s₀.answers (execChkData32 u v s) := by
  unfold execChkData32
  exact .next (.chkFeed h)

theorem State.answers.chkValueWrite {u : Nat} {v : BitVec 64} (h : s₀.carries s) : s₀.answers (execChkValueWrite u v s) := by
  unfold execChkValueWrite
  exact .next (.ite h (.of h))

/-! ### The bus (Pcie) -/

theorem State.carries.inBlocked (h : s₀.carries s) : s₀.carries s.inBlocked := .of h

theorem State.carries.inAbort (h : s₀.carries s) : s₀.carries s.inAbort := .of h

theorem State.carries.inOnes {n : Nat} (h : s₀.carries s) : s₀.carries (s.inOnes n) := .of h

theorem State.carries.inboundDone {req : Nat} (h : s₀.carries s) : s₀.carries (s.inboundDone req) := by
  unfold State.inboundDone
  exact .landAll h

theorem State.carries.inboundOrdered (h : s₀.carries s) : s₀.carries s.inboundOrdered := by
  unfold State.inboundOrdered
  exact .landAll h

theorem State.carries.inboundAll (h : s₀.carries s) : s₀.carries s.inboundAll := by
  unfold State.inboundAll
  exact .landAll h

theorem State.answers.inboundRead {src : InReq} {len : Nat} (h : s₀.carries s) : s₀.answers (execInboundRead src len s) := by
  have h1 : s₀.carries ((s.inboundDone src.req).memRead hostAgent (s.bar2Pa src.off) len).st := .memRead (.inboundDone h)
  refine .next (.ite h (.ite (.emit h) ?_))
  show have a := s.bar2Pa src.off
    s₀.carries (match s.inbound a len .read with
      | .ones => s.inOnes len
      | .dropped => (s.bump F.HOD_INBOUND.DROPPED 0 1).inOnes len
      | .blocked => s.inBlocked.inOnes len
      | .cut => s.inAbort
      | .go =>
        have g := (s.inboundDone src.req).memRead hostAgent a len
        if g.ue then g.st.inAbort else g.st.emit (.reply 0 0 g.data))
  intro a
  generalize s.inbound a len .read = r
  cases r with
  | ones => exact .inOnes h
  | dropped => exact .inOnes (.bump h)
  | blocked => exact .inOnes (.inBlocked h)
  | cut => exact .inAbort h
  | go => exact .ite (.inAbort h1) (.emit h1)

theorem State.answers.inboundWrite {src : InReq} {data : List (BitVec 8)} {attr : TlpAttr} (h : s₀.carries s) :
    s₀.answers (execInboundWrite src data attr s) := by
  unfold execInboundWrite
  refine .next ?_
  refine .ite h ?_
  refine .ite (.emit (.bump h)) ?_
  extract_lets a
  split
  · exact h
  · exact h
  · exact .bump h
  · exact .inBlocked h
  · exact .sendAs h

theorem State.answers.inboundAtomicop {_off : Nat} (h : s₀.carries s) : s₀.answers (execInboundAtomicop _off s) := by
  unfold execInboundAtomicop
  exact .next (.ite (.emit h) h)

theorem State.carries.outFail {n len addr detail : Nat} (h : s₀.carries s) : s₀.carries (s.outFail n len addr detail) := by
  unfold State.outFail
  exact .emit (.reportSelf (.raise h))

theorem State.answers.outboundAccess {who : OutCore} {pa size : Nat} {st : Option (BitVec 64)} (h : s₀.carries s) :
    s₀.answers (execOutboundAccess who pa size st s) := by
  unfold execOutboundAccess
  refine .next ?_
  refine .ite h ?_
  refine .ite (.emit h) ?_
  split
  · exact .ite (.busWrite h) h
  · refine .ite (.outFail h) ?_
    split
    · exact h
    · exact .busRead h

theorem State.carries.completed {id : Nat} {r : BusReq} {d : Option Nat} {bs : List Byte} (h : s₀.carries s) :
    s₀.carries (s.completed id r d bs) := by
  unfold State.completed
  split
  · exact .hodReadDone h
  · exact .hodFlushDone (.ite h (.hodDstRead h))
  · exact .ite (.slotRead h) h
  · exact .recordRead h
  · extract_lets s1
    have h1 : s₀.carries s1 := .modCore h
    split
    · exact .emit h1
    · exact .ite (.outFail h1) (.emit (.drawn h1))
  · exact .ite h (.emit h)

theorem State.carries.freeTag {id : Nat} (h : s₀.carries s) : s₀.carries (s.freeTag id) := .of h

theorem State.carries.tagFreed {id : Nat} (h : s₀.carries s) : s₀.carries (s.tagFreed id) := by
  unfold State.tagFreed
  exact .ite (.hodPumpAll h) (.ite (.rewriteStalled h) h)

theorem State.answers.busCompletion {id : Nat} {st : BusStatus} {data : List (BitVec 8)} (h : s₀.carries s) :
    s₀.answers (execBusCompletion id st data s) := by
  unfold execBusCompletion
  refine .next ?_
  split
  · exact h
  · extract_lets d
    exact .ite h (.tagFreed (.completed (.freeTag h)))

theorem State.answers.completionTimeout {id : Nat} (h : s₀.carries s) : s₀.answers (execCompletionTimeout id s) := by
  unfold execCompletionTimeout
  refine .next ?_
  split
  · exact h
  · exact .ite h (.tagFreed (.completed (.freeTag h)))

theorem State.carries.resetFn {f : Nat} (h : s₀.carries s) : s₀.carries (s.resetFn f) := .of h

theorem State.carries.dropAdmin {a : Nat} (h : s₀.carries s) : s₀.carries (s.dropAdmin a) := by
  unfold State.dropAdmin
  extract_lets q owed move tag s1
  exact .freeQueue (.setFld (.of h))

theorem State.carries.drainQueues {p : Nat → Bool} (h : s₀.carries s) : s₀.carries (s.drainQueues p) := by
  unfold State.drainQueues
  extract_lets qs
  exact .foldl (fun _ _ hs => .drain hs) h

theorem State.carries.drainFn {f : Nat} (h : s₀.carries s) : s₀.carries (s.drainFn f) := by
  unfold State.drainFn
  extract_lets s1
  have h1 : s₀.carries s1 := .dropAdmin h
  exact .drainQueues h1

theorem State.carries.closeTdi {p : Nat} (h : s₀.carries s) : s₀.carries (s.closeTdi p) := by
  unfold State.closeTdi
  exact .ite h (.closeDrained (.drainQueues (.drainFn (.of (.ite (.setFld h) h)))))

theorem State.carries.failBus {detail : Nat} {p : HodJob → Bool} (h : s₀.carries s) : s₀.carries (s.failBus detail p) := by
  unfold State.failBus
  exact .foldl (fun _ _ hs => .foldl (fun _ _ hs1 => .ite (.hodFail hs1) hs1) hs) h

theorem State.carries.failFn {f : Nat} (h : s₀.carries s) : s₀.carries (s.failFn f) := by
  unfold State.failFn
  exact .failBus h

theorem State.carries.flr {f : Nat} (h : s₀.carries s) : s₀.carries (s.flr f) := by
  unfold State.flr
  extract_lets s1 s2
  have h1 : s₀.carries s1 := .resetFn (.failFn h)
  have h2 : s₀.carries s2 := .ite (.closeTdi h1) h1
  exact .drainFn h2

theorem State.answers.flrVf {n : Nat} (h : s₀.carries s) : s₀.answers (execFlrVf n s) := by
  unfold execFlrVf
  exact .next (.ite h (.flr h))

theorem State.carries.flrVfs (h : s₀.carries s) : s₀.carries s.flrVfs := by
  unfold State.flrVfs
  exact .foldl (fun _ _ hs => .flr hs) h

theorem State.answers.flrPf (h : s₀.carries s) : s₀.answers (execFlrPf s) := by
  unfold execFlrPf
  exact .next (.ite h (.flr (.flrVfs h)))

theorem State.carries.msixFlush {f : Nat} (h : s₀.carries s) : s₀.carries (s.msixFlush f) := by
  unfold State.msixFlush
  extract_lets mine
  exact .foldl (fun _ _ hs => .msix hs) (.of h)

theorem State.carries.configWrite {fn : Nat} {req : CfgReq} (h : s₀.carries s) : s₀.carries (s.configWrite fn req) := by
  unfold State.configWrite
  extract_lets p
  split
  · exact h
  · exact h
  · exact .setFn h
  · exact .setFn h
  · exact .msixFlush (.setFn h)
  · exact .setFn h
  · exact .msixFlush (.setFn h)
  · exact .ite h (.ite (.setFn (.flrVfs h)) (.setFn h))
  · exact .ite (.setFn h) h
  · exact .ite (.setFn h) h

theorem State.answers.configRequest {fn : Nat} {req : CfgReq} (h : s₀.carries s) : s₀.answers (execConfigRequest fn req s) := by
  unfold execConfigRequest
  refine .next ?_
  refine .ite h ?_
  refine .ite (.emit h) ?_
  refine .ite (.emit h) ?_
  split
  · exact .emit h
  · exact .emit (.configWrite h)

theorem State.carries.linkDown (h : s₀.carries s) : s₀.carries s.linkDown := by
  unfold State.linkDown
  exact .failBus (.setFld h)

theorem State.answers.linkLeavesDlActive (h : s₀.carries s) : s₀.answers (execLinkLeavesDlActive s) := by
  unfold execLinkLeavesDlActive
  exact .next (.ite (.linkDown h) h)

theorem State.answers.linkUp (h : s₀.carries s) : s₀.answers (execLinkUp s) := by
  unfold execLinkUp
  exact .next (.ite h (.setFld (.setFld (.setFld (.raise (.drawn (.drawn (.ite (.of h) (.bump (.of h))))))))))

/-! ### Admin work (Admin) -/

theorem State.carries.admin {a op : Nat} {check : List Byte → State → Check} {act : Nat → List Byte → State → State}
    (H : ∀ n d u, s₀.carries u → s₀.carries (act n d u)) (h : s₀.carries s) : s₀.carries (s.admin a op check act) := by
  unfold State.admin
  refine .ite h ?_
  split
  · exact h
  · refine .ite (.finishAdmin h) ?_
    split
    · exact .finishAdmin h
    · exact H _ _ _ h

theorem State.carries.zeroEnergy {k : RegKind} {i key : Nat} (h : s₀.carries s) : s₀.carries (s.zeroEnergy k i key) := .of h

theorem State.carries.makeQueue {a : Nat} {d : List Byte} (h : s₀.carries s) : s₀.carries (s.makeQueue a d) := by
  unfold State.makeQueue
  extract_lets q ctx fl first s1 s2 s3 s4 s5 s6 s7 s8 s9 src
  have h1 : s₀.carries s1 := .setFld (.setReg h)
  have h2 : s₀.carries s2 := .setFld (.setFld h1)
  have h3 : s₀.carries s3 := .setFld (.setFld h2)
  have h4 : s₀.carries s4 := .setFld (.setFld h3)
  have h5 : s₀.carries s5 := .setFld (.setFld h4)
  have h6 : s₀.carries s6 := .setFld (.setFld h5)
  have h7 : s₀.carries s7 := .setFld (.setFld h6)
  have h8 : s₀.carries s8 := .zeroEnergy (.setReg (.setReg h7))
  have h9 : s₀.carries s9 := .setFld (.setFld h8)
  exact .setQState (.setQueue h9)

theorem State.answers.createQueue {a : Nat} (h : s₀.carries s) : s₀.answers (execCreateQueue a s) := by
  unfold execCreateQueue
  exact .next (.admin (fun _ _ _ hu => .finishAdmin (.makeQueue hu)) h)

theorem State.answers.destroyQueue {a : Nat} (h : s₀.carries s) : s₀.answers (execDestroyQueue a s) := by
  unfold execDestroyQueue
  exact .next (.admin (fun _ _ _ hu => .drain (.modItem hu)) h)

theorem State.answers.resetQueue {a : Nat} (h : s₀.carries s) : s₀.answers (execResetQueue a s) := by
  unfold execResetQueue
  exact .next (.admin (fun _ _ _ hu => .finishAdmin (.modQueue (.setQState (.setFld (.setFld hu))))) h)

theorem State.answers.createContext {a : Nat} (h : s₀.carries s) : s₀.answers (execCreateContext a s) := by
  unfold execCreateContext
  exact .next (.admin (fun _ _ _ hu => .finishAdmin (.setReg (.setReg hu))) h)

theorem State.carries.dropContext {c : Nat} (h : s₀.carries s) : s₀.carries (s.dropContext c) := .of h

theorem State.answers.destroyContext {a : Nat} (h : s₀.carries s) : s₀.answers (execDestroyContext a s) := by
  unfold execDestroyContext
  exact .next (.admin (fun _ _ _ hu => .finishAdmin (.dropContext hu)) h)

theorem State.carries.bindPlinth {t part banks id : Nat} {c0 : Bool} (h : s₀.carries s) :
    s₀.carries (s.bindPlinth t part banks id c0) := by
  unfold State.bindPlinth
  exact .setReg (.claimTile h)

theorem State.carries.makeSet {id part : Nat} {tiles : List Nat} {banks : Nat} {c0 : Bool} (h : s₀.carries s) :
    s₀.carries (s.makeSet id part tiles banks c0) := by
  unfold State.makeSet
  extract_lets s1
  have h1 : s₀.carries s1 := .foldl (fun _ _ hs => .bindPlinth hs) h
  exact .of h1

theorem State.carries.dropSet {r : RSet} (h : s₀.carries s) : s₀.carries (s.dropSet r) := by
  unfold State.dropSet
  extract_lets s1 s2
  have h1 : s₀.carries s1 := .foldl (fun _ _ hs => .dropPlinth hs) h
  split
  · exact .finishAdmin (.of h1)
  · exact .of h1

theorem State.answers.createResidentSet {a : Nat} (h : s₀.carries s) : s₀.answers (execCreateResidentSet a s) := by
  unfold execCreateResidentSet
  refine .next ?_
  refine .admin (fun seq d u hu => ?_) h
  split
  · exact .finishAdmin hu
  · exact .finishAdmin (.makeSet hu)

theorem State.answers.releaseResidentSet {a : Nat} (h : s₀.carries s) : s₀.answers (execReleaseResidentSet a s) := by
  unfold execReleaseResidentSet
  refine .next ?_
  refine .admin (fun seq d u hu => ?_) h
  split
  · exact .finishAdmin (.dropSet hu)
  · exact hu

theorem State.answers.moveResidentSet {a : Nat} (h : s₀.carries s) : s₀.answers (execMoveResidentSet a s) := by
  unfold execMoveResidentSet
  refine .next ?_
  refine .admin (fun seq d u hu => ?_) h
  split
  · exact hu
  · split
    · exact .finishAdmin hu
    · extract_lets s1 put
      have h1 : s₀.carries s1 := .modItem hu
      exact .of h1

theorem State.answers.echo {a : Nat} (h : s₀.carries s) : s₀.answers (execEcho a s) := by
  unfold execEcho
  exact .next (.admin (fun _ _ _ hu => .finishAdmin hu) h)

/-! ### Memory commands (Mtc) -/

theorem State.carries.mtcStart {d n : Nat} {f : State → State} (H : ∀ u, s₀.carries u → s₀.carries (f u)) (h : s₀.carries s) :
    s₀.carries (s.mtcStart d n f) :=
  .ite h (.ite (.raise h) (.setFld (.raise (H _ h))))

theorem State.carries.addStart {d ty n : Nat} {home : Bool} {f : State → State} (H : ∀ u, s₀.carries u → s₀.carries (f u))
    (h : s₀.carries s) : s₀.carries (s.addStart d ty n home f) := by
  unfold State.addStart
  extract_lets a w s1
  have h1 : s₀.carries s1 := .setFld h
  exact .ite h (.ite (.raise h1) (.raise (H _ h1)))

theorem State.carries.invStart {hit : Nat → Bool} {f : State → State} (H : ∀ u, s₀.carries u → s₀.carries (f u))
    (h : s₀.carries s) : s₀.carries (s.invStart hit f) := by
  have h1 : s₀.carries (f s) := H s h
  exact .ite h (.ite (.raise h) (.raise (.of h1)))

theorem State.answers.wcDrain {line : Nat} (h : s₀.carries s) : s₀.answers (execWcDrain line s) := by
  unfold execWcDrain
  exact .next (.ite (.wcLeave h) h)

theorem State.carries.writeBackAll {p : Nat → Bool} (h : s₀.carries s) : s₀.carries (s.writeBackAll p) := by
  unfold State.writeBackAll
  exact .foldl (fun _ _ hs => .writeBack hs) h

theorem State.carries.evictAll {p : Nat → Bool} (h : s₀.carries s) : s₀.carries (s.evictAll p) := by
  unfold State.evictAll
  exact .foldl (fun _ _ hs => .evictLine hs) h

theorem State.carries.rebuildSlices (h : s₀.carries s) : s₀.carries s.rebuildSlices := by
  unfold State.rebuildSlices
  extract_lets s1 keep
  have h1 : s₀.carries s1 := .writeBackAll h
  exact .of h1

theorem State.answers.writebackAll {d n : Nat} (h : s₀.carries s) : s₀.answers (execWritebackAll d n s) := by
  unfold execWritebackAll
  exact .next (.mtcStart (fun _ hu => .writeBackAll hu) h)

theorem State.answers.writebackRange {d n : Nat} (h : s₀.carries s) : s₀.answers (execWritebackRange d n s) := by
  unfold execWritebackRange
  exact .next (.mtcStart (fun _ hu => .writeBackAll hu) h)

theorem State.answers.evictRange {d n : Nat} (h : s₀.carries s) : s₀.answers (execEvictRange d n s) := by
  unfold execEvictRange
  exact .next (.mtcStart (fun _ hu => .evictAll hu) h)

theorem State.carries.dropLost {p : Nat → Bool} (h : s₀.carries s) : s₀.carries (s.dropLost p) := .of h

theorem State.answers.discardLostRange {d n : Nat} (h : s₀.carries s) : s₀.answers (execDiscardLostRange d n s) := by
  unfold execDiscardLostRange
  exact .next (.mtcStart (fun _ hu => .dropLost hu) h)

theorem State.answers.patrolScrub {ctl : Nat} {run : ScrubRun} (h : s₀.carries s) : s₀.answers (execPatrolScrub ctl run s) := by
  unfold execPatrolScrub
  refine .next ?_
  refine .ite h ?_
  extract_lets late lo hi mine ode s1 s2 s3 s4 n least s5
  have h1 : s₀.carries s1 := .foldl (fun _ _ hs => .meetMemUe hs) (.bump h)
  have h2 : s₀.carries s2 := .foldl (fun _ _ hs => .fixMemCe hs) h1
  have h3 : s₀.carries s3 := .bump h2
  exact .ite (.ite (.raise h) h) (.ite (.setFld (.setFld (.of h3))) (.ite (.raise (.of h3)) (.of h3)))

theorem State.carries.addTouch {l : Nat} (h : s₀.carries s) : s₀.carries (s.addTouch l) := by
  unfold State.addTouch
  exact .ite (.recall h) (.evictLine h)

theorem State.carries.addRead {d : Nat} {us : List Nat} (h : s₀.carries s) : s₀.carries (s.addRead d us).1 := by
  unfold State.addRead
  exact .ctlUnits (.bump (.foldl (fun _ _ hs => .addTouch hs) h))

theorem State.answers.memAdd {d ty : Nat} (h : s₀.carries s) : s₀.answers (execMemAdd d ty s) := by
  unfold execMemAdd
  refine .next ?_
  refine .addStart (fun u hu => ?_) h
  extract_lets a
  split
  · rename_i s1 _ e
    have h1 : s₀.carries s1 := .of_eq (congrArg Prod.fst e) (.addRead hu)
    exact .ite (.setReg (.drawn h1)) (.setReg (.bump (.breakResv (.putBytes h1))))

theorem State.answers.memSum {d ty : Nat} (h : s₀.carries s) : s₀.answers (execMemSum d ty s) := by
  unfold execMemSum
  refine .next ?_
  refine .addStart (fun u hu => ?_) h
  extract_lets a n here es
  split
  · rename_i s1 _ e
    have h1 : s₀.carries s1 := .of_eq (congrArg Prod.fst e) (.addRead hu)
    exact .ite (.setReg (.drawn h1)) (.setReg h1)

theorem State.answers.addDone {d : Nat} (h : s₀.carries s) : s₀.answers (execAddDone d s) := by
  unfold execAddDone
  exact .next (.ite (.msix (.raise (.setFld h))) h)

theorem State.answers.xltInvAll (h : s₀.carries s) : s₀.answers (execXltInvAll s) := by
  unfold execXltInvAll
  exact .next (.invStart (fun _ hu => .dropAll hu) h)

theorem State.answers.xltInvContext {c : Nat} (h : s₀.carries s) : s₀.answers (execXltInvContext c s) := by
  unfold execXltInvContext
  exact .next (.invStart (fun _ hu => .dropCtx (.setFld hu)) h)

theorem State.answers.xltInvContextRange {c : Nat} (h : s₀.carries s) : s₀.answers (execXltInvContextRange c s) := by
  unfold execXltInvContextRange
  exact .next (.invStart (fun _ hu => .dropCtxRange (.setFld hu)) h)

theorem State.answers.invDone (h : s₀.carries s) : s₀.answers (execInvDone s) := by
  unfold execInvDone
  exact .next (.ite (.msix (.raise (.setFld (.of h)))) h)

/-! ### Partitions (Partition) -/

theorem State.carries.res_st {r : Res State} (hr : s₀.answers r) : s₀.carries (r.st s) := by
  obtain ⟨u, rfl, h⟩ := hr
  exact h

theorem State.carries.takeSlot {k owner : Nat} (h : s₀.carries s) : s₀.carries (s.takeSlot k owner) := .of h

theorem State.carries.eraseSlot {k : Nat} (h : s₀.carries s) : s₀.carries (s.eraseSlot k) := .of h

theorem State.carries.rangePassed {r : RangePass} (h : s₀.carries s) : s₀.carries (s.rangePassed r) := by
  unfold State.rangePassed
  extract_lets old oldSlot s1 s2 s3 used s4
  have h1 : s₀.carries s1 := .dropRange h
  have h2 : s₀.carries s2 := .ite h1 (.scramble h1)
  have h3 : s₀.carries s3 := .setReg h2
  have h4 : s₀.carries s4 := .ite h3 (.eraseSlot h3)
  split
  · exact .finishAdmin h4
  · exact h4

theorem State.carries.passEvict {d : Nat} (h : s₀.carries s) : s₀.carries (s.passEvict d) := by
  unfold State.passEvict
  refine .ite h ?_
  split
  · exact h
  · extract_lets on
    exact .res_st (.evictRange (.of h))

theorem State.carries.passRange {r : RangePass} (h : s₀.carries s) : s₀.carries (s.passRange r) := by
  unfold State.passRange
  extract_lets s1 s2
  have h1 : s₀.carries s1 := .setFld h
  have h2 : s₀.carries s2 := .landAll h1
  exact .foldl (fun _ _ hs => .passEvict hs) (.of h2)

theorem State.carries.passTile {owner t : Nat} (h : s₀.carries s) : s₀.carries (s.passTile owner t) := .of h

theorem State.carries.openGroups {owner : Nat} (h : s₀.carries s) : s₀.carries (s.openGroups owner) := by
  unfold State.openGroups
  exact .foldl (fun _ _ hs => .makeSet (.foldl (fun _ _ hs1 => .passTile hs1) hs)) h

theorem State.answers.partCreate {a : Nat} (h : s₀.carries s) : s₀.answers (execPartCreate a s) := by
  unfold execPartCreate
  refine .next ?_
  refine .admin (fun seq d u hu => ?_) h
  extract_lets p m
  split
  · exact .finishAdmin hu
  · extract_lets s1 s2
    have h1 : s₀.carries s1 := .setReg (.zeroEnergy (.takeSlot hu))
    have h2 : s₀.carries s2 := .setFld (.setFld h1)
    exact .finishAdmin (.openGroups h2)

theorem State.answers.partDestroy {a : Nat} (h : s₀.carries s) : s₀.answers (execPartDestroy a s) := by
  unfold execPartDestroy
  exact .next (.admin (fun _ _ _ hu => .finishAdmin (.beginClose hu)) h)

theorem State.answers.partAssignTiles {a : Nat} (h : s₀.carries s) : s₀.answers (execPartAssignTiles a s) := by
  unfold execPartAssignTiles
  exact .next (.admin (fun _ _ _ hu => .finishAdmin (.foldl (fun _ _ hs1 => .passTile hs1) hu)) h)

theorem State.answers.partAssignRange {a : Nat} (h : s₀.carries s) : s₀.answers (execPartAssignRange a s) := by
  unfold execPartAssignRange
  refine .next ?_
  refine .admin (fun seq d u hu => ?_) h
  extract_lets n o share s1
  have h1 : s₀.carries s1 := .modItem hu
  split
  · exact .finishAdmin hu
  · exact .ite (.finishAdmin (.setFld hu)) (.passRange (.takeSlot h1))

theorem State.carries.freePart {p : Nat} (h : s₀.carries s) : s₀.carries (s.freePart p) := by
  unfold State.freePart
  extract_lets s1 s2 s3 s4 s5 s6 tdi s7
  have h1 : s₀.carries s1 := .foldl (fun _ _ hs => .dropContext hs) h
  have h2 : s₀.carries s2 := .foldl (fun _ _ hs => .dropSet hs) h1
  have h3 : s₀.carries s3 := .foldl (fun _ _ hs => .passTile hs) h2
  clear_value s1 s2 s3
  have h4 : s₀.carries s4 := by
    exact .of h3
  have h5 : s₀.carries s5 := by
    exact .setReg (.setReg h4)
  have h6 : s₀.carries s6 := .foldl (fun _ _ hs => .eraseSlot hs) h5
  have h7 : s₀.carries s7 := .setReg h6
  exact .setFld h7

theorem State.carries.closeStep {p : Nat} (h : s₀.carries s) : s₀.carries (s.closeStep p) := by
  unfold State.closeStep
  extract_lets mine
  clear_value mine
  refine .ite h ?_
  cases mine with
  | nil => exact .freePart h
  | cons n _ => exact .passRange h

theorem State.answers.partitionClose {p : Nat} (h : s₀.carries s) : s₀.answers (execPartitionClose p s) := by
  unfold execPartitionClose
  exact .next (.ite (.closeStep h) h)

theorem State.carries.passDone (h : s₀.carries s) : s₀.carries s.passDone := by
  unfold State.passDone
  extract_lets fin s1
  exact .foldl (fun _ _ hs => .ite (.closeStep (.rangePassed hs)) (.rangePassed hs)) (.of h)

theorem State.answers.mtcCmdDone {d : Nat} (h : s₀.carries s) : s₀.answers (execMtcCmdDone d s) := by
  unfold execMtcCmdDone
  exact .next (.ite (.passEvict (.passDone (.of (.msix (.raise (.setFld h)))))) h)

theorem State.carries.vendorReply {ok : Bool} (h : s₀.carries s) : s₀.carries (s.vendorReply ok) := .of h

theorem State.answers.lockInterfaceRequest {vf : Nat} (h : s₀.carries s) : s₀.answers (execLockInterfaceRequest vf s) := by
  unfold execLockInterfaceRequest
  exact .next (.ite h (.ite (.vendorReply (.setFld (.setFld (.landAll h)))) (.vendorReply h)))

theorem State.answers.stopInterface {vf : Nat} (h : s₀.carries s) : s₀.answers (execStopInterface vf s) := by
  unfold execStopInterface
  exact .next (.ite h (.vendorReply (.closeTdi (.setFld h))))

theorem State.answers.ideIntegrityFail {vf : Nat} (h : s₀.carries s) : s₀.answers (execIdeIntegrityFail vf s) := by
  unfold execIdeIntegrityFail
  exact .next (.ite h (.closeTdi (.of h)))

/-! ### Envelopes, boot verification and the mailbox (Trust) -/

theorem State.carries.useCopy {ty copy : Nat} (h : s₀.carries s) : s₀.carries (s.useCopy ty copy) := .of h

theorem State.carries.verifyImage {ty : Nat} (h : s₀.carries s) : s₀.carries (s.verifyImage ty).1 := by
  unfold State.verifyImage
  split
  · exact .useCopy h
  · extract_lets s1
    have h1 : s₀.carries s1 := .setFld h
    split
    · exact .raise (.useCopy h1)
    · exact .setFld h1

theorem State.carries.recover {ty : Nat} (h : s₀.carries s) : s₀.carries (s.recover ty) := .of h

/-- Through the recursor: to state the equations of `verifyAll`, Lean would evaluate the verification of an image. -/
theorem State.carries.verifyAll {ts : List Nat} (h : s₀.carries s) : s₀.carries (s.verifyAll ts).1 := by
  delta State.verifyAll State.verifyAll._f
  dsimp only [List.brecOn, List.brecOn.go]
  induction ts generalizing s with
  | nil => exact h
  | cons t ts ih =>
    have h1 : s₀.carries (s.verifyImage t).1 := .verifyImage h
    dsimp only
    generalize s.verifyImage t = y at h1
    obtain ⟨s1, ok⟩ := y
    cases ok with
    | true => exact ih h1
    | false => exact .recover h1

theorem State.carries.rebuild {cause detail : Nat} (h : s₀.carries s) : s₀.carries (s.rebuild cause detail) := by
  unfold State.rebuild
  extract_lets s1 s2 s3 fetch moving s4 stay src
  have h1 : s₀.carries s1 := .report h
  have h2 : s₀.carries s2 := .setFld (.setFld h1)
  have h3 : s₀.carries s3 := .dropAll (.rebuildSlices (.stopWork h2))
  have h4 : s₀.carries s4 := .foldl (fun _ _ hs => .dropPlinth hs) h3
  clear_value s1 s2 s3 s4
  exact .of h4

theorem State.carries.mboxStart {op len : Nat} (h : s₀.carries s) : s₀.carries (s.mboxStart op len) := by
  unfold State.mboxStart
  exact .ite h (.ite (.raise h) (.of h))

theorem State.answers.loadImage {len : Nat} (h : s₀.carries s) : s₀.answers (execLoadImage len s) := by
  unfold execLoadImage
  exact .next (.mboxStart h)

theorem State.answers.takeOwnership {len : Nat} (h : s₀.carries s) : s₀.answers (execTakeOwnership len s) := by
  unfold execTakeOwnership
  exact .next (.mboxStart h)

theorem State.answers.raiseSvn {len : Nat} (h : s₀.carries s) : s₀.answers (execRaiseSvn len s) := by
  unfold execRaiseSvn
  exact .next (.mboxStart h)

theorem State.answers.debugChallenge {len : Nat} (h : s₀.carries s) : s₀.answers (execDebugChallenge len s) := by
  unfold execDebugChallenge
  exact .next (.mboxStart h)

theorem State.answers.debugUnlock {len : Nat} (h : s₀.carries s) : s₀.answers (execDebugUnlock len s) := by
  unfold execDebugUnlock
  exact .next (.mboxStart h)

theorem State.carries.flashWrite {off : Nat} {bs : List Byte} (h : s₀.carries s) : s₀.carries (s.flashWrite off bs) := .of h

theorem State.carries.flashSpoil {off n : Nat} (h : s₀.carries s) : s₀.carries (s.flashSpoil off n) := .of h

theorem State.carries.mbLoad {e : List Byte} {flashOk : Bool} (h : s₀.carries s) : s₀.carries (s.mbLoad e flashOk).1 := by
  unfold State.mbLoad
  extract_lets ty b
  refine .iteOn Prod.fst h ?_
  split
  · exact h
  · exact .iteOn Prod.fst h (.iteOn Prod.fst (.flashWrite h) (.flashSpoil h))

theorem State.carries.mbOwn {e : List Byte} (h : s₀.carries s) : s₀.carries (s.mbOwn e).1 := by
  unfold State.mbOwn
  refine .iteOn Prod.fst h ?_
  refine .iteOn Prod.fst h ?_
  split
  · exact h
  · refine .iteOn Prod.fst h ?_
    extract_lets src s1
    exact .raise (.raise (.of h))

theorem State.carries.mbRaise {ty n : Nat} (h : s₀.carries s) : s₀.carries (s.mbRaise ty n).1 := by
  unfold State.mbRaise
  refine .iteOn Prod.fst h ?_
  refine .iteOn Prod.fst h ?_
  refine .iteOn Prod.fst h ?_
  refine .iteOn Prod.fst h ?_
  extract_lets v
  exact .setReg h

theorem State.carries.mbChallenge (h : s₀.carries s) : s₀.carries s.mbChallenge.1 := by
  unfold State.mbChallenge
  refine .iteOn Prod.fst h ?_
  extract_lets n src src1 s1
  have h1 : s₀.carries src := .drawn h
  exact .raise (.of h1)

theorem State.carries.dropPartQueues {p : Nat} (h : s₀.carries s) : s₀.carries (s.dropPartQueues p) := by
  unfold State.dropPartQueues
  exact .foldl (fun _ _ hs => .freeQueue hs) h

theorem State.carries.unlock {levels : Nat} (h : s₀.carries s) : s₀.carries (s.unlock levels) := by
  unfold State.unlock
  extract_lets s1 s2 s3 s4 s5 s6 s7 s8 src src1 s9 s10
  have h2 : s₀.carries s2 := .coreComplexReset (.ite (.rebuild h) (.stopWork h))
  clear_value s2
  have h3 : s₀.carries s3 := .of h2
  clear_value s3
  have h5 : s₀.carries s5 := .foldl (fun _ _ hs => .setFld hs) (.foldl (fun _ _ hs => .scramble hs) h3)
  clear_value s5
  have h6 : s₀.carries s6 := ⟨h5.part, h5.pending, h5.mem, fun _ => rfl⟩
  clear_value s6
  have h8 : s₀.carries s8 :=
    .foldl (fun _ _ hs => .setFld hs) (.foldl (fun _ _ hs => .ite hs (.freePart (.dropPartQueues hs))) h6)
  clear_value s8
  have h9 : s₀.carries s9 := .of h8
  clear_value s9
  exact .setFld (.setFld (.raise (.raise h9)))

theorem State.carries.mbUnlock {e : List Byte} (h : s₀.carries s) : s₀.carries (s.mbUnlock e).1 := by
  unfold State.mbUnlock
  extract_lets nonce src s1 pl
  have h1 : s₀.carries s1 := .setFld (.of h)
  refine .iteOn Prod.fst h1 ?_
  refine .iteOn Prod.fst h1 ?_
  split
  · exact h1
  · exact .iteOn Prod.fst h1 (.iteOn Prod.fst h1 (.unlock h1))

theorem State.carries.mbRun {op len : Nat} {flashOk : Bool} (h : s₀.carries s) : s₀.carries (s.mbRun op len flashOk).1 := by
  unfold State.mbRun
  extract_lets arg plain
  split
  · exact .mbLoad h
  · exact .mbOwn h
  · exact .mbRaise h
  · exact .mbChallenge h
  · exact .mbUnlock h
  · exact h

theorem State.carries.mbEnd {flashOk : Bool} (h : s₀.carries s) : s₀.carries (s.mbEnd flashOk) := by
  unfold State.mbEnd
  split
  · exact h
  · split
    · rename_i s1 _ _ e
      have h1 : s₀.carries s1 := .of_eq (congrArg Prod.fst e) (.mbRun h)
      extract_lets put src s2 s3 s4
      have h2 : s₀.carries s3 := .setFld (.setFld (.of h1))
      have h3 : s₀.carries s4 := .setFld h2
      exact .raise (.setFld h3)

/-! ### Attestation (Spdm) -/

theorem State.carries.modSpdm {f : Spdm → Spdm} (h : s₀.carries s) : s₀.carries (s.modSpdm f) := .of h

theorem State.carries.spdmError {e : Nat} (h : s₀.carries s) : s₀.carries (s.spdmError e) := .of h

theorem State.carries.respond {code : Nat} {bs : List Byte} (h : s₀.carries s) : s₀.carries (s.respond code bs) := by
  unfold State.respond
  exact .ite (.emit h) (.emit (.modSpdm h))

theorem State.carries.srvVersion (h : s₀.carries s) : s₀.carries s.srvVersion := .of h

theorem State.carries.srvCaps {ver : Nat} (h : s₀.carries s) : s₀.carries (s.srvCaps ver) := by
  unfold State.srvCaps
  exact .ite (.spdmError h) (.ite (.spdmError h) (.respond (.modSpdm h)))

theorem State.carries.srvAlgs {o : AlgOffer} (h : s₀.carries s) : s₀.carries (s.srvAlgs o) := by
  unfold State.srvAlgs
  exact .ite (.spdmError h) (.ite (.spdmError h) (.respond (.modSpdm h)))

theorem State.carries.srvDigests (h : s₀.carries s) : s₀.carries s.srvDigests := by
  unfold State.srvDigests
  exact .ite (.spdmError h) (.respond h)

theorem State.carries.srvCert {slot off len : Nat} (h : s₀.carries s) : s₀.carries (s.srvCert slot off len) := by
  unfold State.srvCert
  exact .ite (.spdmError h) (.ite (.spdmError h) (.respond h))

theorem State.carries.srvChallenge {slot : Nat} {nonce : List Byte} (h : s₀.carries s) :
    s₀.carries (s.srvChallenge slot nonce) := by
  unfold State.srvChallenge
  exact .ite (.spdmError h) (.ite (.spdmError h) (.respond (.drawn h)))

theorem State.carries.srvMeas {op : Nat} {signed : Bool} {nonce : List Byte} (h : s₀.carries s) :
    s₀.carries (s.srvMeas op signed nonce) := by
  unfold State.srvMeas
  extract_lets own sig bs body
  refine .ite (.spdmError h) ?_
  refine .ite (.respond (.drawn h)) ?_
  refine .ite (.ite (.emit (.modSpdm (.drawn h))) (.respond (.drawn h))) ?_
  split
  · exact .respond (.drawn h)
  · exact .spdmError h

theorem State.carries.srvReady (h : s₀.carries s) : s₀.carries s.srvReady := by
  unfold State.srvReady
  split
  · exact .spdmError h
  · exact .ite (.respond (.modSpdm (.drawn h))) (.spdmError (.drawn h))

theorem State.carries.srvExchange {slot : Nat} {share : List Byte} (h : s₀.carries s) :
    s₀.carries (s.srvExchange slot share) := by
  unfold State.srvExchange
  extract_lets y own
  exact .ite (.spdmError h) (.ite (.spdmError h) (.ite (.spdmError h) (.respond (.modSpdm (.drawn h)))))

theorem State.carries.srvFinish {verify : List Byte} (h : s₀.carries s) : s₀.carries (s.srvFinish verify) := by
  unfold State.srvFinish
  exact .ite (.spdmError h) (.ite (.respond (.modSpdm (.drawn h))) (.spdmError (.modSpdm (.drawn h))))

theorem State.carries.inSession {f : State → State} (H : ∀ u, s₀.carries u → s₀.carries (f u)) (h : s₀.carries s) :
    s₀.carries (s.inSession f) := .ite (H _ h) (.spdmError h)

theorem State.carries.srvVendor {r : VendorReq} (h : s₀.carries s) : s₀.carries (s.srvVendor r) := by
  unfold State.srvVendor
  refine .inSession (fun u hu => ?_) h
  extract_lets src setIde
  split
  · exact .ite (.vendorReply (.of hu)) (.vendorReply hu)
  · split
    · exact .vendorReply hu
    · extract_lets s1
      exact .vendorReply (.ite (.closeTdi (.of hu)) (.of hu))
  · exact .ite (.vendorReply (.setFld hu)) (.vendorReply hu)
  · exact .vendorReply hu
  · exact .vendorReply hu

theorem State.carries.srvChunkGet {handle n : Nat} (h : s₀.carries s) : s₀.carries (s.srvChunkGet handle n) := by
  unfold State.srvChunkGet
  split
  · exact .spdmError h
  · exact .ite (.spdmError h) (.emit (.ite (.modSpdm h) h))

theorem State.carries.serveOne {i : Instr} (h : s₀.carries s) : s₀.carries (s.serveOne i) := by
  unfold State.serveOne
  split
  · exact .srvVersion h
  · exact .srvCaps h
  · exact .srvAlgs h
  · exact .srvDigests h
  · exact .srvCert h
  · exact .srvChallenge h
  · exact .srvMeas h
  · exact .srvReady h
  · exact .srvExchange h
  · exact .srvFinish h
  · exact .inSession (fun _ hu => .respond hu) h
  · exact .inSession (fun _ hu => .respond (.modSpdm hu)) h
  · exact .inSession (fun _ hu => .respond (.modSpdm hu)) h
  · exact .srvVendor h
  · exact .srvChunkGet h
  · exact .spdmError h

theorem State.carries.srvChunkSend {handle n : Nat} {last : Bool} {bs : List Byte} (h : s₀.carries s) :
    s₀.carries (s.srvChunkSend handle n last bs) := by
  unfold State.srvChunkSend
  extract_lets y have?
  clear_value have?
  split
  · exact .spdmError (.modSpdm h)
  · refine .ite (.spdmError (.modSpdm h)) ?_
    extract_lets s1
    have h1 : s₀.carries s1 := .emit (.modSpdm h)
    refine .ite h1 ?_
    split
    · exact .serveOne h1
    · exact .spdmError h1

theorem State.carries.serve {i : Instr} (h : s₀.carries s) : s₀.carries (s.serve i) := by
  unfold State.serve
  split
  · exact .srvChunkSend h
  · exact .serveOne h

theorem State.carries.spdm {i : Instr} (h : s₀.carries s) : s₀.carries (s.spdm i) := by
  unfold State.spdm
  exact .ite h (.ite (.of h) (.serve h))

theorem State.answers.getVersion (h : s₀.carries s) : s₀.answers (execGetVersion s) := by
  unfold execGetVersion
  exact .next (.spdm h)

theorem State.answers.getCapabilities {ver : Nat} (h : s₀.carries s) : s₀.answers (execGetCapabilities ver s) := by
  unfold execGetCapabilities
  exact .next (.spdm h)

theorem State.answers.negotiateAlgorithms {offer : AlgOffer} (h : s₀.carries s) :
    s₀.answers (execNegotiateAlgorithms offer s) := by
  unfold execNegotiateAlgorithms
  exact .next (.spdm h)

theorem State.answers.getDigests (h : s₀.carries s) : s₀.answers (execGetDigests s) := by
  unfold execGetDigests
  exact .next (.spdm h)

theorem State.answers.getCertificate {slot off len : Nat} (h : s₀.carries s) :
    s₀.answers (execGetCertificate slot off len s) := by
  unfold execGetCertificate
  exact .next (.spdm h)

theorem State.answers.challenge {slot : Nat} {nonce : List (BitVec 8)} (h : s₀.carries s) :
    s₀.answers (execChallenge slot nonce s) := by
  unfold execChallenge
  exact .next (.spdm h)

theorem State.answers.getMeasurements {op : Nat} {signed : Bool} {nonce : List (BitVec 8)} (h : s₀.carries s) :
    s₀.answers (execGetMeasurements op signed nonce s) := by
  unfold execGetMeasurements
  exact .next (.spdm h)

theorem State.answers.keyExchange {slot : Nat} {share : List (BitVec 8)} (h : s₀.carries s) :
    s₀.answers (execKeyExchange slot share s) := by
  unfold execKeyExchange
  exact .next (.spdm h)

theorem State.answers.finish {verify : List (BitVec 8)} (h : s₀.carries s) : s₀.answers (execFinish verify s) := by
  unfold execFinish
  exact .next (.spdm h)

theorem State.answers.heartbeat (h : s₀.carries s) : s₀.answers (execHeartbeat s) := by
  unfold execHeartbeat
  exact .next (.spdm h)

theorem State.answers.keyUpdate (h : s₀.carries s) : s₀.answers (execKeyUpdate s) := by
  unfold execKeyUpdate
  exact .next (.spdm h)

theorem State.answers.endSession (h : s₀.carries s) : s₀.answers (execEndSession s) := by
  unfold execEndSession
  exact .next (.spdm h)

theorem State.answers.chunkSend {handle seq : Nat} {last : Bool} {chunk : List (BitVec 8)} (h : s₀.carries s) :
    s₀.answers (execChunkSend handle seq last chunk s) := by
  unfold execChunkSend
  exact .next (.spdm h)

theorem State.answers.chunkGet {handle seq : Nat} (h : s₀.carries s) : s₀.answers (execChunkGet handle seq s) := by
  unfold execChunkGet
  exact .next (.spdm h)

theorem State.answers.respondIfReady (h : s₀.carries s) : s₀.answers (execRespondIfReady s) := by
  unfold execRespondIfReady
  exact .next (.spdm h)

theorem State.answers.vendorDefinedRequest {req : VendorReq} (h : s₀.carries s) :
    s₀.answers (execVendorDefinedRequest req s) := by
  unfold execVendorDefinedRequest
  exact .next (.spdm h)

theorem State.answers.mailboxComplete {flashOk : Bool} (h : s₀.carries s) : s₀.answers (execMailboxComplete flashOk s) := by
  unfold execMailboxComplete
  exact .next (.ite h (.foldl (fun _ _ hs => .serve hs) (.of (.mbEnd h))))

/-! ### Start-up (Startup) -/

theorem State.carries.loadField {r : List Byte} {f : RecField} (h : s₀.carries s) : s₀.carries (s.loadField r f) := by
  unfold State.loadField
  extract_lets v
  exact .foldl (fun _ _ hs => .ite hs (.setFld hs)) h

theorem State.carries.loadGroup {r : List Byte} {g : Nat} (h : s₀.carries s) : s₀.carries (s.loadGroup r g) := .of h

theorem State.carries.loadRecord {r : List Byte} (h : s₀.carries s) : s₀.carries (s.loadRecord r) := by
  unfold State.loadRecord
  extract_lets s1 flag s2 s3 s4 s5 n
  have h1 : s₀.carries s1 := .foldl (fun _ _ hs => .loadField hs) h
  have h2 : s₀.carries s2 := .ite h1 (.foldl (fun _ _ hs => .raise hs) h1)
  have h3 : s₀.carries s3 := .setFld (.setFld h2)
  have h4 : s₀.carries s4 := .setFld h3
  have h5 : s₀.carries s5 := .foldl (fun _ _ hs => .loadGroup hs) h4
  exact .raise (.setFld h5)

theorem State.answers.liveSnapshot (h : s₀.carries s) : s₀.answers (execLiveSnapshot s) := by
  unfold execLiveSnapshot
  exact .next (.ite h (.setFld (.of (.liveEnd h))))

theorem State.carries.signalReady (h : s₀.carries s) : s₀.carries s.signalReady := by
  unfold State.signalReady
  exact .ibi (.msix (.raise (.raise h)))

theorem State.carries.endPhase (h : s₀.carries s) : s₀.carries s.endPhase := .of h

theorem State.carries.setMemMode {m : Nat} (h : s₀.carries s) : s₀.carries (s.setMemMode m) := by
  unfold State.setMemMode
  exact .foldl (fun _ _ hs => .setFld hs) h

theorem State.carries.bootFail {unit detail : Nat} (h : s₀.carries s) : s₀.carries (s.bootFail unit detail) := by
  unfold State.bootFail
  split
  · exact .reportSelf h
  · exact .reportSelf h
  · exact .reportSelf (.foldl (fun _ _ hs => .raise hs) h)
  · exact .reportSelf h
  · exact .reportSelf h
  · exact h

theorem State.carries.bootVerify {tys : List Nat} (h : s₀.carries s) : s₀.carries (s.bootVerify tys) := by
  unfold State.bootVerify
  extract_lets s1
  have h1 : s₀.carries s1 := .setFld h
  split
  · rename_i s2 e
    have h2 : s₀.carries s2 := .of_eq (congrArg Prod.fst e) (.verifyAll h1)
    exact .endPhase h2
  · rename_i e
    exact .of_eq (congrArg Prod.fst e) (.verifyAll h1)

theorem State.carries.bootRecord (h : s₀.carries s) : s₀.carries s.bootRecord := by
  unfold State.bootRecord
  split
  · rename_i s1 e
    have h1 : s₀.carries s1 := .of_eq (congrArg Prod.fst e) (.iteOn Prod.fst (.verifyAll h) h)
    exact h1
  · rename_i s1 e
    have h1 : s₀.carries s1 := .of_eq (congrArg Prod.fst e) (.iteOn Prod.fst (.verifyAll h) h)
    split
    · rename_i s2 e1
      have h2 : s₀.carries s2 := .of_eq (congrArg Prod.fst e1) (.iteOn Prod.fst (.verifyAll h1) h1)
      exact h2
    · rename_i s2 e1
      have h2 : s₀.carries s2 := .of_eq (congrArg Prod.fst e1) (.iteOn Prod.fst (.verifyAll h1) h1)
      exact .endPhase (.setFld h2)

theorem State.carries.bootConfig (h : s₀.carries s) : s₀.carries s.bootConfig := by
  unfold State.bootConfig
  extract_lets s1 s2 s3
  have h1 : s₀.carries s1 := .sampleBrake h
  have h2 : s₀.carries s2 := by
    unfold s2
    split
    · exact .loadRecord h1
    · exact h1
  have h3 : s₀.carries s3 := .foldl (fun _ _ hs => .ite (.setFld hs) hs) h2
  exact .endPhase (.raise h3)

theorem State.carries.bootLintels (h : s₀.carries s) : s₀.carries s.bootLintels := by
  unfold State.bootLintels
  exact .endPhase (.foldl (fun _ _ hs => .of hs) h)

theorem State.carries.bootMemory (h : s₀.carries s) : s₀.carries s.bootMemory := by
  unfold State.bootMemory
  extract_lets s1 src s2
  have h1 : s₀.carries s1 := .takeSlot h
  have h2 : s₀.carries src := .zeroMem h1
  exact .endPhase (.setMemMode (.of h2))

theorem State.carries.bootFront (h : s₀.carries s) : s₀.carries s.bootFront := by
  unfold State.bootFront
  extract_lets s1
  have h1 : s₀.carries s1 := .openGroups h
  exact .endPhase (.setDigest h1)

theorem State.carries.bootReady (h : s₀.carries s) : s₀.carries s.bootReady := by
  unfold State.bootReady
  extract_lets s1
  exact .signalReady (.setFld (.of h))

theorem State.answers.startUp {o : PhaseOutcome} (h : s₀.carries s) : s₀.answers (execStartUp o s) := by
  unfold execStartUp
  refine .next ?_
  refine .ite h ?_
  extract_lets src s1 ph
  split
  · exact .bootFail (.of h)
  · clear_value ph
    split
    · exact .endPhase (.of h)
    · exact .ite (.of h) (.bootVerify (.of h))
    · exact .bootRecord (.of h)
    · exact .bootConfig (.of h)
    · exact .bootLintels (.of h)
    · exact .endPhase (.ite (.setMemMode (.of h)) (.of h))
    · exact .bootMemory (.of h)
    · exact .endPhase (.loadFirmware (.of h))
    · exact .bootFront (.of h)
    · exact .bootReady (.of h)
    · exact .of h

theorem State.answers.coreResetComplete (h : s₀.carries s) : s₀.answers (execCoreResetComplete s) := by
  unfold execCoreResetComplete
  refine .next (.ite h ?_)
  extract_lets s1 s2
  have h1 : s₀.carries s1 := .flushCaches (.foldl (fun _ _ hs => .dropLate hs) (.drawn h))
  have h2 : s₀.carries s2 := .of h1
  clear_value s2
  have h3 : s₀.carries (s2.verifyAll [4]).1 := .verifyAll h2
  generalize s2.verifyAll [4] = y at h3
  obtain ⟨s3, ok⟩ := y
  cases ok with
  | true => exact .of (.loadFirmware h3)
  | false => exact h3

/-! ### Resets (Resets) -/

/-- Stated for every state: checked for one that is a long fold, the kernel would run the fold. -/
theorem State.carries.lossTaken (h : s₀.carries s) : s₀.carries { s with lossPend := false } := .of h

theorem State.carries.fresh {rails : Bool} (h : s₀.carries s) : s₀.carries (s.fresh rails) := by
  unfold State.fresh
  extract_lets bs src src1 src2 r r1
  have h1 : s₀.carries r := ⟨h.part, h.pending, fun _ => rfl, fun _ => rfl⟩
  clear_value r
  have h2 : s₀.carries r1 := .setReg (.setReg h1)
  exact .ite h2 (.setFld (.raise h2))

theorem State.answers.moduleReset (h : s₀.carries s) : s₀.answers (execModuleReset s) := by
  unfold execModuleReset
  exact .next (.ite h (.fresh h))

theorem State.carries.powered (h : s₀.carries s) : s₀.carries s.powered := by
  unfold State.powered
  extract_lets b s1
  exact .ite (.of h) (.fresh (.of h))

theorem State.answers.powerOnReset (h : s₀.carries s) : s₀.answers (execPowerOnReset s) := by
  unfold execPowerOnReset
  exact .next (.powered h)

theorem State.answers.railsEnable (h : s₀.carries s) : s₀.answers (execRailsEnable s) := by
  unfold execRailsEnable
  exact .next (.ite h (.powered h))

theorem State.answers.railsRemove {high : Bool} (h : s₀.carries s) : s₀.answers (execRailsRemove high s) := by
  unfold execRailsRemove
  exact .next (.ite h (.fresh (.of h)))

theorem State.answers.inputPowerRemoved (h : s₀.carries s) : s₀.answers (execInputPowerRemoved s) := by
  unfold execInputPowerRemoved
  exact .next (.fresh (.of h))

theorem State.answers.thermalTrip {sensor : Nat} (h : s₀.carries s) : s₀.answers (execThermalTrip sensor s) := by
  unfold execThermalTrip
  exact .next (.ite h (.fresh (.of h)))

theorem State.answers.airfailStop {n : Nat} (h : s₀.carries s) : s₀.answers (execAirfailStop n s) := by
  unfold execAirfailStop
  exact .next (.ite h (.ite (.of h) (.fresh (.of h))))

theorem State.answers.airfailRelease {n : Nat} (h : s₀.carries s) : s₀.answers (execAirfailRelease n s) := by
  unfold execAirfailRelease
  exact .next (.ite h (.ite (.of h) (.fresh (.of h))))

theorem State.carries.beginQuiesce (h : s₀.carries s) : s₀.carries s.beginQuiesce := by
  unfold State.beginQuiesce
  extract_lets st
  exact .ite h (.setFld h)

theorem State.carries.declareLoss (h : s₀.carries s) : s₀.carries s.declareLoss := by
  unfold State.declareLoss
  extract_lets mode s1 s2
  have h1 : s₀.carries s1 := .ibi (.bump (.raise h))
  have h2 : s₀.carries s2 := .reportSelf h1
  exact .ite (.fresh h2) (.ite (.of h2) (.beginQuiesce h2))

theorem State.answers.hostLoss (h : s₀.carries s) : s₀.answers (execHostLoss s) := by
  unfold execHostLoss
  exact .next (.ite h (.declareLoss h))

theorem State.answers.perstAssert (h : s₀.carries s) : s₀.answers (execPerstAssert s) := by
  unfold execPerstAssert
  refine .next ?_
  split
  · exact h
  · extract_lets src s1 s2
    have h1 : s₀.carries s2 := .ite (.mbEnd (.of h)) (.of h)
    exact .ite (.of h) (.ite (.fresh h1) (.declareLoss (.ite (.linkDown h1) h1)))

theorem State.answers.perstLongHold (h : s₀.carries s) : s₀.answers (execPerstLongHold s) := by
  unfold execPerstLongHold
  exact .next (.ite (.fresh h) h)

theorem State.answers.quiesceComplete (h : s₀.carries s) : s₀.answers (execQuiesceComplete s) := by
  unfold execQuiesceComplete
  exact .next (.ite h (.setFld (.setFld (.of (.wcDrainAll (.writeBackAll (.flushCaches (.foldl (fun _ _ hs => .drainCore hs)
    h))))))))

theorem State.answers.reattach (h : s₀.carries s) : s₀.answers (execReattach s) := by
  unfold execReattach
  exact .next (.ite h (.setFld (.coreComplexReset (.clearReg (.clearReg (.clearReg (.of h)))))))

theorem State.answers.resumeComplete (h : s₀.carries s) : s₀.answers (execResumeComplete s) := by
  unfold execResumeComplete
  exact .next (.ite h (.ite (.setFld h) (.raise (.setFld h))))

theorem State.answers.timeoutExceeded {q : Nat} (h : s₀.carries s) : s₀.answers (execTimeoutExceeded q s) := by
  unfold execTimeoutExceeded
  exact .next (.ite h (.rebuild (.of (.foldl (fun _ _ hs => .raise hs) h))))

theorem State.answers.rebuildReset (h : s₀.carries s) : s₀.answers (execRebuildReset s) := by
  unfold execRebuildReset
  exact .next (.ite h (.ite (.raise h) (.ite h (.rebuild h))))

theorem State.carries.afterRebuild {q : Nat} (h : s₀.carries s) : s₀.carries (s.afterRebuild q) := by
  unfold State.afterRebuild
  exact .ite (.drained (.queueFault (.modQueue h))) (.drained h)

theorem State.answers.rebuildComplete (h : s₀.carries s) : s₀.answers (execRebuildComplete s) := by
  unfold execRebuildComplete
  refine .next (.ite h ?_)
  extract_lets src s1 s2 s3 s4 s5
  have h1 : s₀.carries src := .finishItems h
  clear_value src
  have h2 : s₀.carries s2 := .bump (.setFld (.of h1))
  clear_value s2
  have h4 : s₀.carries s4 := .setFld (.foldl (fun _ _ hs => .afterRebuild hs) h2)
  have h5 : s₀.carries s5 := .ite h4 (.signalReady h4)
  clear_value s5
  exact .ite (.beginQuiesce (.lossTaken h5)) h5

theorem State.answers.spiReqAssert (h : s₀.carries s) : s₀.answers (execSpiReqAssert s) := by
  unfold execSpiReqAssert
  exact .next (.ite (.of h) h)

theorem State.answers.flashRelease (h : s₀.carries s) : s₀.answers (execFlashRelease s) := by
  unfold execFlashRelease
  exact .next (.of h)

theorem State.answers.spiFlashCommand {cmd : SpiCmd} (h : s₀.carries s) : s₀.answers (execSpiFlashCommand cmd s) := by
  unfold execSpiFlashCommand
  refine .next ?_
  refine .ite h ?_
  split
  · exact .emit h
  · exact .flashWrite h
  · exact .flashWrite h

/-! ### The error log (ErrLog) -/

theorem State.answers.errorReport {d : Detected} (h : s₀.carries s) : s₀.answers (execErrorReport d s) := by
  unfold execErrorReport
  exact .next (.ite h (.ite (.reportOf (.sliceGone h)) (.reportOf h)))

theorem State.answers.recordClose {n : Nat} (h : s₀.carries s) : s₀.answers (execRecordClose n s) := by
  unfold execRecordClose
  refine .next ?_
  split
  · exact .ite (.of h) h
  · exact h

theorem State.answers.errLogTailWrite {v : BitVec 64} (h : s₀.carries s) : s₀.answers (execErrLogTailWrite v s) := by
  unfold execErrLogTailWrite
  exact .next (.ite (.setFld h) h)

/-! ### Management (Mgmt) -/

theorem State.carries.mgmt {f : State → State} (H : ∀ u, s₀.carries u → s₀.carries (f u)) (h : s₀.carries s) :
    s₀.carries (s.mgmt f) := .ite (H _ h) (.emit h)

theorem State.carries.pmbus {f : State → State} (H : ∀ u, s₀.carries u → s₀.carries (f u)) (h : s₀.carries s) :
    s₀.carries (s.pmbus f) := .ite (H _ h) (.emit h)

theorem State.answers.setdasa {static dyn : Nat} (h : s₀.carries s) : s₀.answers (execSetdasa static dyn s) := by
  unfold execSetdasa
  exact .next (.ite h (.mgmt (fun _ hu => .ite (.emit hu) (.of hu)) h))

theorem State.answers.entdaa {dyn : Nat} (h : s₀.carries s) : s₀.answers (execEntdaa dyn s) := by
  unfold execEntdaa
  exact .next (.ite (.of h) h)

theorem State.answers.mgmtIndexWrite {data : List (BitVec 8)} (h : s₀.carries s) : s₀.answers (execMgmtIndexWrite data s) := by
  unfold execMgmtIndexWrite
  exact .next (.mgmt (fun _ hu => .ite (.of hu) hu) h)

theorem State.answers.mgmtRead (h : s₀.carries s) : s₀.answers (execMgmtRead s) := by
  unfold execMgmtRead
  exact .next (.mgmt (fun _ hu => .emit hu) h)

theorem State.carries.reading {cmd n : Nat} (h : s₀.carries s) : s₀.carries (s.reading cmd n) := .of h

theorem State.answers.readVin (h : s₀.carries s) : s₀.answers (execReadVin s) := by
  unfold execReadVin
  exact .next (.pmbus (fun _ hu => .reading hu) h)

theorem State.answers.readIin (h : s₀.carries s) : s₀.answers (execReadIin s) := by
  unfold execReadIin
  exact .next (.pmbus (fun _ hu => .reading hu) h)

theorem State.answers.readPin (h : s₀.carries s) : s₀.answers (execReadPin s) := by
  unfold execReadPin
  exact .next (.pmbus (fun _ hu => .reading hu) h)

theorem State.answers.readEin (h : s₀.carries s) : s₀.answers (execReadEin s) := by
  unfold execReadEin
  exact .next (.pmbus (fun _ hu => .emit hu) h)

theorem State.answers.readTemperature1 (h : s₀.carries s) : s₀.answers (execReadTemperature1 s) := by
  unfold execReadTemperature1
  exact .next (.pmbus (fun _ hu => .reading hu) h)

theorem State.answers.statusWord (h : s₀.carries s) : s₀.answers (execStatusWord s) := by
  unfold execStatusWord
  exact .next (.pmbus (fun _ hu => .reading hu) h)

theorem State.answers.statusMfrSpecific (h : s₀.carries s) : s₀.answers (execStatusMfrSpecific s) := by
  unfold execStatusMfrSpecific
  exact .next (.pmbus (fun _ hu => .emit hu) h)

theorem State.answers.mfrSerial (h : s₀.carries s) : s₀.answers (execMfrSerial s) := by
  unfold execMfrSerial
  exact .next (.pmbus (fun _ hu => .emit hu) h)

theorem State.answers.clearFaults (h : s₀.carries s) : s₀.answers (execClearFaults s) := by
  unfold execClearFaults
  exact .next (.pmbus (fun _ hu => .of hu) h)

theorem State.answers.pmbusUnsupported {cmd : BitVec 8} (h : s₀.carries s) : s₀.answers (execPmbusUnsupported cmd s) := by
  unfold execPmbusUnsupported
  exact .next (.ite h (.emit h))

theorem State.answers.fruRead {off len : Nat} (h : s₀.carries s) : s₀.answers (execFruRead off len s) := by
  unfold execFruRead
  exact .next (.pmbus (fun _ hu => .emit hu) h)

theorem State.answers.jtagTck {tms tdi : Bool} (h : s₀.carries s) : s₀.answers (execJtagTck tms tdi s) := by
  unfold execJtagTck
  exact .next (.ite h (.ite (.of h) (.ite (.emit (.of h)) (.ite (.emit (.drawn (.of h))) (.of h)))))

theorem State.answers.jtagTrst (h : s₀.carries s) : s₀.answers (execJtagTrst s) := by
  unfold execJtagTrst
  exact .next (.of h)

/-! ### Register access (Registers) -/

theorem State.carries.setMsixWord {fn w : Nat} {v : Word} (h : s₀.carries s) : s₀.carries (s.setMsixWord fn w v) := by
  unfold State.setMsixWord
  extract_lets k
  exact .ite (.of h) (.msixFlush (.of h))

theorem State.carries.writeFld {i : Nat} {v : Word} {hi lo : Nat} {f : Fld} (h : s₀.carries s) :
    s₀.carries (s.writeFld i v hi lo f) := by
  unfold State.writeFld
  refine .ite h ?_
  split
  · exact .ite h (.setFld h)
  · exact .ite (.setFld h) h
  · exact .ite (.setFld h) h
  · exact h
  · exact h
  · exact h

theorem State.carries.writeFields {k : RegKind} {i : Nat} {v : Word} {hi lo : Nat} (h : s₀.carries s) :
    s₀.carries (s.writeFields k i v hi lo) := by
  unfold State.writeFields
  extract_lets hit s1
  have h1 : s₀.carries s1 := .foldl (fun _ _ hs => .writeFld hs) h
  exact .ite (.raise (.bump h1)) h1

theorem State.carries.writeAq {q : Nat} {v : Word} (h : s₀.carries s) : s₀.carries (s.writeAq q v) := by
  unfold State.writeAq
  exact .ite (.ite (.raise h) (.res_st (.adminQueueDisable h))) (.ite (.res_st (.adminQueueEnable h)) (.setReg h))

theorem State.carries.writeQueue {k : RegKind} {q : Nat} {m : Word} {hi lo : Nat} (h : s₀.carries s) :
    s₀.carries (s.writeQueue k q m hi lo) := by
  unfold State.writeQueue
  split
  · exact .ite (.res_st (.sqDoorbell h)) h
  · exact .ite (.res_st (.cqDoorbell h)) h
  · exact .writeAq h
  · exact .ite h (.ite (.raise h) (.setReg h))
  · exact .ite h (.ite (.raise h) (.setReg h))
  · exact .ite h (.ite (.res_st (.resume (.res_st (.timeoutWrite h)))) (.res_st (.timeoutWrite h)))
  · exact .writeFields h

theorem State.carries.writeMtc {d : Nat} {m : Word} {hi lo : Nat} (h : s₀.carries s) : s₀.carries (s.writeMtc d m hi lo) := by
  unfold State.writeMtc
  extract_lets n
  refine .ite (.raise h) ?_
  refine .ite h ?_
  split
  · exact .res_st (.writebackAll h)
  · exact .res_st (.writebackRange h)
  · exact .res_st (.evictRange h)
  · exact .res_st (.discardLostRange h)
  · exact .raise h

theorem State.carries.writeAdd {d : Nat} {m : Word} {hi lo : Nat} (h : s₀.carries s) : s₀.carries (s.writeAdd d m hi lo) := by
  unfold State.writeAdd
  extract_lets ty
  refine .ite h ?_
  split
  · exact .res_st (.memAdd h)
  · exact .res_st (.memSum h)
  · exact .setFld h

theorem State.carries.writeXlt {m : Word} {hi lo : Nat} (h : s₀.carries s) : s₀.carries (s.writeXlt m hi lo) := by
  unfold State.writeXlt
  extract_lets c
  refine .ite (.raise h) ?_
  refine .ite h ?_
  split
  · exact .setFld (.res_st (.xltInvAll h))
  · exact .res_st (.xltInvContext h)
  · exact .res_st (.xltInvContextRange h)
  · exact .raise h

theorem State.carries.writeChk {k : RegKind} {u : Nat} {m : Word} {hi lo : Nat} (h : s₀.carries s) :
    s₀.carries (s.writeChk k u m hi lo) := by
  unfold State.writeChk
  split
  · exact .ite (.res_st (.chkLoad h)) h
  · exact .res_st (.chkValueWrite h)
  · exact .ite (.res_st (.chkData8 h)) h
  · exact .ite (.res_st (.chkData16 h)) h
  · exact .ite (.res_st (.chkData32 h)) h
  · exact .writeFields h

theorem State.carries.writeMbox {m : Word} {hi lo : Nat} (h : s₀.carries s) : s₀.carries (s.writeMbox m hi lo) := by
  unfold State.writeMbox
  exact .ite (.raise h) (.ite (.mboxStart h) (.setFld h))

theorem State.carries.writeMboxBuf {i : Nat} {m : Word} (h : s₀.carries s) : s₀.carries (s.writeMboxBuf i m) := by
  unfold State.writeMboxBuf
  exact .ite h (.of h)

theorem State.carries.writeReset {m : Word} {hi lo : Nat} (h : s₀.carries s) : s₀.carries (s.writeReset m hi lo) := by
  unfold State.writeReset
  exact .ite h (.ite (.res_st (.cfgResetCore (.ite (.res_st (.rebuildReset h)) h))) (.ite (.res_st (.rebuildReset h)) h))

theorem State.carries.fitGroup {g : Nat} (h : s₀.carries s) : s₀.carries (s.fitGroup g) := .of h

theorem State.carries.writeReg {k : RegKind} {i : Nat} {v : Word} {hi lo : Nat} (h : s₀.carries s) :
    s₀.carries (s.writeReg k i v hi lo) := by
  unfold State.writeReg
  extract_lets m
  split
  · exact .writeQueue h
  · exact .writeQueue h
  · exact .writeQueue h
  · exact .writeQueue h
  · exact .writeQueue h
  · exact .writeQueue h
  · exact .writeMtc h
  · exact .writeAdd h
  · exact .writeXlt h
  · exact .writeChk h
  · exact .writeChk h
  · exact .writeChk h
  · exact .writeChk h
  · exact .writeChk h
  · exact .writeMbox h
  · exact .writeMboxBuf h
  · exact .writeReset h
  · exact .ite (.res_st (.errLogTailWrite h)) h
  · exact .ite (.res_st (.pwrCapWrite h)) h
  · exact .ite (.res_st (.crsShareWrite h)) h
  · exact .ite (.res_st (.crsSliceWrite h)) h
  · exact .fitGroup (.writeFields h)
  · exact .writeFields h

theorem State.carries.writeTarget {g : Target} {v : Word} {hi lo : Nat} {bar : Bool} (h : s₀.carries s) :
    s₀.carries (s.writeTarget g v hi lo bar) := by
  unfold State.writeTarget
  split
  · exact .writeReg h
  · exact .setMsixWord h
  · exact h
  · exact .ite (.bump h) h

theorem State.answers.registerWrite {acc : RegAcc} {v : BitVec 64} (h : s₀.carries s) :
    s₀.answers (execRegisterWrite acc v s) := by
  unfold execRegisterWrite
  refine .next ?_
  split
  · exact .ite h (.ite (.bump h) (.writeTarget (.inboundOrdered h)))
  · exact .ite h (.ite (.emit h) (.writeTarget h))

theorem State.carries.clearRc {k : RegKind} {i hi lo : Nat} (h : s₀.carries s) : s₀.carries (s.clearRc k i hi lo) := by
  unfold State.clearRc
  exact .foldl (fun _ _ hs => .ite (.setFld hs) hs) h

theorem State.carries.readTarget {g : Target} {tag hi lo : Nat} (h : s₀.carries s) :
    s₀.carries (s.readTarget g tag hi lo).1 := by
  unfold State.readTarget
  split
  · extract_lets v s1
    have h1 : s₀.carries s1 := .clearRc h
    exact .ite (.drawn (.drawn h1)) h1
  · exact h
  · exact h
  · exact h

theorem State.answers.rcRead {acc : RegAcc} (h : s₀.carries s) : s₀.answers (execRcRead acc s) := by
  unfold execRcRead
  refine .next ?_
  split
  · exact .ite h (.ite (.emit h) (.emit (.readTarget (.inboundAll h))))
  · exact .ite h (.ite (.emit h) (.emit (.readTarget h)))

/-! ### Every command, and every step -/

/-- Every command answers a next state that carries the one it began in. -/
theorem exec_answers (c : Instr) (s : State) : s.answers (exec c s) :=
  have h := State.carries.refl s
  match c with
  | .courseBoundary _ => .courseBoundary h | .c1C3SnapshotClose => .c1C3SnapshotClose h | .c0SnapshotClose => .c0SnapshotClose h
  | .quadrantPowerUp _ => .quadrantPowerUp h | .timeoutExceeded _ => .timeoutExceeded h | .sqDoorbell _ _ => .sqDoorbell h
  | .cqDoorbell _ _ => .cqDoorbell h | .descriptorFetch _ => .descriptorFetch h | .descriptorRefetch _ => .descriptorRefetch h
  | .workNop _ => .workNop h | .run _ => .run h | .copy _ => .copy h | .tilePartEnd _ => .tilePartEnd h
  | .completionRecordWrite _ => .completionRecordWrite h | .resume _ => .resume h | .timeoutWrite _ _ => .timeoutWrite h
  | .adminQueueEnable _ _ => .adminQueueEnable h | .adminQueueDisable _ _ => .adminQueueDisable h
  | .retireToken _ _ => .retireToken h | .createQueue _ => .createQueue h | .destroyQueue _ => .destroyQueue h
  | .resetQueue _ => .resetQueue h | .createContext _ => .createContext h | .destroyContext _ => .destroyContext h
  | .createResidentSet _ => .createResidentSet h | .releaseResidentSet _ => .releaseResidentSet h
  | .moveResidentSet _ => .moveResidentSet h | .partCreate _ => .partCreate h | .partDestroy _ => .partDestroy h
  | .partAssignTiles _ => .partAssignTiles h | .partAssignRange _ => .partAssignRange h | .echo _ => .echo h
  | .partitionClose _ => .partitionClose h | .nop _ => .nop h | .end_ _ => .end_ h | .yield _ => .yield h | .j _ => .j h
  | .jal _ => .jal h | .jr _ => .jr h | .beq _ => .beq h | .bne _ => .bne h | .blt _ => .blt h | .bge _ => .bge h
  | .bltu _ => .bltu h | .bgeu _ => .bgeu h | .add _ => .add h | .sub _ => .sub h | .and_ _ => .and h | .or_ _ => .or h
  | .xor _ => .xor h | .sll _ => .sll h | .srl _ => .srl h | .sra _ => .sra h | .mul _ => .mul h | .slt _ => .slt h
  | .sltu _ => .sltu h | .min _ => .min h | .max _ => .max h | .lui _ => .lui h | .getinfo _ => .getinfo h | .ld _ => .ld h
  | .st _ => .st h | .ldc _ => .ldc h | .wload _ => .wload h | .rstream _ => .rstream h | .drain _ => .drain h
  | .lstr _ => .lstr h | .bstr _ => .bstr h | .smov _ => .smov h | .mcpyIn _ => .mcpyIn h | .mcpyOut _ => .mcpyOut h
  | .sfill _ => .sfill h | .waitc _ => .waitc h | .waitcRelease _ => .waitcRelease h | .acset _ => .acset h
  | .acget _ => .acget h | .waitu _ => .waitu h | .waituRelease _ => .waituRelease h | .amo _ => .amo h | .fence _ => .fence h
  | .fenceRelease _ => .fenceRelease h | .hodreq _ => .hodreq h | .qinv _ => .qinv h | .qen _ => .qen h | .qpf _ => .qpf h
  | .quoinFill _ _ => .quoinFill h | .cfma _ => .cfma h | .cadd _ => .cadd h | .csub _ => .csub h | .cmul _ => .cmul h
  | .cmax _ => .cmax h | .cmin _ => .cmin h | .cdotBf16 _ => .cdotBf16 h | .cdotFp8 _ => .cdotFp8 h | .cmov _ => .cmov h
  | .ccvt _ => .ccvt h | .cqmx _ => .cqmx h | .csfu _ => .csfu h | .csfuExpm _ => .csfuExpm h | .cpushb _ => .cpushb h
  | .cred _ => .cred h | .cbset _ => .cbset h | .cbget _ => .cbget h | .csinit _ => .csinit h | .csmax _ => .csmax h
  | .cssum _ => .cssum h | .csfin _ => .csfin h | .cst _ => .cst h | .cstMx _ => .cstMx h | .arrivalCount _ => .arrivalCount h
  | .plinthScrub _ => .plinthScrub h | .wloadComplete _ => .wloadComplete h | .weightCopy _ => .weightCopy h
  | .streamStart _ => .streamStart h | .archFreeze _ _ => .archFreeze h | .archRewind _ => .archRewind h
  | .drainRow _ _ => .drainRow h | .riddleJobStart _ => .riddleJobStart h | .riddleJobFinish _ => .riddleJobFinish h
  | .writebackAll _ _ => .writebackAll h | .writebackRange _ _ => .writebackRange h | .evictRange _ _ => .evictRange h
  | .discardLostRange _ _ => .discardLostRange h | .mtcCmdDone _ => .mtcCmdDone h | .wcDrain _ => .wcDrain h
  | .patrolScrub _ _ => .patrolScrub h | .memAdd _ _ => .memAdd h | .memSum _ _ => .memSum h | .addDone _ => .addDone h
  | .xltInvAll => .xltInvAll h | .xltInvContext _ => .xltInvContext h | .xltInvContextRange _ => .xltInvContextRange h
  | .invDone => .invDone h | .hodCopy _ => .hodCopy h | .hodFill _ => .hodFill h | .hodFence _ => .hodFence h
  | .hodFenceRelease _ => .hodFenceRelease h | .hodTransferComplete _ _ => .hodTransferComplete h
  | .inboundRead _ _ => .inboundRead h | .inboundWrite _ _ _ => .inboundWrite h | .inboundAtomicop off => .inboundAtomicop (_off := off) h
  | .outboundAccess _ _ _ _ => .outboundAccess h | .flrVf _ => .flrVf h | .flrPf => .flrPf h | .perstAssert => .perstAssert h
  | .perstLongHold => .perstLongHold h | .linkLeavesDlActive => .linkLeavesDlActive h | .hostLoss => .hostLoss h
  | .quiesceComplete => .quiesceComplete h | .reattach => .reattach h | .resumeComplete => .resumeComplete h
  | .chkLoad _ _ => .chkLoad h | .chkData8 _ _ => .chkData8 h | .chkData16 _ _ => .chkData16 h | .chkData32 _ _ => .chkData32 h
  | .chkValueWrite _ _ => .chkValueWrite h | .ntEntryDrain _ _ => .ntEntryDrain h | .cfgResetCore => .cfgResetCore h
  | .coreWatchdog _ => .coreWatchdog h | .flitCrcFail _ _ => .flitCrcFail h | .nak _ _ => .nak h | .ack _ _ _ => .ack h
  | .replayWindowEnd _ _ => .replayWindowEnd h | .sidebandSymbol _ _ _ _ => .sidebandSymbol h | .powerWindow => .powerWindow h
  | .freqStep _ _ => .freqStep h | .droop _ _ => .droop h | .thermalSample _ => .thermalSample h
  | .dieThrottleStep _ => .dieThrottleStep h | .thermalTrip _ => .thermalTrip h | .airfailStop _ => .airfailStop h
  | .pwrCapWrite _ => .pwrCapWrite h | .crsShareWrite _ => .crsShareWrite h | .crsSliceWrite _ => .crsSliceWrite h
  | .loadImage _ => .loadImage h | .takeOwnership _ => .takeOwnership h | .raiseSvn _ => .raiseSvn h
  | .debugChallenge _ => .debugChallenge h | .debugUnlock _ => .debugUnlock h | .mailboxComplete _ => .mailboxComplete h
  | .getVersion => .getVersion h | .getCapabilities _ => .getCapabilities h | .negotiateAlgorithms _ => .negotiateAlgorithms h
  | .getDigests => .getDigests h | .getCertificate _ _ _ => .getCertificate h | .challenge _ _ => .challenge h
  | .getMeasurements _ _ _ => .getMeasurements h | .respondIfReady => .respondIfReady h | .keyExchange _ _ => .keyExchange h
  | .finish _ => .finish h | .heartbeat => .heartbeat h | .keyUpdate => .keyUpdate h | .endSession => .endSession h
  | .chunkSend _ _ _ _ => .chunkSend h | .chunkGet _ _ => .chunkGet h | .vendorDefinedRequest _ => .vendorDefinedRequest h
  | .lockInterfaceRequest _ => .lockInterfaceRequest h | .stopInterface _ => .stopInterface h
  | .ideIntegrityFail _ => .ideIntegrityFail h | .railsEnable => .railsEnable h | .railsRemove _ => .railsRemove h
  | .inputPowerRemoved => .inputPowerRemoved h | .powerOnReset => .powerOnReset h | .moduleReset => .moduleReset h
  | .startUp _ => .startUp h | .flashRelease => .flashRelease h | .rebuildReset => .rebuildReset h
  | .rebuildComplete => .rebuildComplete h | .liveSnapshot => .liveSnapshot h | .errorReport _ => .errorReport h
  | .recordClose _ => .recordClose h | .errLogTailWrite _ => .errLogTailWrite h | .setdasa _ _ => .setdasa h
  | .entdaa _ => .entdaa h | .mgmtIndexWrite _ => .mgmtIndexWrite h | .mgmtRead => .mgmtRead h | .readVin => .readVin h
  | .readIin => .readIin h | .readPin => .readPin h | .readEin => .readEin h | .readTemperature1 => .readTemperature1 h
  | .statusWord => .statusWord h | .statusMfrSpecific => .statusMfrSpecific h | .mfrSerial => .mfrSerial h
  | .clearFaults => .clearFaults h | .pmbusUnsupported _ => .pmbusUnsupported h | .fruRead _ _ => .fruRead h
  | .jtagTrst => .jtagTrst h | .registerWrite _ _ => .registerWrite h | .rcRead _ => .rcRead h
  | .coreMemoryAccess _ => .coreMemoryAccess h | .coreFence _ _ => .coreFence h
  | .streamEntryArrival _ _ => .streamEntryArrival h | .busCompletion _ _ _ => .busCompletion h
  | .completionTimeout _ => .completionTimeout h | .linkUp => .linkUp h | .airfailRelease _ => .airfailRelease h
  | .configRequest _ _ => .configRequest h | .coreResetComplete => .coreResetComplete (s := s) h
  | .replayFlitReceived _ _ => .replayFlitReceived h | .spiReqAssert => .spiReqAssert h
  | .spiFlashCommand _ => .spiFlashCommand h | .jtagTck _ _ => .jtagTck h | .reservedOpcode _ => .reservedOpcode h

end

/-- Settles O57, by the lemma of each command. -/
theorem commandsAnswer : Obligations.CommandsAnswer := by
  intro c s
  obtain ⟨u, next, h⟩ := exec_answers c s
  exact ⟨u, next, h.pending⟩

theorem step_keeps_wf {u : State} (h : step s = .next u) :
    (Memory.wf s = true → Memory.wf u = true) ∧ (Scratch.wf s = true → Scratch.wf u = true) := by
  unfold step at h
  split at h
  · cases h
    have k : s.carries s.tick := .tick (.refl s)
    exact ⟨k.mem, k.scr⟩
  · next c rest _ =>
    obtain ⟨v, next, k⟩ := exec_answers c { s with pending := rest }
    rw [next] at h
    cases h
    exact ⟨k.mem, k.scr⟩

/-- Settles O59, by what every command and the tick carry: only writes of memory and scratch change a store, and each keeps its
form. -/
theorem memoryCanonical : Obligations.MemoryCanonical := by
  intro s u mem scr h
  obtain ⟨keepMem, keepScr⟩ := step_keeps_wf h
  exact ⟨keepMem mem, keepScr scr⟩

end Sys2Proof.Machine
end

section
/-! PROOFS. Course boundaries (O54): a planned block can fail as it starts.

In scratch text mode the front end copies each tile's program at the block's start (R129). Where that copy meets a translation
fault, the block fails and its tiles stop, at the very boundary it starts at. -/
namespace Sys2Proof.Machine

/-- An image of one block on one tile, whose program has 8 bytes of text at address 4,096. -/
def textImage : List Byte :=
  bytesOf 64 (0x544D4753 + 1 * 256 ^ 4 + 176 * 256 ^ 8 + 1 * 256 ^ 12 + 1 * 256 ^ 14 + 64 * 256 ^ 16 + 128 * 256 ^ 20) ++
  bytesOf 64 (1 * 256 ^ 2 + 1 * 256 ^ 4 + 1 * 256 ^ (16 + 4) + 1 * 256 ^ (16 + 8)) ++
  bytesOf 48 (4096 * 256 ^ 8 + 4096 * 256 ^ 16 + 8 * 256 ^ 24)

/-- The image passes the checks of R257 and R258, so that a RUN of it can come to be planned. -/
theorem imageValid_textImage : imageValid textImage = true := by decide +kernel

/-- A RUN item of queue 0 with that image, its block admitted. -/
def textItem : Item :=
  { queue := 0, seq := 0, desc := bytesOf 64 (256 ^ 4), stage := .waiting, room := 0, image := textImage, next := 1, ended := 0,
    failed := none, begun := false, conts := [], kept := none, result := 0, checked := 0, finish := 0, start := 0 }

/-- The item's block on tile 0. -/
def textPlan : Planned := ⟨0, 0, 0, 0, [0], []⟩

/-- The block is planned on tile 0, which is in scratch text mode. Its context is valid, and its page table lies at address 0, where
no memory is. -/
def textModeReady : State :=
  let s := (State.reset.raise F.CFE_STATUS.READY 0).setFld F.CFG_STATE.PHASE 0 9
  let s := (s.raise F.XLT_CTX_ROOT.VALID 0).setFld F.XLT_CTX_ROOT.PARTITION 0 8
  let s := ((s.setQState 0 qActive).setFld F.CFE_Q_CFG.CLASS 0 1).setFld F.CFE_Q_CFG.PARTITION 0 8
  { s.raise F.TSQ_QCTL.TEXT_MODE 0 with
    timer := true, queues := [(0, Queue.reset)], items := [textItem], plan := [textPlan] }

/-- The accelerator works and the host is there. -/
theorem textModeReady_works : textModeReady.ready = true ∧ textModeReady.halted = false ∧
    textModeReady.fld F.HOD_HOSTLOSS.STATE 0 = 0 := by decide +kernel

/-- At the boundary the copy of the text faults with PHYS_RANGE: the block has failed with TRANSLATION_FAULT, and its tile has
stopped. -/
theorem textModeReady_boundary_stops :
    let u := Res.st (exec (.courseBoundary none) textModeReady) textModeReady
    u.blocks.map Block.fail = [some (stXlate, xPhysRange, 0)] ∧ u.fld F.TSQ_STATE.RUN 0 = 3 := by decide +kernel

/-- Refutes O54: a block whose text cannot be copied starts at its boundary, but its tile does not run after it. -/
theorem not_courses : ¬ Obligations.Courses := by
  intro h
  obtain ⟨-, -, -, -, -, boundary⟩ := h textModeReady rfl
  obtain ⟨u, next, -, -, -, -, -, -, -, starts⟩ := boundary none
  obtain ⟨ready, halted, host⟩ := textModeReady_works
  obtain ⟨-, -, planned⟩ := starts ready halted
  have tiles := (planned host (fun r hr => absurd hr List.not_mem_nil) textPlan textItem rfl rfl (by decide) (by decide)).2
  have runs : u.fld F.TSQ_STATE.RUN 0 = 1 := (tiles 0 (by decide)).2
  have stops : u.fld F.TSQ_STATE.RUN 0 = 3 := by
    have stopped := textModeReady_boundary_stops.2
    rwa [next] at stopped
  rw [runs] at stops
  exact absurd stops (by decide)

end Sys2Proof.Machine
end

section
/-! PROOFS. A step of the machine is `exec` of the front command (O56). -/
namespace Sys2Proof.Machine

/-- Settles O56: both clauses are `step` unfolded on the queue it finds. -/
theorem stepRunsFront : Obligations.StepRunsFront := by
  refine ⟨fun c rest s => rfl, fun s empty => ?_⟩
  rw [step, empty]

end Sys2Proof.Machine
end

section
/-! PROOFS. What a report below FATAL does to the log (R423, R424, R427), and what it leaves alone. -/
namespace Sys2Proof.Machine

/-! ### Sparse stores with rising keys -/

section
variable {α : Type} {m : SMap α} {a : Nat} {v : α} {p : Nat × α}

theorem SMap.find?_of_mem (h : SMap.rising m = true) (hp : p ∈ m) : SMap.find? m p.1 = some p.2 := by
  induction m with
  | nil => cases hp
  | cons q m ih =>
    obtain ⟨k, w⟩ := q
    obtain ⟨least, rest⟩ := (SMap.rising_cons k w m).1 h
    rcases List.mem_cons.1 hp with rfl | hp
    · exact if_pos rfl
    · have apart : p.1 ≠ k := Nat.ne_of_gt (least p hp)
      exact (if_neg apart).trans (ih rest hp)

theorem SMap.ne_of_find?_none (h : SMap.find? m a = none) (hp : p ∈ m) : p.1 ≠ a := by
  induction m with
  | nil => cases hp
  | cons q m ih =>
    obtain ⟨k, w⟩ := q
    by_cases e : a = k
    · simp [SMap.find?, e] at h
    · rw [SMap.find?, if_neg e] at h
      rcases List.mem_cons.1 hp with rfl | hp
      · exact Ne.symm e
      · exact ih h hp

end

/-! ### The frame of a report -/

/-- A field is read from the contents of its register's address. -/
theorem State.fld_of_regs {s u : State} {f : Fld} {i : Nat} (h : SMap.find? u.regs (f.at i) = SMap.find? s.regs (f.at i)) :
    u.fld f i = s.fld f i :=
  congrArg (fun w : Option Word => getField (w.getD f.reg.reset) f.hi f.lo) h

/-- Registers that a report below FATAL writes. -/
def logRegs : List Nat :=
  [F.ERR_SECONDARY.COUNT.at 0, F.ERR_LOG_HEAD.HEAD.at 0, F.ERR_STATUS.NEW.at 0, F.ERR_COUNT.NOTE.at 0, F.ERR_LOST.COUNT.at 0]

/-- From `s` to `u` nothing changed but the log, its registers and the messages sent. -/
structure State.logs (s u : State) : Prop where
  data : u = { s with regs := u.regs, grout := u.grout, lostKeys := u.lostKeys, msixPend := u.msixPend, outs := u.outs }
  regs : s.regsBut u logRegs

section
variable {s₀ s u v : State} {r : Report}

theorem State.logs.refl (s : State) : s.logs s := ⟨rfl, fun _ _ => rfl⟩

theorem State.logs.ite {c : Prop} [Decidable c] (h : s.logs u) (k : s.logs v) : s.logs (if c then u else v) := by
  split <;> assumption

theorem State.logs.setFld {f : Fld} {i n : Nat} (h : s₀.logs s) (within : f.at i ∈ logRegs) : s₀.logs (s.setFld f i n) := by
  refine ⟨congrArg (fun x : State => { x with regs := (s.setFld f i n).regs }) h.data, fun a ha => ?_⟩
  have apart : a ≠ f.reg.place.addr i := fun e => ha (e ▸ within)
  rw [State.find?_setFld, if_neg apart, h.regs a ha]

theorem State.logs.bump {f : Fld} {i n : Nat} (h : s₀.logs s) (within : f.at i ∈ logRegs) : s₀.logs (s.bump f i n) :=
  h.setFld within

theorem State.logs.raise {f : Fld} {i : Nat} (h : s₀.logs s) (within : f.at i ∈ logRegs) : s₀.logs (s.raise f i) :=
  h.setFld within

theorem State.logs.record {g : SMap LogRec} (h : s₀.logs s) : s₀.logs { s with grout := g } :=
  ⟨congrArg (fun x : State => { x with grout := g }) h.data, h.regs⟩

theorem State.logs.lose {l : List (Nat × Nat)} (h : s₀.logs s) : s₀.logs { s with lostKeys := l } :=
  ⟨congrArg (fun x : State => { x with lostKeys := l }) h.data, h.regs⟩

theorem State.logs.msix {f v : Nat} (h : s₀.logs s) : s₀.logs (s.msix f v) := by
  obtain ⟨pend, outs, e⟩ := State.messages_msix (s := s) ⟨_, _, rfl⟩ f v
  rw [e]
  exact ⟨congrArg (fun x : State => { x with msixPend := pend, outs := outs }) h.data, h.regs⟩

theorem sevCounter_at (n : Nat) : (sevCounter n).at 0 ∈ logRegs := by
  unfold sevCounter
  split <;> decide

theorem State.logs.reportOf {c time : Nat} (mild : r.sev ≠ 3) (h : s₀.logs s) : s₀.logs (s.reportOf c time r) := by
  unfold State.reportOf
  extract_lets bitd head tail slot free lost again e s1 s2 s3 s4 s5 s6
  simp only [if_neg mild]
  split
  · exact .bump (.record h) (by decide)
  · have opened : s₀.logs s3 := .bump (.raise (.setFld (.record h) (by decide)) (by decide)) (sevCounter_at _)
    have missed : s₀.logs s5 := .lose (.raise (.bump h (by decide)) (by decide))
    clear_value s3 s5
    unfold s6
    simp only [if_neg mild]
    exact .ite (.ite (.msix opened) opened) missed

theorem State.logs.reportSelf {code sev unit addr detail : Nat} (mild : sev ≠ 3) (h : s₀.logs s) :
    s₀.logs (s.reportSelf code sev unit addr detail) := .reportOf (r := ⟨code, sev, unit, unit, addr, detail, 0xFF, 0xFFFF⟩) mild h

end
end Sys2Proof.Machine
end

section
/-! PROOFS. Reports in the log. -/
namespace Sys2Proof.Machine

/-! ### The entries of the log -/

/-- What a report below FATAL makes of the log: it joins the open record of its cause, opens a record in the free slot at HEAD, or
is counted as lost. -/
inductive State.loggedAs (s u : State) (c : Nat) (r : Report) : Prop where
  | joined (n : Nat) (e e' : LogRec) (found : s.openRec r.cause c = some (n, e)) (put : u.grout = SMap.insert s.grout n e')
      (cause : e'.cause = e.cause) (code : e'.code = e.code) (flag : e'.flags.testBit 0 = e.flags.testBit 0)
      (count : e'.count = min (e.count + 1) 0xFFFFFFFF) (lost : u.fld F.ERR_LOST.COUNT 0 = s.fld F.ERR_LOST.COUNT 0)
  | opened (e : LogRec) (new : s.openRec r.cause c = none)
      (free : ∀ e₀, SMap.find? s.grout (s.fld F.ERR_LOG_HEAD.HEAD 0 % 256) = some e₀ → e₀.flags.testBit 0 = true)
      (room : (s.fld F.ERR_LOG_HEAD.HEAD 0 + 2 ^ 32 - s.fld F.ERR_LOG_TAIL.TAIL 0) % 2 ^ 32 < 256)
      (put : u.grout = SMap.insert s.grout (s.fld F.ERR_LOG_HEAD.HEAD 0 % 256) e) (flag : e.flags.testBit 0 = false)
      (names : e.code = r.code ∧ e.cause = r.cause ∧ e.detail = r.detail ∧ e.course = c)
      (lost : u.fld F.ERR_LOST.COUNT 0 = s.fld F.ERR_LOST.COUNT 0)
  | missed (new : s.openRec r.cause c = none)
      (full : (SMap.find? s.grout (s.fld F.ERR_LOG_HEAD.HEAD 0 % 256) = none → s.lostKeys = [] →
        256 ≤ (s.fld F.ERR_LOG_HEAD.HEAD 0 + 2 ^ 32 - s.fld F.ERR_LOG_TAIL.TAIL 0) % 2 ^ 32))
      (same : u.grout = s.grout)
      (lost : u.fld F.ERR_LOST.COUNT 0 = min (s.fld F.ERR_LOST.COUNT 0 + 1) (2 ^ 32 - 1))

theorem State.grout_msix (s : State) (f v : Nat) : (s.msix f v).grout = s.grout := by
  obtain ⟨_, _, e⟩ := State.messages_msix (s := s) ⟨_, _, rfl⟩ f v
  rw [e]

theorem State.regs_msix (s : State) (f v : Nat) : (s.msix f v).regs = s.regs := by
  obtain ⟨_, _, e⟩ := State.messages_msix (s := s) ⟨_, _, rfl⟩ f v
  rw [e]

theorem sevCounter_ne_lost (n : Nat) : F.ERR_LOST.COUNT.reg.place.addr 0 ≠ (sevCounter n).reg.place.addr 0 := by
  unfold sevCounter
  split <;> decide

theorem State.reportOf_loggedAs (s : State) (c time : Nat) (r : Report) (mild : r.sev ≠ 3) :
    s.loggedAs (s.reportOf c time r) c r := by
  unfold State.reportOf
  extract_lets bitd head tail slot free lost again e s1 s2 s3 s4 s5 s6
  simp only [if_neg mild]
  split
  · next n e₀ found =>
    refine .joined n e₀ _ found rfl rfl rfl ?_ rfl (State.fld_setFld_other _ _ _ 0 0 _ (by decide))
    split
    · rw [Nat.testBit_or]; simp
    · rfl
  · next new =>
    have lost1 : s3.fld F.ERR_LOST.COUNT 0 = s.fld F.ERR_LOST.COUNT 0 := by
      unfold s3 s2
      rw [State.bump, State.fld_setFld_other _ _ _ _ _ _ (sevCounter_ne_lost _), State.raise,
        State.fld_setFld_other _ _ _ _ _ _ (by decide), State.fld_setFld_other _ _ _ _ _ _ (by decide)]
      rfl
    have grout1 : s3.grout = SMap.insert s.grout slot e := rfl
    have lost2 : s5.fld F.ERR_LOST.COUNT 0 = min (s.fld F.ERR_LOST.COUNT 0 + 1) (2 ^ 32 - 1) := by
      refine .trans (State.fld_setFld_other _ _ F.ERR_LOST.COUNT 0 0 _ (by decide)) ?_
      exact State.fld_bump _ _ _ _ (by decide)
    have grout2 : s5.grout = s.grout := rfl
    clear_value s3 s5
    unfold s6
    simp only [if_neg mild]
    split
    · next taken =>
      rw [Bool.and_eq_true, Bool.and_eq_true, decide_eq_true_eq] at taken
      obtain ⟨⟨closed, room⟩, -⟩ := taken
      have flag : e.flags.testBit 0 = false := by
        show Nat.testBit (if _ then _ else _) 0 = false
        split <;> rfl
      refine .opened e new (fun e₀ h => ?_) room ?_ flag ⟨rfl, rfl, rfl, rfl⟩ ?_
      · rw [h] at closed; exact closed
      · split
        · rw [State.grout_msix, grout1]
        · exact grout1
      · rw [← lost1]
        split
        · exact State.fld_congr _ _ _ _ (State.regs_msix _ _ _)
        · rfl
    · next refused =>
      refine .missed new (fun absent keys => ?_) grout2 lost2
      by_contra room
      refine refused ?_
      have empty : SMap.find? s.grout slot = none := absent
      have room' : (head + 2 ^ 32 - tail) % 2 ^ 32 < 256 := Nat.lt_of_not_le room
      have free_ : free = true := by
        unfold free
        rw [empty, decide_eq_true room']; rfl
      have lost_ : lost = false := by simp [lost, keys]
      rw [free_, lost_]; rfl

/-! ### A record that stays -/

/-- Slot `n` of the log holds the open record `e`, and no other entry is listed for it. -/
structure State.holds (s : State) (n : Nat) (e : LogRec) : Prop where
  at_ : SMap.find? s.grout n = some e
  open_ : e.flags.testBit 0 = false
  alone : ∀ p ∈ s.grout, p.1 = n → p.2 = e

theorem State.mem_of_openRec {s : State} {cause c n : Nat} {e : LogRec} (h : s.openRec cause c = some (n, e)) :
    (n, e) ∈ s.grout ∧ e.cause = cause ∧ e.flags.testBit 0 = false := by
  refine ⟨List.mem_of_find?_eq_some h, ?_⟩
  have found := List.find?_some h
  simp only [Bool.and_eq_true, decide_eq_true_eq, Bool.not_eq_true'] at found
  exact ⟨found.1.1.1, found.1.2⟩

section
variable {s u : State} {c time n : Nat} {r : Report} {e : LogRec}

/-- An open record outlasts reports of other causes. -/
theorem State.holds.reportOf (mild : r.sev ≠ 3) (apart : e.cause ≠ r.cause) (h : s.holds n e) : (s.reportOf c time r).holds n e := by
  have put (k : Nat) (e' : LogRec) (ne : n ≠ k) (eq : (s.reportOf c time r).grout = SMap.insert s.grout k e') :
      (s.reportOf c time r).holds n e := by
    refine ⟨?_, h.open_, fun p hp at_ => ?_⟩
    · rw [eq, SMap.find?_insert, if_neg ne, h.at_]
    · rw [eq] at hp
      rcases SMap.mem_insert _ _ _ _ hp with rfl | hp
      · exact absurd at_.symm ne
      · exact h.alone p hp at_
  cases State.reportOf_loggedAs s c time r mild with
  | joined k e₀ e' found eq =>
    obtain ⟨listed, cause, -⟩ := State.mem_of_openRec found
    refine put k e' (fun at_ => apart ?_) eq
    rw [← h.alone _ listed at_.symm, ← cause]
  | opened e' _ free _ eq =>
    refine put _ e' (fun at_ => ?_) eq
    have closed := free e (at_ ▸ h.at_)
    rw [h.open_] at closed
    cases closed
  | missed _ _ same => exact ⟨same ▸ h.at_, h.open_, same ▸ h.alone⟩

theorem State.lost_le_reportOf (mild : r.sev ≠ 3) :
    s.fld F.ERR_LOST.COUNT 0 ≤ (s.reportOf c time r).fld F.ERR_LOST.COUNT 0 := by
  have lt : s.fld F.ERR_LOST.COUNT 0 < 2 ^ 32 := bits_lt _ 31 0
  cases State.reportOf_loggedAs s c time r mild with
  | joined _ _ _ _ _ _ _ _ _ lost => exact lost.ge
  | opened _ _ _ _ _ _ _ lost => exact lost.ge
  | missed _ _ _ lost => omega

end

/-- `State.took`, with the record it names open in its slot. -/
def State.enters (s u : State) (cause code detail : Nat) : Prop :=
  let head := s.fld F.ERR_LOG_HEAD.HEAD 0
  let entries := (head + 2 ^ 32 - s.fld F.ERR_LOG_TAIL.TAIL 0) % 2 ^ 32
  (SMap.rising s.grout = true → ∀ n e, s.openRec cause s.course = some (n, e) → ∃ e', u.holds n e' ∧ e'.cause = cause ∧
    e'.code = e.code ∧ min (e.count + 1) 0xFFFFFFFF ≤ e'.count) ∧
  (s.openRec cause s.course = none → entries < 256 → SMap.find? s.grout (head % 256) = none → s.lostKeys = [] →
    ∃ e, u.holds (head % 256) e ∧ e.code = code ∧ e.cause = cause ∧ e.detail = detail ∧ e.course = s.course) ∧
  (s.openRec cause s.course = none → 256 ≤ entries →
    min (s.fld F.ERR_LOST.COUNT 0 + 1) (2 ^ 32 - 1) ≤ u.fld F.ERR_LOST.COUNT 0)

theorem State.enters_report (s : State) (r : Report) (mild : r.sev ≠ 3) : s.enters (s.report r) r.cause r.code r.detail := by
  have log : s.loggedAs (s.report r) s.course r := State.reportOf_loggedAs s s.course s.ticks r mild
  generalize s.report r = u at log
  refine ⟨fun rise n e found => ?_, fun new room absent keys => ?_, fun new full => ?_⟩
  · cases log with
    | joined k e₀ e' found' put cause code flag count =>
      obtain ⟨rfl, rfl⟩ : n = k ∧ e = e₀ := by
        rw [found] at found'
        injection found' with pair
        injection pair with hn he
        exact ⟨hn, he⟩
      obtain ⟨listed, hcause, hflag⟩ := State.mem_of_openRec found
      have rise' : SMap.rising u.grout = true := put ▸ SMap.rising_insert _ _ _ rise
      have at_ : SMap.find? u.grout n = some e' := by rw [put, SMap.find?_insert, if_pos rfl]
      refine ⟨e', ⟨at_, flag.trans hflag, fun p hp hn => ?_⟩, cause.trans hcause, code, count.ge⟩
      have here := SMap.find?_of_mem rise' hp
      rw [hn, at_] at here
      injection here with here
      exact here.symm
    | opened _ new => rw [new] at found; cases found
    | missed new => rw [new] at found; cases found
  · cases log with
    | joined _ _ _ found => rw [new] at found; cases found
    | opened e _ _ _ put flag names =>
      refine ⟨e, ⟨by rw [put, SMap.find?_insert, if_pos rfl], flag, fun p hp at_ => ?_⟩, names⟩
      rw [put] at hp
      rcases SMap.mem_insert _ _ _ _ hp with rfl | hp
      · rfl
      · exact absurd at_ (SMap.ne_of_find?_none absent hp)
    | missed _ full => have := full absent keys; omega
  · cases log with
    | joined _ _ _ found => rw [new] at found; cases found
    | opened _ _ _ room => omega
    | missed _ _ _ lost => exact lost.ge

/-- What comes later and keeps open records and the count of lost reports keeps an entry made. -/
theorem State.enters.took {s u v : State} {cause code detail : Nat} (h : s.enters u cause code detail)
    (keeps : ∀ n e, e.cause = cause → u.holds n e → v.holds n e)
    (lost : u.fld F.ERR_LOST.COUNT 0 ≤ v.fld F.ERR_LOST.COUNT 0) : s.took v cause code detail := by
  obtain ⟨joined, opened, missed⟩ := h
  refine ⟨fun rise n e found => ?_, fun new room absent keys => ?_, fun new full => (missed new full).trans lost⟩
  · obtain ⟨e', held, rest⟩ := joined rise n e found
    exact ⟨e', (keeps n e' rest.1 held).at_, rest⟩
  · obtain ⟨e, held, hcode, hcause, rest⟩ := opened new room absent keys
    exact ⟨e, (keeps _ e hcause held).at_, hcode, hcause, rest⟩

end Sys2Proof.Machine
end

section
/-! PROOFS. What an operation leaves as it stands. -/
namespace Sys2Proof.Machine

/-- From `s` to `u` what `π` reads of the state is as it was, and so are the registers at the addresses of `R`. -/
structure State.leaves {α : Type} (π : State → α) (R : Nat → Prop) (s u : State) : Prop where
  data : π u = π s
  regs : ∀ a, R a → SMap.find? u.regs a = SMap.find? s.regs a

section
variable {α : Type} {π : State → α} {R : Nat → Prop} {s₀ s u v : State}

theorem State.leaves.refl (s : State) : s.leaves π R s := ⟨rfl, fun _ _ => rfl⟩

theorem State.leaves.trans (h : s.leaves π R u) (k : u.leaves π R v) : s.leaves π R v :=
  ⟨k.data.trans h.data, fun a ha => (k.regs a ha).trans (h.regs a ha)⟩

/-- A write of parts of the state that `π` does not read. -/
theorem State.leaves.of (h : s₀.leaves π R s) (e : π u = π s) (r : u.regs = s.regs) :
    s₀.leaves π R u := ⟨e.trans h.data, fun a ha => (congrArg (SMap.find? · a) r).trans (h.regs a ha)⟩

theorem State.leaves.of_eq (e : u = v) (h : s₀.leaves π R u) : s₀.leaves π R v := e ▸ h

theorem State.leaves.ite {c : Prop} [Decidable c] (h : s₀.leaves π R u) (k : s₀.leaves π R v) :
    s₀.leaves π R (if c then u else v) := by split <;> assumption

/-- A branch of a function whose answer holds a state, found by `ρ`. -/
theorem State.leaves.iteOn {β : Type} (ρ : β → State) {c : Prop} [Decidable c] {a b : β} (h : s₀.leaves π R (ρ a))
    (k : s₀.leaves π R (ρ b)) : s₀.leaves π R (ρ (if c then a else b)) := by split <;> assumption

/-- A loop over a value that holds a state, found by `ρ`. -/
theorem State.leaves.foldlOn {β γ : Type} (ρ : β → State) {f : β → γ → β} {l : List γ} {b : β}
    (H : ∀ b a, s₀.leaves π R (ρ b) → s₀.leaves π R (ρ (f b a))) (h : s₀.leaves π R (ρ b)) :
    s₀.leaves π R (ρ (l.foldl f b)) := by
  induction l generalizing b with
  | nil => exact h
  | cons a l ih => exact ih (H b a h)

theorem State.leaves.foldl {γ : Type} {f : State → γ → State} {l : List γ} (H : ∀ s a, s₀.leaves π R s → s₀.leaves π R (f s a))
    (h : s₀.leaves π R s) : s₀.leaves π R (l.foldl f s) := .foldlOn id H h

/-- A write of a register outside `R`. -/
theorem State.leaves.setReg {k : RegKind} {i : Nat} {w : Word} (h : s₀.leaves π R s) (out : ¬ R (k.place.addr i))
    (e : π (s.setReg k i w) = π s) : s₀.leaves π R (s.setReg k i w) := by
  refine ⟨e.trans h.data, fun a ha => ?_⟩
  have apart : a ≠ k.place.addr i := fun eq => out (eq ▸ ha)
  rw [State.find?_setReg, if_neg apart, h.regs a ha]

theorem State.leaves.setFld {f : Fld} {i n : Nat} (h : s₀.leaves π R s) (out : ¬ R (f.at i))
    (e : π (s.setFld f i n) = π s) : s₀.leaves π R (s.setFld f i n) := .setReg h out e

theorem State.leaves.fld (h : s.leaves π R u) {f : Fld} {i : Nat} (within : R (f.at i)) : u.fld f i = s.fld f i :=
  State.fld_of_regs (h.regs _ within)

/-- A report below FATAL, where `π` reads neither registers nor the log nor what was sent. -/
theorem State.leaves.logs (h : s₀.leaves π R s) (k : s.logs u) (out : ∀ a ∈ logRegs, ¬ R a)
    (e : ∀ regs grout keys pend outs, π { s with regs := regs, grout := grout, lostKeys := keys, msixPend := pend, outs := outs } = π s) :
    s₀.leaves π R u := by
  refine ⟨?_, fun a ha => (k.regs a fun listed => out a listed ha).trans (h.regs a ha)⟩
  rw [k.data, e, h.data]

end

/-! ### Placement at a snapshot close -/

/-- What placing and admitting blocks leaves alone, beside the registers. -/
abbrev State.books (s : State) : Part × SMap Byte × List Block × SMap LogRec × List (Nat × Nat) × Nat × Bool × Bool :=
  (s.part, s.mem, s.blocks, s.grout, s.lostKeys, s.debt, s.slip, s.closed13)

/-- From `s` to `u` blocks were placed and admitted: no register changed, and nothing of the books. -/
abbrev State.places (s u : State) : Prop := s.leaves State.books (fun _ => True) u

section
variable {s₀ s : State} {q seq : Nat}

theorem State.leaves.modItem {f : Item → Item} (h : s₀.places s) : s₀.places (s.modItem q seq f) := .of h rfl rfl

theorem State.leaves.finish {status detail blk : Nat} (h : s₀.places s) : s₀.places (s.finish q seq status detail blk) := .of h rfl rfl

theorem State.leaves.cancel {p : Item → Bool} (h : s₀.places s) : s₀.places (s.cancel q p) := by
  unfold State.cancel
  exact .foldl (fun _ _ hs => .ite (.of hs rfl rfl) hs) h

theorem State.leaves.place {i : Item} {idx : Nat} {limit : Option Rat} (h : s₀.places s) : s₀.places (s.place i idx limit).2 := by
  unfold State.place
  extract_lets q cls part im b grp alts fits fresh held s1 busy ok found
  have h1 : s₀.places s1 := .of h rfl rfl
  have kept : ∀ r, held = some r → s₀.places r.2 := by
    intro r e
    unfold held at e
    split at e
    · cases e
    split at e
    · cases e
    split at e
    · cases e; exact h
    dsimp only at e
    split at e <;> (cases e; exact h)
  clear_value held s1 alts
  refine .iteOn Prod.snd h (.iteOn Prod.snd h ?_)
  split
  · exact kept _ rfl
  split
  · split
    · exact .iteOn Prod.snd h1 h1
    · exact h1
  · exact h1

theorem State.leaves.settle (h : s₀.places s) : s₀.places (s.settle q seq) := by
  unfold State.settle
  split
  · exact h
  · extract_lets busy
    refine .ite h ?_
    split
    · exact .of h rfl rfl
    · exact .ite (.of h rfl rfl) (.ite (.cancel h) h)

theorem State.leaves.tryHead {fuel : Nat} {limit : Option Rat} (h : s₀.places s) : s₀.places (s.tryHead q limit fuel).2 := by
  induction fuel generalizing s with
  | zero => exact h
  | succ fuel ih =>
    unfold State.tryHead
    split
    · exact h
    · next i idx _ =>
      have h1 : s₀.places (s.place i idx limit).2 := .place h
      generalize s.place i idx limit = y at h1
      obtain ⟨r, s1⟩ := y
      dsimp only at h1 ⊢
      split
      · exact ih (.settle (.of h1 rfl rfl))
      · exact h1

theorem State.leaves.head {limit : Option ℚ} (h : s₀.places s) : s₀.places (s.head q limit).2 := .tryHead h

theorem State.leaves.endHold (h : s₀.places s) : s₀.places (s.endHold q) := by
  unfold State.endHold
  split
  · exact h
  · extract_lets b
    split
    · exact .ite (.of h rfl rfl) h
    · exact h

theorem State.leaves.enrol {p : Planned} (h : s₀.places s) : s₀.places (s.enrol p) := .of h rfl rfl

theorem State.leaves.can {p : Pass} (h : s₀.places p.st) : s₀.places (p.can q).2.st := by
  unfold Pass.can
  have h1 : s₀.places (p.st.head q (some p.left)).2 := .head h
  split
  · next e => exact .of_eq (congrArg Prod.snd e) h1
  · next e => exact .of_eq (congrArg Prod.snd e) h1

theorem State.leaves.live {p : Pass} {qs : List Nat} (h : s₀.places p.st) : s₀.places (p.live qs).2.st :=
  .foldlOn (fun y : Bool × Pass => y.2.st) (fun _ _ hs => .iteOn (fun y : Bool × Pass => y.2.st) hs (.can hs)) h

theorem State.leaves.drain {p : Pass} {cls fuel : Nat} {admitted : Bool} (h : s₀.places p.st) :
    s₀.places (p.drain cls q admitted fuel).1.st := by
  induction fuel generalizing p admitted with
  | zero => exact h
  | succ fuel ih =>
    unfold Pass.drain
    have h1 : s₀.places (p.st.head q (some (min (p.st.queue q).allowance p.left))).2 := .head h
    split
    · next pl c s1 e =>
      have h2 : s₀.places (s1.enrol pl) := .enrol (.of_eq (congrArg Prod.snd e) h1)
      exact ih (.of h2 rfl rfl)
    · next e => exact .of_eq (congrArg Prod.snd e) h1
    · next e => exact .of_eq (congrArg Prod.snd e) h1

theorem State.leaves.turn {p : Pass} {cls : Nat} {slice : Rat} (h : s₀.places p.st) : s₀.places (p.turn cls q slice).1.st := by
  unfold Pass.turn
  extract_lets s1
  have h0 : s₀.places s1 := .of h rfl rfl
  have h1 : s₀.places (Pass.drain { p with st := s1 } cls q false (p.st.part.tiles + 1)).1.st := .drain h0
  split
  next p1 _ _ e =>
    have h2 : s₀.places p1.st := .of_eq (congrArg (fun y => y.1.st) e) h1
    exact .of h2 rfl rfl

/-- What follows a turn: the next one, unless the turn admitted and nothing more can be. -/
theorem State.leaves.afterTurn {t : Pass × Bool} {qs : List Nat} {next : Pass → Pass}
    (ih : ∀ {p : Pass}, s₀.places p.st → s₀.places (next p).st) (h : s₀.places t.1.st) :
    s₀.places (if t.2 then (if (t.1.live qs).1 && 0 < (t.1.live qs).2.left then next (t.1.live qs).2 else (t.1.live qs).2)
      else next t.1).st :=
  .iteOn Pass.st (.iteOn Pass.st (ih (.live h)) (.live h)) (ih h)

theorem State.leaves.turns {p : Pass} {cls fuel : Nat} {qs l : List Nat} {slice : Rat} (h : s₀.places p.st) :
    s₀.places (p.turns cls qs slice l fuel).st := by
  induction fuel generalizing p l with
  | zero => cases l <;> exact h
  | succ fuel ih =>
    cases l with
    | cons q rest => exact .afterTurn ih (.turn h)
    | nil =>
      cases qs with
      | nil => exact h
      | cons q rest => exact .afterTurn (t := p.turn cls q slice) (qs := q :: rest) ih (.turn h)

theorem State.leaves.classPass {cls : Nat} {limit slice : Rat} (h : s₀.places s) : s₀.places (s.classPass cls limit slice).1 := by
  unfold State.classPass
  extract_lets qs s1 order p
  have h1 : s₀.places p.st := .foldl (fun _ _ hs => .ite (.of hs rfl rfl) hs) h
  have h2 : s₀.places (if 0 < limit then p.live qs else (false, p)).2.st := .iteOn (fun y : Bool × Pass => y.2.st) (.live h1) h1
  split
  next p1 e =>
    have h3 : s₀.places p1.st := .of_eq (congrArg (fun y : Bool × Pass => y.2.st) e) h2
    exact .iteOn Pass.st (.turns h3) h3

theorem State.leaves.fillPass {qs : List Nat} {fuel : Nat} (h : s₀.places s) : s₀.places (s.fillPass qs fuel) := by
  induction fuel generalizing s with
  | zero => exact h
  | succ fuel ih =>
    unfold State.fillPass
    split
    next s1 _ e =>
      have h1 : s₀.places s1 := by
        refine .of_eq (congrArg Prod.fst e) (.foldlOn Prod.fst (fun y q hs => ?_) h)
        obtain ⟨s2, any⟩ := y
        dsimp only
        split
        · next e1 => exact .enrol (.of_eq (congrArg Prod.snd e1) (.head hs))
        · next e1 => exact .of_eq (congrArg Prod.snd e1) (.head hs)
      exact .ite (ih h1) h1

theorem State.leaves.planMoves {may : Bool} (h : s₀.places s) : s₀.places (s.planMoves may) := by
  unfold State.planMoves
  refine .ite h (.foldl (fun s1 r hs => ?_) h)
  split
  · extract_lets held powered
    exact .ite (.of hs rfl rfl) hs
  · exact hs

theorem State.leaves.quadrants {waiting : List Nat} (h : s₀.places s) : s₀.places (s.quadrants waiting) := by
  unfold State.quadrants
  extract_lets held
  exact .foldl (fun _ _ hs => .ite hs (.ite (.ite (.of hs rfl rfl) hs) (.ite hs (.ite (.of hs rfl rfl) (.of hs rfl rfl))))) h

theorem State.leaves.touchPhase {sig : Nat} (h : s₀.places s) : s₀.places (s.touchPhase sig) := by
  unfold State.touchPhase
  split
  · exact .of h rfl rfl
  · exact h

end
end Sys2Proof.Machine
end

section
/-! PROOFS. The debt at a C1–C3 close and SCHED_SLIP (O53). -/
namespace Sys2Proof.Machine

/-! ### After the check for SCHED_SLIP -/

/-- From `s` to `u` a close went on behind its check for SCHED_SLIP: blocks were placed, and the division of the cap may have
reported a cap that it cannot meet. -/
structure State.closes (s u : State) : Prop where
  frame : s.leaves (fun x => (x.mem, x.blocks, x.debt, x.slip, x.closed13)) (· < 0x12000000) u
  holds : ∀ n e, e.cause = uFrontEnd → s.holds n e → u.holds n e
  lost : s.fld F.ERR_LOST.COUNT 0 ≤ u.fld F.ERR_LOST.COUNT 0

section
variable {s₀ s u v : State}

theorem State.leaves.closes (h : s.places u) : s.closes u := by
  have e := h.data
  simp only [State.books, Prod.mk.injEq] at e
  obtain ⟨-, hmem, hblocks, hgrout, -, hdebt, hslip, hclosed⟩ := e
  refine ⟨⟨by simp only [hmem, hblocks, hdebt, hslip, hclosed], fun a _ => h.regs a trivial⟩, fun n e _ held => ?_, ?_⟩
  · exact ⟨hgrout ▸ held.at_, held.open_, hgrout ▸ held.alone⟩
  · exact (h.fld trivial).ge

theorem State.closes.ite {c : Prop} [Decidable c] (h : s.closes u) (k : s.closes v) : s.closes (if c then u else v) := by
  split <;> assumption

/-- The report of a cap that cannot be met is one of the power controller, not of the front end. -/
theorem State.closes.unmet {pin : Nat} (h : s₀.places s) : s₀.closes (s.unmet pin) := by
  unfold State.unmet
  refine .ite h.closes ?_
  have shown : s.closes ({ s with pw := { s.pw with unmet := true } }.raise F.PWR_EVENT.CAP_UNMET 0) := by
    refine ⟨.setFld (.of (.refl s) rfl rfl) (by decide) rfl, fun n e _ held => ⟨held.at_, held.open_, held.alone⟩, ?_⟩
    exact (State.fld_setFld_other _ _ _ _ _ _ (by decide)).ge
  generalize State.raise _ F.PWR_EVENT.CAP_UNMET 0 = x at shown ⊢
  obtain ⟨f1, k1, l1⟩ := h.closes
  obtain ⟨f2, k2, l2⟩ := shown
  have mild : (0 : Nat) ≠ 3 := by decide
  have apart : uFrontEnd ≠ uPower 0 := by decide
  refine ⟨.logs (f1.trans f2) (.reportSelf mild (.refl x)) (by decide) fun _ _ _ _ _ => rfl, fun n e cause held => ?_, ?_⟩
  · exact State.holds.reportOf mild (cause ▸ apart) (k2 n e cause (k1 n e cause held))
  · exact (l1.trans l2).trans (State.lost_le_reportOf mild)

theorem State.leaves.drawn (h : s₀.places s) : s₀.places s.drawn := .of h rfl rfl

theorem State.closes.divideCap (h : s₀.places s) : s₀.closes s.divideCap := by
  unfold State.divideCap
  extract_lets s1 on gs hot held g0 fixed busy0 busy1 s2 gain l0 l1 w base stay core cores cores1 src
  have h1 : s₀.places s1 := .foldl (fun _ _ hs => .touchPhase hs) h
  clear_value s1
  have h2 : s₀.places s2 := .drawn (.drawn (.drawn h1))
  clear_value s2
  split
  extract_lets quads plan s3
  have h3 : s₀.places s3 := .of h2 rfl rfl
  exact .ite (.unmet h3) h3.closes

end

/-! ### Up to the check -/

section
variable {s₀ s : State}

/-- From `s` to `u` sets of tiles that have moved were switched. -/
abbrev State.switches (s u : State) : Prop := s.leaves State.books (· < 0x20000000) u

theorem tile_addr_ge (o n i : Nat) : 0x20000000 ≤ (Place.tile o n).addr i := by
  simp only [Place.addr, dieBase]
  omega

theorem State.leaves.plinth {f : Fld} {i n : Nat} (hf : f.reg = .SCP_PLINTH) (h : s₀.switches s) : s₀.switches (s.setFld f i n) :=
  .setFld h (by rw [Fld.at, hf]; exact Nat.not_lt.2 (tile_addr_ge _ _ _)) rfl

theorem State.leaves.dropPlinth {t : Nat} (h : s₀.switches s) : s₀.switches (s.dropPlinth t) :=
  .setReg h (Nat.not_lt.2 (tile_addr_ge _ _ _)) rfl

theorem State.leaves.finishAdmin {q seq status result : Nat} (h : s₀.switches s) :
    s₀.switches (s.finishAdmin q seq status result) := .of h rfl rfl

theorem State.leaves.switchSet {r : RSet} (h : s₀.switches s) : s₀.switches (s.switchSet r) := by
  unfold State.switchSet
  split
  · extract_lets s1 s2 s3
    have h1 : s₀.switches s1 := .foldl (fun _ _ hs => .dropPlinth hs) h
    clear_value s1
    have h2 : s₀.switches s2 := .foldl (fun _ _ hs => .plinth rfl hs) h1
    clear_value s2
    have h3 : s₀.switches s3 := .of h2 rfl rfl
    clear_value s3
    split
    · exact .finishAdmin h3
    · exact h3
  · exact h

theorem State.leaves.switchSets (h : s₀.switches s) : s₀.switches s.switchSets :=
  .foldl (fun _ _ hs => .switchSet hs) h

end

/-- What a close makes of the state before its check for SCHED_SLIP: moved sets are switched, and the debt stands at `debt`. -/
def State.owing (s : State) (debt : Nat) (held : Bool) : State :=
  { { s with closed13 := true }.switchSets with debt := debt, c3Held := held }.setFld F.CRS_DEBT.DEBT 0 (min debt 0xFFFFFF)

section
variable (s : State) (debt : Nat) (held : Bool)

theorem State.switches_closed13 : { s with closed13 := true }.switches { s with closed13 := true }.switchSets :=
  .switchSets (.refl _)

theorem State.owing_leaves : s.leaves (fun x => (x.mem, x.blocks, x.grout, x.lostKeys, x.slip))
    (fun a => a < 0x20000000 ∧ a ≠ F.CRS_DEBT.DEBT.at 0) (s.owing debt held) := by
  have sw := s.switches_closed13
  unfold State.owing
  generalize State.switchSets _ = x at sw ⊢
  have e := sw.data
  simp only [State.books, Prod.mk.injEq] at e
  obtain ⟨-, hmem, hblocks, hgrout, hkeys, -, hslip, -⟩ := e
  refine .setFld ⟨?_, fun a ha => sw.regs a ha.1⟩ (fun ⟨_, ne⟩ => ne rfl) rfl
  simp only [hmem, hblocks, hgrout, hkeys, hslip]

theorem State.owing_debt : (s.owing debt held).debt = debt ∧ (s.owing debt held).closed13 = true ∧
    (s.owing debt held).fld F.CRS_DEBT.DEBT 0 = min debt (2 ^ 24 - 1) := by
  have e := s.switches_closed13.data
  unfold State.owing
  generalize State.switchSets _ = x at e ⊢
  simp only [State.books, Prod.mk.injEq] at e
  obtain ⟨-, -, -, -, -, -, -, hclosed⟩ := e
  refine ⟨rfl, hclosed, ?_⟩
  rw [State.fld_setFld_self _ _ _ _ (by decide)]
  exact Nat.mod_eq_of_lt (by show min debt 0xFFFFFF < 2 ^ 24; omega)

/-- A close while the accelerator works. -/
theorem exec_c1C3SnapshotClose (timer : s.timer = true) (first : s.closed13 = false) (ready : s.ready = true)
    (works : s.halted = false) :
    let c2 := s.fld F.CRS_SHARE.C2_SHARE 0
    let c3 := s.fld F.CRS_SHARE.C3_SHARE 0
    let p := max 1 s.pool
    let grown := s.debt + (256 * s.lateTiles + p - 1) / p
    let debt := grown - min grown c2 - min (grown - min grown c2) c3
    ∃ held u, exec .c1C3SnapshotClose s = .next u ∧ (s.owing debt held).slipCheck.closes u := by
  intro c2 c3 p grown debt
  have sw := s.switches_closed13
  have start : exec .c1C3SnapshotClose s = execC1C3SnapshotClose s := rfl
  have owing (held : Bool) : s.owing debt held =
    { { s with closed13 := true }.switchSets with debt := debt, c3Held := held }.setFld F.CRS_DEBT.DEBT 0 (min debt 0xFFFFFF) := rfl
  rw [start, execC1C3SnapshotClose, if_neg (by simp [timer, first]), if_neg (by simp [ready, works])]
  generalize State.switchSets _ = x at sw owing ⊢
  have e := sw.data
  simp only [State.books, Prod.mk.injEq] at e
  obtain ⟨hpart, -, hblocks, -, -, hdebt, -, -⟩ := e
  have share2 : x.fld F.CRS_SHARE.C2_SHARE 0 = c2 := sw.fld (by decide)
  have share3 : x.fld F.CRS_SHARE.C3_SHARE 0 = c3 := sw.fld (by decide)
  have late : x.lateTiles = s.lateTiles := by rw [State.lateTiles, hblocks]; rfl
  have pool : x.pool = s.pool := by
    have reserved : x.fld F.CRS_C0_RES.RESERVED_TILES 0 = s.fld F.CRS_C0_RES.RESERVED_TILES 0 := sw.fld (by decide)
    rw [State.pool, hpart, reserved]; rfl
  have grows : x.debt + ceilDiv (256 * x.lateTiles) (max 1 x.pool) = grown := by rw [late, pool, hdebt]; rfl
  extract_lets y s2 s3 unit slice l1 l2 l3 debt0 w2 w3 debt' s1 s2' s3'
  have left : debt' = debt := by
    show debt0 - min debt0 (x.fld F.CRS_SHARE.C2_SHARE 0) - min (debt0 - min debt0 (x.fld F.CRS_SHARE.C2_SHARE 0))
      (x.fld F.CRS_SHARE.C3_SHARE 0) = _
    rw [share2, share3, show debt0 = grown from grows]
  have here : (s.owing debt (decide (s3 ≠ 0) && decide (w3 = s3))).slipCheck = s2' := by rw [owing, ← left]
  refine ⟨decide (s3 ≠ 0) && decide (w3 = s3), _, rfl, ?_⟩
  rw [here]
  have h2 : s2'.places s2' := .refl s2'
  have h3 : s2'.places s3' := .foldl (fun _ _ hs => .endHold hs) h2
  clear_value s2' s3'
  refine .ite h2.closes ?_
  split
  next s4 _ e4 =>
  have h4 : s2'.places s4 := .of_eq (congrArg Prod.fst e4) (.classPass h3)
  split
  next s5 _ e5 =>
  have h5 : s2'.places s5 := .of_eq (congrArg Prod.fst e5) (.classPass h4)
  split
  next s6 _ e6 =>
  have h6 : s2'.places s6 := .of_eq (congrArg Prod.fst e6) (.classPass h5)
  extract_lets n s7 s8 s9
  have h7 : s2'.places s7 := .fillPass h6
  have h8 : s2'.places s8 := .ite (.fillPass (.fillPass h7)) h7
  have h9 : s2'.places s9 := .planMoves h8
  exact .divideCap (.quadrants h9)

end

/-! ### The check -/

/-- An entry is one of the state before, where the log and its registers stand as they did. -/
theorem State.enters.of_leaves {s z u : State} {R : Nat → Prop} {cause code detail : Nat} (h : z.enters u cause code detail)
    (k : s.leaves (fun x => (x.grout, x.lostKeys)) R z) (course : R (F.CRS_COURSE_NUM.COURSE.at 0)) (log : ∀ a ∈ logRegs, R a)
    (tail : R (F.ERR_LOG_TAIL.TAIL.at 0)) : s.enters u cause code detail := by
  obtain ⟨grout, keys⟩ : z.grout = s.grout ∧ z.lostKeys = s.lostKeys := by simpa using k.data
  have now : z.course = s.course := k.fld course
  have head : z.fld F.ERR_LOG_HEAD.HEAD 0 = s.fld F.ERR_LOG_HEAD.HEAD 0 := k.fld (log _ (by decide))
  have lost : z.fld F.ERR_LOST.COUNT 0 = s.fld F.ERR_LOST.COUNT 0 := k.fld (log _ (by decide))
  have found (c : Nat) : z.openRec cause c = s.openRec cause c := by unfold State.openRec; rw [grout, now]
  unfold State.enters at h
  rwa [grout, keys, now, head, lost, k.fld tail, found] at h

section
variable (x : State)

/-- What the check leaves beside SCHED_SLIP, its count and the record. -/
theorem State.slipCheck_leaves : x.leaves (fun x => (x.mem, x.blocks, x.debt, x.closed13))
    (fun a => a < 0x12000000 ∧ a ≠ F.CRS_EVENT.SCHED_SLIP.at 0) x.slipCheck := by
  unfold State.slipCheck
  extract_lets s2
  have event : ¬ (F.CRS_EVENT.SCHED_SLIP.at 0 < 0x12000000 ∧ F.CRS_EVENT.SCHED_SLIP.at 0 ≠ F.CRS_EVENT.SCHED_SLIP.at 0) :=
    fun h => h.2 rfl
  have h2 : x.leaves (fun x => (x.mem, x.blocks, x.debt, x.closed13))
      (fun a => a < 0x12000000 ∧ a ≠ F.CRS_EVENT.SCHED_SLIP.at 0) s2 :=
    .setFld (f := F.CRS_EVENT.SLIP_COUNT) (.setFld (f := F.CRS_EVENT.SCHED_SLIP) (.of (.refl x) rfl rfl) event rfl) event rfl
  clear_value s2
  have mild : (0 : Nat) ≠ 3 := by decide
  exact .ite (.logs h2 (.reportSelf mild (.refl s2)) (by decide) fun _ _ _ _ _ => rfl) (.ite (.of (.refl x) rfl rfl) (.refl x))

/-- Above 1,024 units SCHED_SLIP is raised, counted and reported, where it is armed. -/
theorem State.slipCheck_raises (above : 1024 < x.debt) (armed : x.slip = false) :
    x.slipCheck.slip = true ∧ x.slipCheck.fld F.CRS_EVENT.SCHED_SLIP 0 = 1 ∧
    x.slipCheck.fld F.CRS_EVENT.SLIP_COUNT 0 = min (x.fld F.CRS_EVENT.SLIP_COUNT 0 + 1) (2 ^ 32 - 1) ∧
    x.enters x.slipCheck uFrontEnd 0x0101 x.debt := by
  rw [State.slipCheck, if_pos (by simp [above, armed])]
  extract_lets s2
  have raised : ({ x with slip := true }.raise F.CRS_EVENT.SCHED_SLIP 0).fld F.CRS_EVENT.SCHED_SLIP 0 = 1 :=
    State.fld_setFld_self _ F.CRS_EVENT.SCHED_SLIP 0 1 (by decide)
  have uncounted : ({ x with slip := true }.raise F.CRS_EVENT.SCHED_SLIP 0).fld F.CRS_EVENT.SLIP_COUNT 0 =
      x.fld F.CRS_EVENT.SLIP_COUNT 0 :=
    State.fld_setFld_beside _ F.CRS_EVENT.SCHED_SLIP F.CRS_EVENT.SLIP_COUNT 0 1 (by decide) rfl (by decide)
  have event : s2.fld F.CRS_EVENT.SCHED_SLIP 0 = 1 :=
    (State.fld_setFld_beside _ F.CRS_EVENT.SLIP_COUNT F.CRS_EVENT.SCHED_SLIP 0 _ (by decide) rfl (by decide)).trans raised
  have count : s2.fld F.CRS_EVENT.SLIP_COUNT 0 = min (x.fld F.CRS_EVENT.SLIP_COUNT 0 + 1) (2 ^ 32 - 1) := by
    rw [← uncounted]
    exact State.fld_bump _ F.CRS_EVENT.SLIP_COUNT 0 1 (by decide)
  have slip : s2.slip = true := rfl
  have debt : s2.debt = x.debt := rfl
  have same : x.leaves (fun x => (x.grout, x.lostKeys)) (· ≠ F.CRS_EVENT.SCHED_SLIP.at 0) s2 :=
    .setFld (f := F.CRS_EVENT.SLIP_COUNT) (.setFld (f := F.CRS_EVENT.SCHED_SLIP) (.of (.refl x) rfl rfl) (fun h => h rfl) rfl)
      (fun h => h rfl) rfl
  clear_value s2
  have mild : (0 : Nat) ≠ 3 := by decide
  have log : s2.logs (s2.reportSelf 0x0101 0 uFrontEnd 0 s2.debt) := .reportSelf mild (.refl s2)
  have kept : s2.leaves State.slip (· < 0x12000000) (s2.reportSelf 0x0101 0 uFrontEnd 0 s2.debt) :=
    .logs (.refl s2) log (by decide) fun _ _ _ _ _ => rfl
  have entered : s2.enters (s2.reportSelf 0x0101 0 uFrontEnd 0 s2.debt) uFrontEnd 0x0101 s2.debt := State.enters_report s2 _ mild
  refine ⟨kept.data.trans slip, (kept.fld (by decide)).trans event, (kept.fld (by decide)).trans count, ?_⟩
  rw [debt] at entered ⊢
  exact entered.of_leaves same (by decide) (by decide) (by decide)

/-- At 1,024 units or less, or where it was raised and has not been armed again, nothing is raised. -/
theorem State.slipCheck_quiet (low : x.debt ≤ 1024 ∨ x.slip = true) :
    x.slipCheck = { x with slip := if x.debt ≤ 512 then false else x.slip } := by
  rw [State.slipCheck, if_neg (by simpa [imp_iff_not_or, or_comm] using low)]
  split <;> rfl

end

/-- Settles O53, in the three parts of a close: up to the check the debt is moved, the check raises SCHED_SLIP, and what follows
places blocks. -/
theorem schedSlip : Obligations.SchedSlip := by
  intro s timer first ready works c2 c3 p grown debt count
  obtain ⟨held, u, next, closes⟩ := exec_c1C3SnapshotClose s timer first ready works
  obtain ⟨owed, closed, shown⟩ := s.owing_debt debt held
  have before := s.owing_leaves debt held
  change (s.owing debt held).slipCheck.closes u at closes
  generalize s.owing debt held = x at owed closed shown before closes
  obtain ⟨bmem, bblocks, bgrout, bkeys, bslip⟩ : x.mem = s.mem ∧ x.blocks = s.blocks ∧ x.grout = s.grout ∧
    x.lostKeys = s.lostKeys ∧ x.slip = s.slip := by simpa using before.data
  have check := x.slipCheck_leaves
  obtain ⟨cmem, cblocks, cdebt, cclosed⟩ : x.slipCheck.mem = x.mem ∧ x.slipCheck.blocks = x.blocks ∧
    x.slipCheck.debt = x.debt ∧ x.slipCheck.closed13 = x.closed13 := by simpa using check.data
  obtain ⟨frame, holds, lost⟩ := closes
  obtain ⟨fmem, fblocks, fdebt, fslip, fclosed⟩ : u.mem = x.slipCheck.mem ∧ u.blocks = x.slipCheck.blocks ∧
    u.debt = x.slipCheck.debt ∧ u.slip = x.slipCheck.slip ∧ u.closed13 = x.slipCheck.closed13 := by simpa using frame.data
  have event (f : Fld) (reg : f.reg = .CRS_EVENT) : x.fld f 0 = s.fld f 0 := before.fld (by rw [Fld.at, reg]; decide)
  have after (f : Fld) (reg : f.reg = .CRS_EVENT) : u.fld f 0 = x.slipCheck.fld f 0 := frame.fld (by rw [Fld.at, reg]; decide)
  have quiet (low : debt ≤ 1024 ∨ s.slip = true) :
      x.slipCheck = { x with slip := if debt ≤ 512 then false else s.slip } := by
    rw [← owed, ← bslip]
    exact x.slipCheck_quiet (by rwa [owed, bslip])
  refine ⟨u, next, fdebt.trans (cdebt.trans owed), (frame.fld (by decide)).trans ((check.fld (by decide)).trans shown),
    fclosed.trans (cclosed.trans closed), fblocks.trans (cblocks.trans bblocks), fmem.trans (cmem.trans bmem),
    fun above armed => ?_, fun low => ?_, fun above raised => ?_, fun low => ?_, fun above low => ?_⟩
  · obtain ⟨slip, raised, counted, entered⟩ := x.slipCheck_raises (by rwa [owed]) (bslip.trans armed)
    rw [owed] at entered
    have entered : s.enters x.slipCheck uFrontEnd 0x0101 debt :=
      entered.of_leaves ⟨Prod.ext bgrout bkeys, before.regs⟩ (by decide) (by decide) (by decide)
    exact ⟨fslip.trans slip, (after _ rfl).trans raised, by rw [after _ rfl, counted, event _ rfl], entered.took holds lost⟩
  · have still (f : Fld) (reg : f.reg = .CRS_EVENT) : u.fld f 0 = s.fld f 0 := by
      rw [after f reg, quiet low]
      exact event f reg
    exact ⟨still _ rfl, still _ rfl⟩
  · rw [fslip, quiet (.inr raised)]
    exact (if_neg (by omega)).trans raised
  · rw [fslip, quiet (.inl (by omega))]
    exact if_pos low
  · rw [fslip, quiet (.inl low)]
    exact if_neg (by omega)

end Sys2Proof.Machine
end

section
/-! PROOFS. Write-backs and reports beside the work that runs. -/
namespace Sys2Proof.Machine

/-- What write-backs and reports below FATAL leave alone, beside most registers. -/
abbrev State.work (s : State) : Board × SMap Tile × List Block × SMap (List RJob) × SMap (List HodJob) × List Packet ×
    List Planned × List XEntry × SMap Byte × List Item × SMap Queue × List RSet :=
  (s.board, s.tiles, s.blocks, s.riddles, s.hods, s.packets, s.plan, s.xlt, s.scr, s.items, s.queues, s.sets)

/-- A register outside the error log and the windows of dies, tiles and lintels. -/
abbrev aloof (a : Nat) : Prop := a < 0x13000000 ∨ 0x14000000 ≤ a ∧ a < 0x20000000

/-- From `s` to `u` nothing happened to what runs, nor to a register that is aloof. -/
abbrev State.aside (s u : State) : Prop := s.leaves State.work aloof u

theorem die_addr_ge (o n i : Nat) : 0x20000000 ≤ (Place.die o n).addr i := by
  simp only [Place.addr, dieBase]
  omega

theorem Part.dies_le (p : Part) : 0 < p.dies ∧ p.dies ≤ 4 := by cases p <;> decide

theorem Part.homeDie_lt (p : Part) (a : Nat) : p.homeDie a < 4 := by
  obtain ⟨pos, le⟩ := p.dies_le
  unfold Part.homeDie Part.memAt
  split
  · exact (Nat.mod_lt _ pos).trans_le le
  · refine (Nat.mod_lt _ ?_).trans_le ?_ <;> omega

section
variable {s₀ s : State} {l : Nat}

/-- A field of a window of a die or a tile. -/
theorem State.leaves.window {f : Fld} {i n : Nat} (h : s₀.aside s) (at_ : 0x20000000 ≤ f.at i) : s₀.aside (s.setFld f i n) :=
  .setFld h (by unfold aloof; omega) rfl

theorem State.leaves.reportSelf {code sev unit addr detail : Nat} (mild : sev ≠ 3) (h : s₀.aside s) :
    s₀.aside (s.reportSelf code sev unit addr detail) := .logs h (.reportSelf mild (.refl s)) (by decide) fun _ _ _ _ _ => rfl

theorem State.leaves.putBytes {a : Nat} {bs : List Byte} (h : s₀.aside s) : s₀.aside (s.putBytes a bs) := by
  induction bs generalizing s a with
  | nil => exact h
  | cons b bs ih => exact ih (.of h rfl rfl)

theorem State.leaves.wcLeave (h : s₀.aside s) : s₀.aside (s.wcLeave l) :=
  .window (f := F.MEM_WR_BYTES.BYTES) (.window (f := F.MEM_RD_BYTES.BYTES) (.of h rfl rfl) (die_addr_ge _ _ _)) (die_addr_ge _ _ _)

theorem State.leaves.wcPut {m : Nat} (h : s₀.aside s) : s₀.aside (s.wcPut l m) := by
  unfold State.wcPut
  extract_lets c s1 mine
  have h1 : s₀.aside s1 := .ite (.of h rfl rfl) (.of h rfl rfl)
  refine .ite (.wcLeave h1) ?_
  clear_value mine s1
  split
  · exact .ite (.wcLeave h1) h1
  · exact h1

theorem State.leaves.countLost {d : Nat} (h : s₀.aside s) : s₀.aside (s.countLost d l) := by
  unfold State.countLost
  extract_lets s1 s2
  have h1 : s₀.aside s1 := .window (f := F.MTC_ECC.UE_LOST) h (die_addr_ge _ _ _)
  clear_value s1
  have h2 : s₀.aside s2 := .ite h1 (.window (f := F.MTC_LOST_ADDR.ADDR) (.window (f := F.MTC_LOST_ADDR.VALID) h1 (die_addr_ge _ _ _))
    (die_addr_ge _ _ _))
  exact .reportSelf (by decide) (.window (f := F.MTC_EVENT.LOST) h2 (die_addr_ge _ _ _))

theorem State.leaves.loseLine (h : s₀.aside s) : s₀.aside (s.loseLine l) := by
  unfold State.loseLine
  extract_lets s1
  have h1 : s₀.aside s1 := by
    unfold s1
    split
    · extract_lets s2
      have h2 : s₀.aside s2 := .of h rfl rfl
      clear_value s2
      split
      · exact .ite (.of h2 rfl rfl) (.putBytes h2)
      · exact .putBytes h2
    · exact h
  exact .countLost (.of h1 rfl rfl)

theorem State.leaves.meetLine (h : s₀.aside s) : s₀.aside (s.meetLine l) := by
  unfold State.meetLine
  extract_lets d s1
  have near : d < 4 := s.part.homeDie_lt l
  have h1 : s₀.aside s1 := .of h rfl rfl
  clear_value d s1
  refine .ite (.ite (.loseLine h1) (.window (f := F.MTC_ECC.UE_CLEAN) (.of h1 rfl rfl) (die_addr_ge _ _ _))) (.ite ?_ h)
  refine .setFld (f := F.ERR_CE.COUNT) (.window (f := F.MTC_EVENT.CE) (.window (f := F.MTC_ECC.CE) (.of h rfl rfl) (die_addr_ge _ _ _))
    (die_addr_ge _ _ _)) ?_ rfl
  show ¬ aloof (0x13000100 + d * 8)
  unfold aloof
  omega

theorem State.leaves.writeBack (h : s₀.aside s) : s₀.aside (s.writeBack l) := by
  unfold State.writeBack
  extract_lets s1
  have h1 : s₀.aside s1 := .ite (.meetLine h) h
  clear_value s1
  split
  · exact .ite h1 (.wcPut (.of h1 rfl rfl))
  · exact h1

theorem State.leaves.writeBackAll {p : Nat → Bool} (h : s₀.aside s) : s₀.aside (s.writeBackAll p) :=
  .foldl (fun _ _ hs => .writeBack hs) h

end
end Sys2Proof.Machine
end

section
/-! PROOFS. The board outlasts the inbound writes that a register access finds performed (O41).

A fault on the way can stop the accelerator, so more than the memory changes; but no function that performs a write reaches the
board, and with it the supply of the module. One lemma for each such function, in the order of the model's files. -/
namespace Sys2Proof.Machine

/-- From `s` to `u` the board stays as it is. -/
structure State.sameBoard (s u : State) : Prop where
  eq : u.board = s.board

section
variable {s₀ s u v : State}

/-! ### Rules of the relation -/

theorem State.sameBoard.of (h : s₀.sameBoard s) (e : u.board = s.board) : s₀.sameBoard u := ⟨e.trans h.eq⟩

theorem State.sameBoard.aside (h : s₀.sameBoard s) (k : s.aside u) : s₀.sameBoard u := .of h (congrArg Prod.fst k.data)

theorem State.sameBoard.of_eq (e : u = v) (h : s₀.sameBoard u) : s₀.sameBoard v := e ▸ h

theorem State.sameBoard.ite {c : Prop} [Decidable c] (h : s₀.sameBoard u) (k : s₀.sameBoard v) :
    s₀.sameBoard (if c then u else v) := by split <;> assumption

theorem State.sameBoard.fst {β : Type} {c : Prop} [Decidable c] {a b : State × β} (h : s₀.sameBoard a.1) (k : s₀.sameBoard b.1) :
    s₀.sameBoard (if c then a else b).1 := by split <;> assumption

theorem State.sameBoard.foldlOn {β γ : Type} (ρ : β → State) {f : β → γ → β} {l : List γ} {b : β}
    (H : ∀ b a, s₀.sameBoard (ρ b) → s₀.sameBoard (ρ (f b a))) (h : s₀.sameBoard (ρ b)) : s₀.sameBoard (ρ (l.foldl f b)) := by
  induction l generalizing b with
  | nil => exact h
  | cons a l ih => exact ih (H b a h)

theorem State.sameBoard.foldl {γ : Type} {f : State → γ → State} {l : List γ}
    (H : ∀ s a, s₀.sameBoard s → s₀.sameBoard (f s a)) (h : s₀.sameBoard s) : s₀.sameBoard (l.foldl f s) := .foldlOn id H h

/-! ### Reports -/

theorem State.sameBoard.msix {f v : Nat} (h : s₀.sameBoard s) : s₀.sameBoard (s.msix f v) := by
  obtain ⟨_, _, e⟩ := State.messages_msix (s := s) ⟨_, _, rfl⟩ f v
  rw [e]
  exact .of h rfl

theorem State.sameBoard.ibi {b : Nat} (h : s₀.sameBoard s) : s₀.sameBoard (s.ibi b) := by
  unfold State.ibi
  exact .ite (.of h rfl) h

theorem State.sameBoard.stopWork (h : s₀.sameBoard s) : s₀.sameBoard s.stopWork := by
  unfold State.stopWork
  extract_lets s1
  have h1 : s₀.sameBoard s1 := .foldl (fun _ _ hs => .of hs rfl) h
  clear_value s1
  exact .of h1 rfl

theorem State.sameBoard.fatal {cause code : Nat} (h : s₀.sameBoard s) : s₀.sameBoard (s.fatal cause code) := by
  unfold State.fatal
  extract_lets s1 s2 s3 s4
  have h1 : s₀.sameBoard s1 := .ite h (.of (.ibi h) rfl)
  have h2 : s₀.sameBoard s3 := .stopWork (.of h1 rfl)
  clear_value s1 s3
  exact .ite (.of h1 rfl) (.ite (.of h1 rfl) (.of h2 rfl))

theorem State.sameBoard.report {r : Report} (h : s₀.sameBoard s) : s₀.sameBoard (s.report r) := by
  unfold State.report State.reportOf
  extract_lets bitd head tail slot free lost again e s1 s2 s3 s4 s5 s6
  have h1 : s₀.sameBoard s6 :=
    .ite (.ite (.msix (.ite (.ibi (.of h rfl)) (.of h rfl))) (.ite (.msix (.of h rfl)) (.of h rfl))) (.ite (.of h rfl) (.of h rfl))
  split
  · extract_lets esc e' s7 s8 s9
    have h2 : s₀.sameBoard s9 := .ite (.msix (.of h rfl)) (.of h rfl)
    exact .ite (.fatal h2) (.of h rfl)
  · exact .ite (.fatal h1) h1

theorem State.sameBoard.reportSelf {code sev unit addr detail : Nat} (h : s₀.sameBoard s) :
    s₀.sameBoard (s.reportSelf code sev unit addr detail) := .report h

/-! ### External memory -/

theorem State.sameBoard.meetMemUe {u : Nat} {scrub : Bool} (h : s₀.sameBoard s) : s₀.sameBoard (s.meetMemUe u scrub) := by
  unfold State.meetMemUe
  extract_lets d s1 s2 s3
  have h2 : s₀.sameBoard s2 := .ite (.of h rfl) (.of h rfl)
  have h3 : s₀.sameBoard s3 := .ite h2 (.of h2 rfl)
  exact .reportSelf (.of h3 rfl)

theorem State.sameBoard.fixMemCe {u : Nat} (h : s₀.sameBoard s) : s₀.sameBoard (s.fixMemCe u) := by
  unfold State.fixMemCe
  extract_lets d c n s1 s2
  exact .ite (.reportSelf (.of h rfl)) (.of h rfl)

theorem State.sameBoard.ctlRead {l sm : Nat} (h : s₀.sameBoard s) : s₀.sameBoard (s.ctlRead l sm).1 := by
  unfold State.ctlRead State.ctlUnits
  refine .foldlOn Prod.fst (fun y u hs => ?_) (.of h rfl)
  split
  extract_lets s1
  have h1 : s₀.sameBoard s1 := .ite (.of hs rfl) hs
  exact .fst (.meetMemUe h1) (.fst (.fixMemCe h1) h1)

theorem State.sameBoard.wcPut {l m : Nat} (h : s₀.sameBoard s) : s₀.sameBoard (s.wcPut l m) := .aside h (.wcPut (.refl s))

theorem State.sameBoard.wcDrainAll (h : s₀.sameBoard s) : s₀.sameBoard s.wcDrainAll := .foldl (fun _ _ hs => .of hs rfl) h

theorem State.sameBoard.putBytes {a : Nat} {bs : List Byte} (h : s₀.sameBoard s) : s₀.sameBoard (s.putBytes a bs) :=
  .aside h (.putBytes (.refl s))

theorem State.sameBoard.dirtyLine {l sm : Nat} (h : s₀.sameBoard s) : s₀.sameBoard (s.dirtyLine l sm) := by
  unfold State.dirtyLine
  split
  · extract_lets b
    exact .of h rfl
  · exact h

theorem State.sameBoard.takeLine {l : Nat} (h : s₀.sameBoard s) : s₀.sameBoard (s.takeLine l) := by
  unfold State.takeLine
  split
  · refine .ite h ?_
    extract_lets s1
    split
    · exact .of h rfl
    · exact .wcPut (.of h rfl)
  · exact h

theorem State.sameBoard.meetBlock {g b : Nat} (h : s₀.sameBoard s) : s₀.sameBoard (s.meetBlock g b) := by
  unfold State.meetBlock
  extract_lets s1 l s2
  have h1 : s₀.sameBoard s1 := .ite (.of h rfl) h
  have h2 : s₀.sameBoard s2 := .of h1 rfl
  refine .ite ?_ h1
  split
  · exact .ite (.reportSelf (.putBytes (.of h2 rfl))) h2
  · exact h2

theorem State.sameBoard.recall {l : Nat} (h : s₀.sameBoard s) : s₀.sameBoard (s.recall l) := by
  unfold State.recall
  split
  · extract_lets s1 s2
    have h1 : s₀.sameBoard s1 := .takeLine (.foldl (fun _ _ hs => .meetBlock hs) h)
    have h2 : s₀.sameBoard s2 := .foldl (fun _ _ hs => .of hs rfl) h1
    clear_value s1 s2
    exact .of h2 rfl
  · exact h

theorem State.sameBoard.loseSlice {d : Nat} (h : s₀.sameBoard s) : s₀.sameBoard (s.loseSlice d) := by
  unfold State.loseSlice State.sliceGone
  refine .reportSelf ?_
  extract_lets mine s1 s2 s3
  have h1 : s₀.sameBoard s1 := by
    refine .foldl (fun s4 p hs => ?_) h
    split
    · exact .ite hs (.putBytes hs)
    · exact .putBytes hs
  have h3 : s₀.sameBoard s3 := .ite (.wcDrainAll (.of h1 rfl)) (.of h1 rfl)
  exact .ite (.foldl (fun _ _ hs => .of hs rfl) h3) (.of h1 rfl)

theorem State.sameBoard.evictLine {l : Nat} (h : s₀.sameBoard s) : s₀.sameBoard (s.evictLine l) := by
  unfold State.evictLine
  extract_lets s1
  have h1 : s₀.sameBoard s1 := .aside (.recall h) (.writeBack (.refl _))
  exact .ite h1 (.of h1 rfl)

theorem State.sameBoard.allocLine {l w sm : Nat} (h : s₀.sameBoard s) : s₀.sameBoard (s.allocLine l w sm) := by
  unfold State.allocLine
  extract_lets d s1
  have h1 : s₀.sameBoard s1 := by
    unfold s1
    split
    · exact .evictLine h
    · exact h
  clear_value s1
  exact .of h1 rfl

theorem State.sameBoard.countLook {d : Nat} {hit : Bool} (h : s₀.sameBoard s) : s₀.sameBoard (s.countLook d hit) :=
  .ite (.of h rfl) (.of h rfl)

theorem State.sameBoard.lookup {tag l sm wm : Nat} (h : s₀.sameBoard s) : s₀.sameBoard (s.lookup tag l sm wm).1 := by
  unfold State.lookup
  extract_lets d s1 s2 whole put s3
  have h1 : s₀.sameBoard s1 := .ite (.loseSlice h) h
  have h2 : s₀.sameBoard s2 := .aside h1 (.meetLine (.refl s1))
  have h3 : s₀.sameBoard s3 := .countLook h2
  have taken {x : State} (hx : s₀.sameBoard x) : s₀.sameBoard (put x) := .ite hx (.dirtyLine hx)
  clear_value put s3 s2
  refine .fst (.fst (.ctlRead h1) (.wcPut h1)) ?_
  split
  · extract_lets s4 s5 need
    have h4 : s₀.sameBoard s4 := .of h2 rfl
    have h5 : s₀.sameBoard s5 := .countLook h4
    clear_value s4 s5
    refine .fst (.ite (.dirtyLine (.of h5 rfl)) h5) (.fst (taken (.countLook h4)) ?_)
    split
    next s6 _ e =>
      have h6 : s₀.sameBoard s6 := .of_eq (congrArg Prod.fst e) (.ctlRead (.countLook h4))
      exact .fst (taken (.of h6 rfl)) (.ite h6 (.wcPut h6))
  · split
    · exact .fst (.ctlRead h3) (.wcPut h3)
    · split
      next s4 _ e =>
        have h4 : s₀.sameBoard s4 := .of_eq (congrArg Prod.fst e) (.fst h3 (.ctlRead h3))
        exact .fst (taken (.allocLine h4)) (.ite h4 (.wcPut h4))

theorem State.sameBoard.markIll {d : Option Nat} {a n : Nat} {wr : Bool} (h : s₀.sameBoard s) :
    s₀.sameBoard (s.markIll d a n wr) := by
  unfold State.markIll
  extract_lets as s1 src
  have h1 : s₀.sameBoard s1 := .ite (.of h rfl) h
  exact .ite (.of h1 rfl) h1

theorem State.sameBoard.writeCopies {d : Option Nat} {a : Nat} {bs : List Byte} (h : s₀.sameBoard s) :
    s₀.sameBoard (s.writeCopies d a bs) := by
  unfold State.writeCopies
  split
  · exact h
  · exact .of h rfl

theorem State.sameBoard.putHome {a : Nat} {bs : List Byte} (h : s₀.sameBoard s) : s₀.sameBoard (s.putHome a bs) := by
  unfold State.putHome
  exact .ite (.foldl (fun _ _ hs => .ite hs (.of hs rfl)) h) (.putBytes h)

theorem State.sameBoard.takeWrite {tag l wm : Nat} (h : s₀.sameBoard s) : s₀.sameBoard (s.takeWrite tag l wm) := by
  unfold State.takeWrite
  split
  next s1 _ e =>
    have h1 : s₀.sameBoard s1 := .of_eq (congrArg Prod.fst e) (.lookup (.recall h))
    extract_lets unit whole s2
    exact .foldl (fun _ _ hs => .meetMemUe hs) (.of h1 rfl)

theorem State.sameBoard.memWrite {g : Agent} {a : Nat} {bs : List Byte} (h : s₀.sameBoard s) : s₀.sameBoard (s.memWrite g a bs) := by
  unfold State.memWrite
  extract_lets n s1
  have h1 : s₀.sameBoard s1 := .foldl (fun _ _ hs => .takeWrite hs) h
  clear_value s1
  have h2 : s₀.sameBoard ((s1.putHome a bs).writeCopies g.die a bs) := .writeCopies (.putHome h1)
  exact .markIll (.of h2 rfl)

/-! ### Scratch and packets -/

theorem State.sameBoard.meetScrUe {u : Nat} (h : s₀.sameBoard s) : s₀.sameBoard (s.meetScrUe u) := by
  unfold State.meetScrUe
  extract_lets tile
  have inTile (t pa : Nat) (plinth : Bool) : s₀.sameBoard (tile t pa plinth s) := by
    unfold tile
    extract_lets s1 s2 s3
    have h2 : s₀.sameBoard s2 := .ite (.of h rfl) (.of h rfl)
    exact .reportSelf (.ite (.of h2 rfl) h2)
  clear_value tile
  refine .ite (inTile _ _ _) ?_
  split
  · exact inTile _ _ _
  · exact .reportSelf (.ite (.of h rfl) (.of h rfl))

theorem State.sameBoard.fixScrCe {u : Nat} (h : s₀.sameBoard s) : s₀.sameBoard (s.fixScrCe u) := by
  unfold State.fixScrCe
  extract_lets s1 t d
  clear_value t
  split <;> exact .of h rfl

theorem State.sameBoard.scrWrite {t : Nat} {w : Scr} {bs : List Byte} (h : s₀.sameBoard s) : s₀.sameBoard (s.scrWrite t w bs) := by
  unfold State.scrWrite
  extract_lets k n us part s1 s2 s3
  have h2 : s₀.sameBoard s2 := .foldl (fun _ _ hs => .meetScrUe hs) (.of h rfl)
  have h3 : s₀.sameBoard s3 := .foldl (fun _ _ hs => .fixScrCe hs) h2
  clear_value s3
  split <;> exact .of h3 rfl

theorem State.sameBoard.put {p : Packet} {a : Nat} {bs : List Byte} (h : s₀.sameBoard s) : s₀.sameBoard (s.put p a bs) :=
  .ite (.memWrite h) (.scrWrite h)

theorem State.sameBoard.land {p : Packet} (h : s₀.sameBoard s) : s₀.sameBoard (s.land p) := by
  unfold State.land
  extract_lets s1 s2
  have h2 : s₀.sameBoard s2 := .ite (.put (.of h rfl)) (.foldl (fun _ _ hs => .put hs) (.of h rfl))
  clear_value s2
  split
  · exact .ite (.of h2 rfl) (.of h2 rfl)
  · exact h2

theorem State.board_inboundOrdered (s : State) : s.inboundOrdered.board = s.board :=
  (State.sameBoard.foldl (fun _ _ hs => .land hs) ⟨rfl⟩ : s.sameBoard s.inboundOrdered).eq

end
end Sys2Proof.Machine
end

section
/-! PROOFS. The registers a write of which is a command (O41). -/
namespace Sys2Proof.Machine

/-! ### A write of a whole register -/

/-- A write of all eight bytes leaves nothing of the word. -/
theorem merge_all (w v : Word) : merge w v 63 0 = v := by
  have whole : getField v 63 0 = v.toNat := Nat.mod_eq_of_lt v.isLt
  apply BitVec.eq_of_toNat_eq
  rw [merge, setField_toNat w 63 0 _ (by decide) (by decide), whole, Nat.mod_eq_of_lt v.isLt, Nat.div_eq_of_lt w.isLt]
  omega

/-- An aligned access of eight bytes covers its doubleword. -/
theorem RegAcc.covers {via : RegVia} {o : Nat} (h : RegAcc.aligned ⟨via, o, 8⟩ = true) :
    RegAcc.lo ⟨via, o, 8⟩ = 0 ∧ RegAcc.hi ⟨via, o, 8⟩ = 63 := by
  simp only [RegAcc.aligned, Bool.and_eq_true, decide_eq_true_eq] at h
  simp only [RegAcc.hi, RegAcc.lo]
  omega

/-- Every command has a next state. -/
theorem exec_next (c : Instr) (s : State) : exec c s = .next (Res.st (exec c s) s) := by
  obtain ⟨u, next, -⟩ := exec_answers c s
  rw [next]
  rfl

section
variable {s : State} {via : RegVia} {o i : Nat} {k : RegKind}

theorem exec_registerWrite_reg (open_ : s.regOpen ⟨via, o, 8⟩) (v : Word)
    (meets : (s.beforeWrite ⟨via, o, 8⟩).regMeets ⟨via, o, 8⟩ true = .reg k i) :
    exec (.registerWrite ⟨via, o, 8⟩ v) s = .next ((s.beforeWrite ⟨via, o, 8⟩).writeReg k i v 63 0) := by
  obtain ⟨low, high⟩ := RegAcc.covers open_.1
  have write := registerAccess_write open_ v meets
  rw [low, high, BitVec.shiftLeft_zero] at write
  exact write

end

/-! ### The module where an access reaches it -/

section
variable {s : State} {a : RegAcc} {i : Nat} {k : RegKind} {write : Bool}

/-- A register access reaches a module under power. -/
theorem State.alive_beforeWrite (open_ : s.regOpen a) : (s.beforeWrite a).board.alive = true := by
  obtain ⟨via, o, n⟩ := a
  obtain ⟨-, reach⟩ := open_
  cases via with
  | bar0 fn =>
    obtain ⟨here, -⟩ := reach
    simp only [State.bar0Here, Bool.and_eq_true] at here
    exact (congrArg Board.alive s.board_inboundOrdered).trans here.1.1
  | core n mode va deleg =>
    obtain ⟨runs, -, -⟩ := reach
    simp only [State.coreRuns, Bool.and_eq_true] at runs
    exact runs.1.1.1.1

theorem hasReg_of_target {tag pa : Nat} (h : s.target tag pa write = .reg k i) : s.part.hasReg k i = true := by
  obtain ⟨r, -, e⟩ := s.target_spec tag pa write
  rw [e] at h
  cases r with
  | none => cases h
  | some r =>
    dsimp only at h
    split at h
    next reached =>
      cases h
      exact (Bool.and_eq_true _ _ ▸ reached).1
    · cases h

/-- A register that an access meets belongs to a unit that is present (R436). -/
theorem hasReg_of_regMeets (h : s.regMeets a write = .reg k i) : s.part.hasReg k i = true := by
  unfold State.regMeets at h
  split at h
  next fn _ =>
    rw [State.bar0] at h
    by_cases shut : (if fn = 0 then !s.bar0Open a.addr else s.recovering || !s.timer) = true
    · rw [if_pos shut] at h; cases h
    rw [if_neg shut] at h
    split at h
    · cases h
    split at h
    · cases h
    split at h
    · cases h
    · exact hasReg_of_target h
  · exact hasReg_of_target h

end

/-! ### Commands that may find one running -/

section
variable {s : State} {v : Word} {d n op : Nat} {f : State → State} {hit : Nat → Bool}

/-- A start of a slice command refuses as the write of MTC_CMD does (R218). -/
theorem State.mtcStart_refuses (alive : s.board.alive = true) (present : d < s.part.dies) :
    s.mtcStart d n f = if s.on F.MTC_CMD.BUSY d then s.raise F.MTC_EVENT.CMD_REJECT d else s.mtcStart d n f := by
  by_cases busy : s.on F.MTC_CMD.BUSY d = true
  · have here : ¬ (!s.board.alive || decide (s.part.dies ≤ d)) = true := by simp [alive, present]
    rw [State.mtcStart, if_neg here, if_pos busy, if_pos busy]
  · rw [if_neg busy]

/-- A start of an invalidation refuses as the write of XLT_INV does (R250). -/
theorem State.invStart_refuses (alive : s.board.alive = true) :
    s.invStart hit f = if s.on F.XLT_INV.BUSY 0 then s.raise F.XLT_EVENT.INV_REJECT 0 else s.invStart hit f := by
  by_cases busy : s.on F.XLT_INV.BUSY 0 = true
  · have here : ¬ (!s.board.alive) = true := by simp [alive]
    rw [State.invStart, if_neg here, if_pos busy, if_pos busy]
  · rw [if_neg busy]

/-- A start of a mailbox command refuses as the write of SEC_MBOX_CMD does (R384). -/
theorem State.writeMbox_op (alive : s.board.alive = true) (h : getField v 7 0 = op) :
    s.writeMbox v 63 0 = s.mboxStart op (min 1048576 (getField v 40 20)) := by
  subst h
  rw [State.writeMbox]
  by_cases busy : s.on F.SEC_MBOX_CMD.BUSY 0 = true
  · have here : ¬ (!s.board.alive) = true := by simp [alive]
    rw [State.mboxStart, if_neg here, if_pos busy, if_pos busy]
  · rw [if_neg busy]
    rfl

end

/-! ### A write by its OP -/

section
variable (s : State) (v : Word)

theorem State.writeMtc_op {d : Nat} (alive : s.board.alive = true) (present : d < s.part.dies) :
    let does (c : Nat → Nat → State → Res State) : Prop := s.writeMtc d v 63 0 = Res.st (c d (getField v 26 16) s) s
    (getField v 3 0 = 1 → does execWritebackAll) ∧ (getField v 3 0 = 2 → does execWritebackRange) ∧
      (getField v 3 0 = 3 → does execEvictRange) ∧ (getField v 3 0 = 4 → does execDiscardLostRange) := by
  have covers : (!F.MTC_CMD.OP.within 63 0) = false := rfl
  refine ⟨fun op => ?_, fun op => ?_, fun op => ?_, fun op => ?_⟩ <;>
    simp only [State.writeMtc, op, covers, Bool.false_eq_true, if_false, Res.st, execWritebackAll, execWritebackRange, execEvictRange,
      execDiscardLostRange] <;>
    exact (State.mtcStart_refuses alive present).symm

theorem State.writeAdd_op (d : Nat) :
    let does (c : Nat → Nat → State → Res State) : Prop := s.writeAdd d v 63 0 = Res.st (c d (min 2 (getField v 5 4)) s) s
    (getField v 1 0 = 1 → does execMemAdd) ∧ (getField v 1 0 = 2 → does execMemSum) := by
  have covers : (!F.MEM_ADD_CMD.OP.within 63 0) = false := rfl
  constructor <;> intro op <;> simp only [State.writeAdd, op, covers, Bool.false_eq_true, if_false]

theorem State.writeXlt_op (alive : s.board.alive = true) :
    let does (c : Nat → State → Res State) : Prop := s.writeXlt v 63 0 = Res.st (c (getField v 15 8) s) s
    (getField v 1 0 = 2 → does execXltInvContext) ∧ (getField v 1 0 = 3 → does execXltInvContextRange) := by
  have covers : (!F.XLT_INV.OP.within 63 0) = false := rfl
  constructor <;> intro op <;>
    simp only [State.writeXlt, op, covers, Bool.false_eq_true, if_false, Res.st, execXltInvContext, execXltInvContextRange] <;>
    exact (State.invStart_refuses alive).symm

/-- The written bits of CORE and REBUILD are those of one field. -/
theorem testBit_of_field {i : Nat} (h : i < 2) : v.toNat.testBit i = (getField v 1 0).testBit i := by
  rw [getField_testBit]
  simp [h]

theorem State.writeReset_op :
    (getField v 1 0 = 1 → s.writeReset v 63 0 = Res.st (execRebuildReset s) s) ∧
      (getField v 1 0 = 2 → s.writeReset v 63 0 = Res.st (execCfgResetCore s) s) := by
  have covers : (!F.CFG_RESET.CORE.within 63 0) = false := rfl
  have low := testBit_of_field v (i := 0) (by decide)
  have high := testBit_of_field v (i := 1) (by decide)
  have bits : Nat.testBit 1 0 = true ∧ Nat.testBit 1 1 = false ∧ Nat.testBit 2 0 = false ∧ Nat.testBit 2 1 = true := by decide
  constructor <;> intro op <;> rw [op] at low high <;>
    simp only [State.writeReset, covers, low, high, bits, Bool.false_eq_true, if_false, if_true]

end

/-- Settles O41: a write of eight bytes puts the register's whole value before the command that its row names. Where a command may
find one running, the access has shown that the module has power and the unit is present, as the command asks. -/
theorem registerActions : Obligations.RegisterActions := by
  intro s via o i v open_ wr met same op
  have alive : wr.board.alive = true := State.alive_beforeWrite open_
  have write {k : RegKind} {c : Instr} (m : met k) (does : wr.writeReg k i v 63 0 = Res.st (exec c wr) wr) : same c := by
    change exec _ s = exec c wr
    rw [exec_registerWrite_reg open_ v m, exec_next c wr]
    exact congrArg Host.Outcome.next does
  have whole (k : RegKind) : merge (wr.writeBase k i) v 63 0 = v := merge_all _ v
  have slice (m : met .MTC_CMD) : i < wr.part.dies := by simpa [Part.hasReg, RegKind.place, ofRiddle] using hasReg_of_regMeets m
  clear_value wr
  have reg {k : RegKind} {f : Word → State} {u : State} (h : f v = u) : f (merge (wr.writeBase k i) v 63 0) = u :=
    (congrArg f (whole k)).trans h
  refine ⟨fun m => write m ?_, fun m => write m ?_, fun m => write m ?_, fun m => write m ?_, fun m => write m ?_, fun m => write m ?_,
    fun m => ?_, fun m => ?_, fun m => ?_, fun m => write m ?_, fun m => write m ?_, fun m => write m ?_, fun m => write m ?_,
    fun m => write m ?_, fun m => ?_, fun m => ?_⟩
  · exact reg (f := fun w => Res.st (execSqDoorbell i w wr) wr) rfl
  · exact reg (f := fun w => Res.st (execCqDoorbell i w wr) wr) rfl
  · exact reg (f := fun w => Res.st (execPwrCapWrite w wr) wr) rfl
  · exact reg (f := fun w => Res.st (execCrsShareWrite w wr) wr) rfl
  · exact reg (f := fun w => Res.st (execCrsSliceWrite w wr) wr) rfl
  · exact reg (f := fun w => Res.st (execErrLogTailWrite w wr) wr) rfl
  · obtain ⟨all, range, evict, discard⟩ := wr.writeMtc_op v alive (slice m)
    have cmd {u : State} (h : wr.writeMtc i v 63 0 = u) := reg (k := .MTC_CMD) (f := fun w => wr.writeMtc i w 63 0) h
    exact ⟨fun h => write m (cmd (all h)), fun h => write m (cmd (range h)), fun h => write m (cmd (evict h)),
      fun h => write m (cmd (discard h))⟩
  · obtain ⟨add, sum⟩ := wr.writeAdd_op v i
    have cmd {u : State} (h : wr.writeAdd i v 63 0 = u) := reg (k := .MEM_ADD_CMD) (f := fun w => wr.writeAdd i w 63 0) h
    exact ⟨fun h => write m (cmd (add h)), fun h => write m (cmd (sum h))⟩
  · obtain ⟨ctx, range⟩ := wr.writeXlt_op v alive
    have cmd {u : State} (h : wr.writeXlt v 63 0 = u) := reg (k := .XLT_INV) (f := fun w => wr.writeXlt w 63 0) h
    exact ⟨fun h => write m (cmd (ctx h)), fun h => write m (cmd (range h))⟩
  · exact reg (f := fun w => wr.writeChk .CHK_VALUE i w 63 0) rfl
  · exact reg (f := fun w => wr.writeChk .CHK_DATA8 i w 63 0) rfl
  · exact reg (f := fun w => wr.writeChk .CHK_DATA16 i w 63 0) rfl
  · exact reg (f := fun w => wr.writeChk .CHK_DATA32 i w 63 0) rfl
  · exact reg (f := fun w => wr.writeChk .CHK_CFG i w 63 0) rfl
  · have cmd {n : Nat} (h : getField v 7 0 = n) :=
      reg (k := .SEC_MBOX_CMD) (f := fun w => wr.writeMbox w 63 0) (State.writeMbox_op alive h)
    exact ⟨fun h => write m (cmd h), fun h => write m (cmd h), fun h => write m (cmd h), fun h => write m (cmd h),
      fun h => write m (cmd h)⟩
  · obtain ⟨rebuild, core⟩ := wr.writeReset_op v
    have cmd {u : State} (h : wr.writeReset v 63 0 = u) := reg (k := .CFG_RESET) (f := fun w => wr.writeReset w 63 0) h
    exact ⟨fun h => write m (cmd (rebuild h)), fun h => write m (cmd (core h))⟩

end Sys2Proof.Machine
end

section
/-! PROOFS. The start of a rebuild reset (O33): what it discards, and what it keeps. -/
namespace Sys2Proof.Machine

/-! ### Dirty lines -/

theorem State.wcPut_only (s : State) (l m : Nat) : ∃ wc regs, s.wcPut l m = { s with wc := wc, regs := regs } := by
  have enters : ∃ wc, (if s.wc.any fun e => e.1 = l then
      { s with wc := s.wc.map fun e => if e.1 = l then (l, e.2 ||| m) else e }
    else { s with wc := s.wc ++ [(l, m)] }) = { s with wc := wc } := by
    split <;> exact ⟨_, rfl⟩
  obtain ⟨wc, enters⟩ := enters
  simp only [State.wcPut, enters]
  split
  · exact ⟨_, _, rfl⟩
  · split
    · split <;> exact ⟨_, _, rfl⟩
    · exact ⟨_, _, rfl⟩

/-- Write-backs under way, where no line has an error: only the lines of `todo` may be dirty still. -/
structure State.cleans (s : State) (todo : List Nat) : Prop where
  sound : s.lineUe = []
  rise : SMap.rising s.lines = true
  left : ∀ p ∈ s.lines, p.2.dirty ≠ 0 → p.1 ∈ todo

theorem State.cleans.writeBack {s : State} {l : Nat} {todo : List Nat} (h : s.cleans (l :: todo)) : (s.writeBack l).cleans todo := by
  obtain ⟨sound, rise, left⟩ := h
  have other : ∀ p ∈ s.lines, p.2.dirty ≠ 0 → p.1 ≠ l → p.1 ∈ todo := fun p hp dirty apart =>
    (List.mem_cons.1 (left p hp dirty)).resolve_left apart
  have calm : ¬ s.lineUe.contains l = true := by simp [sound]
  rw [State.writeBack, if_neg calm]
  split
  next m found =>
    have own : ∀ p ∈ s.lines, p.1 = l → p.2 = m := fun p hp at_ => by
      have here := SMap.find?_of_mem rise hp
      rw [at_, found] at here
      exact (Option.some.inj here).symm
    split
    next clean => exact ⟨sound, rise, fun p hp dirty => other p hp dirty fun at_ => dirty (own p hp at_ ▸ clean)⟩
    next =>
      obtain ⟨wc, regs, put⟩ := State.wcPut_only { s with lines := SMap.insert s.lines l { m with dirty := 0, below := [] } } l
        (sectorBytes m.dirty)
      rw [put]
      have rise' := SMap.rising_insert s.lines l { m with dirty := 0, below := [] } rise
      refine ⟨sound, rise', fun p hp dirty => ?_⟩
      have apart : p.1 ≠ l := fun at_ => by
        have here := SMap.find?_of_mem rise' hp
        rw [at_, SMap.find?_insert, if_pos rfl] at here
        exact dirty (congrArg MLine.dirty (Option.some.inj here)).symm
      rcases SMap.mem_insert _ _ _ _ hp with rfl | hp
      · exact absurd rfl apart
      · exact other p hp dirty apart
  next absent => exact ⟨sound, rise, fun p hp dirty => other p hp dirty (SMap.ne_of_find?_none absent hp)⟩

theorem State.cleans.foldl {s : State} {l : List Nat} (h : s.cleans l) : (l.foldl State.writeBack s).cleans [] := by
  induction l generalizing s with
  | nil => exact h
  | cons a l ih => exact ih h.writeBack

/-- No line of a slice is dirty after the rebuild reset's write-backs. -/
theorem State.dirtyLines_rebuildSlices {s : State} (sound : s.lineUe = []) (rise : SMap.rising s.lines = true) :
    s.rebuildSlices.dirtyLines = [] := by
  have start : s.cleans (s.dirtyLines.filter fun _ => true) := by
    refine ⟨sound, rise, fun p hp dirty => ?_⟩
    rw [List.filter_true]
    exact List.mem_map_of_mem (List.mem_filter.2 ⟨hp, decide_eq_true dirty⟩)
  have done := start.foldl
  rw [State.dirtyLines, List.map_eq_nil_iff, List.filter_eq_nil_iff]
  intro p hp
  have dirty := mt (done.left p (List.mem_of_mem_filter hp)) List.not_mem_nil
  simpa using dirty

/-! ### Stopped work -/

theorem SMap.find?_filterMap {α : Type} {g : Nat → α → Option α} {a : Nat} (m : SMap α) (same : ∀ v, g a v = some v) :
    SMap.find? (m.filterMap fun p => (g p.1 p.2).map fun v => (p.1, v)) a = SMap.find? m a := by
  induction m with
  | nil => rfl
  | cons p m ih =>
    obtain ⟨k, w⟩ := p
    by_cases at_ : a = k
    · subst at_
      simp [same, SMap.find?]
    · rw [SMap.find?, if_neg at_, ← ih, List.filterMap_cons]
      cases g k w with
      | none => rfl
      | some v => exact if_neg at_

theorem wipeTileReg_below {a : Nat} (low : a < 0x20000000) (v : Word) : wipeTileReg a v = some v := by
  unfold wipeTileReg
  exact if_pos (by simp [low])

/-- An inbound write, which a stop lets go on. -/
def Packet.inward (p : Packet) : Bool := match p.unit with
  | .inbound _ => true
  | _ => false

section
variable {s₀ s : State}

/-- From `s` to `u` only registers of the windows of dies and tiles changed. -/
abbrev State.windows (s u : State) : Prop := s.leaves (fun s => { s with regs := [] }) (· < 0x20000000) u

theorem State.windows.get {β : Type} (h : s₀.windows s) (π : State → β)
    (e : ∀ (u : State) regs, π { u with regs := regs } = π u) : π s = π s₀ :=
  ((e s []).symm.trans (congrArg π h.data)).trans (e s₀ [])

theorem State.leaves.tileReg {k : RegKind} {i : Nat} {w : Word} (h : s₀.windows s) (high : 0x20000000 ≤ k.place.addr i) :
    s₀.windows (s.setReg k i w) := .setReg h (by omega) rfl

theorem State.windows_dropPlinths (s : State) (l : List Nat) : s.windows (l.foldl State.dropPlinth s) :=
  .foldl (fun _ _ hs => .tileReg hs (tile_addr_ge _ _ _)) (.refl s)

/-- Stopped work: all that runs is gone but inbound writes, and registers below the tiles' windows stand. -/
theorem State.stopWork_work (s : State) :
    s.stopWork.work = (s.board, [], [], [], [], s.packets.filter Packet.inward, [], s.xlt, s.scr, s.items, s.queues, s.sets) ∧
      s.stopWork.lines = s.lines ∧ ∀ a, a < 0x20000000 → SMap.find? s.stopWork.regs a = SMap.find? s.regs a := by
  have marks : s.windows (s.loadedTiles.foldl (fun s t => (s.setFld F.SCP_PLINTH.WRITABLE t 0).setFld F.SCP_PLINTH.VALID t 0) s) :=
    .foldl (fun _ _ hs => .tileReg (.tileReg hs (tile_addr_ge _ _ _)) (tile_addr_ge _ _ _)) (.refl s)
  unfold State.stopWork
  generalize s.loadedTiles.foldl _ s = x at marks
  have work : x.work = s.work := State.windows.get marks State.work fun _ _ => rfl
  have lines : x.lines = s.lines := State.windows.get marks State.lines fun _ _ => rfl
  simp only [State.work, Prod.mk.injEq] at work
  obtain ⟨board, -, -, -, -, packets, -, xlt, scr, items, queues, sets⟩ := work
  refine ⟨?_, lines, fun a low => (SMap.find?_filterMap _ (wipeTileReg_below low)).trans (marks.regs a low)⟩
  simp only [State.work, board, packets, xlt, scr, items, queues, sets]
  rfl

/-- The slices' part touches nothing that runs. -/
theorem State.leaves.rebuildSlices (h : s₀.aside s) : s₀.aside s.rebuildSlices := by
  have back : s₀.aside (s.writeBackAll fun _ => true) := .writeBackAll h
  unfold State.rebuildSlices
  generalize s.writeBackAll _ = x at back
  exact .of back rfl rfl

/-- From `s` to `u` all that runs stopped, the slices wrote back and dropped what they held, and translations are gone. -/
structure State.halts (s u : State) : Prop where
  work : u.work = (s.board, [], [], [], [], s.packets.filter Packet.inward, [], [], s.scr, s.items, s.queues, s.sets)
  copies : u.copies = []
  regs : ∀ a, aloof a → SMap.find? u.regs a = SMap.find? s.regs a
  mem : s.calm → u.mem = s.mem
  clean : s.lineUe = [] → SMap.rising s.lines = true → u.dirtyLines = []

theorem State.halts_stopped (s : State) : s.halts s.stopWork.rebuildSlices.dropAll := by
  obtain ⟨stopped, lines, low⟩ := s.stopWork_work
  have store := s.sameStore_stopWork
  have slices : s.stopWork.aside s.stopWork.rebuildSlices := .rebuildSlices (.refl _)
  have work := slices.data.trans stopped
  simp only [State.work, Prod.mk.injEq] at work
  obtain ⟨board, tiles, blocks, riddles, hods, packets, plan, -, scr, items, queues, sets⟩ := work
  refine ⟨?_, rfl, fun a ha => ?_, fun calm => ?_, fun sound rise => ?_⟩
  · simp only [State.work, State.dropAll, board, tiles, blocks, riddles, hods, packets, plan, scr, items, queues, sets]
  · exact (slices.regs a ha).trans (low a (by unfold aloof at ha; omega))
  · have back : s.stopWork.rebuildSlices.mem = s.stopWork.mem := (State.quiet.foldl State.quiet_writeBack _ s.stopWork).mem (store.quiet.calm calm)
    exact back.trans store.mem
  · exact State.dirtyLines_rebuildSlices (store.lineUe.trans sound) (lines ▸ rise)

theorem State.halts.windows {s u v : State} (h : s.halts u) (k : u.windows v) : s.halts v where
  work := (State.windows.get k State.work fun _ _ => rfl).trans h.work
  copies := (State.windows.get k State.copies fun _ _ => rfl).trans h.copies
  regs a ha := (k.regs a (by unfold aloof at ha; omega)).trans (h.regs a ha)
  mem calm := (State.windows.get k State.mem fun _ _ => rfl).trans (h.mem calm)
  clean sound rise := (State.windows.get k State.dirtyLines fun _ _ => rfl).trans (h.clean sound rise)

end

/-! ### The start of a rebuild reset -/

/-- A queue once its fetches have ended. -/
def Queue.unfetched (x : Queue) : Queue := { x with refetch := none, fetchTag := none, room := 0, tokens := [] }

/-- From `s` to `u` a rebuild reset started. -/
structure State.restarts (s u : State) : Prop where
  phase : u.rebuilding = true
  ready : u.ready = false
  gone : s.discarded u
  still : ∀ r ∈ u.sets, r.moving = none
  queues : u.queues = s.queues.map fun e => (e.1, e.2.unfetched)
  items : u.items = s.items
  regs : ∀ a, a < 0x10700000 → SMap.find? u.regs a = SMap.find? s.regs a
  clean : s.sound → SMap.rising s.lines = true → u.mem = s.mem ∧ u.dirtyLines = []

theorem State.sound.calm {s : State} (h : s.sound) : s.calm := by
  obtain ⟨lost, -, -, -, -, line, -, tag, -, cache, -⟩ := h
  exact ⟨tag, line, cache, lost⟩

theorem State.rebuild_restarts (s : State) (cause detail : Nat) : s.restarts (s.rebuild cause detail) := by
  unfold State.rebuild
  extract_lets s1 s2 s3 fetch moving s4 stay
  have mild : (2 : Nat) ≠ 3 := by decide
  have log : s.logs s1 := .reportOf (r := ⟨0x0104, 2, uFrontEnd, cause, 0, detail, 0xFF, 0xFFFF⟩) mild (.refl s)
  clear_value s1
  have cleared : s2.fld F.CFE_STATUS.READY 0 = 0 :=
    (State.fld_setFld_other _ _ _ _ _ _ (by decide)).trans (State.fld_setFld_self _ _ _ _ (by decide))
  have phase : s2.fld F.CFG_STATE.PHASE 0 = 10 := State.fld_setFld_self _ _ _ _ (by decide)
  have low : s.leaves (fun x => (x.work, x.lines, x.mem, x.tagUe, x.lineUe, x.cacheUe, x.lost)) (· < 0x10700000) s2 :=
    .setFld (.setFld (.logs (.refl s) log (by decide) fun _ _ _ _ _ => rfl) (by decide) rfl) (by decide) rfl
  clear_value s2
  obtain ⟨work, copies, regs, mem, clean⟩ : s2.halts s4 := s2.halts_stopped.windows (s3.windows_dropPlinths moving)
  clear_value s4
  have data := low.data
  simp only [State.work, Prod.mk.injEq] at data work
  obtain ⟨⟨-, -, -, -, -, packets2, -, -, scr2, items2, queues2, sets2⟩, lines2, mem2, tag2, line2, cache2, lost2⟩ := data
  obtain ⟨-, tiles, blocks, riddles, hods, packets, plan, xlt, scr, items, queues, sets⟩ := work
  have fld (f : Fld) (h : aloof (f.at 0)) : s4.fld f 0 = s2.fld f 0 := State.fld_of_regs (regs _ h)
  refine ⟨?_, ?_, ⟨tiles, blocks, riddles, hods, fun p hp => ?_, copies, plan, xlt, scr.trans scr2⟩, fun r hr => ?_, ?_, items.trans items2,
    fun a ha => ?_, fun sound rise => ?_⟩
  · exact decide_eq_true ((fld F.CFG_STATE.PHASE (by decide)).trans phase)
  · exact decide_eq_false (fun e => absurd (((fld F.CFE_STATUS.READY (by decide)).trans cleared).symm.trans e) (by decide))
  · have hp : p ∈ s.packets.filter Packet.inward := packets2 ▸ packets ▸ hp
    obtain ⟨mine, inward⟩ := List.mem_filter.1 hp
    refine ⟨mine, ?_⟩
    unfold Packet.inward at inward
    split at inward
    next f e => exact ⟨f, e⟩
    next => cases inward
  · obtain ⟨r', -, rfl⟩ := List.mem_map.1 hr
    rfl
  · exact congrArg (List.map fetch) (queues.trans queues2)
  · exact (regs a (.inl (by omega))).trans (low.regs a ha)
  · obtain ⟨tag, line, cache, lost⟩ := sound.calm
    exact ⟨(mem ⟨tag2.trans tag, line2.trans line, cache2.trans cache, lost2.trans lost⟩).trans mem2,
      clean (line2.trans line) (lines2 ▸ rise)⟩

end Sys2Proof.Machine
end

section
/-! PROOFS. The requests for a rebuild reset (O33). -/
namespace Sys2Proof.Machine

/-! ### A queue whose timeout is exceeded -/

/-- A loop that raises a one-bit event of each queue of a list. -/
theorem State.raises_foldl (f : Fld) (l : List (Nat × Queue)) (s : State) :
    ∃ regs, l.foldl (fun (s : State) e => s.raise f e.1) s = { s with regs := regs } := by
  induction l generalizing s with
  | nil => exact ⟨_, rfl⟩
  | cons e l ih => exact ih (s.raise f e.1)

theorem State.fld_raise (f : Fld) (i j : Nat) (s : State) (one : f.lo = f.hi ∧ f.hi < 64) (h : s.fld f i = 1) :
    (s.raise f j).fld f i = 1 := by
  by_cases at_ : f.reg.place.addr i = f.reg.place.addr j
  · have same (u : State) : u.fld f i = u.fld f j := by
      rw [State.fld, State.reg, at_]
      rfl
    rw [same, State.raise, State.fld_setFld_self _ _ _ _ ⟨one.1.le, one.2⟩, one.1]
    simp
  · rw [State.raise, State.fld_setFld_other _ _ _ _ _ _ at_, h]

theorem State.fld_raises_foldl {f : Fld} {i : Nat} (one : f.lo = f.hi ∧ f.hi < 64) (l : List (Nat × Queue)) (s : State)
    (h : s.fld f i = 1 ∨ ∃ e ∈ l, e.1 = i) : (l.foldl (fun (s : State) e => s.raise f e.1) s).fld f i = 1 := by
  induction l generalizing s with
  | nil => exact h.resolve_right (by simp)
  | cons e l ih =>
    refine ih (s.raise f e.1) ?_
    rcases h with set_ | ⟨e', mem, at_⟩
    · exact .inl (State.fld_raise f i e.1 s one set_)
    · rcases List.mem_cons.1 mem with rfl | mem
      · refine .inl ?_
        rw [at_, State.raise, State.fld_setFld_self _ _ _ _ ⟨one.1.le, one.2⟩, one.1]
        simp
      · exact .inr ⟨e', mem, at_⟩

/-- A change of each queue by its own number. -/
theorem SMap.find?_mapWith {α β : Type} (g : Nat → α → β) (m : SMap α) (a : Nat) :
    SMap.find? (m.map fun e => (e.1, g e.1 e.2)) a = (SMap.find? m a).map (g a) := by
  induction m with
  | nil => rfl
  | cons p m ih =>
    obtain ⟨k, v⟩ := p
    by_cases at_ : a = k
    · subst at_
      simp [SMap.find?]
    · simp [SMap.find?, at_, ih]

theorem SMap.mem_of_find? {α : Type} {m : SMap α} {a : Nat} {v : α} (h : SMap.find? m a = some v) : (a, v) ∈ m := by
  induction m with
  | nil => cases h
  | cons p m ih =>
    obtain ⟨k, w⟩ := p
    by_cases at_ : a = k
    · rw [SMap.find?, if_pos at_] at h
      cases h
      exact at_ ▸ List.mem_cons_self
    · rw [SMap.find?, if_neg at_] at h
      exact List.mem_cons_of_mem _ (ih h)

/-! ### The two requests -/

/-- What a request that starts the reset leaves (O33). -/
def State.begins (s u : State) : Prop :=
  u.rebuilding = true ∧ u.ready = false ∧ s.discarded u ∧ (∀ r ∈ u.sets, r.moving = none) ∧
    (∀ e ∈ u.queues, e.2.tokens = []) ∧ u.items = s.items ∧ (s.sound → SMap.rising s.lines = true → u.mem = s.mem ∧ u.dirtyLines = [])

theorem State.restarts.begins {s u : State} (h : s.restarts u) : s.begins u := by
  refine ⟨h.phase, h.ready, h.gone, h.still, fun e he => ?_, h.items, h.clean⟩
  obtain ⟨e', -, rfl⟩ := List.mem_map.1 (h.queues ▸ he)
  rfl

section
variable {s : State}

theorem exec_rebuildReset_begins (alive : s.board.alive = true) (timer : s.timer = true) (runs : s.halted = false)
    (free : s.rebuilding = false) : ∃ u, exec .rebuildReset s = .next u ∧ s.begins u := by
  refine ⟨s.rebuild uFrontEnd 2, congrArg Host.Outcome.next ?_, (s.rebuild_restarts _ _).begins⟩
  rw [if_neg (by simp [alive]), if_neg (by simp [timer, runs]), if_neg (by simp [free])]

theorem exec_rebuildReset_refused (alive : s.board.alive = true) (early : s.timer = false ∨ s.halted = true) :
    exec .rebuildReset s = .next (s.raise F.CFG_EVENT.RESET_REFUSED 0) := by
  refine congrArg Host.Outcome.next ?_
  rw [if_neg (by simp [alive]), if_pos (by simpa using early)]

theorem exec_rebuildReset_joins (alive : s.board.alive = true) (timer : s.timer = true) (runs : s.halted = false)
    (busy : s.rebuilding = true) : exec .rebuildReset s = .next s := by
  refine congrArg Host.Outcome.next ?_
  rw [if_neg (by simp [alive]), if_neg (by simp [timer, runs]), if_pos busy]

/-- A timeout names a queue that is not an admin queue (R287). -/
theorem State.exceeds_lt {q : Nat} (h : s.exceeds q = true) : q < 1024 := by
  simp only [State.exceeds, isAdmin, Bool.and_eq_true, Bool.not_eq_true', decide_eq_false_iff_not] at h
  omega

/-- The mark of a queue whose timeout is exceeded. -/
def State.marked (s : State) (q : Nat) (x : Queue) : Queue := if s.exceeds q then { x with timedOut := true } else x

theorem exec_timeoutExceeded (q : Nat) (alive : s.board.alive = true) (timer : s.timer = true) (runs : s.halted = false)
    (free : s.rebuilding = false) (late : s.exceeds q = true) :
    exec (.timeoutExceeded q) s = .next (State.rebuild
      { (s.queues.filter fun e => s.exceeds e.1).foldl (fun (s : State) e => s.raise F.CFE_Q_EVENT.TIMEOUT e.1) s with
        queues := s.queues.map fun e => (e.1, s.marked e.1 e.2) } (uQueue q) 1) := by
  have marks : (s.queues.map fun e => (e.1, s.marked e.1 e.2)) =
      s.queues.map fun e => if s.exceeds e.1 then (e.1, { e.2 with timedOut := true }) else e := by
    refine List.map_congr_left fun e _ => ?_
    rw [State.marked]
    split <;> rfl
  rw [marks]
  exact congrArg Host.Outcome.next (if_neg (by simp [alive, timer, runs, free, late]))

theorem exec_timeoutExceeded_begins {q : Nat} (alive : s.board.alive = true) (timer : s.timer = true) (runs : s.halted = false)
    (free : s.rebuilding = false) (late : s.exceeds q = true) (listed : (SMap.find? s.queues q).isSome = true) :
    ∃ u, exec (.timeoutExceeded q) s = .next u ∧ s.begins u ∧ u.fld F.CFE_Q_EVENT.TIMEOUT q = 1 ∧ (u.queue q).timedOut = true := by
  refine ⟨_, exec_timeoutExceeded q alive timer runs free late, ?_⟩
  obtain ⟨x, found⟩ := Option.isSome_iff_exists.1 listed
  have raised := State.fld_raises_foldl (f := F.CFE_Q_EVENT.TIMEOUT) (i := q) (by decide) (s.queues.filter fun e => s.exceeds e.1) s
    (.inr ⟨(q, x), List.mem_filter.2 ⟨SMap.mem_of_find? found, late⟩, rfl⟩)
  obtain ⟨regs, only⟩ := State.raises_foldl F.CFE_Q_EVENT.TIMEOUT (s.queues.filter fun e => s.exceeds e.1) s
  rw [only] at raised ⊢
  have start := State.rebuild_restarts { s with regs := regs, queues := s.queues.map fun e => (e.1, s.marked e.1 e.2) } (uQueue q) 1
  generalize State.rebuild _ _ _ = u at start ⊢
  have low : F.CFE_Q_EVENT.TIMEOUT.at q < 0x10700000 := by
    have near := State.exceeds_lt late
    simp only [Fld.at, F.CFE_Q_EVENT.TIMEOUT, RegKind.place, Place.addr, if_pos near]
    omega
  refine ⟨start.begins, ?_, ?_⟩
  · exact (State.fld_of_regs (start.regs _ low)).trans raised
  · have queue : SMap.find? u.queues q = some (s.marked q x).unfetched := by
      rw [start.queues, List.map_map]
      refine (SMap.find?_mapWith (fun n y => (s.marked n y).unfetched) s.queues q).trans ?_
      rw [found]
      rfl
    rw [State.queue, SMap.get, queue, State.marked, if_pos late]
    rfl

end
end Sys2Proof.Machine
end

section
/-! PROOFS. The queues at the end of a rebuild reset (O33). -/
namespace Sys2Proof.Machine

/-! ### A queue's own registers -/

/-- A register of queue `r`: its state, or one of its block of controls. -/
def queueReg (r a : Nat) : Prop := a = (Place.qdb 0x10).addr r ∨ ∃ o, o < 0x40 ∧ a = (Place.qctl o).addr r

theorem queueReg_apart_state {q r : Nat} (hq : q < 1024) (hr : r < 1033) (ne : r ≠ q) : ¬ queueReg r ((Place.qdb 0x10).addr q) := by
  simp only [queueReg, Place.addr, if_pos hq]
  rintro (at_ | ⟨o, _, at_⟩) <;> split at at_ <;> omega

theorem queueReg_apart_control {q r o : Nat} (hq : q < 1024) (hr : r < 1033) (ne : r ≠ q) (ho : o < 0x40) :
    ¬ queueReg r ((Place.qctl o).addr q) := by
  simp only [queueReg, Place.addr, if_pos hq]
  rintro (at_ | ⟨o, _, at_⟩) <;> split at at_ <;> omega

theorem queueReg_lt {r a : Nat} (hr : r < 1033) (h : queueReg r a) : 0x10000000 ≤ a ∧ a < 0x10600240 := by
  simp only [queueReg, Place.addr] at h
  obtain at_ | ⟨o, _, at_⟩ := h <;> split at at_ <;> omega

/-! ### What the return of a queue leaves as it stands -/

/-- Every item has ended. -/
def State.settled (s : State) : Prop := ∀ i ∈ s.items, i.done = true

/-- From `s` to `u` queues of `l` returned to service: the rest of the front end, memory, scratch and the debt stand. -/
structure State.returns (l : List Nat) (s u : State) : Prop where
  data : (u.mem, u.scr, u.debt) = (s.mem, s.scr, s.debt)
  done : s.settled → u.settled
  queue : ∀ r, r ∉ l → SMap.find? u.queues r = SMap.find? s.queues r
  regs : ∀ a, a < 0x13000000 → (∀ r ∈ l, ¬ queueReg r a) → SMap.find? u.regs a = SMap.find? s.regs a

section
variable {l : List Nat} {s₀ s u v : State} {q : Nat}

theorem State.returns.refl (s : State) : s.returns l s := ⟨rfl, id, fun _ _ => rfl, fun _ _ _ => rfl⟩

theorem State.returns.trans (h : s.returns l u) (k : u.returns l v) : s.returns l v where
  data := k.data.trans h.data
  done := k.done ∘ h.done
  queue r hr := (k.queue r hr).trans (h.queue r hr)
  regs a low out := (k.regs a low out).trans (h.regs a low out)

theorem State.returns.mono {l' : List Nat} (h : s.returns l u) (sub : l ⊆ l') : s.returns l' u where
  data := h.data
  done := h.done
  queue r hr := h.queue r fun m => hr (sub m)
  regs a low out := h.regs a low fun r m => out r (sub m)

theorem State.returns.ite {c : Prop} [Decidable c] (h : s₀.returns l u) (k : s₀.returns l v) : s₀.returns l (if c then u else v) := by
  split <;> assumption

theorem State.returns.foldl {γ : Type} {f : State → γ → State} {m : List γ} (H : ∀ s a, s₀.returns l s → s₀.returns l (f s a))
    (h : s₀.returns l s) : s₀.returns l (m.foldl f s) := by
  induction m generalizing s with
  | nil => exact h
  | cons a m ih => exact ih (H s a h)

/-- A register of a queue that returns, or one above the front end's. -/
theorem State.returns.setReg {k : RegKind} {i : Nat} {w : Word} (h : s₀.returns l s)
    (own : 0x13000000 ≤ k.place.addr i ∨ ∃ r ∈ l, queueReg r (k.place.addr i)) : s₀.returns l (s.setReg k i w) := by
  refine ⟨h.data, h.done, h.queue, fun a low out => ?_⟩
  have apart : a ≠ k.place.addr i := by
    rintro rfl
    obtain high | ⟨r, mem, reg⟩ := own
    · omega
    · exact out r mem reg
  rw [State.find?_setReg, if_neg apart, h.regs a low out]

theorem State.returns.setFld {f : Fld} {i n : Nat} (h : s₀.returns l s)
    (own : 0x13000000 ≤ f.at i ∨ ∃ r ∈ l, queueReg r (f.at i)) : s₀.returns l (s.setFld f i n) := .setReg h own

theorem State.returns.setQueue {x : Queue} (mem : q ∈ l) (h : s₀.returns l s) : s₀.returns l (s.setQueue q x) := by
  refine ⟨h.data, h.done, fun r hr => ?_, h.regs⟩
  have apart : r ≠ q := fun e => hr (e ▸ mem)
  rw [State.setQueue, SMap.find?_insert, if_neg apart, h.queue r hr]

theorem State.returns.items {items : List Item} (h : s₀.returns l s) (done : s.settled → ∀ i ∈ items, i.done = true) :
    s₀.returns l { s with items := items } := ⟨h.data, fun d => done (h.done d), h.queue, h.regs⟩

theorem State.returns.logs (h : s₀.returns l s) (k : s.logs u) : s₀.returns l u := by
  have high : ∀ a ∈ logRegs, 0x13000000 ≤ a := by decide
  refine ⟨?_, fun d => ?_, fun r hr => ?_, fun a low out => ?_⟩
  · rw [k.data]
    exact h.data
  · rw [k.data]
    exact h.done d
  · rw [k.data]
    exact h.queue r hr
  · exact (k.regs a fun listed => absurd (high a listed) (by omega)).trans (h.regs a low out)

/-! ### The operations on a queue -/

theorem queueReg_state (r : Nat) : queueReg r (RegKind.CFE_Q_STATE.place.addr r) := .inl rfl
theorem queueReg_cpl (r : Nat) : queueReg r (RegKind.CFE_Q_CPL.place.addr r) := .inr ⟨0x20, by decide, rfl⟩
theorem queueReg_ctl (r : Nat) : queueReg r (RegKind.CFE_Q_CTL.place.addr r) := .inr ⟨0x18, by decide, rfl⟩
theorem queueReg_event (r : Nat) : queueReg r (RegKind.CFE_Q_EVENT.place.addr r) := .inr ⟨0x30, by decide, rfl⟩

theorem State.returns.queueReport {code addr detail : Nat} (h : s₀.returns l s) : s₀.returns l (s.queueReport q code addr detail) := by
  have mild : (2 : Nat) ≠ 3 := by decide
  exact .logs h (.reportOf (r := ⟨code, 2, uFrontEnd, uQueue q, addr, detail, s.qPart q, q⟩) mild (.refl s))

theorem State.returns.queueFault {reason : Nat} (mem : q ∈ l) (h : s₀.returns l s) : s₀.returns l (s.queueFault q reason) := by
  unfold State.queueFault
  extract_lets s1 st s2
  have h1 : s₀.returns l s1 := .setQueue mem h
  have state (x : State) (n : Nat) (f : Fld) (hf : f.reg = .CFE_Q_STATE) (hx : s₀.returns l x) : s₀.returns l (x.setFld f q n) :=
    .setFld hx (.inr ⟨q, mem, by rw [Fld.at, hf]; exact queueReg_state q⟩)
  have h2 : s₀.returns l s2 := .setFld (state _ _ _ rfl (state _ _ _ rfl h1)) (.inr ⟨q, mem, queueReg_event q⟩)
  exact .ite (state _ _ _ rfl h1) (.ite (.queueReport h2) (.ite (state _ _ _ rfl h1) h1))

theorem State.returns.freeQueue (mem : q ∈ l) (h : s₀.returns l s) : s₀.returns l (s.freeQueue q) := by
  unfold State.freeQueue
  extract_lets s1 s2
  have h1 : s₀.returns l s1 := .setReg (.setReg h (.inr ⟨q, mem, queueReg_state q⟩)) (.inr ⟨q, mem, queueReg_cpl q⟩)
  have h2 : s₀.returns l s2 := .ite h1 (.setReg h1 (.inr ⟨q, mem, queueReg_ctl q⟩))
  clear_value s2
  exact .items (.setQueue mem h2) fun d i hi => d i (List.mem_of_mem_filter hi)

theorem State.returns.modItem {seq : Nat} {f : Item → Item} (keeps : ∀ i, i.done = true → (f i).done = true) (h : s₀.returns l s) :
    s₀.returns l (s.modItem q seq f) := by
  refine .items h fun d i hi => ?_
  obtain ⟨j, hj, rfl⟩ := List.mem_map.1 hi
  split
  · exact keeps j (d j hj)
  · exact d j hj

theorem State.returns.finishAdmin {seq status result : Nat} (h : s₀.returns l s) : s₀.returns l (s.finishAdmin q seq status result) := by
  unfold State.finishAdmin State.finish
  have h1 : s₀.returns l (s.modItem q seq fun i => { i with result := result }) := .modItem (fun _ d => d) h
  generalize s.modItem q seq _ = x at h1
  have h2 : s₀.returns l (x.modItem q seq fun i =>
      { i with stage := .finished status 0 0xFF, kept := none, finish := x.finishCtr,
               checked := if i.stage = .fetched then x.ticks else i.checked }) := .modItem (fun _ _ => rfl) h1
  exact ⟨h2.data, h2.done, h2.queue, h2.regs⟩

theorem sec_addr_ge {b st t n : Nat} (high : 0x14000000 ≤ b) (i : Nat) : 0x13000000 ≤ (Place.lin b st t n).addr i := by
  simp only [Place.addr]
  omega

theorem State.returns.closeDrained (h : s₀.returns l s) : s₀.returns l s.closeDrained := by
  unfold State.closeDrained
  extract_lets ps s1
  have h1 : s₀.returns l s1 := ⟨h.data, h.done, h.queue, h.regs⟩
  refine .foldl (fun s p hs => ?_) h1
  have ranges : s₀.returns l ((List.range 2048).foldl (fun s n =>
      if s.part.populated (n * 2 ^ 30) && s.fld F.SEC_RANGE.OWNER n = p then s.raise F.SEC_RANGE.PENDING n else s) s) :=
    .foldl (fun s n hs => .ite (.setFld hs (.inl (sec_addr_ge (by decide) n))) hs) hs
  exact .setFld ranges (.inl (sec_addr_ge (by decide) p))

theorem State.returns.drained (mem : q ∈ l) (h : s₀.returns l s) : s₀.returns l (s.drained q) := by
  unfold State.drained
  extract_lets x s1 s2
  refine .ite (.closeDrained ?_) h
  have h1 : s₀.returns l s1 := .freeQueue mem h
  unfold s2
  split
  · split
    · exact .finishAdmin h1
    · exact h1
  · exact h1

theorem State.returns.afterRebuild (mem : q ∈ l) (h : s₀.returns l s) : s₀.returns l (s.afterRebuild q) :=
  .ite (.drained mem (.queueFault mem (.setQueue mem h))) (.drained mem h)

/-- The queues of a list return one after another. -/
theorem State.returns_foldl (s : State) (l : List Nat) : s.returns l (l.foldl State.afterRebuild s) := by
  have each (m : List Nat) (sub : m ⊆ l) (u : State) (h : s.returns l u) : s.returns l (m.foldl State.afterRebuild u) := by
    induction m generalizing u with
    | nil => exact h
    | cons q m ih => exact ih (List.subset_of_cons_subset sub) _ (.afterRebuild (sub List.mem_cons_self) h)
  exact each l (List.Subset.refl l) s (.refl s)

end
end Sys2Proof.Machine
end

section
/-! PROOFS. The end of a rebuild reset, and the four parts of O33. -/
namespace Sys2Proof.Machine

/-! ### A queue whose timeout started the reset -/

section
variable {s u : State} {q : Nat}

theorem State.logs.fld {f : Fld} {i : Nat} (h : s.logs u) (out : f.at i ∉ logRegs) : u.fld f i = s.fld f i :=
  State.fld_of_regs (h.regs _ out)

theorem State.returns.fld {l : List Nat} {f : Fld} {i : Nat} (h : s.returns l u) (low : f.at i < 0x13000000)
    (out : ∀ r ∈ l, ¬ queueReg r (f.at i)) : u.fld f i = s.fld f i := State.fld_of_regs (h.regs _ low out)

/-- A queue that does not drain is left as it is. -/
theorem State.drained_of_state (h : s.qState q ≠ qDraining) : s.drained q = s := by
  unfold State.drained
  exact if_neg (by simp [h])

/-- The end of a queue's fetches moves no register. -/
theorem State.fld_modQueue (f : Fld) (i : Nat) (g : Queue → Queue) : (s.modQueue q g).fld f i = s.fld f i :=
  State.fld_congr _ _ _ _ rfl

theorem State.afterRebuild_late (late : (s.queue q).timedOut = true) :
    s.afterRebuild q = ((s.modQueue q fun x => { x with timedOut := false }).queueFault q faultTimeout).drained q := by
  rw [State.afterRebuild, if_pos late]

section
variable {n : Nat}

theorem State.qState_setFault : (s.setFld F.CFE_Q_STATE.FAULT q n).qState q = s.qState q :=
  State.fld_setFld_beside _ _ _ _ _ (by decide) rfl (by decide)

theorem State.qFault_setFault (small : n < 16) : (s.setFld F.CFE_Q_STATE.FAULT q n).qFault q = n :=
  (State.fld_setFld_self _ _ _ _ (by decide)).trans (Nat.mod_eq_of_lt small)

/-- A blocked queue's fault is noted. -/
theorem State.queueFault_blocked (blocked : s.qState q = qBlocked) (small : n < 16) :
    (s.queueFault q n).qState q = qBlocked ∧ (s.queueFault q n).qFault q = n := by
  unfold State.queueFault
  extract_lets s1 st s2
  have state : s1.qState q = qBlocked := (State.fld_modQueue _ _ _).trans blocked
  clear_value s1
  rw [if_pos state]
  exact ⟨State.qState_setFault.trans state, State.qFault_setFault small⟩

theorem queueState_apart_event (near : q < 1024) : F.CFE_Q_STATE.STATE.at q ≠ F.CFE_Q_EVENT.FAULT.at q := by
  simp only [Fld.at, F.CFE_Q_STATE.STATE, F.CFE_Q_EVENT.FAULT, RegKind.place, Place.addr, if_pos near]
  omega

theorem queueReg_not_logRegs {a : Nat} (h : queueReg q a) (near : q < 1024) : a ∉ logRegs := by
  have high : ∀ a ∈ logRegs, 0x13000000 ≤ a := by decide
  have low := queueReg_lt (by omega) h
  exact fun listed => absurd (high a listed) (by omega)

/-- An active queue is faulted. -/
theorem State.queueFault_active (near : q < 1024) (active : s.qState q = qActive) (small : n < 16) :
    (s.queueFault q n).qState q = qFaulted ∧ (s.queueFault q n).qFault q = n ∧ (s.queueFault q n).fld F.CFE_Q_EVENT.FAULT q = 1 := by
  unfold State.queueFault
  extract_lets s1 st s2
  have state : st = qActive := (State.fld_modQueue _ _ _).trans active
  have apart := queueState_apart_event near
  have s2state : s2.qState q = qFaulted := by
    refine (State.fld_setFld_other _ _ _ _ _ _ apart).trans (State.qState_setFault.trans ?_)
    exact State.fld_setFld_self _ _ _ _ (by decide)
  have s2fault : s2.qFault q = n := (State.fld_setFld_other _ _ F.CFE_Q_STATE.FAULT _ _ _ apart).trans (State.qFault_setFault small)
  have s2event : s2.fld F.CFE_Q_EVENT.FAULT q = 1 := State.fld_setFld_self _ _ _ _ (by decide)
  clear_value s2
  have mild : (2 : Nat) ≠ 3 := by decide
  have log : s2.logs (s2.queueReport q 0x0102 0 n) :=
    .reportOf (r := ⟨0x0102, 2, uFrontEnd, uQueue q, 0, n, s2.qPart q, q⟩) mild (.refl s2)
  rw [state, if_neg (by decide), if_pos rfl]
  exact ⟨(log.fld (queueReg_not_logRegs (queueReg_state q) near)).trans s2state,
    (log.fld (queueReg_not_logRegs (queueReg_state q) near)).trans s2fault,
    (log.fld (queueReg_not_logRegs (queueReg_event q) near)).trans s2event⟩

end

theorem State.afterRebuild_blocked (late : (s.queue q).timedOut = true) (blocked : s.qState q = qBlocked) :
    (s.afterRebuild q).qState q = qBlocked ∧ (s.afterRebuild q).qFault q = faultTimeout := by
  have fault := State.queueFault_blocked (s := s.modQueue q fun x => { x with timedOut := false })
    ((State.fld_modQueue _ _ _).trans blocked) (n := faultTimeout) (by decide)
  rw [State.afterRebuild_late late, State.drained_of_state (by rw [fault.1]; decide)]
  exact fault

theorem State.afterRebuild_active (near : q < 1024) (late : (s.queue q).timedOut = true) (active : s.qState q = qActive) :
    (s.afterRebuild q).qState q = qFaulted ∧ (s.afterRebuild q).qFault q = faultTimeout ∧
      (s.afterRebuild q).fld F.CFE_Q_EVENT.FAULT q = 1 := by
  have fault := State.queueFault_active (s := s.modQueue q fun x => { x with timedOut := false }) near
    ((State.fld_modQueue _ _ _).trans active) (n := faultTimeout) (by decide)
  rw [State.afterRebuild_late late, State.drained_of_state (by rw [fault.1]; decide)]
  exact fault

/-- A queue beside those that return keeps its record, its state and its events. -/
theorem State.returns.other {l : List Nat} (h : s.returns l u) (near : q < 1024) (bound : ∀ r ∈ l, r < 1033) (out : q ∉ l) :
    u.queue q = s.queue q ∧ u.qState q = s.qState q ∧ u.qFault q = s.qFault q ∧
      u.fld F.CFE_Q_EVENT.FAULT q = s.fld F.CFE_Q_EVENT.FAULT q := by
  have apart : ∀ r ∈ l, r ≠ q := fun r mem e => out (e ▸ mem)
  have state := h.fld (f := F.CFE_Q_STATE.STATE) (i := q) ((queueReg_lt (by omega) (queueReg_state q)).2.trans (by decide))
    fun r mem => queueReg_apart_state near (bound r mem) (apart r mem)
  have fault := h.fld (f := F.CFE_Q_STATE.FAULT) (i := q) ((queueReg_lt (by omega) (queueReg_state q)).2.trans (by decide))
    fun r mem => queueReg_apart_state near (bound r mem) (apart r mem)
  have event := h.fld (f := F.CFE_Q_EVENT.FAULT) (i := q) ((queueReg_lt (by omega) (queueReg_event q)).2.trans (by decide))
    fun r mem => queueReg_apart_control near (bound r mem) (apart r mem) (by decide)
  exact ⟨congrArg (Option.getD · Queue.reset) (h.queue q out), state, fault, event⟩

/-- A queue whose timeout started the reset is faulted in its turn, or notes the fault where it was blocked; the turns of the other
queues leave it alone. -/
theorem State.foldl_afterRebuild {queues : List Nat} (all : List.range 1033 = queues) (near : q < 1024)
    (late : (s.queue q).timedOut = true) :
    let u := queues.foldl State.afterRebuild s
    (s.qState q = qActive → u.qState q = qFaulted ∧ u.qFault q = faultTimeout ∧ u.fld F.CFE_Q_EVENT.FAULT q = 1) ∧
      (s.qState q = qBlocked → u.qState q = qBlocked ∧ u.qFault q = faultTimeout) := by
  obtain ⟨l₁, l₂, split⟩ := List.append_of_mem (List.mem_range.2 (show q < 1033 by omega))
  have bound : ∀ r ∈ l₁ ++ q :: l₂, r < 1033 := fun r mem => List.mem_range.1 (split ▸ mem)
  have once : (l₁ ++ q :: l₂).Nodup := split ▸ List.nodup_range
  obtain ⟨out, -⟩ := List.nodup_cons.1 (List.nodup_middle.1 once)
  obtain ⟨out₁, out₂⟩ := not_or.1 (mt List.mem_append.2 out)
  obtain ⟨queue, was, -, -⟩ := (s.returns_foldl l₁).other near (fun r mem => bound r (List.mem_append_left _ mem)) out₁
  obtain ⟨-, state, fault, event⟩ := (State.returns_foldl ((l₁.foldl State.afterRebuild s).afterRebuild q) l₂).other near
    (fun r mem => bound r (List.mem_append_right _ (List.mem_cons_of_mem _ mem))) out₂
  rw [← all, split, List.foldl_append, List.foldl_cons]
  have marked : ((l₁.foldl State.afterRebuild s).queue q).timedOut = true := by rw [queue]; exact late
  refine ⟨fun active => ?_, fun blocked => ?_⟩
  · obtain ⟨faulted, reason, raised⟩ := State.afterRebuild_active near marked (was.trans active)
    exact ⟨state.trans faulted, fault.trans reason, event.trans raised⟩
  · obtain ⟨stays, reason⟩ := State.afterRebuild_blocked marked (was.trans blocked)
    exact ⟨state.trans stays, fault.trans reason⟩

/-! ### The end of a rebuild reset -/

theorem State.settled_finishItems (s : State) (status detail : Nat) : (s.finishItems (fun _ => true) status detail).settled := by
  intro i hi
  obtain ⟨⟨j, k⟩, -, rfl⟩ := List.mem_map.1 hi
  dsimp only
  split
  next e => rw [Item.done, e]
  next => rfl

/-- From `s` to `u` service was taken up again: READY is shown, and a host loss that waited begins. -/
structure State.resumes (s u : State) : Prop where
  frame : s.leaves (fun x => (x.mem, x.scr, x.debt, x.items))
    (fun a => a ≠ F.CFE_STATUS.READY.at 0 ∧ a ≠ F.CFG_EVENT.READY.at 0 ∧ a ≠ F.HOD_HOSTLOSS.STATE.at 0) u
  count : u.fld F.CFE_STATUS.REBUILDS 0 = s.fld F.CFE_STATUS.REBUILDS 0

theorem State.resumes.refl (s : State) : s.resumes s := ⟨.refl s, rfl⟩

theorem State.resumes.trans {v : State} (h : s.resumes u) (k : u.resumes v) : s.resumes v :=
  ⟨h.frame.trans k.frame, k.count.trans h.count⟩

theorem State.resumes.ite {v : State} {c : Prop} [Decidable c] (h : s.resumes u) (k : s.resumes v) :
    s.resumes (if c then u else v) := by split <;> assumption

theorem State.resumes_signalReady (s : State) : s.resumes s.signalReady := by
  have shown : s.resumes ((s.raise F.CFE_STATUS.READY 0).raise F.CFG_EVENT.READY 0) := by
    refine ⟨.setFld (.setFld (.refl s) (fun h => h.1 rfl) rfl) (fun h => h.2.1 rfl) rfl, ?_⟩
    exact (State.fld_setFld_other _ _ _ _ _ _ (by decide)).trans (State.fld_setFld_beside _ _ _ _ _ (by decide) rfl (by decide))
  unfold State.signalReady
  generalize State.raise _ F.CFG_EVENT.READY 0 = x at shown ⊢
  obtain ⟨pend, outs, sent⟩ := State.messages_msix (s := x) ⟨_, _, rfl⟩ 0 0
  rw [sent]
  have message : s.resumes { x with msixPend := pend, outs := outs } := ⟨.of shown.frame rfl rfl, shown.count⟩
  unfold State.ibi
  exact .ite ⟨.of message.frame rfl rfl, message.count⟩ message

theorem State.resumes_beginQuiesce (s : State) : s.resumes s.beginQuiesce := by
  unfold State.beginQuiesce
  exact .ite (.refl s) ⟨.setFld (.refl s) (fun h => h.2.2 rfl) rfl, State.fld_setFld_other _ _ _ _ _ _ (by decide)⟩

/-- The state in which the queues return: items have ended, the debt is gone, the reset is counted. -/
def State.closing (s : State) : State :=
  ({ s.finishItems (fun _ => true) stReset 0 with debt := 0, slip := false }.setFld F.CRS_DEBT.DEBT 0 0).bump F.CFE_STATUS.REBUILDS 0 1

/-- The end of a rebuild reset: queues return, the phase ends, service is taken up. -/
theorem exec_rebuildComplete {queues : List Nat} (all : List.range 1033 = queues) (alive : s.board.alive = true)
    (busy : s.rebuilding = true) :
    ∃ u, exec .rebuildComplete s = .next u ∧
      ((queues.foldl State.afterRebuild s.closing).setFld F.CFG_STATE.PHASE 0 9).resumes u := by
  have start : exec .rebuildComplete s = execRebuildComplete s := rfl
  rw [start, execRebuildComplete, all, if_neg (by simp [alive, busy])]
  extract_lets s0 s1 s2 s3 s4 s5
  have h5 : s4.resumes s5 := .ite (.refl s4) (State.resumes_signalReady s4)
  refine ⟨_, rfl, ?_⟩
  change s4.resumes _
  clear_value s4 s5
  exact .ite (h5.trans ((⟨.of (.refl s5) rfl rfl, rfl⟩ : s5.resumes { s5 with lossPend := false }).trans
    (State.resumes_beginQuiesce _))) h5

theorem State.closing_spec (s : State) :
    s.closing.settled ∧ s.closing.mem = s.mem ∧ s.closing.scr = s.scr ∧ s.closing.debt = 0 ∧ s.closing.queues = s.queues ∧
      s.closing.fld F.CRS_DEBT.DEBT 0 = 0 ∧
      s.closing.fld F.CFE_STATUS.REBUILDS 0 = min (s.fld F.CFE_STATUS.REBUILDS 0 + 1) (2 ^ 32 - 1) ∧
      ∀ f i, f.at i < 0x10700000 → s.closing.fld f i = s.fld f i := by
  have settled := s.settled_finishItems stReset 0
  refine ⟨settled, rfl, rfl, rfl, rfl, ?_, ?_, fun f i low => ?_⟩
  · exact (State.fld_setFld_other _ _ _ _ _ _ (by decide)).trans (State.fld_setFld_self _ _ _ _ (by decide))
  · refine (State.fld_bump _ _ _ _ (by decide)).trans ?_
    rw [State.fld_setFld_other _ _ _ _ _ _ (by decide)]
    rfl
  · have apart₁ : f.at i ≠ F.CFE_STATUS.REBUILDS.at 0 := ne_of_lt low
    have apart₂ : f.at i ≠ F.CRS_DEBT.DEBT.at 0 := ne_of_lt (low.trans (by decide))
    exact (State.fld_setFld_other _ _ _ _ _ _ apart₁).trans (State.fld_setFld_other _ _ _ _ _ _ apart₂)

/-- What the end of a rebuild reset leaves (R418). -/
theorem exec_rebuildComplete_ends (alive : s.board.alive = true) (busy : s.rebuilding = true) :
    ∃ u, exec .rebuildComplete s = .next u ∧ u.rebuilding = false ∧ u.debt = 0 ∧ u.fld F.CRS_DEBT.DEBT 0 = 0 ∧
      (∀ i ∈ u.items, i.done = true) ∧ u.mem = s.mem ∧ u.scr = s.scr ∧
      u.fld F.CFE_STATUS.REBUILDS 0 = min (s.fld F.CFE_STATUS.REBUILDS 0 + 1) (2 ^ 32 - 1) ∧
      ∀ q, q < 1024 → (s.queue q).timedOut = true →
        (s.qState q = qActive → u.qState q = qFaulted ∧ u.qFault q = faultTimeout ∧ u.fld F.CFE_Q_EVENT.FAULT q = 1) ∧
        (s.qState q = qBlocked → u.qState q = qBlocked ∧ u.qFault q = faultTimeout) := by
  obtain ⟨queues, all⟩ : ∃ queues, List.range 1033 = queues := ⟨_, rfl⟩
  obtain ⟨u, next, frame, count⟩ := exec_rebuildComplete all alive busy
  obtain ⟨settled, mem, scr, debt, named, owed, counted, low⟩ := s.closing_spec
  have returned := s.closing.returns_foldl queues
  have turn (q : Nat) (near : q < 1024) (late : (s.closing.queue q).timedOut = true) := State.foldl_afterRebuild all near late
  generalize s.closing = x at *
  generalize queues.foldl State.afterRebuild x = y at *
  have beyond {a : Nat} (ha : 0x10600240 ≤ a) : ∀ r ∈ queues, ¬ queueReg r a := fun r mem reg =>
    absurd (queueReg_lt (List.mem_range.1 (all ▸ mem)) reg).2 (Nat.not_lt.2 ha)
  have phase : u.fld F.CFG_STATE.PHASE 0 = 9 := (frame.fld (by decide)).trans (State.fld_setFld_self _ _ _ _ (by decide))
  have kept {f : Fld} {i : Nat} (reg : f.at i < 0x10700000) : u.fld f i = y.fld f i := by
    refine (frame.fld (f := f) (i := i) ⟨?_, ?_, ?_⟩).trans (State.fld_setFld_other _ _ _ _ _ _ ?_) <;>
      exact ne_of_lt (reg.trans_le (by decide))
  have data := frame.data
  have returnedData := returned.data
  simp only [Prod.mk.injEq] at data returnedData
  obtain ⟨umem, uscr, udebt, uitems⟩ := data
  obtain ⟨ymem, yscr, ydebt⟩ := returnedData
  refine ⟨u, next, ?_, udebt.trans (ydebt.trans debt), ?_, fun i hi => returned.done settled i (uitems ▸ hi),
    umem.trans (ymem.trans mem), uscr.trans (yscr.trans scr), ?_, fun q near late => ?_⟩
  · exact decide_eq_false fun ten => absurd (phase.symm.trans ten) (by decide)
  · exact ((frame.fld (by decide)).trans (State.fld_setFld_other _ _ _ _ _ _ (by decide))).trans
      ((returned.fld (by decide) (beyond (by decide))).trans owed)
  · exact (count.trans (State.fld_setFld_other _ _ _ _ _ _ (by decide))).trans
      ((returned.fld (by decide) (beyond (by decide))).trans counted)
  · have own {a : Nat} (reg : queueReg q a) : a < 0x10700000 := (queueReg_lt (by omega) reg).2.trans (by decide)
    have was : x.qState q = s.qState q := low F.CFE_Q_STATE.STATE q (own (queueReg_state q))
    have marked : (x.queue q).timedOut = true := by rw [State.queue, named]; exact late
    have state : u.qState q = y.qState q := kept (own (queueReg_state q))
    have fault : u.qFault q = y.qFault q := kept (own (queueReg_state q))
    have event : u.fld F.CFE_Q_EVENT.FAULT q = y.fld F.CFE_Q_EVENT.FAULT q := kept (own (queueReg_event q))
    have ends := turn q near marked
    rw [was] at ends
    rwa [state, fault, event]

end

/-- Settles O33: the start by `State.rebuild_restarts`, which follows what runs, the slices and the registers through the steps of R417;
the end by `State.foldl_afterRebuild`, in which the queues return one after another. -/
theorem rebuildResets : Obligations.RebuildResets := by
  intro s rails began
  have alive : s.board.alive = true := rails
  refine ⟨exec_rebuildReset_begins alive, fun early => ?_, fun timer runs busy => ⟨s, exec_rebuildReset_joins alive timer runs busy, rfl⟩,
    fun q timer runs free late listed => exec_timeoutExceeded_begins alive timer runs free late listed,
    exec_rebuildComplete_ends alive⟩
  exact ⟨_, exec_rebuildReset_refused alive early, State.fld_setFld_self _ _ _ _ (by decide),
    State.onlyRegs.refl.setFld (List.mem_singleton_self _)⟩

end Sys2Proof.Machine
end
